-- ==== Sys2Proof/Word.lean ====
section
/-!
DEFINITION. The words and byte strings every other file speaks of. Registers and descriptor fields
are bit vectors (R9, R102); cryptographic values and host buffers are byte strings, first byte at the
lowest address (R8).
-/

namespace Sys2Proof

/-- One byte. -/
abbrev Byte := BitVec 8

/-- A byte string, first byte at the lowest address (R8). -/
abbrev Bytes := List Byte

/-- A 32-bit register value (R9). -/
abbrev Word32 := BitVec 32

/-- A 64-bit value: host addresses, lengths, counts. -/
abbrev Word64 := BitVec 64

end Sys2Proof
end

