-- ==== Sys2Proof/Machine/Tab.lean ====
section
/-!
DEFINITION. Sparse tables: a list of (key, value) pairs in one canonical form, keys strictly rising and
no entry equal to the table's default. Host memory, rings, key slots, contexts, pages and counters are
such tables, so that equal contents are equal data.
-/

namespace Sys2Proof

/-- A sparse table from `Nat` keys. -/
abbrev Tab (α : Type) := List (Nat × α)

namespace Machine

/-- The entry of key `i`; the default `d` where none is listed. -/
def tget {α : Type} (d : α) : Tab α → Nat → α
  | [], _ => d
  | (k, v) :: t, i => if i = k then v else if i < k then d else tget d t i

/-- The table with key `i` removed. -/
def terase {α : Type} : Tab α → Nat → Tab α
  | [], _ => []
  | (k, v) :: t, i => if i = k then t else if i < k then (k, v) :: t else (k, v) :: terase t i

/-- The table with `v` at key `i`, in rising order, whatever `v` is. -/
def tput {α : Type} : Tab α → Nat → α → Tab α
  | [], i, v => [(i, v)]
  | (k, w) :: t, i, v =>
    if i = k then (i, v) :: t else if i < k then (i, v) :: (k, w) :: t else (k, w) :: tput t i v

/-- The table with `v` at key `i`; storing the default removes the entry. -/
def tset {α : Type} [DecidableEq α] (d : α) (t : Tab α) (i : Nat) (v : α) : Tab α :=
  if v = d then terase t i else tput t i v

/-- Every key is above `n` and keys rise strictly; no value is the default. -/
def twfFrom {α : Type} [DecidableEq α] (d : α) : Nat → Tab α → Bool
  | _, [] => true
  | n, (k, v) :: t => decide (n ≤ k) && decide (v ≠ d) && twfFrom d (k + 1) t

/-- The canonical form. -/
def twf {α : Type} [DecidableEq α] (d : α) (t : Tab α) : Bool := twfFrom d 0 t

/-- The entry of key `i` changed by `f`. -/
def tmod {α : Type} [DecidableEq α] (d : α) (t : Tab α) (i : Nat) (f : α → α) : Tab α :=
  tset d t i (f (tget d t i))

/-- Host memory, or any byte memory: unlisted addresses read as zero. -/
abbrev Mem := Tab Byte

/-- One byte of host memory. -/
def Mem.read (m : Mem) (a : Nat) : Byte := tget 0 m a

/-- One byte written. -/
def Mem.write (m : Mem) (a : Nat) (v : Byte) : Mem := tset 0 m a v

/-- `n` bytes from address `a`. -/
def Mem.readN (m : Mem) (a n : Nat) : Bytes := (List.range n).map fun k => Mem.read m (a + k)

/-- A byte string written from address `a`. -/
def Mem.writeN (m : Mem) (a : Nat) : Bytes → Mem
  | [] => m
  | b :: bs => Mem.writeN (Mem.write m a b) (a + 1) bs

/-- The memory's canonical form. -/
def Memory.wf (m : Mem) : Bool := twf (0 : Byte) m

end Machine
end Sys2Proof
end

