-- ==== Sys2Proof/Syntax.lean ====
section
/-!
DEFINITION. The commands the device takes: one constructor for each row of the command table, with the
operands the rule of that row names, and what the world outside adds to a command (its own stores to
host memory, failing reads, results of tests that no rule computes).
-/

namespace Sys2Proof

/-- How a read on the link fails (R97, R100, R826). -/
inductive DmaErr | unsupported | abort | poisoned | timeout
deriving DecidableEq, Repr

/-- A range of host addresses, first to last, whose reads fail. -/
structure DmaFault where
  lo : Nat
  hi : Nat
  kind : DmaErr
deriving DecidableEq, Repr

/-- A write of the host to configuration space: the SR-IOV capability's NumVFs, a function's Enable Relaxed Ordering,
the link's payload and read request sizes, ASPM L1, ECRC, and whether the downstream port asks for readiness messages
(R49, R50, R55, R61). -/
inductive CfgWrite
  | numVfs (n : Fin 32)
  | relaxedOrdering (f : Fin 32) (on : Bool)
  | maxPayload (bytes : Nat)
  | maxReadRequest (bytes : Nat)
  | aspmL1 (on : Bool)
  | ecrc (generate check : Bool)
  | readiness (on : Bool)
  | aerStatus (clear : BitVec 32)
  | aerMask (mask : BitVec 32)
  | aerSeverity (severity : BitVec 32)
deriving DecidableEq, Repr

/-- What the outside adds to a command that reads or writes host memory: the host's own stores made
before it, the ranges whose reads fail, a raw verdict word formed through a fault of one of the two
comparison paths (R313), and disturbed words of the vault's memories (R30, R416, R425). -/
structure Env where
  stores : List Host.Cell := []
  faults : List DmaFault := []
  raw : Option (BitVec 16) := none
  /-- lines of the GDDR6 vault regions that no longer verify, as interface and line index -/
  lines : List (Nat × Nat) := []
  /-- pip-table entries read with a wrong `CHECK`, by endpoint, with the bits that differ -/
  checks : List (Nat × Byte) := []
  /-- configuration-space writes of the host made before it -/
  config : List CfgWrite := []
  /-- physical pages of the user array that a margin scan finds weak (R694) -/
  weak : List Nat := []
deriving DecidableEq, Repr

/-- A descriptor posted on a ring (R102), its opcode given by the command. -/
structure Post where
  ring : Fin 512
  flags : Byte
  cls : Byte
  tag : Word32
  declLen : Word64
  body : Bytes
  env : Env
deriving DecidableEq, Repr

/-- The Pip port's pins in one cycle, as differences from a faultless request (R463 to R471). -/
structure PipPins where
  /-- bits of `PP_REQ` received wrong -/
  noise : BitVec 64 := 0
  /-- bits of `PP_REQCHK` received wrong, lane 7 first half's highest -/
  chkNoise : BitVec 8 := 0
  /-- `PP_REQV` at the rising and falling edge of period 0 -/
  strobe : BitVec 2 := 3
  /-- `PP_REQV` high in periods 1 to 3 -/
  strobeLater : Bool := false
deriving DecidableEq, Repr

/-- A request through the DOE mailbox: its length in bytes and the secured session that carries it. -/
structure DoeReq where
  len : Nat
  session : Option Nat
deriving DecidableEq, Repr

/-- Status codes of R145. -/
inductive Machine.Status
  | done | descMalformed | descOpcode | dmaFault | ringStopped | aborted | functionDisabled
  | lengthMismatch | lengthLimit | tagFail | keySpent | modeKeyClash | counterWrap
  | digestEarly | contextBusy | contextFree | compareMismatch | hallmarkLocked | contextLimit
  | recordMalformed | replay | stale | endpointUnknown | endpointRevoked | notArmed
  | vaultIntegrity | stagingFull | strandClosed
  | signetInput | signatureBad | entropyFail
  | appletFault | appletBudget | appletAbsent
  | slotEmpty | notPermitted | slotErased | slotLimit
  | deviceHalted | facetFenced | bringup | nvmRecalling | alarmScrub | standbyTakeover
  | cardAbsent | cardGone | cardProtected | cardError | bundleInvalid | quorumShort
  | nvmProtected | nvmWorn | nvmTorn
deriving DecidableEq, Repr

/-- The operation that owned a transfer whose integrity code failed (R29, R30): a descriptor, by ring and fetch number,
with the failure status that its chapter gives; a signature of a strand; the SPDM request. What a start step read enters
with the results of that step. -/
inductive TransferOwner
  | desc (ring : Fin 512) (seq : Nat) (status : Machine.Status)
  | strand (stream : Fin 64) (id : Word32) (ml : Bool)
  | spdm
deriving DecidableEq, Repr

/-- One event of a monitor (R625), with what its log entry would carry as VALUE, and for `BUS_INTEGRITY` the owner
of the failed transfer. -/
structure MonEvent where
  m : Fin 32
  detail : Byte
  value : Word32
  owner : Option TransferOwner := none
  /-- length of a rail excursion in ns; shortest clock phase in % of the nominal period -/
  extent : Byte := 0
  /-- the count of 1 µs spans a change of rate (R630) -/
  spans : Bool := false
deriving DecidableEq, Repr

/-- What a Knaquel private instruction reads (R674): with `CROWN_TRACE` the trace and registers of the crowns, from which
the key slots of crown memory are excluded; with `FACET_STATE` the pipeline and the context store of the facets. -/
inductive Knaquel
  | trace
  | keySlots
  | pipeline
  | contexts
deriving DecidableEq, Repr

/-- Results of the S2 start steps that no rule computes (R757). -/
structure S2Results where
  /-- the first test of its start self-test that crown A fails, counted from 0, and its step -/
  crownA : Option (Fin 7 × Byte)
  /-- the same of crown B -/
  crownB : Option (Fin 7 × Byte)
  /-- antifuse copies that cannot be programmed -/
  copyFails : BitVec 3
  /-- `PWR_GOOD` falls while the pending transition is acted on, `VDD_KPR` holding: the actions of R671 done before, of
  seven (the flag `WIPE`; the DRK and the log; the records; the copies 0, 1 and 2; the clearing) -/
  cut : Option (Fin 7)
  /-- engines whose known-answer test passes -/
  kat : BitVec 12
  /-- weak pages whose rewrite fails its read-back -/
  pageFails : List Nat
  /-- the part's VID code (R839) -/
  vid : BitVec 6
deriving DecidableEq, Repr

/-- The result of a GDDR6 training method (R758, R830): rate trained, or none; interfaces trained at the
last rate tried; time; highest rate that failed and its first failing bit. -/
structure Training where
  rate : Option Nat
  trained : BitVec 4
  time : Nat
  failRate : Nat
  failDq : Nat
deriving DecidableEq, Repr

/-- What waits for `HIF.SCHED_AGE`: the n-th waiting descriptor of a ring, or a message of a facet. -/
inductive AgeOf
  | ring (r : Fin 512) (n : Nat)
  | facet (f : Fin 16) (id : Nat)
deriving DecidableEq, Repr

/-- Blocks with a counter-clearing bit. -/
inductive CntBlock | apl | nvm | crd | fct (f : Fin 16) | clu (c : Fin 4)
deriving DecidableEq, Repr

/-- What a card answers, or that it does not. -/
inductive CardResp
  /-- no answer within the wait limit -/
  | silent
  /-- a response on `SD_CMD`, of 6 or 17 bytes, with its CRC (R722) -/
  | sd (b : Bytes)
  /-- a CRC status token: 0b010 positive (R724) -/
  | token (t : BitVec 3)
  /-- a data block, with the CRC of each active line -/
  | data (b : Bytes) (crcs : List (BitVec 16))
  /-- characters of a contact card: an ATR, a PPS response, a T=1 block, or T=0 procedure bytes, data and status -/
  | chars (b : Bytes)
  /-- a character with a parity error -/
  | parity
deriving DecidableEq, Repr

/-- The commands. -/
inductive Instr
  /-- R125 -/
  | nop (p : Post)
  /-- R127 -/
  | fence (p : Post)
  /-- R230 -/
  | aesEcb (p : Post)
  /-- R230 -/
  | aesCbc (p : Post)
  /-- R231 -/
  | aesCtr (p : Post)
  /-- R233 -/
  | aesGcm (p : Post)
  /-- R244 -/
  | aesXts (p : Post)
  /-- R248 -/
  | aesCmac (p : Post)
  /-- R249 -/
  | aesKw (p : Post)
  /-- R261 -/
  | cipherDrop (p : Post)
  /-- R290 -/
  | digest (p : Post)
  /-- R291 -/
  | digOpen (p : Post)
  /-- R298 -/
  | digUpdate (p : Post)
  /-- R306 -/
  | digFinal (p : Post)
  /-- R307 -/
  | digRead (p : Post)
  /-- R311 -/
  | digCompare (p : Post)
  /-- R289 -/
  | digRelease (p : Post)
  /-- R297 -/
  | digFlush (p : Post)
  /-- R322 -/
  | hmExtend (p : Post)
  /-- R329 -/
  | hmRead (p : Post)
  /-- R330 -/
  | hmReset (p : Post)
  /-- R330 -/
  | hmLock (p : Post)
  /-- R330 -/
  | hmSetup (p : Post)
  /-- R323 -/
  | hallmarkExtendApplied
  /-- R362 -/
  | sigSign (p : Post)
  /-- R364 -/
  | sigVerify (p : Post)
  /-- R386 -/
  | randomDraw (p : Post)
  /-- R369 -/
  | sigQuote (p : Post)
  /-- R346 -/
  | engineStart (n : Fin 12) (env : Env)
  /-- R345 -/
  | engineOpDone (n : Fin 12) (env : Env) (signCheckFails : Bool)
  /-- R383 -/
  | reseedWaitTimeout (i : Fin 4)
  /-- R379 -/
  | entropyHealthFail (proportion : Bool)
  /-- R378 -/
  | entropySettleEnd
  /-- R378 -/
  | startupTestDone (rctFails aptFails : Bool)
  /-- R376 -/
  | conditionedBlock
  /-- R394 -/
  | entCtlRestart (fn : Fin 32)
  /-- R390 -/
  | entStim (fn : Fin 32)
  /-- R401 -/
  | rawTapRead (fn : Fin 32)
  /-- R453 -/
  | vaultFormat (p : Post)
  /-- R454 -/
  | vaultEnroll (p : Post)
  /-- R457 -/
  | vaultRevoke (p : Post)
  /-- R456 -/
  | vaultRekey (p : Post)
  /-- R458 -/
  | vaultArm (p : Post)
  /-- R459 -/
  | vaultQuery (p : Post)
  /-- R433 -/
  | vaultCheckpoint (p : Post)
  /-- R437 -/
  | vaultCommit (p : Post)
  /-- R447 -/
  | vaultImport (p : Post)
  /-- R448 -/
  | vaultMoveOpen (p : Post)
  /-- R431 -/
  | foldPass (env : Env)
  /-- R429 -/
  | armBatchClose
  /-- R428 -/
  | armComplete
  /-- R427 -/
  | bitmapSetClear
  /-- R425 -/
  | pipEntryRebuild (endpoint : BitVec 20) (lineOk : Bool)
  /-- R419 -/
  | vaultKeyFetchDone (f : Fin 16) (id : Nat) (lineOk : Bool)
  /-- R462 -/
  | vaultCtlFlush (fn : Fin 32)
  /-- R462 -/
  | vaultCtlStim (fn : Fin 32)
  /-- R484 -/
  | pipPeek (endpoint : BitVec 20) (seq : BitVec 40) (rtag : BitVec 2) (pins : PipPins)
  /-- R485 -/
  | pipClaim (endpoint : BitVec 20) (seq : BitVec 40) (rtag : BitVec 2) (pins : PipPins)
  /-- R494 -/
  | pipArm (endpoint : BitVec 20) (seq : BitVec 40) (rtag : BitVec 2) (pins : PipPins)
  /-- R470 -/
  | pipIdleCycle (strobeLater : Bool)
  /-- R474 -/
  | pipAnswerCutoff (req : BitVec 64) (pins : PipPins) (tookEffect : Bool)
  /-- R467 -/
  | qclkLock (locked : Bool)
  /-- R468 -/
  | pipReframe (fn : Fin 32)
  /-- R499 -/
  | clrFault (fn : Fin 32)
  /-- R510 -/
  | capture (p : Post)
  /-- R532 -/
  | strandSetup (p : Post)
  /-- R541 -/
  | strandCollect (p : Post)
  /-- R544 -/
  | strandClose (p : Post)
  /-- R535 -/
  | strandTimeLimit (stream : Fin 4)
  /-- R539 -/
  | strandSignRetry (stream : Fin 4) (id : Word32) (ml : Bool)
  /-- R584 -/
  | appletInvoke (p : Post)
  /-- R563 -/
  | appletInstall (p : Post)
  /-- R565 -/
  | appletRemove (p : Post)
  /-- R554 -/
  | appletSigner (p : Post)
  /-- R568 -/
  | moveEngineTake (env : Env)
  /-- R571 -/
  | moveAdd (e : Fin 4) (d a b : Fin 16)
  /-- R571 -/
  | moveSub (e : Fin 4) (d a b : Fin 16)
  /-- R571 -/
  | moveMul (e : Fin 4) (d a b : Fin 16)
  /-- R571 -/
  | moveDivu (e : Fin 4) (d a b : Fin 16)
  /-- R571 -/
  | moveRemu (e : Fin 4) (d a b : Fin 16)
  /-- R571 -/
  | moveAnd (e : Fin 4) (d a b : Fin 16)
  /-- R571 -/
  | moveOr (e : Fin 4) (d a b : Fin 16)
  /-- R571 -/
  | moveXor (e : Fin 4) (d a b : Fin 16)
  /-- R571 -/
  | moveShl (e : Fin 4) (d a b : Fin 16)
  /-- R571 -/
  | moveShr (e : Fin 4) (d a b : Fin 16)
  /-- R571 -/
  | moveAddi (e : Fin 4) (d a : Fin 16) (imm : Word32)
  /-- R571 -/
  | moveLdi (e : Fin 4) (d : Fin 16) (imm : Word32)
  /-- R571 -/
  | moveLdih (e : Fin 4) (d : Fin 16) (imm : Word32)
  /-- R571 -/
  | moveAndi (e : Fin 4) (d a : Fin 16) (imm : Word32)
  /-- R571 -/
  | moveShli (e : Fin 4) (d a : Fin 16) (imm : Word32)
  /-- R571 -/
  | moveShri (e : Fin 4) (d a : Fin 16) (imm : Word32)
  /-- R571 -/
  | moveCmpeq (e : Fin 4) (d a b : Fin 16)
  /-- R571 -/
  | moveCmpltu (e : Fin 4) (d a b : Fin 16)
  /-- R571 -/
  | moveBeqz (e : Fin 4) (a : Fin 16) (imm : Word32)
  /-- R571 -/
  | moveBnez (e : Fin 4) (a : Fin 16) (imm : Word32)
  /-- R571 -/
  | moveJmp (e : Fin 4) (imm : Word32)
  /-- R575 -/
  | moveMemcmp (e : Fin 4) (d a b : Fin 16) (imm : Word32) (raw : Option (BitVec 16))
  /-- R571 -/
  | moveLd (e : Fin 4) (d a : Fin 16) (c : Fin 4) (imm : Word32)
  /-- R571 -/
  | moveSt (e : Fin 4) (a b : Fin 16) (c : Fin 4) (imm : Word32)
  /-- R578 -/
  | moveFld (e : Fin 4) (d : Fin 16) (imm : Word32)
  /-- R572 -/
  | moveKdf (e : Fin 4) (a b : Fin 16) (c : Fin 4) (imm : Word32)
  /-- R573 -/
  | moveCtr (e : Fin 4) (d a b : Fin 16) (imm : Word32)
  /-- R571 -/
  | moveCmac (e : Fin 4) (d a b : Fin 16) (imm : Word32)
  /-- R573 -/
  | moveGcms (e : Fin 4) (d a b : Fin 16) (imm : Word32)
  /-- R573 -/
  | moveGcmo (e : Fin 4) (d a b : Fin 16) (imm : Word32) (raw : Option (BitVec 16))
  /-- R571 -/
  | moveHash (e : Fin 4) (d a b : Fin 16) (imm : Word32)
  /-- R580 -/
  | moveHmx (e : Fin 4) (a : Fin 16) (imm : Word32)
  /-- R579 -/
  | moveNote (e : Fin 4) (a : Fin 16)
  /-- R581 -/
  | moveRet (e : Fin 4) (a b : Fin 16) (imm : Word32)
  /-- R199 -/
  | keyGenerate (p : Post)
  /-- R191 -/
  | keyImport (p : Post)
  /-- R192 -/
  | keyExport (p : Post)
  /-- R203 -/
  | keyDestroy (p : Post)
  /-- R874 -/
  | keyRelease (p : Post)
  /-- R198 -/
  | keyLimit (p : Post)
  /-- R194 -/
  | keyLoad (p : Post)
  /-- R201 -/
  | keyPublic (p : Post)
  /-- R200 -/
  | keyDecapsulate (p : Post)
  /-- R202 -/
  | keyScrub (p : Post)
  /-- R202 -/
  | keyPurge (p : Post)
  /-- R210 -/
  | cerBegin (p : Post)
  /-- R212 -/
  | cerShare (p : Post)
  /-- R213 -/
  | cerFinish (p : Post)
  /-- R211 -/
  | cerCancel (p : Post)
  /-- R211 -/
  | ceremonyTimeout
  /-- R796 -/
  | snapshot (p : Post)
  /-- R800 -/
  | snpTrigger (fn : Fin 32)
  /-- R808 -/
  | clrViol (fn : Fin 32)
  /-- R786 -/
  | snapshotMarker (unit : Fin 27) (channel : Option (Fin 149)) (env : Env)
  /-- R789 -/
  | snapshotAckTimeout (env : Env)
  /-- R747 -/
  | sdInfo (p : Post)
  /-- R734 -/
  | bundleWrite (p : Post)
  /-- R735 -/
  | bundleImport (p : Post)
  /-- R747 -/
  | ccInfo (p : Post)
  /-- R748 -/
  | ccClear (p : Post)
  /-- R719 -/
  | sdCardDetect (present wp : Bool)
  /-- R743 -/
  | ccCardDetect (present : Bool)
  /-- R725 -/
  | sdBusyTimeout
  /-- R751 -/
  | ccDeact (fn : Fin 32)
  /-- R751 -/
  | sdOff (fn : Fin 32)
  /-- R669 -/
  | lcsTransition (p : Post)
  /-- R670 -/
  | lcsCancel (p : Post)
  /-- R678 -/
  | lcsDebugKey (p : Post)
  /-- R675 -/
  | lcsDebugNonce (p : Post)
  /-- R676 -/
  | lcsDebugGrant (p : Post)
  /-- R677 -/
  | lcsDebugRevoke (p : Post)
  /-- R677 -/
  | debugGrantExpire
  /-- R680 -/
  | provIdkey (p : Post)
  /-- R681 -/
  | provCert (p : Post)
  /-- R682 -/
  | provPatch (p : Post)
  /-- R616 -/
  | crownSwap (p : Post)
  /-- R616 -/
  | crownRejoin (p : Post)
  /-- R712 -/
  | nvmRead (p : Post)
  /-- R699 -/
  | nvmWrite (p : Post)
  /-- R714 -/
  | nvmScan (p : Post)
  /-- R706 -/
  | nvmPageWriteDone (retries : Nat) (failed : Bool)
  /-- R694 -/
  | recallDone (us : Nat) (weak : List Nat)
  /-- R691 -/
  | holdupTrip (bursts : Nat) (held : Bool)
  /-- R93 -/
  | doorbellPoll (f : Fin 32)
  /-- R95 -/
  | pollComplete (f : Fin 32) (env : Env)
  /-- R98 -/
  | descriptorFetch (ring : Fin 512)
  /-- R98 -/
  | fetchComplete (ring : Fin 512) (env : Env)
  /-- R120 -/
  | dispatch
  /-- R131 -/
  | hostReadComplete (ring : Fin 512) (n : Nat) (env : Env)
  /-- R121 -/
  | schedAgeExpiry (target : AgeOf)
  /-- R267 -/
  | segmentEnd (f : Fin 16) (lane : Fin 8) (env : Env) (stageFails : Bool)
  /-- R118 -/
  | coalTimeExpiry (ring : Fin 512)
  /-- R119 -/
  | msixUnmask (f : Fin 32) (vector : Fin 64)
  /-- R143 -/
  | ringEn (fn : Fin 32) (ring : Fin 512)
  /-- R140 -/
  | ringStop (fn : Fin 32) (ring : Fin 512)
  /-- R142 -/
  | ringAbort (fn : Fin 32) (ring : Fin 512)
  /-- R140 -/
  | ringReset (fn : Fin 32) (ring : Fin 512)
  /-- R140 -/
  | functionDisabled (fn : Fin 32) (f : Fin 32)
  /-- R780 -/
  | flr (f : Fin 32)
  /-- R64 -/
  | pePerstN
  /-- R64 -/
  | hotReset
  /-- R64 -/
  | dlDown
  /-- R52 -/
  | retrain (rate : BitVec 4) (width : BitVec 6)
  /-- R58 -/
  | d3hot (f : Fin 32) (enter : Bool)
  /-- R81 -/
  | ideFail (stream : Fin 5)
  /-- R67 -/
  | doeDiscovery (q : DoeReq) (index : Byte)
  /-- R69 -/
  | doeAbort
  /-- R71 -/
  | getVersion (q : DoeReq)
  /-- R71 -/
  | getCapabilities (q : DoeReq)
  /-- R71 -/
  | negotiateAlgorithms (q : DoeReq) (asym hash dhe aead schedule : Bool)
  /-- R72 -/
  | getDigests (q : DoeReq)
  /-- R72 -/
  | getCertificate (q : DoeReq) (slot : BitVec 4) (offset length : BitVec 16)
  /-- R388 -/
  | challenge (q : DoeReq) (slot : BitVec 4) (nonce : BitVec 256)
  /-- R73 -/
  | getMeasurements (q : DoeReq) (index : Byte) (nonce : Option (BitVec 256))
  /-- R74 -/
  | keyExchange (q : DoeReq) (slot : BitVec 4) (peer : Bytes)
  /-- R71 -/
  | finish (q : DoeReq) (macOk : Bool)
  /-- R71 -/
  | heartbeat (q : DoeReq)
  /-- R71 -/
  | keyUpdate (q : DoeReq)
  /-- R71 -/
  | endSession (q : DoeReq)
  /-- R78 -/
  | ideQuery (q : DoeReq) (stream : Fin 5)
  /-- R78 -/
  | keyProg (q : DoeReq) (stream : Fin 5) (set : Fin 2) (sub : Fin 6) (key : BitVec 256)
  /-- R80 -/
  | kSetGo (q : DoeReq) (stream : Fin 5) (set : Fin 2)
  /-- R78 -/
  | kSetStop (q : DoeReq) (stream : Fin 5) (set : Fin 2)
  /-- R603 -/
  | crownHeartbeat
  /-- R604 -/
  | heartbeatCheck
  /-- R606 -/
  | takeover (cause : Fin 3) (env : Env)
  /-- R604 -/
  | crownFaultSignal (integrity : Bool)
  /-- R608 -/
  | seizeTimeout (clasp : Fin 4)
  /-- R605 -/
  | crownLoss
  /-- R597 -/
  | claspOutput (crownB : Bool) (clasp : Fin 4) (tie : Bool)
  /-- R621 -/
  | healthReport
  /-- R622 -/
  | standbyReportCheck
  /-- R620 -/
  | selfTestLoopDone (crownB : Bool) (fail : Option (Fin 7 × Byte))
  /-- R618 -/
  | rejoinAuto
  /-- R624 -/
  | crnStim (fn : Fin 32)
  /-- R633 -/
  | monitorEvent (events : List MonEvent)
  /-- R644 -/
  | scrubClearDone
  /-- R625 -/
  | zeroN
  /-- R651 -/
  | batterySample (group : Fin 4) (shows : List (Fin 32 × Byte)) (reading : BitVec 16)
  /-- R654 -/
  | tmpStim (fn : Fin 32) (m : Fin 32)
  /-- R654 -/
  | tmpStimDone
  /-- R643 -/
  | tmpLock (fn : Fin 32)
  /-- R656 -/
  | logClear (fn : Fin 32)
  /-- R642 -/
  | monCfgWrite (fn : Fin 32) (m : Fin 32) (value : Word32)
  /-- R839 -/
  | vidStep (up : Bool)
  /-- R752 -/
  | keeperPor
  /-- R752 -/
  | s2Entry (r : S2Results)
  /-- R753 -/
  | pwrGoodFall (kprHolds : Bool)
  /-- R776 -/
  | sysResetN
  /-- R782 -/
  | resetWhole (fn : Fin 32) (key : BitVec 16)
  /-- R757 -/
  | facetBistDone (f : Fin 16) (pass : Bool) (ms : Nat)
  /-- R758 -/
  | gddr6TrainingDone (t : Training)
  /-- R671 -/
  | lcsWipeDone
  /-- R165 -/
  | drkDrawRetry
  /-- R772 -/
  | startRetry (fn : Fin 32)
  /-- R779 -/
  | fctReset (fn : Fin 32) (f : Fin 16)
  /-- R782 -/
  | fctFence (fn : Fin 32) (f : Fin 16) (on : Bool)
  /-- R684 -/
  | mtestGo (fn : Fin 32)
  /-- R684 -/
  | mbistGo (fn : Fin 32)
  /-- R667 -/
  | mbistDone (fail : Option Word32)
  /-- R590 -/
  | clrCnt (fn : Fin 32) (block : CntBlock)
  /-- R814 -/
  | loRegisterRead (fn : Fin 32) (addr : BitVec 25)
  /-- R806 -/
  | registerWrite (fn : Fin 32) (addr : BitVec 25) (value : Word32) (aligned : Bool)
  /-- R859 -/
  | healthRead
  /-- R859 -/
  | mctpControl (command : Byte) (data : Bytes)
  /-- R860 -/
  | smbusTimeout
  /-- R667 -/
  | bypass
  /-- R667 -/
  | idcode
  /-- R667 -/
  | samplePreload (pins : Bytes)
  /-- R667 -/
  | extest (drive : Bytes)
  /-- R778 -/
  | pePerstNDeassert
  /-- R82 -/
  | dlUp (width : BitVec 6) (rate : BitVec 4) (flit : Bool)
  /-- R658 -/
  | vbatLoss
  /-- R847 -/
  | xtal32Stop
  /-- R382 -/
  | entropyInstantiationLimit
  /-- R724 -/
  | sdBusyEnd
  /-- R741 -/
  | cardResponse (resp : CardResp)
  /-- R857 -/
  | ccVccCurrentLimit
  /-- R674 -/
  | knaquelPrivateInstruction (what : Knaquel)
deriving DecidableEq, Repr

end Sys2Proof
end

