-- ==== Sys2Proof/Machine/Types.lean ====
section
/-!
DEFINITION. Data types of the state: status codes, completions, rings, functions, keys, contexts,
engines (chapters 2 to 7 of the manual). Plain data only.
-/

namespace Sys2Proof.Machine

/-- A failed check or a failure during processing: its status, the step it was found at (R116, R131),
the scatter-gather entry and input offset concerned, and the host read that failed (R826). -/
structure Bad where
  status : Status
  step : Nat
  sg : Option Nat := none
  off : Option Nat := none
  dma : Option (Nat × DmaErr × Nat) := none
deriving DecidableEq, Repr

/-- A completion still without its place: what R113 writes but for `PHASE` and `RING_ID`. -/
structure Cpl where
  tag : BitVec 32
  status : Status
  unordered : Bool
  irqNow : Bool
  detail : Bool
  bytesDone : Nat
  /-- bytes 16 to 31 -/
  result : Bytes
deriving DecidableEq, Repr

/-- A descriptor as fetched (R102): the header fields and the 48 body bytes. -/
structure Desc where
  opcode : BitVec 16
  flags : Byte
  cls : Byte
  tag : BitVec 32
  declLen : BitVec 64
  body : Bytes
deriving DecidableEq, Repr

/-- Where a fetched descriptor stands. -/
inductive WPhase
  /-- fetched, not dispatched (R98, R99) -/
  | fetched
  /-- dispatched; lists, blocks or input of steps 6 and 7 still to be read (R131) -/
  | reading
  /-- with the unit that runs it -/
  | active
  /-- finished; its completion waits for the order of R123 or for D0 (R58) -/
  | fin (c : Cpl)
deriving DecidableEq, Repr

/-- A data buffer of host memory after its lists have been walked (R106 to R109). -/
structure Ext where
  addr : Nat
  len : Nat
  /-- place of its entry, counted from 0 across linked lists; none for a plain buffer (R116) -/
  sg : Option Nat := none
deriving DecidableEq, Repr

/-- One fetched descriptor whose completion has not been written. -/
structure Work where
  /-- place in the order of fetching, over the whole device (R128) -/
  seq : Nat
  desc : Desc
  /-- class it is served at, with the raises of R121 -/
  cls : Nat
  phase : WPhase
  /-- what steps 6 and 7 have read, for a descriptor that the ring engine holds until a facet can take
  it (R237, R263, R523): input buffers, output buffers, block -/
  got : Option (List Ext × List Ext × Bytes) := none
  /-- bytes of staging that such a descriptor needs (R237, R523) -/
  need : Nat := 0
deriving DecidableEq, Repr

/-- Ring states of R139. -/
inductive RingState | disabled | running | stopping | stopped
deriving DecidableEq, Repr

/-- A descriptor read in flight (R98): its first descriptor number and count. -/
structure RingRead where
  first : BitVec 32
  count : Nat
deriving DecidableEq, Repr

/-- Cipher chain states of R253; an ended chain remembers the input bytes it had taken (R229). -/
inductive ChainSt | free | opened (facet : Nat) | ended (taken : Nat)
deriving DecidableEq, Repr

/-- One ring pair (R85 to R152). -/
structure Ring where
  sqBase : Word64 := 0
  cqBase : Word64 := 0
  sizeLog2 : BitVec 5 := 6
  coalTime : BitVec 12 := 0
  coalCount : BitVec 8 := 0
  irqEn : Bool := false
  vector : BitVec 6 := 0
  st : RingState := .disabled
  cause : BitVec 4 := 0
  /-- descriptors fetched (R87) -/
  f : Word32 := 0
  /-- completions written (R87) -/
  w : Word32 := 0
  /-- P as last read by a poll (R90) -/
  p : Word32 := 0
  reads : List RingRead := []
  /-- fetched descriptors without a written completion, oldest first -/
  work : List Work := []
  /-- completions since the last interrupt trigger (R118) -/
  since : Nat := 0
  /-- the moderation timer runs (R118) -/
  timing : Bool := false
  /-- states of the 256 CHAIN_IDs (R253) -/
  chains : Tab ChainSt := []
deriving DecidableEq, Repr

/-- One function's registers and link state (R54 to R58, R91 to R97, R117 to R119, R153 to R159). -/
structure Fn where
  db : Word64 := 0
  pollMin : BitVec 10 := 1
  pollMax : BitVec 10 := 1000
  classCap : BitVec 2 := 1
  en : Bool := true
  perm : Byte := 0xFF
  /-- poll interval in 100 ns units; the manual gives no interval before a function's first poll, and an FLR leaves it
  so again: here the default of `MIN` (R95; log entry 53, DESIGN CHOICE) -/
  interval : Nat := 1
  pollFaults : Nat := 0
  /-- a poll read is outstanding -/
  polling : Bool := false
  /-- it was made outside STUCK mode, so it looks at every ring of the function (R138) -/
  wide : Bool := false
  d3hot : Bool := false
  /-- Enable Relaxed Ordering (R50; 1 at reset, log entry 9, PRESUMED) -/
  relaxed : Bool := true
  msixMask : BitVec 64 := BitVec.allOnes 64
  msixPend : BitVec 64 := 0
  /-- address and data words of the MSI-X table, by word number (R54) -/
  msixTable : Tab Word32 := []
deriving DecidableEq, Repr

/-! Chapter 4. -/

/-- Slot states of R171. -/
inductive SlotState | empty | loaded | spent | erased | extension
deriving DecidableEq, Repr

/-- A volatile key slot's record (R171); an extension slot holds up to 128 material bytes. -/
structure KeySlot where
  material : Bytes := []
  type : Byte := 0
  st : SlotState := .empty
  extCount : Nat := 0
  attr : Word32 := 0
  owner : Word32 := 0
  fixedField : Word32 := 0
  blockCount : Nat := 0
  blockLimit : Nat := 0
  invCount : Nat := 0
  invLimit : Nat := 0
  reservedBy : Nat := 0
  parent : Word32 := 0
deriving DecidableEq, Repr

/-- Custody states of R168. -/
inductive Custody | noDomain | ready | erased
deriving DecidableEq, Repr

/-- Ceremony purposes of R208. -/
inductive CerPurpose | restore | create | resplit
deriving DecidableEq, Repr

/-- The open ceremony (R205 to R216), held in crown data. -/
structure Ceremony where
  purpose : CerPurpose
  m : Nat
  n : Nat
  devNumber : Byte
  domainId : Word32
  /-- RESTORE: shares held, as (index, 64-byte record) -/
  held : List (Nat × Bytes)
  /-- CREATE, RESPLIT: indices written and read back -/
  written : List Nat
  /-- CREATE, RESPLIT: the domain key being shared -/
  key : Bytes
  /-- CREATE, RESPLIT: for each of the 32 key bytes the M − 1 further coefficients -/
  coeffs : List Bytes
deriving DecidableEq, Repr

/-- Key custody state: what the crown holds of the key hierarchy (R164). -/
structure Keys where
  slots : Tab KeySlot := []
  custody : Custody := .noDomain
  /-- the domain key, unwrapped, while `READY` -/
  domainKey : Option Bytes := none
  deviceNumber : Byte := 0
  domainId : Word32 := 0
  ceremony : Option Ceremony := none
deriving DecidableEq, Repr

/-! Chapters 5 and 6. -/

/-- What a cipher message keeps between segments (R269). -/
structure CipherSt where
  op : BitVec 16
  /-- CIPHER_CTL -/
  ctl : Byte
  key : Word32
  tagLen : Nat
  /-- CBC IV, counter block, GCM nonce or starting sector (R225) -/
  iv : Bytes
  aadLen : Nat
  duLen : Nat
  ctrWidth : Nat
  expTag : Bytes
  /-- chaining block of CBC -/
  chain : Bytes
  /-- bytes of the message presented and not yet turned into output -/
  pend : Bytes
  /-- GCM: AAD so far; CMAC and KW: input so far -/
  acc : Bytes
  /-- GCM: ciphertext so far -/
  ct : Bytes
  declared : Nat
  consumed : Nat
  invCharged : Nat
  blocksCharged : Nat
deriving DecidableEq, Repr

/-- Digest context states of R288. -/
inductive DigState | opened | final
deriving DecidableEq, Repr

/-- A digest context in use (R288 to R299). -/
structure DigCtx where
  st : DigState
  fn : Nat
  alg : Nat
  outLen : Nat
  /-- the HMAC key's handle; 0 for a plain digest -/
  key : Word32
  /-- input absorbed so far -/
  acc : Bytes
  /-- the finalised digest -/
  dig : Bytes
  invCharged : Nat
  blocksCharged : Nat
  /-- the ring holding the context (R294) -/
  heldBy : Option Nat
  /-- a one-shot DIGEST run, which leaves no context behind (R290) -/
  oneShot : Bool
deriving DecidableEq, Repr

/-- Hallmark register (R321). -/
structure Hallmark where
  h : Bytes := List.replicate 48 0
  extCount : Word64 := 0
  owner : Word32 := 1
  readAll : Bool := false
  resetOk : Bool := true
  locked : Bool := false
  torn : Bool := false
deriving DecidableEq, Repr

/-! Chapter 8. -/

/-- Vault states of R404. -/
inductive VaultState | none | loading | recovering | active | sealed | moved
deriving DecidableEq, Repr

/-- Entry states of R408. -/
inductive EntrySt | empty | enrolled | revoked
deriving DecidableEq, Repr

/-- A vault entry, decrypted (R408), with the version of its line (R413) and whether its line has
failed a verification (R417). -/
structure VEntry where
  st : EntrySt := .empty
  hook : Bool := false
  sha3 : Bool := false
  slot : Nat := 0
  key : Bytes := []
  prevKey : Bytes := []
  hwm : Nat := 0
  window : BitVec 64 := 0
  rekeySeq : Nat := 0
  recCount : Nat := 0
  recLimit : Nat := 0
  blockCount : Nat := 0
  blockLimit : Nat := 0
  keyGen : Nat := 0
  foldEpoch : Nat := 0
  enrollTime : Nat := 0
  revokeTime : Nat := 0
  appletData : Bytes := []
  version : Nat := 0
  /-- modified in the vault cache and not yet written back (R415, R418) -/
  modified : Bool := false
  /-- its line, or a node above it, has failed verification (R417) -/
  failed : Bool := false
deriving DecidableEq, Repr

/-- A pip-table entry (R420); the check byte is stored as written. -/
structure PipEntry where
  hwm : BitVec 40 := 0
  window : BitVec 64 := 0
  known : Bool := false
  revoked : Bool := false
  armed : Bool := false
  parity : Bool := false
  coarse : Bool := false
  limit : BitVec 11 := 0
  /-- difference between the stored CHECK and the right one; zero when CHECK holds (R420) -/
  checkErr : Byte := 0
deriving DecidableEq, Repr

/-- The NVM vault record's payload (R432). -/
structure VRecord where
  vstate : Nat := 0
  sealedF : Bool := false
  recovery : Bool := false
  moveIn : Bool := false
  committed : Nat := 0
  pending : Option Nat := none
  openEpoch : Nat := 0
  committedRoot : Bytes := List.replicate 64 0
  lPending : Nat := 0
  lOpen : Nat := 0
  moveNonce : Word64 := 0
  domainId : Word32 := 0
deriving DecidableEq, Repr

/-- Where an arm stands (R428 to R430). -/
inductive ArmStage
  /-- gathered in the arm batch, step 3 not begun -/
  | gathered
  /-- step 3 begun: its bitmap page write is queued or in progress -/
  | writing
  /-- the page write has ended; step 4 due -/
  | written
deriving DecidableEq, Repr

/-- One arm: the endpoint and who asked: a `VAULT_ARM` by (ring, fetch number), or the port. -/
structure Arm where
  endpoint : Nat
  stage : ArmStage
  by_ : Option (Nat × Nat)
deriving DecidableEq, Repr

/-- A `VAULT_ARM` in progress: where it was fetched and its counts so far (R452, R458). -/
structure ArmJob where
  ring : Nat
  seq : Nat
  armedNow : Nat
  already : Nat
  skipped : Nat
  epoch : Nat
deriving DecidableEq, Repr

/-- The most recent complete export: epoch, root and whether it was made with FINAL (R437, R442). -/
structure Export where
  epoch : Nat
  root : Bytes
  final : Bool
deriving DecidableEq, Repr

/-- What a `VAULT_CHECKPOINT` asks for (R433, R448, R451). -/
structure ChkForm where
  lNew : Nat
  full : Bool
  final : Bool
  move : Bool
  target : Byte
  nonce : Word64
deriving DecidableEq, Repr

/-- What the crown's vault descriptor waits for (R430, R431, R433, R453). -/
inductive VaultJob
  /-- before the cut: arms in step 3, a fold pass, or a page set being cleared -/
  | cut (f : ChkForm)
  /-- the cut is made; the export follows the fold pass -/
  | exporting (f : ChkForm)
  /-- a `VAULT_FORMAT` before its record write -/
  | format (lNew : Nat)
deriving DecidableEq, Repr

/-- What of the vault's GDDR6 contents no longer verifies when it is read: the stored form of an entry, or an L0
node (R416). Nodes of L1 to L5 are pinned in the vault cache and not read again (R418). -/
inductive VFlaw
  | entry (e : Nat)
  | node (j : Nat)
deriving DecidableEq, Repr

/-- The endpoint vault (chapter 8). -/
structure Vault where
  st : VaultState := .none
  record : VRecord := {}
  /-- a record has been written, and it is torn (R407, R453) -/
  recordWritten : Bool := false
  recordTorn : Bool := false
  vek : Option Bytes := none
  vmk : Option Bytes := none
  entries : Tab VEntry := []
  /-- what GDDR6 holds of the entries: as of their last write-back (R413, R415) -/
  stored : Tab VEntry := []
  /-- versions of tree nodes, by level × 2^20 + index; levels 0 to 5 (R411) -/
  nodes : Tab Nat := []
  /-- entries held decrypted in the vault cache, most recent first (R418) -/
  cached : List Nat := []
  /-- L0 nodes held in the vault cache, most recent first; L1 to L5 are always held (R418) -/
  l0 : List Nat := []
  /-- stored entries and L0 nodes whose verification fails (R416) -/
  flaws : List VFlaw := []
  pip : Tab PipEntry := []
  /-- the pip table holds zeros where `pip` lists nothing, as a memory test leaves it (R667) -/
  pipZeroed : Bool := false
  /-- page sets still being cleared (R427) -/
  clearing : List Nat := []
  arms : List Arm := []
  armJobs : List ArmJob := []
  /-- the gathering time of R429 runs -/
  batching : Bool := false
  /-- entries to fold whose writes are not yet made (R431) -/
  fold : List Nat := []
  foldBusy : Bool := false
  /-- `COARSE` entries folded since the last cut, and those whose fold the last complete export holds (R426) -/
  coarseFold : List Nat := []
  coarseOut : List Nat := []
  /-- lines changed since the end of the committed export, and since the end of the last complete one, by
  `lineKey` (R415) -/
  changed : Tab Bool := []
  changedExp : Tab Bool := []
  /-- those of them that have been written back (R415, R434) -/
  written : Tab Bool := []
  writtenExp : Tab Bool := []
  /-- `TARGET` of the move export (R436, R444) -/
  moveTarget : Byte := 0
  lastExport : Option Export := none
  job : Option VaultJob := none
deriving DecidableEq, Repr

/-- The VLT registers that hold a value of their own (R462). -/
structure VltRegs where
  batchUs : BitVec 10 := 20
  integErr : Nat := 0
  errValid : Bool := false
  errEndpoint : BitVec 20 := 0
  bankRetry : Tab Nat := []
  bankChkerr : Tab Nat := []
deriving DecidableEq, Repr

/-! Chapter 9. -/

/-- The Pip port (R463 to R500). -/
structure Pip where
  locked : Bool := false
  framed : Bool := false
  en : Bool := true
  outHint : BitVec 10 := 1000
  armqHint : BitVec 10 := 200
  odt : BitVec 2 := 2
  drive : BitVec 2 := 1
  /-- the termination and the impedance in effect, changed at the next idle cycle (R466) -/
  odtOn : BitVec 2 := 2
  driveOn : BitVec 2 := 1
  frameErr : BitVec 8 := 0
  strobeErr : BitVec 8 := 0
  opErr : BitVec 8 := 0
  parityErr : BitVec 8 := 0
  late : Word32 := 0
  reqCount : Word64 := 0
  vcount : Tab Word32 := []
  bankReq : Tab Word32 := []
  /-- one more than the tick of the last request to each bank (R496) -/
  bankAt : Tab Nat := []
  /-- the claim-token key TK (R492) -/
  tk : BitVec 128 := 0
  /-- the answer driven last: word and parity of its two edges; none is high impedance -/
  answer : Option (BitVec 16 × Bool × Bool) := none
deriving DecidableEq, Repr

/-! Chapter 10. -/

/-- Settings of a strand stream (R530 to R533). -/
structure Stream where
  sigs : BitVec 2 := 0
  countLimit : Nat := 0
  timeLimit : Nat := 0
  ecKey : Word32 := 0
  mlKey : Word32 := 0
  owner : Word32 := 0
  /-- the STRAND_ID counter -/
  counter : Word32 := 0
  /-- `STRAND_ID` last delivered (R833) -/
  delivered : Word32 := 0
  /-- pearl places reserved by captures and not yet filled (R534) -/
  places : Nat := 0
  /-- a STRAND_SETUP waits for the captures that hold a place (R532) -/
  setup : Option (Nat × Nat) := none
  /-- collects waiting, oldest first: ring and fetch number (R541) -/
  collects : List (Nat × Nat) := []
  /-- `STRAND_CLOSE` descriptors that wait for their strand to close (R536, R544) -/
  closers : List (Nat × Nat) := []
deriving DecidableEq, Repr

/-- Where a strand stands. -/
inductive StrandSt
  | opened
  /-- closed with the cause; `waiting` signatures: ECDSA, ML-DSA -/
  | signing (ec ml : Bool)
  | ready
deriving DecidableEq, Repr

/-- One strand buffer (R534). -/
structure Strand where
  stream : Nat
  id : Word32
  pearls : List Bytes
  st : StrandSt
  cause : Nat
  openTime : Nat
  closeTime : Nat
  header : Bytes
  ecSig : Bytes
  mlSig : Bytes
  /-- a signature was refused for its charge (R539) -/
  refused : Bool
  /-- a close that waits because no buffer is free for the reserved places (R536) -/
  closeDue : Nat
  /-- signatures waiting for their 1 ms retry: 0 ECDSA, 1 ML-DSA (R539) -/
  retry : List Nat
  /-- the stream's signing slots at closing -/
  ecKey : Word32
  mlKey : Word32
deriving DecidableEq, Repr

/-- A pending mark (R328): hallmark register, fetch number of the descriptor that holds it, and the number of the mark
in the device's order of marking. -/
structure Mark where
  hm : Nat
  seq : Nat
  n : Nat
deriving DecidableEq, Repr

/-- An extend that an applet has deferred (R579): register, value, and the number of its mark. -/
structure Deferred where
  hm : Nat
  value : Bytes
  n : Nat
deriving DecidableEq, Repr

/-- A capture in progress (R510 to R525). -/
structure CapSt where
  archive : Word32
  stream : Nat
  hm : Option Nat
  sha3 : Bool
  token : Option (BitVec 10)
  cblock : Nat
  startSector : Nat
  sectorSize : Nat
  endpoint : Nat
  sequence : Nat
  header : Bytes
  /-- the endpoint key the facet holds since its fetch (R511) -/
  ekey : Bytes
  /-- ciphertext body so far, for GHASH and the tag -/
  body : Bytes
  /-- plaintext so far, for the digests and XTS -/
  plain : Bytes
  note : Option (BitVec 64)
  /-- extends deferred by the hook, in move order -/
  extends_ : List Deferred
  /-- at release: index, strand and pearl (R525 step 1) -/
  placed : Option (Nat × Word32 × Bytes)
  /-- `EXT_COUNT` after the record's own extend (R509) -/
  extCount : Nat
  /-- the applet slot held from order 9 until the hook ends (R586) -/
  hookSlot : Option Nat
  gddr : Bool
  /-- invocations and blocks charged to the archive key and to the endpoint (R183, R269, R516) -/
  archInv : Nat := 0
  archBlocks : Nat := 0
  endInv : Nat := 0
  endBlocks : Nat := 0
deriving DecidableEq, Repr

/-- What runs as a message of a facet. -/
inductive MsgKind
  | cipher (c : CipherSt)
  | digest (ctx : Nat)
  | capture (c : CapSt)
deriving DecidableEq, Repr

/-- Where a facet's message stands. -/
inductive MsgSt
  /-- waiting for a lane, newly dispatched -/
  | ready
  /-- saved at a segment boundary (R268) -/
  | parked
  /-- on a lane, with the length of the segment it runs -/
  | onLane (lane len : Nat)
  /-- a chain waiting for its next CONT descriptor -/
  | await
  /-- a capture waiting for its key fetch, its rebuild or its hook -/
  | fetching | hooked
  /-- held until the hallmark unit has applied its extend -/
  | extending
deriving DecidableEq, Repr

/-- One message of a facet. -/
structure Msg where
  id : Nat
  ring : Nat
  /-- fetch number of the descriptor in progress; for a waiting chain, of its last one -/
  seq : Nat
  chain : Option Nat
  /-- own class as served, and with the raises of R271 -/
  cls : Nat
  clsNow : Nat
  kind : MsgKind
  st : MsgSt
  ins : List Ext
  outs : List Ext
  /-- input length of the descriptor in progress and how much of it has ended -/
  inLen : Nat
  pos : Nat
  outPos : Nat
  first : Bool
  /-- output held back from release (R236, R522) -/
  staged : Bytes
  /-- for staging in GDDR6: one tag for every 4 KiB (R524) -/
  tags : List Bytes := []
  held : Bool
  onChip : Nat
  gddrBytes : Nat
  param : Nat
  aborted : Bool
  /-- a later descriptor of its chain has been refused before dispatch, so the chain ends once those dispatched before
  have completed (R133) -/
  cut : Bool := false
deriving DecidableEq, Repr

/-- A descriptor queued on a facet behind its chain or its context (R262, R295). -/
structure Queued where
  ring : Nat
  seq : Nat
  chain : Option Nat
  ctx : Option Nat
  ins : List Ext
  outs : List Ext
  /-- parameter block, as read at step 6 -/
  block : Bytes
  /-- a check of steps 2 to 7 that failed, or the read of `DIG_COMPARE`'s input: it takes its effect when the
  facet reaches the descriptor -/
  bad : Option Bad
  /-- its reads of steps 6 and 7 are outstanding (R131) -/
  reading : Bool := false
deriving DecidableEq, Repr

/-- The AES key of one entry of a tile's key-schedule cache (R873): a key slot's key, or for XTS one of its halves,
or an endpoint's key. -/
inductive SchedKey
  | slot (i half : Nat)
  | endpoint (e : Nat)
deriving DecidableEq, Repr

/-- One facet (chapters 5, 6 and 10, registers of chapter 18 and 19). -/
structure Facet where
  msgs : List Msg := []
  digs : Tab (Option DigCtx) := []
  queue : List Queued := []
  nextId : Nat := 0
  /-- round-robin pointers over rings, by class -/
  rr : Tab Nat := []
  /-- key-schedule caches of its two tiles, most recently used entry first (R16, R873) -/
  tiles : List (List SchedKey) := [[], []]
  /-- staging key (R236, R524); none until it has been drawn -/
  stageKey : Option Bytes := none
deriving DecidableEq, Repr

/-! Chapter 11. -/

/-- Applet slot states of R550. -/
inductive AppSt | empty | installed | replacing
deriving DecidableEq, Repr

/-- An install or remove that waits for running invocations (R564, R565). -/
structure AppChange where
  ring : Nat
  seq : Nat
  remove : Bool
  header : Bytes
  moves : List (BitVec 64)
  caps : List (Option Word32)
  owner : Word32
deriving DecidableEq, Repr

/-- One applet slot with its header, moves and bindings (R549 to R566). -/
structure AppSlot where
  st : AppSt := .empty
  header : Bytes := []
  moves : List (BitVec 64) := []
  /-- bound handles by capability; none is unbound -/
  caps : List (Option Word32) := []
  owner : Word32 := 0
  runs : Word32 := 0
  lastFault : Byte := 0
  lastReason : Byte := 0
  lastMove : BitVec 13 := 0
  /-- captures that hold the slot (R586) -/
  holds : Nat := 0
  /-- an install or remove that waits for the slot -/
  waiting : Option AppChange := none
deriving DecidableEq, Repr

/-- What a move engine runs. -/
inductive InvKind
  | invoke (ring seq : Nat)
  | hook (facet msg : Nat)
deriving DecidableEq, Repr

/-- One invocation waiting for or running on an engine. -/
structure Invocation where
  kind : InvKind
  slot : Nat
  ring : Nat
  fn : Nat
  cls : Nat
  declLen : Nat
  arg : BitVec 64
  budget : Nat
deriving DecidableEq, Repr

/-- A move engine (R567 to R569). -/
structure Engine where
  inv : Option Invocation := none
  regs : Tab (BitVec 64) := []
  keys : Tab (Option Bytes) := []
  scratch : Tab Byte := []
  pc : Nat := 0
  units : Nat := 0
  extends_ : List Deferred := []
  note : Option (BitVec 64) := none
  /-- after an accepting `ret` of an `APPLET_INVOKE`: output offset and length, while its extends are
  applied (R585) -/
  rets : Option (Nat × Nat) := none
  /-- `EXT_COUNT` after the last extend applied -/
  extCount : Nat := 0
  done : Word32 := 0
  faults : Nat := 0
  budgets : Nat := 0
  restarts : Nat := 0
deriving DecidableEq, Repr

/-- Applets (chapter 11). -/
structure Applets where
  slots : Tab AppSlot := []
  engines : Tab Engine := []
  waiting : List Invocation := []
  invokeEn : Bool := true
  gen : Word32 := 0
  signerEc : Bytes := []
  signerMl : Bytes := []
  invokes : Word64 := 0
  hooks : Word64 := 0
  rr : Tab Nat := []
deriving DecidableEq, Repr

/-! Chapter 12. -/

/-- Crown states of R595. -/
inductive CrownSt | out | starting | standby | unfit | taking | active
deriving DecidableEq, Repr

/-- One crown's visible state (R591 to R624). -/
structure Crown where
  st : CrownSt := .out
  claim : BitVec 16 := 0
  heartbeat : BitVec 64 := 0
  report : Word32 := 0
  testNow : Nat := 0
  loops : Word32 := 0
  fails : Word32 := 0
  lastFail : Nat := 0
  loopFails : Nat := 0
  patch : Word32 := 0
  /-- the heartbeat word at the standby's last read, and its misses -/
  lastSeen : BitVec 64 := 0
  missed : Nat := 0
  heldInReset : Bool := false
  /-- its view of the journal in private RAM (R591): number and state of the entry it last read or wrote (R624) -/
  jSeq : Nat := 0
  jState : Nat := 0
  /-- the rest of its private RAM, by address, as far as it is not zero (R591): the manual gives no contents -/
  ram : Tab Byte := []
  /-- the image in its patch area (R592, R682) -/
  area : Bytes := []
deriving DecidableEq, Repr

/-- One clasp (R597). -/
structure Clasp where
  claimHi : BitVec 16 := 0
  holder : Option Bool := none
  refused : Nat := 0
deriving DecidableEq, Repr

/-- Journal states of R611. -/
inductive JState | intent | committed | applied | completed
deriving DecidableEq, Repr


/-! Chapter 13. -/

/-- A monitor's configuration register, fields as stored (R660). -/
structure MonCfg where
  en : Bool
  rung : Nat
  wunit : Nat
  wval : Nat
  n : Nat
deriving DecidableEq, Repr

/-- One monitor (R633, R634, R660). -/
structure Monitor where
  cfg : MonCfg
  latched : Bool := false
  rungTaken : Nat := 0
  detail : Byte := 0
  count : Nat := 0
  /-- times of its last events in mref cycles, newest first, at most 255 -/
  times : List Nat := []
  /-- consecutive samples on the cell that showed its event (R651) -/
  cellRun : Nat := 0
  /-- the battery domain's copies: N, and whether the rung is SCRUB or above (R652) -/
  cellN : Nat := 1
  cellHigh : Bool := false
deriving DecidableEq, Repr

/-- One tamper-log entry (R656). -/
structure LogEntry where
  time : Nat
  monitor : Nat
  rung : Nat
  cell : Bool
  detail : Byte
  deviceRung : Nat
  seq : Nat
  value : Word32
deriving DecidableEq, Repr

/-- The four sampler intervals of TMP.BAT_CFG, as logarithms (R660). -/
structure BatCfg where
  vbat : Nat := 15
  temp : Nat := 15
  loop : Nat := 9
  mesh : Nat := 11
deriving DecidableEq, Repr

/-- The tamper logic of the core die (chapter 13). -/
structure Tamper where
  rung : Nat := 0
  cause : Nat := 0
  /-- an alarm has been taken at the present rung, so `CAUSE` stands (R660) -/
  caused : Bool := false
  throttled : Bool := false
  /-- the clearing of a SCRUB or PURGE is in progress (R644) -/
  clearing : Bool := false
  scrubDone : Bool := false
  purgeDone : Bool := false
  latch : Word32 := 0
  locked : Bool := false
  mons : Tab Monitor := []
  fenceFacet : BitVec 16 := 0
  fenceSd : Bool := false
  fenceCc : Bool := false
  tempHigh : Int := 120
  tempLow : Int := -20
  railWin : Tab (Nat × Nat) := []
  railGlitch : Tab (Nat × Nat) := []
  clkWin : Tab (Nat × Nat) := []
  tempRd : Tab (Option (BitVec 16)) := []
  stimBusy : Option Nat := none
  stimPass : Bool := false
  stimBat : Bool := false
  stimNone : Bool := false
  stimMon : Nat := 0
  logIndex : Nat := 0
  batCfg : BatCfg := {}
deriving DecidableEq, Repr

/-- The battery domain (R13, R14, R649 to R658). -/
structure Battery where
  drk : Option Bytes := none
  log : List LogEntry := []
  logSeq : Nat := 0
  logLost : Nat := 0
  rtc : Nat := 0
  vbat : Bool := true
  vbatMv : Nat := 0
  onCell : Bool := false
  purgedOnCell : Bool := false
  sampler : Bool := false
  copyCfg : BatCfg := {}
  copyHigh : Int := 120
  copyLow : Int := -20
  /-- bclk runs from the internal oscillator (R847) -/
  intOsc : Bool := false
deriving DecidableEq, Repr

/-! Chapter 14. -/

/-- Results of the vote (R664). -/
inductive Lcs | blank | test | production | endOfLife | unresolved
deriving DecidableEq, Repr

/-- A debug grant in force (R673 to R677). -/
structure Grant where
  scope : BitVec 16
  duration : Nat
  started : Nat
deriving DecidableEq, Repr

/-- Life cycle, debug authorisation and factory tests (chapter 14). -/
structure Life where
  copies : List Word32 := [0, 0, 0]
  current : Lcs := .blank
  vote : Nat := 0
  /-- the life-cycle record: pending target, and WIPE -/
  pendingTarget : Option Lcs := none
  wipe : Bool := false
  wiping : Bool := false
  pagesLeft : Nat := 0
  grant : Option Grant := none
  nonce : Option Bytes := none
  nonceNumber : Nat := 0
  grantsMade : Nat := 0
  grantsRefused : Nat := 0
  debugKey : Bytes := []
  debugGen : Word32 := 0
  /-- the identity key, unwrapped by the crown, and its hash -/
  idKey : Option Bytes := none
  idHash : Option Bytes := none
  mtWrite : Bool := false
  mtBusy : Bool := false
  mtCheck : Byte := 0
  mtTarget : Nat := 0
  mtAddr : Word32 := 0
  mtWdata : Word64 := 0
  /-- words that the memory test has written to on-chip SRAM and to GDDR6, with their codes, by target × 2^32 + word
  address (R667, R684) -/
  mtWords : Tab (Word64 × Byte) := []
  mtRdata : Word64 := 0
  mbAlgo : Nat := 0
  mbArray : Nat := 0
  mbBusy : Bool := false
  mbDone : Bool := false
  mbFail : Bool := false
  mbLast : Nat := 0
  mbFailWord : Word32 := 0
deriving DecidableEq, Repr

/-! Chapter 15. -/

/-- Names of records: user records, and system records by TYPE and index (R704, R767). -/
inductive RecName
  | user (n : Nat)
  | sys (type index : Nat)
deriving DecidableEq, Repr

/-- One write of a record: sequence number fixed at commit (R612, R699), and the contents the record had
before, for the case that copy 1 cannot be written (R701). -/
structure RecWrite where
  name : RecName
  type : Byte
  payload : Bytes
  seq : Nat
  prev : Option (Byte × Bytes)
deriving DecidableEq, Repr

/-- What the end of a page write does. -/
inductive PageKind
  /-- bitmap page of a set, written for arms (R428) -/
  | arm (set page : Nat)
  /-- a page of a copy of the record write of the journal entry -/
  | record (copy : Nat) (last : Bool)
  /-- a page of copy 0 written back after copy 1 failed (R701) -/
  | rollback (last : Bool)
  /-- a rewrite of a weak page: by NVM_SCAN (R714), or by the start step NVM_LATE, its data formed when the
  write ends (R695) -/
  | refresh (late : Bool)
  /-- the same, written to the spare that its page has been relocated to -/
  | moved (late : Bool)
  /-- a page of a copy of a record write that no journal entry holds -/
  | job (copy : Nat) (last : Bool)
  /-- a page of its copy 0 written back after copy 1 failed (R701) -/
  | jobBack (last : Bool)
  /-- a page of a copy of the remap record, for the relocation in progress (R702) -/
  | remap (copy : Nat) (last : Bool)
  /-- a page of its copy 0 written back -/
  | remapBack (last : Bool)
  /-- a page of a bitmap set that is being cleared (R705) -/
  | clear (set : Nat) (last : Bool)
  /-- one ledger entry, a burst of 32 bytes at an offset of its page (R761) -/
  | ledger (off : Nat)
  /-- nothing further: a page of a record write that no longer counts -/
  | other
deriving DecidableEq, Repr

/-- A page write asked of the write port (R706): class, physical page number and the 256 bytes. -/
structure PageWrite where
  cls : Nat
  page : Nat
  data : Bytes
  /-- what its end does: an arm's bitmap page, a step of the record write in progress, a clearing -/
  kind : PageKind
deriving DecidableEq, Repr

/-- Keeper non-volatile memory (chapter 15). -/
structure Nvm where
  /-- pages that are not blank, by physical page number 0 to 32,767 -/
  pages : Tab Bytes := []
  weak : List Nat := []
  /-- remap entries in use: spare index (R703) and the page it replaces -/
  remap : Tab (Option Nat) := []
  queue : List PageWrite := []
  /-- the page write in progress -/
  writing : Option PageWrite := none
  /-- record writes that no journal entry holds, the head being made now -/
  jobs : List RecWrite := []
  /-- failed page writes to be relocated, each with the physical page that failed; the remap record of the head is being
  written (R702) -/
  moving : List (PageWrite × Nat) := []
  /-- that write of the remap record -/
  remapRec : Option RecWrite := none
  recalling : Bool := true
  ready : Bool := false
  scanning : Bool := false
  /-- weak pages found, rewritten and relocated by the present or last scan (R711) -/
  scanFound : Nat := 0
  scanDone : Nat := 0
  scanMoved : Nat := 0
  /-- the present scan has recorded its first page that could not be relocated (R714) -/
  scanWorn : Bool := false
  tripped : Bool := false
  bp : BitVec 2 := 0
  bpLock : Bool := false
  recallUs : Nat := 0
  recallWeak : Nat := 0
  tie : Nat := 0
  lastTieValid : Bool := false
  lastTieSys : Bool := false
  lastTieRec : BitVec 16 := 0
  torn : Nat := 0
  writes : Word64 := 0
  retry : Nat := 0
  lastErrStatus : Byte := 0
  lastErrSys : Bool := false
  lastErrRec : BitVec 16 := 0
  /-- weak pages by user quarter at the last scan or recall -/
  weakCount : List Nat := [0, 0, 0, 0]
  /-- page sets with a page rewritten as all ones (R695) -/
  bmWeak : List Nat := []
deriving DecidableEq, Repr

/-! Chapter 16. -/

/-- SD_STS.STATE of R751. -/
inductive SdSt | absent | present | identifying | ready | transferring | error
deriving DecidableEq, Repr

/-- The SD host port (R720 to R728, R751). -/
structure Sd where
  st : SdSt := .absent
  wp : Bool := false
  csdWp : Bool := false
  power : Bool := false
  present : Bool := false
  hs : Bool := true
  bus4 : Bool := true
  clkMhz : Nat := 0
  width4 : Bool := false
  type : Nat := 0
  blocks : Nat := 0
  errStatus : Byte := 0
  errCmd : Byte := 0
  confirmed : Nat := 0
  evtChk : Bool := false
  evtTimeout : Bool := false
  evtRemoved : Bool := false
  evtInserted : Bool := false
  ocr : Bytes := []
  scr : Bytes := []
  cid : Bytes := []
  csd : Bytes := []
  ssr : Bytes := []
  /-- the card's relative address (R721 step 5) -/
  rca : Nat := 0
deriving DecidableEq, Repr

/-- A change of a contact pin (R717, R739, R743). -/
inductive CcPin
  | rst (high : Bool)
  /-- the supply of a class, as `CC_CLASS` codes it; 0 off -/
  | supply (cls : Nat)
  /-- `CC_IO` in reception, or low -/
  | io (receive : Bool)
  /-- the clock in kHz; 0 stopped -/
  | clk (khz : Nat)
deriving DecidableEq, Repr

/-- The contact custodian port (R738 to R743, R751). -/
structure Cc where
  present : Bool := false
  active : Bool := false
  error : Bool := false
  t1 : Bool := false
  cls : BitVec 2 := 0
  atr : Bytes := []
  fi : Nat := 0
  di : Nat := 0
  bwtMs : Nat := 0
  cwtEtu : Nat := 0
  classAEn : Bool := false
  freq : BitVec 6 := 40
  errStatus : Byte := 0
  errIns : Byte := 0
  evtChk : Bool := false
  evtTimeout : Bool := false
  evtRemoved : Bool := false
  evtInserted : Bool := false
  lastSw : BitVec 16 := 0
  apdus : Word32 := 0
  /-- level of `CC_RST`; rate of `CC_CLK` in kHz, 0 while it is stopped -/
  rst : Bool := false
  khz : Nat := 0
  /-- the changes of the pins in the last activation or deactivation, in order -/
  pins : List CcPin := []
  /-- T=1: the card's longest information field, whether TC3 selects a CRC, and the numbers of the next blocks -/
  ifsc : Nat := 32
  crc : Bool := false
  ns : Bool := false
  nr : Bool := false
deriving DecidableEq, Repr

/-- What the identification of an SD card waits for (R721): a response, or the data that follows one. -/
inductive SdStep
  | cmd8
  /-- CMD55 and ACMD41: attempts made, and whether CMD8 was answered -/
  | app41 (n : Nat) (v2 : Bool) | acmd41 (n : Nat) (v2 : Bool)
  | cmd2 | cmd3 | cmd9 | cmd7
  | app51 | acmd51 | scr
  | app6 | acmd6
  | cmd6 | switch
  | cmd16
  | app13 | acmd13 | ssr
deriving DecidableEq, Repr

/-- An exchange with a contact card in progress (R741, R742). -/
structure Exchange where
  apdu : Bytes := []
  /-- command bytes not yet sent -/
  toSend : Bytes := []
  /-- T=0: response bytes to come, and how many of them come before the next procedure byte -/
  want : Nat := 0
  due : Nat := 0
  /-- response bytes received -/
  rx : Bytes := []
  sw1 : Option Byte := none
  /-- T=1: the block sent last -/
  last : Bytes := []
  /-- T=1: milliseconds of waiting-time extensions honoured -/
  wtx : Nat := 0
  /-- T=1: S(RESYNCH request) is out; and one has been sent in this exchange -/
  sync : Bool := false
  synced : Bool := false
deriving DecidableEq, Repr

/-- What a card-port descriptor waits for next (R721 to R724, R739 to R746). -/
inductive CardPhase
  /-- identification of the SD card (R721) -/
  | ident (step : SdStep)
  /-- block `n` of a bundle: command, data token, busy, status (R724) -/
  | wrCmd (n : Nat) | wrToken (n : Nat) | wrBusy (n : Nat) | wrStatus (n : Nat)
  /-- read of block `n`: its response, its data -/
  | rd (n : Nat) | rdData (n : Nat)
  /-- activation of the contact card, class being tried -/
  | atr (cls : Nat)
  /-- PPS; S(IFS request) under T=1; the APDUs -/
  | pps | ifs | select | info | readShare | writeShare | readBack | clearInfo | clear
deriving DecidableEq, Repr

/-- A card-port descriptor in progress in the crown. -/
structure CardJob where
  ring : Nat
  seq : Nat
  phase : CardPhase
  /-- blocks to write, or blocks read so far -/
  blocks : List Bytes
  bundleId : Word64
  start : Nat
  flags : Byte
  /-- share index to write, for CER_SHARE -/
  index : Nat
  itemCount : Nat
  /-- the contact card is activated again, without PPS (R740) -/
  noPps : Bool
  /-- bad answers to the present exchange (R741, R742) -/
  retry : Nat
  x : Exchange := {}
deriving DecidableEq, Repr

/-- Card ports together (chapter 16). -/
structure Cards where
  sd : Sd := {}
  cc : Cc := {}
  cnt : Tab Nat := []
  blocksDone : Nat := 0
  importing : Bool := false
  writingB : Bool := false
  bundleId : Word64 := 0
  job : Option CardJob := none
  /-- the last tick at which `dclk`, and `tclk`, ran (R630) -/
  sdRun : Nat := 0
  ccRun : Nat := 0
deriving DecidableEq, Repr

/-! Chapter 17. -/

/-- Start steps of R757 that can be in progress between commands. -/
structure StepRun where
  step : Nat
  attempt : Nat
  method : Nat
deriving DecidableEq, Repr

/-- Facet service states of R782. -/
inductive FctSt | untested | bist | inService | narrow | fencedSoft | fencedStart | fencedAlarm
deriving DecidableEq, Repr

/-- Stage, start sequence and ledger state (chapter 17). -/
structure Start where
  stage : Nat := 1
  stuck : Bool := false
  failStep : Nat := 0
  consec : Nat := 0
  startNumber : Word32 := 0
  gddrOut : Bool := false
  gddrTrained : Bool := false
  holdSteps : Bool := true
  holdVault : Bool := false
  holdWipe : Bool := false
  pwrGood : Bool := false
  sysResetN : Bool := true
  resetCause : Nat := 1
  running : List StepRun := []
  /-- newest ledger place and its SEQ -/
  ledgerPlace : Nat := 0
  ledgerSeq : Nat := 0
  facets : Tab FctSt := []
  bistFail : BitVec 16 := 0
  softFence : BitVec 16 := 0
  /-- facets whose BIST of the FACET_BIST step has not ended -/
  bistLeft : BitVec 16 := 0
  gddrRate : Nat := 0
  ratesRecord : Bytes := []
deriving DecidableEq, Repr

/-! Chapter 18. -/

/-- Who asked for a snapshot. -/
inductive SnapReq
  | desc (ring seq : Nat)
  | reg
deriving DecidableEq, Repr

/-- The snapshot that runs (R786). -/
structure Snap where
  epoch : Word32
  startTime : Nat
  startTick : Nat
  reqs : List SnapReq
  /-- units that have copied, and units that have acknowledged -/
  copied : List Nat
  acked : List Nat
  still : List Nat
  late : List Nat
  /-- channels whose marker has arrived at the receiver -/
  arrived : List Nat
  /-- counter copies by unit × 2,048 + k -/
  counters : Tab (BitVec 64)
  sent : Tab (BitVec 64)
  recv : Tab (BitVec 64)
  inflight : Tab Nat
deriving DecidableEq, Repr

/-- Counters, channels, snapshots and violations (chapter 18). -/
structure Snp where
  counters : Tab (BitVec 64) := []
  /-- transfers sent and taken, by channel -/
  sent : Tab (BitVec 64) := []
  recv : Tab (BitVec 64) := []
  run : Option Snap := none
  waiting : List SnapReq := []
  epoch : Word32 := 0
  banks : List Bytes := [[], []]
  bankEpoch : List Word32 := [0, 0]
  lastEpoch : Word32 := 0
  lastBank : Bool := false
  incomplete : Bool := false
  writeFault : Bool := false
  buf : Word64 := 0
  irqEn : Bool := false
  irqVector : BitVec 6 := 0
  duration : Word32 := 0
  completed : Word32 := 0
  lateUnits : BitVec 27 := 0
  joined : Nat := 0
deriving DecidableEq, Repr

/-- Violation registers (R806, R808). -/
structure Viol where
  total : Nat := 0
  kind : Nat := 0
  fn : Nat := 0
  write : Bool := false
  addr : Word32 := 0
  kinds : List Nat := [0, 0, 0, 0]
  byFn : Tab Nat := []
deriving DecidableEq, Repr


/-! Chapter 2, 7, 12, 19 and 20: link, signet block, crown work, register-only state, outputs. -/

/-- Attributes of a write request (R50, R51). -/
structure TlpAttr where
  relaxed : Bool := false
  noSnoop : Bool := false
deriving DecidableEq, Repr

/-- The link's own configuration (R49, R61; log entry 9). -/
structure PcieCfg where
  maxPayload : Nat := 128
  maxReadRequest : Nat := 512
  aspmL1 : Bool := false
  ecrcGen : Bool := false
  ecrcCheck : Bool := false
  /-- the downstream port has enabled Device Readiness Status messages -/
  readiness : Bool := true
deriving DecidableEq, Repr

/-- Uncorrectable errors of Advanced Error Reporting (R49); places and resets are those of PCI Express Base 6.0 (log
entry 56, PRESUMED). -/
structure Aer where
  status : BitVec 32 := 0
  mask : BitVec 32 := 0
  severity : BitVec 32 := 0x00462030
deriving DecidableEq, Repr

/-- One IDE stream (R77 to R81): key sets held, by set and sub-stream direction, and its state. -/
structure IdeStream where
  keys : List (Nat × Bytes) := []
  set : Nat := 0
  secure : Bool := false
deriving DecidableEq, Repr

/-- One SPDM session (R74 to R78). -/
structure Session where
  id : Nat
  finished : Bool
  secret : Bytes
  generation : Nat
deriving DecidableEq, Repr

/-- The engine operation that an SPDM request comes to next: the agreement of `KEY_EXCHANGE`, or the signature. -/
inductive SpdmStep | agree | sign
deriving DecidableEq, Repr

/-- The SPDM request that the active crown is answering, while it waits for random numbers or for an engine
(R344, R383, R388): the code and the data of its answer, and what `KEY_EXCHANGE` keeps. -/
structure SpdmJob where
  number : Nat
  step : SpdmStep
  kind : Nat
  data : Bytes
  nonce : Bytes := []
  /-- the transcript hash that is signed -/
  hash : Bytes := []
  /-- ephemeral scalar, the peer's point, the secret agreed on -/
  eph : Bytes := []
  peer : Bytes := []
  secret : Bytes := []
deriving DecidableEq, Repr

/-- A DOE or SPDM answer, as data. -/
structure Answer where
  kind : Nat
  error : Nat
  data : Bytes
deriving DecidableEq, Repr

/-- The link, DOE mailbox, SPDM and IDE (chapter 2). -/
structure Link where
  dlUp : Bool := false
  flit : Bool := false
  width : BitVec 6 := 0
  rate : BitVec 4 := 0
  evt : BitVec 4 := 0
  numVfs : Nat := 31
  cfg : PcieCfg := {}
  /-- error reporting of the PF (R49) -/
  aer : Aer := {}
  perst : Bool := true
  /-- configuration requests are answered other than by Retry Status (R59, R61) -/
  ready : Bool := false
  doeBusy : Bool := false
  doeError : Bool := false
  answer : Option Answer := none
  versioned : Bool := false
  negotiated : Bool := false
  /-- the sets that a session needs have been negotiated too: DHE group, AEAD, key schedule (R71) -/
  keyed : Bool := false
  capable : Bool := false
  job : Option SpdmJob := none
  /-- SPDM requests that have come to draw or to ask for an engine -/
  jobs : Nat := 0
  sessions : List Session := []
  nextSession : Nat := 0
  ide : Tab IdeStream := []
deriving DecidableEq, Repr

/-- A failed read kept in HIF.DMA_ERR (R826). -/
structure DmaErrEntry where
  addr : Nat
  kind : Nat
  cpl : Nat
  ring : Nat
  tag : Word32
deriving DecidableEq, Repr

/-- Device-wide state of the host fabric (chapters 3 and 19). -/
structure Hif where
  schedAge : BitVec 16 := 1000
  dmaErr : List DmaErrEntry := []
  /-- polls of the last complete 100 µs window, of the present one, and its number (R826) -/
  polls : Nat := 0
  pollNow : Nat := 0
  pollWin : Nat := 0
  /-- the number the next fetched descriptor takes in the device's order of fetching -/
  nextSeq : Nat := 0
  /-- round-robin pointers over rings, by class -/
  rr : Tab Nat := []
  /-- completions of functions in D3hot held in staging (R58), as (ring, completion), oldest first -/
  held : List (Nat × Cpl) := []
  /-- MSI-X messages sent, as (function, vector), newest first -/
  msix : List (Nat × Nat) := []
  /-- attributes of the last data write of a descriptor, of the last completion write, and of the last MSI-X write (R50) -/
  dataAttr : TlpAttr := {}
  cplAttr : TlpAttr := {}
  msixAttr : TlpAttr := {}
deriving DecidableEq, Repr

/-- Who asked the signet block for an operation. -/
inductive Client
  | desc (ring seq : Nat)
  /-- the active crown, for its journal entry of that number -/
  | crown (entry : Nat)
  /-- the active crown, for the SPDM request of that number (R344, R388) -/
  | spdm (job : Nat)
  | strand (stream : Nat) (id : Word32) (ml : Bool)
deriving DecidableEq, Repr

/-- A request waiting for an engine, or the operation on one (R346). -/
structure SigReq where
  client : Client
  lattice : Bool
  scheme : Nat
  /-- random bytes drawn at its start -/
  rnd : Bytes := []
  /-- what the engine has read into its scratch at its start (R350); for a quote, the quote (R369) -/
  input : Bytes := []
  /-- its slot has been charged (R362) -/
  charged : Bool := false
  /-- the descriptor that it serves -/
  desc : Option Desc := none
deriving DecidableEq, Repr

/-- One signet or lattice engine (R344, R397, R398). -/
structure SigEngine where
  busy : Option SigReq := none
  katFail : Bool := false
  signCheck : Bool := false
  verdictFault : Bool := false
deriving DecidableEq, Repr

/-- Entropy source states (R378 to R380, R396). -/
inductive EntState | startup | running | failed
deriving DecidableEq, Repr

/-- One CTR_DRBG instance (R381 to R385, R400). -/
structure Drbg where
  instantiated : Bool := false
  reseedReq : Bool := false
  requests : Nat := 0
  /-- mref cycle count at the last reseed -/
  reseedTick : Nat := 0
  fails : Nat := 0
  /-- Key and V of SP 800-90A -/
  key : Bytes := zeros 32
  v : Bytes := zeros 16
deriving DecidableEq, Repr

/-- A request that waits for a pool block (R383, R347): at an engine, of a `RANDOM`, of a descriptor of the crown, of
SPDM, of the DRK, of the token and staging keys. -/
inductive DrawWait
  | engine (n : Nat)
  | random (ring seq : Nat)
  /-- a journal entry, by its number -/
  | crown (entry : Nat)
  | spdm
  | drk
  | inst3
deriving DecidableEq, Repr

/-- The signet block (chapter 7). -/
structure Signet where
  engines : Tab SigEngine := []
  /-- waiting for an engine, in order of arrival -/
  queue : List SigReq := []
  /-- waiting for a pool block, in order of arrival (R383) -/
  waits : List DrawWait := []
  predResAll : Bool := false
  intervalMs : BitVec 10 := 1000
  reqLog2 : BitVec 5 := 20
  ent : EntState := .startup
  settling : Bool := true
  startupFails : Nat := 0
  /-- conditioned blocks of 48 bytes, oldest first (R376) -/
  pool : List Bytes := []
  /-- the 16 bytes that begin the personalization strings of this start (R382, R680) -/
  personal : Bytes := zeros 16
  rctFail : Bool := false
  aptFail : Bool := false
  startupFail : Bool := false
  rctCount : Nat := 0
  aptCount : Nat := 0
  drbgs : Tab Drbg := []
  rawTap : List Word32 := List.replicate 16 0
  /-- round-robin pointers over rings, by class, those of the lattice engines 4 places on (R39, R346) -/
  rr : Tab Nat := []
  /-- start-up tests run during the ENTROPY step (R763) -/
  stepTests : Nat := 0
deriving DecidableEq, Repr

/-- One recorded effect of crown work (R611, R612): whole new values, never increments. -/
inductive Eff
  | slot (i : Nat) (k : KeySlot)
  /-- custody state, domain key, `DEVICE_NUMBER`, `DOMAIN_ID` -/
  | custody (c : Custody) (domainKey : Option Bytes) (devNumber : Byte) (domainId : Word32)
  | ceremony (c : Option Ceremony)
  | hallmark (i : Nat) (h : Hallmark)
  /-- the vault record as written, and the vault state -/
  | vault (v : VRecord) (st : VaultState)
  /-- the cut of a checkpoint (R433), its record already given, and the export that follows -/
  | cut (f : ChkForm)
  /-- the commit of an export (R426, R437, R442) -/
  | vcommit
  /-- the empty vault of `VAULT_FORMAT` (R453) -/
  | vformat
  /-- page sets no longer needed are to be cleared (R427, R441) -/
  | vrelease
  | signer (gen : Word32) (ec ml : Bytes)
  | app (slot : Nat) (a : AppSlot)
  /-- the life-cycle record -/
  | lcs (target : Option Lcs) (wipe : Bool)
  | debugKey (gen : Word32) (key : Bytes)
  | nonce (n : Option Bytes) (number : Nat)
  | grant (g : Option Grant)
  | idKey (key : Bytes)
  | hostWrite (outs : List Ext) (data : Bytes)
deriving DecidableEq, Repr

/-- What crown work in progress waits for. -/
inductive CrownWait
  /-- a signet or lattice engine (crown request) -/
  | engine
  /-- a pool block for instance 0 (R383) -/
  | draw
  /-- recorded page writes -/
  | nvm
  /-- a card -/
  | card
  /-- the vault engine: arms, fold pass, clearing, export -/
  | vault
  /-- an applet slot's invocations or a hallmark's pending marks -/
  | hold
  /-- the clearing of a rung (R202) -/
  | clearing
  /-- nothing more: an output of the entry has been discarded at its clasp, and only a takeover resolves it (R598) -/
  | clasp
deriving DecidableEq, Repr

/-- The journal entry of the descriptor the active crown carries out (R611). -/
structure Journal where
  ring : Nat
  seq : Nat
  tag : Word32
  opcode : BitVec 16
  number : Nat
  state : JState := .intent
  wait : CrownWait := .nvm
  /-- parts of the operation done: signatures verified, pages or keys dealt with -/
  step : Nat := 0
  /-- record writes still to be made, the head being made now -/
  recs : List RecWrite := []
  effs : List Eff := []
  cpl : Option Cpl := none
  /-- pending marks that must be cleared first (R328) -/
  hold : List Mark := []
  /-- after a takeover: `OUTCOME` (R613) -/
  outcome : Option Nat := none
  /-- then, with `OUTCOME` 1: the result that `DONE` would have carried (R832) -/
  shown : Bytes := []
  /-- the descriptor and what was read of it, kept when a reset of its function or a link event has dropped
  it from its ring: the work runs to its end without a completion (R64, R780) -/
  kept : Option (Desc × List Ext × List Ext × Bytes) := none
  /-- `SD_WP` as a writing descriptor sampled it at step 8 (R726) -/
  wp : Option Bool := none
deriving DecidableEq, Repr

/-- The crowns, clasps and journal (chapter 12). -/
structure Crowns where
  a : Crown := {}
  b : Crown := {}
  activeB : Bool := false
  clasps : List Clasp := List.replicate 4 {}
  journal : Option Journal := none
  /-- the entry shown after its completion -/
  lastEntry : Option Journal := none
  entries : Nat := 0
  rejoinAuto : Bool := true
  healthUs : BitVec 16 := 100
  miss : BitVec 4 := 3
  periodUs : BitVec 7 := 5
  takeValid : Bool := false
  takeClaim : BitVec 16 := 0
  takeCause : BitVec 4 := 0
  takeCrownB : Bool := false
  takeovers : BitVec 16 := 0
  rejoins : Nat := 0
  takeTime : Word32 := 0
  rejoinDue : Bool := false
  /-- takeover causes the standby has found and not yet acted on (R604, R640) -/
  due : List Nat := []
  /-- the active crown's view of the standby's report: number and stale reads (R622) -/
  standbySeen : Word32 := 0
  standbyStale : Nat := 0
deriving DecidableEq, Repr

/-- Facet registers that count or record (R827, R828). -/
structure FctRegs where
  bistMs : Nat := 0
  passes : Nat := 0
  hwmGddr : Nat := 0
  hwmOnChip : Nat := 0
  ageRaises : Nat := 0
  waitMax : List Nat := [0, 0, 0, 0]
  endCnt : List Nat := List.replicate 8 0
  errStatus : Byte := 0
  errRing : Nat := 0
  errOp : BitVec 16 := 0
  errTag : Word32 := 0
deriving DecidableEq, Repr

/-- Cluster registers (R829 to R831). -/
structure Clu where
  stageHwm : Nat := 0
  edcValid : Bool := false
  edcVault : Bool := false
  edcLine : BitVec 26 := 0
  trainTime : Nat := 0
  trainMethod : Nat := 0
  failValid : Bool := false
  failRate : Nat := 0
  failDq : Nat := 0
  chRetry : List Nat := [0, 0, 0, 0]
  chFail : List Nat := [0, 0, 0, 0]
  chBursts : List Nat := [0, 0, 0, 0]
  dqTrain : List Word32 := List.replicate 32 0
  state : Nat := 0
deriving DecidableEq, Repr

/-- GLB registers, health record, VID (chapters 19 and 20). -/
structure Glb where
  grade : Bool := false
  scratch : List Word32 := [0, 0, 0, 0]
  vid : BitVec 6 := 20
  health : List Word32 := 0x4B480100 :: List.replicate 31 0
  healthCount : Word32 := 0
  clamshell : Bool := false
  /-- latched `_HI` values, by register address (R814) -/
  latches : Tab Word32 := []
deriving DecidableEq, Repr

/-- What the device drives or answers towards the outside, last value of each. -/
structure Outputs where
  /-- value of the last register read -/
  readData : Word32 := 0
  /-- last SMBus answer; none when the address or command was not acknowledged -/
  smbus : Option Bytes := none
  mctp : Option Bytes := none
  /-- last JTAG answer -/
  jtag : Option Bytes := none
  jtagIr : Nat := 0
  /-- boundary-scan value held for EXTEST -/
  scan : Bytes := []
  /-- SD commands and APDUs sent last -/
  sdCmd : Option (Nat × Word32) := none
  /-- the command on `SD_CMD` and the data block on `SD_DAT` sent last, with the CRC of each line (R722) -/
  sdFrame : Bytes := []
  sdBlock : Bytes × List (BitVec 16) := ([], [])
  apdu : Bytes := []
  /-- characters that the contact port sent last -/
  ccTx : Bytes := []
  readyStatus : Bool := false
deriving DecidableEq, Repr

/-- Where an extend came from, and so what its end completes. -/
inductive ExtSrc
  | msg (facet id : Nat)
  | desc (ring seq : Nat)
  | engine (e : Nat)
  /-- of a capture: `own` is the record's own extend, the others are its hook's -/
  | capture (facet id : Nat) (own : Bool)
deriving DecidableEq, Repr

/-- An extend queued at the hallmark unit, with the number of its pending mark. -/
structure ExtendReq where
  hm : Nat
  value : Bytes
  n : Nat
  /-- rank of the source: facets first, then crown, then applet engines (R42, R324) -/
  rank : Nat
  /-- cycle in which it reached the hallmark unit (R42) -/
  time : Nat
  src : ExtSrc
deriving DecidableEq, Repr

end Sys2Proof.Machine
end

