-- ==== Sys2Proof/Decode.lean ====
section
/-!
DEFINITION. What the block decodes: the `OPCODE` of a descriptor, the 64-byte descriptor itself (R102) and
the 64-bit moves of the applet engines (R570), each with its encoder. The command table gives its rows
no bits, so no table word spells a command.
-/

namespace Sys2Proof

/-- The operations of the descriptor families (R130, R217, R286, R360, R451, R504, R561, R198, R209,
R796, R747, R668, R616, R710). -/
inductive Op
  | nop | fence | aesEcb | aesCbc | aesCtr | aesGcm | aesXts | aesCmac | aesKw | cipherDrop
   | digest | digOpen | digUpdate | digFinal | digRead | digCompare | digRelease | digFlush
   | hmExtend | hmRead | hmReset | hmLock | hmSetup | sigSign | sigVerify | random | sigQuote
   | vaultFormat | vaultEnroll | vaultRevoke | vaultRekey | vaultArm | vaultQuery
   | vaultCheckpoint | vaultCommit | vaultImport | vaultMoveOpen | capture | strandSetup
   | strandCollect | strandClose | appletInvoke | appletInstall | appletRemove | appletSigner
   | keyGenerate | keyImport | keyExport | keyDestroy | keyRelease | keyLimit | keyLoad
   | keyPublic | keyDecapsulate | keyScrub | keyPurge | cerBegin | cerShare | cerFinish
   | cerCancel | snapshot | sdInfo | bundleWrite | bundleImport | ccInfo | ccClear
   | lcsTransition | lcsCancel | lcsDebugKey | lcsDebugNonce | lcsDebugGrant | lcsDebugRevoke
   | provIdkey | provCert | provPatch | crownSwap | crownRejoin | nvmRead | nvmWrite
   | nvmScan
deriving DecidableEq, Repr

/-- The 16-bit `OPCODE` of an operation: family in the high byte (R102). -/
def Op.code : Op → BitVec 16
  | .nop => 0x0100
  | .fence => 0x0101
  | .aesEcb => 0x0200
  | .aesCbc => 0x0201
  | .aesCtr => 0x0202
  | .aesGcm => 0x0203
  | .aesXts => 0x0204
  | .aesCmac => 0x0205
  | .aesKw => 0x0206
  | .cipherDrop => 0x0210
  | .digest => 0x0300
  | .digOpen => 0x0301
  | .digUpdate => 0x0302
  | .digFinal => 0x0303
  | .digRead => 0x0304
  | .digCompare => 0x0305
  | .digRelease => 0x0306
  | .digFlush => 0x0307
  | .hmExtend => 0x0310
  | .hmRead => 0x0311
  | .hmReset => 0x0312
  | .hmLock => 0x0313
  | .hmSetup => 0x0314
  | .sigSign => 0x0400
  | .sigVerify => 0x0401
  | .random => 0x0402
  | .sigQuote => 0x0403
  | .vaultFormat => 0x0500
  | .vaultEnroll => 0x0501
  | .vaultRevoke => 0x0502
  | .vaultRekey => 0x0503
  | .vaultArm => 0x0504
  | .vaultQuery => 0x0505
  | .vaultCheckpoint => 0x0506
  | .vaultCommit => 0x0507
  | .vaultImport => 0x0508
  | .vaultMoveOpen => 0x0509
  | .capture => 0x0600
  | .strandSetup => 0x0601
  | .strandCollect => 0x0602
  | .strandClose => 0x0603
  | .appletInvoke => 0x0700
  | .appletInstall => 0x0701
  | .appletRemove => 0x0702
  | .appletSigner => 0x0703
  | .keyGenerate => 0x0800
  | .keyImport => 0x0801
  | .keyExport => 0x0802
  | .keyDestroy => 0x0803
  | .keyRelease => 0x0804
  | .keyLimit => 0x0805
  | .keyLoad => 0x0806
  | .keyPublic => 0x0807
  | .keyDecapsulate => 0x0808
  | .keyScrub => 0x0809
  | .keyPurge => 0x080A
  | .cerBegin => 0x0810
  | .cerShare => 0x0811
  | .cerFinish => 0x0812
  | .cerCancel => 0x0813
  | .snapshot => 0x0900
  | .sdInfo => 0x0A00
  | .bundleWrite => 0x0A01
  | .bundleImport => 0x0A02
  | .ccInfo => 0x0A10
  | .ccClear => 0x0A11
  | .lcsTransition => 0x0B00
  | .lcsCancel => 0x0B01
  | .lcsDebugKey => 0x0B02
  | .lcsDebugNonce => 0x0B03
  | .lcsDebugGrant => 0x0B04
  | .lcsDebugRevoke => 0x0B05
  | .provIdkey => 0x0B10
  | .provCert => 0x0B11
  | .provPatch => 0x0B12
  | .crownSwap => 0x0B20
  | .crownRejoin => 0x0B21
  | .nvmRead => 0x0C00
  | .nvmWrite => 0x0C01
  | .nvmScan => 0x0C02

/-- Every operation, in opcode order. -/
def Op.all : List Op :=
  [.nop, .fence, .aesEcb, .aesCbc, .aesCtr, .aesGcm, .aesXts, .aesCmac, .aesKw, .cipherDrop, 
  .digest, .digOpen, .digUpdate, .digFinal, .digRead, .digCompare, .digRelease, .digFlush, 
  .hmExtend, .hmRead, .hmReset, .hmLock, .hmSetup, .sigSign, .sigVerify, .random, .sigQuote, 
  .vaultFormat, .vaultEnroll, .vaultRevoke, .vaultRekey, .vaultArm, .vaultQuery, 
  .vaultCheckpoint, .vaultCommit, .vaultImport, .vaultMoveOpen, .capture, .strandSetup, 
  .strandCollect, .strandClose, .appletInvoke, .appletInstall, .appletRemove, .appletSigner, 
  .keyGenerate, .keyImport, .keyExport, .keyDestroy, .keyRelease, .keyLimit, .keyLoad, 
  .keyPublic, .keyDecapsulate, .keyScrub, .keyPurge, .cerBegin, .cerShare, .cerFinish, 
  .cerCancel, .snapshot, .sdInfo, .bundleWrite, .bundleImport, .ccInfo, .ccClear, 
  .lcsTransition, .lcsCancel, .lcsDebugKey, .lcsDebugNonce, .lcsDebugGrant, .lcsDebugRevoke, 
  .provIdkey, .provCert, .provPatch, .crownSwap, .crownRejoin, .nvmRead, .nvmWrite, .nvmScan]

/-- The operation of an `OPCODE`; none where family or operation is not assigned (step 1 of R131). -/
def Op.decode (w : BitVec 16) : Option Op := Op.all.find? fun o => o.code == w

/-- The family of an operation: byte 1 of its opcode (R102). -/
def Op.family (o : Op) : Nat := o.code.toNat / 256

/-! The descriptor (R102). -/

namespace Machine

/-- A descriptor from its 64 bytes. -/
def decodeDesc (b : Bytes) : Desc where
  opcode := BitVec.ofNat 16 (leField b 0 2)
  flags := byteAt b 2
  cls := byteAt b 3
  tag := BitVec.ofNat 32 (leField b 4 4)
  declLen := BitVec.ofNat 64 (leField b 8 8)
  body := slice b 16 48

/-- The 64 bytes of a descriptor. -/
def encodeDesc (d : Desc) : Bytes :=
  leBytes 2 d.opcode.toNat ++ [d.flags, d.cls] ++ leBytes 4 d.tag.toNat ++ leBytes 8 d.declLen.toNat ++
    fit 48 d.body

end Machine

/-! Moves (R570, R571). -/

/-- The fields of a move. -/
structure MoveFields where
  op : Nat
  d : Fin 16
  a : Fin 16
  b : Fin 16
  c : Fin 16
  imm : Word32
deriving DecidableEq, Repr

/-- The 64 bits of a move's fields; bits [39:32] zero (R570). -/
def packMove (m : MoveFields) : BitVec 64 :=
  BitVec.ofNat 64 (m.op * 2 ^ 56 + m.d.val * 2 ^ 52 + m.a.val * 2 ^ 48 + m.b.val * 2 ^ 44 +
    m.c.val * 2 ^ 40 + m.imm.toNat)

/-- The fields of 64 bits; none when bits [39:32] are not zero. -/
def unpackMove (w : BitVec 64) : Option MoveFields :=
  let v := w.toNat
  if v / 2 ^ 32 % 256 = 0 then
    some { op := v / 2 ^ 56, d := ⟨v / 2 ^ 52 % 16, Nat.mod_lt _ (by decide)⟩,
           a := ⟨v / 2 ^ 48 % 16, Nat.mod_lt _ (by decide)⟩,
           b := ⟨v / 2 ^ 44 % 16, Nat.mod_lt _ (by decide)⟩,
           c := ⟨v / 2 ^ 40 % 16, Nat.mod_lt _ (by decide)⟩, imm := BitVec.ofNat 32 v }
  else none

/-- The fields of a move command; none for a command that is no move. -/
def moveFields : Instr → Option MoveFields
  | .moveAdd _ d a b => some ⟨0x01, d, a, b, 0, 0⟩
  | .moveSub _ d a b => some ⟨0x02, d, a, b, 0, 0⟩
  | .moveMul _ d a b => some ⟨0x03, d, a, b, 0, 0⟩
  | .moveDivu _ d a b => some ⟨0x04, d, a, b, 0, 0⟩
  | .moveRemu _ d a b => some ⟨0x05, d, a, b, 0, 0⟩
  | .moveAnd _ d a b => some ⟨0x06, d, a, b, 0, 0⟩
  | .moveOr _ d a b => some ⟨0x07, d, a, b, 0, 0⟩
  | .moveXor _ d a b => some ⟨0x08, d, a, b, 0, 0⟩
  | .moveShl _ d a b => some ⟨0x09, d, a, b, 0, 0⟩
  | .moveShr _ d a b => some ⟨0x0A, d, a, b, 0, 0⟩
  | .moveAddi _ d a imm => some ⟨0x10, d, a, 0, 0, imm⟩
  | .moveLdi _ d imm => some ⟨0x11, d, 0, 0, 0, imm⟩
  | .moveLdih _ d imm => some ⟨0x12, d, 0, 0, 0, imm⟩
  | .moveAndi _ d a imm => some ⟨0x13, d, a, 0, 0, imm⟩
  | .moveShli _ d a imm => some ⟨0x14, d, a, 0, 0, imm⟩
  | .moveShri _ d a imm => some ⟨0x15, d, a, 0, 0, imm⟩
  | .moveCmpeq _ d a b => some ⟨0x20, d, a, b, 0, 0⟩
  | .moveCmpltu _ d a b => some ⟨0x21, d, a, b, 0, 0⟩
  | .moveBeqz _ a imm => some ⟨0x28, 0, a, 0, 0, imm⟩
  | .moveBnez _ a imm => some ⟨0x29, 0, a, 0, 0, imm⟩
  | .moveJmp _ imm => some ⟨0x2A, 0, 0, 0, 0, imm⟩
  | .moveMemcmp _ d a b imm _ => some ⟨0x2C, d, a, b, 0, imm⟩
  | .moveLd _ d a c imm => some ⟨0x30, d, a, 0, ⟨c.val, by omega⟩, imm⟩
  | .moveSt _ a b c imm => some ⟨0x31, 0, a, b, ⟨c.val, by omega⟩, imm⟩
  | .moveFld _ d imm => some ⟨0x38, d, 0, 0, 0, imm⟩
  | .moveKdf _ a b c imm => some ⟨0x40, 0, a, b, ⟨c.val, by omega⟩, imm⟩
  | .moveCtr _ d a b imm => some ⟨0x41, d, a, b, 0, imm⟩
  | .moveCmac _ d a b imm => some ⟨0x42, d, a, b, 0, imm⟩
  | .moveGcms _ d a b imm => some ⟨0x43, d, a, b, 0, imm⟩
  | .moveGcmo _ d a b imm _ => some ⟨0x44, d, a, b, 0, imm⟩
  | .moveHash _ d a b imm => some ⟨0x48, d, a, b, 0, imm⟩
  | .moveHmx _ a imm => some ⟨0x50, 0, a, 0, 0, imm⟩
  | .moveNote _ a => some ⟨0x58, 0, a, 0, 0, 0⟩
  | .moveRet _ a b imm => some ⟨0x60, 0, a, b, 0, imm⟩
  | _ => none

/-- The 64 bits of a move command. -/
def encodeMove (i : Instr) : Option (BitVec 64) := (moveFields i).map packMove

/-- Size code or key register of a move: 0 to 3 (R577). -/
def moveC (m : MoveFields) : Fin 4 := ⟨m.c.val % 4, Nat.mod_lt _ (by decide)⟩

/-- The move of a move code on engine `e`, its unused fields not yet checked. -/
def moveOfCode (e : Fin 4) (m : MoveFields) : Option Instr :=
  match m.op with
  | 0x01 => some (.moveAdd e m.d m.a m.b)
  | 0x02 => some (.moveSub e m.d m.a m.b)
  | 0x03 => some (.moveMul e m.d m.a m.b)
  | 0x04 => some (.moveDivu e m.d m.a m.b)
  | 0x05 => some (.moveRemu e m.d m.a m.b)
  | 0x06 => some (.moveAnd e m.d m.a m.b)
  | 0x07 => some (.moveOr e m.d m.a m.b)
  | 0x08 => some (.moveXor e m.d m.a m.b)
  | 0x09 => some (.moveShl e m.d m.a m.b)
  | 0x0A => some (.moveShr e m.d m.a m.b)
  | 0x10 => some (.moveAddi e m.d m.a m.imm)
  | 0x11 => some (.moveLdi e m.d m.imm)
  | 0x12 => some (.moveLdih e m.d m.imm)
  | 0x13 => some (.moveAndi e m.d m.a m.imm)
  | 0x14 => some (.moveShli e m.d m.a m.imm)
  | 0x15 => some (.moveShri e m.d m.a m.imm)
  | 0x20 => some (.moveCmpeq e m.d m.a m.b)
  | 0x21 => some (.moveCmpltu e m.d m.a m.b)
  | 0x28 => some (.moveBeqz e m.a m.imm)
  | 0x29 => some (.moveBnez e m.a m.imm)
  | 0x2A => some (.moveJmp e m.imm)
  | 0x2C => some (.moveMemcmp e m.d m.a m.b m.imm none)
  | 0x30 => some (.moveLd e m.d m.a (moveC m) m.imm)
  | 0x31 => some (.moveSt e m.a m.b (moveC m) m.imm)
  | 0x38 => some (.moveFld e m.d m.imm)
  | 0x40 => some (.moveKdf e m.a m.b (moveC m) m.imm)
  | 0x41 => some (.moveCtr e m.d m.a m.b m.imm)
  | 0x42 => some (.moveCmac e m.d m.a m.b m.imm)
  | 0x43 => some (.moveGcms e m.d m.a m.b m.imm)
  | 0x44 => some (.moveGcmo e m.d m.a m.b m.imm none)
  | 0x48 => some (.moveHash e m.d m.a m.b m.imm)
  | 0x50 => some (.moveHmx e m.a m.imm)
  | 0x58 => some (.moveNote e m.a)
  | 0x60 => some (.moveRet e m.a m.b m.imm)
  | _ => none

/-- The move that 64 bits spell on engine `e`: code in the table and every field it does not use zero
(R570, R577); none otherwise. -/
def decodeMove (e : Fin 4) (w : BitVec 64) : Option Instr :=
  match unpackMove w with
  | none => none
  | some m =>
    match moveOfCode e m with
    | none => none
    | some i => if moveFields i = some m then some i else none

/-- The command that a word spells by the table's bits: the table gives no row any bits. -/
def decodeTableWord (_nbits _w : Nat) : Option Instr := none

end Sys2Proof
end

