-- ==== Sys2Proof/Config.lean ====
section
/-!
DEFINITION. What no rule of the manual and no standard it names computes: functions without a body, for the
device's own data, for the internals that the manual does not give, and for the free values of everything it leaves
open. Nothing in Lean can evaluate one of these or prove a value of it, so a statement about them holds for every
function of that shape (log entry 3, DESIGN CHOICE).
-/

namespace Sys2Proof.Config

/-- The two primes of an RSA key pair whose modulus has `len` bytes, p ‖ q, as a search from random bytes finds
them: FIPS 186-5 leaves the search open (R368). -/
opaque rsaPrimes (len : Nat) (seed : Bytes) : BitVec (8 * len)
/-- The antifuse, factory and build data of the device: its serial number (R812). -/
opaque serial : BitVec 64
/-- The 256 KiB of crown firmware, identical in the ROM of both crowns (R591). -/
opaque crownRom : BitVec (8 * 262144)
/-- What takes the place of `ID_HASH` in a part that holds no identity key (R538, R684): the manual gives it as the hash
of that key. -/
opaque noIdHash : BitVec 128
/-- The claim token of an endpoint and a sequence under the token key (R491): a keyed function whose
definition is internal to the device. -/
opaque claimToken (tk : BitVec 128) (endpoint seq : Nat) : BitVec 10
/-- The word of on-chip SRAM at an address of the memory test lies in the crown memory, the vault cache or the signet
scratch; the manual gives no address map (R667). -/
opaque sramHidden (word : Nat) : Bool
/-- The number of transfers one operation sends on a handshake channel (R783 leaves it open). -/
opaque freeTransfers (stamp channel : Nat) : Nat
/-- A free value of `n` bits: `stamp` is the model's own counter, so every draw is a fresh one. -/
opaque freeBits (stamp : Nat) (n : Nat) : BitVec n

end Sys2Proof.Config
end

