-- ==== Sys2Proof/Machine/Aes.lean ====
section
/-!
DEFINITION. The field GF(2^8) with x^8 + x^4 + x^3 + x + 1, which AES and the secret sharing of R205
share, and the block cipher of FIPS 197 with keys of 16, 24 and 32 bytes. The manual names the standard
and repeats none of its tables; the substitution box is computed from its definition
(log entry 4, PRESUMED).
-/

namespace Sys2Proof.Machine

/-- Multiplication by x. -/
def gf8x (a : Byte) : Byte := if a.getLsbD 7 then (a <<< 1) ^^^ 0x1B else a <<< 1

/-- Multiplication in GF(2^8). -/
def gf8Mul (a b : Byte) : Byte :=
  ((List.range 8).foldl (fun (s : Byte × Byte) i =>
    (if b.getLsbD i then s.1 ^^^ s.2 else s.1, gf8x s.2)) (0, a)).1

/-- `a` to the power `n`. -/
def gf8Pow (a : Byte) : Nat → Byte
  | 0 => 1
  | n + 1 => gf8Mul a (gf8Pow a n)

/-- The inverse in GF(2^8); 0 for 0. -/
def gf8Inv (a : Byte) : Byte := gf8Pow a 254

/-- The affine part of the substitution box (FIPS 197, 5.1.1). -/
def sboxAffine (b : Byte) : Byte :=
  b ^^^ b.rotateLeft 1 ^^^ b.rotateLeft 2 ^^^ b.rotateLeft 3 ^^^ b.rotateLeft 4 ^^^ 0x63

/-- The substitution box. -/
def sboxTable : List Byte := (List.range 256).map fun i => sboxAffine (gf8Inv (BitVec.ofNat 8 i))

/-- SubBytes on one byte. -/
def subByte (b : Byte) : Byte := sboxTable.getD b.toNat 0

/-- The inverse substitution box. -/
def invSboxTable : List Byte :=
  (List.range 256).map fun i => BitVec.ofNat 8 (sboxTable.findIdx (· == BitVec.ofNat 8 i))

/-- InvSubBytes on one byte. -/
def invSubByte (b : Byte) : Byte := invSboxTable.getD b.toNat 0

/-- ShiftRows: the state in column order, row `r` turned left by `r`. -/
def shiftRows (s : Bytes) : Bytes := (List.range 16).map fun i => byteAt s ((i + 4 * (i % 4)) % 16)

/-- InvShiftRows. -/
def invShiftRows (s : Bytes) : Bytes :=
  (List.range 16).map fun i => byteAt s ((i + 12 * (i % 4)) % 16)

/-- One column times a circulant matrix of bytes. -/
def mixColumn (m c : Bytes) : Bytes :=
  (List.range 4).map fun r =>
    (List.range 4).foldl (fun a k => a ^^^ gf8Mul (byteAt c k) (byteAt m ((k + 4 - r) % 4))) 0

/-- MixColumns with the row `m` of its matrix. -/
def mixWith (m s : Bytes) : Bytes := ((chunks 4 s).map (mixColumn m)).flatten
/-- MixColumns. -/
def mixColumns (s : Bytes) : Bytes := mixWith [2, 3, 1, 1] s
/-- InvMixColumns. -/
def invMixColumns (s : Bytes) : Bytes := mixWith [14, 11, 13, 9] s

/-- The key expansion from word `i` on: `win` is the last `nk` words, oldest first (FIPS 197, 5.2). -/
def expandKey (nk : Nat) : Nat → Nat → List Bytes → List Bytes
  | 0, _, _ => []
  | n + 1, i, win =>
    let last := win.getLastD []
    let t :=
      if i % nk = 0 then
        xorB ((last.drop 1 ++ last.take 1).map subByte) [gf8Pow 2 (i / nk - 1), 0, 0, 0]
      else if 6 < nk ∧ i % nk = 4 then last.map subByte else last
    let x := xorB (win.headD []) t
    x :: expandKey nk n (i + 1) (win.drop 1 ++ [x])

/-- The round keys, 16 bytes each, first the key added before round 1. -/
def roundKeys (key : Bytes) : List Bytes :=
  let nk := key.length / 4
  let ws := chunks 4 key
  chunks 16 ((ws ++ expandKey nk (4 * (nk + 7) - nk) nk ws).flatten)

/-- One round; the last leaves out MixColumns. -/
def aesRound (last : Bool) (s k : Bytes) : Bytes :=
  let x := shiftRows (s.map subByte)
  xorB (if last then x else mixColumns x) k

/-- One inverse round; the last leaves out InvMixColumns. -/
def aesInvRound (last : Bool) (s k : Bytes) : Bytes :=
  let x := xorB ((invShiftRows s).map invSubByte) k
  if last then x else invMixColumns x

/-- AES on a byte block. -/
@[irreducible] def aesE (key blk : Bytes) : Bytes :=
  let ks := roundKeys key
  let mid := (ks.drop 1).dropLast
  fit 16 (aesRound true (mid.foldl (aesRound false) (xorB (fit 16 blk) (ks.headD [])))
    (ks.getLastD []))

/-- Inverse AES on a byte block. -/
@[irreducible] def aesD (key blk : Bytes) : Bytes :=
  let ks := (roundKeys key).reverse
  let mid := (ks.drop 1).dropLast
  fit 16 (aesInvRound true (mid.foldl (aesInvRound false) (xorB (fit 16 blk) (ks.headD [])))
    (ks.getLastD []))

/-! Shamir sharing over GF(2^8) (R205). -/

/-- A polynomial, constant term first, at `x`. -/
def gf8Eval (c : List Byte) (x : Byte) : Byte := c.foldr (fun a v => a ^^^ gf8Mul v x) 0

/-- Lagrange interpolation at 0 from points `(x, y)`. -/
def gf8Interp (pts : List (Byte × Byte)) : Byte :=
  pts.foldl (fun s p => s ^^^ gf8Mul p.2
    ((pts.filter (·.1 != p.1)).foldl
      (fun w q => gf8Mul w (gf8Mul q.1 (gf8Inv (q.1 ^^^ p.1)))) 1)) 0

end Sys2Proof.Machine
end

