-- ==== Sys2Proof/Machine/Sha.lean ====
section
/-!
DEFINITION. The digests of R282, as the standards that rule names compute them: SHA-256, SHA-384 and
SHA-512 of FIPS 180-4, SHA-3 and SHAKE of FIPS 202, and HMAC of FIPS 198-1. The manual names these
standards and repeats none of their tables; they stand here as the standards give them (log entry 4,
PRESUMED).
-/

namespace Sys2Proof.Machine

/-! Constants: FIPS 180-4 takes them from the fractional parts of roots of the first primes. -/

/-- `n` has no divisor from 2 to `n - 1`. -/
def isPrime (n : Nat) : Bool := decide (2 ≤ n) && (List.range n).all fun d => d < 2 || n % d != 0

/-- The first 80 primes. -/
def primes80 : List Nat := (List.range 410).filter isPrime

/-- The largest `r` of `bits` bits with `r ^ k ≤ v`. -/
def kthRoot (k v : Nat) : Nat → Nat → Nat
  | 0, r => r
  | b + 1, r => kthRoot k v b (if (r + 2 ^ b) ^ k ≤ v then r + 2 ^ b else r)

/-- The first `w` bits of the fractional part of the `k`-th root of `p`. -/
def rootBits (w k p : Nat) : BitVec w := BitVec.ofNat w (kthRoot k (p * 2 ^ (k * w)) (w + 8) 0)

/-- Round constants of SHA-256. -/
def k256 : List (BitVec 32) := (primes80.take 64).map (rootBits 32 3)
/-- Round constants of SHA-384 and SHA-512. -/
def k512 : List (BitVec 64) := primes80.map (rootBits 64 3)
/-- Initial hash value of SHA-256. -/
def iv256 : List (BitVec 32) := (primes80.take 8).map (rootBits 32 2)
/-- Initial hash value of SHA-384: the ninth to sixteenth primes. -/
def iv384 : List (BitVec 64) := ((primes80.drop 8).take 8).map (rootBits 64 2)
/-- Initial hash value of SHA-512. -/
def iv512 : List (BitVec 64) := (primes80.take 8).map (rootBits 64 2)

/-! SHA-2 over words of `w` bits. -/

/-- The rotations and shifts of a SHA-2 family: Σ0, Σ1, σ0, σ1. -/
structure ShaRot where
  /-- Σ0. -/
  big0 : Nat × Nat × Nat
  /-- Σ1. -/
  big1 : Nat × Nat × Nat
  /-- σ0; the last is a shift. -/
  small0 : Nat × Nat × Nat
  /-- σ1; the last is a shift. -/
  small1 : Nat × Nat × Nat
  deriving DecidableEq, Repr

/-- FIPS 180-4, 4.1.2. -/
def rot256 : ShaRot := ⟨(2, 13, 22), (6, 11, 25), (7, 18, 3), (17, 19, 10)⟩
/-- FIPS 180-4, 4.1.3. -/
def rot512 : ShaRot := ⟨(28, 34, 39), (14, 18, 41), (1, 8, 7), (19, 61, 6)⟩

variable {w : Nat}

/-- Σ: three rotations. -/
def shaBig (r : Nat × Nat × Nat) (x : BitVec w) : BitVec w :=
  x.rotateRight r.1 ^^^ x.rotateRight r.2.1 ^^^ x.rotateRight r.2.2

/-- σ: two rotations and a shift. -/
def shaSmall (r : Nat × Nat × Nat) (x : BitVec w) : BitVec w :=
  x.rotateRight r.1 ^^^ x.rotateRight r.2.1 ^^^ (x >>> r.2.2)

/-- The message schedule after its first 16 words: `win` is the last 16, oldest first. -/
def shaSched (r : ShaRot) : Nat → List (BitVec w) → List (BitVec w)
  | 0, _ => []
  | n + 1, win =>
    let x := shaSmall r.small1 (win.getD 14 0) + win.getD 9 0 + shaSmall r.small0 (win.getD 1 0) +
      win.getD 0 0
    x :: shaSched r n (win.drop 1 ++ [x])

/-- One round on the working variables a to h. -/
def shaRound (r : ShaRot) (v : List (BitVec w)) (kw : BitVec w × BitVec w) : List (BitVec w) :=
  match v with
  | [a, b, c, d, e, f, g, h] =>
    let t1 := h + shaBig r.big1 e + ((e &&& f) ^^^ (~~~e &&& g)) + kw.1 + kw.2
    let t2 := shaBig r.big0 a + ((a &&& b) ^^^ (a &&& c) ^^^ (b &&& c))
    [t1 + t2, a, b, c, d + t1, e, f, g]
  | v => v

/-- The compression of one block of 16 words. -/
def shaBlock (r : ShaRot) (ks : List (BitVec w)) (h blk : List (BitVec w)) : List (BitVec w) :=
  let ws := blk ++ shaSched r (ks.length - 16) blk
  List.zipWith (· + ·) h ((ks.zip ws).foldl (shaRound r) h)

/-- The words of a byte string, most significant byte first. -/
def beWords (w : Nat) (b : Bytes) : List (BitVec w) :=
  (chunks (w / 8) b).map fun c => BitVec.ofNat w (beNat c)

/-- Padding to blocks of `blk` bytes with a length field of `lf` bytes. -/
def shaPad (blk lf : Nat) (m : Bytes) : Bytes :=
  let z := (2 * blk - (m.length % blk + 1 + lf)) % blk
  m ++ [0x80] ++ zeros z ++ beBytes lf (8 * m.length)

/-- SHA-2: the whole final hash value. -/
def sha2 (r : ShaRot) (ks iv : List (BitVec w)) (m : Bytes) : Bytes :=
  let p := shaPad (2 * w) (w / 4) m
  let h := (chunks (2 * w) p).foldl (fun h c => shaBlock r ks h (beWords w c)) iv
  (h.map fun x => beBytes (w / 8) x.toNat).flatten

/-! Keccak (FIPS 202). Lane (x, y) stands at index x + 5 · y. -/

/-- Lane (x, y), coordinates modulo 5. -/
def lane (a : List (BitVec 64)) (x y : Nat) : BitVec 64 := a.getD (x % 5 + 5 * (y % 5)) 0

/-- A state made of its lanes. -/
def lanesOf (f : Nat → Nat → BitVec 64) : List (BitVec 64) :=
  (List.range 25).map fun i => f (i % 5) (i / 5)

/-- θ. -/
def keccakTheta (a : List (BitVec 64)) : List (BitVec 64) :=
  let c := (List.range 5).map fun x =>
    lane a x 0 ^^^ lane a x 1 ^^^ lane a x 2 ^^^ lane a x 3 ^^^ lane a x 4
  let d := (List.range 5).map fun x =>
    c.getD ((x + 4) % 5) 0 ^^^ (c.getD ((x + 1) % 5) 0).rotateLeft 1
  lanesOf fun x y => lane a x y ^^^ d.getD x 0

/-- The walk of ρ (FIPS 202, algorithm 2): lane index and rotation of each step. -/
def rhoWalk : Nat → Nat → Nat → Nat → List (Nat × Nat)
  | 0, _, _, _ => []
  | n + 1, x, y, t => (x + 5 * y, (t + 1) * (t + 2) / 2 % 64) :: rhoWalk n y ((2 * x + 3 * y) % 5) (t + 1)

/-- The rotation of each lane. -/
def rhoOffsets : List Nat :=
  (List.range 25).map fun i => (((rhoWalk 24 1 0 0).find? fun p => p.1 == i).map (·.2)).getD 0

/-- ρ, then π. -/
def keccakRhoPi (a : List (BitVec 64)) : List (BitVec 64) :=
  let b := List.zipWith (fun x n => x.rotateLeft n) a rhoOffsets
  lanesOf fun x y => lane b (x + 3 * y) x

/-- χ. -/
def keccakChi (a : List (BitVec 64)) : List (BitVec 64) :=
  lanesOf fun x y => lane a x y ^^^ (~~~(lane a (x + 1) y) &&& lane a (x + 2) y)

/-- The bits of the round-constant register (FIPS 202, algorithm 5): feedback x^8 + x^6 + x^5 + x^4 + 1. -/
def rcBits : Nat → BitVec 8 → List Bool
  | 0, _ => []
  | n + 1, r => r.getLsbD 0 :: rcBits n ((r <<< 1) ^^^ (if r.getLsbD 7 then 0x71 else 0))

/-- The round constants. -/
def keccakRc : List (BitVec 64) :=
  let b := rcBits 168 1
  (List.range 24).map fun i =>
    (List.range 7).foldl (fun v j => if b.getD (7 * i + j) false then v ||| (1 <<< (2 ^ j - 1)) else v) 0

/-- One round: θ, ρ, π, χ, ι. -/
def keccakRound (a : List (BitVec 64)) (rc : BitVec 64) : List (BitVec 64) :=
  match keccakChi (keccakRhoPi (keccakTheta a)) with
  | x :: xs => (x ^^^ rc) :: xs
  | [] => []

/-- Keccak-f[1600]. -/
def keccakF (a : List (BitVec 64)) : List (BitVec 64) := keccakRc.foldl keccakRound a

/-- The lanes of a byte string, least significant byte first. -/
def leLanes (b : Bytes) : List (BitVec 64) := (chunks 8 b).map fun c => BitVec.ofNat 64 (leNat c)

/-- `k` output blocks of `rate` bytes. -/
def squeeze (rate : Nat) : Nat → List (BitVec 64) → Bytes
  | 0, _ => []
  | k + 1, a =>
    (a.map fun x => leBytes 8 x.toNat).flatten.take rate ++ squeeze rate k (keccakF a)

/-- The sponge with `rate` bytes a block, the domain byte of its suffix and first padding bit. -/
def sponge (rate : Nat) (dom : Byte) (m : Bytes) (len : Nat) : Bytes :=
  let z := rate - 1 - m.length % rate
  let p := m ++ (if z = 0 then [dom ||| 0x80] else [dom] ++ zeros (z - 1) ++ [0x80])
  let a := (chunks rate p).foldl (fun a c =>
    keccakF (List.zipWith (· ^^^ ·) a (leLanes (fit 200 c)))) (List.replicate 25 0)
  (squeeze rate (ceilDiv len rate) a).take len

/-! The algorithms of R282. -/

/-- Output length in bytes of a fixed-length digest (R282); 0 for SHAKE and unassigned codes. -/
def digestLen (alg : Nat) : Nat :=
  if alg = 0x01 then 32 else if alg = 0x02 then 48 else if alg = 0x03 then 64
  else if alg = 0x11 then 32 else if alg = 0x12 then 48 else if alg = 0x13 then 64 else 0

/-- Block or rate bytes of an algorithm (R282). -/
def blockLen (alg : Nat) : Nat :=
  if alg = 0x01 then 64 else if alg = 0x02 then 128 else if alg = 0x03 then 128
  else if alg = 0x11 then 136 else if alg = 0x12 then 104 else if alg = 0x13 then 72
  else if alg = 0x21 then 168 else if alg = 0x22 then 136 else 0

/-- SHAKE128 or SHAKE256. -/
def isShake (alg : Nat) : Bool := alg == 0x21 || alg == 0x22
/-- The algorithm codes of R282. -/
def algValid (alg : Nat) : Bool := isShake alg || digestLen alg != 0

/-- The digest of `len` bytes (R282): a fixed-length digest, or `len` bytes of SHAKE output. -/
@[irreducible] def digestN (alg len : Nat) (m : Bytes) : Bytes :=
  fit len (if alg = 0x01 then sha2 rot256 k256 iv256 m
    else if alg = 0x02 then sha2 rot512 k512 iv384 m
    else if alg = 0x03 then sha2 rot512 k512 iv512 m
    else sponge (blockLen alg) (if isShake alg then 0x1F else 0x06) m len)

/-- The fixed-length digest. -/
def digest (alg : Nat) (m : Bytes) : Bytes := digestN alg (digestLen alg) m
/-- SHA-384. -/
def sha384 (m : Bytes) : Bytes := digest 0x02 m

/-- HMAC of FIPS 198-1 over the hash `alg` (R303, R304); the key is at most one block. -/
def hmac (alg : Nat) (key m : Bytes) : Bytes :=
  let k0 := fit (blockLen alg) key
  digest alg (k0.map (· ^^^ 0x5C) ++ digest alg (k0.map (· ^^^ 0x36) ++ m))

end Sys2Proof.Machine
end

