-- ==== Sys2Proof/Machine/Curve.lean ====
section
/-!
DEFINITION. Modular arithmetic, the prime curves P-256 and P-384 of FIPS 186-5, Ed25519 of RFC 8032 and the
RSA encodings of RFC 8017, as R351 to R355 and R364 to R368 name them. A signature scheme gives two byte
strings, the comparands that R366 names, so that the two-path comparison of R312 acts on them. The domain
parameters are those of the standards (log entry 4, PRESUMED).
-/

namespace Sys2Proof.Machine

/-! Modular arithmetic. -/

/-- `b ^ e mod m`, `k` bits of `e` from the top. -/
def powBits (b e m : Nat) : Nat → Nat → Nat
  | 0, acc => acc
  | k + 1, acc =>
    let sq := acc * acc % m
    powBits b e m k (if e.testBit k then sq * b % m else sq)

/-- `b ^ e mod m`. -/
def powMod (b e m : Nat) : Nat := powBits (b % m) e m (Nat.log2 e + 1) (1 % m)

/-- The inverse modulo a prime. -/
def invMod (a p : Nat) : Nat := powMod a (p - 2) p

/-- `a - b` modulo `p`, of reduced numbers. -/
def subMod (a b p : Nat) : Nat := (a + p - b % p) % p

/-! Prime curves y² = x³ - 3x + b. -/

/-- A curve: field prime, order, `b`, base point, bytes of a coordinate. -/
structure Curve where
  /-- Field prime. -/
  p : Nat
  /-- Order of the base point. -/
  q : Nat
  /-- The constant term. -/
  b : Nat
  /-- x of the base point. -/
  gx : Nat
  /-- y of the base point. -/
  gy : Nat
  /-- Bytes of a coordinate and of a scalar. -/
  len : Nat
  deriving DecidableEq, Repr

/-- P-256. -/
def curve256 : Curve where
  p := 2 ^ 256 - 2 ^ 224 + 2 ^ 192 + 2 ^ 96 - 1
  q := 0xFFFFFFFF00000000FFFFFFFFFFFFFFFFBCE6FAADA7179E84F3B9CAC2FC632551
  b := 0x5AC635D8AA3A93E7B3EBBD55769886BC651D06B0CC53B0F63BCE3C3E27D2604B
  gx := 0x6B17D1F2E12C4247F8BCE6E563A440F277037D812DEB33A0F4A13945D898C296
  gy := 0x4FE342E2FE1A7F9B8EE7EB4A7C0F9E162BCE33576B315ECECBB6406837BF51F5
  len := 32

/-- P-384. -/
def curve384 : Curve where
  p := 2 ^ 384 - 2 ^ 128 - 2 ^ 96 + 2 ^ 32 - 1
  q := 0xFFFFFFFFFFFFFFFFFFFFFFFFFFFFFFFFFFFFFFFFFFFFFFFFC7634D81F4372DDF581A0DB248B0A77AECEC196ACCC52973
  b := 0xB3312FA7E23EE7E4988E056BE3F82D19181D9C6EFE8141120314088F5013875AC656398D8A2ED19D2A85C8EDD3EC2AEF
  gx := 0xAA87CA22BE8B05378EB1C71EF320AD746E1D3B628BA79B9859F741E082542A385502F25DBF55296C3A545E3872760AB7
  gy := 0x3617DE4A96262C6F5D9E98BF9292DC29F8F41DBD289A147CE9DA3113B5F0B8C00A60B1CE1D7E819D7A431D7C90EA0E5F
  len := 48

/-- A point; none is the point at infinity. -/
abbrev Point := Option (Nat × Nat)

/-- Coordinates below p, and the point on the curve (R364). -/
def Curve.on (c : Curve) (x y : Nat) : Bool :=
  decide (x < c.p) && decide (y < c.p) && (y * y + 3 * x) % c.p == (x * x * x + c.b) % c.p

/-- The sum of two points. -/
def Curve.add (c : Curve) : Point → Point → Point
  | none, r => r
  | l, none => l
  | some (x1, y1), some (x2, y2) =>
    if x1 = x2 ∧ (y1 + y2) % c.p = 0 then none
    else
      let m := if x1 = x2 then (3 * x1 * x1 + (c.p - 3)) * invMod (2 * y1) c.p % c.p
        else subMod y2 y1 c.p * invMod (subMod x2 x1 c.p) c.p % c.p
      let x3 := subMod (m * m) (x1 + x2) c.p
      some (x3, subMod (m * subMod x1 x3 c.p) y1 c.p)

/-- `k · P`, `n` bits of `k` from the top. -/
def Curve.mulBits (c : Curve) (k : Nat) (pt : Point) : Nat → Point → Point
  | 0, acc => acc
  | n + 1, acc =>
    let d := c.add acc acc
    c.mulBits k pt n (if k.testBit n then c.add d pt else d)

/-- `k · P`. -/
def Curve.mul (c : Curve) (k : Nat) (pt : Point) : Point := c.mulBits k pt (Nat.log2 k + 1) none

/-- The base point. -/
def Curve.base (c : Curve) : Point := some (c.gx, c.gy)

/-- `0x04 ‖ X ‖ Y` (R351). -/
def Curve.encode (c : Curve) (pt : Point) : Bytes :=
  let v := pt.getD (0, 0)
  0x04 :: (beBytes c.len v.1 ++ beBytes c.len v.2)

/-- The point of an encoding that passes the checks of R364. -/
def Curve.decode (c : Curve) (b : Bytes) : Option (Nat × Nat) :=
  let x := beNat (slice b 1 c.len)
  let y := beNat (slice b (1 + c.len) c.len)
  if byteAt b 0 = 4 ∧ c.on x y then some (x, y) else none

/-- The public key of a private scalar (R355). -/
@[irreducible] def Curve.public (c : Curve) (d : Bytes) : Bytes := c.encode (c.mul (beNat d) c.base)

/-- The shared x coordinate of a private scalar and a peer's point. -/
@[irreducible] def Curve.ecdh (c : Curve) (d peer : Bytes) : Option Bytes :=
  (c.decode peer).bind fun pt => (c.mul (beNat d) (some pt)).map fun v => beBytes c.len v.1

/-- A scalar from 1 to q - 1 (R368). -/
def Curve.scalarOk (c : Curve) (d : Bytes) : Bool := decide (1 ≤ beNat d) && decide (beNat d < c.q)

/-- The leftmost bits of a digest, as many as the order has (R352). -/
def Curve.hashNum (c : Curve) (h : Bytes) : Nat := beNat (h.take c.len)

/-- An ECDSA signature r ‖ s of a digest under a nonce from 1 to q - 1; none where r or s is zero. -/
@[irreducible] def Curve.sign (c : Curve) (d h : Bytes) (k : Nat) : Option Bytes :=
  let r := ((c.mul k c.base).getD (0, 0)).1 % c.q
  let s := invMod k c.q * (c.hashNum h + r * beNat d) % c.q
  if r = 0 ∨ s = 0 then none else some (beBytes c.len r ++ beBytes c.len s)

/-- The comparands of an ECDSA verification, x mod q and r (R366); none where the key does not decode, r or s lies
outside 1 to q - 1, or the sum is the point at infinity (R365). -/
@[irreducible] def Curve.comparands (c : Curve) (pub h sig : Bytes) : Option (Bytes × Bytes) :=
  let r := beNat (sig.take c.len)
  let s := beNat (slice sig c.len c.len)
  match c.decode pub with
  | none => none
  | some pt =>
    if r = 0 ∨ c.q ≤ r ∨ s = 0 ∨ c.q ≤ s then none
    else
      let w := invMod s c.q
      (c.add (c.mul (c.hashNum h * w % c.q) c.base) (c.mul (r * w % c.q) (some pt))).map fun v =>
        (beBytes c.len (v.1 % c.q), beBytes c.len r)

/-! Ed25519 (RFC 8032). -/

/-- The field prime. -/
def edP : Nat := 2 ^ 255 - 19
/-- The order of the base point. -/
def edL : Nat := 2 ^ 252 + 27742317777372353535851937790883648493
/-- The constant d. -/
def edD : Nat := (edP - 121665) * invMod 121666 edP % edP

/-- The sum of two points of -x² + y² = 1 + d·x²·y². -/
def edAdd (a b : Nat × Nat) : Nat × Nat :=
  let t := edD * (a.1 * b.1 % edP) % edP * (a.2 * b.2 % edP) % edP
  ((a.1 * b.2 + a.2 * b.1) % edP * invMod (1 + t) edP % edP,
   (a.2 * b.2 + a.1 * b.1) % edP * invMod (subMod 1 t edP) edP % edP)

/-- `k · P`, `n` bits of `k` from the top. -/
def edMulBits (k : Nat) (pt : Nat × Nat) : Nat → Nat × Nat → Nat × Nat
  | 0, acc => acc
  | n + 1, acc =>
    let d := edAdd acc acc
    edMulBits k pt n (if k.testBit n then edAdd d pt else d)

/-- `k · P`. -/
def edMul (k : Nat) (pt : Nat × Nat) : Nat × Nat := edMulBits k pt (Nat.log2 k + 1) (0, 1)

/-- The encoding of a point: y, with the low bit of x on top. -/
def edEncode (a : Nat × Nat) : Bytes := leBytes 32 (a.2 + a.1 % 2 * 2 ^ 255)

/-- The x of a y with a sign: none where none exists, or where x is zero and the sign is 1. -/
def edX (y sign : Nat) : Option Nat :=
  let u := subMod (y * y) 1 edP
  let x2 := u * invMod ((edD * (y * y % edP) + 1) % edP) edP % edP
  let a := powMod x2 ((edP + 3) / 8) edP
  let x := if a * a % edP = x2 then a else a * powMod 2 ((edP - 1) / 4) edP % edP
  if x * x % edP ≠ x2 then none
  else if x = 0 ∧ sign = 1 then none
  else some (if x % 2 = sign then x else edP - x)

/-- The point of an encoding whose y lies below p (R364). -/
def edDecode (b : Bytes) : Option (Nat × Nat) :=
  let v := leNat (fit 32 b)
  let y := v % 2 ^ 255
  if edP ≤ y then none else (edX y (v / 2 ^ 255)).map fun x => (x, y)

/-- The base point: y = 4/5, x even. -/
def edBase : Nat × Nat :=
  let y := 4 * invMod 5 edP % edP
  ((edX y 0).getD 0, y)

/-- A point not of small order (R364). -/
def edLarge (a : Nat × Nat) : Bool := edMul 8 a != (0, 1)

/-- The scalar and the prefix of a seed. -/
def edExpand (seed : Bytes) : Nat × Bytes :=
  let h := digest 0x03 (fit 32 seed)
  (setBits (setBits (leNat (h.take 32)) 2 0 0) 255 254 1, h.drop 32)

/-- The public key of a seed. -/
@[irreducible] def edPublic (seed : Bytes) : Bytes := edEncode (edMul (edExpand seed).1 edBase)

/-- PureEdDSA (R354): R ‖ S. -/
@[irreducible] def edSign (seed m : Bytes) : Bytes :=
  let a := edExpand seed
  let r := leNat (digest 0x03 (a.2 ++ m)) % edL
  let rb := edEncode (edMul r edBase)
  let k := leNat (digest 0x03 (rb ++ edPublic seed ++ m)) % edL
  rb ++ leBytes 32 ((r + k * a.1) % edL)

/-- A public key that the checks of R364 accept. -/
@[irreducible] def edPubOk (pub : Bytes) : Bool := ((edDecode pub).map edLarge).getD false

/-- The comparands of a verification, the encoded points [S]B and R + [k]A (R365, R366); none where S is not below L
or R does not decode. -/
@[irreducible] def edComparands (pub m sig : Bytes) : Option (Bytes × Bytes) :=
  let s := leNat (slice sig 32 32)
  match edDecode (sig.take 32), edDecode pub with
  | some r, some a =>
    if edL ≤ s then none
    else
      let k := leNat (digest 0x03 (sig.take 32 ++ fit 32 pub ++ m)) % edL
      some (edEncode (edMul s edBase), edEncode (edAdd r (edMul k a)))
  | _, _ => none

/-! RSA (RFC 8017). -/

/-- The DigestInfo of a hash code and digest (R353). -/
def digestInfo (hash : Nat) (h : Bytes) : Bytes :=
  [0x30, BitVec.ofNat 8 (17 + h.length), 0x30, 0x0D, 0x06, 0x09, 0x60, 0x86, 0x48, 0x01, 0x65, 0x03, 0x04, 0x02,
   BitVec.ofNat 8 hash, 0x05, 0x00, 0x04, BitVec.ofNat 8 h.length] ++ h

/-- The encoded message of PKCS1-v1_5 in `n` bytes. -/
def pkcsEncode (n hash : Nat) (h : Bytes) : Bytes :=
  let t := digestInfo hash h
  [0x00, 0x01] ++ List.replicate (n - 3 - t.length) 0xFF ++ [0x00] ++ t

/-- MGF1 over a hash (R353). -/
def mgf1 (hash : Nat) (seed : Bytes) (n : Nat) : Bytes :=
  ((List.range (ceilDiv n (digestLen hash))).map fun i => digest hash (seed ++ beBytes 4 i)).flatten.take n

/-- The encoded message of PSS for a modulus of `bits` bits (RFC 8017, 9.1.1). -/
def pssEncode (bits hash : Nat) (h salt : Bytes) : Bytes :=
  let em := ceilDiv (bits - 1) 8
  let hh := digest hash (zeros 8 ++ h ++ salt)
  let db := zeros (em - salt.length - hh.length - 2) ++ [0x01] ++ salt
  let masked := xorB db (mgf1 hash hh db.length)
  let top : Byte := BitVec.ofNat 8 (2 ^ (8 - (8 * em - (bits - 1))) - 1)
  ((masked.headD 0 &&& top) :: masked.drop 1) ++ hh ++ [0xBC]

/-- The salt that an encoded message carries, if it carries one of the digest's length. -/
def pssSalt (hash : Nat) (em : Bytes) : Bytes :=
  let hl := digestLen hash
  let n := em.length - hl - 1
  let hh := slice em n hl
  (xorB (em.take n) (mgf1 hash hh n)).drop (n - hl)

/-- Parts of a CRT private key of `n` bytes of modulus: p, q, dP, dQ, qInv (R172). -/
def rsaPart (n i : Nat) (mat : Bytes) : Nat := beNat (slice mat (i * (n / 2)) (n / 2))

/-- The public exponent of every key the device makes (R172). -/
def rsaE : Nat := 65537

/-- n ‖ e (R351, R355). -/
@[irreducible] def rsaPublic (n : Nat) (mat : Bytes) : Bytes :=
  beBytes n (rsaPart n 0 mat * rsaPart n 1 mat) ++ beBytes 4 rsaE

/-- The private-key checks of R368. -/
@[irreducible] def rsaMaterialOk (n : Nat) (mat : Bytes) : Bool :=
  let p := rsaPart n 0 mat
  let q := rsaPart n 1 mat
  let half := 4 * n
  decide (2 ^ (half - 1) ≤ p) && decide (2 ^ (half - 1) ≤ q) && p != q &&
    decide (2 ^ (8 * n - 1) ≤ p * q) &&
    rsaE * rsaPart n 2 mat % (p - 1) == 1 && rsaE * rsaPart n 3 mat % (q - 1) == 1 &&
    rsaPart n 4 mat * q % p == 1

/-- The private exponent modulo `m` of the device's public exponent. -/
def rsaInvE (m : Nat) : Nat := (1 + m * ((rsaE - invMod (m % rsaE) rsaE) % rsaE)) / rsaE

/-- The CRT private key of two primes, p ‖ q in `n` bytes (R172). -/
@[irreducible] def rsaComplete (n : Nat) (pq : Bytes) : Bytes :=
  let p := rsaPart n 0 pq
  let q := rsaPart n 1 pq
  fit n pq ++ beBytes (n / 2) (rsaInvE (p - 1)) ++ beBytes (n / 2) (rsaInvE (q - 1)) ++ beBytes (n / 2) (invMod q p)

/-- `x`, squared up to `k` times, comes to `n - 1`. -/
def squaresTo (n : Nat) : Nat → Nat → Bool
  | 0, x => x == n - 1
  | k + 1, x => x == n - 1 || squaresTo n k (x * x % n)

/-- One Miller-Rabin round to a base, for an odd `n` with `n - 1 = 2 ^ k · d`. -/
def millerRabin (n k d a : Nat) : Bool :=
  let x := powMod a d n
  x == 1 || squaresTo n (k - 1) x

/-- The number of times that 2 divides a number, at most `fuel`. -/
def twos (v : Nat) : Nat → Nat
  | 0 => 0
  | fuel + 1 => if v % 2 = 1 then 0 else 1 + twos (v / 2) fuel

/-- A probable prime: odd, and it passes the rounds to the first 40 primes (R368, FIPS 186-5; the number of rounds is
of log entry 51, DESIGN CHOICE). -/
@[irreducible] def probablePrime (n : Nat) : Bool :=
  let k := twos (n - 1) 4096
  n % 2 == 1 && decide (400 < n) && (primes80.take 40).all fun a => millerRabin n k ((n - 1) / 2 ^ k) a

/-- The private operation by CRT (R367): the blinding factor leaves its value as it is. -/
@[irreducible] def rsaPrivate (n : Nat) (mat : Bytes) (m : Nat) : Nat :=
  let p := rsaPart n 0 mat
  let q := rsaPart n 1 mat
  let m1 := powMod m (rsaPart n 2 mat) p
  let m2 := powMod m (rsaPart n 3 mat) q
  m2 + q * (rsaPart n 4 mat * subMod m1 m2 p % p)

/-- The encoded message that a key of modulus `m` signs. -/
def rsaEncode (n hash : Nat) (pss : Bool) (m : Nat) (h salt : Bytes) : Bytes :=
  if pss then pssEncode (Nat.log2 m + 1) hash h salt else pkcsEncode n hash h

/-- A signature of a digest (R353, R367). -/
@[irreducible] def rsaSign (n hash : Nat) (pss : Bool) (mat h salt : Bytes) : Bytes :=
  beBytes n (rsaPrivate n mat (beNat (rsaEncode n hash pss (rsaPart n 0 mat * rsaPart n 1 mat) h salt)))

/-- The public-key checks of R364. -/
def rsaPubOk (n : Nat) (pub : Bytes) : Bool :=
  let e := beNat (slice pub n 4)
  byteAt pub 0 != 0 && (byteAt pub (n - 1)).getLsbD 0 && e % 2 == 1 && decide (3 ≤ e)

/-- The comparands of a verification, the encoded messages (R366); none where s is not below n (R365). -/
@[irreducible] def rsaComparands (n hash : Nat) (pss : Bool) (pub h sig : Bytes) : Option (Bytes × Bytes) :=
  let m := beNat (pub.take n)
  let s := beNat sig
  if m ≤ s then none
  else
    let v := powMod s (beNat (slice pub n 4)) m
    let k := if pss then ceilDiv (Nat.log2 m) 8 else n
    -- an integer of more bytes than the encoded message has stands beside none
    if 256 ^ k ≤ v then none
    else
      let em := beBytes k v
      some (em, rsaEncode n hash pss m h (pssSalt hash em))

end Sys2Proof.Machine
end

