-- ==== Sys2Proof/Machine/Lattice.lean ====
section
/-!
DEFINITION. ML-KEM-768 of FIPS 203 and ML-DSA-65 of FIPS 204, which the lattice engines run (R344, R351, R354 to
R356, R200). A polynomial is the list of its 256 coefficients, numbers below the modulus. The parameters are those
of the standards (log entry 4, PRESUMED). Where a standard draws from an extendable-output function until it has
enough, the length drawn here is fixed, with far more than it takes.
-/

namespace Sys2Proof.Machine

/-- A polynomial, constant term first. -/
abbrev Poly := List Nat

/-- The low `n` bits of `v` in reverse order. -/
def bitRev (n v : Nat) : Nat := ofBits ((List.range n).map fun i => v.testBit (n - 1 - i))

/-! The number-theoretic transform over a modulus `q`. -/

/-- The transform of the block that twiddle `k` splits, `d` levels deep; `zs` holds the twiddles. -/
def nttAux (q : Nat) (zs : List Nat) : Nat → Nat → Poly → Poly
  | 0, _, f => f
  | d + 1, k, f =>
    let lo := f.take (f.length / 2)
    let hi := (f.drop (f.length / 2)).map fun x => zs.getD k 0 * x % q
    nttAux q zs d (2 * k) (List.zipWith (fun x y => (x + y) % q) lo hi) ++
      nttAux q zs d (2 * k + 1) (List.zipWith (fun x y => (x + q - y) % q) lo hi)

/-- The inverse of `nttAux`, without its factor of 2 to the number of levels; `zs` holds inverse twiddles. -/
def inttAux (q : Nat) (zs : List Nat) : Nat → Nat → Poly → Poly
  | 0, _, f => f
  | d + 1, k, f =>
    let lo := inttAux q zs d (2 * k) (f.take (f.length / 2))
    let hi := inttAux q zs d (2 * k + 1) (f.drop (f.length / 2))
    List.zipWith (fun x y => (x + y) % q) lo hi ++
      List.zipWith (fun x y => (x + q - y) * zs.getD k 0 % q) lo hi

/-- The sum of two polynomials. -/
def polyAdd (q : Nat) (a b : Poly) : Poly := List.zipWith (fun x y => (x + y) % q) a b
/-- Their difference. -/
def polySub (q : Nat) (a b : Poly) : Poly := List.zipWith (fun x y => (x + q - y) % q) a b
/-- The zero polynomial. -/
def polyZero : Poly := List.replicate 256 0

/-- Numbers of `d` bits packed, least significant bit first (ByteEncode, SimpleBitPack). -/
def packBits (d : Nat) (f : List Nat) : Bytes :=
  (chunks8 (f.flatMap fun x => (List.range d).map fun i => x.testBit i)).map fun b => BitVec.ofNat 8 (ofBits b)
where
  /-- Bits in groups of eight. -/
  chunks8 (l : List Bool) : List (List Bool) :=
    (List.range (l.length / 8)).map fun i => (l.drop (8 * i)).take 8

/-- `n` numbers of `d` bits unpacked (ByteDecode, SimpleBitUnpack). -/
def unpackBits (d n : Nat) (b : Bytes) : List Nat :=
  let v := leNat b
  (List.range n).map fun i => v / 2 ^ (d * i) % 2 ^ d

/-! ML-KEM-768. -/

/-- The modulus of ML-KEM. -/
def kq : Nat := 3329
/-- Twiddles: powers of 17 in bit-reversed order. -/
def kZetas : List Nat := (List.range 128).map fun k => powMod 17 (bitRev 7 k) kq
/-- Their inverses. -/
def kZetasInv : List Nat := kZetas.map fun z => invMod z kq
/-- The factors of the base multiplications. -/
def kGammas : List Nat := (List.range 128).map fun k => powMod 17 (2 * bitRev 7 k + 1) kq

/-- NTT. -/
def kNtt (f : Poly) : Poly := nttAux kq kZetas 7 1 f
/-- NTT⁻¹. -/
def kIntt (f : Poly) : Poly := (inttAux kq kZetasInv 7 1 f).map fun x => x * 3303 % kq

/-- Base multiplications of the pairs. -/
def kMulAux : List Nat → Poly → Poly → Poly
  | g :: gs, a0 :: a1 :: as, b0 :: b1 :: bs =>
    (a0 * b0 + a1 * b1 % kq * g) % kq :: (a0 * b1 + a1 * b0) % kq :: kMulAux gs as bs
  | _, _, _ => []
/-- The product of two transforms. -/
def kMul (a b : Poly) : Poly := kMulAux kGammas a b

/-- The inner product of two vectors of transforms. -/
def kDot (a b : List Poly) : Poly := (List.zipWith kMul a b).foldl (polyAdd kq) polyZero

/-- Candidates of SampleNTT, 12 bits each. -/
def kCandidates : Bytes → List Nat
  | a :: b :: c :: l =>
    (a.toNat + 256 * (b.toNat % 16)) :: (b.toNat / 16 + 16 * c.toNat) :: kCandidates l
  | _ => []

/-- Entry (i, j) of the matrix of a seed. -/
def kEntry (rho : Bytes) (i j : Nat) : Poly :=
  ((kCandidates (digestN 0x21 2016 (rho ++ [BitVec.ofNat 8 j, BitVec.ofNat 8 i]))).filter (· < kq)).take 256

/-- The centred binomial distribution with η = 2. -/
def kCbd (b : Bytes) : Poly :=
  (unpackBits 4 256 b).map fun v => (kq + (v % 2 + v / 2 % 2) - (v / 4 % 2 + v / 8 % 2)) % kq

/-- Three noise polynomials from counter `n` on. -/
def kNoise (seed : Bytes) (n k : Nat) : List Poly :=
  (List.range k).map fun i => kCbd (digestN 0x22 128 (seed ++ [BitVec.ofNat 8 (n + i)]))

/-- Compress. -/
def kCompress (d : Nat) (f : Poly) : List Nat := f.map fun x => (2 ^ (d + 1) * x + kq) / (2 * kq) % 2 ^ d
/-- Decompress. -/
def kDecompress (d : Nat) (f : List Nat) : Poly := f.map fun y => (2 * kq * y + 2 ^ d) / 2 ^ (d + 1)

/-- Polynomials of `n` bytes each, coefficients of `d` bits. -/
def kUnpack (d n : Nat) (b : Bytes) : List (List Nat) := (chunks n b).map (unpackBits d 256)

/-- K-PKE.KeyGen: the encryption key, and the secret in transformed form. -/
def kKeyGen (d : Bytes) : Bytes × List Poly :=
  let g := digest 0x13 (fit 32 d ++ [3])
  let rho := g.take 32
  let s := (kNoise (g.drop 32) 0 3).map kNtt
  let e := (kNoise (g.drop 32) 3 3).map kNtt
  let t := (List.range 3).map fun i => polyAdd kq (kDot ((List.range 3).map (kEntry rho i)) s) (e.getD i [])
  ((t.map (packBits 12)).flatten ++ rho, s)

/-- K-PKE.Encrypt. -/
def kEncrypt (ek m r : Bytes) : Bytes :=
  let t := (kUnpack 12 384 (ek.take 1152)).map fun f => f.map (· % kq)
  let rho := ek.drop 1152
  let y := (kNoise r 0 3).map kNtt
  let e1 := kNoise r 3 3
  let e2 := kNoise r 6 1
  let u := (List.range 3).map fun i =>
    polyAdd kq (kIntt (kDot ((List.range 3).map fun j => kEntry rho j i) y)) (e1.getD i [])
  let mu := kDecompress 1 (unpackBits 1 256 m)
  let v := polyAdd kq (polyAdd kq (kIntt (kDot t y)) (e2.getD 0 [])) mu
  (u.map fun f => packBits 10 (kCompress 10 f)).flatten ++ packBits 4 (kCompress 4 v)

/-- K-PKE.Decrypt. -/
def kDecrypt (s : List Poly) (c : Bytes) : Bytes :=
  let u := (kUnpack 10 320 (c.take 960)).map (kDecompress 10)
  let v := kDecompress 4 (unpackBits 4 256 (c.drop 960))
  packBits 1 (kCompress 1 (polySub kq v (kIntt (kDot s (u.map kNtt)))))

/-- The encapsulation key of the seeds d ‖ z (R355). -/
@[irreducible] def kemPublic (seeds : Bytes) : Bytes := (kKeyGen (seeds.take 32)).1

/-- ML-KEM.Decaps with implicit rejection (R200). -/
@[irreducible] def kemDecaps (seeds c : Bytes) : Bytes :=
  let k := kKeyGen (seeds.take 32)
  let m := kDecrypt k.2 c
  let g := digest 0x13 (m ++ digest 0x11 k.1)
  if kEncrypt k.1 m (g.drop 32) = c then g.take 32 else digestN 0x22 32 (slice seeds 32 32 ++ c)

/-! ML-DSA-65. -/

/-- The modulus of ML-DSA. -/
def dq : Nat := 8380417
/-- Twiddles: powers of 1753 in bit-reversed order. -/
def dZetas : List Nat := (List.range 256).map fun k => powMod 1753 (bitRev 8 k) dq
/-- Their inverses. -/
def dZetasInv : List Nat := dZetas.map fun z => invMod z dq
/-- γ1. -/
def dGamma1 : Nat := 2 ^ 19
/-- γ2. -/
def dGamma2 : Nat := (dq - 1) / 32
/-- β. -/
def dBeta : Nat := 196
/-- The most ones that a hint may hold, ω. -/
def dOmega : Nat := 55

/-- NTT. -/
def dNtt (f : Poly) : Poly := nttAux dq dZetas 8 1 f
/-- NTT⁻¹. -/
def dIntt (f : Poly) : Poly := (inttAux dq dZetasInv 8 1 f).map fun x => x * 8347681 % dq
/-- The product of two transforms. -/
def dMul (a b : Poly) : Poly := List.zipWith (fun x y => x * y % dq) a b
/-- The inner product of two vectors of transforms. -/
def dDot (a b : List Poly) : Poly := (List.zipWith dMul a b).foldl (polyAdd dq) polyZero

/-- Candidates of RejNTTPoly, 23 bits each. -/
def dCandidates : Bytes → List Nat
  | a :: b :: c :: l => (a.toNat + 256 * b.toNat + 65536 * (c.toNat % 128)) :: dCandidates l
  | _ => []
/-- ExpandA: the rows of the matrix. -/
def dMatrix (rho : Bytes) : List (List Poly) :=
  (List.range 6).map fun r => (List.range 5).map fun s =>
    ((dCandidates (digestN 0x21 1680 (rho ++ [BitVec.ofNat 8 s, BitVec.ofNat 8 r]))).filter (· < dq)).take 256

/-- RejBoundedPoly with η = 4. -/
def dBounded (seed : Bytes) : Poly :=
  (((digestN 0x22 1360 seed).flatMap fun b => [b.toNat % 16, b.toNat / 16]).filter (· < 9)).take 256 |>.map
    fun v => (dq + 4 - v) % dq
/-- `n` secret polynomials from number `i` on (ExpandS). -/
def dSecrets (rho : Bytes) (i n : Nat) : List Poly :=
  (List.range n).map fun r => dBounded (rho ++ leBytes 2 (i + r))

/-- The distance of a number modulo q from zero. -/
def dAbs (x : Nat) : Nat := min x (dq - x)
/-- A vector whose coefficients all stay below a bound. -/
def dSmall (bound : Nat) (v : List Poly) : Bool := v.all fun f => f.all fun x => decide (dAbs x < bound)

/-- HighBits; the low part follows from it. -/
def dHigh (r : Nat) : Nat := ((r + dGamma2 - 1) / (2 * dGamma2)) % 16
/-- LowBits modulo q. -/
def dLow (r : Nat) : Nat := (r + dq - dHigh r * (2 * dGamma2)) % dq
/-- UseHint. -/
def dUseHint (h : Bool) (r : Nat) : Nat :=
  let r1 := dHigh r
  let r0 := dLow r
  if !h then r1 else if 0 < r0 ∧ r0 ≤ dGamma2 then (r1 + 1) % 16 else (r1 + 15) % 16

/-- The high part of Power2Round. -/
def dTop (r : Nat) : Nat := (r + 2 ^ 12 - 1) / 2 ^ 13

/-- SampleInBall's exchanges: position `i`, sign bits and index bytes left. -/
def dBallAux : Nat → Nat → List Bool → List Nat → Poly → Poly
  | 0, _, _, _, c => c
  | n + 1, i, hs, js, c =>
    let js1 := js.dropWhile fun j => decide (i < j)
    let j := js1.headD 0
    let c1 := c.set i (c.getD j 0)
    dBallAux n (i + 1) (hs.drop 1) (js1.drop 1) (c1.set j (if hs.headD false then dq - 1 else 1))
/-- SampleInBall with τ = 49. -/
def dBall (ct : Bytes) : Poly :=
  let b := digestN 0x22 1360 ct
  let v := leNat (b.take 8)
  dBallAux 49 207 ((List.range 49).map fun i => v.testBit i) ((b.drop 8).map (·.toNat)) polyZero

/-- The key pair of a seed ξ. -/
structure DsaKey where
  /-- ρ. -/
  rho : Bytes
  /-- K. -/
  k : Bytes
  /-- s1. -/
  s1 : List Poly
  /-- s2. -/
  s2 : List Poly
  /-- t. -/
  t : List Poly
  /-- pk. -/
  pk : Bytes
  deriving DecidableEq, Repr

/-- ML-DSA.KeyGen_internal. -/
def dKeyGen (xi : Bytes) : DsaKey :=
  let h := digestN 0x22 128 (fit 32 xi ++ [6, 5])
  let rho := h.take 32
  let s1 := dSecrets (slice h 32 64) 0 5
  let s2 := dSecrets (slice h 32 64) 5 6
  let n := s1.map dNtt
  let t := List.zipWith (fun row e => polyAdd dq (dIntt (dDot row n)) e) (dMatrix rho) s2
  { rho := rho, k := h.drop 96, s1 := s1, s2 := s2, t := t,
    pk := rho ++ (t.map fun f => packBits 10 (f.map dTop)).flatten }

/-- The message with its context string (FIPS 204, algorithm 2). -/
def dMessage (ctx m : Bytes) : Bytes := [0, BitVec.ofNat 8 ctx.length] ++ ctx ++ m

/-- HintBitPack: the positions of the ones, then where each polynomial's end. -/
def dHintPack (h : List (List Bool)) : Bytes :=
  let pos := h.map fun f => (List.range 256).filter fun i => f.getD i false
  fit dOmega (pos.flatten.map (BitVec.ofNat 8)) ++
    (List.range 6).map fun i => BitVec.ofNat 8 (pos.take (i + 1)).flatten.length

/-- A list of positions that rises strictly. -/
def dRises : List Nat → Bool
  | a :: b :: l => decide (a < b) && dRises (b :: l)
  | _ => true

/-- HintBitUnpack; none for a hint that is not well formed (R365). -/
def dHintUnpack (b : Bytes) : Option (List (List Bool)) :=
  let ends := (slice b dOmega 6).map (·.toNat)
  let starts := 0 :: ends.dropLast
  let pos := List.zipWith (fun a e => ((b.take e).drop a).map (·.toNat)) starts ends
  if ((starts.zip ends).all fun x => decide (x.1 ≤ x.2) && decide (x.2 ≤ dOmega)) && pos.all dRises &&
      allZero ((b.take dOmega).drop (ends.getLastD 0)) then
    some (pos.map fun l => (List.range 256).map fun i => l.elem i)
  else none

/-- One turn of the signing loop, at counter `kappa`; none where it is rejected. -/
def dTurn (key : DsaKey) (a : List (List Poly)) (mu seed : Bytes) (kappa : Nat) : Option Bytes :=
  let y := (List.range 5).map fun r =>
    (unpackBits 20 256 (digestN 0x22 640 (seed ++ leBytes 2 (kappa + r)))).map fun v => (dGamma1 + dq - v) % dq
  let w := a.map fun row => dIntt (dDot row (y.map dNtt))
  let ct := digestN 0x22 48 (mu ++ (w.map fun f => packBits 4 (f.map dHigh)).flatten)
  let c := dNtt (dBall ct)
  let times := fun (f : Poly) => dIntt (dMul c (dNtt f))
  let z := List.zipWith (polyAdd dq) y (key.s1.map times)
  let r := List.zipWith (polySub dq) w (key.s2.map times)
  if !(dSmall (dGamma1 - dBeta) z && dSmall (dGamma2 - dBeta) (r.map fun f => f.map dLow)) then none
  else
    let ct0 := key.t.map fun f => times (f.map fun x => (x + dq - dTop x * 2 ^ 13 % dq) % dq)
    let h := List.zipWith (fun f g => List.zipWith (fun x e => dHigh x != dHigh ((x + e) % dq)) f g) r ct0
    if !dSmall dGamma2 ct0 || decide (dOmega < (h.flatten.filter id).length) then none
    else some (ct ++ (z.map fun f => packBits 20 (f.map fun x => (dGamma1 + dq - x) % dq)).flatten ++ dHintPack h)

/-- The signing loop: `n` turns at most. -/
def dLoop (key : DsaKey) (a : List (List Poly)) (mu seed : Bytes) : Nat → Nat → Option Bytes
  | 0, _ => none
  | n + 1, kappa => match dTurn key a mu seed kappa with
    | some b => some b
    | none => dLoop key a mu seed n (kappa + 5)

/-- The public key of a seed (R355). -/
@[irreducible] def dsaPublic (xi : Bytes) : Bytes := (dKeyGen xi).pk

/-- ML-DSA.Sign in the hedged variant (R354); the 16-bit counter leaves room for 13,107 turns. -/
@[irreducible] def dsaSign (xi ctx rnd m : Bytes) : Option Bytes :=
  let key := dKeyGen xi
  let mu := digestN 0x22 64 (digestN 0x22 64 key.pk ++ dMessage ctx m)
  dLoop key (dMatrix key.rho) mu (digestN 0x22 64 (key.k ++ fit 32 rnd ++ mu)) 13107 0

/-- The comparands of a verification, c̃ and its recomputation (R366); none for a hint that is not well formed or a
response that is too large (R365). -/
@[irreducible] def dsaComparands (pk ctx m sig : Bytes) : Option (Bytes × Bytes) :=
  let ct := sig.take 48
  let z := (chunks 640 (slice sig 48 3200)).map fun b =>
    (unpackBits 20 256 b).map fun v => (dGamma1 + dq - v) % dq
  match dHintUnpack (slice sig 3248 61) with
  | none => none
  | some h =>
    if !dSmall (dGamma1 - dBeta) z then none
    else
      let mu := digestN 0x22 64 (digestN 0x22 64 (fit 1952 pk) ++ dMessage ctx m)
      let c := dNtt (dBall ct)
      let t := (chunks 320 (slice pk 32 1920)).map fun b => (unpackBits 10 256 b).map fun v => v * 2 ^ 13 % dq
      let zn := z.map dNtt
      let w := List.zipWith (fun row f => dIntt (polySub dq (dDot row zn) (dMul c (dNtt f)))) (dMatrix (pk.take 32)) t
      let w1 := List.zipWith (fun f g => List.zipWith dUseHint f g) h w
      some (ct, digestN 0x22 48 (mu ++ (w1.map (packBits 4)).flatten))

end Sys2Proof.Machine
end

