-- ==== Sys2Proof/Machine/Crypto.lean ====
section
/-!
DEFINITION. The cipher modes, message authentication codes and key wraps of chapters 4, 5 and 6, and the random
bit generator of chapter 7, over AES and the digests.
-/

namespace Sys2Proof.Machine

/-! Counter, chaining and codebook modes. -/

/-- ECB over whole blocks (R230). -/
def ecb (enc : Bool) (key m : Bytes) : Bytes :=
  ((chunks 16 m).map fun b => if enc then aesE key b else aesD key b).flatten

/-- CBC encryption: chaining block and blocks in, last chaining block and output out (R230). -/
def cbcEnc (key : Bytes) : Bytes → List Bytes → Bytes × Bytes
  | iv, [] => (iv, [])
  | iv, b :: bs => let c := aesE key (xorB iv b); let r := cbcEnc key c bs; (r.1, c ++ r.2)

/-- CBC decryption (R230). -/
def cbcDec (key : Bytes) : Bytes → List Bytes → Bytes × Bytes
  | iv, [] => (iv, [])
  | iv, c :: cs => let p := xorB iv (aesD key c); let r := cbcDec key c cs; (r.1, p ++ r.2)

/-- A counter block whose last `width` bits have `n` added, modulo 2^width (R231). -/
def ctrAdd (blk : Bytes) (width n : Nat) : Bytes :=
  let w := width / 8
  blk.take (16 - w) ++ beBytes w ((beNat (blk.drop (16 - w)) + n) % 2 ^ width)

/-- `n` keystream bytes from byte offset `off` of the stream that starts at counter block `blk`. -/
def keystream (key blk : Bytes) (width off n : Nat) : Bytes :=
  let first := off / 16
  let last := ceilDiv (off + n) 16
  slice ((List.range (last - first)).map (fun k => aesE key (ctrAdd blk width (first + k)))).flatten
    (off % 16) n

/-- CTR transformation of bytes at offset `off` of the message (R231). -/
def ctrX (key blk : Bytes) (width off : Nat) (m : Bytes) : Bytes :=
  xorB (keystream key blk width off m.length) m

/-! GCM. -/

/-- One step of the multiplication in GF(2^128): SP 800-38D, algorithm 1. -/
def gfMulAux (x : BitVec 128) : Nat → BitVec 128 → BitVec 128 → BitVec 128
  | 0, z, _ => z
  | i + 1, z, v =>
    let z' := if x.getLsbD i then z ^^^ v else z
    let v' := if v.getLsbD 0 then (v >>> 1) ^^^ (0xE1#128 <<< 120) else v >>> 1
    gfMulAux x i z' v'

/-- Multiplication of GHASH. -/
def gfMul (x y : BitVec 128) : BitVec 128 := gfMulAux x 128 0 y

/-- GHASH over whole blocks, from an accumulator. -/
def ghash (h : BitVec 128) (acc : BitVec 128) (m : Bytes) : BitVec 128 :=
  (chunks 16 m).foldl (fun a b => gfMul (a ^^^ BitVec.ofNat 128 (beNat (fit 16 b))) h) acc

/-- The hash subkey. -/
def gcmH (key : Bytes) : BitVec 128 := BitVec.ofNat 128 (beNat (aesE key (zeros 16)))

/-- The pre-counter block of a 96-bit nonce (R233). -/
def gcmJ0 (nonce : Bytes) : Bytes := fit 12 nonce ++ [0, 0, 0, 1]

/-- The 16-byte tag of AAD and ciphertext (R233). -/
def gcmTag (key nonce aad ct : Bytes) : Bytes :=
  let s := ghash (gcmH key) 0
    (padTo 16 aad ++ padTo 16 ct ++ beBytes 8 (8 * aad.length) ++ beBytes 8 (8 * ct.length))
  xorB (aesE key (gcmJ0 nonce)) (beBytes 16 s.toNat)

/-- The payload transformation of GCM at payload offset `off`: counter from inc32(J0) (R233). -/
def gcmX (key nonce : Bytes) (off : Nat) (m : Bytes) : Bytes :=
  ctrX key (ctrAdd (gcmJ0 nonce) 32 1) 32 off m

/-! XTS (R244 to R247). -/

/-- Multiplication of a tweak by α, tweak bytes little-endian (IEEE 1619). -/
def xtsAlpha (t : Bytes) : Bytes :=
  let v := leNat t
  leBytes 16 (if v.testBit 127 then Nat.xor (2 * v % 2 ^ 128) 0x87 else 2 * v)

/-- The tweak of block `j` of the data unit of sector `i`. -/
def xtsTweak (k2 : Bytes) (i j : Nat) : Bytes :=
  (List.range j).foldl (fun t _ => xtsAlpha t) (aesE k2 (leBytes 16 i))

/-- One block under its tweak. -/
def xtsBlock (enc : Bool) (k1 t b : Bytes) : Bytes :=
  xorB t (if enc then aesE k1 (xorB t b) else aesD k1 (xorB t b))

/-- Whole blocks from block number `j`. -/
def xtsBlocks (enc : Bool) (k1 k2 : Bytes) (i : Nat) : Nat → List Bytes → Bytes
  | _, [] => []
  | j, b :: bs => xtsBlock enc k1 (xtsTweak k2 i j) b ++ xtsBlocks enc k1 k2 i (j + 1) bs

/-- The last full block `j` and the partial block that follows it, by ciphertext stealing (R246). -/
def xtsSteal (enc : Bool) (k1 k2 : Bytes) (i j : Nat) (full part : Bytes) : Bytes :=
  let ta := xtsTweak k2 i (if enc then j else j + 1)
  let tb := xtsTweak k2 i (if enc then j + 1 else j)
  let cc := xtsBlock enc k1 ta full
  xtsBlock enc k1 tb (part ++ cc.drop part.length) ++ cc.take part.length

/-- Bytes of one data unit from block `j` on: `fin` tells that they reach the unit's end. -/
def xtsRun (enc : Bool) (k1 k2 : Bytes) (i j : Nat) (fin : Bool) (m : Bytes) : Bytes :=
  let r := m.length % 16
  if fin && r != 0 && 16 ≤ m.length then
    let n := m.length / 16 - 1
    xtsBlocks enc k1 k2 i j (chunks 16 (m.take (16 * n))) ++
      xtsSteal enc k1 k2 i (j + n) (slice m (16 * n) 16) (m.drop (16 * n + 16))
  else xtsBlocks enc k1 k2 i j (chunks 16 (m.take (16 * (m.length / 16))))

/-! CMAC (R248, SP 800-38B). -/

/-- Doubling in GF(2^128), big-endian. -/
def cmacDbl (b : Bytes) : Bytes :=
  let v := beNat b
  beBytes 16 (if v.testBit 127 then Nat.xor (2 * v % 2 ^ 128) 0x87 else 2 * v)

/-- The 16-byte CMAC of a message. -/
def cmac (key m : Bytes) : Bytes :=
  let k1 := cmacDbl (aesE key (zeros 16))
  let n := if m.isEmpty then 1 else ceilDiv m.length 16
  let head := m.take (16 * (n - 1))
  let last := m.drop (16 * (n - 1))
  let fin := if last.length = 16 then xorB last k1
    else xorB (fit 16 (last ++ [0x80])) (cmacDbl k1)
  aesE key (xorB fin ((chunks 16 head).foldl (fun a b => aesE key (xorB a b)) (zeros 16)))

/-! KW and KWP (R249, SP 800-38F). -/

/-- One wrapping step `t` over the semiblocks `A ‖ R2 … Rn`. -/
def kwStep (key : Bytes) (s : List Bytes) (t : Nat) : List Bytes :=
  match s with
  | a :: r :: rest =>
    let b := aesE key (a ++ r)
    xorB (b.take 8) (beBytes 8 t) :: (rest ++ [b.drop 8])
  | s => s

/-- One unwrapping step `t`. -/
def kwUnstep (key : Bytes) (s : List Bytes) (t : Nat) : List Bytes :=
  match s with
  | a :: rest =>
    let r := rest.getLastD []
    let b := aesD key (xorB a (beBytes 8 t) ++ r)
    b.take 8 :: b.drop 8 :: rest.dropLast
  | s => s

/-- The wrapping function W. -/
def kwW (key s : Bytes) : Bytes :=
  let l := chunks 8 s
  ((List.range (6 * (l.length - 1))).foldl (fun a t => kwStep key a (t + 1)) l).flatten

/-- Its inverse. -/
def kwWinv (key c : Bytes) : Bytes :=
  let l := chunks 8 c
  let n := 6 * (l.length - 1)
  ((List.range n).foldl (fun a t => kwUnstep key a (n - t)) l).flatten

/-- The default initial value of KW. -/
def kwIcv : Bytes := List.replicate 8 0xA6

/-- KW wrap. -/
def kwWrap (key p : Bytes) : Bytes := kwW key (kwIcv ++ p)
/-- KW unwrap: none when the integrity check fails (R250). -/
def kwUnwrap (key c : Bytes) : Option Bytes :=
  let s := kwWinv key c
  if s.take 8 = kwIcv then some (s.drop 8) else none

/-- KWP wrap. -/
def kwpWrap (key p : Bytes) : Bytes :=
  let s := [0xA6, 0x59, 0x59, 0xA6] ++ beBytes 4 p.length ++ padTo 8 p
  if p.length ≤ 8 then aesE key s else kwW key s

/-- KWP unwrap: none when the integrity check fails (R250). -/
def kwpUnwrap (key c : Bytes) : Option Bytes :=
  let s := if c.length = 16 then aesD key c else kwWinv key c
  let n := beNat (slice s 4 4)
  let p := s.drop 8
  if s.take 4 = [0xA6, 0x59, 0x59, 0xA6] ∧ n ≤ p.length ∧ p.length < n + 8 ∧ 0 < n ∧
      allZero (p.drop n) then some (p.take n) else none

/-! CTR_DRBG with AES-256, without a derivation function (R381, SP 800-90A): the state is Key and V. -/

/-- `n` output blocks and the V they leave. -/
def drbgBlocks (key : Bytes) : Nat → Bytes → Bytes × Bytes
  | 0, v => ([], v)
  | n + 1, v =>
    let v1 := ctrAdd (fit 16 v) 128 1
    let r := drbgBlocks key n v1
    (aesE key v1 ++ r.1, r.2)

/-- The update function with 48 bytes of provided data. -/
def drbgUpdate (data : Bytes) (kv : Bytes × Bytes) : Bytes × Bytes :=
  let x := xorB (drbgBlocks kv.1 3 kv.2).1 (fit 48 data)
  (x.take 32, x.drop 32)

/-- Instantiation with a pool block and a personalization string (R382). -/
@[irreducible] def drbgSeed (block perso : Bytes) : Bytes × Bytes :=
  drbgUpdate (xorB (fit 48 block) (fit 48 perso)) (zeros 32, zeros 16)

/-- A reseed with a pool block (R383). -/
@[irreducible] def drbgReseed (block : Bytes) (kv : Bytes × Bytes) : Bytes × Bytes := drbgUpdate block kv

/-- A generate request of `n` bytes (R386). -/
@[irreducible] def drbgGenerate (n : Nat) (kv : Bytes × Bytes) : Bytes × Bytes × Bytes :=
  let r := drbgBlocks kv.1 (ceilDiv n 16) kv.2
  (r.1.take n, drbgUpdate (zeros 48) (kv.1, r.2))

/-! The two-path comparison of R312. -/

/-- The verdict word of two byte strings: the first path gives the high byte, the second, on the
complements, the low byte. -/
def verdictWord (a b : Bytes) : BitVec 16 :=
  let hi : Byte := if a = b then 0x3C else 0xC3
  let lo : Byte := if a.map (~~~ ·) = b.map (~~~ ·) then 0xC3 else 0x3C
  hi ++ lo

end Sys2Proof.Machine
end

