-- ==== Sys2Proof/Machine/Flags.lean ====
section
/-!
DEFINITION. Status codes, completion entries, detail records: every flag and status word a completion
carries (R113 to R116, R145).
-/

namespace Sys2Proof.Machine

/-- The code byte of a status (R145). -/
def Status.code : Status → Byte
  | .done => 0x00 | .descMalformed => 0x01 | .descOpcode => 0x02 | .dmaFault => 0x03
  | .ringStopped => 0x04 | .aborted => 0x05 | .functionDisabled => 0x06
  | .lengthMismatch => 0x10 | .lengthLimit => 0x11 | .tagFail => 0x12 | .keySpent => 0x13
  | .modeKeyClash => 0x14 | .counterWrap => 0x15
  | .digestEarly => 0x20 | .contextBusy => 0x21 | .contextFree => 0x22 | .compareMismatch => 0x23
  | .hallmarkLocked => 0x24 | .contextLimit => 0x25
  | .recordMalformed => 0x30 | .replay => 0x31 | .stale => 0x32 | .endpointUnknown => 0x33
  | .endpointRevoked => 0x34 | .notArmed => 0x35 | .vaultIntegrity => 0x36 | .stagingFull => 0x37
  | .strandClosed => 0x38
  | .signetInput => 0x40 | .signatureBad => 0x41 | .entropyFail => 0x42
  | .appletFault => 0x50 | .appletBudget => 0x51 | .appletAbsent => 0x52
  | .slotEmpty => 0x60 | .notPermitted => 0x61 | .slotErased => 0x62 | .slotLimit => 0x63
  | .deviceHalted => 0x70 | .facetFenced => 0x71 | .bringup => 0x72 | .nvmRecalling => 0x73
  | .alarmScrub => 0x74 | .standbyTakeover => 0x75
  | .cardAbsent => 0x80 | .cardGone => 0x81 | .cardProtected => 0x82 | .cardError => 0x83
  | .bundleInvalid => 0x84 | .quorumShort => 0x85
  | .nvmProtected => 0x90 | .nvmWorn => 0x91 | .nvmTorn => 0x92

/-- `FLAGS` bits of a descriptor (R103). -/
def Desc.unordered (d : Desc) : Bool := d.flags.getLsbD 0
/-- `IRQ_NOW`. -/
def Desc.irqNow (d : Desc) : Bool := d.flags.getLsbD 1
/-- `MORE`. -/
def Desc.more (d : Desc) : Bool := d.flags.getLsbD 2
/-- `CONT`. -/
def Desc.cont (d : Desc) : Bool := d.flags.getLsbD 3

/-- Little-endian field of `n` bytes at descriptor offset `o` (16 and above: the body). -/
def Desc.fld (d : Desc) (o n : Nat) : Nat := leField d.body (o - 16) n
/-- Descriptor bytes from offset `o`. -/
def Desc.bytes (d : Desc) (o n : Nat) : Bytes := slice d.body (o - 16) n

/-- The 16-byte detail record (R116). -/
def detailRecord (d : Desc) (b : Bad) : Bytes :=
  leBytes 2 d.opcode.toNat ++ [BitVec.ofNat 8 b.step, 0] ++
    leBytes 4 (b.sg.getD 0xFFFFFFFF) ++ leBytes 8 (b.off.getD 0xFFFFFFFFFFFFFFFF)

/-- A completion without a detail record: `DONE`, or a status whose chapter gives a result layout. -/
def cplOf (d : Desc) (st : Status) (done : Nat) (result : Bytes) : Cpl :=
  { tag := d.tag, status := st, unordered := d.unordered, irqNow := d.irqNow, detail := false,
    bytesDone := done, result := fit 16 result }

/-- A completion with a detail record (R116). -/
def cplBad (d : Desc) (b : Bad) (done : Nat) : Cpl :=
  { tag := d.tag, status := b.status, unordered := d.unordered, irqNow := d.irqNow, detail := true,
    bytesDone := done, result := detailRecord d b }

/-- The `PHASE` of completion number `k` on rings of `n` entries (R114). -/
def phaseOf (k n : Nat) : Bool := k / n % 2 == 0

/-- The 32 bytes of completion number `k` (R113, R114). -/
def cplBytes (ring k n : Nat) (c : Cpl) : Bytes :=
  leBytes 4 c.tag.toNat ++
    [c.status.code, BitVec.ofNat 8 (ofBits [phaseOf k n, c.unordered, c.detail])] ++
    leBytes 2 ring ++ leBytes 8 c.bytesDone ++ fit 16 c.result

end Sys2Proof.Machine
end

