-- ==== Sys2Proof/Machine/State.lean ====
section
/-!
DEFINITION. The state of the block, its reset value, and the two kinds of stop.
-/

namespace Sys2Proof.Machine

/-- No rule of the manual stops the block with an error it does not carry on from, so there is no
fault: every failure of a command is a status, a register or an alarm of the next state. -/
inductive Fault
deriving DecidableEq, Repr

/-- Why a command has no meaning. -/
inductive Refusal
  /-- Raised by `exec` alone, for a command whose meaning is not written yet; safe, since no next
  state is claimed for it. -/
  | notModelled (mnemonic : String)
deriving DecidableEq, Repr

/-- Every register, buffer, queue, counter, mode and pin the manual gives the device, and the queue of
waiting commands. -/
structure State where
  /-- commands that wait, first in first out -/
  pending : List Instr := []
  /-- counter behind the free values: the model's own field, not the manual's (log entry 3, DESIGN CHOICE) -/
  free : Nat := 0
  /-- `mref` cycles since the start of the model (R24, R633) -/
  tick : Nat := 0
  hostMem : Mem := []
  rings : Tab Ring := []
  fns : Tab Fn := []
  hif : Hif := {}
  link : Link := {}
  keys : Keys := {}
  facets : Tab Facet := []
  hallmarks : Tab Hallmark := []
  /-- pending marks (R328), and the number of the next one -/
  marks : List Mark := []
  nextMark : Nat := 0
  extends_ : List ExtendReq := []
  signet : Signet := {}
  vault : Vault := {}
  vlt : VltRegs := {}
  pip : Pip := {}
  streams : Tab Stream := []
  strands : List Strand := []
  applets : Applets := {}
  crowns : Crowns := {}
  tamper : Tamper := {}
  battery : Battery := {}
  life : Life := {}
  nvm : Nvm := {}
  cards : Cards := {}
  start : Start := {}
  snp : Snp := {}
  viol : Viol := {}
  fctRegs : Tab FctRegs := []
  clus : Tab Clu := []
  glb : Glb := {}
  out : Outputs := {}
deriving DecidableEq, Repr

/-- The device in stage S1 of a whole start after its first power, every volatile register at the value
the manual gives for reset or, where it gives none, the one a log entry names. -/
def State.reset : State := {}

end Sys2Proof.Machine
end

