-- ==== Sys2Proof/Machine/Ops.lean ====
section
/-!
DEFINITION. The named operations on the state that every family shares: tables and counters, free
values, host memory, completions and interrupts, stopping a ring.
-/

namespace Sys2Proof.Machine

/-! Tables with their defaults. -/

/-- Ring `r`. -/
def State.ring (s : State) (r : Nat) : Ring := tget {} s.rings r
/-- Ring `r` replaced. -/
def State.setRing (s : State) (r : Nat) (v : Ring) : State := { s with rings := tset {} s.rings r v }
/-- Ring `r` changed. -/
def State.modRing (s : State) (r : Nat) (f : Ring → Ring) : State := s.setRing r (f (s.ring r))

/-- A function at reset: `CLASS_CAP` 3 for the PF, 1 for a VF (R156). -/
def fnReset (f : Nat) : Fn := if f = 0 then { classCap := 3 } else {}
/-- Function `f`. -/
def State.fn (s : State) (f : Nat) : Fn := tget (fnReset f) s.fns f
/-- Function `f` replaced. -/
def State.setFn (s : State) (f : Nat) (v : Fn) : State := { s with fns := tset (fnReset f) s.fns f v }
/-- Function `f` changed. -/
def State.modFn (s : State) (f : Nat) (g : Fn → Fn) : State := s.setFn f (g (s.fn f))

/-- Facet `f`. -/
def State.facet (s : State) (f : Nat) : Facet := tget {} s.facets f
/-- Facet `f` replaced. -/
def State.setFacet (s : State) (f : Nat) (v : Facet) : State :=
  { s with facets := tset {} s.facets f v }
/-- Facet `f` changed. -/
def State.modFacet (s : State) (f : Nat) (g : Facet → Facet) : State := s.setFacet f (g (s.facet f))

/-- Entries of every tile's key-schedule cache that `which` selects, dropped (R873). -/
def State.dropSched (s : State) (which : SchedKey → Bool) : State :=
  (List.range 16).foldl (fun a f =>
    a.modFacet f fun x => { x with tiles := x.tiles.map fun c => c.filter fun k => !which k }) s

/-- Key slot `i`. -/
def State.slot (s : State) (i : Nat) : KeySlot := tget {} s.keys.slots i
/-- Key slot `i` replaced. -/
def State.setSlot (s : State) (i : Nat) (k : KeySlot) : State :=
  { s with keys := { s.keys with slots := tset {} s.keys.slots i k } }
/-- Key slot `i` changed. -/
def State.modSlot (s : State) (i : Nat) (f : KeySlot → KeySlot) : State := s.setSlot i (f (s.slot i))

/-- A hallmark at a whole start (R331); registers 56 to 63 never written have `RESET_OK` 0 (R337). -/
def hallmarkReset (i : Nat) : Hallmark := if 56 ≤ i then { resetOk := false } else {}
/-- Hallmark `i`. -/
def State.hallmark (s : State) (i : Nat) : Hallmark := tget (hallmarkReset i) s.hallmarks i
/-- Hallmark `i` replaced. -/
def State.setHallmark (s : State) (i : Nat) (h : Hallmark) : State :=
  { s with hallmarks := tset (hallmarkReset i) s.hallmarks i h }

/-- The function a ring belongs to (R56). -/
def fnOf (r : Nat) : Nat := r / 16

/-! Snapshot counters (R783, R784): unit × 2,048 + index. -/

/-- `n` added to counter `k` of unit `u`, modulo 2^64. -/
def State.bump (s : State) (u k n : Nat) : State :=
  { s with snp := { s.snp with counters := tmod 0 s.snp.counters (u * 2048 + k) (· + BitVec.ofNat 64 n) } }

/-! Free values. -/

/-- `n` fresh free bytes: they are whatever the manual leaves them (log entry 3, DESIGN CHOICE). -/
def State.freshBytes (s : State) (n : Nat) : Bytes × State :=
  (leBytes n (Config.freeBits s.free (8 * n)).toNat, { s with free := s.free + 1 })

/-! Host memory. -/

/-- The first failing part of a read of `n` bytes at `a`: addresses end at 2^64. -/
def readFault (env : Env) (a n : Nat) : Option DmaErr :=
  if n = 0 then none
  else if 2 ^ 64 < a + n then some .unsupported
  else (env.faults.find? fun f => decide (f.lo ≤ a + n - 1) && decide (a ≤ f.hi)).map (·.kind)

/-- The first byte that a failing read of `n` bytes at `a` cannot return. -/
def faultAt (env : Env) (a n : Nat) : Nat :=
  if 2 ^ 64 < a + n then max a (2 ^ 64)
  else match env.faults.find? fun f => decide (f.lo ≤ a + n - 1) && decide (a ≤ f.hi) with
    | some f => max a f.lo
    | none => a

/-- A host read of `n` bytes. -/
def State.hostFetch (s : State) (env : Env) (a n : Nat) : Except DmaErr Bytes :=
  match readFault env a n with
  | some e => .error e
  | none => .ok (s.hostMem.readN a n)

/-- Bytes written to host memory; addresses from 2^64 on do not exist. -/
def memWrite (m : Mem) (a : Nat) (b : Bytes) : Mem := m.writeN a (b.take (2 ^ 64 - a))

/-- A write of the device to host memory. -/
def State.hostWrite (s : State) (a : Nat) (b : Bytes) : State :=
  { s with hostMem := memWrite s.hostMem a b }

/-- What a disturbed line of a GDDR6 interface holds: an entry's bytes, four tags, an L0 node (R410). -/
def flawsOf (iface idx : Nat) : List VFlaw :=
  let off := idx * 64
  if off < 0x04000000 then [.entry (off / 256 * 4 + iface)]
  else if off < 0x04400000 then (List.range 4).map fun q => .entry (((off - 0x04000000) / 16 + q) * 4 + iface)
  else if off < 0x04600000 then [.node ((off - 0x04400000) / 64 * 4 + iface)]
  else []

/-- The function exists on the link (R55); in STUCK mode only the PF does (R63). -/
def State.fnExists (s : State) (f : Nat) : Bool := f == 0 || (Nat.ble f s.link.numVfs && !s.start.stuck)

/-- A write of the host to configuration space (R49, R50, R55, R61, R63). While a request gets Request Retry Status
none takes effect (R59), nor does one to a function that is not there; values outside R49 are not taken. -/
def State.cfgWrite (s : State) (w : CfgWrite) : State :=
  let l := s.link
  let set := fun (c : PcieCfg) => ({ s with link := { l with cfg := c } } : State)
  let aer := fun (a : Aer) => ({ s with link := { l with aer := a } } : State)
  if !l.ready then s else match w with
  | .numVfs n => if s.start.stuck then s else { s with link := { l with numVfs := n.val } }
  | .relaxedOrdering f on => if s.fnExists f then s.modFn f fun x => { x with relaxed := on } else s
  | .maxPayload b => if b = 128 ∨ b = 256 ∨ b = 512 then set { l.cfg with maxPayload := b } else s
  | .maxReadRequest b =>
    if b = 128 ∨ b = 256 ∨ b = 512 ∨ b = 1024 ∨ b = 2048 ∨ b = 4096 then set { l.cfg with maxReadRequest := b } else s
  | .aspmL1 on => set { l.cfg with aspmL1 := on }
  | .ecrc g c => set { l.cfg with ecrcGen := g, ecrcCheck := c }
  | .readiness on => set { l.cfg with readiness := on }
  | .aerStatus clear => aer { l.aer with status := l.aer.status &&& ~~~clear }
  | .aerMask m => aer { l.aer with mask := m }
  | .aerSeverity m => aer { l.aer with severity := m }

/-- What comes from outside with a command: the host's configuration writes and stores, disturbed words of the
vault's memories. -/
def State.hostStores (s0 : State) (env : Env) : State :=
  let s := env.config.foldl State.cfgWrite s0
  { s with
    hostMem := env.stores.foldl (fun m c => memWrite m c.1 [c.2]) s.hostMem
    vault := { s.vault with
      flaws := (env.lines.map fun l => flawsOf (l.1 % 4) l.2).flatten ++ s.vault.flaws
      pip := env.checks.foldl (fun t c =>
        if (tget {} t c.1).known then tmod {} t c.1 fun p => { p with checkErr := p.checkErr ^^^ c.2 } else t) s.vault.pip } }

/-! Interrupts (R117 to R119). -/

/-- One MSI-X message of function `f`, vector `v`: held pending while masked or in D3hot (R58, R119). -/
def State.sendMsix (s : State) (f v : Nat) : State :=
  if (s.fn f).msixMask.getLsbD v || (s.fn f).d3hot then
    s.modFn f fun x => { x with msixPend := x.msixPend ||| BitVec.ofNat 64 (2 ^ v) }
  else
    { (s.bump 0 (1024 + 4 * f + 2) 1) with
      hif := { s.hif with msix := (f, v) :: s.hif.msix, msixAttr := {} } }

/-- An interrupt trigger of ring `r` (R118). -/
def State.trigger (s : State) (r : Nat) : State :=
  let x := s.ring r
  let s1 := s.setRing r { x with since := 0, timing := false }
  if x.irqEn then s1.sendMsix (fnOf r) x.vector.toNat else s1

/-! Completions (R113 to R115, R123). -/

/-- Entries of a ring: 2^SIZE_LOG2, values outside 6 to 16 taken as 6 (R149). -/
def Ring.size (x : Ring) : Nat :=
  2 ^ (if 6 ≤ x.sizeLog2.toNat ∧ x.sizeLog2.toNat ≤ 16 then x.sizeLog2.toNat else 6)

/-- One completion written: the entry, W, and moderation (R87, R115, R118). -/
def State.writeCpl (s : State) (r : Nat) (c : Cpl) : State :=
  let x := s.ring r
  let k := x.w.toNat
  let s1 := s.hostWrite (x.cqBase.toNat + 32 * (k % x.size)) (cplBytes r k x.size c)
  let x1 := { x with w := x.w + 1, since := x.since + 1, timing := x.timing || x.coalTime != 0 }
  -- R50, R51: a completion write is never relaxed and never sets No Snoop
  let s2 := ({ s1.setRing r x1 with hif := { s1.hif with cplAttr := {} } } : State).bump 0 (2 * r + 1) 1
  if decide (max 1 x.coalCount.toNat ≤ x1.since) || c.status != .done || c.irqNow then s2.trigger r
  else s2

/-- The works whose completions can be written now, and those that stay: an ordered one waits for every
earlier one (R123). -/
def ripe : Bool → List Work → List Cpl × List Work
  | _, [] => ([], [])
  | blocked, w :: ws =>
    match w.phase with
    | .fin c =>
      if blocked && !c.unordered then
        let t := ripe true ws
        (t.1, w :: t.2)
      else
        let t := ripe blocked ws
        (c :: t.1, t.2)
    | _ =>
      let t := ripe true ws
      (t.1, w :: t.2)

/-- A ring in `STOPPING` becomes `STOPPED` once its last work is finished and written (R140). -/
def State.settle (s : State) (r : Nat) : State :=
  let x := s.ring r
  if x.st = .stopping ∧ x.work = [] ∧ x.reads = [] ∧ s.hif.held.all (·.1 != r) then
    s.setRing r { x with st := .stopped }
  else s

/-- The completions that are due on a ring, written, or held while its function is in D3hot (R58). -/
def State.flush (s : State) (r : Nat) : State :=
  let t := ripe false (s.ring r).work
  let s1 := s.modRing r fun x => { x with work := t.2 }
  let s2 := if (s.fn (fnOf r)).d3hot then
      { s1 with hif := { s1.hif with held := s1.hif.held ++ t.1.map fun c => (r, c) } }
    else t.1.foldl (fun a c => a.writeCpl r c) s1
  s2.settle r

/-- The work of a ring with fetch number `seq`. -/
def Ring.find (x : Ring) (seq : Nat) : Option Work := x.work.find? fun w => w.seq == seq

/-- A work's phase replaced. -/
def Ring.setPhase (x : Ring) (seq : Nat) (p : WPhase) : Ring :=
  { x with work := x.work.map fun w => if w.seq = seq then { w with phase := p } else w }

/-- The 16 rings of a function. -/
def ringsOf (f : Nat) : List Nat := (List.range 16).map (16 * f + ·)

/-- A well-formed `FENCE` (R126, R130). -/
def Desc.isFence (d : Desc) : Bool :=
  d.opcode == Op.fence.code && d.declLen == 0 && d.flags.toNat / 4 == 0 &&
    d.fld 16 1 ≤ 1 && allZero (d.bytes 17 47)
/-- Its `SCOPE`. -/
def Desc.fenceScope (d : Desc) : Bool := bitOf (d.fld 16 1) 0

/-- Every completion that a `FENCE` waits for has been written (R127, R128). -/
def State.fenceDone (s : State) (r : Nat) (w : Work) : Bool :=
  (if w.desc.fenceScope then ringsOf (fnOf r) else [r]).all fun q =>
    (s.ring q).work.all (fun v => decide (w.seq ≤ v.seq)) && s.hif.held.all (·.1 != q)

/-- The first dispatched `FENCE` of a function whose wait is over. -/
def State.dueFence (s : State) (f : Nat) : Option (Nat × Work) :=
  (ringsOf f).findSome? fun r =>
    ((s.ring r).work.find? fun w => w.phase == .active && w.desc.isFence && s.fenceDone r w).map (r, ·)

/-- Fences whose wait is over complete with `DONE` (R127 to R129); `n` bounds their number. -/
def State.fences (s : State) (f : Nat) : Nat → State
  | 0 => s
  | n + 1 =>
    match s.dueFence f with
    | none => s
    | some (r, w) =>
      ((s.modRing r fun x => x.setPhase w.seq (.fin (cplOf w.desc .done 0 []))).flush r).fences f n

/-- The number of fetched descriptors of a function. -/
def State.workCount (s : State) (f : Nat) : Nat :=
  (ringsOf f).foldl (fun a r => a + (s.ring r).work.length) 0

/-- Completions due on a ring, and the fences they release. -/
def State.drain (s : State) (r : Nat) : State :=
  (s.flush r).fences (fnOf r) (s.workCount (fnOf r))

/-- A failed host read, kept in `HIF.DMA_ERR` (R826) and reported by AER (R49; log entry 56, PRESUMED). -/
def State.noteDma (s : State) (r : Nat) (tag : Word32) (dma : Option (Nat × DmaErr × Nat)) : State :=
  match dma with
  | none => s
  | some (a, e, kind) =>
    let c := match e with
      | .unsupported => 1 | .abort => 2 | .poisoned => 3 | .timeout => 4
    -- Poisoned TLP Received, Completion Timeout
    let bit : BitVec 32 := match e with
      | .poisoned => 0x1000 | .timeout => 0x4000 | _ => 0
    { s with
      hif := { s.hif with dmaErr := (⟨a, kind, c, r, tag⟩ :: s.hif.dmaErr).take 4 }
      link := { s.link with aer := { s.link.aer with status := s.link.aer.status ||| bit } } }

/-- A descriptor finished: its completion takes its place (R113, R123). A work that a link event or a
function-level reset has dropped receives none (R64, R780). -/
def State.finish (s : State) (r seq : Nat) (c : Cpl) : State :=
  match (s.ring r).find seq with
  | none => s
  | some _ => (s.modRing r fun x => x.setPhase seq (.fin c)).drain r

/-- A descriptor completed with `DONE`. -/
def State.finishDone (s : State) (r seq : Nat) (d : Desc) (done : Nat) (result : Bytes) : State :=
  s.finish r seq (cplOf d .done done result)

/-- A descriptor completed with a failure and its detail record. -/
def State.finishBad (s : State) (r seq : Nat) (d : Desc) (b : Bad) (done : Nat := 0) : State :=
  (s.noteDma r d.tag b.dma).finish r seq (cplBad d b done)

/-- The descriptor of a work, when it is still there. -/
def State.descOf (s : State) (r seq : Nat) : Option Desc := ((s.ring r).find seq).map (·.desc)

/-- A failure of a work known by ring and fetch number. -/
def State.failWork (s : State) (r seq : Nat) (b : Bad) (done : Nat := 0) : State :=
  match s.descOf r seq with
  | none => s
  | some d => s.finishBad r seq d b done

/-- Success of a work known by ring and fetch number. -/
def State.doneWork (s : State) (r seq : Nat) (done : Nat) (result : Bytes) : State :=
  match s.descOf r seq with
  | none => s
  | some d => s.finishDone r seq d done result

/-! Stopping a ring (R139, R140). -/

/-- Every fetched and not dispatched descriptor completed with a status of step 0 (R116, R140). -/
def Ring.refuseFetched (x : Ring) (st : Status) : Ring :=
  { x with work := x.work.map fun w =>
      if w.phase = .fetched then { w with phase := .fin (cplBad w.desc { status := st, step := 0 } 0) }
      else w }

/-- A `CONT` descriptor is refused before dispatch: the chain that it continues ends after the descriptors dispatched
before it (R133). -/
def State.cutChain (s : State) (r : Nat) (d : Desc) : State :=
  if d.opcode.toNat / 256 ≠ 2 ∨ !d.cont then s
  else match tget .free (s.ring r).chains (d.fld 22 1) with
    | .opened f =>
      let mark := fun (m : Msg) => if m.ring = r ∧ m.chain = some (d.fld 22 1) then { m with cut := true } else m
      s.modFacet f fun x => { x with msgs := x.msgs.map mark }
    | _ => s

/-- The fetched descriptors of a ring refused, and the chains that they continue cut. -/
def State.refuseFetched (s : State) (r : Nat) (st : Status) : State :=
  (((s.ring r).work.filter fun w => w.phase == .fetched).foldl (fun (a : State) w => a.cutChain r w.desc) s).modRing r
    fun x => x.refuseFetched st

/-- A `RUNNING` ring put into `STOPPING` with its cause. -/
def State.stopRing (s : State) (r cause : Nat) (st : Status := .ringStopped) : State :=
  if (s.ring r).st = .running then
    ((s.refuseFetched r st).modRing r fun x => { x with st := .stopping, cause := BitVec.ofNat 4 cause }).drain r
  else s

/-! Register violations (R806, R808). -/

/-- One violation of kind `k` (1 to 4) by function `f`. -/
def State.violation (s : State) (k f : Nat) (wr : Bool) (addr : Nat) : State :=
  let sat := fun n => min (n + 1) (2 ^ 32 - 1)
  let v := s.viol
  let v1 := { v with total := sat v.total, kind := k, fn := f, write := wr,
                     addr := BitVec.ofNat 32 addr,
                     kinds := v.kinds.set (k - 1) (sat (v.kinds.getD (k - 1) 0)),
                     byFn := tset 0 v.byFn f (sat (tget 0 v.byFn f)) }
  { s with viol := v1 }.bump 0 (1024 + 4 * f + 3) 1

/-! Stage and rung. -/

/-- The rung is HALT or above. -/
def State.halted (s : State) : Bool := decide (3 ≤ s.tamper.rung)
/-- STUCK mode. -/
def State.isStuck (s : State) : Bool := s.start.stuck
/-- The life-cycle state in force. -/
def State.lcs (s : State) : Lcs := s.life.current

/-- The real-time clock: its value at the last change of its source, and `mref` cycles of 250 MHz since
(R24, R658; log entry 7, DEDUCED). -/
def State.rtc (s : State) : Nat := (s.battery.rtc + s.tick * 32768 / 250000000) % 2 ^ 64

/-- The debug grant in force: one with a `DURATION` ends when that has passed, in real-time-clock ticks (R677). -/
def State.grantNow (s : State) : Option Grant :=
  s.life.grant.filter fun g => g.duration == 0 || decide ((s.rtc + (2 ^ 64 - g.started)) % 2 ^ 64 < g.duration * 32768)

/-- `ID_HASH`: the first 16 bytes of SHA-384 of the device identity public key; where the part holds no identity key the
manual gives no value for the field (R538, R684; log entry 41). -/
def State.idHashBytes (s : State) : Bytes := fit 16 (s.life.idHash.getD (leBytes 16 Config.noIdHash.toNat))

end Sys2Proof.Machine
end

