-- ==== Sys2Proof/Machine/Operands.lean ====
section
/-!
DEFINITION. The operand forms of a descriptor: buffer references, scatter-gather lists, the streams of bytes
read from and written to them.
-/

namespace Sys2Proof.Machine

/-! Buffer references and scatter-gather lists (R106 to R109). -/

/-- A buffer reference or scatter-gather entry (R106). -/
structure BufRef where
  addr : Nat
  len : Nat
  flags : Nat
deriving DecidableEq, Repr

/-- The reference in 16 bytes. -/
def bufRef (b : Bytes) : BufRef := ⟨leField b 0 8, leField b 8 4, leField b 12 4⟩

/-- Reference at offset `o` of a descriptor. -/
def Desc.ref (d : Desc) (o : Nat) : BufRef := bufRef (d.bytes o 16)

/-- All 16 bytes are zero. -/
def BufRef.isZero (r : BufRef) : Bool := r.addr == 0 && r.len == 0 && r.flags == 0
/-- `SGL` is 1. -/
def BufRef.sgl (r : BufRef) : Bool := bitOf r.flags 0

/-- A list is aligned to 16 bytes and its length a non-zero multiple of 16 (R107). -/
def listOk (addr len : Nat) : Bool := addr % 16 == 0 && len != 0 && len % 16 == 0

/-- The rules on a reference that step 5 checks (R107). -/
def BufRef.ok (r : BufRef) : Bool :=
  r.flags ≤ 1 && (if r.sgl then listOk r.addr r.len else r.len != 0)

/-- The reference of an input of `n` bytes: absent only where `n` is 0 (R107, R110). -/
def BufRef.okFor (r : BufRef) (n : Nat) : Bool := r.ok || (n == 0 && r.isZero)

/-- The walk of a list: entries left of the limit of R109, address and entries of the current list,
number of the next entry, buffers found so far. -/
def sgWalk (s : State) (env : Env) : Nat → Nat → Nat → Nat → List Ext → Except Bad (List Ext)
  | _, _, 0, _, acc => .ok acc.reverse
  | 0, _, _ + 1, i, _ => .error { status := .descMalformed, step := 6, sg := some i }
  | fuel + 1, a, k + 1, i, acc =>
    match s.hostFetch env a 16 with
    | .error e => .error { status := .dmaFault, step := 6, sg := some i, dma := some (a, e, 3) }
    | .ok b =>
      let r := bufRef b
      if bitOf r.flags 0 || r.flags / 4 != 0 then
        .error { status := .descMalformed, step := 6, sg := some i }
      else if bitOf r.flags 1 then
        if k != 0 || !listOk r.addr r.len then
          .error { status := .descMalformed, step := 6, sg := some i }
        else sgWalk s env fuel r.addr (r.len / 16) (i + 1) acc
      else if r.len = 0 then .error { status := .descMalformed, step := 6, sg := some i }
      else sgWalk s env fuel (a + 16) k (i + 1) (⟨r.addr, r.len, some i⟩ :: acc)

/-- The data buffers of a reference; a reference of zeros has none. -/
def State.walkRef (s : State) (env : Env) (r : BufRef) : Except Bad (List Ext) :=
  if r.isZero then .ok []
  else if r.sgl then sgWalk s env 65536 r.addr (r.len / 16) 0 []
  else .ok [⟨r.addr, r.len, none⟩]

/-- Total length of data buffers. -/
def extsLen (e : List Ext) : Nat := (e.map (·.len)).foldl (· + ·) 0

/-- Steps 6 and 7 of an opcode without references: its input has no bytes, so `DECLARED_LENGTH` is 0 (R110). -/
def noRead (d : Desc) : Except Bad (List Ext × List Ext × Bytes) :=
  if d.declLen = 0 then .ok ([], [], []) else .error { status := .lengthMismatch, step := 7 }

/-- `n` bytes of a stream of buffers from offset `off`; `pos` is the place of the buffer in the stream. -/
def State.gather (s : State) (env : Env) : List Ext → (pos off n : Nat) → Except Bad Bytes
  | [], _, _, _ => .ok []
  | e :: es, pos, off, n =>
    if pos + e.len ≤ off || n = 0 then s.gather env es (pos + e.len) off n
    else
      let k := min n (pos + e.len - off)
      let a := e.addr + (off - pos)
      match s.hostFetch env a k with
      | .error er => .error { status := .dmaFault, step := 8, sg := e.sg, off := some (off + (faultAt env a k - a)),
                              dma := some (a, er, 4) }
      | .ok b =>
        match s.gather env es (pos + e.len) (off + k) (n - k) with
        | .ok c => .ok (b ++ c)
        | .error x => .error x

/-- All input bytes of a list of buffers. -/
def State.readAll (s : State) (env : Env) (ins : List Ext) : Except Bad Bytes :=
  s.gather env ins 0 0 (extsLen ins)

/-- Bytes written to a stream of buffers from offset `off`. -/
def scatter : List Ext → Nat → Bytes → Mem → Mem
  | [], _, _, m => m
  | e :: es, off, b, m =>
    if e.len ≤ off then scatter es (off - e.len) b m
    else scatter es 0 (b.drop (e.len - off)) (memWrite m (e.addr + off) (b.take (e.len - off)))

/-- Attributes of the data writes of function `f`: relaxed only where the function allows it, never No Snoop (R50,
R51). -/
def State.dataAttr (s : State) (f : Nat) : TlpAttr := { relaxed := (s.fn f).relaxed }

/-- Output of the device for a descriptor of ring `r`. -/
def State.writeOut (s : State) (r : Nat) (outs : List Ext) (off : Nat) (b : Bytes) : State :=
  { s with hostMem := scatter outs off b s.hostMem, hif := { s.hif with dataAttr := s.dataAttr (fnOf r) } }

/-- Some byte lies in both lists. -/
def extsMeet (a b : List Ext) : Bool :=
  a.any fun x => b.any fun y => decide (x.addr < y.addr + y.len) && decide (y.addr < x.addr + x.len)

/-- The byte ranges of a stream without its first `n` bytes. -/
def extsDrop : Nat → List Ext → List Ext
  | _, [] => []
  | n, e :: es => if e.len ≤ n then extsDrop (n - e.len) es
    else ⟨e.addr + n, e.len - n, e.sg⟩ :: es

/-- The byte ranges of the first `n` bytes of a stream. -/
def extsTake : Nat → List Ext → List Ext
  | _, [] => []
  | n, e :: es => if e.len < n then e :: extsTake (n - e.len) es else if n = 0 then [] else [⟨e.addr, n, e.sg⟩]

/-- Every byte of stream `a` is the byte of the same place of stream `b`, however the two are cut into buffers;
`fuel` bounds the pieces compared. -/
def extsCoverAux : Nat → List Ext → List Ext → Bool
  | _, [], _ => true
  | 0, _ :: _, _ => false
  | _ + 1, _ :: _, [] => false
  | fuel + 1, x :: xs, y :: ys =>
    let n := min x.len y.len
    x.addr == y.addr &&
      extsCoverAux fuel (if x.len ≤ n then xs else ⟨x.addr + n, x.len - n, x.sg⟩ :: xs)
        (if y.len ≤ n then ys else ⟨y.addr + n, y.len - n, y.sg⟩ :: ys)

/-- Stream `b` starts with the bytes of stream `a`. -/
def extsCover (a b : List Ext) : Bool := extsCoverAux (a.length + b.length) a b

/-- Output of `b`: where its buffers meet the input's other than by a coincidence that the operation allows
(`inPlace`), the contents are undefined, so free bytes are written (R112). -/
def State.emit (s : State) (r : Nat) (inPlace : Bool) (ins outs : List Ext) (off : Nat) (b : Bytes) : State :=
  if extsMeet ins outs && !inPlace then
    let x := s.freshBytes b.length
    x.2.writeOut r outs off x.1
  else s.writeOut r outs off b

end Sys2Proof.Machine
end

