-- ==== Sys2Proof/Machine/KeyOps.lean ====
section
/-!
DEFINITION. Handles, key slots, usage charging and pending hallmark marks (R161 to R187, R327, R328).
-/

namespace Sys2Proof.Machine

/-! Handles (R161, R162). -/

/-- Class of a handle. -/
def handleClass (h : Nat) : Nat := h / 2 ^ 28
/-- Index of a handle. -/
def handleIndex (h : Nat) : Nat := h % 2 ^ 20
/-- Number of indices of a class; 0 for a class not in the table. -/
def classCount (c : Nat) : Nat :=
  if c = 1 then 4096 else if c = 2 then 64 else if c = 3 then 1048576 else if c = 4 then 1
  else if c = 5 then 1 else 0
/-- A handle of class `c` with its reserved field zero and its index in range. -/
def handleOk (c h : Nat) : Bool :=
  handleClass h == c && h / 2 ^ 20 % 256 == 0 && decide (handleIndex h < classCount c)
/-- The handle of a volatile slot. -/
def slotHandle (i : Nat) : Nat := 0x10000000 + i

/-! Types and attributes (R172, R173). -/

/-- Material bytes of a type; for type 0x05 the length is given (R172). 0 for an unassigned code. -/
def matLen (type given : Nat) : Nat :=
  match type with
  | 0x01 => 16 | 0x02 => 32 | 0x03 => 32 | 0x04 => 64 | 0x05 => given | 0x10 => 32 | 0x11 => 48
  | 0x12 => 32 | 0x18 => 640 | 0x19 => 960 | 0x20 => 32 | 0x21 => 64 | _ => 0
/-- Slots a type occupies (R172). -/
def slotRun (type : Nat) : Nat := if type = 0x18 then 6 else if type = 0x19 then 8 else 1
/-- AES types. -/
def isAes (type : Nat) : Bool := decide (0x01 ≤ type) && decide (type ≤ 0x04)
/-- Private keys that sign. -/
def isSigner (type : Nat) : Bool :=
  type == 0x10 || type == 0x11 || type == 0x12 || type == 0x18 || type == 0x19 || type == 0x20
/-- A type code of the table, with its `MAT_LEN` in range: 16 to 64 for type 0x05, else zero. -/
def typeOk (type given : Nat) : Bool :=
  if type = 0x05 then decide (16 ≤ given) && decide (given ≤ 64) else matLen type 0 != 0 && given == 0

/-- Attribute bit `n` (R173). -/
def hasAttr (k : KeySlot) (n : Nat) : Bool := k.attr.getLsbD n

/-- The attribute rules of R174. -/
def attrOk (type attr invLimit : Nat) : Bool :=
  let b := fun n => bitOf attr n
  !((b 4 || b 5) && (b 0 || b 1 || b 2 || b 8 || b 10)) &&
  !((b 4 || b 5 || b 7 || b 8 || b 10) && !isAes type) &&
  !(b 2 && !(isAes type || type == 0x05)) && !(b 3 && !isSigner type) && !(b 6 && type != 0x21) &&
  !(b 8 && !b 0) && decide (invLimit ≤ 2 ^ 32)

/-! Slots (R175 to R181). -/

/-- Checks of R177 up to the owner. -/
def slotReach (k : KeySlot) (f : Nat) : Option Status :=
  match k.st with
  | .erased => some .slotErased
  | .empty | .extension => some .slotEmpty
  | _ => if k.owner.getLsbD f then none else some .notPermitted

/-- Checks of R177 for a new message: `suits` says that type and attributes allow the use. -/
def slotCheck (k : KeySlot) (f : Nat) (suits : Bool) : Option Status :=
  match slotReach k f with
  | some e => some e
  | none => if !suits then some .modeKeyClash else if k.st = .spent then some .keySpent else none

/-- The material of a key, from its head and extension slots (R172). -/
def State.material (s : State) (i : Nat) : Bytes :=
  let k := s.slot i
  k.material ++ ((List.range k.extCount).map fun j => (s.slot (i + 1 + j)).material).flatten

/-- The invocation limit in force: 0 means 2^32 (R171). -/
def KeySlot.invCap (k : KeySlot) : Nat := if k.invLimit = 0 then 2 ^ 32 else k.invLimit

/-- A charge of `inv` invocations and `blocks` blocks may start (R180). -/
def KeySlot.mayCharge (k : KeySlot) (inv blocks : Nat) : Bool :=
  (k.st == .loaded || k.st == .spent) && decide (k.blockCount + blocks ≤ k.blockLimit) &&
    (inv == 0 || k.st != .spent)

/-- The slot after the charge (R181). -/
def KeySlot.charge (k : KeySlot) (inv blocks : Nat) : KeySlot :=
  let bc := k.blockCount + blocks
  let ic := k.invCount + inv
  { k with blockCount := bc, invCount := ic % 2 ^ 32,
           st := if k.st = .loaded ∧ ((inv ≠ 0 ∧ ic = k.invCap) ∨ bc = k.blockLimit) then .spent
                 else k.st }

/-- The slot with a charge taken back, of a request that has drawn nothing after all (R385). -/
def KeySlot.uncharge (k : KeySlot) (inv blocks : Nat) : KeySlot :=
  if k.st = .loaded ∨ k.st = .spent then
    { k with blockCount := k.blockCount - blocks, invCount := (k.invCount + 2 ^ 32 - inv) % 2 ^ 32, st := .loaded }
  else k

/-- Every slot of a list may be charged `inv` invocations and `blocks` blocks. -/
def State.mayCharge (s : State) (slots : List Nat) (inv blocks : Nat) : Bool :=
  slots.all fun i => (s.slot i).mayCharge inv blocks

/-- The charge of every slot of a list (R179). -/
def State.chargeAll (s : State) (slots : List Nat) (inv blocks : Nat) : State :=
  slots.foldl (fun a i => a.modSlot i fun k => k.charge inv blocks) s

/-- One more message uses slot `i` (R178). -/
def State.reserve (s : State) (i : Nat) : State :=
  s.modSlot i fun k => { k with reservedBy := k.reservedBy + 1 }
/-- One message fewer uses slot `i`. -/
def State.unreserve (s : State) (i : Nat) : State :=
  s.modSlot i fun k => { k with reservedBy := k.reservedBy - 1 }

/-- A head slot erased: `TYPE` and `EXT_COUNT` stay (R204). -/
def KeySlot.erase (k : KeySlot) : KeySlot :=
  match k.st with
  | .loaded | .spent => { type := k.type, extCount := k.extCount, st := .erased }
  | .extension => { st := .erased }
  | _ => k

/-- Head and extension slots erased (R203). -/
def State.eraseRun (s : State) (i : Nat) : State :=
  (List.range (1 + (s.slot i).extCount)).foldl (fun a j => a.modSlot (i + j) (·.erase)) s

/-- Every slot erased, by SCRUB or PURGE (R175). -/
def Keys.eraseAll (k : Keys) : Keys :=
  { k with slots := k.slots.map fun e => (e.1, e.2.erase) }

/-- The first run of `n` `EMPTY` slots (R176). -/
def State.freeRun (s : State) (n : Nat) : Option Nat :=
  (List.range (4097 - n)).find? fun i => (List.range n).all fun j => (s.slot (i + j)).st == .empty

/-! Hallmark marks and permissions (R327, R328). -/

/-- A pending mark taken. -/
def State.mark (s : State) (h seq : Nat) : State :=
  { s with marks := s.marks ++ [⟨h, seq, s.nextMark⟩], nextMark := s.nextMark + 1 }
/-- One pending mark cleared. -/
def State.unmark (s : State) (n : Nat) : State := { s with marks := s.marks.filter fun m => m.n != n }
/-- The number of the first mark that a descriptor holds on a register: that of its own extend. -/
def State.markOf (s : State) (h seq : Nat) : Nat :=
  ((s.marks.find? fun m => m.hm == h && m.seq == seq).map (·.n)).getD s.nextMark

/-- The settings that a waiting `HM_LOCK`, `HM_RESET` or `HM_SETUP` will leave: an extend checked after
its arrival sees them (R328). -/
def State.hallmarkSeen (s : State) (h : Nat) : Hallmark :=
  let x := s.hallmark h
  match s.crowns.journal with
  | some j =>
    if j.wait = .hold ∧ j.hold.any (·.hm == h) then
      if j.opcode = Op.hmLock.code then { x with locked := true }
      else if j.opcode = Op.hmSetup.code then
        match (s.descOf j.ring j.seq).orElse fun _ => j.kept.map (·.1) with
        | some d => { x with owner := BitVec.ofNat 32 (d.fld 28 4) }
        | none => x
      else x
    else x
  | none => x

/-- The check of an extend on behalf of function `f` (R327): `admin` for `HM_EXTEND` on ring 0. -/
def State.extendCheck (s : State) (h f : Nat) (admin : Bool) : Option Status :=
  let x := s.hallmarkSeen h
  if !x.owner.getLsbD f then some .notPermitted
  else if decide (56 ≤ h) && !admin then some .notPermitted
  else if x.locked || x.torn then some .hallmarkLocked
  else none

end Sys2Proof.Machine
end

