-- ==== Sys2Proof/Machine/MsgOps.lean ====
section
/-!
DEFINITION. Messages of the facets: finding one, changing one, and ending one with everything it holds
given back (R132, R178, R253, R260, R289, R526).
-/

namespace Sys2Proof.Machine

/-- Message `id` of facet `f`. -/
def State.msg (s : State) (f id : Nat) : Option Msg := (s.facet f).msgs.find? fun m => m.id == id

/-- Message `id` of facet `f` changed. -/
def State.modMsg (s : State) (f id : Nat) (g : Msg → Msg) : State :=
  s.modFacet f fun x => { x with msgs := x.msgs.map fun m => if m.id = id then g m else m }

/-- The key slots a message reserves (R178): its cipher key, the HMAC key of a one-shot digest, or the
archive key of a capture. Contexts opened by `DIG_OPEN` reserve theirs themselves. -/
def msgSlots (m : Msg) : List Nat :=
  match m.kind with
  | .cipher c => [handleIndex c.key.toNat]
  | .digest _ => []
  | .capture c => [handleIndex c.archive.toNat]

/-- The digest context `i` of facet `f`. -/
def State.dig (s : State) (f i : Nat) : Option DigCtx := tget none (s.facet f).digs i
/-- The digest context replaced. -/
def State.setDig (s : State) (f i : Nat) (v : Option DigCtx) : State :=
  s.modFacet f fun x => { x with digs := tset none x.digs i v }

/-- A context no longer held by a ring, unless a later descriptor of it is queued (R294). -/
def State.unholdCtx (s : State) (f i : Nat) : State :=
  match s.dig f i with
  | none => s
  | some c =>
    if (s.facet f).queue.any (fun q => q.ctx == some i) || (s.facet f).msgs.any (fun m => m.kind == .digest i) then s
    else s.setDig f i (some { c with heldBy := none })

/-- A digest context freed, and its key reservation returned while it is `OPEN` (R288, R301). -/
def State.freeDig (s : State) (f i : Nat) : State :=
  match s.dig f i with
  | none => s
  | some c =>
    let s1 := if c.key ≠ 0 ∧ c.st = .opened then s.unreserve (handleIndex c.key.toNat) else s
    s1.setDig f i none

/-- A pearl place of a stream returned (R526, R534). -/
def State.returnPlace (s : State) (stream : Nat) : State :=
  { s with streams := tmod {} s.streams stream fun x => { x with places := x.places - 1 } }

/-- The pearl of a record that ends after it was placed is taken back (R526). One with others behind it, or in a strand
that is closing or has closed, stays: the manual gives no form for a gap (log entry 58, DESIGN CHOICE). -/
def State.unplace (s : State) (stream : Nat) (p : Nat × Word32 × Bytes) : State :=
  let same := fun (x : Strand) => x.stream == stream && x.id == p.2.1
  match s.strands.find? same with
  | none => s
  | some x =>
    if x.st ≠ .opened ∨ x.closeDue ≠ 0 ∨ x.pearls.length ≠ p.1 + 1 then s
    else if p.1 = 0 then
      { s with
        strands := s.strands.filter fun y => !same y
        streams := tmod {} s.streams stream fun y => { y with counter := if y.counter = x.id then y.counter - 1 else y.counter } }
    else { s with strands := s.strands.map fun y => if same y then { y with pearls := y.pearls.dropLast } else y }

/-- The applet slot that a capture holds, given back (R586). -/
def State.unhold (s : State) (slot : Option Nat) : State :=
  match slot with
  | none => s
  | some i => { s with applets := { s.applets with
      slots := tmod {} s.applets.slots i fun a => { a with holds := a.holds - 1 } } }

/-- A move engine cleared after an invocation (R567); `DONE` counts it (R590). -/
def Engine.stop (x : Engine) : Engine :=
  { done := x.done + 1, faults := x.faults, budgets := x.budgets, restarts := x.restarts }

/-- An ended invocation counted (R590, R784). -/
def State.countInvocation (s : State) (i : Invocation) : State :=
  let a := s.applets
  let hook := match i.kind with
    | .hook _ _ => true
    | .invoke _ _ => false
  ({ s with applets := { a with
    slots := tmod {} a.slots i.slot fun x => { x with runs := x.runs + 1 },
    hooks := if hook then a.hooks + 1 else a.hooks,
    invokes := if hook then a.invokes else a.invokes + 1 } } : State).bump 24 7 1

/-- Invocations that run: one past its accepting `ret` only waits for its extends, and ends well. -/
def runningInvs (a : Applets) : List Invocation :=
  a.engines.filterMap fun (e : Nat × Engine) => if e.2.rets.isNone then e.2.inv else none

/-- Invocations that `which` selects, waiting or running, taken away with what they deferred; those that ran
are counted. -/
def State.cutInvocations (s : State) (which : Invocation → Bool) : State :=
  let a := s.applets
  let run := (runningInvs a).filter which
  let s1 : State := { s with applets := { a with
    waiting := a.waiting.filter fun i => !which i
    engines := a.engines.map fun (e : Nat × Engine) =>
      if e.2.rets.isNone && (e.2.inv.map which).getD false then (e.1, e.2.stop) else e } }
  let gone := a.engines.flatMap fun (e : Nat × Engine) =>
    if e.2.rets.isNone && (e.2.inv.map which).getD false then e.2.extends_ else []
  let s2 := gone.foldl (fun (x : State) d => x.unmark d.n) s1
  run.foldl (fun x i => x.countInvocation i) s2

/-- What a message holds beside its context, given back: key reservations, the digest context of a
one-shot digest or of a discarded run, the pearl place, the applet slot, its hook, and the pending
marks of its descriptor. -/
def State.giveBack (s : State) (f : Nat) (m : Msg) : State :=
  let s1 := (msgSlots m).foldl (fun a i => a.unreserve i) s
  let s2 := { s1 with marks := s1.marks.filter fun x => x.seq != m.seq,
                      extends_ := s1.extends_.filter fun x => x.src != .msg f m.id }
  match m.kind with
  | .cipher _ => s2
  | .digest i => s2.freeDig f i
  | .capture c =>
    let s3 := (match c.placed with
      | some p => s2.unplace c.stream p
      | none => s2.returnPlace c.stream).unhold c.hookSlot
    let s4 := s3.cutInvocations fun i => i.kind == InvKind.hook f m.id
    { s4 with extends_ := s4.extends_.filter fun x =>
        x.src != .capture f m.id true && x.src != .capture f m.id false }

/-- The message removed from its facet. -/
def State.dropMsg (s : State) (f id : Nat) : State :=
  s.modFacet f fun x => { x with msgs := x.msgs.filter fun m => m.id != id }

/-- The input bytes a chain has taken. -/
def msgTaken (m : Msg) : Nat :=
  match m.kind with
  | .cipher c => c.consumed
  | _ => 0

/-- The state of a chain. -/
def State.setChain (s : State) (r : Nat) (id : Option Nat) (c : ChainSt) : State :=
  match id with
  | none => s
  | some i => s.modRing r fun x => { x with chains := tset .free x.chains i c }

/-- Group of a status in `FCT.END_CNT` (R828). -/
def endGroup (st : Status) : Nat :=
  if st = .done then 0
  else match st.code.toNat / 16 with
    | 0 => 1 | 1 => 2 | 2 => 3 | 3 => 4 | 5 => 5 | 7 => 6 | _ => 7

/-- Facet registers of ended descriptors: their group, and the last failure (R828). -/
def State.noteEnd (s : State) (f : Nat) (d : Desc) (r : Nat) (st : Status) : State :=
  let g := endGroup st
  { s with fctRegs := tmod {} s.fctRegs f fun x =>
      let y := { x with endCnt := x.endCnt.set g (min (x.endCnt.getD g 0 + 1) (2 ^ 32 - 1)) }
      if st = .done then y
      else { y with errStatus := st.code, errRing := r, errOp := d.opcode, errTag := d.tag } }

/-- `noteEnd` of a work known by ring and fetch number. -/
def State.noteEndOf (s : State) (f r seq : Nat) (st : Status) : State :=
  match s.descOf r seq with
  | some d => s.noteEnd f d r st
  | none => s

/-- A descriptor takes its place in the queue of facet `f`, or fills the place that it took when it was dispatched
with what its reads have brought (R262, R294). -/
def State.enqueue (s : State) (f : Nat) (q : Queued) : State :=
  let same := fun (e : Queued) => e.ring == q.ring && e.seq == q.seq
  let put := fun (l : List Queued) => if l.any same then l.map fun e => if same e then q else e else l ++ [q]
  s.modFacet f fun x => { x with queue := put x.queue }

/-- It leaves whatever queue it is in. -/
def State.unqueue (s : State) (r seq : Nat) : State :=
  (List.range 16).foldl (fun (a : State) f => a.modFacet f fun x =>
    { x with queue := x.queue.filter fun q => !(q.ring == r && q.seq == seq) }) s

/-- The descriptors queued on facet `f`, completed with a status as refused (R262, R295, R318). -/
def State.failQueue (s : State) (f : Nat) (which : Queued → Bool) (st : Status) : State :=
  let q := (s.facet f).queue.filter which
  let s1 := s.modFacet f fun x => { x with queue := x.queue.filter fun e => !which e }
  q.foldl (fun a e => (a.noteEndOf f e.ring e.seq st).failWork e.ring e.seq { status := st, step := 8 }) s1

/-- A message ended other than by success: everything it holds given back, its chain `ENDED` (R254,
R260), its current descriptor, if any, completed with the failure; descriptors queued behind a digest
context that is freed so are `ABORTED` (R318). -/
def State.endMsg (s : State) (f : Nat) (m : Msg) (b : Bad) : State :=
  let s1 := ((s.giveBack f m).dropMsg f m.id).setChain m.ring m.chain (.ended (msgTaken m))
  let s2 := s1.bump (1 + f) 2 1
  if m.st = .await then s2
  else
    let s4 := (s2.noteEndOf f m.ring m.seq b.status).failWork m.ring m.seq b m.pos
    match m.kind with
    | .digest i => s4.failQueue f (fun q => q.ctx == some i) .aborted
    | _ => s4

/-- A message dropped without completion (R64, R780): usage stays charged. -/
def State.vanishMsg (s : State) (f : Nat) (m : Msg) : State :=
  ((s.giveBack f m).dropMsg f m.id).setChain m.ring m.chain (.ended (msgTaken m))

/-- Every message of facet `f` that `which` selects, ended with a status. -/
def State.endMsgs (s : State) (f : Nat) (which : Msg → Bool) (st : Status) : State :=
  ((s.facet f).msgs.filter which).foldl (fun a m => a.endMsg f m { status := st, step := 8 }) s

/-- Every digest context of facet `f` that `which` selects, freed (R289). -/
def State.freeDigs (s : State) (f : Nat) (which : DigCtx → Bool) : State :=
  ((s.facet f).digs.filterMap fun e =>
    match e.2 with
    | some c => if which c then some e.1 else none
    | none => none).foldl (fun a i => a.freeDig f i) s

/-- Work of a facet ended by a fence or a reset (R273, R296, R639, R779): messages in progress with
`FACET_FENCED`, what is queued behind them with `ABORTED`. -/
def State.clearFacet (s : State) (f : Nat) : State :=
  ((s.endMsgs f (fun _ => true) .facetFenced).failQueue f (fun _ => true) .aborted).freeDigs f
    fun _ => true

end Sys2Proof.Machine
end

