-- ==== Sys2Proof/Machine/Alarm.lean ====
section
/-!
DEFINITION. Monitors, debounce, alarms, the ladder and what each rung does (R625 to R657, R34, R349,
R405, R545, R588).
-/

namespace Sys2Proof.Machine

/-- The admin families (R134). -/
def adminFamily (n : Nat) : Bool := n == 8 || Nat.ble 10 n

/-! Monitor settings (R641, R660). -/

/-- Default settings of monitor `m` (R641). -/
def monCfgReset (m : Nat) : MonCfg :=
  let c := fun rung n wunit wval => (⟨true, rung, wunit, wval, n⟩ : MonCfg)
  match m with
  | 0 => c 4 2 1 1 | 1 => c 5 2 1 1 | 2 => c 5 2 1 1
  | 3 => c 4 2 1 1 | 4 => c 4 2 1 1 | 5 => c 4 2 1 1 | 6 => c 4 2 1 1
  | 7 => c 5 1 0 1 | 8 => c 4 2 1 1 | 9 => c 3 3 0 100 | 10 => c 3 1 0 1 | 11 => c 4 1 0 1
  | 12 => c 3 1 0 1 | 13 => c 4 1 0 1 | 14 => c 3 4 1 1000 | 15 => c 0 1 0 1 | 16 => c 3 4 1 1000
  | 17 => c 0 1 0 1 | 18 => c 3 1 0 1 | 19 => c 0 1 0 1 | 20 => c 0 1 0 1 | 21 => c 0 2 2 1000
  | _ => c 0 1 0 1

/-- Monitor `m` at a whole start; the battery domain's copies follow its settings (R652). -/
def monReset (m : Nat) : Monitor :=
  let c := monCfgReset m
  { cfg := c, cellN := c.n, cellHigh := decide (4 ≤ c.rung) }

/-- Monitor `m`. -/
def State.mon (s : State) (m : Nat) : Monitor := tget (monReset m) s.tamper.mons m
/-- Monitor `m` replaced. -/
def State.setMon (s : State) (m : Nat) (v : Monitor) : State :=
  { s with tamper := { s.tamper with mons := tset (monReset m) s.tamper.mons m v } }

/-- W in `mref` cycles: units of 1 µs, 1 ms, 16 ms at 250 MHz (R24, R633, R660). -/
def MonCfg.window (c : MonCfg) : Nat :=
  c.wval * (if c.wunit = 0 then 250 else if c.wunit = 1 then 250000 else 4000000)

/-- The monitors of the keeper die that run in stage S1 (R649). -/
def keeperMonitor (m detail : Nat) : Bool :=
  decide (1 ≤ m ∧ m ≤ 7) || (m == 9 && detail == 11) || m == 21

/-- The monitor runs in the present stage (R649): in S0 the sampler alone takes its place. -/
def State.monRuns (s : State) (m detail : Nat) : Bool :=
  decide (m < 22) && (decide (2 ≤ s.start.stage) || (s.start.stage == 1 && keeperMonitor m detail))

/-! The tamper log (R656, R657). -/

/-- The place of the oldest entry below SCRUB. -/
def oldestLow : List LogEntry → Option Nat
  | [] => none
  | e :: es => if e.rung < 4 then some 0 else (oldestLow es).map (· + 1)

/-- A new entry: in a free place, or in place of the oldest entry below SCRUB, or, for SCRUB and PURGE,
of the oldest; otherwise it is lost (R657). Entries stand oldest first. -/
def Battery.logPut (b : Battery) (e : LogEntry) : Battery :=
  let put := fun l => { b with log := l ++ [{ e with seq := b.logSeq }], logSeq := (b.logSeq + 1) % 65536 }
  let lost := fun (x : Battery) => { x with logLost := min 255 (x.logLost + 1) }
  if b.log.length < 16 then put b.log
  else match oldestLow b.log with
    | some i => lost (put (b.log.eraseIdx i))
    | none => if 4 ≤ e.rung then lost (put (b.log.drop 1)) else lost b

/-- Facets and ports that a FENCE alarm of a monitor fences (R638): none is no scope. -/
inductive Scope | facets (first : Nat) | sd | cc
deriving DecidableEq, Repr

/-- The fence scope of an alarm (R638). -/
def fenceScope (m detail : Nat) : Option Scope :=
  if m = 9 ∧ detail < 8 then some (.facets (4 * (detail / 2)))
  else if m = 12 ∨ m = 13 then
    if detail < 4 then some (.facets (4 * detail))
    else if detail = 13 then some .sd else if detail = 14 then some .cc else none
  else none

/-! Alarms as they are decided (R634, R638, R656). -/

/-- An alarm decided: monitor, detail, value for the log, rung. -/
structure Alarm where
  m : Nat
  detail : Byte
  value : Word32
  rung : Nat
deriving DecidableEq, Repr

/-- The rung an alarm takes: FENCE without a scope takes HALT (R638). -/
def Alarm.taken (a : Alarm) : Nat :=
  if a.rung = 2 ∧ fenceScope a.m a.detail.toNat = none then 3 else a.rung

/-- The highest rung of a group. -/
def groupRung (l : List Alarm) : Nat := l.foldl (fun x a => max x a.taken) 0

/-- `VALUE` of its log entry: monitors 9 to 13 alone have one (R656). -/
def Alarm.logged (a : Alarm) : Word32 := if 9 ≤ a.m ∧ a.m ≤ 13 then a.value else 0

/-- One alarm latched and logged; `dev` is the rung that the whole group leaves. -/
def State.latchAlarm (s : State) (dev : Nat) (a : Alarm) : State :=
  let x := s.mon a.m
  let s1 := if x.latched then s
    else s.setMon a.m { x with latched := true, rungTaken := a.taken, detail := a.detail }
  { s1 with
    tamper := { s1.tamper with latch := s1.tamper.latch ||| BitVec.ofNat 32 (2 ^ a.m) },
    battery := s1.battery.logPut
      { time := s1.rtc % 2 ^ 48, monitor := a.m, rung := a.taken, cell := false, detail := a.detail,
        deviceRung := dev, seq := 0, value := a.logged } }

/-- One event counted by its monitor; the alarm it completes, if any (R633). In S1 a monitor of rung
SCRUB or PURGE takes PURGE and a lower one NOTE (R649, R651). -/
def State.event (s : State) (m : Nat) (detail : Byte) (value : Word32) (rung : Option Nat) :
    State × Option Alarm :=
  if !s.monRuns m detail.toNat then (s, none)
  else
    let x := s.mon m
    let times := (s.tick :: x.times).take 255
    let s1 := (s.setMon m { x with count := min (x.count + 1) (2 ^ 32 - 1), times := times }).bump 26 m 1
    let rd := tset none s1.tamper.tempRd detail.toNat (some (value.setWidth 16))
    let s2 := if m = 9 then { s1 with tamper := { s1.tamper with tempRd := rd } } else s1
    let fires := match times[x.cfg.n - 1]? with
      | some t => x.cfg.en && decide (s.tick ≤ t + x.cfg.window)
      | none => false
    let r := rung.getD x.cfg.rung
    let r' := if s.start.stage = 1 then (if 4 ≤ r then 5 else 0) else r
    if fires then (s2, some ⟨m, detail, value, r'⟩) else (s2, none)

/-! The active crown and its clasps (R594 to R601, R611). -/

/-- The active crown. -/
def State.activeCrown (s : State) : Crown := if s.crowns.activeB then s.crowns.b else s.crowns.a
/-- The other crown. -/
def State.otherCrown (s : State) : Crown := if s.crowns.activeB then s.crowns.a else s.crowns.b
/-- The highest `CLAIM_HI` of the four clasps. -/
def State.claimHi (s : State) : Nat := (s.crowns.clasps.map fun c => c.claimHi.toNat).foldl max 0
/-- Claims are exhausted (R601). -/
def State.exhausted (s : State) : Bool := s.claimHi == 65535
/-- A takeover is possible now: the standby is `STANDBY`, or already `TAKING`, has a claim of its own (R600), and claims
are left. -/
def State.takeOk (s : State) : Bool :=
  (s.otherCrown.st == .standby || s.otherCrown.st == .taking) && s.otherCrown.claim != 0 && !s.exhausted

/-! Clasps (R597, R598). -/

/-- Clasp `k`. -/
def State.clasp (s : State) (k : Nat) : Clasp := s.crowns.clasps.getD k {}
/-- Clasp `k` replaced. -/
def State.setClasp (s : State) (k : Nat) (c : Clasp) : State :=
  { s with crowns := { s.crowns with clasps := s.crowns.clasps.set k c } }

/-- A clasp accepts the output of crown `b` with claim `c` (R597). -/
def Clasp.accepts (x : Clasp) (b : Bool) (c : BitVec 16) : Bool :=
  decide (x.claimHi < c) || (c == x.claimHi && (x.holder == some b || !b))

/-- The clasp after an accepted output. -/
def Clasp.take (x : Clasp) (b : Bool) (c : BitVec 16) : Clasp := { x with claimHi := c, holder := some b }

/-- One crown. -/
def State.crown (s : State) (b : Bool) : Crown := if b then s.crowns.b else s.crowns.a
/-- One crown replaced. -/
def State.setCrown (s : State) (b : Bool) (c : Crown) : State :=
  if b then { s with crowns := { s.crowns with b := c } } else { s with crowns := { s.crowns with a := c } }

/-- One event of a monitor whose rung is NOTE: its alarm, if it fires, changes nothing but log and latch (R635). -/
def State.noteEvent (s : State) (m : Nat) (detail : Byte) : State :=
  let r := s.event m detail 0 (some 0)
  match r.2 with
  | none => r.1
  | some a =>
    let t := r.1.latchAlarm r.1.tamper.rung a
    if t.tamper.rung = 0 ∧ !t.tamper.caused then { t with tamper := { t.tamper with cause := m, caused := true } } else t

/-- A discarded output of crown `b` at clasp `k`: counted, and one event of the crown monitor (R598). -/
def State.refuseOutput (s : State) (b : Bool) (k : Nat) : State :=
  let x := s.clasp k
  ((s.setClasp k { x with refused := min (x.refused + 1) (2 ^ 32 - 1) }).bump 24 5 1).noteEvent 17 (if b then 1 else 0)

/-- An output of crown `b` reaches clasp `k`: whether it is accepted, and the state after (R597). -/
def State.claspGate (s : State) (b : Bool) (k : Nat) : Bool × State :=
  let c := (s.crown b).claim
  if (s.clasp k).accepts b c then (true, s.setClasp k ((s.clasp k).take b c)) else (false, s.refuseOutput b k)

/-- An output of crown `b` reaches clasp `k`. -/
def State.claspOutput (s : State) (b : Bool) (k : Nat) : State := (s.claspGate b k).2

/-- An output of the active crown at clasp `k` (R594, R596). -/
def State.activeOutput (s : State) (k : Nat) : Bool × State := s.claspGate s.crowns.activeB k

/-- Clasp `k` would accept an output of the active crown now. -/
def State.claspOpen (s : State) (k : Nat) : Bool :=
  (s.clasp k).accepts s.crowns.activeB (s.crown s.crowns.activeB).claim

/-- The other crown changed. -/
def State.setOther (s : State) (c : Crown) : State :=
  if s.crowns.activeB then { s with crowns := { s.crowns with a := c } }
  else { s with crowns := { s.crowns with b := c } }

/-- A cause of R604 found by the standby, which enters `TAKING` (R606 step 1). -/
def State.addCause (s : State) (c : Nat) : State :=
  let s1 : State := if s.crowns.due.elem c then s else { s with crowns := { s.crowns with due := s.crowns.due ++ [c] } }
  if s.otherCrown.st = .standby then s1.setOther { s1.otherCrown with st := .taking } else s1

/-- The active crown changed. -/
def State.setActive (s : State) (c : Crown) : State :=
  if s.crowns.activeB then { s with crowns := { s.crowns with b := c } }
  else { s with crowns := { s.crowns with a := c } }

/-- A journal entry's state as `CRN.H_JOURNAL` shows it (R624). -/
def JState.code : JState → Nat
  | .intent => 0 | .committed => 1 | .applied => 2 | .completed => 3

/-- The active crown has read or written the entry: its own view of it (R591, R624). -/
def State.noteEntry (s : State) (number : Nat) (st : JState) : State :=
  s.setActive { s.activeCrown with jSeq := number, jState := st.code }

/-- The journal changed. -/
def State.modJournal (s : State) (f : Journal → Journal) : State :=
  { s with crowns := { s.crowns with journal := s.crowns.journal.map f } }

/-- A completed entry as the journal keeps it for the state mirror: what it had recorded of its effects, keys and
shares among them, is gone (R207, R211, R611). -/
def Journal.closed (j : Journal) (c : Option Cpl) : Journal :=
  { j with state := .completed, cpl := c, effs := [], recs := [], kept := none }

/-- An output of the active crown has been discarded: its entry goes no further, until a takeover resolves it. -/
def State.entryStuck (s : State) : State := s.modJournal fun j => { j with wait := .clasp }

/-- The entry's completion written through the admin completion writer clasp, and the entry `COMPLETED`; discarded, the
entry stays as it was (R135, R596, R611). A work that a reset of its function has dropped receives none. -/
def State.crownClose (s : State) (j : Journal) (c : Cpl) : State :=
  let t := s.activeOutput 2
  if t.1 then
    let s1 := ({ t.2 with crowns := { t.2.crowns with
      journal := none, lastEntry := some (j.closed (some c)) } } : State).bump 24 0 1
    (s1.noteEntry j.number .completed).finish j.ring j.seq c
  else t.2.entryStuck

/-- The entry ended by the response to an alarm. -/
def State.entryFail (s : State) (b : Bad) : State :=
  match s.crowns.journal with
  | none => s
  | some j =>
    match s.descOf j.ring j.seq with
    | some d => s.crownClose j (cplBad d b 0)
    | none => { s with crowns := { s.crowns with journal := none, lastEntry := some (j.closed none) } }

/-- A completion that the active crown writes for a descriptor of an admin family that it has not taken (R135). -/
def State.claspBad (s : State) (r seq : Nat) (d : Desc) (b : Bad) : State :=
  if adminFamily (d.opcode.toNat / 256) then
    let t := s.activeOutput 2
    if t.1 then t.2.finishBad r seq d b else t.2
  else s.finishBad r seq d b

/-! Responses of the rungs (R635). -/

/-- Invocations of the applet engines that `which` selects, ended: an `APPLET_INVOKE` with its status,
a hook with nothing of its own (R588). -/
def State.endInvocations (s : State) (which : Invocation → Bool) (st : Option Status) : State :=
  let hit := (runningInvs s.applets ++ s.applets.waiting).filter which
  hit.foldl (fun x i => match i.kind, st with
    | .invoke r q, some t => x.failWork r q { status := t, step := 8 }
    | _, _ => x) (s.cutInvocations which)

/-- Every strand not yet delivered is discarded, its buffer and its places freed (R545); a `STRAND_CLOSE`
that waits for one ends with the status of the rung. -/
def State.dropStrands (s : State) (st : Status) : State :=
  let l := s.streams.flatMap fun (e : Nat × Stream) => e.2.closers
  let s1 : State := { s with
    strands := [], streams := s.streams.map fun (e : Nat × Stream) => (e.1, { e.2 with places := 0, closers := [] })
    signet := { s.signet with queue := s.signet.queue.filter fun q => match q.client with
      | .strand _ _ _ => false
      | _ => true } }
  l.foldl (fun a p => a.failWork p.1 p.2 { status := st, step := 8 }) s1

/-- Data-plane families 02 to 07 and 09, and those of them a HALT leaves: hallmark work of the crown and
snapshots on ring 0 (R137, R340, R797). -/
def haltServes (r : Nat) (d : Desc) : Bool :=
  let fam := d.opcode.toNat / 256
  if r = 0 then
    fam == 1 || decide (8 ≤ fam) ||
      (fam == 3 && decide (0x10 ≤ d.opcode.toNat % 256) &&
        (d.opcode != Op.hmExtend.code || decide (56 ≤ d.fld 24 1)))
  else false

/-- Descriptors whose lists are being read when HALT or a higher rung comes into force: refused with its status, the
chains that they continue cut, the contexts that they name no longer held (R133, R137, R294, R318). -/
def State.haltReading (s : State) (st : Status) : State :=
  let l := s.rings.flatMap fun (e : Nat × Ring) => (e.2.work.filter fun w =>
      w.phase == .reading && !haltServes e.1 w.desc).map fun w => (e.1, w.seq, w.desc)
  let mine := fun (p : Nat × Nat × Desc) => s.crowns.journal.any fun j => p.1 == j.ring && p.2.1 == j.seq
  let s1 := if l.any mine then s.entryFail { status := st, step := 3 } else s
  (l.filter fun p => !mine p).foldl (fun (a : State) p =>
    let q := (List.range 16).findSome? fun f =>
      ((a.facet f).queue.find? fun q => q.ring == p.1 && q.seq == p.2.1).bind fun q => q.ctx.map fun i => (f, i)
    let b := ((a.unqueue p.1 p.2.1).cutChain p.1 p.2.2).failWork p.1 p.2.1 { status := st, step := 3 }
    match q with
    | some (f, i) => b.unholdCtx f i
    | none => b) s1

/-- Captures at a HALT: staging discarded, the hook ended and its slot given back (R586, R588); no further segment
starts and no completion is written (R527). -/
def State.haltCaptures (s : State) : State :=
  let held := s.facets.flatMap fun (e : Nat × Facet) => e.2.msgs.map fun m => match m.kind with
    | .capture c => c.hookSlot
    | _ => none
  let stop := fun (m : Msg) => match m.kind with
    | .capture c => { m with staged := [], tags := [], onChip := 0, gddrBytes := 0, kind := .capture { c with hookSlot := none } }
    | _ => m
  let s1 := held.foldl (fun (a : State) h => a.unhold h) s
  { s1 with facets := s1.facets.map fun e => (e.1, { e.2 with msgs := e.2.msgs.map stop }) }

/-- Waiting collects of every stream, ended with a status. -/
def State.endCollects (s : State) (st : Status) : State :=
  let l := s.streams.flatMap (·.2.collects)
  let s1 := { s with streams := s.streams.map fun e => (e.1, { e.2 with collects := [] }) }
  l.foldl (fun a p => a.failWork p.1 p.2 { status := st, step := 8 }) s1

/-- HALT comes into force, alone or with a higher rung, whose status `st` then is (R588, R635). -/
def State.takeHalt (s : State) (st : Status) : State :=
  (((s.haltReading st).endInvocations (fun _ => true) (some st)).haltCaptures).dropStrands st

/-- Operations of the signet block ended by a SCRUB or PURGE (R349): every engine, every waiting
request. -/
def State.endSignet (s : State) : State :=
  let reqs := s.signet.engines.filterMap (·.2.busy) ++ s.signet.queue
  let s1 : State := { s with
    signet := { s.signet with
      queue := [], waits := []
      engines := s.signet.engines.map fun (e : Nat × SigEngine) => (e.1, { e.2 with busy := none })
      drbgs := s.signet.drbgs.map fun (e : Nat × Drbg) => (e.1, { fails := e.2.fails }) }
    -- an SPDM request that waits for the block is answered with an error
    link := if s.link.job.isSome then { s.link with job := none, doeBusy := false, answer := some ⟨0x7F, 0x05, []⟩ }
      else s.link }
  let draws := s.signet.waits.filterMap fun w => match w with
    | .random r k => some (r, k)
    | _ => none
  let s2 := draws.foldl (fun (a : State) p => a.failWork p.1 p.2 { status := .alarmScrub, step := 8 })
    (reqs.foldl (fun a q => match q.client with
      | .desc r k => a.failWork r k { status := .alarmScrub, step := 8 }
      | _ => a) s1)
  match s2.crowns.journal with
  | some j =>
    if j.wait = CrownWait.engine ∨ j.wait = CrownWait.draw ∨ j.wait = CrownWait.vault then
      s2.entryFail { status := .alarmScrub, step := 8 }
    else s2
  | none => s2

/-- Instances instantiated in index order while pool blocks last (R382, R349). -/
def Signet.instantiate (g : Signet) (tick : Nat) : Signet :=
  (List.range 4).foldl (fun a i =>
    match a.pool with
    | [] => a
    | b :: l =>
      if (tget {} a.drbgs i).instantiated || a.ent != .running then a
      else
        let kv := drbgSeed b (fit 16 a.personal ++ [BitVec.ofNat 8 i])
        let d : Drbg :=
          { instantiated := true, reseedTick := tick, fails := (tget {} a.drbgs i).fails, key := kv.1, v := kv.2 }
        { a with pool := l, drbgs := tset {} a.drbgs i d }) g

/-- Facet work of every facet ended by a SCRUB or PURGE (R273, R318). -/
def State.scrubFacets (s : State) : State :=
  (List.range 16).foldl (fun a f =>
    ((a.failQueue f (fun _ => true) .alarmScrub).endMsgs f (fun _ => true) .alarmScrub).freeDigs f
      fun _ => true) s

/-- The vault in `NONE`, its cache, tables, arms and keys cleared; the NVM record stays (R34, R405,
R495). -/
def Vault.clear (v : Vault) : Vault :=
  { record := v.record, recordWritten := v.recordWritten, recordTorn := v.recordTorn,
    clearing := v.clearing }

/-- The vault after an import that has failed: empty, its keys still derived (R447). -/
def Vault.unload (v : Vault) : Vault := if v.st = .loading then { v.clear with vek := v.vek, vmk := v.vmk } else v

/-- SPDM session secrets and IDE keys cleared; every stream Insecure (R76). -/
def Link.clearSecrets (l : Link) : Link := { l with sessions := [], ide := [] }

/-- A debug grant and nonce ended (R675, R677). -/
def Life.endDebug (l : Life) : Life := { l with grant := none, nonce := none }

/-- A contact card deactivated in the ISO order, or nothing when none is powered (R743). -/
def Cc.deactivate (c : Cc) : Cc :=
  { c with active := false, t1 := false, cls := 0, atr := [], fi := 0, di := 0, bwtMs := 0,
           cwtEtu := 0, rst := false, khz := 0, ifsc := 32, crc := false, ns := false, nr := false,
           pins := if c.cls = 0 then c.pins else [.rst false, .clk 0, .io false, .supply 0] }

/-- The SD card's supply off: it must be identified again (R727, R751). -/
def Sd.off (x : Sd) : Sd :=
  { x with power := false, clkMhz := 0, st := if x.present then .present else .absent
           csdWp := false, width4 := false, type := 0, blocks := 0, rca := 0, ocr := [], scr := [], cid := [], csd := [], ssr := [] }

/-- The registers of an identified card show (R751). -/
def Sd.shown (x : Sd) : Sd := if x.st = .ready ∨ x.st = .transferring then x else { x.off with st := x.st }

/-- The phase belongs to the SD port. -/
def CardPhase.isSd : CardPhase → Bool
  | .ident _ | .wrCmd _ | .wrToken _ | .wrBusy _ | .wrStatus _ | .rd _ | .rdData _ => true
  | _ => false

/-- The descriptor that uses a card port, if any, ended (R639, R743). -/
def State.endPortJob (s : State) (sd : Bool) (st : Status) : State :=
  match s.cards.job with
  | some j =>
    if j.phase.isSd = sd then
      ({ s with cards := { s.cards with job := none, importing := false, writingB := false } } : State).entryFail
        { status := st, step := 8 }
    else s
  | none => s

/-- A journal entry after a SCRUB: its capabilities are unbound (R559); what it still does to the vault changes the record
alone, since the vault is `NONE` and its memory lost (R405), and a checkpoint that was to follow its cut ends. -/
def Journal.scrubbed (desc : Journal → Option Desc) (j : Journal) : Journal :=
  let cut := j.effs.any fun x => match x with
    | .cut _ => true
    | _ => false
  { j with
    effs := j.effs.filterMap fun x => match x with
      | .app i a => some (.app i { a with caps := a.caps.map fun _ => none })
      | .vault r _ => some (.vault r .none)
      | .cut _ | .vcommit | .vformat => none
      | _ => some x
    cpl := if cut && j.cpl.isNone then (desc j).map fun d => cplBad d { status := .alarmScrub, step := 8 } 0 else j.cpl }

/-- The clearing of a SCRUB (R34, R635); the contact card is deactivated, and a descriptor that uses it ends (R743). -/
def State.scrubClear (s : State) : State :=
  let s1 := (((s.scrubFacets.endInvocations (fun _ => true) (some .alarmScrub)).endCollects
    .alarmScrub).endSignet).endPortJob false .alarmScrub
  let jobs := s1.vault.armJobs
  let s2 := (jobs.foldl (fun a j => a.failWork j.ring j.seq { status := .alarmScrub, step := 8 }) s1)
  { s2 with
    keys := { s2.keys.eraseAll with ceremony := none },
    vault := s2.vault.clear,
    applets := { s2.applets with slots := s2.applets.slots.map fun e => (e.1, { e.2 with
      caps := e.2.caps.map fun _ => none
      waiting := e.2.waiting.map fun c => { c with caps := c.caps.map fun _ => none } }) },
    crowns := { s2.crowns with journal := s2.crowns.journal.map (Journal.scrubbed (fun j => s2.descOf j.ring j.seq)) },
    signet := s2.signet.instantiate s2.tick,
    facets := s2.facets.map fun e => (e.1, { e.2 with tiles := [[], []], stageKey := none }),
    link := s2.link.clearSecrets,
    life := s2.life.endDebug,
    cards := { s2.cards with cc := s2.cards.cc.deactivate },
    pip := { s2.pip with tk := 0 },
    tamper := { s2.tamper with clearing := true } }

/-- The DRK erased, and the keys lost with it, the domain key and the identity key (R70, R164, R203, R635). -/
def State.purgeClear (s : State) : State :=
  { s with battery := { s.battery with drk := none },
           keys := { s.keys with domainKey := none },
           life := { s.life with idKey := none },
           tamper := { s.tamper with clearing := true } }

/-- A card port fenced: its card deactivated, the descriptor that uses it ended (R639). -/
def State.fencePort (s : State) (sd : Bool) : State :=
  (if sd then { s with tamper := { s.tamper with fenceSd := true }, cards := { s.cards with sd := s.cards.sd.off } }
    else { s with tamper := { s.tamper with fenceCc := true }, cards := { s.cards with cc := s.cards.cc.deactivate } }
    : State).endPortJob sd .facetFenced

/-- A facet fenced by an alarm (R637 to R639). -/
def State.alarmFenceFacet (s : State) (f : Nat) : State :=
  { s.clearFacet f with
    start := { (s.clearFacet f).start with
      facets := tset .untested (s.clearFacet f).start.facets f .fencedAlarm },
    tamper := { (s.clearFacet f).tamper with
      fenceFacet := (s.clearFacet f).tamper.fenceFacet ||| BitVec.ofNat 16 (2 ^ f) } }

/-- The scope of an alarm taken out of service. -/
def State.fence (s : State) : Scope → State
  | .facets a => (List.range 4).foldl (fun x i => x.alarmFenceFacet (a + i)) s
  | .sd => s.fencePort true
  | .cc => s.fencePort false

/-- The responses that the climb from rung `old` to the present one adds (R635, R647). -/
def State.climb (s : State) (old new : Nat) : State :=
  let s1 := if old < 3 ∧ 3 ≤ new then s.takeHalt (if 4 ≤ new then .alarmScrub else .deviceHalted) else s
  -- a PURGE clears the scope of a SCRUB too, also when the device stands at SCRUB (R203)
  let s2 := if old < new ∧ 4 ≤ new then s1.scrubClear else s1
  if old < 5 ∧ 5 ≤ new then s2.purgeClear else s2

/-- Clock alarms on island 4 or 5 passed to the standby crown as cause 2 (R640). -/
def clockCause (s : State) (a : Alarm) : Bool :=
  (a.m == 12 || a.m == 13) && (a.detail == (if s.crowns.activeB then 5 else 4))

/-- A further alarm of a monitor that has latched, while the device stands at or above its rung: it is logged and
changes nothing (R634). -/
def State.furtherAlarm (s : State) (a : Alarm) : Bool :=
  (s.mon a.m).latched && Nat.ble a.taken s.tamper.rung

/-- A group of alarms decided in one `mref` cycle (R634, R646). -/
def State.alarms (s : State) (group : List Alarm) : State :=
  let l := group.mergeSort fun a b => decide (a.m ≤ b.m)
  let old := s.tamper.rung
  let new := max old (groupRung l)
  let s1 := l.foldl (fun x a => x.latchAlarm new a) s
  let cause := match l.find? fun a => a.taken == new with
    | some a => if old < new ∨ !s1.tamper.caused then a.m else s1.tamper.cause
    | none => s1.tamper.cause
  let s2 := { s1 with
    tamper := { s1.tamper with
      rung := new, cause := cause, caused := s1.tamper.caused || l.any fun a => a.taken == new
      throttled := s1.tamper.throttled || l.any fun a => a.rung == 1 && !s.furtherAlarm a } }
  let s2 := if l.any (clockCause s1) && s.takeOk then s2.addCause 2 else s2
  let s3 := (l.filter fun a => a.taken == 2 && !s.furtherAlarm a).foldl (fun x a =>
    match fenceScope a.m a.detail.toNat with
    | some c => x.fence c
    | none => x) s2
  s3.climb old new

/-! Events and debounce (R632, R633). -/

/-- Events counted one after the other, and the alarms that they complete. -/
def State.countEvents (s : State) (l : List (Nat × Byte × Word32 × Option Nat)) : State × List Alarm :=
  l.foldl (fun (a : State × List Alarm) (e : Nat × Byte × Word32 × Option Nat) =>
    let r := a.1.event e.1 e.2.1 e.2.2.1 e.2.2.2
    (r.1, a.2 ++ r.2.toList)) (s, [])

/-- Events that arrive in one `mref` cycle. A clock alarm on the active crown's island while takeover is impossible
brings the crown-loss alarm at once (R605, R640). -/
def State.events (s : State) (l : List (Nat × Byte × Word32 × Option Nat)) : State :=
  let t := s.countEvents l
  let u := if t.2.any (clockCause t.1) && !t.1.takeOk then
      t.1.countEvents [(18, if s.crowns.activeB then 1 else 0, 0, none)] else (t.1, [])
  if t.2 = [] then t.1 else u.1.alarms (t.2 ++ u.2)

/-- One event of monitor `m`. -/
def State.raise (s : State) (m : Nat) (detail : Byte := 0) : State := s.events [(m, detail, 0, none)]

/-- The bus-integrity alarm (R29, R313, R575). -/
def State.busIntegrity (s : State) : State := s.raise 14

end Sys2Proof.Machine
end

