-- ==== Sys2Proof/Machine/Nvm.lean ====
section
/-!
DEFINITION. The keeper's non-volatile memory: pages and spares, the record layer, the write port
(R685 to R709, R761, R767).
-/

namespace Sys2Proof.Machine

/-! CRC-32C (RFC 3720). -/

/-- One byte through the CRC. -/
def crcByte (c : BitVec 32) (b : Byte) : BitVec 32 :=
  (List.range 8).foldl (fun x _ => if x.getLsbD 0 then (x >>> 1) ^^^ 0x82F63B78#32 else x >>> 1)
    (c ^^^ b.setWidth 32)
/-- CRC-32C of a byte string. -/
def crc32c (m : Bytes) : Nat := ((m.foldl crcByte 0xFFFFFFFF#32) ^^^ 0xFFFFFFFF#32).toNat

/-! Pages (R685 to R688, R702, R703). Page numbers are byte addresses / 256: 0 to 16,383 system area,
16,384 to 32,767 user array; a quarter is 4,096 pages. -/

/-- Number of the remap entry of spare `k` of the quarter of page `p` (R703). -/
def remapEntry (p k : Nat) : Nat :=
  let area := if p < 16384 then 1 else 0
  (4 * area + p / 4096 % 4) * 256 + k

/-- The spare that holds page `p`; a page relocated twice lies in the later one (log entry 12, DESIGN CHOICE). -/
def Nvm.spareOf (n : Nvm) (p : Nat) : Option Nat :=
  ((List.range 256).filter fun k => tget none n.remap (remapEntry p k) == some (p % 4096)).getLast?

/-- The physical page of page `p`. -/
def Nvm.phys (n : Nvm) (p : Nat) : Nat :=
  match n.spareOf p with
  | some k => p / 4096 * 4096 + 3840 + k
  | none => p

/-- The 256 bytes of page `p`. -/
def Nvm.page (n : Nvm) (p : Nat) : Bytes := tget (zeros 256) n.pages (n.phys p)

/-- Page `p` written; a rewritten page is no longer weak (R695). -/
def Nvm.put (n : Nvm) (p : Nat) (b : Bytes) : Nvm :=
  { n with pages := tset (zeros 256) n.pages (n.phys p) (fit 256 b),
           weak := n.weak.filter fun w => w != n.phys p, writes := n.writes + 1 }

/-! Records (R687, R696, R697, R704, R767). -/

/-- `PAGES` of a record. -/
def recPages : RecName → Nat
  | .user _ => 1
  | .sys t _ => match t with
    | 0x03 => 9 | 0x06 => 65 | 0x07 => 257 | 0x08 => 9 | 0x0C => 33 | 0x11 => 9 | _ => 1

/-- Place of a system record among the copies of its quarter (R704). -/
def sysOffset (t i : Nat) : Nat :=
  match t with
  | 0x01 => 0 | 0x02 => 1 | 0x03 => 2 + 9 * i | 0x04 => 578 | 0x05 => 579 | 0x06 => 580 + 65 * i
  | 0x07 => 710 | 0x08 => 967 | 0x09 => 976 | 0x0A => 977 | 0x0B => 978 + i | _ => 986

/-- First page of a record's copy. -/
def recFirst (name : RecName) (copy : Nat) : Nat :=
  match name with
  | .user u =>
    let h := u / 1920
    let i := u % 1920
    if copy = 0 then 16384 + 4096 * h + i else 16384 + 4096 * (if h % 2 = 0 then h + 1 else h - 1) + 1920 + i
  | .sys t i =>
    if t = 0x10 ∨ t = 0x11 then (if copy = 0 then 8192 else 12288) + 3584 + (if t = 0x11 then 1 else 0)
    else (if copy = 0 then 0 else 8192) + 2048 + sysOffset t i

/-- Copy 0 lies in the lower-addressed quarter. -/
def copy0Lower : RecName → Bool
  | .user u => u / 1920 % 2 == 0
  | .sys _ _ => true

/-- The record's number in `NVM.LAST_TIE` and `NVM.LAST_ERR` (R716): area and record. -/
def recNumber : RecName → Bool × BitVec 16
  | .user u => (false, BitVec.ofNat 16 u)
  | .sys t i => (true, BitVec.ofNat 16 (t * 256 + i))

/-- The bytes of a record copy as its pages hold them. -/
def Nvm.copyBytes (n : Nvm) (name : RecName) (copy : Nat) : Bytes :=
  ((List.range (recPages name)).map fun k => n.page (recFirst name copy + k)).flatten

/-- One copy, with its header read. -/
structure RecCopy where
  type : Nat
  len : Nat
  seq : Nat
  claim : Nat
  payload : Bytes
  valid : Bool
  blank : Bool
deriving DecidableEq, Repr

/-- The bytes over which `CRC` is taken. -/
def crcInput (b : Bytes) : Bytes := b.take 12 ++ b.drop 16

/-- The copy in the bytes of its pages (R696, R697). -/
def recCopy (pages : Nat) (b : Bytes) : RecCopy :=
  let len := leField b 2 2
  { type := leField b 0 1, len := len, seq := leField b 4 4, claim := leField b 8 2,
    payload := slice b 16 len, blank := allZero (b.take 256),
    valid := byteAt b 1 == 0xA5 && leField b 10 2 == pages && decide (len ≤ 256 * pages - 16) &&
      byteAt b 0 != 0 && leField b 12 4 == crc32c (crcInput b) }

/-- Copy `copy` of a record. -/
def Nvm.copy (n : Nvm) (name : RecName) (copy : Nat) : RecCopy :=
  recCopy (recPages name) (n.copyBytes name copy)

/-- How a record is decided (R697). -/
inductive RecState | never | torn | held
deriving DecidableEq, Repr

/-- A decided record. -/
structure RecRead where
  st : RecState
  type : Nat := 0
  seq : Nat := 0
  claim : Nat := 0
  payload : Bytes := []
  /-- 1 copy 0, 2 copy 1, 3 both equal (R712) -/
  source : Nat := 0
  tie : Bool := false
deriving DecidableEq, Repr

/-- What a copy gives. -/
def RecCopy.read (c : RecCopy) (source : Nat) (tie : Bool) : RecRead :=
  { st := .held, type := c.type, seq := c.seq, claim := c.claim, payload := c.payload, source := source,
    tie := tie }

/-- The copy choice of R697. -/
def recChoose (lower0 : Bool) (a b : RecCopy) : RecRead :=
  if a.blank && b.blank then { st := .never }
  else match a.valid, b.valid with
    | false, false => { st := .torn }
    | true, false => a.read 1 false
    | false, true => b.read 2 false
    | true, true =>
      if a.seq ≠ b.seq then if b.seq < a.seq then a.read 1 false else b.read 2 false
      else if a.type = b.type ∧ a.payload = b.payload then a.read 3 false
      else if b.claim < a.claim then a.read 1 true
      else if a.claim < b.claim then b.read 2 true
      else if lower0 then a.read 1 true else b.read 2 true

/-- The record. -/
def Nvm.record (n : Nvm) (name : RecName) : RecRead :=
  recChoose (copy0Lower name) (n.copy name 0) (n.copy name 1)

/-- The sequence number of the next write (R699). -/
def Nvm.nextSeq (n : Nvm) (name : RecName) : Nat :=
  let r := n.record name
  match r.st with
  | .held => r.seq + (if r.tie then 2 else 1)
  | _ => max 1 (1 + max (n.copy name 0).seq (n.copy name 1).seq)

/-- The bytes of a copy to write (R696). -/
def recBytes (name : RecName) (type : Byte) (payload : Bytes) (seq claim : Nat) : Bytes :=
  let p := recPages name
  let pay := payload.take (256 * p - 16)
  let head := [type, 0xA5] ++ leBytes 2 pay.length ++ leBytes 4 seq ++ leBytes 2 claim ++ leBytes 2 p
  let body := fit (256 * p - 16) pay
  head ++ leBytes 4 (crc32c (head ++ body)) ++ body

/-- The pages of one copy, as page number and contents. -/
def recPageList (name : RecName) (copy : Nat) (bytes : Bytes) : List (Nat × Bytes) :=
  (List.range (recPages name)).map fun k => (recFirst name copy + k, slice bytes (256 * k) 256)

/-- Class of a record's page writes at the port (R706). -/
def recClass : RecName → Nat
  | .user _ => 5
  | .sys t _ => if t = 0x0C then 2 else if t = 0x0A ∨ t = 0x0B then 3 else 4

/-- A copy written at once, by a step that is one whole (R757, R702). -/
def Nvm.putCopy (n : Nvm) (name : RecName) (copy : Nat) (bytes : Bytes) : Nvm :=
  (recPageList name copy bytes).foldl (fun a p => a.put p.1 p.2) n

/-- A whole record written at once under a claim; unchanged when its `SEQ` is exhausted (R699, R700). -/
def Nvm.putRec (n : Nvm) (name : RecName) (type : Byte) (payload : Bytes) (claim : Nat) : Nvm :=
  let seq := n.nextSeq name
  if 2 ^ 32 ≤ seq then n
  else
    let b := recBytes name type payload seq claim
    (n.putCopy name 0 b).putCopy name 1 b

/-! Relocation (R702, R703). -/

/-- The payload of the remap record. -/
def Nvm.remapBytes (n : Nvm) : Bytes :=
  ((List.range 2048).map fun e => match tget none n.remap e with
    | some p => leBytes 4 (2 ^ 31 + p)
    | none => zeros 4).flatten

/-- The pages of the remap record's two copies. -/
def isRemapPage (p : Nat) : Bool :=
  (decide (3034 ≤ p) && decide (p < 3067)) || (decide (11226 ≤ p) && decide (p < 11259))

/-- The lowest-indexed free spare of the quarter of page `p`. -/
def Nvm.freeSpare (n : Nvm) (p : Nat) : Option Nat :=
  (List.range 256).find? fun k => (tget none n.remap (remapEntry p k)).isNone

/-- Page `p` relocated with contents `b`; none when it cannot be. -/
def Nvm.relocate (n : Nvm) (p : Nat) (b : Bytes) (claim : Nat) : Option Nvm :=
  if isRemapPage p ∨ 2 ^ 32 ≤ n.nextSeq (.sys 0x0C 0) then none
  else match n.freeSpare p with
    | none => none
    | some k =>
      let n1 := { n with remap := tput n.remap (remapEntry p k) (some (p % 4096)) }
      some ((n1.putRec (.sys 0x0C 0) 0x0C n1.remapBytes claim).put p b)

/-- The remap table as the record holds it (R694, R703). -/
def remapOf (b : Bytes) : Tab (Option Nat) :=
  (List.range 2048).foldl (fun t e =>
    let w := leField b (4 * e) 4
    if bitOf w 31 then tput t e (some (w % 4096)) else t) []

/-! Reads and writes of the state. -/

/-- The claim of the active crown. -/
def State.claim (s : State) : Nat :=
  (if s.crowns.activeB then s.crowns.b.claim else s.crowns.a.claim).toNat

/-- A decision that ends in TIE, counted (R698). -/
def State.noteTie (s : State) (name : RecName) : State :=
  if (s.nvm.record name).tie then
    let num := recNumber name
    { s with nvm := { s.nvm with tie := min (s.nvm.tie + 1) (2 ^ 32 - 1), lastTieValid := true, lastTieSys := num.1,
                                 lastTieRec := num.2 } }
  else s

/-- A record decided, with the tie and torn counts of R698 and R712. -/
def State.readRec (s : State) (name : RecName) : RecRead × State :=
  let r := s.nvm.record name
  let num := recNumber name
  let s1 := s.bump 25 1 (2 * recPages name)
  let n := s1.nvm
  (r, if r.tie then s1.noteTie name
      else if r.st = .torn then { s1 with nvm := { n with
          torn := min (n.torn + 1) (2 ^ 32 - 1), lastErrStatus := Status.nvmTorn.code, lastErrSys := num.1,
          lastErrRec := num.2 } }
      else s1)

/-- A record that could not be written (R700, R701). -/
def State.noteWorn (s : State) (name : RecName) : State :=
  let num := recNumber name
  { s with nvm := { s.nvm with lastErrStatus := Status.nvmWorn.code, lastErrSys := num.1,
                               lastErrRec := num.2 } }

/-! The write port (R706, R691). -/

/-- The most urgent page write, first come first, and the others. -/
def takePage (q : List PageWrite) : Option (PageWrite × List PageWrite) :=
  match (q.map (·.cls)).min? with
  | none => none
  | some c => (q.find? fun w => w.cls == c).map fun w => (w, q.erase w)

/-- The port takes its next page write; none after a trip or during recall. -/
def State.portGo (s : State) : State :=
  if s.nvm.writing.isSome || s.nvm.tripped || s.nvm.recalling then s
  else match takePage s.nvm.queue with
    | none => s
    | some (w, q) => { s with nvm := { s.nvm with writing := some w, queue := q } }

/-- An output of the active crown at the NVM write clasp (R596). Before the active crown stands no claim is held to it. -/
def State.nvmOutput (s : State) : Bool × State := if s.activeCrown.st = .active then s.activeOutput 1 else (true, s)

/-- Page writes that the active crown asks of the port, through the NVM write clasp (R596). -/
def State.askPages (s : State) (l : List PageWrite) : State :=
  let t := s.nvmOutput
  if t.1 then ({ t.2 with nvm := { t.2.nvm with queue := t.2.nvm.queue ++ l } } : State).portGo else t.2

/-- The page writes of one copy of a record write. -/
def copyWrites (name : RecName) (copy : Nat) (bytes : Bytes) (kind : Bool → PageKind) : List PageWrite :=
  let l := recPageList name copy bytes
  l.mapIdx fun k p => ⟨recClass name, p.1, p.2, kind (k + 1 == l.length)⟩

/-! Record writes outside the journal (R699 to R701). -/

/-- A record written at once, in a start step of S2, where nothing else asks for the port (log entry 60, DESIGN CHOICE): its
decision may end in TIE (R698), its `SEQ` may be exhausted (R700), and after a trip nothing is written (R691). -/
def State.putRec (s : State) (name : RecName) (type : Byte) (payload : Bytes) : State :=
  let t := s.nvmOutput
  if s.nvm.tripped || !t.1 then t.2
  else
    let s1 := t.2.noteTie name
    if 2 ^ 32 ≤ s1.nvm.nextSeq name then s1.noteWorn name
    else (({ s1 with nvm := s1.nvm.putRec name type payload s1.claim } : State).bump 25 0 (2 * recPages name)).bump 24 1 1

/-- A record as the crown knows it: its own writes under way count (log entry 60, DESIGN CHOICE). -/
def State.recNow (s : State) (name : RecName) : RecRead :=
  match (s.nvm.jobs.filter fun w => w.name == name).getLast? with
  | some w => { st := .held, type := w.type.toNat, payload := w.payload }
  | none => s.nvm.record name

/-- A record write with its sequence number fixed and the record as it stands before it (R699 step 1). -/
def State.planRec (s : State) (name : RecName) (type : Byte) (payload : Bytes) (later : Nat := 0) : RecWrite :=
  let r := s.recNow name
  ⟨name, type, payload, s.nvm.nextSeq name + later + (s.nvm.jobs.filter fun w => w.name == name).length,
   if r.st = .held then some (BitVec.ofNat 8 r.type, r.payload) else none⟩

/-- What copy 0 is written back with after a failure of copy 1 (R701). -/
def RecWrite.back (w : RecWrite) (claim : Nat) : Bytes :=
  match w.prev with
  | some (t, p) => recBytes w.name t p w.seq claim
  | none => zeros (256 * recPages w.name)

/-- The pages of one copy of a record write asked for. -/
def State.askCopy (s : State) (w : RecWrite) (copy : Nat) (kind : Bool → PageKind) : State :=
  s.askPages (copyWrites w.name copy (recBytes w.name w.type w.payload w.seq s.claim) kind)

/-- The first record write of the list begins; one whose `SEQ` is exhausted is not made (R700). -/
def State.jobGo (s : State) : List RecWrite → State
  | [] => { s with nvm := { s.nvm with jobs := [] } }
  | w :: ws =>
    let s1 : State := { s.noteTie w.name with nvm := { (s.noteTie w.name).nvm with jobs := [] } }
    let x := s1.planRec w.name w.type w.payload
    if 2 ^ 32 ≤ x.seq then (s1.noteWorn w.name).jobGo ws
    else (({ s1 with nvm := { s1.nvm with jobs := x :: ws } } : State).bump 24 1 1).askCopy x 0 (.job 0)

/-- A record write that no journal entry holds, made in its turn (R699). -/
def State.askRec (s : State) (name : RecName) (type : Byte) (payload : Bytes) : State :=
  let w : RecWrite := ⟨name, type, payload, 0, none⟩
  match s.nvm.jobs with
  | [] => s.jobGo [w]
  | l => { s with nvm := { s.nvm with jobs := l ++ [w] } }

/-- Queued pages of a record write that has failed, taken out. -/
def State.dropPages (s : State) (which : PageKind → Bool) : State :=
  { s with nvm := { s.nvm with queue := s.nvm.queue.filter fun w => !which w.kind } }

/-- A page of the first record write of the list has ended (R699, R701). -/
def State.jobPage (s : State) (copy : Nat) (last failed : Bool) : State :=
  match s.nvm.jobs with
  | [] => s
  | w :: ws =>
    let mine := fun (k : PageKind) => match k with
      | .job _ _ => true
      | _ => false
    if failed then
      let s1 := s.dropPages mine
      if copy = 0 then (s1.noteWorn w.name).jobGo ws
      else s1.askPages (copyWrites w.name 0 (w.back s.claim) .jobBack)
    else if !last then s
    else if copy = 0 then s.askCopy w 1 (.job 1)
    else s.jobGo ws

/-- A page of its write-back has ended (R701). -/
def State.jobBackPage (s : State) (last failed : Bool) : State :=
  let mine := fun (k : PageKind) => match k with
    | .jobBack _ => true
    | _ => false
  match s.nvm.jobs with
  | [] => s
  | w :: ws => if failed || last then ((s.dropPages mine).noteWorn w.name).jobGo ws else s

/-- Decisions of records counted where they end in TIE (R698). -/
def State.noteTies (s : State) (l : List RecName) : State := l.dedup.foldl State.noteTie s

end Sys2Proof.Machine
end

