-- ==== Sys2Proof/Machine/VaultOps.lean ====
section
/-!
DEFINITION. The vault engine: entries, their lines in GDDR6 and the integrity tree, the vault cache, the
pip table, epochs, bitmaps, folds and cuts (R402 to R431).
-/

namespace Sys2Proof.Machine

/-! Keys (R402). -/

/-- The SP 800-108 counter-mode KDF with HMAC-SHA-384, 256 bits. -/
def kdf256 (key label ctx : Bytes) : Bytes :=
  (hmac 0x02 key (beBytes 4 1 ++ label ++ [0] ++ ctx ++ beBytes 4 256)).take 32

/-- VEK and VMK derived while the custody state is `READY` (R402, R403). -/
def State.vaultKeys (s : State) : State :=
  match s.keys.custody, s.keys.domainKey with
  | .ready, some k =>
    let ctx := leBytes 4 s.keys.domainId.toNat
    { s with vault := { s.vault with
        vek := some (kdf256 k (ascii "WOALE-VAULT-ENC") ctx)
        vmk := some (kdf256 k (ascii "WOALE-VAULT-MAC") ctx) } }
  | _, _ => { s with vault := { s.vault with vek := none, vmk := none } }

/-! Lines (R410, R411, R445). -/

/-- The place of a line in the order of an image stream: group (0 to 5 for nodes L5 to L0, 6 tags,
7 entries), interface, line index (R445). -/
def lineKey (group iface idx : Nat) : Nat := group * 2 ^ 24 + iface * 2 ^ 22 + idx

/-- Offset of the nodes of a level (R410). -/
def nodeBase (level : Nat) : Nat :=
  match level with
  | 0 => 0x04400000 | 1 => 0x04600000 | 2 => 0x04640000 | 3 => 0x04648000 | 4 => 0x04649000
  | _ => 0x04649200

/-- Key of the line of node `j` of a level. -/
def nodeLine (level j : Nat) : Nat := lineKey (5 - level) (j % 4) (nodeBase level / 64 + j / 4)
/-- Key of the tag line of entry `e`. -/
def tagLine (e : Nat) : Nat := lineKey 6 (e % 4) ((0x04000000 + e / 4 * 16) / 64)
/-- Keys of the four entry lines of entry `e`. -/
def entryLines (e : Nat) : List Nat := (List.range 4).map fun q => lineKey 7 (e % 4) (e / 4 * 4 + q)
/-- The node of a level on the path of entry `e`. -/
def pathNode (level e : Nat) : Nat := e / 8 ^ (level + 1)
/-- Every line that a write-back of entry `e` changes (R415). -/
def writeLines (e : Nat) : List Nat :=
  (List.range 6).map (fun l => nodeLine l (pathNode l e)) ++ [tagLine e] ++ entryLines e

/-- Lines marked in a set. -/
def markLines (t : Tab Bool) (l : List Nat) : Tab Bool := l.foldl (fun a k => tset false a k true) t

/-! Entries (R408, R414, R415, R418). -/

/-- Vault entry of endpoint `e`. -/
def State.ventry (s : State) (e : Nat) : VEntry := tget {} s.vault.entries e

/-- Version of a node. -/
def Vault.node (v : Vault) (level j : Nat) : Nat := tget 0 v.nodes (level * 2 ^ 20 + j)

/-- L0 node `j` used through the vault cache: the least recently used of more than 27,000 makes room (R418). -/
def State.touchNode (s : State) (j : Nat) : State :=
  { s with vault := { s.vault with l0 := (j :: s.vault.l0.erase j).take 27000 } }

/-! Verification failures (R416, R417). -/

/-- A verification failure of a line of interface `iface`: the entries `es` below it fail from now on, `first` is the
one recorded. -/
def State.lineFail (s : State) (iface first : Nat) (es : List Nat) : State :=
  let v := s.vlt
  let s1 := ({ s with
    vlt := { v with
      integErr := min (v.integErr + 1) (2 ^ 32 - 1), errValid := true
      errEndpoint := if v.errValid then v.errEndpoint else BitVec.ofNat 20 first }
    vault := { s.vault with
      entries := es.foldl (fun t e => tmod {} t e fun x => { x with failed := true }) s.vault.entries } } : State)
  (s1.bump 18 2 1).raise 16 (BitVec.ofNat 8 iface)

/-- The stored form of entry `e` fails its verification. -/
def State.vaultFail (s : State) (e : Nat) : State := s.lineFail (e % 4) e [e]

/-- L0 node `j` fails its verification, and with it the eight entries below it. Its place in the cache is kept for
the entries enrolled anew, whose versions the vault engine goes on counting (R434, R455; log entry 50, DEDUCED). -/
def State.nodeFail (s : State) (j : Nat) : State :=
  let s1 := (s.lineFail (j % 4) (8 * j) ((List.range 8).map (8 * j + ·))).touchNode j
  { s1 with vault := { s1.vault with flaws := s1.vault.flaws.filter fun x => x != .node j } }

/-- L0 node `j` cannot be read. -/
def Vault.nodeLost (v : Vault) (j : Nat) : Bool := !v.l0.elem j && v.flaws.elem (.node j)

/-- The stored form of entry `e` no longer verifies. -/
def State.flawEntry (s : State) (e : Nat) : State :=
  { s with vault := { s.vault with flaws := .entry e :: s.vault.flaws } }

/-- Entry `e` written back: its version and those on its path rise by 1 (R415); none when one of them
cannot. -/
def Vault.writeBack (v : Vault) (e : Nat) : Option Vault :=
  let x := tget {} v.entries e
  let path := (List.range 6).map fun l => l * 2 ^ 20 + pathNode l e
  if 2 ^ 56 - 1 ≤ x.version ∨ path.any fun k => decide (2 ^ 56 - 1 ≤ tget 0 v.nodes k) then none
  else some { v with
    entries := tset {} v.entries e { x with version := x.version + 1, modified := false }
    stored := tset {} v.stored e { x with version := x.version + 1, modified := false }
    nodes := path.foldl (fun t k => tmod 0 t k (· + 1)) v.nodes
    flaws := v.flaws.filter fun x => x != .entry e && x != .node (e / 8)
    written := markLines v.written (writeLines e)
    writtenExp := markLines v.writtenExp (writeLines e) }

/-- A modified entry written back where that can be done: its L0 node is read first if the cache does not hold it
(R415, R416). -/
def State.writeBack (s : State) (e : Nat) : State :=
  if (s.ventry e).modified && !(s.ventry e).failed then
    if s.vault.nodeLost (e / 8) then s.nodeFail (e / 8)
    else match s.vault.writeBack e with
      | some v => (({ s with vault := v } : State).touchNode (e / 8)).bump 18 5 1
      | none => s
  else s

/-- Entry `e` used through the vault cache: the least recently used of more than 48,000 is replaced, written
back first if modified; one whose write-back is withheld stays (R415, R418). -/
def State.touch (s : State) (e : Nat) : State :=
  let l := e :: s.vault.cached.erase e
  let s1 : State := { s with vault := { s.vault with cached := l } }
  if l.length ≤ 48000 then s1
  else match l.reverse.find? fun x => x != e && (!(s.ventry x).modified || (s.vault.writeBack x).isSome) with
    | none => s1
    | some x =>
      let s2 := s1.writeBack x
      { s2 with vault := { s2.vault with cached := s2.vault.cached.erase x } }

/-- Vault entry replaced in the vault cache; its lines have changed (R415). -/
def State.setVentry (s : State) (e : Nat) (v : VEntry) : State :=
  let s1 := s.touch e
  { s1 with vault := { s1.vault with
    entries := tset {} s1.vault.entries e { v with modified := true }
    changed := markLines s1.vault.changed (writeLines e)
    changedExp := markLines s1.vault.changedExp (writeLines e) } }

/-- The 256 bytes of an entry (R408). -/
def VEntry.bytes (v : VEntry) (e : Nat) : Bytes :=
  let st : Byte := match v.st with
    | .empty => 0 | .enrolled => 1 | .revoked => 2
  leBytes 4 e ++ [st, BitVec.ofNat 8 (ofBits [v.hook, v.sha3]), BitVec.ofNat 8 v.slot, 0] ++
    fit 32 v.key ++ fit 32 v.prevKey ++ leBytes 8 v.hwm ++ leBytes 8 v.window.toNat ++
    leBytes 8 v.rekeySeq ++ leBytes 8 v.recCount ++ leBytes 8 v.recLimit ++ leBytes 8 v.blockCount ++
    leBytes 8 v.blockLimit ++ leBytes 4 v.keyGen ++ leBytes 4 v.foldEpoch ++ leBytes 8 v.enrollTime ++
    leBytes 8 v.revokeTime ++ fit 64 v.appletData ++ zeros 40

/-- The entry in 256 bytes. -/
def ventryOf (b : Bytes) (version : Nat) : VEntry :=
  { st := if leField b 4 1 = 1 then .enrolled else if leField b 4 1 = 2 then .revoked else .empty,
    hook := bitOf (leField b 5 1) 0, sha3 := bitOf (leField b 5 1) 1, slot := leField b 6 1,
    key := slice b 8 32, prevKey := slice b 40 32, hwm := leField b 72 8,
    window := BitVec.ofNat 64 (leField b 80 8), rekeySeq := leField b 88 8, recCount := leField b 96 8,
    recLimit := leField b 104 8, blockCount := leField b 112 8, blockLimit := leField b 120 8,
    keyGen := leField b 128 4, foldEpoch := leField b 132 4, enrollTime := leField b 136 8,
    revokeTime := leField b 144 8, appletData := slice b 152 64, version := version }

/-- The nonce of a stored entry (R413). -/
def entryNonce (e version : Nat) : Bytes := beBytes 4 e ++ beBytes 8 version
/-- The stored form of an entry: 256 bytes and tag (R413). -/
def storeEntry (vek : Bytes) (v : VEntry) (e : Nat) : Bytes × Bytes :=
  let ct := gcmX vek (entryNonce e v.version) 0 (v.bytes e)
  (ct, gcmTag vek (entryNonce e v.version) [] ct)
/-- A stored entry decrypted and verified; none when its tag fails (R413, R416). -/
def loadEntry (vek ct tag : Bytes) (e version : Nat) : Option VEntry :=
  if gcmTag vek (entryNonce e version) [] ct = tag then
    some (ventryOf (gcmX vek (entryNonce e version) 0 ct) version)
  else none

/-- A node's bytes from its children's versions (R412). -/
def nodeBytes (vmk : Bytes) (level j version : Nat) (kids : List Nat) : Bytes :=
  let body := (kids.map fun v => beBytes 7 v).flatten
  body ++ (cmac vmk ([BitVec.ofNat 8 level, 0, 0, 0] ++ beBytes 4 j ++ body ++ beBytes 8 version)).take 8
/-- Version of child `k` in a node's bytes. -/
def childVersion (b : Bytes) (k : Nat) : Nat := beNat (slice b (7 * k) 7)

/-- Versions of the children of node `j` of a level. -/
def Vault.kids (v : Vault) (level j : Nat) : List Nat :=
  (List.range 8).map fun k =>
    if level = 0 then (tget {} v.entries (8 * j + k)).version else v.node (level - 1) (8 * j + k)

/-- The root (R411). -/
def Vault.root (v : Vault) : Bytes :=
  ((List.range 4).map fun j => beBytes 7 (v.node 5 j)).flatten ++ zeros 36

/-- A charge of `recs` records and `blocks` blocks on an endpoint key may start (R409, R519). -/
def VEntry.mayCharge (v : VEntry) (recs blocks : Nat) : Bool :=
  (recs == 0 || (decide (v.recCount < v.recLimit) && decide (v.blockCount < v.blockLimit))) &&
    decide (v.blockCount + blocks ≤ v.blockLimit)

/-- The charge of an endpoint key (R409, R519). -/
def State.chargeEndpoint (s : State) (e recs blocks : Nat) : State :=
  let v := s.ventry e
  s.setVentry e { v with recCount := v.recCount + recs, blockCount := v.blockCount + blocks }

/-- Entry `e` read through the vault cache, false where its verification fails (R414, R416, R417): one of version 0
is `EMPTY` or waits in the cache without any read, and a failed one is not read again. -/
def State.readEntry (s : State) (e : Nat) : State × Bool :=
  let v := s.ventry e
  if v.failed then (s, false)
  else if s.vault.cached.elem e then (s.touch e, true)
  else if v.version = 0 then (s, true)
  else if s.vault.nodeLost (e / 8) then (s.nodeFail (e / 8), false)
  else
    let s1 := s.touchNode (e / 8)
    if s1.vault.flaws.elem (.entry e) then (s1.vaultFail e, false) else (s1.touch e, true)

/-! The pip table (R420 to R426). -/

/-- CRC-8 with polynomial 0x07 and initial value zero. -/
def crc8 (b : Bytes) : Byte :=
  b.foldl (fun c x => (List.range 8).foldl (fun (y : Byte) _ =>
    if y.getLsbD 7 then (y <<< 1) ^^^ 0x07 else y <<< 1) (c ^^^ x)) 0

/-- Bits [119:0] of an entry (R420). -/
def PipEntry.fields (p : PipEntry) : Nat :=
  p.hwm.toNat + 2 ^ 40 * p.window.toNat + 2 ^ 104 * ofBits [p.known, p.revoked, p.armed, p.parity, p.coarse] +
    2 ^ 109 * p.limit.toNat

/-- What `CHECK` must be for the fields of endpoint `e` (R420). -/
def pipCheck (fields e : Nat) : Byte := crc8 (leBytes 15 fields ++ leBytes 3 e)

/-- The 128 bits of the entry of endpoint `e` (R420). -/
def PipEntry.word (p : PipEntry) (e : Nat) : BitVec 128 :=
  BitVec.ofNat 128 (p.fields + 2 ^ 120 * (pipCheck p.fields e ^^^ p.checkErr).toNat)

/-- The entry of endpoint `e` in 128 bits. -/
def pipOf (w : BitVec 128) (e : Nat) : PipEntry :=
  let n := w.toNat
  { hwm := BitVec.ofNat 40 n, window := BitVec.ofNat 64 (n / 2 ^ 40), known := bitOf n 104, revoked := bitOf n 105,
    armed := bitOf n 106, parity := bitOf n 107, coarse := bitOf n 108, limit := BitVec.ofNat 11 (n / 2 ^ 109),
    checkErr := BitVec.ofNat 8 (n / 2 ^ 120) ^^^ pipCheck (n % 2 ^ 120) e }

/-- What the table holds for an endpoint that it does not list. -/
def Vault.pipBlank (v : Vault) (e : Nat) : PipEntry := if v.pipZeroed then pipOf 0 e else {}
/-- Pip-table entry of endpoint `e`. -/
def State.pipe (s : State) (e : Nat) : PipEntry := tget (s.vault.pipBlank e) s.vault.pip e
/-- Pip-table entry replaced. -/
def State.setPipe (s : State) (e : Nat) (p : PipEntry) : State :=
  { s with vault := { s.vault with pip := tset (s.vault.pipBlank e) s.vault.pip e p } }

/-- Bit 0 of an epoch. -/
def epochBit (k : Nat) : Bool := k % 2 == 1
/-- Armed for the epoch `k` (R421). -/
def PipEntry.armedIn (p : PipEntry) (k : Nat) : Bool := p.armed && p.parity == epochBit k
/-- The epoch limit X (R422). -/
def PipEntry.limitX (p : PipEntry) : Nat :=
  let h := p.hwm.toNat + 1
  let x := h / 65536 * 65536 + 32 * p.limit.toNat
  if x < h then x + 65536 else x
/-- An endpoint armed in epoch `k` with leap `l` (R423). -/
def PipEntry.arm (p : PipEntry) (k l : Nat) : PipEntry :=
  if p.armedIn k then p
  else
    let x := (p.hwm.toNat + l) / 32 * 32
    { p with armed := true, parity := epochBit k, limit := BitVec.ofNat 11 (x / 32) }

/-- A rebuilt pip-table entry (R425). -/
def rebuildPip (r : VRecord) (v : VEntry) : PipEntry :=
  { hwm := BitVec.ofNat 40 (min (v.hwm + (if r.pending.isSome then r.lPending else 0) + r.lOpen) (2 ^ 40 - 1)),
    window := BitVec.allOnes 64, known := v.st != .empty, revoked := v.st == .revoked, coarse := true }

/-- An access of the capture path or the vault engine to the bank of endpoint `e`: one that meets a request of the port
retries in the next cycle (R41, R496). The model takes the two to meet when they fall in one cycle of `mref`, the port
first (log entry 43, DESIGN CHOICE). -/
def State.meetBank (s : State) (e : Nat) : State :=
  if tget 0 s.pip.bankAt (e % 16) = s.tick + 1 then
    { s with vlt := { s.vlt with bankRetry := tmod 0 s.vlt.bankRetry (e % 16) fun n => min (n + 1) (2 ^ 32 - 1) } }
  else s

/-- A pip-table entry whose CHECK failed rebuilt from its vault entry (R425, R426). Where that entry cannot be read
the table is unchanged and CHECK goes on failing (R417). -/
def State.rebuild (s : State) (e : Nat) : State :=
  if s.vault.st = .none ∨ s.vault.st = .moved then s
  else
    let r := (s.meetBank e).readEntry e
    if !r.2 then r.1
    else
      let s1 := ({ r.1 with vlt := { r.1.vlt with
        bankChkerr := tmod 0 r.1.vlt.bankChkerr (e % 16) fun n => min (n + 1) (2 ^ 32 - 1) } } : State).bump 18 8 1
      let s2 := s1.setPipe e (rebuildPip s1.vault.record (s1.ventry e))
      -- an entry rebuilt after its fold is in no export yet
      { s2 with vault := { s2.vault with
        coarseFold := s2.vault.coarseFold.filter (fun x => x != e)
        coarseOut := s2.vault.coarseOut.filter fun x => x != e } }

/-- An entry whose CHECK holds: the vault engine's own operations rebuild one whose CHECK fails before they use it
(R425; log entry 50, DEDUCED). -/
def State.soundPip (s : State) (e : Nat) : State := if (s.pipe e).checkErr = 0 then s else s.rebuild e

/-! Bitmaps (R427, R686, R705). -/

/-- Page `p` of page set `k mod 16`. -/
def bitmapPage (epoch p : Nat) : Nat := epoch % 16 / 4 * 4096 + 512 * (epoch % 4) + p
/-- The endpoint is dirty in an epoch. -/
def State.dirty (s : State) (epoch e : Nat) : Bool :=
  bitOf (byteAt (s.nvm.page (bitmapPage epoch (e / 2048))) (e / 8 % 256)).toNat (e % 8)
/-- Some bit of a page set is set. -/
def State.setHolds (s : State) (set : Nat) : Bool :=
  (List.range 512).any fun p => s.nvm.page (bitmapPage set p) != zeros 256
/-- The page sets of the open and of the pending epoch. -/
def VRecord.sets (r : VRecord) : List Nat :=
  r.openEpoch % 16 :: (match r.pending with
    | some p => [p % 16]
    | none => [])
/-- Page sets that no epoch needs are to be cleared (R427). -/
def State.releaseSets (s : State) : State :=
  let l := (List.range 16).filter fun k =>
    !(s.vault.record.sets.elem k) && !(s.vault.clearing.elem k) && s.setHolds k
  { s with vault := { s.vault with clearing := s.vault.clearing ++ l } }
/-- The crown clears a page set: zeros written to each of its pages, in the port's last class (R427, R705, R706). -/
def State.clearSet (s : State) (set : Nat) : State :=
  s.askPages ((List.range 512).map fun p => ⟨6, bitmapPage set p, zeros 256, .clear set (p == 511)⟩)
/-- The pages of a set are being cleared. -/
def State.setClearing (s : State) (set : Nat) : Bool :=
  (s.nvm.writing.toList ++ s.nvm.queue ++ s.nvm.moving.map (·.1)).any fun w => match w.kind with
    | .clear k _ => k == set
    | _ => false
/-- A page set has been cleared (R427). -/
def State.setCleared (s : State) (set : Nat) : State :=
  { s with nvm := { s.nvm with bmWeak := s.nvm.bmWeak.filter fun x => x != set }
           vault := { s.vault with clearing := s.vault.clearing.erase set } }

/-! Folds and cuts (R430, R431, R433). -/

/-- Entry `e` folded with its pip-table values (R428, R431), or not, where its vault entry cannot be read and the table
stays unchanged (R417). One whose CHECK fails is rebuilt instead, so that the next cut folds it (R426). -/
def State.tryFold (s : State) (e : Nat) : State × Bool :=
  let s0 := ({ s with vault := { s.vault with fold := s.vault.fold.erase e } } : State).meetBank e
  let p := s0.pipe e
  if p.checkErr ≠ 0 then (s0.rebuild e, true)
  else
    let r := s0.readEntry e
    if !r.2 then (r.1, false)
    else
      let s1 := r.1.setVentry e { r.1.ventry e with
        hwm := p.hwm.toNat, window := p.window, foldEpoch := s.vault.record.pending.getD 0 }
      let s2 := s1.setPipe e { p with armed := false }
      ({ s2 with vault := { s2.vault with
        coarseFold := if p.coarse then e :: s2.vault.coarseFold else s2.vault.coarseFold } }, true)

/-- The same, in the fold pass. -/
def State.foldEntry (s : State) (e : Nat) : State := (s.tryFold e).1

/-- The cut (R431, R433, R438, R448): the record of the new epoch is in force; what was armed in the closed
epoch, or is `COARSE`, is to be folded. -/
def State.vaultCut (s : State) (f : ChkForm) : State :=
  let closed := s.vault.record.pending.getD 0
  let l := (s.vault.pip.filter fun x => x.2.armedIn closed || x.2.coarse).map (·.1)
  { s with vault := { s.vault with
    fold := l, foldBusy := true, coarseFold := [], coarseOut := [], job := some (.exporting f)
    moveTarget := if f.move then f.target else s.vault.moveTarget } }

/-- The effects of a commit beside the record (R426, R437, R442): `COARSE` cleared in what the export's fold
covered, or in every entry when no epoch was cut; the changes before the export no longer count. -/
def State.vaultCommitted (s : State) : State :=
  let all := s.vault.st = .recovering
  let pip := s.vault.pip.map fun x =>
    if all || s.vault.coarseOut.elem x.1 then (x.1, { x.2 with coarse := false }) else x
  { s with vault := { s.vault with
    pip := pip, coarseFold := [], coarseOut := [], changed := s.vault.changedExp, written := s.vault.writtenExp, lastExport := none } }

/-- The empty vault (R453). -/
def State.vaultEmpty (s : State) : State :=
  { s with vault := { s.vault with
    entries := [], stored := [], nodes := [], cached := [], l0 := [], flaws := [], pip := [], pipZeroed := false,
    arms := [], batching := false, fold := [], foldBusy := false, coarseFold := [], coarseOut := [], changed := [], changedExp := [],
    written := [], writtenExp := [], lastExport := none, job := none } }

end Sys2Proof.Machine
end

