-- ==== Sys2Proof/Machine/Facet.lean ====
section
/-!
DEFINITION. Facets as the ring engine and the scheduler see them: which serve, contexts and staging in
use, choice of a facet, segments and their charges (R179 to R187, R263 to R271, R516 to R523).
-/

namespace Sys2Proof.Machine

/-- Service state of facet `f` (R782). -/
def State.fctState (s : State) (f : Nat) : FctSt := tget .untested s.start.facets f
/-- Facets that take work: in S3 the narrow facet alone (R773). -/
def State.serving (s : State) : List Nat :=
  (List.range 16).filter fun f =>
    if s.start.stage = 4 then s.fctState f == .inService || s.fctState f == .narrow
    else s.start.stage == 3 && !s.start.stuck && s.fctState f == .narrow
/-- Lanes that run segments: eight, or lane 0 alone in S3 (R773). -/
def State.lanes (s : State) : List Nat := if s.start.stage = 4 then List.range 8 else [0]

/-- Cipher contexts in use on facet `f` (R263, R516). -/
def State.cipherUsed (s : State) (f : Nat) : Nat :=
  ((s.facet f).msgs.filter fun m => match m.kind with
    | .digest _ => false
    | _ => true).length
/-- Digest contexts in use on facet `f` (R288). -/
def State.digUsed (s : State) (f : Nat) : Nat := ((s.facet f).digs.filter fun e => e.2.isSome).length

/-- On-chip staging in use on facet `f`, of 768 KiB (R32). -/
def State.onChipUsed (s : State) (f : Nat) : Nat :=
  ((s.facet f).msgs.map (·.onChip)).foldl (· + ·) 0
/-- GDDR6 staging in use by the four facets of a cluster (R36). -/
def State.gddrUsed (s : State) (c : Nat) : Nat :=
  ((List.range 4).flatMap fun i => (s.facet (4 * c + i)).msgs.map (·.gddrBytes)).foldl (· + ·) 0
/-- Bytes of GDDR6 staging of a cluster (R38). -/
def State.gddrSize (s : State) : Nat :=
  if s.start.gddrTrained then (if s.glb.clamshell then 3968 else 1920) * 2 ^ 20 else 0

/-- How a facet would stage `n` bytes: on chip or in GDDR6; `own` is the 512 bytes a capture holds
beside its record (R516, R522). None when it cannot; GDDR6 staging needs the facet's staging key
(log entry 52, DESIGN CHOICE). -/
def State.stagePlan (s : State) (f n own : Nat) : Option (Nat × Nat) :=
  if n ≤ 262144 ∧ s.onChipUsed f + n + own ≤ 786432 then some (n + own, 0)
  else if own ≠ 0 ∨ 262144 < n then
    if s.onChipUsed f + own ≤ 786432 ∧ s.gddrUsed (f / 4) + n ≤ s.gddrSize ∧ (s.facet f).stageKey.isSome then
      some (own, n)
    else none
  else none

/-- Bytes at offset `off` of a message's staging, into or out of the form in which it holds them: GDDR6 holds
ciphertext under the facet's staging key (R236), with AES-256 in counter mode under the message's number
(log entry 52, DESIGN CHOICE). -/
def State.stageX (s : State) (f : Nat) (m : Msg) (off : Nat) (b : Bytes) : Bytes :=
  match (s.facet f).stageKey with
  | some k => if m.gddrBytes = 0 then b else gcmX k (leBytes 12 m.id) off b
  | none => b

/-- The tags of staged bytes: 16 bytes for every 4 KiB in GDDR6, none on chip (R524). Their form is that of GCM under the
staging key (log entry 52, DESIGN CHOICE). -/
def State.stageTags (s : State) (f : Nat) (m : Msg) (b : Bytes) : List Bytes :=
  match (s.facet f).stageKey with
  | some k => if m.gddrBytes = 0 then []
    else (List.range (ceilDiv b.length 4096)).map fun i =>
      gcmTag k (leBytes 8 m.id ++ leBytes 4 i) [] (slice b (4096 * i) (min 4096 (b.length - 4096 * i)))
  | none => []

/-- A message that has staged further output. -/
def State.stagePut (s : State) (f : Nat) (m : Msg) (b : Bytes) : Msg :=
  let all := m.staged ++ s.stageX f m m.staged.length b
  { m with staged := all, tags := s.stageTags f m all }

/-- Staged output read back; none where a block in GDDR6 fails its tag, as a disturbed one does (R524). -/
def State.stageGet (s : State) (f : Nat) (m : Msg) (disturbed : Bool) : Option Bytes :=
  if s.stageTags f m m.staged = m.tags ∧ !(disturbed && !m.tags.isEmpty) then some (s.stageX f m 0 m.staged) else none

/-- The first of the facets with the least count (R266, R291). -/
def leastOf (count : Nat → Nat) (l : List Nat) : Option Nat :=
  l.foldl (fun best f => match best with
    | none => some f
    | some b => if count f < count b then some f else some b) none

/-- The facet for a message that needs a cipher context and staging (R237, R263, R266, R523):
`spare` contexts must be free before it. -/
def State.pickFacet (s : State) (spare need own : Nat) : Option Nat :=
  leastOf s.cipherUsed (s.serving.filter fun f =>
    decide (s.cipherUsed f + spare ≤ 256) && (need + own == 0 || (s.stagePlan f need own).isSome))

/-- Round-robin choice among ranks, from the pointer upwards, wrapping (R39). -/
def rrPick (ptr : Nat) (ranks : List Nat) : Option Nat :=
  match (ranks.filter (ptr ≤ ·)).min? with
  | some x => some x
  | none => ranks.min?

/-- The pointer after a grant (R40). -/
def rrNext (n winner : Nat) : Nat := (winner + 1) % n

/-! Segments (R264). -/

/-- Where an XTS message of `total` bytes in units of `du` bytes is cut near offset `x` (R264): 16 bytes
earlier between the last full block and the partial block of a unit. -/
def xtsCut (total du x : Nat) : Nat :=
  let u := x / du
  let len := min du (total - u * du)
  if len % 16 ≠ 0 ∧ x % du = len / 16 * 16 ∧ 16 ≤ x % du then x - 16 else x

/-- Data units of a capture: the last takes a rest below 16 bytes (R518). -/
def captureUnit (b z u : Nat) : Nat × Nat :=
  let n := if b ≤ z then 1 else if b % z = 0 then b / z else if 16 ≤ b % z then b / z + 1 else b / z
  let i := min u (n - 1)
  (i * z, if i + 1 = n then b - i * z else z)

/-- The input length of a message's next segment (R264). After an XTS segment that ended 16 bytes early, the next one
takes 65,536 bytes from there on (log entry 53, DEDUCED). -/
def segLen (m : Msg) : Nat :=
  let left := m.inLen - m.pos
  if left ≤ 65536 then left
  else match m.kind with
    | .cipher c =>
      if c.op = Op.aesXts.code ∧ 0 < c.duLen then
        xtsCut c.declared c.duLen (c.consumed + 65536) - c.consumed
      else 65536
    | .digest _ => 65536
    | .capture c =>
      let b := m.inLen - 80
      let x := m.pos + 65536 - 64
      let u := captureUnit b c.sectorSize (x / c.sectorSize)
      if u.2 % 16 ≠ 0 ∧ x = u.1 + u.2 / 16 * 16 then 65536 - 16 else 65536

/-- Overlap of the segment `[pos, pos + n)` with the range `[lo, hi)`. -/
def overlapLen (pos n lo hi : Nat) : Nat := min (pos + n) hi - max pos lo

/-- Blocks for `b` bytes (R179). -/
def blocksOf (b : Nat) : Nat := ceilDiv b 16

/-- The nonce of a device-made invocation: `FIXED_FIELD` and the count before the charge (R187). -/
def deviceNonce (k : KeySlot) : Bytes := beBytes 4 k.fixedField.toNat ++ beBytes 8 k.invCount

/-- The charge of a message's next segment, of `n` input bytes: the state after it and the message with
what it now holds; none when a key's limit forbids the segment (R180, R252, R300, R519). -/
def State.chargeSegment (s : State) (f : Nat) (m : Msg) (n : Nat) : Option (State × MsgKind) :=
  match m.kind with
  | .cipher c =>
    let i := handleIndex c.key.toNat
    let inv := if m.first then 1 else 0
    if (s.slot i).mayCharge inv (blocksOf n) then
      let devn := bitOf c.ctl.toNat 1 && m.first
      let nonce := deviceNonce (s.slot i)
      let s1 := s.modSlot i fun k => k.charge inv (blocksOf n)
      let s2 := if devn then s1.writeOut m.ring [{ addr := m.param, len := 12 }] 0 nonce else s1
      some (s2, .cipher { c with
        iv := if devn then nonce else c.iv,
        invCharged := c.invCharged + inv, blocksCharged := c.blocksCharged + blocksOf n })
    else none
  | .digest x =>
    match s.dig f x with
    | none => none
    | some c =>
      if c.key = 0 then some (s, m.kind)
      else
        let i := handleIndex c.key.toNat
        let inv := if c.invCharged = 0 then 1 else 0
        if (s.slot i).mayCharge inv (blocksOf n) then
          some (((s.modSlot i fun k => k.charge inv (blocksOf n)).setDig f x
            (some { c with invCharged := 1, blocksCharged := c.blocksCharged + blocksOf n })), m.kind)
        else none
  | .capture c =>
    let i := handleIndex c.archive.toNat
    let inv := if m.first then 1 else 0
    let eb := blocksOf (overlapLen m.pos n 0 (m.inLen - 16))
    let ab := blocksOf (overlapLen m.pos n 64 (m.inLen - 16))
    if (s.slot i).mayCharge inv ab && (s.ventry c.endpoint).mayCharge inv eb then
      some ((s.modSlot i fun k => k.charge inv ab).chargeEndpoint c.endpoint inv eb, .capture { c with
        archInv := c.archInv + inv, archBlocks := c.archBlocks + ab,
        endInv := c.endInv + inv, endBlocks := c.endBlocks + eb })
    else none

/-- The vault entry of a capture read for the charge of its next segment, false where that fails; other messages
need none (R409, R416). -/
def State.readCharged (s : State) (m : Msg) : State × Bool :=
  match m.kind with
  | .capture c => s.readEntry c.endpoint
  | _ => (s, true)

/-! Key-schedule caches (R873). -/

/-- The AES keys of a segment of a message, each with the entries its schedules take: one, or two for an XTS key. A
digest uses none. -/
def State.segKeys (s : State) (m : Msg) : List (List SchedKey) :=
  let ofSlot := fun (h : Word32) =>
    let i := handleIndex h.toNat
    let t := (s.slot i).type.toNat
    if t = 3 ∨ t = 4 then [SchedKey.slot i 0, .slot i 1] else [.slot i 0]
  match m.kind with
  | .cipher c => [ofSlot c.key]
  | .digest _ => []
  | .capture c => [[.endpoint c.endpoint], ofSlot c.archive]

/-- A cache after a segment start with the keys `ks`: the least recently used of its 32 entries make room. -/
def cacheUse (cache : List SchedKey) (ks : List (List SchedKey)) : List SchedKey :=
  ks.foldl (fun c k => (k ++ c.filter fun x => !k.elem x).take 32) cache

/-- Keys of `ks` whose schedules are not all in the cache when their turn comes. -/
def cacheMiss (cache : List SchedKey) (ks : List (List SchedKey)) : Nat :=
  (ks.filter fun k => !k.all fun x => cache.elem x).length

/-- A segment started on a lane uses its tile's cache; misses count in counter 7 of the facet (R784). -/
def State.useSched (s : State) (f lane : Nat) (m : Msg) : State :=
  let t := lane / 4
  let c := (s.facet f).tiles.getD t []
  let ks := s.segKeys m
  (s.modFacet f fun x => { x with tiles := x.tiles.set t (cacheUse c ks) }).bump (1 + f) 7 (cacheMiss c ks)

/-- The ready messages of a facet: dispatched, or parked (R267). -/
def readyMsgs (x : Facet) : List Msg := x.msgs.filter fun m => m.st == .ready || m.st == .parked

/-- The message that takes a lane: highest class, rings in round-robin order, oldest of its ring
(R267). -/
def nextMsg (x : Facet) : Option Msg :=
  let l := readyMsgs x
  let c := (l.map (·.clsNow)).foldl max 0
  let top := l.filter fun m => m.clsNow == c
  match rrPick (tget 0 x.rr c) (top.map (·.ring)) with
  | none => none
  | some r => top.find? fun m => m.ring == r

/-- A message put on a lane: its next segment charged, or the message ended with `KEY_SPENT`. A message
whose ring was aborted ends instead (R142, R273). -/
def State.startOn (s : State) (f lane : Nat) (m : Msg) : State :=
  let n := segLen m
  let r := s.readCharged m
  if m.aborted then s.endMsg f m { status := .aborted, step := 8 }
  else if !r.2 then r.1.endMsg f m { status := .vaultIntegrity, step := 8, off := some m.pos }
  else match r.1.chargeSegment f m n with
    | none => r.1.endMsg f m { status := .keySpent, step := 8, off := some m.pos }
    | some (s1, k) =>
      let s2 := s1.modFacet f fun x => { x with rr := tset 0 x.rr m.clsNow (rrNext 512 m.ring) }
      ((s2.modMsg f m.id fun y => { y with
        kind := k, st := .onLane lane n, clsNow := m.cls, first := false }).bump (1 + f) 0 1).useSched f lane m

/-- The lane is idle. -/
def laneFree (x : Facet) (lane : Nat) : Bool :=
  x.msgs.all fun m => match m.st with
    | .onLane l _ => l != lane
    | _ => true

/-- Segments started on an idle lane until one runs or no message is ready; `n` bounds the messages
ended on the way. No segment starts in HALT (R635). -/
def State.startLane (s : State) (f lane : Nat) : Nat → State
  | 0 => s
  | n + 1 =>
    if s.halted || !laneFree (s.facet f) lane then s
    else match nextMsg (s.facet f) with
      | none => s
      | some m => (s.startOn f lane m).startLane f lane n

/-- Every idle lane of a serving facet given its next segment. -/
def State.fillLanes (s : State) (f : Nat) : State :=
  if s.serving.elem f then
    s.lanes.foldl (fun a l => a.startLane f l (1 + (a.facet f).msgs.length)) s
  else s

/-- A message added to a facet. -/
def State.addMsg (s : State) (f : Nat) (m : Msg) : State :=
  s.modFacet f fun x => { x with msgs := x.msgs ++ [{ m with id := x.nextId }], nextId := x.nextId + 1 }

end Sys2Proof.Machine
end

