-- ==== Sys2Proof/Machine/Cipher.lean ====
section
/-!
DEFINITION. The symmetric cipher engine (chapter 5): body checks, reading, opening and continuing
messages, segments, endings. The meanings of the cipher descriptors stand with those of every
descriptor in Post.lean.
-/

namespace Sys2Proof.Machine

/-- The cipher operation of a descriptor's opcode. -/
def Desc.is (d : Desc) (o : Op) : Bool := d.opcode == o.code

/-- Family of an opcode. -/
def Desc.family (d : Desc) : Nat := d.opcode.toNat / 256

/-! Fields of the cipher body (R221). -/

/-- `CIPHER_CTL`. -/
def Desc.ctl (d : Desc) : Nat := d.fld 20 1
/-- `DIR`: decrypt, verify or unwrap. -/
def Desc.dir (d : Desc) : Bool := bitOf d.ctl 0
/-- The chain a descriptor names: none for an unchained one. -/
def Desc.chain (d : Desc) : Option Nat := if d.more || d.cont then some (d.fld 22 1) else none
/-- The descriptor opens its message. -/
def Desc.opens (d : Desc) : Bool := !d.cont
/-- The descriptor closes its message. -/
def Desc.closes (d : Desc) : Bool := !d.more

/-- A parameter block is needed (R224). -/
def needsParam (d : Desc) : Bool :=
  (d.opens && (d.is .aesCbc || d.is .aesCtr || d.is .aesGcm || d.is .aesXts)) ||
    (d.closes && d.dir && (d.is .aesGcm || d.is .aesCmac))

/-- `TAG_LEN` values of R223. -/
def tagLenOk (d : Desc) : Bool :=
  let t := d.fld 21 1
  if d.is .aesGcm then t == 4 || t == 8 || (decide (12 ≤ t) && decide (t ≤ 16))
  else if d.is .aesCmac then decide (4 ≤ t) && decide (t ≤ 16)
  else t == 0

/-- The output length of a KW or KWP descriptor, the largest for a KWP unwrap (R249). -/
def kwOut (d : Desc) : Nat :=
  let n := d.declLen.toNat
  if d.dir then n - 8 else if bitOf d.ctl 3 then ceilDiv n 8 * 8 + 8 else n + 8

/-- Output bytes that step 5 can require of a plain `OUT` (R111): the input length of a descriptor is its
`DECLARED_LENGTH` outside a chain and in a chain that of a plain `IN`. The payload of GCM is known only from the
parameter block or the chain, the output of a KWP unwrap only from the recovered header. -/
def plainNeed (d : Desc) : Option Nat :=
  if d.is .aesGcm || d.is .aesCmac then none
  else if d.is .aesKw then (if d.dir && bitOf d.ctl 3 then none else some (kwOut d))
  else if d.chain.isNone then some d.declLen.toNat
  else if (d.ref 32).sgl then none
  else some (d.ref 32).len

/-- The body checks of step 5 (R221 to R224, R239, R256, R261, R274). -/
def cipherCheck5 (d : Desc) : Bool :=
  if d.is .cipherDrop then
    d.declLen == 0 && allZero (d.bytes 16 6) && allZero (d.bytes 24 40)
  else
    let p := d.fld 24 8
    handleOk 1 (d.fld 16 4) && decide (d.ctl < 16) &&
    (!bitOf d.ctl 3 || d.is .aesKw) && (!bitOf d.ctl 1 || (d.is .aesGcm && !d.dir)) &&
    (!bitOf d.ctl 2 || (d.is .aesGcm && d.dir)) && tagLenOk d &&
    (d.chain.isSome || d.fld 22 1 == 0) &&
    (if needsParam d then p != 0 && p % 64 == 0 else p == 0) &&
    (!d.cont || d.declLen == 0) &&
    (!(d.is .aesGcm && d.dir && d.chain.isSome) || bitOf d.ctl 2) &&
    (if d.cont then (d.ref 32).isZero || (d.ref 32).ok
     else if d.declLen = 0 then (d.ref 32).isZero else (d.ref 32).ok) &&
    (if d.is .aesCmac || (d.ref 32).isZero then (d.ref 48).isZero else (d.ref 48).isZero || (d.ref 48).ok) &&
    -- R111, for plain buffers whose output length is known here
    ((d.ref 48).sgl || match plainNeed d with
      | some n => decide (n ≤ (d.ref 48).len)
      | none => true)

/-! The parameter block (R225). -/

/-- Its fields in range, those the mode does not use zero (R225). -/
def paramOk (d : Desc) (b : Bytes) : Bool :=
  let op := d.opens
  let ivUse := op && (d.is .aesCbc || d.is .aesCtr || d.is .aesGcm || d.is .aesXts)
  let tag := d.closes && d.dir && (d.is .aesGcm || d.is .aesCmac)
  (if ivUse then
     (if d.is .aesGcm then allZero (slice b 12 4) && (!bitOf d.ctl 1 || allZero (slice b 0 12)) else true)
   else allZero (slice b 0 16)) &&
  (if op && d.is .aesGcm then
     decide (leField b 16 8 ≤ 2 ^ 32 - 1) && decide (leField b 16 8 ≤ d.declLen.toNat)
   else leField b 16 8 == 0) &&
  (if op && d.is .aesXts then decide (16 ≤ leField b 24 4) && decide (leField b 24 4 ≤ 16777216)
   else leField b 24 4 == 0) &&
  (if op && d.is .aesCtr then leField b 28 1 == 32 || leField b 28 1 == 64 || leField b 28 1 == 128
   else leField b 28 1 == 0) &&
  allZero (slice b 29 3) &&
  (if tag then allZero (slice b (32 + d.fld 21 1) (16 - d.fld 21 1)) else allZero (slice b 32 16)) &&
  allZero (slice b 48 16)

/-- A block of host memory read at step 6 (R225, R506). -/
def State.readBlock (s : State) (env : Env) (a n : Nat) : Except Bad Bytes :=
  match s.hostFetch env a n with
  | .error e => .error { status := .dmaFault, step := 6, dma := some (a, e, 5) }
  | .ok b => .ok b

/-- Output bytes that step 6 requires of `OUT` (R111). A KWP unwrap learns its length only from the recovered header,
and a GCM descriptor with `CONT` only from its chain: they are checked then. -/
def cipherOutNeed (d : Desc) (inSum aad : Nat) : Nat :=
  let n := if d.chain.isNone then d.declLen.toNat else inSum
  if d.is .aesCmac || d.is .cipherDrop then 0
  else if d.is .aesGcm then (if d.opens then n - aad else 0)
  else if d.is .aesKw then (if d.dir && bitOf d.ctl 3 then 0 else kwOut d)
  else n

/-- A failure of step 6 without further detail. -/
def bad6 : Bad := { status := .descMalformed, step := 6 }

/-- Steps 6 and 7 of a cipher descriptor: lists, parameter block, lengths (R109 to R111, R225, R239). -/
def cipherRead (s : State) (env : Env) (d : Desc) : Except Bad (List Ext × List Ext × Bytes) :=
  match s.walkRef env (d.ref 32), s.walkRef env (d.ref 48) with
  | .error e, _ => .error e
  | _, .error e => .error e
  | .ok ins, .ok outs =>
    let blk := if needsParam d then s.readBlock env (d.fld 24 8) 64 else .ok (zeros 64)
    match blk with
    | .error e => .error e
    | .ok b =>
      let aad := leField b 16 8
      if !paramOk d b then .error bad6
      else if d.opens && !d.more && d.is .aesGcm && d.dir && !bitOf d.ctl 2 &&
          decide (67108864 < d.declLen.toNat - aad) then .error bad6
      else if extsLen outs < cipherOutNeed d (extsLen ins) aad then .error bad6
      else if d.is .aesGcm && d.opens && cipherOutNeed d (extsLen ins) aad == 0 && !(d.ref 48).isZero then .error bad6
      else if d.chain.isNone && extsLen ins != d.declLen.toNat then
        .error { status := .lengthMismatch, step := 7 }
      else .ok (ins, outs, b)

/-! Opening a message (step 8). -/

/-- The mode allows the key's type and attributes (R217 to R220, R177). -/
def cipherSuits (d : Desc) (k : KeySlot) : Bool :=
  let t := k.type.toNat
  let typ := if d.is .aesXts then t == 3 || t == 4 else t == 1 || t == 2
  let attr := if d.is .aesCmac then hasAttr k 2 else if d.dir then hasAttr k 1 else hasAttr k 0
  let half := k.material.length / 2
  typ && attr && (!d.is .aesEcb || hasAttr k 7) &&
    (!d.is .aesXts || k.material.take half != k.material.drop half) &&
    (!(d.is .aesGcm && !d.dir) || hasAttr k 8 == bitOf d.ctl 1)

/-- The limits of R251 (R230 to R234, R245, R247, R249). -/
def cipherLimit (d : Desc) (b : Bytes) : Option Status :=
  let n := d.declLen.toNat
  if d.is .aesEcb || d.is .aesCbc then if n = 0 ∨ n % 16 ≠ 0 then some .lengthLimit else none
  else if d.is .aesCtr then
    let w := leField b 28 1
    if n = 0 then some .lengthLimit
    else if 2 ^ w < beNat (slice b (16 - w / 8) (w / 8)) + blocksOf n then some .counterWrap else none
  else if d.is .aesGcm then if 2 ^ 36 - 32 < n - leField b 16 8 then some .lengthLimit else none
  else if d.is .aesXts then
    let du := leField b 24 4
    if n < 16 ∨ (n % du ≠ 0 ∧ n % du < 16) then some .lengthLimit
    else if 2 ^ 128 < leField b 0 16 + ceilDiv n du then some .counterWrap else none
  else if d.is .aesKw then
    let ok := match bitOf d.ctl 3, d.dir with
      | false, false => decide (16 ≤ n) && decide (n ≤ 4096) && n % 8 == 0
      | false, true => decide (24 ≤ n) && decide (n ≤ 4104) && n % 8 == 0
      | true, false => decide (1 ≤ n) && decide (n ≤ 4096)
      | true, true => decide (16 ≤ n) && decide (n ≤ 4104) && n % 8 == 0
    if ok then none else some .lengthLimit
  else none

/-- The message's output is held until its end (R236). -/
def heldMsg (d : Desc) : Bool :=
  d.dir && (d.is .aesKw || (d.is .aesGcm && !bitOf d.ctl 2))

/-- Bytes a held message stages. -/
def heldBytes (d : Desc) (b : Bytes) : Nat :=
  if !heldMsg d then 0 else if d.is .aesKw then kwOut d else d.declLen.toNat - leField b 16 8

/-- What a cipher message starts with. -/
def cipherInit (d : Desc) (b : Bytes) : CipherSt where
  op := d.opcode
  ctl := BitVec.ofNat 8 d.ctl
  key := BitVec.ofNat 32 (d.fld 16 4)
  tagLen := d.fld 21 1
  iv := slice b 0 16
  aadLen := leField b 16 8
  duLen := leField b 24 4
  ctrWidth := leField b 28 1
  expTag := slice b 32 (d.fld 21 1)
  chain := slice b 0 16
  pend := []
  acc := []
  ct := []
  declared := d.declLen.toNat
  consumed := 0
  invCharged := 0
  blocksCharged := 0

/-- An opening descriptor that fails: its `CHAIN_ID` becomes `ENDED` (R254). -/
def State.failOpen (s : State) (r seq : Nat) (d : Desc) (b : Bad) : State :=
  (s.setChain r (if d.opens then d.chain else none) (.ended 0)).finishBad r seq d b

/-- An opening descriptor that fails before its `CHAIN_ID` is looked at: an open chain of that name is left as it was,
for only a descriptor with `CONT` ends it (R254, R274; log entry 48, DEDUCED). -/
def State.failOpening (s : State) (r seq : Nat) (d : Desc) (b : Bad) : State :=
  match d.chain.map fun c => tget .free (s.ring r).chains c with
  | some (.opened _) => s.finishBad r seq d b
  | _ => s.failOpen r seq d b

/-- Intermediate input of a chain: a non-zero multiple of 16, whole data units for XTS (R258). -/
def middleOk (c : CipherSt) (n : Nat) : Bool :=
  n != 0 && n % 16 == 0 && (c.op != Op.aesXts.code || n % c.duLen == 0)

/-- A failure of step 8. -/
def bad8 (st : Status) : Bad := { status := st, step := 8 }

/-- The message of a descriptor that has passed its checks. -/
def cipherMsg (r seq : Nat) (d : Desc) (cls : Nat) (c : CipherSt) (ins outs : List Ext)
    (plan : Nat × Nat) : Msg where
  id := 0
  ring := r
  seq := seq
  chain := d.chain
  cls := cls
  clsNow := cls
  kind := .cipher c
  st := .ready
  ins := ins
  outs := outs
  inLen := extsLen ins
  pos := 0
  outPos := 0
  first := true
  staged := []
  held := heldMsg d
  onChip := plan.1
  gddrBytes := plan.2
  param := d.fld 24 8
  aborted := false

/-- A function's class cap, and the class a descriptor is served at (R105). -/
def State.servedClass (s : State) (r : Nat) (d : Desc) : Nat :=
  min d.cls.toNat (s.fn (fnOf r)).classCap.toNat

/-- What the ring engine does with a descriptor that only a facet can take: hold it, keeping what steps
6 and 7 have read (R237, R263, R290, R523). -/
def State.holdWork (s : State) (r seq : Nat) (got : List Ext × List Ext × Bytes) (need : Nat) : State :=
  s.modRing r fun x => { x with work := x.work.map fun w =>
    if w.seq = seq then { w with phase := .fetched, got := some got, need := need } else w }

/-- The class of a work in the ring engine, with its raises (R121, R271). -/
def State.workClass (s : State) (r seq : Nat) : Nat := (((s.ring r).find seq).map (·.cls)).getD 0

/-- Step 8 of an unchained or opening cipher descriptor (R255, R274), ending in a message of a facet. -/
def cipherOpen (s : State) (r seq : Nat) (d : Desc) (ins outs : List Ext) (b : Bytes) : State :=
  let i := handleIndex (d.fld 16 4)
  let k := s.slot i
  let c := cipherInit d b
  let need := heldBytes d b
  let fail := fun st => s.failOpen r seq d (bad8 st)
  let busy : Bool := match d.chain with
    | some x => (match tget .free (s.ring r).chains x with
      | .opened _ => true
      | _ => false)
    | none => false
  if busy then s.finishBad r seq d (bad8 .contextBusy)
  else if d.more && !middleOk c (extsLen ins) then fail .descMalformed
  else match slotCheck k (fnOf r) (cipherSuits d k) with
    | some st => fail st
    | none =>
      match cipherLimit d b with
      | some st => fail st
      | none =>
        if d.more && (s.pickFacet 17 0 0).isNone then fail .contextLimit
        else if decide (262144 < need) && s.start.stage != 4 then fail .bringup
        else if decide (262144 < need) && s.start.gddrOut then fail .stagingFull
        else if d.more && decide (c.declared < extsLen ins) then fail .lengthMismatch
        else match s.pickFacet (if d.more then 17 else 1) need 0 with
          | none => s.holdWork r seq (ins, outs, b) need
          | some f =>
            let plan := if need = 0 then (0, 0) else (s.stagePlan f need 0).getD (0, 0)
            let m := cipherMsg r seq d (s.servedClass r d) c ins outs plan
            let s1 := (s.reserve i).modRing r fun x => x.setPhase seq .active
            let s2 := match d.chain with
              | some x => s1.setChain r (some x) (.opened f)
              | none => s1
            s2.addMsg f { m with clsNow := s.workClass r seq }

/-! Continuing a chain (R257 to R262). -/

/-- The message of a chain on facet `f`. -/
def State.chainMsg (s : State) (f r x : Nat) : Option Msg :=
  (s.facet f).msgs.find? fun m => m.ring == r && m.chain == some x

/-- The output that a `CONT` descriptor of `n` input bytes produces. -/
def contOut (c : CipherSt) (n : Nat) : Nat :=
  if c.op = Op.aesCmac.code then 0
  else if c.op = Op.aesGcm.code then overlapLen c.consumed n c.aadLen c.declared
  else n

/-- A chain message goes on with the `CONT` descriptor that the facet has reached, or ends (R257 to R259,
R261). The `TAG_LEN` of the opening descriptor holds to the end (R248; log entry 63, DESIGN CHOICE). -/
def contStart (s : State) (f : Nat) (m : Msg) (q : Queued) (d : Desc) : State :=
  let endWith := fun b => s.endMsg f { m with seq := q.seq, st := .ready, pos := 0 } b
  match m.kind with
  | .cipher c =>
    match q.bad with
    | some b => endWith b
    | none =>
      if d.is .cipherDrop then
        let s1 := ((s.giveBack f m).dropMsg f m.id).setChain m.ring m.chain .free
        (s1.bump (1 + f) 2 1).finishDone q.ring q.seq d 0 (leBytes 8 c.consumed)
      else
        let n := extsLen q.ins
        let gcm := d.is .aesGcm && d.opcode == c.op
        if gcm && (decide (extsLen q.outs < contOut c n) || (contOut c n == 0 && !(d.ref 48).isZero)) then endWith bad6
        else if d.opcode ≠ c.op ∨ d.fld 16 4 ≠ c.key.toNat ∨ d.ctl ≠ c.ctl.toNat then
          endWith (bad8 .descMalformed)
        else if d.more && !middleOk c n then endWith (bad8 .descMalformed)
        else if c.declared < c.consumed + n then endWith (bad8 .lengthMismatch)
        else
          let c1 := if needsParam d then { c with expTag := slice q.block 32 c.tagLen } else c
          (s.modMsg f m.id fun y => { y with
            seq := q.seq, kind := .cipher c1, st := .ready, ins := q.ins, outs := q.outs, inLen := n,
            pos := 0, outPos := 0, param := d.fld 24 8, clsNow := s.workClass q.ring q.seq,
            cls := s.servedClass q.ring d }).modRing q.ring fun x => x.setPhase q.seq .active
  | _ => s

/-- Step 8 of a `CONT` descriptor at dispatch: to the facet of its open chain, where it queues; it is
refused at once when the chain is not open (R255, R262). -/
def cipherCont (s : State) (r seq : Nat) (d : Desc) (ins outs : List Ext) (b : Bytes)
    (bad : Option Bad) : State :=
  let x := d.fld 22 1
  match tget .free (s.ring r).chains x with
  | .opened f =>
    (s.enqueue f { ring := r, seq := seq, chain := some x, ctx := none, ins := ins, outs := outs, block := b, bad := bad }).modRing
      r fun y => y.setPhase seq .active
  | .free =>
    match bad with
    | some e => s.finishBad r seq d e
    | none => s.finishBad r seq d (bad8 .contextFree)
  | .ended n =>
    match bad with
    | some e => s.finishBad r seq d e
    | none =>
      if d.is .cipherDrop then
        (s.setChain r (some x) .free).finishDone r seq d 0 (leBytes 8 n)
      else s.finishBad r seq d (bad8 .aborted)

/-! Segments (R227, R230 to R249). -/

/-- XTS over a stream of data units, from unit-relative place `off` of the message on; `fuel` bounds the
units. Complete blocks are processed, but a last full block waits for the partial block of its unit
(R246); what cannot be processed yet is handed back. -/
def xtsStream (enc : Bool) (k1 k2 : Bytes) (sector total du : Nat) :
    Nat → Nat → Bytes → Bytes × Bytes
  | 0, _, m => ([], m)
  | fuel + 1, off, m =>
    if m.isEmpty then ([], [])
    else
      let u := off / du
      let o := off % du
      let len := min du (total - u * du)
      if o + m.length < len then
        let full := if len % 16 = 0 then m.length / 16 else min (m.length / 16) (len / 16 - 1 - o / 16)
        (xtsRun enc k1 k2 (sector + u) (o / 16) false (m.take (16 * full)), m.drop (16 * full))
      else
        let out := xtsRun enc k1 k2 (sector + u) (o / 16) true (m.take (len - o))
        let t := xtsStream enc k1 k2 sector total du fuel (off + (len - o)) (m.drop (len - o))
        (out ++ t.1, t.2)

/-- One segment of input through the mode: what the message then holds, and its output. -/
def cipherSegment (key : Bytes) (c : CipherSt) (data : Bytes) : CipherSt × Bytes :=
  let dec := bitOf c.ctl.toNat 0
  let c1 := { c with consumed := c.consumed + data.length }
  if c.op = Op.aesEcb.code then (c1, ecb (!dec) key data)
  else if c.op = Op.aesCbc.code then
    let t := if dec then cbcDec key c.chain (chunks 16 data) else cbcEnc key c.chain (chunks 16 data)
    ({ c1 with chain := t.1 }, t.2)
  else if c.op = Op.aesCtr.code then (c1, ctrX key c.iv c.ctrWidth c.consumed data)
  else if c.op = Op.aesGcm.code then
    let a := overlapLen c.consumed data.length 0 c.aadLen
    let out := gcmX key c.iv (c.consumed + a - c.aadLen) (data.drop a)
    ({ c1 with acc := c.acc ++ data.take a, ct := c.ct ++ (if dec then data.drop a else out) }, out)
  else if c.op = Op.aesXts.code then
    let h := key.length / 2
    let t := xtsStream (!dec) (key.take h) (key.drop h) (leNat c.iv) c.declared c.duLen
      (data.length + 2) (c.consumed - c.pend.length) (c.pend ++ data)
    ({ c1 with pend := t.2 }, t.1)
  else ({ c1 with acc := c.acc ++ data }, [])

/-- How a message closes: held or last output and the result, or a failure (R229, R235, R248 to R250).
The comparison forms its word by two paths, which a fault may spoil (R312, R313). -/
def cipherFinal (key : Bytes) (c : CipherSt) (raw : Option (BitVec 16)) : Except Status (Bytes × Bytes) :=
  let dec := bitOf c.ctl.toNat 0
  let judge := fun (tag : Bytes) => raw.getD (verdictWord tag c.expTag) == 0x3CC3
  if c.op = Op.aesGcm.code then
    let tag := (gcmTag key (c.iv.take 12) c.acc c.ct).take c.tagLen
    if dec then if judge tag then .ok ([], []) else .error .tagFail else .ok ([], tag)
  else if c.op = Op.aesCmac.code then
    let tag := (cmac key c.acc).take c.tagLen
    if dec then if judge tag then .ok ([], []) else .error .tagFail else .ok ([], tag)
  else if c.op = Op.aesKw.code then
    let pad := bitOf c.ctl.toNat 3
    let r := match dec, pad with
      | false, false => some (kwWrap key c.acc)
      | false, true => some (kwpWrap key c.acc)
      | true, false => kwUnwrap key c.acc
      | true, true => kwpUnwrap key c.acc
    match r with
    | none => .error .tagFail
    | some o => .ok (o, leBytes 8 o.length)
  else if c.op = Op.aesCbc.code then .ok ([], c.chain)
  else if c.op = Op.aesCtr.code then .ok ([], ctrAdd c.iv c.ctrWidth (blocksOf c.declared))
  else if c.op = Op.aesXts.code then
    .ok ([], leBytes 16 (leNat c.iv + ceilDiv c.declared c.duLen))
  else .ok ([], [])

/-- In-place operation is allowed for every opcode but `AES_KW` (R228): `OUT` coincides with `IN`; for GCM it starts
at the first payload byte of `IN` and covers the payload. -/
def cipherInPlace (c : CipherSt) (m : Msg) : Bool :=
  if c.op = Op.aesKw.code then false
  else if c.op = Op.aesGcm.code then
    let a := c.aadLen - (c.consumed - m.pos)
    extsCover (extsDrop a m.ins) m.outs &&
      !extsMeet (extsTake a m.ins) (extsTake (extsLen m.ins - a) m.outs)
  else extsLen m.ins == extsLen m.outs && extsCover m.ins m.outs

/-- A message that ends well: all it holds given back, its chain `FREE`, its completion due. -/
def State.endGood (s : State) (f : Nat) (m : Msg) (result : Bytes) : State :=
  let s1 := (((s.giveBack f m).dropMsg f m.id).setChain m.ring m.chain .free).bump (1 + f) 2 1
  (s1.noteEndOf f m.ring m.seq .done).doneWork m.ring m.seq m.inLen result

/-- The end of a segment of `n` bytes of a cipher message: output, and at the descriptor's end its
completion, at the message's end its result (R227 to R229, R236, R258 to R260, R265). -/
def cipherSegEnd (s : State) (f : Nat) (m : Msg) (c : CipherSt) (n : Nat) (env : Env) : State :=
  match s.gather env m.ins 0 m.pos n with
  | .error b => s.endMsg f m { b with step := 8 }
  | .ok data =>
    let key := s.material (handleIndex c.key.toNat)
    let t := cipherSegment key c data
    let place := cipherInPlace c m
    let s1 := if m.held then s else s.emit m.ring place m.ins m.outs m.outPos t.2
    let m1 := { (if m.held then s.stagePut f m t.2 else m) with
      kind := .cipher t.1, pos := m.pos + n, outPos := m.outPos + t.2.length, st := .parked }
    let put := fun (x : State) (y : Msg) => x.modMsg f m.id fun _ => y
    let s2 := (put s1 m1).bump (1 + f) 1 n
    if m1.pos < m1.inLen || m.aborted then s2
    else
      let more := match s.descOf m.ring m.seq with
        | some d => d.more
        | none => false
      if more then
        ((put s2 { m1 with st := .await }).noteEndOf f m.ring m.seq .done).doneWork m.ring m.seq m.inLen []
      else if t.1.consumed < t.1.declared then s2.endMsg f m1 (bad8 .lengthMismatch)
      else match cipherFinal key t.1 env.raw with
        | .error st => (if t.1.op = Op.aesGcm.code then s2.bump (1 + f) 4 1 else s2).endMsg f m1 (bad8 st)
        | .ok (out, result) =>
          let o := s.stageX f m1 0 m1.staged ++ out
          if extsLen m.outs < o.length && t.1.op == Op.aesKw.code then s2.endMsg f m1 (bad8 .descMalformed)
          else
            let s3 := if o.isEmpty then s2 else s2.emit m.ring place m.ins m.outs 0 o
            s3.endGood f m1 result

end Sys2Proof.Machine
end

