-- ==== Sys2Proof/Machine/Digest.lean ====
section
/-!
DEFINITION. Digests, digest contexts and the extends of hallmark registers (chapter 6).
-/

namespace Sys2Proof.Machine

/-! The digest body (R285 to R287). -/

/-- `EXTEND`, `RELEASE`, `READ_ALL`, `RESET_OK`: bits of `DCTL`. -/
def Desc.dctl (d : Desc) (i : Nat) : Bool := bitOf (d.fld 23 1) i
/-- Hallmark index. -/
def Desc.hm (d : Desc) : Nat := d.fld 24 1
/-- Facet of `CTX`. -/
def Desc.ctxFacet (d : Desc) : Nat := d.fld 20 2 / 256 % 16
/-- Index of `CTX` in its facet. -/
def Desc.ctxIndex (d : Desc) : Nat := d.fld 20 2 % 256
/-- `CTX` of a context. -/
def ctxId (f i : Nat) : Nat := 256 * f + i

/-- The descriptor names a digest context (R294). -/
def Desc.namesCtx (d : Desc) : Bool :=
  d.is .digUpdate || d.is .digFinal || d.is .digRead || d.is .digCompare || d.is .digRelease

/-- Output length of an algorithm (R282). -/
def digOut (alg outLen : Nat) : Nat := if isShake alg then outLen else digestLen alg

/-- The body checks of step 5 (R285, R287). `HM_READ` needs an `OUT` that is not zero (log entry 63, DESIGN
CHOICE). -/
def digCheck5 (d : Desc) : Bool :=
  let one := d.is .digest || d.is .digOpen
  let ctx := d.is .digUpdate || d.is .digFinal || d.is .digRead || d.is .digCompare || d.is .digRelease
  let hmOp := d.is .hmExtend || d.is .hmRead || d.is .hmReset || d.is .hmLock || d.is .hmSetup
  let ext := d.is .digest || d.is .digFinal
  let inp := one || d.is .digUpdate || d.is .digFinal || d.is .digCompare || d.is .hmExtend
  let out := ext || d.is .digRead || d.is .hmRead
  let alg := d.fld 22 1
  let n := d.declLen.toNat
  (if one then algValid alg else alg == 0) &&
  (if one then d.fld 16 4 == 0 || (handleOk 1 (d.fld 16 4) && !isShake alg) else d.fld 16 4 == 0) &&
  (if one then (if isShake alg then decide (1 ≤ d.fld 26 2) && decide (d.fld 26 2 ≤ 4096)
                else d.fld 26 2 == 0) else d.fld 26 2 == 0) &&
  (!d.dctl 0 || ext) && (!(d.dctl 0 && d.is .digest) || alg == 0x02 || alg == 0x12) &&
  (if ext || hmOp then decide (d.hm < 64) else d.hm == 0) &&
  (if ctx then d.fld 20 2 / 4096 == 0 else d.fld 20 2 == 0) &&
  (if d.is .digCompare then decide (4 ≤ d.fld 25 1) else d.fld 25 1 == 0) &&
  (if d.is .digRead || d.is .digRelease || d.is .digFlush || d.is .hmRead || d.is .hmReset ||
      d.is .hmLock || d.is .hmSetup then n == 0
   else if d.is .digUpdate then n != 0
   else if d.is .digCompare then n == d.fld 25 1
   else if d.is .hmExtend then n == 48 else true) &&
  (!d.dctl 1 || d.is .digFinal || d.is .digRead) && ((!d.dctl 2 && !d.dctl 3) || d.is .hmSetup) &&
  decide (d.fld 23 1 < 16) && (d.is .hmSetup || d.fld 28 4 == 0) &&
  (if inp && n != 0 then (d.ref 32).ok else (d.ref 32).isZero) &&
  (if out then (d.ref 48).isZero || (d.ref 48).ok else (d.ref 48).isZero) &&
  -- R111, for plain buffers whose output length is known here
  (if d.is .hmRead then (d.ref 48).sgl || decide (48 ≤ (d.ref 48).len)
   else if d.is .digest then (d.ref 48).isZero || (d.ref 48).sgl ||
     decide (digOut alg (d.fld 26 2) ≤ (d.ref 48).len) else true)

/-- Steps 6 and 7: lists, output length where it is known, input length; the input of `DIG_COMPARE` and
`HM_EXTEND` is read at the same time. -/
def digRead (s : State) (env : Env) (d : Desc) : Except Bad (List Ext × List Ext × Bytes) :=
  match s.walkRef env (d.ref 32), s.walkRef env (d.ref 48) with
  | .error e, _ => .error e
  | _, .error e => .error e
  | .ok ins, .ok outs =>
    let need := if d.is .hmRead then 48 else if d.is .digest && !(d.ref 48).isZero then
      digOut (d.fld 22 1) (d.fld 26 2) else 0
    if extsLen outs < need then .error bad6
    else if extsLen ins ≠ d.declLen.toNat then .error { status := .lengthMismatch, step := 7 }
    else if d.is .hmExtend || d.is .digCompare then
      match s.readAll env ins with
      | .error e => .error e
      | .ok b => .ok (ins, outs, b)
    else .ok (ins, outs, [])

/-! Contexts (R288 to R302). -/

/-- The HMAC key suits (R303). -/
def hmacSuits (k : KeySlot) : Bool := k.type == 0x05 && hasAttr k 2

/-- The slot check of a keyed digest (R177, R303). -/
def keyCheck (s : State) (f : Nat) (h : Nat) : Option Status :=
  if h = 0 then none
  else slotCheck (s.slot (handleIndex h)) f (hmacSuits (s.slot (handleIndex h)))

/-- The largest input of one context (R283). -/
def digMax : Nat := 2 ^ 61 - 1

/-- The lowest free digest context of a facet. -/
def State.freeCtx (s : State) (f : Nat) : Option Nat := (List.range 256).find? fun i => (s.dig f i).isNone

/-- The facet for a context, which keeps `spare` free before it (R290, R291): the one with the fewest contexts in use,
then the lowest, for `DIGEST` too (log entry 63, DESIGN CHOICE). -/
def State.pickDig (s : State) (spare : Nat) : Option Nat :=
  leastOf s.digUsed (s.serving.filter fun f => decide (s.digUsed f + spare ≤ 256))

/-- The message of a digest descriptor. -/
def digMsg (s : State) (r seq : Nat) (d : Desc) (i : Nat) (ins outs : List Ext) : Msg where
  id := 0
  ring := r
  seq := seq
  chain := none
  cls := s.servedClass r d
  clsNow := s.workClass r seq
  kind := .digest i
  st := .ready
  ins := ins
  outs := outs
  inLen := extsLen ins
  pos := 0
  outPos := 0
  first := true
  staged := []
  held := false
  onChip := 0
  gddrBytes := 0
  param := 0
  aborted := false

/-- A hallmark check passed by a digest descriptor with `EXTEND` (R327). -/
def extendStatus (s : State) (r : Nat) (d : Desc) : Option Status :=
  if d.dctl 0 then s.extendCheck d.hm (fnOf r) false else none

/-- Step 8 of `DIGEST` and `DIG_OPEN`: a context of a facet, its key reserved, and a message that absorbs
the input (R290, R291, R300, R301, R317). The context counts as OPEN from here on, before `DIG_OPEN` completes (R289;
log entry 63, DESIGN CHOICE). -/
def digOpen (s : State) (r seq : Nat) (d : Desc) (ins outs : List Ext) : State :=
  let one := d.is .digest
  let key := d.fld 16 4
  match keyCheck s (fnOf r) key with
  | some st => s.finishBad r seq d (bad8 st)
  | none =>
    if digMax < d.declLen.toNat then s.finishBad r seq d (bad8 .lengthLimit)
    else if !one && (s.pickDig 17).isNone then s.finishBad r seq d (bad8 .contextLimit)
    else match extendStatus s r d with
      | some st => s.finishBad r seq d (bad8 st)
      | none =>
        match s.pickDig (if one then 1 else 17) with
        | none => s.holdWork r seq (ins, outs, []) 0
        | some f =>
          let i := (s.freeCtx f).getD 0
          let c : DigCtx :=
            { st := .opened, fn := fnOf r, alg := d.fld 22 1, outLen := digOut (d.fld 22 1) (d.fld 26 2),
              key := BitVec.ofNat 32 key, acc := [], dig := [], invCharged := 0, blocksCharged := 0,
              heldBy := some r, oneShot := one }
          let s1 := if key = 0 then s else s.reserve (handleIndex key)
          let s2 := if d.dctl 0 then s1.mark d.hm seq else s1
          ((s2.modRing r fun x => x.setPhase seq .active).setDig f i (some c)).addMsg f
            (digMsg s r seq d i ins outs)

/-- Step 8 of a descriptor that names a context, at dispatch: refused, or to the queue of the context's
facet (R292, R294). -/
def digNamed (s : State) (r seq : Nat) (d : Desc) (ins outs : List Ext) (b : Bytes) (bad : Option Bad) :
    State :=
  let f := d.ctxFacet
  let i := d.ctxIndex
  -- a failed read of the input of `DIG_COMPARE` comes after the checks of step 8
  let refuse := fun st => s.finishBad r seq d ((bad.filter fun b => b.step != 8).getD (bad8 st))
  match s.dig f i with
  | none => refuse .contextFree
  | some c =>
    if c.fn ≠ fnOf r ∨ c.oneShot then refuse .contextFree
    else if c.heldBy ≠ none ∧ c.heldBy ≠ some r then refuse .contextBusy
    else
      let q : Queued :=
        { ring := r, seq := seq, chain := none, ctx := some i, ins := ins, outs := outs, block := b, bad := bad }
      ((s.enqueue f q).setDig f i (some { c with heldBy := some r })).modRing r fun y => y.setPhase seq .active

/-- Finalised digest, or HMAC, of a context (R282, R304, R306). -/
def State.digValue (s : State) (c : DigCtx) : Bytes :=
  if c.key ≠ 0 then hmac c.alg (s.material (handleIndex c.key.toNat)) c.acc
  else digestN c.alg c.outLen c.acc

/-- Verdict of a comparison: its status and the alarm (R313). -/
def State.verdict (s : State) (raw : BitVec 16) : State :=
  if raw = 0x3CC3 ∨ raw = 0xC33C then s else s.busIntegrity

/-- A context freed by a failure on it: descriptors queued behind are `ABORTED` (R318). -/
def State.loseDig (s : State) (f i : Nat) : State :=
  (s.freeDig f i).failQueue f (fun q => q.ctx == some i) .aborted

/-- `DIG_COMPARE` on a finalised context (R311 to R314): the context is freed in every case. -/
def digCompare (s : State) (f i : Nat) (q : Queued) (d : Desc) (c : DigCtx) (raw : Option (BitVec 16)) :
    State :=
  let n := d.fld 25 1
  let w := raw.getD (verdictWord (c.dig.take n) (q.block.take n))
  let ok := w = 0x3CC3
  let res := leBytes 2 (if ok then 0x3CC3 else 0xC33C) ++ [BitVec.ofNat 8 n, 0] ++ leBytes 2 w.toNat
  let st : Status := if ok then .done else .compareMismatch
  let s1 := (s.noteEnd f d q.ring st).finish q.ring q.seq (cplOf d st 0 res)
  (if ok then s1.freeDig f i else s1.loseDig f i).verdict w

/-- The descriptor at the head of a context's queue begins, or ends at once (R306 to R311, R317, R319). -/
def digBegin (s : State) (f i : Nat) (q : Queued) (d : Desc) (raw : Option (BitVec 16)) : State :=
  match s.dig f i with
  | none => s.finishBad q.ring q.seq d (bad8 .contextFree)
  | some c =>
    let refuse := fun (b : Bad) => ((s.noteEnd f d q.ring b.status).finishBad q.ring q.seq d b).unholdCtx f i
    let final := c.st == .final
    let res := leBytes 2 (ctxId f i)
    match q.bad.filter fun b => b.step != 8 with
    | some b => refuse b
    | none =>
      if d.is .digRelease then ((s.freeDig f i).noteEnd f d q.ring .done).finishDone q.ring q.seq d 0 res
      else if d.is .digRead then
        if !(d.ref 48).isZero && decide (extsLen q.outs < c.outLen) then refuse (bad8 .descMalformed)
        else
          let n := if (d.ref 48).isZero then 0 else c.outLen
          if !final then
            (((s.writeOut q.ring q.outs 0 (zeros n)).noteEnd f d q.ring .digestEarly).finish q.ring q.seq (cplOf d .digestEarly 0 [])).unholdCtx f i
          else
            let s1 := s.writeOut q.ring q.outs 0 (c.dig.take n)
            let s2 := if d.dctl 1 then s1.freeDig f i else s1
            ((s2.noteEnd f d q.ring .done).finishDone q.ring q.seq d 0 (res ++ leBytes 2 n)).unholdCtx f i
      else if d.is .digCompare then
        if !final || decide (min c.outLen 64 < d.fld 25 1) then refuse (bad8 .descMalformed)
        else match q.bad with
          | some b => ((s.noteEnd f d q.ring b.status).finishBad q.ring q.seq d b).loseDig f i
          | none => digCompare s f i q d c raw
      else if final || (d.dctl 0 && c.alg != 0x02 && c.alg != 0x12) ||
          (d.is .digFinal && !(d.ref 48).isZero && decide (extsLen q.outs < c.outLen)) then
        refuse (bad8 .descMalformed)
      else if digMax < c.acc.length + extsLen q.ins then refuse (bad8 .lengthLimit)
      else match extendStatus s q.ring d with
        | some st => refuse (bad8 st)
        | none =>
          (if d.dctl 0 then s.mark d.hm q.seq else s).addMsg f (digMsg s q.ring q.seq d i q.ins q.outs)

/-! Extends (R322 to R326). -/

/-- An extend sent to the hallmark unit: of those that arrive in one cycle, facets in ascending index come first, then
the crown, then the applet engines (R42, R324). It passes only extends of a later rank, so those of one source keep
the order in which it sent them. -/
def insertExtend (e : ExtendReq) : List ExtendReq → List ExtendReq
  | [] => [e]
  | x :: xs => if (x :: xs).all fun y => y.time = e.time ∧ e.rank < y.rank then e :: x :: xs
    else x :: insertExtend e xs

/-- An extend queued at the hallmark unit. -/
def State.sendExtend (s : State) (hm : Nat) (v : Bytes) (n rank : Nat) (src : ExtSrc) : State :=
  { s with extends_ := insertExtend ⟨hm, v, n, rank, s.tick, src⟩ s.extends_ }

/-- The new value of a register (R322). -/
def Hallmark.extend (h : Hallmark) (v : Bytes) : Hallmark :=
  { h with h := sha384 (h.h ++ v), extCount := h.extCount + 1 }

/-! Ends (R289, R306, R310). -/

/-- A digest message that ends well: the message leaves its facet, its context stays as the opcode
says. -/
def digDone (s : State) (f : Nat) (m : Msg) (i : Nat) (d : Desc) (ext : Option (Nat × Nat)) : State :=
  match s.dig f i with
  | none => s
  | some c =>
    let n := if (d.ref 48).isZero then 0 else c.outLen
    let tail := match ext with
      | some (h, k) => [BitVec.ofNat 8 h, 0, 0, 0] ++ leBytes 8 k
      | none => []
    let res := if d.is .digest then zeros 2 ++ leBytes 2 n ++ tail
      else if d.is .digFinal then leBytes 2 (ctxId f i) ++ leBytes 2 n ++ tail
      else if d.is .digUpdate then leBytes 2 (ctxId f i) ++ zeros 6 ++ leBytes 8 c.acc.length
      else leBytes 2 (ctxId f i)
    let s1 := ((s.dropMsg f m.id).bump (1 + f) 2 1).noteEnd f d m.ring .done
    let s2 := if d.is .digest || (d.is .digFinal && d.dctl 1) then s1.freeDig f i
      else if d.is .digFinal then
        (if c.key ≠ 0 then s1.unreserve (handleIndex c.key.toNat) else s1).setDig f i (some { c with st := .final })
      else s1
    (s2.doneWork m.ring m.seq m.inLen res).unholdCtx f i

/-- The end of a segment of `n` bytes of a digest message (R298, R306, R326). -/
def digSegEnd (s : State) (f : Nat) (m : Msg) (i n : Nat) (env : Env) : State :=
  match s.gather env m.ins 0 m.pos n, s.dig f i, s.descOf m.ring m.seq with
  | .error b, _, _ => s.endMsg f m { b with step := 8 }
  | .ok _, none, _ => s.dropMsg f m.id
  | .ok _, _, none => s.endMsg f m (bad8 .aborted)
  | .ok data, some c, some d =>
    let c1 := { c with acc := c.acc ++ data }
    let m1 := { m with pos := m.pos + n, st := .parked }
    let s1 := (((s.setDig f i (some c1)).modMsg f m.id fun _ => m1)).bump (1 + f) 1 n
    if m1.pos < m1.inLen || m.aborted then s1
    else if d.is .digest || d.is .digFinal then
      let v := s1.digValue c1
      let s2 := s1.setDig f i (some { c1 with dig := v })
      let s3 := (if (d.ref 48).isZero then s2 else s2.emit m1.ring false m1.ins m1.outs 0 v).bump (1 + f) 5 1
      if d.dctl 0 then
        (s3.modMsg f m.id fun _ => { m1 with st := .extending }).sendExtend d.hm v (s3.markOf d.hm m.seq) f (.msg f m.id)
      else digDone s3 f m1 i d none
    else digDone s1 f m1 i d none

/-- `DIG_FLUSH`: contexts of the function that no ring holds, freed on every facet (R297). -/
def digFlush (s : State) (r seq : Nat) (d : Desc) : State :=
  let mine := fun (c : DigCtx) => c.fn == fnOf r && c.heldBy.isNone && !c.oneShot
  let count := (List.range 16).foldl (fun a f =>
    a + ((s.facet f).digs.filter fun e => (e.2.map mine).getD false).length) 0
  let s1 := (List.range 16).foldl (fun a f => a.freeDigs f mine) s
  s1.finishDone r seq d 0 (leBytes 4 count)

/-- `HM_EXTEND` of registers 0 to 55, run by a facet (R286, R327): the one with the fewest digest contexts in use, then
the lowest (log entry 63, DESIGN CHOICE). -/
def hmExtendFacet (s : State) (r seq : Nat) (d : Desc) (v : Bytes) : State :=
  match s.extendCheck d.hm (fnOf r) false with
  | some st => s.finishBad r seq d (bad8 st)
  | none =>
    let f := (leastOf s.digUsed s.serving).getD 0
    ((s.mark d.hm seq).modRing r fun x => x.setPhase seq .active).sendExtend d.hm v s.nextMark f (.desc r seq)

end Sys2Proof.Machine
end

