-- ==== Sys2Proof/Machine/Sched.lean ====
section
/-!
DEFINITION. What a facet does between segments: descriptors queued behind a chain or a context begin when
their turn comes, and idle lanes take their next segments (R262, R267, R294, R295).
-/

namespace Sys2Proof.Machine

/-- The queued descriptor's turn has come: its chain awaits it, or no message runs on its context, and its reads have
returned. A descriptor whose chain has ended waits for no read (R262; log entry 48, DEDUCED). -/
def queueReady (x : Facet) (s : State) (f : Nat) (q : Queued) : Bool :=
  match q.chain, q.ctx with
  | some c, _ => match s.chainMsg f q.ring c with
    | none => true
    | some m => m.st == .await && !q.reading
  | none, some i => (x.msgs.all fun m => m.kind != .digest i) && !q.reading
  | none, none => true

/-- The first queued descriptor whose turn has come, none of its chain or context being queued before
it. -/
def nextQueued (s : State) (f : Nat) : List Queued → List Queued → Option Queued
  | _, [] => none
  | before, q :: qs =>
    if queueReady (s.facet f) s f q &&
        before.all (fun p => !(p.ring == q.ring && p.chain == q.chain && p.ctx == q.ctx)) then some q
    else nextQueued s f (before ++ [q]) qs

/-- A queued descriptor begins, or completes as refused because its chain has ended (R261, R262). -/
def beginQueued (s : State) (f : Nat) (q : Queued) (raw : Option (BitVec 16)) : State :=
  match s.descOf q.ring q.seq with
  | none => s
  | some d =>
    match q.chain, q.ctx with
    | some c, _ =>
      match s.chainMsg f q.ring c with
      | some m => contStart s f m q d
      | none =>
        match d.is .cipherDrop, tget .free (s.ring q.ring).chains c with
        | true, .ended n =>
          if q.bad.isSome then s.finishBad q.ring q.seq d (q.bad.getD (bad8 .aborted))
          else (s.setChain q.ring (some c) .free).finishDone q.ring q.seq d 0 (leBytes 8 n)
        | _, _ => s.finishBad q.ring q.seq d (q.bad.getD (bad8 .aborted))
    | none, some i => digBegin s f i q d raw
    | none, none => s

/-- Queued descriptors begun while their turn comes; `n` bounds their number. -/
def State.pump (s : State) (f : Nat) (raw : Option (BitVec 16)) : Nat → State
  | 0 => s
  | n + 1 =>
    match nextQueued s f [] (s.facet f).queue with
    | none => s
    | some q =>
      (beginQueued (s.modFacet f fun x => { x with queue := x.queue.erase q }) f q raw).pump f raw n

/-- A chain whose next descriptor was refused before dispatch ends when nothing of it is queued or in progress
(R133). -/
def State.endCut (s : State) (f : Nat) : State :=
  ((s.facet f).msgs.filter fun m => m.cut && m.st == .await &&
      (s.facet f).queue.all fun q => !(q.ring == m.ring && q.chain == m.chain)).foldl
    (fun (a : State) m => a.endMsg f m (bad8 .aborted)) s

/-- The facet goes on: queue, then lanes, and once more for what a message ended by its charge leaves. -/
def State.sched (s : State) (f : Nat) (raw : Option (BitVec 16) := none) : State :=
  let once := fun (a : State) => ((a.pump f raw ((a.facet f).queue.length)).endCut f).fillLanes f
  once (once s)

/-- Every facet goes on. -/
def State.schedAll (s : State) : State := (List.range 16).foldl (fun a f => a.sched f) s

end Sys2Proof.Machine
end

