-- ==== Sys2Proof/Machine/Crown.lean ====
section
/-!
DEFINITION. The active crown's work: the journal entry, its record writes and effects, its completion
(R611 to R614, R699 to R701).
-/

namespace Sys2Proof.Machine

/-- Lists and input of a descriptor as steps 6 and 7 have read them. -/
abbrev Got := List Ext × List Ext × Bytes

/-- The crown can take a descriptor. -/
def State.crownFree (s : State) : Bool := s.crowns.journal.isNone

/-- The claim of the active crown. -/
def State.activeClaim (s : State) : BitVec 16 := s.activeCrown.claim
/-- The result layout of R614. -/
def State.swapResult (s : State) (outcome : Nat) : Bytes :=
  [BitVec.ofNat 8 outcome, if s.crowns.activeB then 1 else 0] ++ leBytes 2 s.activeClaim.toNat
/-- The completion of a descriptor that a takeover found in progress (R614). -/
def State.standbyCpl (s : State) (d : Desc) (outcome : Nat) : Cpl :=
  cplOf d .standbyTakeover 0 (s.swapResult outcome)
/-- What a work keeps of steps 6 and 7. -/
def State.keepGot (s : State) (r seq : Nat) (got : Got) : State :=
  s.modRing r fun x => { x with work := x.work.map fun w =>
    if w.seq = seq then { w with phase := .active, got := some got } else w }

/-- A descriptor taken by the crown: its journal entry in `INTENT` (R611), a write to crown memory past clasp 0 (R596).
Discarded, the descriptor stays as it was. -/
def State.crownTake (s : State) (r seq : Nat) (d : Desc) (got : Got) : State :=
  let t := s.activeOutput 0
  if t.1 then
    let n := s.crowns.entries + 1
    let j : Journal := { ring := r, seq := seq, tag := d.tag, opcode := d.opcode, number := n }
    let s1 := t.2.keepGot r seq got
    ({ s1 with crowns := { s1.crowns with journal := some j, entries := n } } : State).noteEntry n .intent
  else t.2

/-- The descriptor the crown carries out. -/
def State.crownDesc (s : State) : Option (Journal × Desc × Got) :=
  match s.crowns.journal with
  | none => none
  | some j =>
    match (s.ring j.ring).find j.seq with
    | none => j.kept.map fun k => (j, k.1, k.2)
    | some w => some (j, w.desc, w.got.getD ([], [], []))

/-- The crown's descriptor refused or failed, no effect made. -/
def State.crownFail (s : State) (b : Bad) (done : Nat := 0) : State :=
  match s.crowns.journal with
  | none => s
  | some j =>
    match s.crownDesc.map (·.2.1) with
    | some d => (s.noteDma j.ring d.tag b.dma).crownClose j (cplBad d b done)
    | none => { s with crowns := { s.crowns with journal := none, lastEntry := some (j.closed none) } }

/-- The slots that an applet's bindings reserve. -/
def boundSlots (caps : List (Option Word32)) : List Nat :=
  caps.filterMap fun c => c.map fun h => handleIndex h.toNat

/-- One recorded effect made (R612). -/
def State.effect (s : State) : Eff → State
  | .slot i k =>
    let s1 := s.setSlot i k
    -- a destroyed or released slot leaves the key-schedule caches (R873)
    if k.st = .erased ∨ k.st = .empty then s1.dropSched fun x => match x with
      | .slot j _ => j == i
      | .endpoint _ => false
    else s1
  | .custody c dk n i => ({ s with keys := { s.keys with
      custody := c, domainKey := dk, deviceNumber := n, domainId := i } } : State).vaultKeys
  | .ceremony c => { s with keys := { s.keys with ceremony := c } }
  | .hallmark i h => s.setHallmark i h
  | .vault v st => { s with vault := { s.vault with
      record := v, recordWritten := true, recordTorn := false, st := st } }
  | .cut f => s.vaultCut f
  | .vcommit => s.vaultCommitted
  | .vformat => s.vaultEmpty
  | .vrelease => s.releaseSets
  | .signer g a b => { s with applets := { s.applets with gen := g, signerEc := a, signerMl := b } }
  | .app i a =>
    -- the old bindings' reservations are returned, the new ones taken (R564, R565)
    let s1 := (boundSlots (tget {} s.applets.slots i).caps).foldl (fun x k => x.unreserve k) s
    let s2 : State := { s1 with applets := { s1.applets with slots := tset {} s1.applets.slots i a } }
    (boundSlots a.caps).foldl (fun x k => x.reserve k) s2
  | .lcs t w => { s with life := { s.life with pendingTarget := t, wipe := w } }
  | .debugKey g k => { s with life := { s.life with debugGen := g, debugKey := k } }
  | .nonce n k => { s with life := { s.life with nonce := n, nonceNumber := k } }
  | .grant g => { s with life := { s.life with grant := g } }
  | .idKey k => { s with life := { s.life with
      idKey := some k
      idHash := some ((sha384 (curve384.public k)).take 16) } }
  | .hostWrite o b =>
    match s.crowns.journal with
    | none => s
    | some j => if j.kept.isSome then s else s.writeOut j.ring o 0 b

/-- The recorded effects are those of a cut, and an arm whose step 3 has begun has not reached step 4 (R430). -/
def State.cutWaits (s : State) (j : Journal) : Bool :=
  (j.effs.any fun e => match e with
    | .cut _ => true
    | _ => false) && s.vault.arms.any fun a => a.stage != .gathered

/-- The clasp that an effect passes (R596): the vault root register, the host-side writer, else crown memory and the
key bus. -/
def Eff.clasp : Eff → Nat
  | .vault _ _ | .cut _ | .vcommit | .vformat | .vrelease => 3
  | .hostWrite _ _ => 2
  | _ => 0

/-- Effects made in their order, each past its clasp; a discarded one is the last. -/
def State.makeEffects (s : State) : List Eff → Bool × State
  | [] => (true, s)
  | e :: es =>
    let t := s.activeOutput e.clasp
    if t.1 then (t.2.effect e).makeEffects es else (false, t.2)

/-- Every recorded effect made, the entry `APPLIED` once all have passed their clasps, and the completion (R611). -/
def State.crownApply (s : State) : State :=
  match s.crowns.journal with
  | none => s
  | some j =>
    if s.cutWaits j then s.modJournal fun x => { x with wait := .vault } else
    let t := s.makeEffects j.effs
    if t.1 then
      let s1 := (t.2.modJournal fun x => { x with state := .applied, wait := .vault }).noteEntry j.number .applied
      match j.cpl with
      | some c => s1.crownClose { j with state := .applied } c
      | none => s1
    else t.2.entryStuck

/-- The record already holds the recorded contents under the recorded `SEQ` (R612). -/
def RecWrite.stands (w : RecWrite) (n : Nvm) : Bool :=
  let r := n.record w.name
  r.st == .held && r.seq == w.seq && r.type == w.type.toNat && r.payload == w.payload.take (256 * recPages w.name - 16)

/-- The journal's record writes go on: those that stand are passed over, the first other begins with its
copy 0, and after the last the effects are made (R612, R699). -/
def State.crownRecs (s : State) : State :=
  match s.crowns.journal with
  | none => s
  | some j =>
    let left := j.recs.dropWhile fun w => w.stands s.nvm
    let s1 := s.modJournal fun x => { x with recs := left, wait := .nvm }
    match left with
    | [] => s1.crownApply
    | w :: _ => (s1.bump 24 1 1).askCopy w 0 (.record 0)

/-- A later write of a record in one entry finds there what the earlier one has written (R701). -/
def chainRecs : List RecWrite → List RecWrite
  | [] => []
  | w :: ws => w :: (chainRecs ws).map fun x =>
      if x.name = w.name ∧ x.prev = w.prev then { x with prev := some (w.type, w.payload) } else x

/-- The entry `COMMITTED` (R611), a write to crown memory past clasp 0; its record writes begin. -/
def State.commitEntry (s : State) (recs : List RecWrite) (effs : List Eff) (c : Option Cpl) : State :=
  let t := (s.noteTies (recs.map (·.name))).activeOutput 0
  match s.crowns.journal with
  | none => s
  | some j =>
    if t.1 then
      ((t.2.modJournal fun x => { x with
        state := .committed, recs := chainRecs recs, effs := effs, cpl := c, wait := .nvm }).noteEntry j.number
          .committed).crownRecs
    else t.2.entryStuck

/-- The result of a `BUNDLE_IMPORT` whose records end before the last `left` of them (R737). -/
def importResult (res : Bytes) (left : Nat) : Bytes := res.take 8 ++ leBytes 2 (leField res 8 2 - left) ++ res.drop 10

/-- The entry committed with its record writes, effects and completion. A record whose `SEQ` is exhausted ends it with
`NVM_WORN` (R700); a `BUNDLE_IMPORT` has written those before it and counts them (R737). -/
def State.crownCommit (s : State) (recs : List RecWrite) (effs : List Eff) (c : Cpl) : State :=
  match recs.find? fun w => decide (2 ^ 32 ≤ w.seq) with
  | some w =>
    let first := recs.takeWhile fun w => decide (w.seq < 2 ^ 32)
    let s1 := s.noteWorn w.name
    if (s.crowns.journal.map (·.opcode)) = some Op.bundleImport.code then
      s1.commitEntry first [] (some { c with
        status := .nvmWorn, bytesDone := 0, result := importResult c.result (recs.length - first.length) })
    else ({ s1 with vault := s1.vault.unload } : State).crownFail { status := .nvmWorn, step := 8 }
  | none => s.commitEntry recs effs (some c)

/-- The entry committed with `DONE`. -/
def State.crownDone (s : State) (recs : List RecWrite) (effs : List Eff) (done : Nat) (result : Bytes) :
    State :=
  match s.crownDesc with
  | none => { s with crowns := { s.crowns with journal := none } }
  | some (_, d, _) => s.crownCommit recs effs (cplOf d .done done result)

/-- The crown waits. -/
def State.crownWait (s : State) (w : CrownWait) : State := s.modJournal fun j => { j with wait := w }

/-- The entry ends with `NVM_WORN` (R701, R613). -/
def State.crownWorn (s : State) (name : RecName) : State :=
  match s.crowns.journal with
  | none => s
  | some j =>
    let s0 : State := { s with vault := s.vault.unload }
    let s1 := (s0.noteWorn name).modJournal fun x => { x with outcome := j.outcome.map fun _ => 0 }
    match j.cpl, j.outcome with
    | some c, none =>
      -- R737: an import counts the keys installed before the record that could not be written
      if j.opcode = Op.bundleImport.code then
        s1.crownClose { j with state := .applied }
          { c with status := .nvmWorn, bytesDone := 0, result := importResult c.result j.recs.length }
      else s1.crownFail { status := .nvmWorn, step := 8 }
    | some c, some _ =>
      -- the aftermath of its own chapter, after a takeover too (R613)
      if j.opcode = Op.bundleImport.code then
        s1.crownClose { j with state := .applied, outcome := some 0 }
          { c with status := .nvmWorn, bytesDone := 0, result := importResult j.shown j.recs.length }
      else s1.crownFail { status := .nvmWorn, step := 8 }
    | none, _ => s1.crownFail { status := .nvmWorn, step := 8 }

/-- The pages of the entry's record write taken out of the queue. -/
def State.dropRecPages (s : State) : State :=
  { s with nvm := { s.nvm with queue := s.nvm.queue.filter fun p => match p.kind with
      | .record _ _ => false
      | .rollback _ => false
      | _ => true } }

/-- A page of the entry's record write has ended (R699, R701): `failed` when it could be neither written
nor relocated. -/
def State.recordPage (s : State) (copy : Nat) (last failed : Bool) : State :=
  match s.crowns.journal with
  | none => s
  | some j =>
    match j.recs with
    | [] => s
    | w :: rest =>
      if failed then
        let s1 := s.dropRecPages
        if copy = 0 then s1.crownWorn w.name
        else
          s1.askPages (copyWrites w.name 0 (w.back s.claim) .rollback)
      else if !last then s
      else if copy = 0 then s.askCopy w 1 (.record 1)
      else (s.modJournal fun x => { x with recs := rest }).crownRecs

/-- A page of the write-back has ended (R701). -/
def State.rollbackPage (s : State) (last failed : Bool) : State :=
  match s.crowns.journal with
  | none => s
  | some j =>
    match j.recs with
    | [] => s
    | w :: _ => if failed || last then s.dropRecPages.crownWorn w.name else s

/-! Signet requests of the crown, draws of instance 0: see Signet.lean. -/

end Sys2Proof.Machine
end

