-- ==== Sys2Proof/Machine/Signet.lean ====
section
/-!
DEFINITION. The signet block (chapter 7): random numbers, the entropy source, descriptors of family
0x04xx up to their engines and from their engines to their completions. The engines' own commands stand
in Engines.lean.
-/

namespace Sys2Proof.Machine

/-! Register access (R806, R813, R819). -/

/-- A write at `addr` that the stage does not permit (R819): the FCT window of a facet that is untested or
in its BIST, the CLU window of a cluster in training, FCT, CLU and VLT in STUCK mode. -/
def State.stageBars (s : State) (addr : Nat) : Bool :=
  let fct := decide (0x30000 ≤ addr) && decide (addr < 0x40000)
  let clu := decide (0x40000 ≤ addr) && decide (addr < 0x50000)
  let vlt := decide (0x50000 ≤ addr) && decide (addr < 0x60000)
  let st := tget .untested s.start.facets (addr / 4096 % 16)
  let cst := (tget {} s.clus (addr / 4096 % 16)).state
  (s.isStuck && (fct || clu || vlt)) || (fct && (st == .untested || st == .bist)) ||
    (clu && (cst == 1 || cst == 2))

/-- A write of function `f` to a register of the PF only, at `addr`: BAR0 is reachable from the end of
S2, a VF's access is a violation of kind 1, one that the stage bars of kind 3. -/
def State.pfWrite (s : State) (f addr : Nat) (act : State → State) : State :=
  if s.start.stage < 3 ∨ !s.fnExists f then s
  else if f ≠ 0 then s.violation 1 f true addr
  else if s.stageBars addr then s.violation 3 f true addr
  else act s

/-! DRBG instances (R381 to R385). -/

/-- Instance `i`. -/
def State.drbg (s : State) (i : Nat) : Drbg := tget {} s.signet.drbgs i
/-- Instance `i` replaced. -/
def State.setDrbg (s : State) (i : Nat) (d : Drbg) : State :=
  { s with signet := { s.signet with drbgs := tset {} s.signet.drbgs i d } }

/-- A request joins those that wait for a pool block (R383). -/
def State.waitFor (s : State) (w : DrawWait) : State :=
  { s with signet := { s.signet with waits := s.signet.waits ++ [w] } }

/-- The crown waits for a pool block of instance 0 (R383). -/
def State.crownDraw (s : State) : State :=
  match s.crowns.journal with
  | none => s
  | some j => (s.crownWait .draw).waitFor (.crown j.number)

/-- What a generate request gives: bytes, whether a reseed came first, and the state; a wait for a pool
block; or `ENTROPY_FAIL`. -/
inductive Draw
  | ok (b : Bytes) (reseeded : Bool) (s : State)
  | wait
  | fail (s : State)

/-- Milliseconds since an instance's last reseed; 0 before its first (R400). -/
def drbgAge (s : State) (d : Drbg) : Nat := if d.instantiated then (s.tick - d.reseedTick) / 250000 else 0

/-- A request of an instance ended with `ENTROPY_FAIL`: the instance reseeds at the first request after a block is
there (R385, R400). -/
def State.drawFail (s : State) (i : Nat) : State :=
  (s.setDrbg i { s.drbg i with fails := min 65535 ((s.drbg i).fails + 1), reseedReq := true }).bump 17 14 1

/-- A generate request of `n` bytes of instance `i` (R383, R384). -/
def State.draw (s : State) (i n : Nat) (pred : Bool) : Draw :=
  let d := s.drbg i
  let g := s.signet
  let give := fun (x : State) (y : Drbg) (re : Bool) =>
    let o := drbgGenerate n (y.key, y.v)
    Draw.ok o.1 re (x.setDrbg i { y with requests := y.requests + 1, key := o.2.1, v := o.2.2 })
  let must := !d.instantiated || d.reseedReq || pred
  let due := must || decide (2 ^ g.reqLog2.toNat ≤ d.requests) ||
    decide (g.intervalMs.toNat ≤ drbgAge s d)
  let late := d.instantiated && (decide (2 ^ (g.reqLog2.toNat + 1) ≤ d.requests) ||
    decide (2 * g.intervalMs.toNat ≤ drbgAge s d))
  match due, g.pool with
  | true, b :: l =>
    let kv := if d.instantiated then drbgReseed b (d.key, d.v)
      else drbgSeed b (fit 16 g.personal ++ [BitVec.ofNat 8 i])
    give (({ s with signet := { g with pool := l } } : State).bump 17 15 1)
      { instantiated := true, reseedTick := s.tick, key := kv.1, v := kv.2 } true
  | _, _ =>
    if late then .fail (s.drawFail i)
    else if must then .wait
    else give s d false

/-! The entropy source (R376 to R380). -/

/-- Counts saturating at 15 bits (R396). -/
def sat15 (n : Nat) : Nat := min (n + 1) 32767

/-- A health failure recorded in `ENT_STS` and `ENT_FAILS` (R395, R396). -/
def Signet.noteFail (g : Signet) (rct apt : Bool) : Signet :=
  { g with
    rctFail := g.rctFail || rct, aptFail := g.aptFail || apt,
    rctCount := if rct then sat15 g.rctCount else g.rctCount,
    aptCount := if apt then sat15 g.aptCount else g.aptCount }

/-- The source starts: settling, then its start-up test (R378). A `RESTART` begins the count of failed start-up tests
anew and empties the pool (R380; log entry 63, DESIGN CHOICE). -/
def Signet.entStart (g : Signet) : Signet :=
  { g with ent := .startup, settling := true, startupFails := 0, pool := [] }

/-- ENTROPY_HEALTH_FAIL (R379). -/
def execEntropyHealthFail (proportion : Bool) (s : State) : Host.Outcome State Fault Refusal :=
  .next <|
    if s.start.stage < 2 ∨ s.signet.ent ≠ .running then s
    else
      let g := (s.signet.noteFail (!proportion) proportion).entStart
      let g1 := { g with drbgs := (List.range 4).foldl (fun t i =>
        tset {} t i { tget {} t i with reseedReq := true }) g.drbgs }
      ({ s with signet := g1 } : State).raise 15 (if proportion then 2 else 1)

/-- ENTROPY_SETTLE_END (R378): the start-up test begins. -/
def execEntropySettleEnd (s : State) : Host.Outcome State Fault Refusal :=
  .next <|
    if 2 ≤ s.start.stage ∧ s.signet.ent = .startup then
      { s with signet := { s.signet with settling := false } }
    else s

/-- A start-up test has ended (R378, R380). -/
def State.startupTest (s : State) (rct apt : Bool) : State :=
  let g : Signet := { s.signet with stepTests := min 15 (s.signet.stepTests + 1) }
  if rct || apt then
    let g1 : Signet := { g.noteFail rct apt with startupFail := true, startupFails := g.startupFails + 1 }
    let g2 : Signet := if 3 ≤ g1.startupFails then { g1 with ent := .failed, pool := [] } else g1
    ({ s with signet := g2 } : State).raise 15 3
  else { s with signet := { g with ent := .running, startupFails := 0 } }

/-- ENT_CTL_RESTART (R394). -/
def execEntCtlRestart (fn : Fin 32) (s : State) : Host.Outcome State Fault Refusal :=
  .next <| s.pfWrite fn 0x70010 fun x => { x with signet := x.signet.entStart }

/-- RAW_TAP_READ (R401): 512 fresh samples in TEST, a violation of kind 2 in other states. -/
def execRawTapRead (fn : Fin 32) (s : State) : Host.Outcome State Fault Refusal :=
  .next <|
    if s.start.stage < 3 ∨ !s.fnExists fn then s
    else if fn.val ≠ 0 then
      let x := s.violation 1 fn false 0x70200
      { x with out := { x.out with readData := 0 } }
    else if s.lcs ≠ .test then
      let x := s.violation 2 fn false 0x70200
      { x with out := { x.out with readData := 0 } }
    else
      let t := s.freshBytes 64
      let l := (List.range 16).map fun k => BitVec.ofNat 32 (leField t.1 (4 * k) 4)
      { t.2 with signet := { t.2.signet with rawTap := l },
                 out := { t.2.out with readData := l.getD 0 0 } }

/-! Schemes (R351 to R355). -/

/-- The scheme codes. -/
def schemeValid (c : Nat) : Bool :=
  c == 0x01 || c == 0x02 || c == 0x03 || c == 0x10 || c == 0x11 || c == 0x12 || c == 0x20
/-- ECDSA. -/
def isEcdsa (c : Nat) : Bool := c == 0x01 || c == 0x02
/-- RSA. -/
def isRsa (c : Nat) : Bool := c == 0x10 || c == 0x11 || c == 0x12
/-- Public-key bytes of a scheme. -/
def schemePub (c : Nat) : Nat :=
  match c with
  | 0x01 => 65 | 0x02 => 97 | 0x03 => 32 | 0x10 => 260 | 0x11 => 388 | 0x12 => 516 | 0x20 => 1952 | _ => 0
/-- Signature bytes of a scheme. -/
def schemeSig (c : Nat) : Nat :=
  match c with
  | 0x01 => 64 | 0x02 => 96 | 0x03 => 64 | 0x10 => 256 | 0x11 => 384 | 0x12 => 512 | 0x20 => 3309 | _ => 0
/-- Slot type that signs with a scheme. -/
def schemeType (c : Nat) : Nat :=
  match c with
  | 0x01 => 0x10 | 0x02 => 0x11 | 0x03 => 0x12 | 0x10 => 0x18 | 0x11 => 0x19 | 0x20 => 0x20 | _ => 0
/-- Scheme of a slot type; 0x21 for ML-KEM-768 and 0 for types without an engine (R344). -/
def typeScheme (t : Nat) : Nat :=
  match t with
  | 0x10 => 0x01 | 0x11 => 0x02 | 0x12 => 0x03 | 0x18 => 0x10 | 0x19 => 0x11 | 0x20 => 0x20 | 0x21 => 0x21
  | _ => 0
/-- Bytes of the public key that `KEY_PUBLIC` writes (R355). -/
def typePub (t : Nat) : Nat := if t = 0x21 then 1184 else schemePub (typeScheme t)
/-- The scheme runs on a lattice engine (R344). -/
def isLattice (c : Nat) : Bool := c == 0x20 || c == 0x21

/-- Random bytes that signing with a scheme draws: ECDSA nonce, RSA blinding and salt, ML-DSA rnd; none
for Ed25519 (R353, R354, R367). -/
def signDraw (scheme hash sctl : Nat) : Nat :=
  if scheme = 0x01 then 32 else if scheme = 0x02 then 48 else if scheme = 0x20 then 32
  else if isRsa scheme then schemeSig scheme + (if bitOf sctl 1 then digestLen hash else 0) else 0

/-- The curve of an ECDSA scheme. -/
def ecCurve (scheme : Nat) : Curve := if scheme = 0x01 then curve256 else curve384
/-- The digest that is signed: the message part itself where it is prehashed, else its hash (R352, R359). -/
def signDigest (hash flags : Nat) (msg : Bytes) : Bytes :=
  if bitOf flags 0 then fit (digestLen hash) msg else digest hash msg

/-- A signature (R352 to R354, R367); `flags` are the bits of `SCTL`. The bytes drawn hold the ECDSA nonce, a random
number tried as it stands; the RSA blinding factor, then the salt; or rnd of ML-DSA (log entry 51, DESIGN CHOICE).
None where they give no signature and are to be drawn again. -/
def signBytes (scheme hash flags : Nat) (priv ctx rnd msg : Bytes) : Option Bytes :=
  if isEcdsa scheme then
    let c := ecCurve scheme
    if c.scalarOk rnd then c.sign priv (signDigest hash flags msg) (beNat rnd) else none
  else if isRsa scheme then
    let n := schemeSig scheme
    some (rsaSign n hash (bitOf flags 1) priv (signDigest hash flags msg) (rnd.drop n))
  else if scheme = 0x03 then some (edSign priv msg)
  else dsaSign priv ctx rnd msg

/-- The public-key checks of R364. -/
def pubValid (scheme : Nat) (pub : Bytes) : Bool :=
  if isEcdsa scheme then ((ecCurve scheme).decode pub).isSome
  else if scheme = 0x03 then edPubOk pub
  else if isRsa scheme then rsaPubOk (schemePub scheme - 4) pub
  else true

/-- The comparands of a verification (R365, R366): none where a check on the signature fails before its last
comparison. -/
def comparands (scheme hash flags : Nat) (pub sig ctx msg : Bytes) : Option (Bytes × Bytes) :=
  if isEcdsa scheme then (ecCurve scheme).comparands pub (signDigest hash flags msg) sig
  else if isRsa scheme then
    rsaComparands (schemePub scheme - 4) hash (bitOf flags 1) pub (signDigest hash flags msg) sig
  else if scheme = 0x03 then edComparands pub msg sig
  else dsaComparands pub ctx msg sig

/-- The raw verdict word of a verification: of the two paths on the comparands, which a fault may spoil (R312, R366);
a check that fails before makes no comparison, and gives the word of a signature that is bad
(log entry 51, DEDUCED). -/
def sigVerdict (c : Option (Bytes × Bytes)) (raw : Option (BitVec 16)) : BitVec 16 :=
  match c with
  | none => 0xC33C
  | some x => raw.getD (verdictWord x.1 x.2)

/-- The public key of a private key of a type (R355). -/
def publicOf (t : Nat) (mat : Bytes) : Bytes :=
  let c := typeScheme t
  if isEcdsa c then (ecCurve c).public mat
  else if isRsa c then rsaPublic (schemeSig c) mat
  else if c = 0x03 then edPublic mat
  else if c = 0x20 then dsaPublic mat
  else kemPublic mat

/-! Descriptors (R357 to R363). -/

/-- `SCTL` bits. -/
def Desc.sctl (d : Desc) : Nat := d.fld 22 1
/-- Number of hallmarks a quote selects. -/
def quoteCount (d : Desc) : Nat := ((List.range 64).filter fun h => bitOf (d.fld 24 8) h).length
/-- Length of the quote (R369). -/
def quoteLen (d : Desc) : Nat := 80 + 56 * quoteCount d

/-- Fixed part of the input (R359): key, signature, context string. -/
def sigFixed (d : Desc) : Nat :=
  let c := d.fld 20 1
  (if d.is .sigVerify then schemePub c + schemeSig c else 0) + d.fld 23 1

/-- Bytes that the descriptor writes to `OUT`. -/
def sigOut (d : Desc) : Nat :=
  if d.is .sigSign then schemeSig (d.fld 20 1) else if d.is .random then d.fld 24 4
  else if d.is .sigQuote then quoteLen d + schemeSig (d.fld 20 1) else 0

/-- Bits and fields that R358 wants zero and for which R360 gives no step, so that step 4 checks them (R131). -/
def sigReserved (d : Desc) : Bool :=
  decide (d.sctl < 8) &&
  (if d.is .random then d.fld 20 2 == 0 && d.fld 28 4 == 0 && d.fld 23 1 == 0 && allZero (d.bytes 32 16)
   else if d.is .sigQuote then d.fld 23 1 == 0 else d.fld 24 8 == 0) &&
  (!d.is .sigVerify || allZero (d.bytes 48 16))

/-- The body checks of step 5 (R358, R360, R372). -/
def sigCheck5 (d : Desc) : Bool :=
  let c := d.fld 20 1
  let h := d.fld 21 1
  let n := d.declLen.toNat
  let signs := d.is .sigSign || d.is .sigVerify
  let pre := bitOf d.sctl 0
  (d.is .random ||
    schemeValid c && (c != 0x12 || d.is .sigVerify) &&
    (if isEcdsa c || isRsa c then decide (1 ≤ h) && decide (h ≤ 3) else h == 0)) &&
  (!pre || (signs && (isEcdsa c || isRsa c))) &&
  (!bitOf d.sctl 1 || isRsa c) && (!bitOf d.sctl 2 || d.is .random) &&
  (d.fld 23 1 == 0 || !signs || c == 0x20) &&
  (if signs then decide (sigFixed d ≤ n) && (!pre || n == sigFixed d + digestLen h)
   else if d.is .random then
     n == 0 && decide (1 ≤ d.fld 24 4) && decide (d.fld 24 4 ≤ 65536)
   else n == 32 && d.fld 24 8 != 0 &&
     (if isEcdsa c then h == 2 else if isRsa c then bitOf d.sctl 1 && h == 2 else true)) &&
  (if d.is .sigSign || d.is .sigQuote then handleOk 1 (d.fld 16 4) else d.fld 16 4 == 0) &&
  (if d.is .random then (d.ref 32).isZero else (d.ref 32).okFor n) &&
  (if d.is .sigVerify then (d.ref 48).isZero
   else (d.ref 48).ok && ((d.ref 48).sgl || decide (sigOut d ≤ (d.ref 48).len)))

/-- Steps 6 and 7: lists and lengths; the input itself is read when an engine starts (R350). -/
def sigRead (s : State) (env : Env) (d : Desc) : Except Bad Got :=
  match s.walkRef env (d.ref 32), s.walkRef env (d.ref 48) with
  | .error e, _ => .error e
  | _, .error e => .error e
  | .ok ins, .ok outs =>
    if extsLen outs < sigOut d then .error bad6
    else if extsLen ins ≠ d.declLen.toNat then .error { status := .lengthMismatch, step := 7 }
    else .ok (ins, outs, [])

/-- Engine `n`. -/
def State.engine (s : State) (n : Nat) : SigEngine := tget {} s.signet.engines n
/-- Engine `n` replaced. -/
def State.setEngine (s : State) (n : Nat) (e : SigEngine) : State :=
  { s with signet := { s.signet with engines := tset {} s.signet.engines n e } }

/-- Engines of a kind (R344). -/
def enginesOf (lattice : Bool) : List Nat :=
  if lattice then [8, 9, 10, 11] else List.range 8

/-- Some engine of the kind is in service (R399). -/
def State.kindServes (s : State) (lattice : Bool) : Bool :=
  (enginesOf lattice).any fun n => !(s.engine n).katFail

/-- The request is a descriptor's. -/
def SigReq.isDesc (q : SigReq) : Bool :=
  match q.client with
  | .desc _ _ => true
  | _ => false

/-- Descriptors that the signet block holds (R347): dispatched, and waiting for an engine or for random data; one whose
lists are still read among them. -/
def State.sigHeld (s : State) : Nat :=
  (s.rings.map fun (e : Nat × Ring) =>
    (e.2.work.filter fun w => w.phase == .reading && w.desc.family == 4).length).foldl (· + ·) 0 +
  (s.signet.queue.filter (·.isDesc)).length +
  (s.signet.waits.filter fun w => match w with
    | .random _ _ => true
    | .engine n => ((s.engine n).busy.map (·.isDesc)).getD false
    | _ => false).length

/-- The register of a hallmark is readable from ring `r` (R329): ring 0 always may. -/
def State.hmReadable (s : State) (h r : Nat) : Bool :=
  r == 0 || (s.hallmark h).owner.getLsbD (fnOf r) || (s.hallmark h).readAll

/-- The slot a signing descriptor reserves, given back (R178). -/
def State.sigGiveBack (s : State) (d : Desc) : State :=
  if d.is .sigSign || d.is .sigQuote then s.unreserve (handleIndex (d.fld 16 4)) else s

/-- `RANDOM` with its bytes (R386, R363). -/
def randomDone (s : State) (r seq : Nat) (d : Desc) (outs : List Ext) (b : Bytes) (re : Bool) : State :=
  ((s.writeOut r outs 0 b).bump 17 12 b.length).finishDone r seq d 0
    (leBytes 4 b.length ++ [if re then 1 else 0])

/-- `PRED_RES` of a `RANDOM` (R383, R390). -/
def randomPred (s : State) (d : Desc) : Bool := bitOf d.sctl 2 || s.signet.predResAll

/-- A `RANDOM` draws, waits for a pool block, or fails (R383 to R386). -/
def randomGo (s : State) (r seq : Nat) (d : Desc) (outs : List Ext) : State :=
  match s.draw 2 (d.fld 24 4) (randomPred s d) with
  | .ok b re s1 => randomDone s1 r seq d outs b re
  | .fail s1 => s1.finishBad r seq d (bad8 .entropyFail)
  | .wait => s.waitFor (.random r seq)

/-- The slot check of a signing descriptor (R177, R361). -/
def signCheck (s : State) (r : Nat) (d : Desc) : Option Status :=
  let k := s.slot (handleIndex (d.fld 16 4))
  slotCheck k (fnOf r) (k.type == BitVec.ofNat 8 (schemeType (d.fld 20 1)) && hasAttr k 3)

/-- Step 8 at dispatch (R361, R370, R399): refused, drawn, or waiting for an engine with its slot
reserved. -/
def sigStart (s : State) (r seq : Nat) (d : Desc) (got : Got) : State :=
  let c := d.fld 20 1
  let signs := d.is .sigSign || d.is .sigQuote
  let refuse := fun st => s.finishBad r seq d (bad8 st)
  let s1 := s.keepGot r seq got
  if d.is .random then randomGo s1 r seq d got.2.1
  else if !d.is .sigQuote && decide (65536 < d.declLen.toNat - sigFixed d) then refuse .lengthLimit
  else match (if signs then signCheck s r d else none) with
    | some st => refuse st
    | none =>
      if d.is .sigQuote && (List.range 64).any fun h =>
          bitOf (d.fld 24 8) h && !s.hmReadable h r then refuse .notPermitted
      else if !s.kindServes (isLattice c) then refuse .facetFenced
      else
        let s2 := if signs then s1.reserve (handleIndex (d.fld 16 4)) else s1
        { s2 with signet := { s2.signet with
          queue := s2.signet.queue ++
            [{ client := .desc r seq, lattice := isLattice c, scheme := c, desc := some d }] } }

/-- The quote (R369 to R371). -/
def quoteBytes (s : State) (d : Desc) (nonce : Bytes) : Bytes :=
  let mask := d.fld 24 8
  leBytes 4 0x4B575154 ++ [1, BitVec.ofNat 8 (d.fld 20 1), s.keys.deviceNumber, 0] ++
    leBytes 4 s.keys.domainId.toNat ++ zeros 4 ++ s.idHashBytes ++ leBytes 8 s.rtc ++
    fit 32 nonce ++ leBytes 8 mask ++
    (((List.range 64).filter fun h => bitOf mask h).map fun h =>
      let x := s.hallmark h
      leBytes 8 x.extCount.toNat ++ (if x.torn then List.replicate 48 0xFF else x.h)).flatten

/-- Bytes that the engine signs (R362). -/
def signedLen (d : Desc) : Nat := if d.is .sigQuote then quoteLen d else d.declLen.toNat

/-- The charge of a signing descriptor (R362); none when the key's limits forbid it. -/
def sigCharge (s : State) (d : Desc) : Option State :=
  if d.is .sigVerify then some s
  else
    let i := handleIndex (d.fld 16 4)
    if (s.slot i).mayCharge 1 (blocksOf (signedLen d)) then
      some (s.modSlot i fun k => k.charge 1 (blocksOf (signedLen d)))
    else none

/-- A signing or verifying descriptor ends, whatever it held given back. -/
def sigEnd (s : State) (r seq : Nat) (d : Desc) (c : Cpl) : State := (s.sigGiveBack d).finish r seq c

/-- The signature of a signing descriptor. -/
def sigOf (s : State) (d : Desc) (q : SigReq) : Option Bytes :=
  let cl := if d.is .sigSign then d.fld 23 1 else 0
  signBytes (d.fld 20 1) (d.fld 21 1) (d.sctl % 4) (s.material (handleIndex (d.fld 16 4))) (q.input.take cl) q.rnd
    (q.input.drop cl)

/-- The check of an RSA signature with the public exponent, before its release, fails (R367): the computation has gone
wrong, or the key is none that signs. -/
def rsaBad (s : State) (d : Desc) (q : SigReq) (sig : Bytes) (spoilt : Bool) : Bool :=
  let c := d.fld 20 1
  let cl := if d.is .sigSign then d.fld 23 1 else 0
  isRsa c && (spoilt || sigVerdict (comparands c (d.fld 21 1) (d.sctl % 4)
    (rsaPublic (schemeSig c) (s.material (handleIndex (d.fld 16 4)))) sig [] (q.input.drop cl)) none != 0x3CC3)

/-- The raw verdict word of a `SIG_VERIFY` (R366). -/
def verifyWord (d : Desc) (q : SigReq) (raw : Option (BitVec 16)) : BitVec 16 :=
  let c := d.fld 20 1
  let rest := q.input.drop (schemePub c + schemeSig c)
  sigVerdict (comparands c (d.fld 21 1) (d.sctl % 4) (q.input.take (schemePub c))
    (slice q.input (schemePub c) (schemeSig c)) (rest.take (d.fld 23 1)) (rest.drop (d.fld 23 1))) raw

/-- A raw verdict word that is neither of the two sets a flag of its engine (R398). -/
def State.noteWord (s : State) (n : Nat) (w : BitVec 16) : State :=
  if w = 0x3CC3 ∨ w = 0xC33C then s else s.setEngine n { s.engine n with verdictFault := true }

/-- The engine's flag and the alarm of an operation whose descriptor is aborted or gone: it runs to its end all the same
(R142, R345, R366, R367, R398). -/
def State.opLost (s : State) (n : Nat) (q : SigReq) (sig : Bytes) (raw : Option (BitVec 16)) (spoilt : Bool) : State :=
  match q.desc with
  | none => s
  | some d =>
    if d.is .sigVerify then
      if pubValid (d.fld 20 1) (q.input.take (schemePub (d.fld 20 1))) then
        (s.noteWord n (verifyWord d q raw)).verdict (verifyWord d q raw)
      else s
    else if rsaBad s d q sig spoilt then (s.setEngine n { s.engine n with signCheck := true }).busIntegrity
    else s

/-- The end of a signing operation (R363, R367, R369): `input` is the quote, or the input. -/
def signDone (s : State) (r seq : Nat) (d : Desc) (got : Got) (q : SigReq) (sig : Bytes) (checkFails : Bool)
    (n : Nat) : State :=
  let verdict := fun (w : Nat) => leBytes 2 w ++ zeros 2 ++ leBytes 2 w
  if rsaBad s d q sig checkFails then
    let s1 := s.setEngine n { s.engine n with signCheck := true }
    (sigEnd s1 r seq d (cplOf d .signatureBad 0 (verdict 0xC33C))).busIntegrity
  else
    let out := if d.is .sigQuote then q.input ++ sig else sig
    let res := if d.is .sigQuote then leBytes 2 q.input.length ++ leBytes 2 sig.length
      else leBytes 2 sig.length
    sigEnd (s.emit r false got.1 got.2.1 0 out) r seq d (cplOf d .done 0 res)

/-- The end of a verification (R363 to R366). -/
def verifyDone (s : State) (r seq : Nat) (d : Desc) (q : SigReq) (raw : Option (BitVec 16)) (n : Nat) :
    State :=
  let c := d.fld 20 1
  if !pubValid c (q.input.take (schemePub c)) then s.finishBad r seq d (bad8 .signetInput)
  else
    let w := verifyWord d q raw
    let good := w = 0x3CC3
    let res := leBytes 2 (if good then 0x3CC3 else 0xC33C) ++ zeros 2 ++ leBytes 2 w.toNat
    ((s.noteWord n w).finish r seq (cplOf d (if good then .done else .signatureBad) 0 res)).verdict w

end Sys2Proof.Machine
end

