-- ==== Sys2Proof/Machine/Blob.lean ====
section
/-!
DEFINITION. Wrapped key blobs and persistent key records (R189 to R196, R215), shared by the key-custody
and the vault families.
-/

namespace Sys2Proof.Machine

/-- `MAGIC` of a blob and of its inner header (R189, R190). -/
def blobMagic : Nat := 0x4B574B42

/-- A key as a blob carries it (R190). -/
structure KeyData where
  type : Nat
  attr : Nat
  invLimit : Nat
  blockLimit : Nat
  domain : Nat
  mat : Bytes
deriving DecidableEq, Repr

/-- The 32-byte inner header and the material (R190). -/
def KeyData.inner (k : KeyData) : Bytes :=
  leBytes 4 blobMagic ++ [1, BitVec.ofNat 8 k.type] ++ leBytes 2 k.mat.length ++ leBytes 4 k.attr ++
    leBytes 4 k.invLimit ++ leBytes 8 k.blockLimit ++ leBytes 4 k.domain ++ zeros 4 ++ k.mat

/-- The blob of a key under a wrapping key of class `cls` and index `idx` (R189). -/
def wrapBlob (key : Bytes) (cls idx : Nat) (k : KeyData) : Bytes :=
  let w := kwpWrap key k.inner
  leBytes 4 blobMagic ++ [1, BitVec.ofNat 8 k.type, BitVec.ofNat 8 cls, 0] ++ leBytes 4 idx ++
    leBytes 4 w.length ++ w

/-- The outer header of a blob that a descriptor carries (R191): `wrapper` is its handle. -/
def blobOuterOk (b : Bytes) (wrapper : Nat) : Bool :=
  let c := leField b 6 1
  leField b 0 4 == blobMagic && leField b 4 1 == 1 && leField b 7 1 == 0 &&
    (c == 1 || c == 2 || c == 4) && c == handleClass wrapper && leField b 8 4 == handleIndex wrapper &&
    leField b 12 4 + 16 == b.length

/-- The key in a blob, its inner header checked against the outer one and the attribute rules (R191);
none when the unwrap or a check fails. -/
def unwrapBlob (key : Bytes) (domain : Nat) (b : Bytes) : Option KeyData :=
  match kwpUnwrap key (b.drop 16) with
  | none => none
  | some p =>
    let k : KeyData :=
      { type := leField p 5 1, attr := leField p 8 4, invLimit := leField p 12 4,
        blockLimit := leField p 16 8, domain := leField p 24 4, mat := p.drop 32 }
    let len := leField p 6 2
    if 32 ≤ p.length ∧ leField p 0 4 = blobMagic ∧ leField p 4 1 = 1 ∧ k.type = leField b 5 1 ∧
        len = k.mat.length ∧ matLen k.type len = len ∧ typeOk k.type (if k.type = 5 then len else 0) ∧
        k.attr < 4096 ∧ attrOk k.type k.attr k.invLimit ∧ k.domain = domain ∧ leField p 28 4 = 0 then
      some k
    else none

/-! Persistent key records (R193). -/

/-- A persistent key as its record holds it. -/
structure PKey where
  index : Nat
  type : Nat
  blocksLeft : Nat
  invsLeft : Nat
  drkBlob : Bytes
  domBlob : Bytes
deriving DecidableEq, Repr

/-- The record's payload. -/
def PKey.bytes (p : PKey) : Bytes :=
  if p.type = 0 then [BitVec.ofNat 8 p.index] ++ zeros 19
  else [BitVec.ofNat 8 p.index, BitVec.ofNat 8 p.type, 0, 0] ++ leBytes 8 p.blocksLeft ++
    leBytes 4 p.invsLeft ++ leBytes 4 p.drkBlob.length ++ p.drkBlob ++ p.domBlob

/-- The key in a payload. -/
def pkeyOf (b : Bytes) : PKey :=
  let n := leField b 16 4
  { index := leField b 0 1, type := leField b 1 1, blocksLeft := leField b 4 8, invsLeft := leField b 12 4,
    drkBlob := slice b 20 n, domBlob := b.drop (20 + n) }

/-- The name of a persistent key's record. -/
def pkeyName (i : Nat) : RecName := .sys 0x03 i

/-- Persistent key `i`: none when its record was never written, is torn, or holds no key. -/
def State.pkey (s : State) (i : Nat) : Option PKey :=
  let r := s.recNow (pkeyName i)
  match r.st with
  | .held => let p := pkeyOf r.payload; if p.type = 0 then none else some p
  | _ => none

/-- The contents of a persistent key's DRK blob; none when it does not unwrap under the present DRK
(R165, R193). -/
def State.pkeyData (s : State) (p : PKey) : Option KeyData :=
  match s.battery.drk with
  | none => none
  | some d => unwrapBlob d s.keys.domainId.toNat p.drkBlob

/-- Both blobs of a persistent key (R193): under the DRK and under the domain key. -/
def State.pkeyBlobs (s : State) (dk : Bytes) (k : KeyData) : Bytes × Bytes :=
  (wrapBlob (s.battery.drk.getD []) 0 0 k, wrapBlob dk 4 0 k)

/-! The domain-key record (R215). -/

/-- Its name. -/
def domainName : RecName := .sys 0x02 0

/-- Its payload. The inner header of the blob has no attributes and no limits, and the domain's own identifier
(log entry 49, DESIGN CHOICE). -/
def State.domainBytes (s : State) (devNumber : Byte) (domainId : Word32) (dk : Bytes) (rewrap : Bool) : Bytes :=
  let k : KeyData := ⟨2, 0, 0, 0, domainId.toNat, dk⟩
  let b := wrapBlob (s.battery.drk.getD []) 0 0 k
  [devNumber, if rewrap then 1 else 0, 0, 0] ++ leBytes 4 domainId.toNat ++ leBytes 4 b.length ++ b

/-! Unwrapping under a handle (R177, R191). -/

/-- What an unwrap needs: the key, and how to charge it. -/
structure Wrapper where
  key : Bytes
  /-- slot charged; none for the domain key and for a persistent key -/
  slot : Option Nat
  /-- persistent key charged -/
  pers : Option PKey
deriving DecidableEq, Repr

/-- The wrapper of an unwrap by function `f`, or the status of its refusal: a slot under R177 with
`NOT_PERMITTED` for a missing `UNWRAP`, a persistent key, the domain key while `READY` (R191). -/
def State.unwrapper (s : State) (h f : Nat) : Except Status Wrapper :=
  let i := handleIndex h
  if handleClass h = 4 then
    match s.keys.custody, s.keys.domainKey with
    | .ready, some k => .ok ⟨k, none, none⟩
    | _, _ => .error .notPermitted
  else if handleClass h = 2 then
    if s.keys.custody ≠ .ready then .error .notPermitted
    else match s.pkey i with
      | none => .error .slotEmpty
      | some p => match s.pkeyData p with
        | none => .error .notPermitted
        | some k =>
          if !bitOf k.attr 5 then .error .notPermitted
          else if !(k.type = 1 ∨ k.type = 2) then .error .modeKeyClash
          else if p.invsLeft = 0 ∨ p.blocksLeft = 0 then .error .keySpent
          else .ok ⟨k.mat, none, some p⟩
  else
    let k := s.slot i
    match slotReach k f with
    | some e => .error e
    | none =>
      if !hasAttr k 5 then .error .notPermitted
      else if !(k.type = 1 ∨ k.type = 2) then .error .modeKeyClash
      else if k.st = .spent then .error .keySpent
      else .ok ⟨s.material i, some i, none⟩

/-- The charge of a wrapper, one invocation and its blocks (R179, R191): none when a limit forbids it.
A persistent wrapper pays from its record, whose write the descriptor does not wait for (log entry 15, DEDUCED). -/
def State.chargeWrapper (s : State) (w : Wrapper) (blocks : Nat) : Option State :=
  match w.slot, w.pers with
  | some i, _ => if (s.slot i).mayCharge 1 blocks then some (s.modSlot i fun k => k.charge 1 blocks) else none
  | none, some p =>
    if p.blocksLeft < blocks then none
    else
      let p1 := { p with blocksLeft := p.blocksLeft - blocks,
                         invsLeft := if p.invsLeft = 0xFFFFFFFF then p.invsLeft else p.invsLeft - 1 }
      some (s.askRec (pkeyName p.index) 0x03 p1.bytes)
  | none, none => some s

/-- An unwrap of a blob that a descriptor of function `f` carries under the handle `h` (R191): the key,
or the status, with the charges made. -/
def State.unwrap (s : State) (h f : Nat) (b : Bytes) : Except Status KeyData × State :=
  match s.unwrapper h f with
  | .error e => (.error e, s)
  | .ok w =>
    match s.chargeWrapper w (blocksOf (b.length - 16)) with
    | none => (.error .keySpent, s)
    | some s1 =>
      match unwrapBlob w.key (if handleClass h = 1 then 0 else s.keys.domainId.toNat) b with
      | none => (.error .tagFail, s1)
      | some k => (.ok k, s1)

end Sys2Proof.Machine
end

