-- ==== Sys2Proof/Machine/Vault.lean ====
section
/-!
DEFINITION. The vault family (R432 to R459): enrolment, revocation, rekeying, arming, checkpoints, commits,
imports and moves.
-/

namespace Sys2Proof.Machine

/-! Body (R451, R452). -/

/-- `ENDPOINT`. -/
def Desc.endpoint (d : Desc) : Nat := d.fld 16 4
/-- Bits of `VCTL`. -/
def Desc.vctl (d : Desc) (i : Nat) : Bool := bitOf (d.fld 24 1) i

/-- The bits of `VCTL` an opcode uses. -/
def vctlMask (d : Desc) : Nat :=
  if d.is .vaultEnroll then 0x07 else if d.is .vaultCheckpoint then 0x78 else 0

/-- The body checks of step 5 (R451, R452). -/
def vaultCheck5 (d : Desc) : Bool :=
  let one := d.is .vaultEnroll || d.is .vaultRevoke || d.is .vaultRekey || d.is .vaultArm || d.is .vaultQuery
  let n := d.declLen.toNat
  let inp := d.is .vaultEnroll || d.is .vaultRekey || d.is .vaultImport ||
    (d.is .vaultCheckpoint && d.vctl 6)
  (if one then decide (d.endpoint < 2 ^ 20) else d.is .vaultCommit || d.endpoint == 0) &&
  (if d.is .vaultArm then
     decide (1 ≤ d.fld 20 4) && decide (d.fld 20 4 ≤ 2 ^ 20) && decide (d.endpoint + d.fld 20 4 ≤ 2 ^ 20)
   else d.fld 20 4 == 0) &&
  d.fld 24 1 &&& (255 - vctlMask d) == 0 &&
  (if d.is .vaultEnroll && d.vctl 1 then decide (d.fld 25 1 < 32) else d.fld 25 1 == 0) &&
  (if d.is .vaultFormat then decide (12 ≤ d.fld 26 1) && decide (d.fld 26 1 ≤ 16)
   else if d.is .vaultCheckpoint then
     d.fld 26 1 == 0 || (decide (12 ≤ d.fld 26 1) && decide (d.fld 26 1 ≤ 16))
   else d.fld 26 1 == 0) &&
  ((d.is .vaultCheckpoint && d.vctl 6) || d.fld 27 1 == 0) &&
  (if d.is .vaultEnroll || d.is .vaultRekey then handleOk 1 (d.fld 28 4) || handleOk 4 (d.fld 28 4)
   else d.fld 28 4 == 0) &&
  (!(d.is .vaultCheckpoint && d.vctl 6) || n == 8) &&
  (if inp then (d.ref 32).okFor n else (d.ref 32).isZero) &&
  (if d.is .vaultQuery then (d.ref 48).ok && ((d.ref 48).sgl || decide (64 ≤ (d.ref 48).len))
   else if d.is .vaultCheckpoint then (d.ref 48).ok else (d.ref 48).isZero)

/-- Steps 6 and 7: lists and lengths. The input itself is read at step 8. -/
def vaultRead (s : State) (env : Env) (d : Desc) : Except Bad Got :=
  match s.walkRef env (d.ref 32), s.walkRef env (d.ref 48) with
  | .error e, _ => .error e
  | _, .error e => .error e
  | .ok ins, .ok outs =>
    if d.is .vaultQuery && decide (extsLen outs < 64) then .error bad6
    else if extsLen ins ≠ d.declLen.toNat then .error { status := .lengthMismatch, step := 7 }
    else .ok (ins, outs, [])

/-- The vault states in which an opcode is served (R452). -/
def vaultServes (d : Desc) (v : VaultState) : Bool :=
  if d.is .vaultFormat then v == .none || v == .moved
  else if d.is .vaultEnroll || d.is .vaultRekey then v == .active || v == .sealed
  else if d.is .vaultRevoke || d.is .vaultCommit then v == .active || v == .sealed || v == .recovering
  else if d.is .vaultArm then v == .active
  else if d.is .vaultQuery then v != .none && v != .loading
  else if d.is .vaultCheckpoint then
    v == .active || v == .sealed || (v == .recovering && !d.vctl 6) || (v == .moved && d.vctl 5)
  else v == .none

/-- The refusals of step 8 that every opcode shares (R403, R452). -/
def vaultRefuse (s : State) (d : Desc) : Option Status :=
  if s.keys.custody ≠ .ready then some .notPermitted
  else if !vaultServes d s.vault.st then some .notPermitted
  else if s.start.gddrOut && (d.is .vaultFormat || d.is .vaultImport || d.is .vaultMoveOpen) then some .notPermitted
  else none

/-! Enrolment, revocation, rekeying, query (R454 to R459). -/

/-- The fresh key of a blob that an enrolment or a rekey carries (R191, R454). -/
def freshKey (s : State) (d : Desc) (f : Nat) (blob : Bytes) : Except Status KeyData × State :=
  if !blobOuterOk blob (d.fld 28 4) then (.error .descMalformed, s)
  else match s.unwrap (d.fld 28 4) f blob with
    | (.error e, s1) => (.error e, s1)
    | (.ok k, s1) => if k.type = 2 ∧ k.attr = 2 then (.ok k, s1) else (.error .tagFail, s1)

/-- The entry that an enrolment writes (R454, R455): `old` is the entry replaced, `p` the pip-table entry
after it. -/
def enrolled (s : State) (d : Desc) (data : Bytes) (k : KeyData) (old : VEntry) (p : PipEntry) : VEntry :=
  let next := leField data 0 8
  let again := old.st != .empty && !old.failed
  { st := .enrolled, hook := d.vctl 1, sha3 := d.vctl 2, slot := d.fld 25 1, key := k.mat,
    prevKey := zeros 32,
    hwm := if old.failed then p.hwm.toNat else if again then max old.hwm (next - 1) else next - 1,
    window := if old.failed then p.window else if again && decide (next - 1 ≤ old.hwm) then old.window
      else BitVec.allOnes 64,
    rekeySeq := next, recLimit := if k.invLimit = 0 then 2 ^ 32 else k.invLimit,
    blockLimit := if k.blockLimit = 0 then 2 ^ 64 - 1 else k.blockLimit,
    keyGen := if again then old.keyGen + 1 else 1,
    foldEpoch := if old.failed then s.vault.record.openEpoch else if again then old.foldEpoch else 0,
    enrollTime := s.rtc, appletData := slice data 8 64, version := old.version }

/-- VAULT_ENROLL at step 8 (R454, R455). -/
def vaultEnroll (s : State) (r seq : Nat) (d : Desc) (ins : List Ext) (env : Env) : State :=
  match s.readAll env ins with
  | .error b => s.finishBad r seq d b
  | .ok data =>
    let e := d.endpoint
    let next := leField data 0 8
    let old := s.ventry e
    let refuse := fun (x : State) st => x.finishBad r seq d (bad8 st)
    if next = 0 ∨ 2 ^ 40 ≤ next then refuse s .descMalformed
    else
      let got := s.readEntry e
      -- with `REPLACE` an entry that has failed before is not read (R455)
      if !got.2 && !(old.failed && d.vctl 0) then refuse got.1 .vaultIntegrity
      else if old.st ≠ .empty ∧ !old.failed ∧ !d.vctl 0 then refuse got.1 .notPermitted
      else match freshKey got.1 d (fnOf r) (data.drop 72) with
      | (.error st, s0) => refuse s0 st
      | (.ok k, s0) =>
        let s1 := if old.st = .empty ∨ old.failed then s0 else s0.soundPip e
        let p := s1.pipe e
        let top := BitVec.ofNat 40 (next - 1)
        let p1 : PipEntry :=
          if (old.st = .empty ∧ !old.failed) ∨ p.checkErr ≠ 0 then { hwm := top, window := BitVec.allOnes 64, known := true }
          else if p.hwm.toNat < next - 1 then
            { p with hwm := top, window := BitVec.allOnes 64, known := true, revoked := false }
          else { p with known := true, revoked := false }
        let s2 := (s1.setPipe e p1).setVentry e (enrolled s1 d data k old p1)
        let s3 := if d.vctl 0 then s2.dropSched fun x => x == .endpoint e else s2
        s3.finishDone r seq d 0 (leBytes 8 p1.hwm.toNat)

/-- The entry of an endpoint that an operation needs, read, its pip-table entry sound (R416, R417, R425, R449). -/
def knownEntry (s : State) (e : Nat) : State × Except Status VEntry :=
  if s.vault.st = .moved then (s, .error .endpointUnknown)
  else
    let r := s.readEntry e
    if !r.2 then (r.1, .error .vaultIntegrity)
    else
      let v := r.1.ventry e
      if v.st = .empty then (r.1, .error .endpointUnknown) else (r.1.soundPip e, .ok v)

/-- VAULT_REVOKE at step 8 (R457). -/
def vaultRevoke (s : State) (r seq : Nat) (d : Desc) : State :=
  let e := d.endpoint
  match knownEntry s e with
  | (s1, .error st) => s1.finishBad r seq d (bad8 st)
  | (s1, .ok v) =>
    let p := s1.pipe e
    (((s1.setVentry e { v with st := .revoked, key := zeros 32, prevKey := zeros 32, revokeTime := s.rtc }).setPipe e
      { p with revoked := true, armed := false }).dropSched fun x => x == .endpoint e).finishDone r seq d 0
      (leBytes 8 p.hwm.toNat)

/-- VAULT_REKEY at step 8 (R456). -/
def vaultRekey (s : State) (r seq : Nat) (d : Desc) (ins : List Ext) (env : Env) : State :=
  match s.readAll env ins, knownEntry s d.endpoint with
  | .error b, _ => s.finishBad r seq d b
  | .ok _, (s0, .error st) => s0.finishBad r seq d (bad8 st)
  | .ok data, (s0, .ok v) =>
    let at_ := leField data 0 8
    if v.st = .revoked then s0.finishBad r seq d (bad8 .endpointRevoked)
    else if at_ ≤ (s0.pipe d.endpoint).hwm.toNat ∨ 2 ^ 40 ≤ at_ then s0.finishBad r seq d (bad8 .descMalformed)
    else match freshKey s0 d (fnOf r) (data.drop 8) with
      | (.error st, s1) => s1.finishBad r seq d (bad8 st)
      | (.ok k, s1) =>
        ((s1.dropSched fun x => x == .endpoint d.endpoint).setVentry d.endpoint { v with
          key := k.mat, prevKey := v.key, rekeySeq := at_, recCount := 0, blockCount := 0,
          recLimit := if k.invLimit = 0 then 2 ^ 32 else k.invLimit,
          blockLimit := if k.blockLimit = 0 then 2 ^ 64 - 1 else k.blockLimit,
          keyGen := v.keyGen + 1 }).finishDone r seq d 0 (leBytes 4 (v.keyGen + 1))

/-- The 64-byte record of `VAULT_QUERY` (R459). -/
def queryBytes (s : State) (e : Nat) (v : VEntry) : Bytes :=
  let p := s.pipe e
  let armed := p.armedIn s.vault.record.openEpoch
  (v.bytes e).take 7 ++ [BitVec.ofNat 8 (ofBits [armed, p.coarse])] ++ leBytes 8 p.hwm.toNat ++
    leBytes 8 p.window.toNat ++ leBytes 8 v.rekeySeq ++ leBytes 8 v.recCount ++ leBytes 8 v.recLimit ++
    leBytes 8 v.blockCount ++ leBytes 4 v.keyGen ++
    leBytes 4 (if armed then p.limitX - p.hwm.toNat else 0)

/-- VAULT_QUERY at step 8 (R459). -/
def vaultQuery (s : State) (r seq : Nat) (d : Desc) (outs : List Ext) : State :=
  let e := d.endpoint
  match knownEntry s e with
  | (s1, .error st) => s1.finishBad r seq d (bad8 st)
  | (s1, .ok v) =>
    let st : Byte := if v.st = .enrolled then 1 else 2
    (s1.writeOut r outs 0 (queryBytes s1 e v)).finishDone r seq d 0 [st]

/-! Arming (R428 to R430, R458). -/

/-- The endpoint may be armed (R428 step 1). -/
def State.mayArm (s : State) (e : Nat) : Bool :=
  let p := s.pipe e
  s.vault.st == .active && p.checkErr == 0 && p.known && !p.revoked && !p.coarse

/-- An arm taken into the batch (R428 steps 1 and 2, R429), false where its fold finds a vault entry that cannot be
read: it is given up (R417). -/
def State.tryArm (s : State) (e : Nat) (owner : Option (Nat × Nat)) : State × Bool :=
  let t := if s.vault.fold.elem e then s.tryFold e else (s, true)
  if t.2 then
    (({ t.1 with vault := { t.1.vault with
      arms := t.1.vault.arms ++ [⟨e, .gathered, owner⟩], batching := true } } : State).bump 24 4 1, true)
  else t

/-- The same, asked for at the port. -/
def State.gatherArm (s : State) (e : Nat) (owner : Option (Nat × Nat)) : State := (s.tryArm e owner).1

/-- An arm job whose arms have all ended completes (R458). -/
def State.endArmJobs (s : State) : State :=
  let ended := s.vault.armJobs.filter fun j => s.vault.arms.all fun a => a.by_ != some (j.ring, j.seq)
  let s1 : State := { s with vault := { s.vault with
    armJobs := s.vault.armJobs.filter fun j => !(ended.elem j) } }
  ended.foldl (fun x j => x.doneWork j.ring j.seq 0
    (leBytes 4 j.armedNow ++ leBytes 4 j.already ++ leBytes 4 j.skipped ++
      leBytes 4 x.vault.record.openEpoch)) s1

/-- A `VAULT_ARM` one of whose folds has failed its verification ends with its arms (R417). -/
def State.armLost (s : State) (r seq : Nat) : State :=
  ({ s with vault := { s.vault with
    arms := s.vault.arms.filter fun a => a.by_ != some (r, seq)
    armJobs := s.vault.armJobs.filter fun j => !(j.ring == r && j.seq == seq) } } : State).failWork r seq
    (bad8 .vaultIntegrity)

/-- VAULT_ARM at step 8 (R458). -/
def vaultArm (s : State) (r seq : Nat) (d : Desc) : State :=
  let n := d.fld 20 4
  let p := s.pipe d.endpoint
  let refuse := fun st => s.finishBad r seq d (bad8 st)
  if n = 1 ∧ (!p.known ∨ p.checkErr ≠ 0) then refuse .endpointUnknown
  else if n = 1 ∧ p.revoked then refuse .endpointRevoked
  else if n = 1 ∧ p.coarse then refuse .notPermitted
  else
    let ids := (List.range n).map (d.endpoint + ·)
    let ok := ids.filter fun e => s.mayArm e
    let fresh := ok.filter fun e => !(s.pipe e).armedIn s.vault.record.openEpoch
    let job : ArmJob := ⟨r, seq, fresh.length, ok.length - fresh.length, n - ok.length, 0⟩
    let t := fresh.foldl (fun (a : State × Bool) e => if a.2 then a.1.tryArm e (some (r, seq)) else a) (s, true)
    if t.2 then ({ t.1 with vault := { t.1.vault with armJobs := t.1.vault.armJobs ++ [job] } } : State).endArmJobs
    else t.1.armLost r seq

/-- Arms that cannot go on: counted as skipped (R438, R458). -/
def State.dropArms (s : State) (which : Arm → Bool) : State :=
  let l := s.vault.arms.filter which
  { s with vault := { s.vault with
    arms := s.vault.arms.filter fun a => !which a
    armJobs := s.vault.armJobs.map fun j =>
      let k := (l.filter fun a => a.by_ == some (j.ring, j.seq)).length
      { j with armedNow := j.armedNow - k, skipped := j.skipped + k } } }

/-- A bit set in a page. -/
def setPageBit (b : Bytes) (e : Nat) : Bytes :=
  b.set (e / 8 % 256) (byteAt b (e / 8 % 256) ||| BitVec.ofNat 8 (2 ^ (e % 8)))

/-- A bitmap page as the port will leave it: the page, and page writes of it that wait or run. -/
def State.pagePlanned (s : State) (p : Nat) : Bytes :=
  let ws := (s.nvm.writing.toList ++ s.nvm.queue ++ s.nvm.moving.map (·.1)).filter fun w =>
    w.page == p && w.kind != .refresh true
  ws.foldl (fun _ w => w.data) (s.nvm.page p)

/-- The batch closes (R429): each page that it touches is written once, in ascending order. -/
def State.closeBatch (s : State) : State :=
  if !s.vault.batching then s
  else
    let s0 : State := { s with vault := { s.vault with batching := false } }
    if s.vault.st ≠ .active then (s0.dropArms fun a => a.stage == .gathered).endArmJobs
    else
      let k := s.vault.record.openEpoch
      let l := (s.vault.arms.filter fun a => a.stage == .gathered).map (·.endpoint)
      let pages := ((l.map (· / 2048)).mergeSort fun a b => decide (a ≤ b)).dedup
      let writes := pages.map fun p =>
        let page := bitmapPage k p
        ⟨1, page, (l.filter fun e => e / 2048 == p).foldl setPageBit (s.pagePlanned page),
          PageKind.arm (k % 16) p⟩
      ({ s0 with vault := { s0.vault with arms := s0.vault.arms.map fun a =>
          if a.stage = .gathered then { a with stage := .writing } else a } } : State).askPages writes

/-- A bitmap page has been written: the arms whose bits it holds go to step 4. -/
def State.armPage (s : State) (set p : Nat) : State :=
  { s with vault := { s.vault with arms := s.vault.arms.map fun a =>
      if a.stage = .writing ∧ a.endpoint / 2048 = p ∧ s.dirty set a.endpoint then { a with stage := .written }
      else a } }

/-- A bitmap page that could be neither written nor relocated: its arms are given up. -/
def State.armPageFailed (s : State) (p : Nat) : State :=
  (s.dropArms fun a => a.stage == .writing && a.endpoint / 2048 == p).endArmJobs

/-- Step 4 of every arm whose page has been written (R428). -/
def State.completeArms (s : State) : State :=
  let l := s.vault.arms.filter fun a => a.stage == .written
  let k := s.vault.record.openEpoch
  let s1 := l.foldl (fun x a =>
    let e := a.endpoint
    let t := if x.vault.fold.elem e then x.tryFold e else (x.meetBank e, true)
    let y := t.1
    if !t.2 then (match a.by_ with
      | some o => y.armLost o.1 o.2
      | none => y)
    else if y.mayArm e then (y.setPipe e ((y.pipe e).arm k x.vault.record.lOpen)).bump 18 9 1 else y) s
  ({ s1 with vault := { s1.vault with arms := s1.vault.arms.filter fun a => a.stage != .written } } : State).endArmJobs

/-! Exports (R434 to R436, R444 to R446). -/

/-- Lines of non-zero version (R415). -/
def Vault.lines (v : Vault) : Tab Bool :=
  (v.stored.filter fun e => e.2.version != 0).foldl (fun t e => markLines t (writeLines e.1)) []

/-- A line of a key has non-zero version: its node, or an entry it belongs to. -/
def Vault.lineLives (v : Vault) (all : Tab Bool) (k : Nat) : Bool := tget false all k && v.vek.isSome

/-- The 64 bytes of a line; tags of entries never written, beside others in one line, are left open. -/
def Vault.lineBytes (v : Vault) (free k : Nat) : Bytes :=
  let g := k / 2 ^ 24
  let iface := k / 2 ^ 22 % 4
  let off := k % 2 ^ 22 * 64
  let vek := v.vek.getD []
  if g ≤ 5 then
    let level := 5 - g
    let j := (off - nodeBase level) / 64 * 4 + iface
    nodeBytes (v.vmk.getD []) level j (v.node level j) (v.kids level j)
  else if g = 6 then
    ((List.range 4).map fun q =>
      let e := ((off - 0x04000000) / 16 + q) * 4 + iface
      let x := tget {} v.stored e
      if x.version = 0 then beBytes 16 (Config.freeBits (free + e) 128).toNat
      else (storeEntry vek x e).2).flatten
  else
    let e := off / 256 * 4 + iface
    slice (storeEntry vek (tget {} v.stored e) e).1 (off % 256) 64

/-- One record of a stream (R445). -/
def Vault.recordBytes (v : Vault) (free k : Nat) : Bytes :=
  [BitVec.ofNat 8 (k / 2 ^ 22 % 4), 0, 0, 0] ++ leBytes 4 (k % 2 ^ 22) ++ v.lineBytes free k

/-- The image stream (R444 to R446). -/
def imageStream (s : State) (f : ChkForm) (full : Bool) (epoch : Nat) (keys : List Nat) : Bytes :=
  let v := s.vault
  let kind : Nat := if f.move then 3 else if full then 1 else 2
  let head := leBytes 4 0x4B575649 ++ [1, BitVec.ofNat 8 kind, s.keys.deviceNumber,
      if f.move then f.target else 0] ++ leBytes 4 s.keys.domainId.toNat ++ leBytes 4 epoch ++
    leBytes 4 (if kind = 2 then v.record.committed else 0) ++ leBytes 4 v.record.lOpen ++
    leBytes 8 keys.length ++ (if f.move then leBytes 8 f.nonce.toNat else zeros 8) ++ zeros 24 ++ v.root
  let body := head ++ (keys.map fun k => v.recordBytes s.free k).flatten
  let count := (v.stored.filter fun e => e.2.version != 0 && e.2.st != .empty).length
  let tail := sha384 body ++ leBytes 4 count ++ zeros 12
  body ++ tail ++ cmac (v.vmk.getD []) (0xFF :: tail)

/-- Lines of the GDDR6 regions that an export holds: all of non-zero version, or those written back since the
committed export (R434). -/
def Vault.due (v : Vault) (full : Bool) : Tab Bool := if full then v.lines else v.written

/-- Modified entries written back before an export, as far as `cap` lines cover what is then due; the other
write-backs are held until it ends (R434). -/
def prepareExport (full : Bool) (cap : Nat) (s : State) : State :=
  ((s.vault.entries.filter fun e => e.2.modified).map (·.1)).foldl (fun a e =>
    if (markLines (a.vault.due full) (writeLines e)).length ≤ cap then a.writeBack e else a) s

/-- Lines that wait in the vault cache (R415). -/
def Vault.waiting (v : Vault) : Tab Bool :=
  (v.entries.filter fun e => e.2.modified).foldl (fun t e => markLines t (writeLines e.1)) []

/-- The first flaw under a line that an export reads (R434). -/
def Vault.exportFlaw (v : Vault) (keys : List Nat) : Option VFlaw :=
  v.flaws.find? fun x => match x with
    | .entry e => (tagLine e :: entryLines e).any fun k => keys.elem k
    | .node j => !v.l0.elem j && keys.elem (nodeLine 0 j)

/-- A host write of the first `n` bytes of the output fails on the link. -/
def outFault (env : Env) (outs : List Ext) (n : Nat) : Bool :=
  (extsTake n outs).any fun e => decide (2 ^ 64 < e.addr + e.len) ||
    (env.faults.any fun f => decide (f.lo < e.addr + e.len) && decide (e.addr ≤ f.hi))

/-- How an export ends. -/
inductive Exported
  | ok (s : State) (records : Nat)
  | bad (s : State) (st : Status)

/-- The export of checkpoint `epoch` to `outs` (R434); a nonce read from `ins` under the output leaves that
undefined (R112). -/
def exportVault (s : State) (env : Env) (ins outs : List Ext) (f : ChkForm) (epoch : Nat) : Exported :=
  let full := f.full || f.move || s.vault.record.moveIn
  let cap := (extsLen outs - 208) / 72
  let s1 := prepareExport full cap s
  let blocked := s1.vault.entries.any fun e => e.2.modified && !e.2.failed && (s1.vault.writeBack e.1).isNone
  let all := s1.vault.lines
  let keys := ((s1.vault.due full).filter fun k => tget false all k.1).map (·.1)
  let bad := s1.vault.entries.find? fun e => e.2.failed && (tagLine e.1 :: entryLines e.1).any fun k => keys.elem k
  if blocked then .bad s1 .notPermitted
  else match bad, s1.vault.exportFlaw keys with
    | some e, _ => .bad (s1.vaultFail e.1) .vaultIntegrity
    | none, some (.entry e) => .bad (s1.vaultFail e) .vaultIntegrity
    | none, some (.node j) => .bad (s1.nodeFail j) .vaultIntegrity
    | none, none =>
      let n := 208 + 72 * keys.length
      if outFault env outs n then .bad s1 .dmaFault
      else
        let b := imageStream s1 f full epoch keys
        let s2 := (s1.emit 0 false ins outs 0 b).bump 18 6 keys.length
        .ok { s2 with
          free := s2.free + 2 ^ 20
          vault := { s2.vault with
            changedExp := s2.vault.waiting, writtenExp := [], lastExport := some ⟨epoch, s2.vault.root, f.final⟩
            -- a fold whose write-back is held is not in the export (R426)
            coarseOut := s2.vault.coarseFold.filter fun e => !(s2.ventry e).modified } } keys.length

/-- The epoch that an export now stands for: the pending one, or `OPEN` + 1 in `RECOVERING` (R442). -/
def VRecord.exportEpoch (r : VRecord) (st : VaultState) : Nat :=
  if st = .recovering then r.openEpoch + 1 else r.pending.getD 0

/-- The crown's checkpoint ends with its export (R433 steps 5 and 6). -/
def State.runExport (s : State) (env : Env) (f : ChkForm) : State :=
  match s.crownDesc with
  | none => { s with vault := { s.vault with job := none } }
  | some (j, d, got) =>
    let epoch := s.vault.record.exportEpoch s.vault.st
    let s0 : State := { s with vault := { s.vault with job := none } }
    match exportVault s0 env got.1 got.2.1 f epoch with
    | .bad s1 st => s1.crownFail (bad8 st)
    | .ok s1 n =>
      let res := leBytes 4 epoch ++ leBytes 4 s1.vault.record.openEpoch ++ leBytes 8 n
      match j.outcome with
      | some o => s1.crownClose { j with state := .applied, shown := res } (s1.standbyCpl d o)
      | none => s1.crownDone [] [] 0 res

/-! Crown descriptors (R433 to R453). -/

/-- What a `VAULT_CHECKPOINT` asks for. -/
def chkForm (s : State) (d : Desc) (data : Bytes) : ChkForm :=
  { lNew := if d.fld 26 1 = 0 then s.vault.record.lOpen else 2 ^ d.fld 26 1,
    full := d.vctl 3, final := d.vctl 4, move := d.vctl 6, target := BitVec.ofNat 8 (d.fld 27 1),
    nonce := BitVec.ofNat 64 (leField data 0 8) }

/-- A cut can be made (R427, R430, R431). -/
def State.cutFree (s : State) : Bool :=
  !s.vault.foldBusy && s.vault.arms.all (fun a => a.stage == .gathered) &&
    !(s.vault.clearing.elem ((s.vault.record.openEpoch + 1) % 16))

/-- The record of a cut (R433 step 2, R438, R448). -/
def cutRecord (r : VRecord) (f : ChkForm) : VRecord :=
  { r with
    vstate := if f.move then 2 else 1
    sealedF := f.final
    pending := some r.openEpoch
    openEpoch := r.openEpoch + 1
    lPending := r.lOpen
    lOpen := f.lNew
    moveNonce := if f.move then f.nonce else r.moveNonce }

/-- The payload of the vault record (R432). -/
def VRecord.bytes (r : VRecord) : Bytes :=
  [BitVec.ofNat 8 r.vstate, BitVec.ofNat 8 (ofBits [r.sealedF, r.recovery, r.moveIn]), 0, 0] ++
    leBytes 4 r.committed ++ leBytes 4 (r.pending.getD 0xFFFFFFFF) ++ leBytes 4 r.openEpoch ++
    fit 64 r.committedRoot ++ leBytes 4 r.lPending ++ leBytes 4 r.lOpen ++ leBytes 8 r.moveNonce.toNat ++
    leBytes 4 r.domainId.toNat

/-- The vault record in a payload. -/
def vrecordOf (b : Bytes) : VRecord :=
  { vstate := leField b 0 1, sealedF := bitOf (leField b 1 1) 0, recovery := bitOf (leField b 1 1) 1,
    moveIn := bitOf (leField b 1 1) 2, committed := leField b 4 4,
    pending := if leField b 8 4 = 0xFFFFFFFF then none else some (leField b 8 4),
    openEpoch := leField b 12 4, committedRoot := slice b 16 64, lPending := leField b 80 4,
    lOpen := leField b 84 4, moveNonce := BitVec.ofNat 64 (leField b 88 8),
    domainId := BitVec.ofNat 32 (leField b 96 4) }

/-- The pending and open epochs' sets by the vault record as it stands in NVM. -/
def Nvm.liveSets (n : Nvm) : List Nat :=
  let r := n.record (.sys 0x0A 0)
  match r.st with
  | .held => (vrecordOf r.payload).sets
  | _ => []

/-- A write of the vault record. -/
def State.planVault (s : State) (r : VRecord) : RecWrite := s.planRec (.sys 0x0A 0) 0x0A r.bytes

/-- The entry committed without its completion, which follows the vault engine's work; a record whose `SEQ` is exhausted
is not written (R700). -/
def State.crownCommitOpen (s : State) (recs : List RecWrite) (effs : List Eff) : State :=
  match recs.find? fun w => decide (2 ^ 32 ≤ w.seq) with
  | some w => (s.noteWorn w.name).crownFail { status := .nvmWorn, step := 8 }
  | none => s.commitEntry recs effs none

/-- What the crown's vault descriptor waited for is over (R427, R430, R453). -/
def State.vaultGo (s : State) : State :=
  match s.vault.job, s.crownDesc with
  | some (.cut f), some (j, _, _) =>
    if j.state = .committed then (if j.wait = .vault then s.crownApply else s)
    else if j.wait = .vault ∧ s.cutFree then
      let r := cutRecord s.vault.record f
      let st := if f.move then VaultState.moved else if f.final then .sealed else .active
      s.crownCommitOpen [s.planVault r] [.vault r st, .cut f]
    else s
  | some (.format l), some (j, _, _) =>
    let r0 := s.vault.record
    let o := if s.vault.recordWritten && !s.vault.recordTorn then r0.openEpoch else 0
    if j.wait = .vault ∧ !(s.vault.clearing.elem ((o + 1) % 16)) then
      let r : VRecord :=
        { vstate := 1, committed := o, openEpoch := o + 1, lOpen := l, domainId := s.keys.domainId }
      s.crownDone [s.planVault r] [.vformat, .vault r .active, .vrelease] 0 (leBytes 4 r.openEpoch)
    else s
  | _, _ => s

/-- VAULT_FORMAT at step 8 (R453). -/
def vaultFormat (s : State) (d : Desc) : State :=
    let o := if s.vault.recordWritten && !s.vault.recordTorn then s.vault.record.openEpoch else 0
    let set := (o + 1) % 16
    let c := if s.setHolds set && !(s.vault.clearing.elem set) then set :: s.vault.clearing else s.vault.clearing
    (({ s with vault := { s.vault with job := some (.format (2 ^ d.fld 26 1)), clearing := c } } : State).crownWait
      .vault).vaultGo

/-- VAULT_CHECKPOINT at step 8 (R433 to R436, R442, R448). -/
def vaultCheckpoint (s : State) (d : Desc) (got : Got) (env : Env) : State :=
  match s.readAll env got.1 with
  | .error b => s.crownFail b
  | .ok data =>
    let f := chkForm s d data
    let v := s.vault
    let r := v.record
    let rec_ := v.st = .recovering
    let only := d.vctl 5
    let full := f.full || (f.move && !only) || r.moveIn || v.st == .moved
    let n := if full then v.lines.length else v.changed.length
    if only && r.pending.isNone then s.crownFail (bad8 .notPermitted)
    else if !only && !rec_ && r.pending.isSome then s.crownFail (bad8 .notPermitted)
    else if extsLen got.2.1 < 208 + 72 * (n + 16384) then s.crownFail (bad8 .descMalformed)
    else if only || rec_ then
      -- the move export is repeated in `MOVED` alone; elsewhere no cut is made, so nothing moves (log entry 50, DEDUCED)
      let g : ChkForm := { f with move := v.st == .moved, nonce := r.moveNonce, target := v.moveTarget }
      s.runExport env g
    else
      (({ s with vault := { v with job := some (.cut f) } } : State).crownWait .vault).vaultGo

/-- VAULT_COMMIT at step 8 (R437, R442, R448). -/
def vaultCommit (s : State) (d : Desc) : State :=
  let v := s.vault
  let r := v.record
  let due := if v.st = .recovering then some (r.openEpoch + 1) else r.pending
  match v.lastExport with
  | none => s.crownFail (bad8 .notPermitted)
  | some x =>
    if due ≠ some x.epoch ∨ d.endpoint ≠ x.epoch then s.crownFail (bad8 .notPermitted)
    else
      let r1 := { r with committed := x.epoch, committedRoot := x.root, pending := none }
      let r2 := if v.st = .recovering then
          { r1 with openEpoch := r.openEpoch + 2, recovery := false, sealedF := x.final, moveIn := false,
                    moveNonce := if r.moveIn then 0 else r.moveNonce }
        else r1
      let st := if v.st = .recovering then (if x.final then VaultState.sealed else .active) else v.st
      s.crownDone [s.planVault r2] [.vcommit, .vault r2 st, .vrelease] 0 (leBytes 4 x.epoch)

/-! Imports (R440, R441, R447). -/

/-- The group of a line by its offset (R410). -/
def lineGroup (off : Nat) : Nat :=
  if off < 0x04000000 then 7 else if off < 0x04400000 then 6 else if off < 0x04600000 then 5
  else if off < 0x04640000 then 4 else if off < 0x04648000 then 3 else if off < 0x04649000 then 2
  else if off < 0x04649200 then 1 else 0

/-- The records of a stream by line key; none when their order or layout is wrong (R445). -/
def streamLines (b : Bytes) : Option (Tab Bytes) :=
  let l := (chunks 72 b).map fun r =>
    let idx := leField r 4 4
    (leField r 0 1 < 4 ∧ leField r 1 3 = 0 ∧ idx * 64 < 0x04649240 : Bool) |> fun ok =>
      (ok, lineKey (lineGroup (idx * 64)) (leField r 0 1) idx, r.drop 8)
  if l.all (·.1) && (l.map (·.2.1)).Pairwise (· < ·) then some (l.map (·.2)) else none

/-- The nodes of a level checked against their expected versions; their children's versions (R416, R447). -/
def checkNodes (vmk : Bytes) (lines : Tab Bytes) (level : Nat) (want : List (Nat × Nat)) :
    Option (List (Nat × Nat)) :=
  want.foldl (fun acc w => match acc with
    | none => none
    | some l =>
      let b := tget [] lines (nodeLine level w.1)
      let kids := (List.range 8).map fun k => childVersion b k
      if b.length = 64 ∧ b = nodeBytes vmk level w.1 w.2 kids then
        some (l ++ ((List.range 8).map fun k => (8 * w.1 + k, kids.getD k 0)).filter fun k => k.2 != 0)
      else none) (some [])

/-- Every node from L5 to L0; versions of nodes, and of entries. -/
def checkTree (vmk : Bytes) (lines : Tab Bytes) (root : Bytes) : Option (Tab Nat × List (Nat × Nat)) :=
  let top := ((List.range 4).map fun j => (j, childVersion root j)).filter fun k => k.2 != 0
  (List.range 6).foldl (fun acc i => match acc with
    | none => none
    | some (t, want) =>
      let level := 5 - i
      match checkNodes vmk lines level want with
      | none => none
      | some kids => some (want.foldl (fun a w => tset 0 a (level * 2 ^ 20 + w.1) w.2) t, kids))
    (some (([] : Tab Nat), top))

/-- Every entry, decrypted and verified. -/
def checkEntries (vek : Bytes) (lines : Tab Bytes) (want : List (Nat × Nat)) : Option (Tab VEntry) :=
  want.foldl (fun acc w => match acc with
    | none => none
    | some t =>
      let ct := ((entryLines w.1).map fun k => tget [] lines k).flatten
      let tag := slice (tget [] lines (tagLine w.1)) (w.1 / 4 * 16 % 64) 16
      if ct.length = 256 then
        match loadEntry vek ct tag w.1 w.2 with
        | some v => some (tset {} t w.1 v)
        | none => none
      else none) (some [])

/-- A verified image: node versions and entries; none when a check fails (R447). -/
def checkImage (vek vmk : Bytes) (b : Bytes) : Option (Tab Nat × Tab VEntry) :=
  let n := leField b 24 8
  let body := b.take (128 + 72 * n)
  let tail := slice b (128 + 72 * n) 64
  match streamLines (body.drop 128) with
  | none => none
  | some lines =>
    match checkTree vmk lines (slice b 64 64) with
    | none => none
    | some (nodes, want) =>
      match checkEntries vek lines want with
      | none => none
      | some entries =>
        let due := want.foldl (fun t w => markLines t (writeLines w.1)) []
        if due.length = n ∧ tail.take 48 = sha384 body ∧ slice b (192 + 72 * n) 16 = cmac vmk (0xFF :: tail) then
          some (nodes, entries)
        else none

/-- The leap of an endpoint (R440). -/
def leapOf (s : State) (e : Nat) : Nat :=
  let r := s.vault.record
  (match r.pending with
    | some p => if s.dirty p e then r.lPending else 0
    | none => 0) + (if s.dirty r.openEpoch e then r.lOpen else 0)

/-- An entry after its leap (R440). -/
def VEntry.leap (v : VEntry) (k : Nat) : VEntry :=
  { v with hwm := min (v.hwm + k) (2 ^ 40 - 1), window := BitVec.allOnes 64, recCount := v.recCount + k,
           blockCount := min (v.blockCount + k * 4194308) (2 ^ 64 - 1) }

/-- An entry loaded into the pip table, leaped by `k` (R440). -/
def State.loadPip (s : State) (e k : Nat) : State :=
  let v := s.ventry e
  if v.st = .empty then s
  else
    let s1 := if k = 0 then s else s.setVentry e (v.leap k)
    let w := s1.ventry e
    s1.setPipe e { hwm := BitVec.ofNat 40 w.hwm, window := w.window, known := true,
                   revoked := w.st == .revoked, coarse := k != 0 }

/-- The header checks of `VAULT_IMPORT` (R447). -/
def importHeader (s : State) (d : Desc) (h : Bytes) : Option Status :=
  let r := s.vault.record
  let kind := leField h 5 1
  if leField h 0 4 ≠ 0x4B575649 ∨ leField h 4 1 ≠ 1 ∨ ¬ (kind = 1 ∨ kind = 3) ∨ !allZero (slice h 40 24) ∨
      (kind = 1 ∧ (leField h 7 1 ≠ 0 ∨ leField h 32 8 ≠ 0)) ∨ leField h 16 4 ≠ 0 ∨
      d.declLen.toNat ≠ 208 + 72 * leField h 24 8 then some .descMalformed
  else if kind = 1 then
    if leField h 12 4 ≠ r.committed ∨ slice h 64 64 ≠ r.committedRoot ∨ r.vstate ≠ 1 then some .vaultIntegrity
    else none
  else if leField h 8 4 ≠ r.domainId.toNat ∨ leField h 7 1 ≠ s.keys.deviceNumber.toNat ∨ r.moveNonce = 0 ∨
      leField h 32 8 ≠ r.moveNonce.toNat then some .notPermitted
  else none

/-- VAULT_IMPORT at step 8 (R440, R441, R447, R448). -/
def vaultImport (s : State) (d : Desc) (got : Got) (env : Env) : State :=
  if s.vault.recordTorn then s.crownFail (bad8 .notPermitted)
  else match s.gather env got.1 0 0 128 with
    | .error b => s.crownFail b
    | .ok h =>
      match importHeader s d (fit 128 h) with
      | some st => s.crownFail (bad8 st)
      | none =>
        match s.readAll env got.1 with
        | .error b => s.crownFail b
        | .ok data =>
          match checkImage (s.vault.vek.getD []) (s.vault.vmk.getD []) data with
          | none => s.crownFail (bad8 .vaultIntegrity)
          | some (nodes, entries) =>
            -- the root is replaced through its clasp (R411)
            let root := s.activeOutput 3
            if !root.1 then root.2.entryStuck else
            let s := root.2
            let move := leField data 5 1 = 3
            let s1 : State := { s with vault := { s.vault with
              st := .loading, entries := entries, stored := entries, nodes := nodes, cached := [], l0 := [], flaws := [],
              pip := [], pipZeroed := false, changed := [], changedExp := [], written := [], writtenExp := [], lastExport := none } }
            let ids := entries.map (·.1)
            let leaps := ids.map fun e => (e, if move then 0 else leapOf s e)
            let s2 := leaps.foldl (fun x (p : Nat × Nat) => x.loadPip p.1 p.2) s1
            let leaped := (leaps.filter fun p => p.2 != 0).length
            let r := s.vault.record
            let r1 := if move then
                { r with vstate := 1, moveIn := true, recovery := true, openEpoch := leField data 12 4,
                         pending := none, lOpen := leField data 20 4 }
              else if leaped = 0 then
                { r with openEpoch := r.openEpoch + 1, sealedF := false, pending := none }
              else { r with recovery := true }
            let st := if move ∨ leaped ≠ 0 then VaultState.recovering else .active
            let count := (entries.filter fun e => e.2.st != .empty).length
            (s2.bump 18 7 (leField data 24 8)).crownDone [s2.planVault r1]
              (.vault r1 st :: (if st = .active then [.vrelease] else [])) 0
              (leBytes 4 (leField data 12 4) ++ leBytes 4 count ++ leBytes 4 leaped)

/-- VAULT_MOVE_OPEN at step 8 (R448). -/
def vaultMoveOpen (s : State) : State :=
  if s.vault.recordTorn then s.crownFail (bad8 .notPermitted)
  else match s.draw 0 8 false with
    | .wait => s.crownDraw
    | .fail s1 => s1.crownFail (bad8 .entropyFail)
    | .ok b _ s1 =>
      let r := { s1.vault.record with moveNonce := BitVec.ofNat 64 (leNat b), domainId := s1.keys.domainId }
      s1.crownDone [s1.planVault r] [.vault r .none] 0 (fit 8 b)

/-- Step 8 of the vault family: `crown` descriptors end in the journal, others in the vault engine. -/
def vaultStart (s : State) (r seq : Nat) (d : Desc) (got : Got) (env : Env) : State :=
  match vaultRefuse s d with
  | some st => if s.crowns.journal.any fun j => j.ring == r && j.seq == seq then s.crownFail (bad8 st)
      else s.finishBad r seq d (bad8 st)
  | none =>
    if d.is .vaultEnroll then vaultEnroll s r seq d got.1 env
    else if d.is .vaultRevoke then vaultRevoke s r seq d
    else if d.is .vaultRekey then vaultRekey s r seq d got.1 env
    else if d.is .vaultArm then vaultArm (s.keepGot r seq got) r seq d
    else if d.is .vaultQuery then vaultQuery s r seq d got.2.1
    else if d.is .vaultFormat then vaultFormat s d
    else if d.is .vaultCheckpoint then vaultCheckpoint s d got env
    else if d.is .vaultCommit then vaultCommit s d
    else if d.is .vaultImport then vaultImport s d got env
    else vaultMoveOpen s

/-! Events of the vault engine (R425, R427, R429, R431, R462). -/

/-- The fold pass ends (R431): every fold write made, and what waited for it goes on. -/
def State.foldAll (s : State) (env : Env) : State :=
  if !s.vault.foldBusy then s
  else
    let s1 := s.vault.fold.foldl (fun a e => a.foldEntry e) s
    let s2 : State := { s1 with vault := { s1.vault with fold := [], foldBusy := false } }
    match s2.vault.job with
    | some (.exporting f) => s2.runExport env f
    | _ => s2.vaultGo

/-- Every modified line of the vault cache written back (R415, R462). -/
def State.flushVault (s : State) : State :=
  ((s.vault.entries.filter fun e => e.2.modified).map (·.1)).foldl (fun a e => a.writeBack e) s

end Sys2Proof.Machine
end

