-- ==== Sys2Proof/Machine/Pip.lean ====
section
/-!
DEFINITION. The Pip port (chapter 9): framing, request checks, modes, verdicts, claims and arms. The table
of R484 is one operation, used by the port and by the capture path (R513).
-/

namespace Sys2Proof.Machine

/-! Verdicts (R478, R484, R489). -/

/-- What the table of R484 decides. -/
inductive Verdict
  /-- `CHECK` fails -/
  | check
  | unknown
  | revoked
  /-- `COARSE` is set -/
  | coarse
  | stale
  | replay
  | notArmed
  | fresh
deriving DecidableEq, Repr

/-- Sequence `q` shows as seen in an entry: it is `HWM`, or its window bit is set (R484, R512). -/
def PipEntry.seen (p : PipEntry) (q : Nat) : Bool :=
  q == p.hwm.toNat || (decide (q < p.hwm.toNat) && p.window.getLsbD (p.hwm.toNat - 1 - q))

/-- The table of R484 for sequence `q` in open epoch `k`. -/
def PipEntry.verdict (p : PipEntry) (k q : Nat) : Verdict :=
  if p.checkErr ≠ 0 then .check
  else if !p.known then .unknown
  else if p.revoked then .revoked
  else if p.coarse then .coarse
  else if q + 65 ≤ p.hwm.toNat then .stale
  else if p.seen q then .replay
  else if !p.armedIn k || (decide (p.hwm.toNat < q) && decide (p.limitX ≤ q)) then .notArmed
  else .fresh

/-- A claim taken (R485). -/
def PipEntry.claim (p : PipEntry) (q : Nat) : PipEntry :=
  let h := p.hwm.toNat
  if h < q then
    let d := q - h
    { p with hwm := BitVec.ofNat 40 q,
             window := if 65 ≤ d then 0 else (p.window <<< d) ||| BitVec.ofNat 64 (2 ^ (d - 1)) }
  else { p with window := p.window ||| BitVec.ofNat 64 (2 ^ (h - 1 - q)) }

/-! Modes (R481). -/

/-- Port modes. -/
inductive PortMode | dark | deferAll | coarse | full | moved
deriving DecidableEq, Repr

/-- `PIP.STS.MODE`. -/
def PortMode.code : PortMode → Nat
  | .dark => 0 | .deferAll => 1 | .coarse => 2 | .full => 3 | .moved => 4

/-- The mode of the port (R481, R483). -/
def State.portMode (s : State) : PortMode :=
  if s.start.stage < 2 ∨ !s.pip.locked then .dark
  else if s.start.stage = 2 ∨ s.isStuck ∨ s.halted ∨ !s.pip.en then .deferAll
  else match s.vault.st with
    | .none => .deferAll
    | .moved => .moved
    | .loading | .recovering => .coarse
    | .active | .sealed => .full

/-- A hint register's value as it is used (R499). -/
def hintOf (b : BitVec 10) : Nat := if b = 0 then 1 else min b.toNat 1022

/-! Requests (R464, R469, R476, R480). -/

/-- The 64-bit request (R476). -/
def pipRequest (op : Nat) (e : BitVec 20) (q : BitVec 40) (t : BitVec 2) : BitVec 64 :=
  BitVec.ofNat 64 (op * 2 ^ 62 + e.toNat * 2 ^ 42 + q.toNat * 4 + t.toNat)

/-- `OP`. -/
def reqOp (w : BitVec 64) : Nat := bitsOf w.toNat 63 62
/-- `ENDPOINT`. -/
def reqEndpoint (w : BitVec 64) : Nat := bitsOf w.toNat 61 42
/-- `SEQ`. -/
def reqSeq (w : BitVec 64) : Nat := bitsOf w.toNat 41 2
/-- `RTAG`. -/
def reqTag (w : BitVec 64) : Nat := bitsOf w.toNat 1 0

/-- The number of ones in a byte is odd. -/
def oddOnes (b : Byte) : Bool := (List.range 8).foldl (fun x i => xor x (b.getLsbD i)) false

/-- Every check bit matches its lane as received: noise on a lane and on its check bit agree in parity. -/
def lanesOk (n : BitVec 64) (c : BitVec 8) : Bool :=
  (List.range 8).all fun k => oddOnes (BitVec.ofNat 8 (n.toNat / 2 ^ (8 * k))) == c.getLsbD k

/-- The first failing check of R480, as its fault code. -/
def requestFault (w : BitVec 64) (p : PipPins) : Option Nat :=
  if !lanesOk p.noise p.chkNoise then some 1
  else if reqOp w = 3 then some 2
  else if p.strobe ≠ 3 then some 3
  else if reqOp w = 2 ∧ reqSeq w ≠ 0 then some 4
  else none

/-- Eight-bit saturating addition of one. -/
def sat8 (b : BitVec 8) : BitVec 8 := if b = 255 then b else b + 1

/-- A request fault counted (R480, R499). -/
def State.pipFault (s : State) (code : Nat) : State :=
  let x := s.pip
  let y := match code with
    | 1 => { x with parityErr := sat8 x.parityErr }
    | 3 => { x with strobeErr := sat8 x.strobeErr }
    | _ => { x with opErr := sat8 x.opErr }
  ({ s with pip := y } : State).bump 19 (1 + code) 1

/-! Answers (R464, R472, R477). -/

/-- An answer word. -/
def answerWord (verdict tag hint : Nat) : BitVec 16 :=
  BitVec.ofNat 16 (verdict * 4096 + tag * 1024 + hint)

/-- The port drives an answer: its two edges carry odd parity. -/
def State.drive (s : State) (w : BitVec 16) : State :=
  let hi := BitVec.ofNat 8 (w.toNat / 256)
  let lo := BitVec.ofNat 8 w.toNat
  { s with pip := { s.pip with answer := some (w, !oddOnes hi, !oddOnes lo) } }

/-- An answer to a valid request, counted by its verdict (R499). -/
def State.answer (s : State) (w : BitVec 64) (verdict hint : Nat) : State :=
  let x := s.drive (answerWord verdict (reqTag w) hint)
  ({ x with pip := { x.pip with vcount := tmod 0 x.pip.vcount verdict (· + 1) } } : State).bump 19
    (8 + verdict) 1

/-- A request that reached its bank (R499). -/
def State.reachBank (s : State) (e : Nat) : State :=
  ({ s with pip := { s.pip with
    bankReq := tmod 0 s.pip.bankReq (e % 16) (· + 1), bankAt := tset 0 s.pip.bankAt (e % 16) (s.tick + 1) } } : State).bump 19
    (24 + e % 16) 1

/-! Decisions of the vault engine (R484 to R494). -/

/-- `DEFER` with `OUT_HINT`. -/
def State.deferOut (s : State) : Nat × Nat := (6, hintOf s.pip.outHint)

/-- The answer of `FULL` mode to a `PEEK` or `CLAIM`, as verdict and hint (R478, R484). -/
def State.fullAnswer (s : State) (claim : Bool) (e q : Nat) : Nat × Nat :=
  let p := s.pipe e
  match p.verdict s.vault.record.openEpoch q with
  | .check => (6, 20)
  | .unknown => (4, 0)
  | .revoked => (5, 0)
  | .coarse => if p.hwm.toNat < q then (7, 0) else s.deferOut
  | .stale => (3, min (p.hwm.toNat - q) 1023)
  | .replay => (2, 0)
  | .notArmed => (6, 0x3FF)
  | .fresh => (1, if claim then (Config.claimToken s.pip.tk e q).toNat else min (p.limitX - 1 - q) 1023)

/-- The answer of `COARSE` mode (R489). -/
def State.coarseAnswer (s : State) (e q : Nat) : Nat × Nat :=
  let p := s.pipe e
  if p.checkErr = 0 ∧ p.known ∧ !p.revoked ∧ p.hwm.toNat < q then (7, 0) else s.deferOut

/-- Arms in the port arm queue: those that have not reached step 3 (R495). -/
def State.portArms (s : State) : Nat :=
  (s.vault.arms.filter fun a => a.stage == .gathered && a.by_.isNone).length

/-- The answer of `FULL` mode to an `ARM`, and whether it queues an arm (R494). -/
def State.armAnswer (s : State) (e : Nat) : (Nat × Nat) × Bool :=
  let p := s.pipe e
  if p.checkErr ≠ 0 then ((6, 20), false)
  else if !p.known then ((4, 0), false)
  else if p.revoked then ((5, 0), false)
  else if p.coarse || s.vault.st == .sealed then (s.deferOut, false)
  else if p.armedIn s.vault.record.openEpoch then ((8, 0), false)
  else if s.vault.arms.any fun a => a.endpoint == e then ((8, 1), false)
  else if 16384 ≤ s.portArms then ((6, hintOf s.pip.armqHint), false)
  else ((8, 1), true)

/-- What a faultless request makes the vault engine do, and the answer (R484, R485, R489, R490, R494). -/
def State.pipDecide (s : State) (w : BitVec 64) : State × (Nat × Nat) :=
  let e := reqEndpoint w
  let q := reqSeq w
  let s1 := s.reachBank e
  match s.portMode with
  | .full =>
    if reqOp w = 2 then
      let a := s.armAnswer e
      (if a.2 then (s1.gatherArm e none).bump 19 7 1 else s1, a.1)
    else
      let a := s.fullAnswer (reqOp w == 1) e q
      (if reqOp w = 1 ∧ a.1 = 1 then s1.setPipe e ((s.pipe e).claim q) else s1, a)
  | _ => if reqOp w = 2 then (s1, s.deferOut) else (s1, s.coarseAnswer e q)

/-- The vault engine is asked (R482). -/
def PortMode.asks : PortMode → Bool
  | .full | .coarse => true
  | _ => false

/-- A framing error outside period 0 (R471). -/
def State.frameError (s : State) : State :=
  ({ s with pip := { s.pip with frameErr := sat8 s.pip.frameErr } } : State).bump 19 6 1

/-- A request is counted (R499). -/
def State.countRequest (s : State) : State :=
  ({ s with pip := { s.pip with reqCount := s.pip.reqCount + 1 } } : State).bump 19 0 1

/-- An idle cycle (R470); termination and impedance written before take effect (R466). -/
def State.pipIdle (s0 : State) (later : Bool) : State :=
  let s : State := { s0 with pip := { s0.pip with odtOn := s0.pip.odt, driveOn := s0.pip.drive } }
  if s0.portMode = .dark then s0
  else if !s.pip.framed then s
  else (if later then s.frameError else s).drive 0x6000

/-- One Pip cycle with request `sent` on the pins (R467 to R483). `late` tells that no verdict reaches the
port in time, and whether the request took effect (R474). -/
def State.pipCycle (s : State) (sent : BitVec 64) (p : PipPins) (late : Option Bool) : State :=
  if s.portMode = .dark then s
  else if p.strobe = 0 then s.pipIdle p.strobeLater
  else if !s.pip.framed && !p.strobe.getLsbD 1 then s
  else
    let s0 : State := { s with pip := { s.pip with framed := true } }
    let s1 := (if p.strobeLater then s0.frameError else s0).countRequest
    let w := sent ^^^ p.noise
    match requestFault w p with
    | some c => (s1.pipFault c).answer w 0xE c
    | none =>
      match s1.portMode with
      | .deferAll | .dark => s1.answer w 6 (hintOf s1.pip.outHint)
      | .moved => s1.answer w 4 0
      | _ =>
        let t := s1.pipDecide w
        match late with
        | none => t.1.answer w t.2.1 t.2.2
        | some took =>
          let x := if took then t.1 else s1
          let y : State := { x with pip := { x.pip with
            late := if x.pip.late = BitVec.allOnes 32 then x.pip.late else x.pip.late + 1 } }
          (y.bump 19 1 1).answer w 6 0x3FE

/-- PEEK (R484, R486, R489). -/
def execPipPeek (e : BitVec 20) (q : BitVec 40) (t : BitVec 2) (p : PipPins) (s : State) :
    Host.Outcome State Fault Refusal := .next (s.pipCycle (pipRequest 0 e q t) p none)

/-- CLAIM (R484, R485, R491). -/
def execPipClaim (e : BitVec 20) (q : BitVec 40) (t : BitVec 2) (p : PipPins) (s : State) :
    Host.Outcome State Fault Refusal := .next (s.pipCycle (pipRequest 1 e q t) p none)

/-- ARM (R490, R494). -/
def execPipArm (e : BitVec 20) (q : BitVec 40) (t : BitVec 2) (p : PipPins) (s : State) :
    Host.Outcome State Fault Refusal := .next (s.pipCycle (pipRequest 2 e q t) p none)

/-- PIP_IDLE_CYCLE (R470, R471). -/
def execPipIdleCycle (later : Bool) (s : State) : Host.Outcome State Fault Refusal := .next (s.pipIdle later)

/-- PIP_ANSWER_CUTOFF (R474). -/
def execPipAnswerCutoff (req : BitVec 64) (p : PipPins) (took : Bool) (s : State) :
    Host.Outcome State Fault Refusal := .next (s.pipCycle req p (some took))

/-- QCLK_LOCK (R467, R468): `qclk` locks, or loses its lock and with it the framing. -/
def execQclkLock (locked : Bool) (s : State) : Host.Outcome State Fault Refusal :=
  .next (if locked then { s with pip := { s.pip with locked := true } }
    else { s with pip := { s.pip with locked := false, framed := false, answer := none } })

/-- The framing dropped (R468). -/
def State.reframe (s : State) : State := { s with pip := { s.pip with framed := false } }
/-- `PIP.FAULT` cleared (R499). -/
def State.clearPipFault (s : State) : State :=
  { s with pip := { s.pip with frameErr := 0, strobeErr := 0, opErr := 0, parityErr := 0 } }

/-- PIP_REFRAME (R468, R499). -/
def execPipReframe (fn : Fin 32) (s : State) : Host.Outcome State Fault Refusal :=
  .next (s.pfWrite fn 0x60000 State.reframe)

/-- CLR_FAULT (R499). -/
def execClrFault (fn : Fin 32) (s : State) : Host.Outcome State Fault Refusal :=
  .next (s.pfWrite fn 0x60000 State.clearPipFault)

end Sys2Proof.Machine
end

