-- ==== Sys2Proof/Machine/Strand.lean ====
section
/-!
DEFINITION. Strand streams: pearl places, strands, closing, signing and delivery (R528 to R545).
-/

namespace Sys2Proof.Machine

/-- Stream `i`. -/
def State.stream (s : State) (i : Nat) : Stream := tget {} s.streams i
/-- Stream `i` replaced. -/
def State.setStream (s : State) (i : Nat) (x : Stream) : State := { s with streams := tset {} s.streams i x }
/-- Stream `i` changed. -/
def State.modStream (s : State) (i : Nat) (f : Stream → Stream) : State := s.setStream i (f (s.stream i))

/-- The open strand of a stream. -/
def State.openStrand (s : State) (i : Nat) : Option Strand :=
  s.strands.find? fun x => x.stream == i && x.st == .opened
/-- A strand replaced, known by its stream and number. -/
def State.putStrand (s : State) (x : Strand) : State :=
  { s with strands := s.strands.map fun y => if y.stream = x.stream ∧ y.id = x.id then x else y }
/-- A strand by stream and number. -/
def State.strand (s : State) (i : Nat) (id : Word32) : Option Strand :=
  s.strands.find? fun x => x.stream == i && x.id == id

/-! Buffers and places (R534, R536). -/

/-- Buffers that `n` pearls and places of a stream need. -/
def Stream.buffers (x : Stream) (n : Nat) : Nat := ceilDiv n (if x.countLimit = 0 then 1024 else x.countLimit)

/-- Pearls in the open strand of a stream. -/
def State.openPearls (s : State) (i : Nat) : Nat := ((s.openStrand i).map (·.pearls.length)).getD 0

/-- Buffers in use: closed strands not delivered, and what each stream's pearls and places need. -/
def State.buffersUsed (s : State) : Nat :=
  (s.strands.filter fun x => x.st != .opened).length +
    ((List.range 4).map fun i => (s.stream i).buffers (s.openPearls i + (s.stream i).places)).foldl (· + ·) 0

/-- A pearl place reserved; none when neither the open strand nor a free buffer has room (R534). -/
def State.reservePlace (s : State) (i : Nat) : Option State :=
  let s1 := s.modStream i fun x => { x with places := x.places + 1 }
  if s1.buffersUsed ≤ 6 then some s1 else none

/-! Trees and headers (R537, R538, R540). -/

/-- One level of a strand tree. -/
def treeLevel : List Bytes → List Bytes
  | a :: b :: r => sha384 (1 :: (a ++ b)) :: treeLevel r
  | l => l

/-- Levels up to the root; `k` bounds their number. -/
def treeRoot : Nat → List Bytes → Bytes
  | 0, l => l.headD []
  | k + 1, l => if l.length ≤ 1 then l.headD [] else treeRoot k (treeLevel l)

/-- The root over pearls (R537). -/
def strandRoot (pearls : List Bytes) : Bytes :=
  treeRoot 11 (pearls.map fun p => sha384 (0 :: p))

/-- The signed header of a strand (R538). -/
def State.strandHeader (s : State) (x : Strand) (sigs : BitVec 2) : Bytes :=
  leBytes 4 0x4B575354 ++ [1, BitVec.ofNat 8 x.stream, BitVec.ofNat 8 sigs.toNat, s.keys.deviceNumber] ++
    leBytes 4 s.keys.domainId.toNat ++ leBytes 4 x.id.toNat ++ leBytes 2 x.pearls.length ++
    [BitVec.ofNat 8 x.cause, 0] ++ leBytes 4 s.start.startNumber.toNat ++ leBytes 8 x.openTime ++
    leBytes 8 x.closeTime ++ s.idHashBytes ++ zeros 8 ++ fit 48 (strandRoot x.pearls) ++
    zeros 16

/-- The signed strand record (R540). -/
def Strand.record (x : Strand) : Bytes := x.header ++ x.ecSig ++ x.mlSig ++ x.pearls.flatten

/-- The record's length at a stream's settings (R541). -/
def Stream.recordLen (x : Stream) : Nat :=
  128 + (if x.sigs.getLsbD 0 then 96 else 0) + (if x.sigs.getLsbD 1 then 3309 else 0) + 80 * x.countLimit

/-! Delivery (R542). -/

/-- The oldest closed strand of a stream. -/
def State.nextStrand (s : State) (i : Nat) : Option Strand :=
  s.strands.find? fun x => x.stream == i && x.st != .opened

/-- One signed strand delivered to the oldest waiting collect, where both are there. -/
def State.deliverOne (s : State) (i : Nat) : Option State :=
  match s.nextStrand i, (s.stream i).collects with
  | some x, p :: ps =>
    if x.st ≠ .ready then none
    else
      let s1 : State := { s.modStream i (fun y => { y with collects := ps, delivered := x.id }) with
        strands := s.strands.filter fun y => !(y.stream == i && y.id == x.id) }
      match (s1.ring p.1).find p.2 with
      | none => some { s.modStream i (fun y => { y with collects := ps }) with strands := s.strands }
      | some w =>
        let outs := (w.got.getD ([], [], [])).2.1
        let res := leBytes 4 x.id.toNat ++ leBytes 4 x.record.length
        some ((s1.writeOut p.1 outs 0 x.record).finish p.1 p.2
          (cplOf w.desc (if x.refused then .keySpent else .done) 0 res))
  | _, _ => none

/-- Strands of a stream delivered while that goes; `k` bounds their number. -/
def State.deliver (s : State) (i : Nat) : Nat → State
  | 0 => s
  | k + 1 => match s.deliverOne i with
    | none => s
    | some s1 => s1.deliver i k

/-! Closing and signing (R535, R536, R539). -/

/-- One signature asked of the signet block; where no engine of its kind serves, the request waits, and the strand with
it (log entry 22, DESIGN CHOICE). -/
def State.askStrandSig (s : State) (x : Strand) (ml : Bool) : State :=
  { s with signet := { s.signet with queue := s.signet.queue ++
      [{ client := .strand x.stream x.id ml, lattice := ml, scheme := if ml then 0x20 else 0x02 }] } }

/-- Where a closed strand stands: its signatures that are still to come. -/
def Strand.settle (x : Strand) (sigs : BitVec 2) : Strand :=
  let ec := sigs.getLsbD 0 && x.ecSig.isEmpty
  let ml := sigs.getLsbD 1 && x.mlSig.isEmpty
  { x with st := if ec || ml then .signing ec ml else .ready }

/-- The `SIGS` in a strand's header. -/
def Strand.sigs (x : Strand) : BitVec 2 := BitVec.ofNat 2 (byteAt x.header 6).toNat

/-- The open strand of a stream closes with a cause (R535): header formed, signatures asked for, waiting
`STRAND_CLOSE` descriptors completed. -/
def State.closeStrand (s : State) (i cause : Nat) : State :=
  match s.openStrand i with
  | none => s
  | some x =>
    let st := s.stream i
    let x1 := { x with cause := cause, closeTime := s.rtc, closeDue := 0, ecKey := st.ecKey, mlKey := st.mlKey }
    let x2 := { x1 with header := s.strandHeader x1 st.sigs }
    let t1 := if st.sigs.getLsbD 0 then s.askStrandSig x2 false else s
    let t2 := if st.sigs.getLsbD 1 then t1.askStrandSig x2 true else t1
    let s1 := (t2.putStrand (x2.settle st.sigs)).modStream i fun y => { y with closers := [] }
    st.closers.foldl (fun a p => a.doneWork p.1 p.2 0 (leBytes 4 x.id.toNat)) s1

/-- A close that is due is made where the places of the strand can move (R536). -/
def State.tryClose (s : State) (i : Nat) : State :=
  match s.openStrand i with
  | none => s
  | some x =>
    let st := s.stream i
    if x.closeDue = 0 then s
    else if st.places ≠ 0 ∧
        6 < s.buffersUsed - st.buffers (x.pearls.length + st.places) + 1 + st.buffers st.places then s
    else s.closeStrand i x.closeDue

/-- A close asked for with a cause. One that waits keeps its cause, but `STRAND_CLOSE` closes with cause 3 (R544). -/
def State.askClose (s : State) (i cause : Nat) : State :=
  match s.openStrand i with
  | none => s
  | some x => (if x.closeDue = 0 ∨ cause = 3 then s.putStrand { x with closeDue := cause } else s).tryClose i

/-- A signature has been made, or its charge was refused (R539). -/
def State.strandSigned (s : State) (i : Nat) (id : Word32) (ml : Bool) (sig : Option Bytes) : State :=
  match s.strand i id with
  | none => s
  | some x =>
    let b := sig.getD (zeros (if ml then 3309 else 96))
    let y := if ml then { x with mlSig := b, refused := x.refused || sig.isNone }
      else { x with ecSig := b, refused := x.refused || sig.isNone }
    let s1 := s.putStrand (y.settle x.sigs)
    if sig.isSome then s1.bump 17 13 1 else s1

/-! Pearls (R525 step 1, R528, R529, R535). -/

/-- A pearl takes its strand and index: the stream's open strand, or a new one with the next value of the
counter. -/
def State.placePearl (s : State) (i : Nat) (sha : Bytes) (endpoint seq pflags : Nat) (note : BitVec 64) :
    State × (Nat × Word32 × Bytes) :=
  let st := s.stream i
  let x : Strand := match s.openStrand i with
    | some x => x
    | none =>
      { stream := i, id := st.counter + 1, pearls := [], st := .opened, cause := 0, openTime := s.rtc,
        closeTime := 0, header := [], ecSig := [], mlSig := [], refused := false, closeDue := 0, retry := [],
        ecKey := 0, mlKey := 0 }
  let k := x.pearls.length
  let pearl := fit 48 sha ++ leBytes 4 endpoint ++ leBytes 5 seq ++ [BitVec.ofNat 8 pflags] ++ leBytes 2 k ++
    leBytes 4 x.id.toNat ++ leBytes 8 s.rtc ++ leBytes 8 note.toNat
  let s1 := if (s.openStrand i).isSome then s
    else { s.setStream i { st with counter := st.counter + 1 } with strands := s.strands ++ [x] }
  let s2 := (s1.putStrand { x with pearls := x.pearls ++ [pearl] }).modStream i fun y =>
    { y with places := y.places - 1 }
  let s3 := if st.countLimit ≤ k + 1 then s2.closeStrand i 1 else s2
  (s3, (k, x.id, pearl))

/-! Settings (R531 to R533). -/

/-- The slots that a stream's settings reserve. -/
def Stream.slots (x : Stream) : List Nat :=
  (if x.sigs.getLsbD 0 then [handleIndex x.ecKey.toNat] else []) ++
    (if x.sigs.getLsbD 1 then [handleIndex x.mlKey.toNat] else [])

/-- The settings of a `STRAND_SETUP` in a stream (R531). -/
def setupOf (d : Desc) (x : Stream) : Stream :=
  { x with sigs := BitVec.ofNat 2 (d.fld 17 1), countLimit := d.fld 18 2, timeLimit := d.fld 20 4,
           ecKey := BitVec.ofNat 32 (d.fld 24 4), mlKey := BitVec.ofNat 32 (d.fld 28 4),
           owner := BitVec.ofNat 32 (d.fld 32 4), setup := none }

/-- A waiting setup runs once no capture holds a place (R532 steps 2 to 5). -/
def State.setupGo (s : State) (i : Nat) : State :=
  match (s.stream i).setup with
  | none => s
  | some (r, q) =>
    if (s.stream i).places ≠ 0 then s
    else
      let s1 := s.closeStrand i 4
      match s1.descOf r q with
      | none => s1.modStream i fun x => { x with setup := none }
      | some d =>
        let old := s1.stream i
        let new := setupOf d old
        let s2 := old.slots.foldl (fun a k => a.unreserve k) s1
        let s3 := (new.slots.foldl (fun a k => a.reserve k) s2).setStream i new
        s3.finishDone r q d 0 (leBytes 4 new.counter.toNat)

/-- Every stream goes on: closes that are due, setups, deliveries. -/
def State.strandsGo (s : State) : State :=
  (List.range 4).foldl (fun a i => (((a.tryClose i).setupGo i).deliver i (1 + a.strands.length))) s

/-! The descriptors (R531 to R544). -/

/-- The body checks of step 5 of `STRAND_SETUP`, `STRAND_COLLECT` and `STRAND_CLOSE`. -/
def strandCheck5 (d : Desc) : Bool :=
  decide (d.fld 16 1 < 4) &&
  if d.is .strandSetup then
    let sg := d.fld 17 1
    decide (sg < 4) &&
    decide (1 ≤ d.fld 18 2) && decide (d.fld 18 2 ≤ 1024) && decide (1 ≤ d.fld 20 4) &&
    decide (d.fld 20 4 ≤ 10000) &&
    (if bitOf sg 0 then handleOk 1 (d.fld 24 4) else d.fld 24 4 == 0) &&
    (if bitOf sg 1 then handleOk 1 (d.fld 28 4) else d.fld 28 4 == 0)
  else if d.is .strandCollect then (d.ref 48).ok
  else true

/-- Steps 6 and 7: the list of `STRAND_COLLECT`. -/
def strandRead (s : State) (env : Env) (d : Desc) : Except Bad Got :=
  if d.is .strandCollect then
    match s.walkRef env (d.ref 48) with
    | .error e => .error e
    | .ok outs => if d.declLen = 0 then .ok ([], outs, []) else .error { status := .lengthMismatch, step := 7 }
  else noRead d

/-- A signing slot suits a stream (R532): state, owner for function 0, type and `SIGN`. -/
def strandSlot (s : State) (h type : Nat) : Option Status :=
  let k := s.slot (handleIndex h)
  match slotReach k 0 with
  | some e => some e
  | none => if k.type.toNat = type ∧ hasAttr k 3 then none else some .modeKeyClash

/-- STRAND_SETUP at step 8 (R532). A setup of the same stream that waits keeps a later one in the ring
engine. -/
def strandSetup (s : State) (r seq : Nat) (d : Desc) : State :=
  let i := d.fld 16 1
  let sg := d.fld 17 1
  let bad := match (if bitOf sg 0 then strandSlot s (d.fld 24 4) 0x11 else none) with
    | some e => some e
    | none => if bitOf sg 1 then strandSlot s (d.fld 28 4) 0x20 else none
  if (s.stream i).setup.isSome then s.holdWork r seq ([], [], []) 0
  else match bad with
    | some e => s.finishBad r seq d (bad8 e)
    | none =>
      ((s.modRing r fun x => x.setPhase seq .active).modStream i fun x => { x with setup := some (r, seq) }).setupGo i

/-- STRAND_COLLECT at step 8 (R541, R542). -/
def strandCollect (s : State) (r seq : Nat) (d : Desc) (got : Got) : State :=
  let i := d.fld 16 1
  let x := s.stream i
  if !x.owner.getLsbD (fnOf r) then s.finishBad r seq d (bad8 .notPermitted)
  else if extsLen got.2.1 < x.recordLen then s.finishBad r seq d (bad8 .descMalformed)
  else if 64 ≤ x.collects.length then s.finishBad r seq d (bad8 .contextLimit)
  else
    ((s.keepGot r seq got).modStream i fun y => { y with collects := y.collects ++ [(r, seq)] }).strandsGo

/-- STRAND_CLOSE at step 8 (R536, R544). A number that no strand of the stream has had yet, while one is open, is answered
as closed (log entry 22, DESIGN CHOICE). -/
def strandClose (s : State) (r seq : Nat) (d : Desc) : State :=
  let i := d.fld 16 1
  let id := d.fld 20 4
  match s.openStrand i with
  | some x =>
    if id = 0 ∨ id = x.id.toNat then
      ((s.modRing r fun y => y.setPhase seq .active).modStream i fun y =>
        { y with closers := y.closers ++ [(r, seq)] }).askClose i 3
    else s.finishBad r seq d (bad8 .strandClosed)
  | none =>
    if id = 0 ∨ (s.stream i).counter.toNat < id then s.finishDone r seq d 0 [] else s.finishBad r seq d (bad8 .strandClosed)

/-- STRAND_TIME_LIMIT (R535): the open strand's first pearl has been placed for `TIME_LIMIT`. -/
def execStrandTimeLimit (stream : Fin 4) (s : State) : Host.Outcome State Fault Refusal :=
  .next ((s.askClose stream 2).strandsGo)

/-- STRAND_SIGN_RETRY (R539): a signature that met `ENTROPY_FAIL` is asked for again. -/
def execStrandSignRetry (stream : Fin 4) (id : Word32) (ml : Bool) (s : State) :
    Host.Outcome State Fault Refusal :=
  .next <|
    match s.strand stream id with
    | none => s
    | some x =>
      let k := if ml then 1 else 0
      if x.retry.elem k then
        let y := { x with retry := x.retry.erase k }
        ((s.askStrandSig y ml).putStrand (y.settle x.sigs)).strandsGo
      else s

end Sys2Proof.Machine
end

