-- ==== Sys2Proof/Machine/Capture.lean ====
section
/-!
DEFINITION. The fused capture pass (R501 to R529): checks, claims, segments, release.
-/

namespace Sys2Proof.Machine

/-! The record and the descriptor (R501 to R507). -/

/-- Body bytes of a record. -/
def capB (d : Desc) : Nat := d.declLen.toNat - 80
/-- `STREAM`. -/
def Desc.stream (d : Desc) : Nat := bitsOf (d.fld 22 1) 3 2
/-- `EXTEND` of `CAPCTL`. -/
def Desc.capExtend (d : Desc) : Bool := bitOf (d.fld 22 1) 0
/-- `TOKEN_VALID`. -/
def Desc.tokenValid (d : Desc) : Bool := bitOf (d.fld 20 2) 15

/-- The body checks of step 5 (R507). -/
def capCheck5 (d : Desc) : Bool :=
  handleOk 1 (d.fld 16 4) && bitsOf (d.fld 20 2) 14 10 == 0 && bitsOf (d.fld 22 1) 7 4 == 0 &&
  (d.tokenValid || bitsOf (d.fld 20 2) 9 0 == 0) &&
  (if d.capExtend then decide (d.fld 23 1 ≤ 55) else d.fld 23 1 == 0) &&
  d.fld 24 8 != 0 && d.fld 24 8 % 64 == 0 && decide (96 ≤ d.declLen.toNat) && (d.ref 32).ok &&
  (d.ref 48).ok && ((d.ref 48).sgl || decide (capB d ≤ (d.ref 48).len))

/-- `SECTOR_LOG2` as it is used. -/
def sectorLog2 (block : Bytes) : Nat := if leField block 16 1 = 0 then 12 else leField block 16 1

/-- The capture block as read (R506). -/
def capBlockOk (b : Bytes) : Bool :=
  decide (9 ≤ sectorLog2 b) && decide (sectorLog2 b ≤ 16) && allZero (slice b 17 47)

/-- Steps 6 and 7: lists, capture block, lengths. -/
def capRead (s : State) (env : Env) (d : Desc) : Except Bad Got :=
  match s.walkRef env (d.ref 32), s.walkRef env (d.ref 48) with
  | .error e, _ => .error e
  | _, .error e => .error e
  | .ok ins, .ok outs =>
    match s.readBlock env (d.fld 24 8) 64 with
    | .error e => .error e
    | .ok b =>
      if !capBlockOk b then .error bad6
      else if extsLen outs < capB d then .error bad6
      else if extsLen ins ≠ d.declLen.toNat then .error { status := .lengthMismatch, step := 7 }
      else .ok (ins, outs, b)

/-- `SECTION_LEN` of section `k`. -/
def sectionLen (h : Bytes) (k : Nat) : Nat := leField h (32 + 4 * k) 4

/-- A well-formed header (R503). -/
def headerOk (d : Desc) (h : Bytes) : Bool :=
  let n := leField h 5 1
  let sum := ((List.range 8).map (sectionLen h)).foldl (· + ·) 0
  leField h 0 4 == 0x524A504E && leField h 4 1 == 1 && decide (1 ≤ n) && decide (n ≤ 8) &&
  (List.range 8).all (fun k =>
    if k < n then decide (1 ≤ sectionLen h k) && decide (sectionLen h k ≤ 16777216) else sectionLen h k == 0) &&
  decide (16 ≤ sum) && decide (sum ≤ 67108864) && leField h 6 2 == 0 && decide (leField h 8 4 < 2 ^ 20) &&
  decide (leField h 12 8 < 2 ^ 40) && sum + 80 == d.declLen.toNat

/-- Number of data units of a body of `b` bytes in sectors of `z` (R518). -/
def unitCount (b z : Nat) : Nat :=
  if b ≤ z then 1 else if b % z = 0 then b / z else if 16 ≤ b % z then b / z + 1 else b / z

/-- The archive ciphertext of the first bytes of a body of `b` bytes (R517, R518). A segment never ends between the last
full block and the partial block of a unit (R264), so it is what the whole body's begins with. -/
def archiveBytes (key plain : Bytes) (b start z : Nat) : Bytes :=
  let k1 := key.take 32
  let k2 := key.drop 32
  ((List.range (unitCount b z)).map fun u =>
    let p := captureUnit b z u
    let d := (plain.drop p.1).take p.2
    xtsRun true k1 k2 (start + u) 0 (d.length == p.2) d).flatten

/-! Dispatch: orders 1 to 8 (R510, R522, R523). -/

/-- The archive slot suits (R219, R510). -/
def archiveSuits (k : KeySlot) : Bool :=
  k.type == 4 && hasAttr k 10 && k.material.take 32 != k.material.drop 32

/-- The state of a stream's signing slots (R510 order 3). -/
def streamSlots (s : State) (x : Stream) : Option Status :=
  x.slots.findSome? fun i => match (s.slot i).st with
    | .erased => some .slotErased
    | .spent => some .keySpent
    | _ => none

/-- Orders 1 to 5 but for the pearl place. -/
def capRefuse (s : State) (r : Nat) (d : Desc) : Option Status :=
  let x := s.stream d.stream
  let k := s.slot (handleIndex (d.fld 16 4))
  if x.sigs = 0 ∨ !x.owner.getLsbD (fnOf r) then some .notPermitted
  else match slotCheck k (fnOf r) (archiveSuits k) with
    | some e => some e
    | none => match streamSlots s x with
      | some e => some e
      | none => match (if d.capExtend then s.extendCheck (d.fld 23 1) (fnOf r) false else none) with
        | some e => some e
        | none =>
          if 262144 < capB d ∧ s.start.stage ≠ 4 then some .bringup
          else if 262144 < capB d ∧ s.start.gddrOut then some .stagingFull
          else none

/-- What a capture starts with. -/
def capInit (d : Desc) (h block : Bytes) : CapSt where
  archive := BitVec.ofNat 32 (d.fld 16 4)
  stream := d.stream
  hm := if d.capExtend then some (d.fld 23 1) else none
  sha3 := bitOf (d.fld 22 1) 1
  token := if d.tokenValid then some (BitVec.ofNat 10 (d.fld 20 2)) else none
  cblock := d.fld 24 8
  startSector := leField block 0 16
  sectorSize := 2 ^ sectorLog2 block
  endpoint := leField h 8 4
  sequence := leField h 12 8
  header := h
  ekey := []
  body := []
  plain := []
  note := none
  extends_ := []
  placed := none
  extCount := 0
  hookSlot := none
  gddr := decide (262144 < capB d)

/-- CAPTURE at step 8, up to its key fetch (R510 orders 1 to 8). -/
def capStart (s : State) (r seq : Nat) (d : Desc) (got : Got) (env : Env) : State :=
  let refuse := fun b => s.finishBad r seq d b
  if (s.stream d.stream).setup.isSome then s.holdWork r seq got (capB d)
  else match capRefuse s r d with
    | some e => refuse (bad8 e)
    | none =>
      match s.reservePlace d.stream with
      | none => refuse (bad8 .stagingFull)
      | some s1 =>
        match s.pickFacet 1 (capB d) 512 with
        | none => s.holdWork r seq got (capB d)
        | some f =>
          match s.gather env got.1 0 0 64 with
          | .error b => refuse b
          | .ok h =>
            if !headerOk d h then refuse (bad8 .recordMalformed)
            else
              let c := capInit d h got.2.2
              if 2 ^ 128 < c.startSector + unitCount (capB d) c.sectorSize then refuse (bad8 .counterWrap)
              else
                let plan := (s.stagePlan f (capB d) 512).getD (0, 0)
                let m : Msg :=
                  { id := 0, ring := r, seq := seq, chain := none, cls := s.servedClass r d,
                    clsNow := s.workClass r seq, kind := .capture { c with gddr := plan.2 != 0 },
                    st := .fetching, ins := got.1, outs := got.2.1, inLen := d.declLen.toNat, pos := 0,
                    outPos := 0, first := true, staged := [], held := true, onChip := plan.1,
                    gddrBytes := plan.2, param := 0, aborted := false }
                let s2 := match c.hm with
                  | some hm => s1.mark hm seq
                  | none => s1
                ((s2.reserve (handleIndex c.archive.toNat)).modRing r fun x => x.setPhase seq .active).addMsg f m

/-! Orders 9 and 10 (R511 to R514, R586). -/

/-- The applet slot of a hook serves it; `wait` while its image is being replaced. -/
inductive HookSlot | absent | wait | ready
deriving DecidableEq, Repr

/-- The slot of a hook (R564, R565, R586). -/
def State.hookSlot (s : State) (i : Nat) : HookSlot :=
  let a := tget {} s.applets.slots i
  if a.st = .empty ∨ !bitOf (leField a.header 16 1) 1 ∨ (a.waiting.map (·.remove)).getD false then .absent
  else if a.st = .replacing then .wait else .ready

/-- The applet slot held from order 9 on (R586). -/
def State.holdSlot (s : State) (i : Nat) : State :=
  { s with applets := { s.applets with slots := tmod {} s.applets.slots i fun a => { a with holds := a.holds + 1 } } }

/-- The claim of a capture (R512, R513): none while `CHECK` fails. -/
def claimResult (s : State) (c : CapSt) : Option (Except Status State) :=
  let p := s.pipe c.endpoint
  let mine := match c.token with
    | some t => t == Config.claimToken s.pip.tk c.endpoint c.sequence
    | none => false
  if s.vault.st = .moved then some (.error .endpointUnknown)
  else if p.checkErr ≠ 0 then none
  else if mine && !p.known then some (.error .endpointUnknown)
  else if mine && p.revoked then some (.error .endpointRevoked)
  else if mine && p.seen c.sequence then some (.ok s)
  else some <| match p.verdict s.vault.record.openEpoch c.sequence with
    | .fresh => .ok ((s.setPipe c.endpoint (p.claim c.sequence)).bump 18 3 1)
    | .unknown | .check => .error .endpointUnknown
    | .revoked => .error .endpointRevoked
    | .stale => .error .stale
    | .replay => .error .replay
    | .notArmed | .coarse => .error .notArmed

/-- A capture goes on after its claim: to its hook, or to its first segment (R510 order 11, R515). -/
def State.capClaimed (s : State) (f : Nat) (m : Msg) (c : CapSt) : State :=
  match c.hookSlot with
  | some i =>
    let v : Invocation :=
      { kind := .hook f m.id, slot := i, ring := m.ring, fn := fnOf m.ring, cls := m.clsNow,
        declLen := m.inLen, arg := 0, budget := 2000 }
    { s.modMsg f m.id (fun y => { y with st := .hooked, kind := .capture c }) with
      applets := { s.applets with waiting := s.applets.waiting ++ [v] } }
  | none => (s.modMsg f m.id fun y => { y with st := .ready, kind := .capture c }).sched f

/-- A capture that holds its endpoint key takes its hook's slot and its claim, or goes on waiting (R510
orders 9 and 10). -/
def State.capClaim (s : State) (f : Nat) (m : Msg) (c : CapSt) : State :=
  if s.halted then s else
  let v := s.ventry c.endpoint
  let slot := if v.hook && c.hookSlot.isNone then some v.slot else none
  match slot.map s.hookSlot with
  | some .absent => s.endMsg f m (bad8 .appletAbsent)
  | some .wait => s
  | _ =>
    let s1 := match slot with
      | some i => s.holdSlot i
      | none => s
    let c1 := { c with hookSlot := if v.hook then some v.slot else c.hookSlot }
    let s2 := (s1.meetBank c.endpoint).modMsg f m.id fun y => { y with kind := .capture c1 }
    match claimResult s2 c1 with
    | none => s2
    | some (.error e) => (s2.bump 18 4 1).endMsg f { m with kind := .capture c1 } (bad8 e)
    | some (.ok s3) => s3.capClaimed f { m with kind := .capture c1 } c1

/-- Captures that wait with their key go on: those that `which` selects, facets in ascending order
(R460). -/
def State.capRetry (s : State) (which : CapSt → Bool) : State :=
  (List.range 16).foldl (fun a f => ((a.facet f).msgs.filter fun m => m.st == .fetching).foldl (fun b m =>
    match m.kind with
    | .capture c => if !c.ekey.isEmpty && which c then b.capClaim f m c else b
    | _ => b) a) s

/-- The key fetch of a capture ends (R409, R511). -/
def State.keyFetched (s : State) (f : Nat) (m : Msg) (c : CapSt) (lineOk : Bool) : State :=
  let e := c.endpoint
  let hit := s.vault.cached.elem e
  let fail := fun (x : State) st => x.endMsg f m (bad8 st)
  match s.vault.st with
  | .loading | .recovering => fail s .bringup
  | .none | .moved => fail s .endpointUnknown
  | _ =>
    let s0 := (s.bump 18 0 1).bump 18 1 (if hit then 1 else 0)
    let got := (if lineOk || hit then s0 else s0.flawEntry e).readEntry e
    let s1 := got.1
    let v := s1.ventry e
    if !got.2 then fail s1 .vaultIntegrity
    else match v.st with
      | .empty => fail s1 .endpointUnknown
      | .revoked => fail s1 .endpointRevoked
      | .enrolled =>
        if v.recLimit ≤ v.recCount ∨ v.blockLimit ≤ v.blockCount then fail s1 .keySpent
        else
          let key := if v.rekeySeq ≤ c.sequence then v.key else v.prevKey
          let c1 := { c with ekey := fit 32 key, sha3 := c.sha3 || v.sha3 }
          (s1.modMsg f m.id fun y => { y with kind := .capture c1 }).capClaim f
            { m with kind := .capture c1 } c1

/-- VAULT_KEY_FETCH_DONE (R419): message `id` of facet `f` has its endpoint key, or its answer. -/
def execVaultKeyFetchDone (f : Fin 16) (id : Nat) (lineOk : Bool) (s : State) :
    Host.Outcome State Fault Refusal :=
  .next <|
    match s.msg f id with
    | none => s
    | some m =>
      match m.kind with
      | .capture c =>
        if m.st = .fetching ∧ c.ekey.isEmpty ∧ !s.halted then (s.keyFetched f m c lineOk).strandsGo else s
      | _ => s

/-! Segments and release (R516 to R525). -/

/-- The host is given a released record: archive ciphertext, capture block, completion (R525 steps 3 to
5). -/
def State.capFinish (s : State) (f : Nat) (m : Msg) (c : CapSt) : State :=
  match c.placed, s.descOf m.ring m.seq with
  | some (k, id, pearl), some d =>
    let s1 := s.emit m.ring false (m.ins ++ [⟨c.cblock, 256, none⟩]) m.outs 0 (s.stageX f m 0 m.staged)
    let sha3 := if c.sha3 then digest 0x11 c.plain else zeros 32
    let s2 := s1.writeOut m.ring [{ addr := c.cblock + 64, len := 192 }] 0 (sha384 c.plain ++ sha3 ++ pearl ++ zeros 32)
    let flags := ofBits [c.sha3, c.note.isSome]
    let res := leBytes 2 k ++ [BitVec.ofNat 8 c.stream, BitVec.ofNat 8 flags] ++ leBytes 4 id.toNat ++
      leBytes 8 c.extCount
    let s3 := ((s2.unreserve (handleIndex c.archive.toNat)).dropMsg f m.id).noteEnd f d m.ring .done
    ((s3.bump (1 + f) 2 1).bump (1 + f) 6 1).doneWork m.ring m.seq m.inLen res
  | _, _ => s.dropMsg f m.id

/-- The extends of a released record, its own first (R525 step 2, R587). -/
def State.releaseExtends (s : State) (m : Msg) (c : CapSt) : List (Bool × Deferred) :=
  (match c.hm with
    | some h => [(true, ⟨h, sha384 c.plain, s.markOf h m.seq⟩)]
    | none => []) ++ c.extends_.map fun d => (false, d)

/-- A verified record is released (R525). -/
def State.capRelease (s : State) (f : Nat) (m : Msg) (c : CapSt) : State :=
  let flags := ofBits [c.sha3, c.note.isSome]
  let t := s.placePearl c.stream (sha384 c.plain) c.endpoint c.sequence flags (c.note.getD 0)
  let c1 := { c with placed := some t.2 }
  let m1 := { m with kind := .capture c1, st := .extending }
  let s1 := t.1.modMsg f m.id fun _ => m1
  let l := s1.releaseExtends m1 c1
  if l.isEmpty then s1.capFinish f m1 c1
  else l.foldl (fun a x => a.sendExtend x.2.hm x.2.value x.2.n f (.capture f m.id x.1)) s1

/-- A capture's extend has been applied; once none of it waits, the record is given to the host (R325). -/
def State.capExtended (s : State) (f : Nat) (m : Msg) (c : CapSt) (own : Bool) (count : Nat) : State :=
  let c1 := { c with extCount := if own then count else c.extCount }
  let m1 := { m with kind := .capture c1 }
  let s1 := s.modMsg f m.id fun _ => m1
  let left := s1.extends_.any fun x => x.src == .capture f m.id true || x.src == .capture f m.id false
  if !left && !s.halted then s1.capFinish f m1 c1 else s1

/-- The end of a segment of `n` bytes of a capture (R517, R520, R522, R524); `stageFails`: a block staged in
GDDR6 fails its tag when it is read back. In HALT nothing is staged or released (R527). -/
def capSegEnd (s : State) (f : Nat) (m : Msg) (c : CapSt) (n : Nat) (env : Env) (stageFails : Bool) : State :=
  if s.halted then s.modMsg f m.id fun x => { x with st := .parked }
  else match s.gather env m.ins 0 m.pos n with
  | .error b => s.endMsg f m { b with step := 8 }
  | .ok data =>
    let b := m.inLen - 80
    let rest := data.drop (64 - m.pos)
    let old := c.body.length
    let ct := rest.take (b - old)
    let plain := gcmX c.ekey (slice c.header 20 12) old ct
    let c1 := { c with body := c.body ++ rest, plain := c.plain ++ plain }
    let arch := archiveBytes (s.material (handleIndex c.archive.toNat)) c1.plain b c.startSector c.sectorSize
    let m1 := { s.stagePut f m (arch.drop m.staged.length) with pos := m.pos + n, st := .parked, kind := .capture c1 }
    let s1 := (s.modMsg f m.id fun _ => m1).bump (1 + f) 1 n
    if m1.pos < m1.inLen || m.aborted then s1
    else
      let tag := gcmTag c.ekey (slice c.header 20 12) c.header (c1.body.take b)
      let w := env.raw.getD (verdictWord tag (c1.body.drop b))
      if w ≠ 0x3CC3 then ((s1.bump (1 + f) 4 1).endMsg f m1 (bad8 .tagFail)).verdict w
      else if (s1.stageGet f m1 stageFails).isNone then ((s1.bump (1 + f) 4 1).endMsg f m1 (bad8 .tagFail)).busIntegrity
      else s1.capRelease f m1 c1

end Sys2Proof.Machine
end

