-- ==== Sys2Proof/Machine/Applet.lean ====
section
/-!
DEFINITION. Vexhild applets: images, installation, invocation, endings (R549 to R566, R581 to R588). The moves
stand in Moves.lean.
-/

namespace Sys2Proof.Machine

/-- Applet slot `i`. -/
def State.app (s : State) (i : Nat) : AppSlot := tget {} s.applets.slots i
/-- Applet slot `i` replaced. -/
def State.setApp (s : State) (i : Nat) (a : AppSlot) : State :=
  { s with applets := { s.applets with slots := tset {} s.applets.slots i a } }
/-- Move engine `e`. -/
def State.eng (s : State) (e : Nat) : Engine := tget {} s.applets.engines e
/-- Move engine `e` replaced. -/
def State.setEng (s : State) (e : Nat) (x : Engine) : State :=
  { s with applets := { s.applets with engines := tset {} s.applets.engines e x } }

/-! Images (R551, R552, R577). -/

/-- `MOVE_COUNT`. -/
def moveCount (h : Bytes) : Nat := leField h 6 2
/-- `CAP_COUNT`. -/
def capCount (h : Bytes) : Nat := leField h 17 1
/-- `APPLET_ID`. -/
def appletId (h : Bytes) : Nat := leField h 8 4
/-- `KEY_TYPE` of capability `c`. -/
def capType (h : Bytes) (c : Nat) : Nat := leField h (32 + 4 * c) 1
/-- `USES` of capability `c`. -/
def capUses (h : Bytes) (c : Nat) : Nat := leField h (33 + 4 * c) 1
/-- Length of an image. -/
def imageLen (h : Bytes) : Nat := 128 + 8 * moveCount h + 96 + (if bitOf (leField h 5 1) 1 then 3309 else 0)

/-- Capability entry `c` is well formed. -/
def capEntryOk (h : Bytes) (c : Nat) : Bool :=
  if c < capCount h then
    (capType h c == 1 || capType h c == 2) && decide (capUses h c < 8) && leField h (34 + 4 * c) 2 == 0
  else leField h (32 + 4 * c) 4 == 0

/-- The offset of the first bad field of a header (R551, R563). -/
def headerBad (h : Bytes) : Option Nat :=
  let sg := leField h 5 1
  let kind := leField h 16 1
  if leField h 0 4 ≠ 0x4B574150 then some 0
  else if leField h 4 1 ≠ 1 then some 4
  else if !(sg == 1 || sg == 3) then some 5
  else if moveCount h = 0 ∨ 8192 < moveCount h then some 6
  else if appletId h = 0 then some 8
  else if kind = 0 ∨ 3 < kind then some 16
  else if 8 < capCount h then some 17
  else if !allZero (slice h 18 6) then some 18
  else if leField h 31 1 ≠ 0 then some 24
  else match (List.range 8).find? fun c => !capEntryOk h c with
    | some c => some (32 + 4 * c)
    | none => if allZero (slice h 64 64) then none else some 64

/-- The use of a capability that a move needs: bits of `USES`, one of which must be set. -/
def moveUses (op : Nat) : Nat :=
  match op with
  | 0x40 => 4 | 0x41 => 3 | 0x42 => 4 | 0x43 => 1 | 0x44 => 2 | _ => 0

/-- The key selection `IMM[19:16]` of an engine move is valid for an image. -/
def keySelOk (h : Bytes) (m : MoveFields) : Bool :=
  let k := bitsOf m.imm.toNat 19 16
  if k < 8 then decide (k < capCount h) && (capUses h k &&& moveUses m.op) != 0
  else decide (k ≤ 11) && m.op != 0x40

/-- The field codes that `fld` names (R578). -/
def fieldCode (c : Nat) : Bool :=
  decide (c ≤ 5) || (decide (0x10 ≤ c) && decide (c ≤ 0x16)) || (decide (0x18 ≤ c) && decide (c ≤ 0x21)) ||
    c == 0x28 || c == 0x29 || (decide (0x30 ≤ c) && decide (c ≤ 0x37))

/-- A move is valid in an image (R577). -/
def moveOk (h : Bytes) (w : BitVec 64) : Bool :=
  (decodeMove 0 w).isSome &&
  match unpackMove w with
  | none => false
  | some m =>
    let i := m.imm.toNat
    match m.op with
    | 0x14 | 0x15 => decide (i < 64)
    | 0x28 | 0x29 | 0x2A => decide (i < moveCount h)
    | 0x2C => decide (4 ≤ i) && decide (i ≤ 64)
    | 0x38 => fieldCode i
    | 0x40 => i % 65536 == 0 && i / 2 ^ 20 == 0 && keySelOk h m
    | 0x41 | 0x42 | 0x43 | 0x44 => i / 2 ^ 20 == 0 && keySelOk h m
    | 0x48 => digestLen (bitsOf i 27 20) != 0 && bitsOf i 19 16 == 0 && i / 2 ^ 28 == 0
    | 0x50 => decide (i < 64) && bitOf (leField h 24 8) i
    | 0x60 => decide (i < 256)
    | _ => true

/-- Move `k` of an image. -/
def imageMove (b : Bytes) (k : Nat) : BitVec 64 := BitVec.ofNat 64 (leField b (128 + 8 * k) 8)
/-- The moves of an image. -/
def imageMoves (b : Bytes) : List (BitVec 64) := (List.range (moveCount b)).map (imageMove b)

/-- The first failure of order 2 of R563: its offset in the image where it has one. -/
def imageBad (d : Desc) (b : Bytes) : Option (Option Nat) :=
  match headerBad b with
  | some o => some (some o)
  | none =>
    if imageLen b ≠ d.declLen.toNat then some (some 6)
    else match (List.range (moveCount b)).find? fun k => !moveOk b (imageMove b k) with
      | some k => some (some (128 + 8 * k))
      | none =>
        let bind := d.fld 24 8
        if (capCount b = 0 ∧ bind ≠ 0) ∨ (capCount b ≠ 0 ∧ (bind = 0 ∨ bind % 32 ≠ 0)) then some none else none

/-! The family's descriptors (R560, R561). -/

/-- The body checks of step 5 (R554, R560, R561). -/
def appCheck5 (s : State) (d : Desc) : Bool :=
  let n := d.declLen.toNat
  if d.is .appletInvoke then
    decide (d.fld 16 1 < 32) && allZero (d.bytes 17 3) && decide (d.fld 20 4 ≤ 1000000) &&
    (d.ref 32).okFor n && ((d.ref 48).isZero || (d.ref 48).ok)
  else if d.is .appletInstall then
    decide (d.fld 16 1 < 32) && decide (d.fld 17 1 < 2) && allZero (d.bytes 18 2) && bitOf (d.fld 20 4) 0 &&
    (d.ref 32).ok && (d.ref 48).isZero
  else if d.is .appletRemove then
    decide (d.fld 16 1 < 32) && allZero (d.bytes 17 47)
  else
    decide (d.fld 16 1 < 2) && allZero (d.bytes 17 15) && (d.ref 32).ok && (d.ref 48).isZero &&
    n == 97 + (if bitOf (d.fld 16 1) 0 then 1952 else 0) + (if s.applets.gen = 0 then 0 else 96)

/-- Steps 6 and 7. -/
def appRead (s : State) (env : Env) (d : Desc) : Except Bad Got :=
  if d.is .appletRemove then noRead d
  else
    match s.walkRef env (d.ref 32), s.walkRef env (d.ref 48) with
    | .error e, _ => .error e
    | _, .error e => .error e
    | .ok ins, .ok outs =>
      if extsLen ins ≠ d.declLen.toNat then .error { status := .lengthMismatch, step := 7 }
      else .ok (ins, outs, [])

/-! Invocation (R568, R584, R585). -/

/-- `KIND` bit `i` of an installed image. -/
def AppSlot.kind (a : AppSlot) (i : Nat) : Bool := a.st != .empty && bitOf (leField a.header 16 1) i

/-- APPLET_INVOKE at step 8 (R561, R565, R584). -/
def appInvoke (s : State) (r seq : Nat) (d : Desc) (got : Got) : State :=
  let i := d.fld 16 1
  let a := s.app i
  let refuse := fun st => s.finishBad r seq d (bad8 st)
  if 16384 < d.declLen.toNat then refuse .lengthLimit
  else if !s.applets.invokeEn then refuse .notPermitted
  else if !a.kind 0 || (a.waiting.map (·.remove)).getD false then refuse .appletAbsent
  else if !a.owner.getLsbD (fnOf r) then refuse .notPermitted
  else
    let v : Invocation :=
      { kind := .invoke r seq, slot := i, ring := r, fn := fnOf r, cls := s.workClass r seq,
        declLen := d.declLen.toNat, arg := BitVec.ofNat 64 (d.fld 24 8),
        budget := if d.fld 20 4 = 0 then 100000 else d.fld 20 4 }
    let s1 := s.keepGot r seq got
    { s1 with applets := { s1.applets with waiting := s1.applets.waiting ++ [v] } }

/-- Invocations by descriptor that wait for an engine (R568). -/
def State.invWaiting (s : State) : Nat :=
  (s.applets.waiting.filter fun v => match v.kind with
    | .invoke _ _ => true
    | .hook _ _ => false).length

/-- The invocation that an engine takes next (R568): those of a slot whose image is being replaced wait
(R564). -/
def nextInvocation (s : State) : Option Invocation :=
  let l := s.applets.waiting.filter fun v => match v.kind with
    | .hook _ _ => true
    | .invoke _ _ => (s.app v.slot).waiting.isNone
  let hook := l.find? fun v => match v.kind with
    | .hook _ _ => true
    | .invoke _ _ => false
  match hook with
  | some v => some v
  | none =>
    let c := (l.map (·.cls)).foldl max 0
    let top := l.filter fun v => v.cls == c
    match rrPick (tget 0 s.applets.rr c) (top.map (·.ring)) with
    | none => none
    | some r => top.find? fun v => v.ring == r

/-! Endings (R581 to R585). -/

/-- The pending marks of an invocation's deferred extends cleared. -/
def State.unmarkAll (s : State) (l : List Deferred) : State := l.foldl (fun a d => a.unmark d.n) s

/-- A message ended other than by success, with a completion of its own. -/
def State.endMsgWith (s : State) (f : Nat) (m : Msg) (st : Status) (mk : Desc → Cpl) : State :=
  let s1 := ((s.giveBack f m).dropMsg f m.id).bump (1 + f) 2 1
  match s1.descOf m.ring m.seq with
  | some d => (s1.noteEnd f d m.ring st).finish m.ring m.seq (mk d)
  | none => s1

/-- The applet result layout (R583). -/
def appletResult (code reason : Byte) (slot move units : Nat) : Bytes :=
  [code, reason, BitVec.ofNat 8 slot, 0] ++ leBytes 2 move ++ zeros 2 ++ leBytes 4 units

/-- An engine's invocation ends other than by acceptance: fault code, reason, at its present move (R582,
R583). -/
def State.faultRun (s : State) (e : Nat) (x : Engine) (code reason : Byte) : State :=
  match x.inv with
  | none => s
  | some v =>
    let st : Status := if code = 0x10 then .appletBudget else .appletFault
    let sat := fun (n : Nat) => min (n + 1) (2 ^ 32 - 1)
    let y : Engine := { x.stop with
      faults := if code = 0x10 then x.faults else sat x.faults
      budgets := if code = 0x10 then sat x.budgets else x.budgets }
    let a := s.app v.slot
    let s1 := ((s.setEng e y).setApp v.slot { a with
      lastFault := code, lastReason := reason, lastMove := BitVec.ofNat 13 x.pc }).countInvocation v
    let mk := fun d => cplOf d st 0 (appletResult code reason v.slot x.pc x.units)
    match v.kind with
    | .invoke r q =>
      let s2 := s1.unmarkAll x.extends_
      match s2.descOf r q with
      | some d => s2.finish r q (mk d)
      | none => s2
    | .hook f id =>
      match s1.msg f id with
      | some m => (s1.endMsgWith f m st mk).sched f
      | none => s1

/-- The output and the completion of an accepted invocation (R585). -/
def State.acceptDone (s : State) (e : Nat) : State :=
  let x := s.eng e
  match x.inv, x.rets with
  | some v, some (a, n) =>
    let s1 := (s.setEng e x.stop).countInvocation v
    match v.kind with
    | .invoke r q =>
      match (s1.ring r).find q with
      | none => s1
      | some w =>
        let got := w.got.getD ([], [], [])
        let out := (List.range n).map fun k => tget 0 x.scratch (a + k)
        (s1.emit r false got.1 got.2.1 0 out).finishDone r q w.desc 0
          (leBytes 4 n ++ [BitVec.ofNat 8 v.slot, BitVec.ofNat 8 x.extends_.length, 0, 0] ++ leBytes 8 x.extCount)
    | .hook _ _ => s1
  | _, _ => s

/-- The rank of an applet engine's extends: after the facets and the crown (R42). -/
def engineRank (e : Nat) : Nat := 17 + e

/-- An accepting `ret` (R581, R585, R587). -/
def State.acceptRun (s : State) (e : Nat) (x : Engine) (a n : Nat) : State :=
  match x.inv with
  | none => s
  | some v =>
    match v.kind with
    | .invoke _ _ =>
      let s1 := s.setEng e { x with rets := some (a, n) }
      if x.extends_.isEmpty then s1.acceptDone e
      else x.extends_.foldl (fun y p => y.sendExtend p.hm p.value p.n (engineRank e) (.engine e)) s1
    | .hook f id =>
      let s1 := (s.setEng e x.stop).countInvocation v
      match s1.msg f id with
      | none => s1
      | some m =>
        match m.kind with
        | .capture c =>
          let c1 := { c with note := x.note, extends_ := x.extends_, hookSlot := none }
          ((s1.unhold c.hookSlot).modMsg f id fun y => { y with kind := .capture c1, st := .ready }).sched f
        | _ => s1

/-- MOVE_ENGINE_TAKE (R564, R568, R585): the lowest free engine takes the next invocation, its input read into
scratch. -/
def execMoveEngineTake (env : Env) (s0 : State) : Host.Outcome State Fault Refusal :=
  .next <|
    let s := s0.hostStores env
    if s.halted then s else
    match (List.range 4).find? fun e => (s.eng e).inv.isNone, nextInvocation s with
    | some e, some v =>
      let s1 : State := { s with applets := { s.applets with waiting := s.applets.waiting.erase v } }
      let x := s.eng e
      let start := fun (t : State) (m : Tab Byte) => t.setEng e { x with inv := some v, scratch := m }
      match v.kind with
      | .hook f id =>
        match s1.msg f id with
        | some _ => start s1 []
        | none => s1
      | .invoke r q =>
        let s2 : State := { s1 with applets := { s1.applets with rr := tset 0 s1.applets.rr v.cls (rrNext 512 r) } }
        match (s2.ring r).find q with
        | none => s2
        | some w =>
          if !(s2.app v.slot).kind 0 then s2.finishBad r q w.desc (bad8 .appletAbsent)
          else match s2.readAll env (w.got.getD ([], [], [])).1 with
            | .error b => s2.finishBad r q w.desc { b with step := 8 }
            | .ok data => start s2 (Mem.writeN [] 0 data)
    | _, _ => s

/-! Installing and removing (R556 to R559, R563 to R565). -/

/-- The invocations of a slot have ended, and no capture holds it (R564). -/
def State.appFree (s : State) (i : Nat) : Bool :=
  (s.app i).holds == 0 && s.applets.engines.all fun (e : Nat × Engine) => match e.2.inv with
    | some v => v.slot != i
    | none => true

/-- Running invocations of a slot. -/
def State.appRuns (s : State) (i : Nat) : Nat :=
  (s.applets.engines.filter fun (e : Nat × Engine) => match e.2.inv with
    | some v => v.slot == i
    | none => false).length

/-- The crown's install or remove goes on once its slot is free (R564, R565). -/
def State.appGo (s : State) : State :=
  match s.crowns.journal with
  | none => s
  | some j =>
    match (List.range 32).find? fun i => match (s.app i).waiting with
        | some c => c.ring == j.ring && c.seq == j.seq
        | none => false with
    | none => s
    | some i =>
      if j.wait ≠ .hold ∨ !s.appFree i then s
      else
        let a := s.app i
        match a.waiting with
        | none => s
        | some c =>
          if c.remove then s.crownDone [] [.app i {}] 0 []
          else
            -- R590: the last ending of the slot stays, its count is since the install
            let b : AppSlot :=
              { st := .installed, header := c.header, moves := c.moves, caps := c.caps, owner := c.owner
                lastFault := a.lastFault, lastReason := a.lastReason, lastMove := a.lastMove }
            (s.crownDone [] [.app i b] 0 []).capRetry fun _ => true

/-- The bindings of an install (R556, R557): handles in order, or the status of the first that fails. -/
def bindings (s : State) (h b : Bytes) : Except Status (List (Option Word32)) :=
  if !allZero (b.drop (4 * capCount h)) then .error .descMalformed
  else (List.range (capCount h)).foldl (fun acc c => match acc with
    | .error e => .error e
    | .ok l =>
      let v := leField b (4 * c) 4
      let k := s.slot (handleIndex v)
      if !handleOk 1 v then .error .descMalformed
      else match slotReach k 0 with
        | some e => .error e
        | none =>
          let uses := capUses h c
          if hasAttr k 11 && k.type.toNat == capType h c && (!bitOf uses 0 || hasAttr k 0) &&
              (!bitOf uses 1 || hasAttr k 1) && (!bitOf uses 2 || hasAttr k 2) then
            .ok (l ++ [some (BitVec.ofNat 32 v)])
          else .error .modeKeyClash) (.ok [])

/-- The crown asks for an engine of a kind; none in service ends the descriptor (R346, R399). -/
def State.askCrown (s : State) (lattice : Bool) (scheme : Nat) : State :=
  if s.kindServes lattice then
    let s1 := s.crownWait .engine
    { s1 with signet := { s1.signet with
      queue := s1.signet.queue ++ [{
        client := .crown s1.crowns.entries, lattice := lattice, scheme := scheme, desc := s1.crownDesc.map (·.2.1) }] } }
  else s.crownFail (bad8 .facetFenced)

/-- What the crown has read is kept with its descriptor. -/
def State.crownKeep (s : State) (got : Got) : State :=
  match s.crowns.journal with
  | none => s
  | some j => (s.keepGot j.ring j.seq got).modJournal fun x => { x with kept := x.kept.map fun k => (k.1, got) }

/-- APPLET_INSTALL at step 8, orders 1 to 4 (R563); the signatures follow. -/
def appInstall (s : State) (d : Desc) (got : Got) (env : Env) : State :=
  match s.readAll env got.1 with
  | .error b => s.crownFail { b with step := 8 }
  | .ok img =>
    let a := s.app (d.fld 16 1)
    let rep := bitOf (d.fld 17 1) 0
    match imageBad d img with
    | some off => s.crownFail { status := .descMalformed, step := 8, off := off }
    | none =>
      if (a.st ≠ .empty ∧ !rep) ∨ (a.st ≠ .empty ∧ appletId a.header = appletId img ∧
          leField img 12 4 < leField a.header 12 4) then s.crownFail (bad8 .notPermitted)
      else if s.applets.gen = 0 ∨ (!s.applets.signerMl.isEmpty ∧ !bitOf (leField img 5 1) 1) then
        s.crownFail (bad8 .notPermitted)
      else (s.crownKeep (got.1, got.2.1, img)).askCrown false 0x02

/-- Orders 6 to 8 of an install, its signatures verified. -/
def appInstallBind (s : State) (d : Desc) (img : Bytes) (env : Env) : State :=
  let n := capCount img
  let i := d.fld 16 1
  match (if n = 0 then .ok (zeros 32) else s.hostFetch env (d.fld 24 8) 32) with
  | .error e => s.crownFail { status := .dmaFault, step := 8, dma := some (d.fld 24 8, e, 5) }
  | .ok b =>
    match bindings s img b with
    | .error st => s.crownFail (bad8 st)
    | .ok caps =>
      match s.crowns.journal with
      | none => s
      | some j =>
        let c : AppChange := ⟨j.ring, j.seq, false, img.take 128, imageMoves img, caps, BitVec.ofNat 32 (d.fld 20 4)⟩
        let a := s.app i
        let st := if a.st = .empty then a.st else .replacing
        ((s.setApp i { a with st := st, waiting := some c }).crownWait .hold).appGo

/-- APPLET_REMOVE at step 8 (R565). -/
def appRemove (s : State) (d : Desc) : State :=
  let i := d.fld 16 1
  let a := s.app i
  match s.crowns.journal with
  | none => s
  | some j =>
    if a.st = .empty then s.crownFail (bad8 .appletAbsent)
    else ((s.setApp i { a with waiting := some ⟨j.ring, j.seq, true, [], [], [], 0⟩ }).crownWait .hold).appGo

/-! The signer record (R553 to R555). -/

/-- The payload of the signer record: `GEN`, ECDSA key, then the ML-DSA-65 key where there is one. -/
def signerBytes (gen : Word32) (ec ml : Bytes) : Bytes := leBytes 4 gen.toNat ++ ec ++ ml

/-- The new keys in the input of `APPLET_SIGNER`. -/
def signerKeys (d : Desc) (b : Bytes) : Bytes × Bytes :=
  (b.take 97, if bitOf (d.fld 16 1) 0 then slice b 97 1952 else [])

/-- The signer record is replaced (R555). -/
def signerCommit (s : State) (d : Desc) (b : Bytes) : State :=
  let k := signerKeys d b
  let g := s.applets.gen + 1
  s.crownDone [s.planRec (.sys 0x08 0) 0x08 (signerBytes g k.1 k.2)] [.signer g k.1 k.2] 0 (leBytes 4 g.toNat)

/-- APPLET_SIGNER at step 8 (R554). -/
def appSigner (s : State) (d : Desc) (got : Got) (env : Env) : State :=
  match s.readAll env got.1 with
  | .error b => s.crownFail { b with step := 8 }
  | .ok b =>
    let k := signerKeys d b
    if !pubValid 0x02 k.1 || !(k.2.isEmpty || pubValid 0x20 k.2) then s.crownFail (bad8 .signetInput)
    else if s.applets.gen = 0 then signerCommit s d b
    else (s.crownKeep (got.1, got.2.1, b)).askCrown false 0x02

/-- Measurement block 4: the applets in slot order (R566). -/
def State.appletMeasure (s : State) : Bytes :=
  sha384 ((List.range 32).map fun i =>
    let a := s.app i
    if a.st = .empty then zeros 64
    else slice a.header 8 8 ++ sha384 (a.header ++ (a.moves.map fun w => leBytes 8 w.toNat).flatten) ++ zeros 8).flatten

end Sys2Proof.Machine
end

