-- ==== Sys2Proof/Machine/CardBus.lean ====
section
/-!
DEFINITION. What travels between the card ports and their cards (chapter 16): SD frames, blocks and registers, and for the
contact card the ATR, T=0 characters and T=1 blocks. The SD specification and ISO/IEC 7816-3, which the manual names and
does not print, give the codings (log entry 40, PRESUMED).
-/

namespace Sys2Proof.Machine

/-! SD (R720 to R724). -/

/-- The bits of a byte string in the order in which a line carries them. -/
def lineBits (b : Bytes) : List Bool := b.flatMap fun x => (List.range 8).map fun k => x.getLsbD (7 - k)

/-- One step of a cyclic redundancy check of `n` bits. -/
def crcStep (n : Nat) (poly c : BitVec n) (b : Bool) : BitVec n :=
  if c.msb != b then (c <<< 1) ^^^ poly else c <<< 1

/-- CRC7 of a command or response. -/
def crc7 (b : Bytes) : BitVec 7 := (lineBits b).foldl (crcStep 7 0x09) 0
/-- CRC16 of one data line. -/
def crc16 (l : List Bool) : BitVec 16 := l.foldl (crcStep 16 0x1021) 0

/-- The last byte of a command, a response or a card register: its CRC7 and the end bit. -/
def crcEnd (b : Bytes) : Byte := BitVec.ofNat 8 (2 * (crc7 b).toNat + 1)

/-- A command on `SD_CMD`. -/
def sdFrame (cmd : Nat) (arg : Word32) : Bytes :=
  let h := BitVec.ofNat 8 (64 + cmd) :: beBytes 4 arg.toNat
  h ++ [crcEnd h]

/-- The CRCs of a data block, `SD_DAT0` first: one line, or four of which `SD_DAT3` carries the first bit. -/
def blockCrcs (wide : Bool) (b : Bytes) : List (BitVec 16) :=
  let l := lineBits b
  if wide then (List.range 4).map fun k => crc16 ((l.zipIdx.filter fun e => e.2 % 4 == 3 - k).map (·.1))
  else [crc16 l]

/-- What a response carries. -/
inductive SdRead
  | ok (v : Bytes)
  | crc
  | bad
deriving DecidableEq, Repr

/-- A response of 48 bits with the index of its command, and its 32 bits. -/
def readR48 (cmd : Nat) (b : Bytes) : SdRead :=
  if b.length ≠ 6 then .bad
  else if byteAt b 5 ≠ crcEnd (b.take 5) then .crc
  else if byteAt b 0 ≠ BitVec.ofNat 8 cmd then .bad else .ok (slice b 1 4)

/-- The response to ACMD41, which carries no CRC. -/
def readR3 (b : Bytes) : SdRead :=
  if b.length = 6 ∧ byteAt b 0 = 0x3F ∧ byteAt b 5 = 0xFF then .ok (slice b 1 4) else .bad

/-- A card register of 128 bits. -/
def readR2 (b : Bytes) : SdRead :=
  if b.length ≠ 17 ∨ byteAt b 0 ≠ 0x3F then .bad
  else if byteAt b 16 ≠ crcEnd (slice b 1 15) then .crc else .ok (b.drop 1)

/-- A bit of an R1 response reports an error. -/
def r1Error (v : Bytes) : Bool := beNat v &&& 0xFDF98008 != 0
/-- `CURRENT_STATE` of an R1 response is the transfer state. -/
def r1Tran (v : Bytes) : Bool := bitsOf (beNat v) 12 9 == 4

/-- Bits `[hi:lo]` of the CSD. -/
def csdBits (csd : Bytes) (hi lo : Nat) : Nat := bitsOf (beNat csd) hi lo
/-- Capacity in blocks of 512 bytes; none for a layout that the port does not serve. -/
def csdBlocks (csd : Bytes) : Option Nat :=
  match csdBits csd 127 126 with
  | 0 => some ((csdBits csd 73 62 + 1) * 2 ^ (csdBits csd 49 47 + 2) * 2 ^ csdBits csd 83 80 / 512)
  | 1 => some ((csdBits csd 69 48 + 1) * 1024)
  | _ => none
/-- Permanent or temporary write protection (R726). -/
def csdProtects (csd : Bytes) : Bool := csdBits csd 13 12 != 0
/-- Card type: 1 SDSC, 2 SDHC, 3 SDXC (R747), by the capacity status and the size. -/
def sdType (ccs : Bool) (blocks : Nat) : Nat := if !ccs then 1 else if blocks ≤ 67108864 then 2 else 3

/-! The ATR (R739, R740). -/

/-- What an ATR gives. -/
structure Atr where
  /-- a protocol with T=1 is offered -/
  t1 : Bool := false
  /-- some interface byte names a protocol other than T=0, so that TCK follows -/
  tck : Bool := false
  ta1 : Byte := 0x11
  ta2 : Option Byte := none
  /-- classes supported: bit 0 A, bit 1 B, bit 2 C -/
  classes : Option Nat := none
  ifsc : Nat := 32
  tb3 : Byte := 0x4D
  tc3 : Byte := 0
  /-- the bytes for T=1 have been met -/
  met : Bool := false
deriving DecidableEq, Repr

/-- The first byte taken where bit `k` of `y` announces it. -/
def atrTake (y k : Nat) (b : Bytes) : Option (Option Byte × Bytes) :=
  if !bitOf y k then some (none, b)
  else match b with
    | [] => none
    | x :: r => some (some x, r)

/-- The interface bytes TAi to TCi noted, those of a group after one that named protocol `t`. -/
def Atr.note (a : Atr) (i t : Nat) (ta tb tc : Option Byte) : Atr :=
  if i = 1 then { a with ta1 := ta.getD 0x11 }
  else if i = 2 then { a with ta2 := ta }
  else if t = 15 then { a with classes := match ta with
    | some x => some (x.toNat % 64)
    | none => a.classes }
  else if t = 1 ∧ !a.met then
    { a with met := true, ifsc := (ta.map (·.toNat)).getD 32, tb3 := tb.getD 0x4D, tc3 := tc.getD 0 }
  else a

/-- Groups of interface bytes from group `i`, announced by `y`; the first argument bounds their number. -/
def atrGroups : Nat → Nat → Nat → Nat → Bytes → Atr → Option (Atr × Bytes)
  | 0, _, _, _, _, _ => none
  | k + 1, y, i, t, b, a =>
    match atrTake y 0 b with
    | none => none
    | some (ta, b1) => match atrTake y 1 b1 with
      | none => none
      | some (tb, b2) => match atrTake y 2 b2 with
        | none => none
        | some (tc, b3) =>
          let a1 := a.note i t ta tb tc
          match atrTake y 3 b3 with
          | none => none
          | some (none, b4) => some (a1, b4)
          | some (some td, b4) =>
            let p := td.toNat % 16
            atrGroups k (td.toNat / 16) (i + 1) p b4 { a1 with t1 := a1.t1 || p == 1, tck := a1.tck || p != 0 }

/-- An ATR read whole: its groups, its historical bytes and TCK where it has one, whose check holds. -/
def parseAtr (b : Bytes) : Option Atr :=
  let ts := byteAt b 0
  let t0 := (byteAt b 1).toNat
  if b.length < 2 ∨ 33 < b.length ∨ !(ts = 0x3B ∨ ts = 0x3F) then none
  else match atrGroups 33 (t0 / 16) 1 0 (b.drop 2) {} with
    | none => none
    | some (a, r) =>
      if r.length ≠ t0 % 16 + a.tck.toNat then none
      else if a.tck ∧ (b.drop 1).foldl (· ^^^ ·) 0 ≠ 0 then none else some a

/-- The card answers in a specific mode: TA2 is present. -/
def Atr.specific (a : Atr) : Bool := a.ta2.isSome
/-- The protocol that the port uses: T=1 where the ATR offers it; in a specific mode, that of TA2. -/
def Atr.useT1 (a : Atr) : Bool :=
  match a.ta2 with
  | some x => x.toNat % 16 == 1
  | none => a.t1

/-- Fi and the highest clock in kHz for an index; none is reserved. -/
def fiOf (k : Nat) : Option (Nat × Nat) :=
  [some (372, 4000), some (372, 5000), some (558, 6000), some (744, 8000), some (1116, 12000), some (1488, 16000),
    some (1860, 20000), none, none, some (512, 5000), some (768, 7500), some (1024, 10000), some (1536, 15000),
    some (2048, 20000), none, none].getD k none
/-- Di for an index; none is reserved. -/
def diOf (k : Nat) : Option Nat :=
  [none, some 1, some 2, some 4, some 8, some 16, some 32, some 64, some 12, some 20].getD k none

/-- Fi, fmax and Di of TA1; a reserved index leaves 372 and 1. -/
def Atr.rates (a : Atr) : Nat × Nat × Nat :=
  match fiOf (a.ta1.toNat / 16), diOf (a.ta1.toNat % 16) with
  | some (f, m), some d => (f, m, d)
  | _, _ => (372, 5000, 1)

/-- The index of Di in the PPS: 64 is capped at 32. -/
def ppsDi (k : Nat) : Nat := if k = 7 then 6 else k

/-- The PPS request: the protocol chosen, Fi of TA1 and Di of TA1 capped at 32. -/
def Atr.pps (a : Atr) : Bytes :=
  let p0 : Byte := if a.useT1 then 0x11 else 0x10
  let p1 := BitVec.ofNat 8 (a.ta1.toNat / 16 * 16 + ppsDi (a.ta1.toNat % 16))
  [0xFF, p0, p1, 0xFF ^^^ p0 ^^^ p1]

/-- BWT in ms, rounded up, for Fi, Di and a clock in kHz. -/
def bwtOf (tb3 : Byte) (fi di khz : Nat) : Nat :=
  ceilDiv (11 * fi / (max di 1) + 2 ^ (tb3.toNat / 16) * 960 * 372) (max khz 1)
/-- CWT in etu. -/
def cwtOf (tb3 : Byte) : Nat := 11 + 2 ^ (tb3.toNat % 16)

/-! T=1 blocks (R741). -/

/-- The CRC of ISO/IEC 13239 over a block. -/
def crcT1 (b : Bytes) : BitVec 16 :=
  b.foldl (fun c x => (List.range 8).foldl (fun (a : BitVec 16) _ =>
    if a.getLsbD 0 then (a >>> 1) ^^^ 0x8408 else a >>> 1) (c ^^^ x.setWidth 16)) 0xFFFF

/-- The EDC: a CRC where TC3 selects it, else the exclusive or of the bytes. -/
def edc (crc : Bool) (b : Bytes) : Bytes :=
  if crc then beBytes 2 (crcT1 b).toNat else [b.foldl (· ^^^ ·) 0]

/-- A block with NAD 0. -/
def t1Block (crc : Bool) (pcb : Byte) (inf : Bytes) : Bytes :=
  let h := [0, pcb, BitVec.ofNat 8 inf.length] ++ inf
  h ++ edc crc h

/-- A block read: its PCB and its information field; none when it is invalid. -/
def t1Read (crc : Bool) (b : Bytes) : Option (Byte × Bytes) :=
  let n := (byteAt b 2).toNat
  let body := b.take (3 + n)
  if b.length = 3 + n + (if crc then 2 else 1) ∧ byteAt b 0 = 0 ∧ n ≤ 254 ∧ b.drop (3 + n) = edc crc body then
    some (byteAt b 1, body.drop 3)
  else none

/-! T=0 (R742). -/

/-- What a character received leads to. -/
inductive T0Out
  /-- characters to send -/
  | more (x : Exchange) (tx : Bytes)
  /-- the status word -/
  | done (x : Exchange) (sw : BitVec 16)
  /-- no procedure byte -/
  | bad
deriving DecidableEq, Repr

/-- One character: data where some is due, else the second byte of the status word or a procedure byte. -/
def t0Char (b : Byte) (x : Exchange) : T0Out :=
  let ins := byteAt x.apdu 1
  match x.sw1 with
  | some a => .done x (BitVec.ofNat 16 (256 * a.toNat + b.toNat))
  | none =>
    if 0 < x.due then .more { x with due := x.due - 1, want := x.want - 1, rx := x.rx ++ [b] } []
    else if b = 0x60 then .more x []
    else if b = ins then
      if x.toSend = [] then .more { x with due := x.want } [] else .more { x with toSend := [] } x.toSend
    else if b = ins ^^^ 0xFF then
      if x.toSend = [] then .more { x with due := min 1 x.want } []
      else .more { x with toSend := x.toSend.drop 1 } (x.toSend.take 1)
    else if b &&& 0xF0 = 0x60 ∨ b &&& 0xF0 = 0x90 then .more { x with sw1 := some b } []
    else .bad

/-- The characters of an answer in turn. -/
def t0Feed : Bytes → Exchange → Bytes → T0Out
  | [], x, tx => .more x tx
  | b :: r, x, tx => match t0Char b x with
    | .more y t => t0Feed r y (tx ++ t)
    | o => o

/-- The exchange of an APDU under T=0, and its header: P3 is the length of the command data, else that expected. -/
def t0Start (apdu rx : Bytes) : Exchange × Bytes :=
  let p3 := byteAt apdu 4
  let data := if 5 < apdu.length then slice apdu 5 p3.toNat else []
  let want := if apdu.length = 5 then (if p3 = 0 then 256 else p3.toNat) else 0
  ({ apdu := apdu, toSend := data, want := want, rx := rx }, fit 5 (apdu.take 5))

end Sys2Proof.Machine
end

