-- ==== Sys2Proof/Machine/Keys.lean ====
section
/-!
DEFINITION. Key custody descriptors and key ceremonies (chapter 4): generation, import, export, destruction,
loading, public keys, decapsulation, and the ceremonies up to their card transfers.
-/

namespace Sys2Proof.Machine

/-! Bodies (R161, R162, R173, R197, R198, R208). -/

/-- `PERSIST` of `KFLAGS`. -/
def Desc.persist (d : Desc) : Bool := bitOf (d.fld 25 1) 0

/-- A descriptor that makes a new key. -/
def makesKey (d : Desc) : Bool :=
  d.is .keyGenerate || d.is .keyImport || d.is .keyDecapsulate || d.is .keyLoad

/-- The body checks of step 5 of key custody. -/
def keyCheck5 (d : Desc) : Bool :=
  let h := d.fld 16 4
  let w := d.fld 20 4
  let gen := d.is .keyGenerate
  let imp := d.is .keyImport
  let dec := d.is .keyDecapsulate
  let t := d.fld 24 1
  (if gen || imp then (if d.persist then handleOk 2 h else h == 0)
   else if d.is .keyExport then handleOk 1 h || handleOk 2 h || handleOk 4 h
   else if d.is .keyDestroy then handleOk 1 h || handleOk 2 h
   else if d.is .keyRelease || d.is .keyLimit then handleOk 1 h
   else if d.is .keyLoad then handleOk 2 h
   else if d.is .keyPublic then handleOk 1 h || handleOk 2 h || handleOk 5 h else h == 0) &&
  (if imp || d.is .keyExport then handleOk 1 w || handleOk 2 w || handleOk 4 w
   else if dec then handleOk 1 w || handleOk 2 w else w == 0) &&
  (if gen then typeOk t (d.fld 26 2) else if dec then (t == 0x02 || t == 0x05) && d.fld 26 2 == 0
   else t == 0 && d.fld 26 2 == 0) &&
  (if gen || imp then decide (d.fld 25 1 < 2) else d.fld 25 1 == 0) &&
  (if gen || dec then decide (d.fld 28 4 < 4096) else d.fld 28 4 == 0) &&
  (if makesKey d then bitOf (d.fld 32 4) 0 else d.fld 32 4 == 0) &&
  (gen || dec || d.is .keyLoad || d.is .keyLimit || (d.fld 36 4 == 0 && d.fld 40 8 == 0)) &&
  (!dec || d.declLen == 1088) &&
  (if imp || dec || d.is .keyExport || d.is .keyPublic then (d.ref 48).ok else (d.ref 48).isZero)

/-- The body checks of step 5 of a ceremony descriptor (R205, R208). -/
def cerCheck5 (d : Desc) : Bool :=
  let p := d.fld 16 1
  if d.is .cerBegin then
    decide (1 ≤ p) && decide (p ≤ 3) &&
    (if p = 1 then d.fld 17 2 == 0
     else decide (2 ≤ d.fld 18 1) && decide (d.fld 18 1 ≤ 16) && decide (2 ≤ d.fld 17 1) &&
       decide (d.fld 17 1 ≤ d.fld 18 1)) &&
    (if p = 3 then d.fld 19 1 == 0 && d.fld 20 4 == 0 else d.fld 20 4 != 0)
  else if d.is .cerShare then
    (if d.fld 24 1 = 0 then d.fld 25 1 == 0
     else d.fld 24 1 == 1 && decide (1 ≤ d.fld 25 1) && decide (d.fld 25 1 ≤ 16))
  else true

/-- Steps 6 and 7 of a crown descriptor with one input reference, one output reference, or none of them: the
input must be `DECLARED_LENGTH` long (R110). -/
def crownRead (s : State) (env : Env) (d : Desc) (inp out : Option Nat) : Except Bad Got :=
  match (inp.map fun o => s.walkRef env (d.ref o)).getD (.ok []),
      (out.map fun o => s.walkRef env (d.ref o)).getD (.ok []) with
  | .error e, _ => .error e
  | _, .error e => .error e
  | .ok ins, .ok outs =>
    if extsLen ins ≠ d.declLen.toNat then .error { status := .lengthMismatch, step := 7 } else .ok (ins, outs, [])

/-- Steps 6 and 7 of key custody. -/
def keyRead (s : State) (env : Env) (d : Desc) : Except Bad Got :=
  crownRead s env d (if d.is .keyImport || d.is .keyDecapsulate then some 48 else none)
    (if d.is .keyExport || d.is .keyPublic then some 48 else none)

/-! New keys (R171, R176, R185, R186, R193). -/

/-- `LOAD_COUNT` (R185). -/
def State.loadCount (s : State) : Nat :=
  let r := s.nvm.record (.sys 0x05 0)
  match r.st with
  | .never => 0
  | .torn => 0xFFFFFF
  | .held => leField r.payload 0 3

/-- A block limit: 0 means 2^64 − 1 (R197). -/
def limitOf (n : Nat) : Nat := if n = 0 then 2 ^ 64 - 1 else n

/-- The slots of a new key from slot `i` on: its head, and extension slots of 128 bytes (R172). -/
def keySlots (i : Nat) (k : KeySlot) (mat : Bytes) : List Eff :=
  let n := slotRun k.type.toNat - 1
  let cut := if n = 0 then mat.length else 64
  .slot i { k with material := mat.take cut, st := .loaded, extCount := n } ::
    (List.range n).map fun j =>
      .slot (i + 1 + j) { material := slice mat (64 + 128 * j) (min 128 (mat.length - 64 - 128 * j)), st := .extension }

/-- A new volatile key: refused while `LOAD_COUNT` is used up or no run of slots is free; else its record
writes and effects (R176, R185, R186). `FIXED_FIELD` takes `LOAD_COUNT` after the increment of this load, so that the
value in NVM has always been reached before a nonce uses it (log entry 49, DESIGN CHOICE). -/
def newKey (s : State) (owner parent : Nat) (k : KeyData) : Except Status (Nat × List RecWrite × List Eff) :=
  let dev := bitOf k.attr 8
  let lc := s.loadCount
  if dev && decide (0xFFFFFF ≤ lc) then .error .notPermitted
  else match s.freeRun (slotRun k.type) with
    | none => .error .slotLimit
    | some i =>
      let x : KeySlot :=
        { type := BitVec.ofNat 8 k.type, attr := BitVec.ofNat 32 k.attr, owner := BitVec.ofNat 32 owner,
          fixedField := if dev then BitVec.ofNat 32 (s.keys.deviceNumber.toNat * 2 ^ 24 + lc + 1) else 0,
          blockLimit := limitOf k.blockLimit, invLimit := k.invLimit, parent := BitVec.ofNat 32 parent }
      .ok (i, if dev then [s.planRec (.sys 0x05 0) 0x05 (leBytes 4 (lc + 1))] else [], keySlots i x k.mat)

/-- `PARENT` of a slot that was not loaded from a persistent key. -/
def noParent : Nat := 0xFFFFFFFF

/-- The refusal of a persistent target (R167, R199). -/
def persistRefuse (s : State) (d : Desc) : Option Status :=
  if s.keys.domainKey.isNone ∨ s.battery.drk.isNone ∨ s.keys.custody ≠ .ready then some .notPermitted
  else if (s.pkey (handleIndex (d.fld 16 4))).isSome then some .notPermitted else none

/-- The crown's new key is made: a persistent record, or slots (R175, R193). -/
def keyMade (s : State) (d : Desc) (k : KeyData) : State :=
  if d.persist then
    let i := handleIndex (d.fld 16 4)
    let k1 := { k with domain := s.keys.domainId.toNat }
    let b := s.pkeyBlobs (s.keys.domainKey.getD []) k1
    let p : PKey :=
      { index := i, type := k.type, blocksLeft := limitOf k.blockLimit,
        invsLeft := if k.invLimit = 0 then 0xFFFFFFFF else k.invLimit, drkBlob := b.1, domBlob := b.2 }
    s.crownDone [s.planRec (pkeyName i) 0x03 p.bytes] [] 0 (leBytes 4 (0x20000000 + i))
  else match newKey s (d.fld 32 4) noParent k with
    | .error e => s.crownFail (bad8 e)
    | .ok (i, recs, effs) => s.crownDone recs effs 0 (leBytes 4 (slotHandle i))

/-- Custody refuses a key descriptor at step 8: in `ERASED` all but `KEY_SCRUB` and `KEY_PURGE`, and those too while
no DRK could be drawn (R165, R169). `KEY_PUBLIC` of an identity key that no record gives goes on to the `SLOT_EMPTY` of
R201, which names the start after a PURGE (log entry 49, DEDUCED). -/
def keyRefuse (s : State) (d : Desc) : Bool :=
  s.keys.custody == .erased && (s.battery.drk.isNone || !(d.is .keyScrub || d.is .keyPurge)) &&
    !(d.is .keyPublic && handleClass (d.fld 16 4) == 5 && s.life.idKey.isNone)

/-! Generation (R199, R368, R375). -/

/-- The key that a generation or decapsulation makes from its material. -/
def descKey (d : Desc) (mat : Bytes) : KeyData :=
  { type := d.fld 24 1, attr := d.fld 28 4, invLimit := d.fld 36 4, blockLimit := d.fld 40 8, domain := 0, mat := mat }

/-- Private-key material of a type from random bytes: a scalar or seeds as they stand, the CRT form of two primes that
a search finds (R172, R368). -/
def keyCandidate (t : Nat) (b : Bytes) : Bytes :=
  if isRsa (typeScheme t) then
    let n := schemeSig (typeScheme t)
    rsaComplete n (beBytes n (Config.rsaPrimes n b).toNat)
  else b

/-- The material checks of R368. -/
def materialOk (t : Nat) (mat : Bytes) : Bool :=
  let c := typeScheme t
  if isEcdsa c then (ecCurve c).scalarOk mat
  else if isRsa c then rsaMaterialOk (schemeSig c) mat
  else true

/-- Material that `KEY_GENERATE` may release: it passes the checks, and RSA primes are probable primes (R368). -/
def madeOk (t : Nat) (mat : Bytes) : Bool :=
  let n := schemeSig (typeScheme t)
  materialOk t mat &&
    (!isRsa (typeScheme t) || (probablePrime (rsaPart n 0 mat) && probablePrime (rsaPart n 1 mat)))

/-- KEY_GENERATE at step 8. -/
def keyGenerate (s : State) (d : Desc) (got : Got) : State :=
  let t := d.fld 24 1
  let n := matLen t (d.fld 26 2)
  if !attrOk t (d.fld 28 4) (d.fld 36 4) then s.crownFail (bad8 .descMalformed)
  else match (if d.persist then persistRefuse s d else match newKey s 1 noParent (descKey d []) with
      | .error e => some e
      | .ok _ => none) with
    | some e => s.crownFail (bad8 e)
    | none =>
      match s.draw 0 n false with
      | .wait => s.crownDraw
      | .fail s1 => s1.crownFail (bad8 .entropyFail)
      | .ok b _ s1 =>
        let sch := typeScheme t
        if sch = 0 then keyMade s1 d (descKey d b)
        else
          (s1.crownKeep (got.1, got.2.1, keyCandidate t b)).askCrown (isLattice sch) sch

/-! Import and export (R189 to R192). -/

/-- The material of an imported private key passes the checks of R368. -/
def importMaterialOk (k : KeyData) : Bool := materialOk k.type k.mat

/-- KEY_IMPORT at step 8. -/
def keyImport (s : State) (d : Desc) (got : Got) (env : Env) : State :=
  match s.readAll env got.1 with
  | .error b => s.crownFail { b with step := 8 }
  | .ok blob =>
    if !blobOuterOk blob (d.fld 20 4) then s.crownFail (bad8 .descMalformed)
    else match (if d.persist then persistRefuse s d else none) with
      | some e => s.crownFail (bad8 e)
      | none =>
        match s.unwrap (d.fld 20 4) 0 blob with
        | (.error e, s1) => s1.crownFail (bad8 e)
        | (.ok k, s1) =>
          if !importMaterialOk k then s1.crownFail (bad8 .signetInput)
          else keyMade s1 d k

/-- A key that key custody uses with attribute bit `bit` and a type that suits: a slot under R177, a
persistent key, or the domain key. -/
def State.custodyKey (s : State) (h bit : Nat) (suits : Nat → Bool) : Except Status Wrapper :=
  if handleClass h = 4 then
    match s.keys.custody, s.keys.domainKey with
    | .ready, some k => .ok ⟨k, none, none⟩
    | _, _ => .error .notPermitted
  else if handleClass h = 2 then
    match s.pkey (handleIndex h) with
    | none => .error .slotEmpty
    | some p => match s.pkeyData p with
      | none => .error .notPermitted
      | some k =>
        if !bitOf k.attr bit || !suits k.type then .error .modeKeyClash
        else if p.invsLeft = 0 ∨ p.blocksLeft = 0 then .error .keySpent else .ok ⟨k.mat, none, some p⟩
  else
    let k := s.slot (handleIndex h)
    match slotCheck k 0 (hasAttr k bit && suits k.type.toNat) with
    | some e => .error e
    | none => .ok ⟨s.material (handleIndex h), some (handleIndex h), none⟩

/-- The key that `KEY_EXPORT` wraps (R192). The domain key as a source (R161) travels under a volatile or persistent
wrapper, as an AES-256 key without attributes or limits; under itself it does not (R192; log entry 49, DEDUCED). A
persistent key under another wrapper than the domain key is NOT_PERMITTED (log entry 63, DESIGN CHOICE). -/
def exportSource (s : State) (d : Desc) : Except Status KeyData :=
  let h := d.fld 16 4
  let dom := if handleClass (d.fld 20 4) = 1 then 0 else s.keys.domainId.toNat
  if handleClass h = 4 then
    match s.keys.custody, s.keys.domainKey with
    | .ready, some k => if handleClass (d.fld 20 4) = 4 then .error .notPermitted else .ok ⟨2, 0, 0, 0, dom, k⟩
    | _, _ => .error .notPermitted
  else if handleClass h = 2 then
    if handleClass (d.fld 20 4) ≠ 4 then .error .notPermitted
    else match s.pkey (handleIndex h) with
      | none => .error .slotEmpty
      | some p => match s.pkeyData p with
        | none => .error .notPermitted
        | some k => .ok { k with domain := dom }
  else
    let k := s.slot (handleIndex h)
    match slotReach k 0 with
    | some e => .error e
    | none =>
      if !hasAttr k 9 then .error .modeKeyClash
      else .ok ⟨k.type.toNat, k.attr.toNat, k.invLimit, k.blockLimit, dom, s.material (handleIndex h)⟩

/-- KEY_EXPORT at step 8 (R192, R198). -/
def keyExport (s : State) (d : Desc) (got : Got) : State :=
  let w := d.fld 20 4
  match exportSource s d, s.custodyKey w 4 fun t => t == 1 || t == 2 with
  | .error e, _ => s.crownFail (bad8 e)
  | _, .error e => s.crownFail (bad8 e)
  | .ok k, .ok x =>
    let b := wrapBlob x.key (handleClass w) (handleIndex w) k
    if extsLen got.2.1 < b.length then s.crownFail (bad8 .descMalformed)
    else match s.chargeWrapper x (blocksOf k.inner.length) with
      | none => s.crownFail (bad8 .keySpent)
      | some s1 => s1.crownDone [] [.hostWrite got.2.1 b] 0 (zeros 4 ++ leBytes 4 b.length)

/-! Destruction, release, limits (R175, R178, R196, R203, R204, R874). -/

/-- The crown's descriptor ends with a status whose result the manual lays out, nothing changed. -/
def State.crownAnswer (s : State) (st : Status) (result : Bytes) : State :=
  match s.crownDesc with
  | none => { s with crowns := { s.crowns with journal := none } }
  | some (j, d, _) => s.crownClose j (cplOf d st 0 result)

/-- KEY_DESTROY at step 8. -/
def keyDestroy (s : State) (d : Desc) : State :=
  let h := d.fld 16 4
  let i := handleIndex h
  if handleClass h = 2 then
    if (s.pkey i).isNone then s.crownFail (bad8 .slotEmpty)
    else s.crownDone [s.planRec (pkeyName i) 0x03 (⟨i, 0, 0, 0, [], []⟩ : PKey).bytes] [] 0 []
  else
    let k := s.slot i
    match slotReach k 0 with
    | some e => s.crownFail (bad8 e)
    | none =>
      if k.reservedBy ≠ 0 then s.crownAnswer .contextBusy (leBytes 2 k.reservedBy)
      else
        let s1 := s.eraseRun i
        s.crownDone [] ((List.range (1 + k.extCount)).map fun j => .slot (i + j) (s1.slot (i + j))) 0 []

/-- KEY_RELEASE at step 8 (R874). -/
def keyRelease (s : State) (d : Desc) : State :=
  let i := handleIndex (d.fld 16 4)
  let k := s.slot i
  match k.st with
  | .empty | .extension => s.crownFail (bad8 .slotEmpty)
  | .loaded | .spent => s.crownFail (bad8 .notPermitted)
  | .erased =>
    if k.type = 0 then s.crownFail (bad8 .notPermitted)
    else s.crownDone [] ((List.range (1 + k.extCount)).map fun j => .slot (i + j) {}) 0 []

/-- A slot with limits lowered (R175, R198): 0 stands for the largest. -/
def KeySlot.lower (k : KeySlot) (inv blk : Nat) : KeySlot :=
  let i := if (if inv = 0 then 2 ^ 32 else inv) < k.invCap then inv else k.invLimit
  let b := min (limitOf blk) k.blockLimit
  let x := { k with invLimit := i, blockLimit := b }
  let spent := (i ≠ k.invLimit ∧ x.invCap ≤ k.invCount) ∨ (b ≠ k.blockLimit ∧ b ≤ k.blockCount)
  { x with st := if k.st = .loaded ∧ spent then .spent else k.st }

/-- KEY_LIMIT at step 8. -/
def keyLimit (s : State) (d : Desc) : State :=
  let i := handleIndex (d.fld 16 4)
  match slotReach (s.slot i) 0 with
  | some e => s.crownFail (bad8 e)
  | none => s.crownDone [] [.slot i ((s.slot i).lower (d.fld 36 4) (d.fld 40 8))] 0 []

/-! Loading (R185, R194, R195). -/

/-- KEY_LOAD at step 8. -/
def keyLoad (s : State) (d : Desc) : State :=
  let i := handleIndex (d.fld 16 4)
  match s.pkey i with
  | none => s.crownFail (bad8 .slotEmpty)
  | some p => match s.pkeyData p with
    | none => s.crownFail (bad8 .notPermitted)
    | some k =>
      if p.invsLeft = 0 ∨ p.blocksLeft = 0 then s.crownFail (bad8 .keySpent)
      else
        let want := if d.fld 36 4 = 0 then 2 ^ 32 else d.fld 36 4
        let free := p.invsLeft = 0xFFFFFFFF
        let inv := if free then want else min want p.invsLeft
        let blk := min (limitOf (d.fld 40 8)) p.blocksLeft
        let p1 := { p with blocksLeft := p.blocksLeft - blk, invsLeft := if free then p.invsLeft else p.invsLeft - inv }
        match newKey s (d.fld 32 4) i { k with invLimit := inv % 2 ^ 32, blockLimit := blk } with
        | .error e => s.crownFail (bad8 e)
        | .ok (j, recs, effs) =>
          s.crownDone (s.planRec (pkeyName i) 0x03 p1.bytes :: recs) effs 0 (leBytes 4 (slotHandle j))

/-! Public keys and decapsulation (R200, R201, R355, R356). -/

/-- The type and private material that `KEY_PUBLIC` names. -/
def publicSource (s : State) (h : Nat) : Except Status (Nat × Bytes) :=
  if handleClass h = 5 then
    match s.life.idKey with
    | none => .error .slotEmpty
    | some k => .ok (0x11, k)
  else if handleClass h = 2 then
    match s.pkey (handleIndex h) with
    | none => .error .slotEmpty
    | some p => match s.pkeyData p with
      | none => .error .notPermitted
      | some k => if typePub k.type = 0 then .error .modeKeyClash else .ok (k.type, k.mat)
  else
    let k := s.slot (handleIndex h)
    match slotReach k 0 with
    | some e => .error e
    | none => if typePub k.type.toNat = 0 then .error .modeKeyClash
      else .ok (k.type.toNat, s.material (handleIndex h))

/-- KEY_PUBLIC at step 8. -/
def keyPublic (s : State) (d : Desc) (got : Got) : State :=
  match publicSource s (d.fld 16 4) with
  | .error e => s.crownFail (bad8 e)
  | .ok (t, m) =>
    let n := typePub t
    if extsLen got.2.1 < n then s.crownFail (bad8 .descMalformed)
    else s.crownDone [] [.hostWrite got.2.1 (publicOf t m)] 0 (zeros 4 ++ leBytes 4 n)

/-- KEY_DECAPSULATE at step 8: the secret is kept for the end of the lattice engine's operation. -/
def keyDecapsulate (s : State) (d : Desc) (got : Got) (env : Env) : State :=
  if !attrOk (d.fld 24 1) (d.fld 28 4) (d.fld 36 4) then s.crownFail (bad8 .descMalformed)
  else match s.custodyKey (d.fld 20 4) 6 fun t => t == 0x21 with
    | .error e => s.crownFail (bad8 e)
    | .ok w => match newKey s (d.fld 32 4) noParent (descKey d []) with
      | .error e => s.crownFail (bad8 e)
      | .ok _ => match s.readAll env got.1 with
        | .error b => s.crownFail { b with step := 8 }
        | .ok ct =>
          if !s.kindServes true then s.crownFail (bad8 .facetFenced)
          else match s.chargeWrapper w (blocksOf ct.length) with
            | none => s.crownFail (bad8 .keySpent)
            | some s1 =>
              (s1.crownKeep (got.1, got.2.1, kemDecaps w.key ct)).askCrown true 0x21

/-- The engine operation of a generation or decapsulation has ended: its key is made. Material that the checks reject
is drawn again (R368). -/
def keyEngineDone (s : State) (d : Desc) (got : Got) : State :=
  if d.is .keyGenerate && !madeOk (d.fld 24 1) got.2.2 then keyGenerate s d got
  else keyMade s d (descKey d got.2.2)

/-! Rungs by command (R202). -/

/-- KEY_SCRUB and KEY_PURGE at step 8: the rung, and the wait for its clearing. -/
def keyRung (s : State) (rung : Nat) : State :=
  let s0 := s.modJournal fun j => { j with state := .committed, wait := .clearing }
  let s1 := s0.events [(19, BitVec.ofNat 8 rung, 0, some rung)]
  if s1.tamper.clearing then s1 else s1.crownDone [] [] 0 []

/-- The records of the persistent keys that a descriptor names (R197). -/
def keyNames (d : Desc) : List RecName :=
  [d.fld 16 4, d.fld 20 4].filterMap fun h => if handleClass h = 2 then some (pkeyName (handleIndex h)) else none

/-- Step 8 of key custody; the records that it reads are decided (R698). -/
def keyStart (s0 : State) (d : Desc) (got : Got) (env : Env) : State :=
  let s := s0.noteTies (keyNames d)
  if keyRefuse s d then s.crownFail (bad8 .notPermitted)
  else if d.is .keyGenerate then keyGenerate s d got
  else if d.is .keyImport then keyImport s d got env
  else if d.is .keyExport then keyExport s d got
  else if d.is .keyDestroy then keyDestroy s d
  else if d.is .keyRelease then keyRelease s d
  else if d.is .keyLimit then keyLimit s d
  else if d.is .keyLoad then keyLoad s d
  else if d.is .keyPublic then keyPublic s d got
  else if d.is .keyDecapsulate then keyDecapsulate s d got env
  else keyRung s (if d.is .keyPurge then 5 else 4)

/-! Ceremonies (R205 to R216). -/

/-- `CHECK` of a share (R206). -/
def domainCheck (dk : Bytes) (domainId : Nat) : Bytes :=
  (hmac 0x02 dk (ascii "WOALE-DOMAIN-CHECK" ++ leBytes 4 domainId)).take 16

/-- Value of the `j`-th key byte's polynomial at share index `i` (R205). -/
def Ceremony.value (c : Ceremony) (i j : Nat) : Byte :=
  gf8Eval (byteAt c.key j :: c.coeffs.getD j []) (BitVec.ofNat 8 i)

/-- Share record `i` of a `CREATE` or `RESPLIT` (R206). -/
def Ceremony.share (c : Ceremony) (i : Nat) : Bytes :=
  leBytes 4 c.domainId.toNat ++ [BitVec.ofNat 8 i, BitVec.ofNat 8 c.m, BitVec.ofNat 8 c.n, 0] ++
    (List.range 32).map (c.value i) ++ domainCheck c.key c.domainId.toNat ++ zeros 8

/-- Share indices held or written, ascending. -/
def Ceremony.indices (c : Ceremony) : List Nat :=
  let l : List Nat := match c.purpose with
    | .restore => c.held.map fun (p : Nat × Bytes) => p.1
    | _ => c.written
  l.mergeSort fun a b => decide (a ≤ b)

/-- Result bytes 16 to 19 of a ceremony opcode (R209). -/
def Ceremony.result (c : Ceremony) : Bytes :=
  let l := c.indices
  leBytes 2 (l.map fun i => 2 ^ (i - 1)).sum ++ [BitVec.ofNat 8 l.length, 0]

/-- Sublists of `k` elements in ascending lexicographic order (R213). -/
def subsets : Nat → List (Nat × Bytes) → List (List (Nat × Bytes))
  | 0, _ => [[]]
  | _ + 1, [] => []
  | k + 1, x :: xs => (subsets k xs).map (x :: ·) ++ subsets (k + 1) xs

/-- The key that shares combine to. -/
def combine (l : List (Nat × Bytes)) : Bytes :=
  (List.range 32).map fun j => gf8Interp (l.map fun p => (BitVec.ofNat 8 p.1, byteAt p.2 (8 + j)))

/-- The first combination whose key reproduces `CHECK`, the `CHECK` field of every share combined (log entry 49, DESIGN
CHOICE). -/
def Ceremony.recover (c : Ceremony) : Option Bytes :=
  let l := c.held.mergeSort fun a b => decide (a.1 ≤ b.1)
  (subsets c.m l).findSome? fun (t : List (Nat × Bytes)) =>
    let k := combine t
    if t.all fun (p : Nat × Bytes) => slice p.2 40 16 == domainCheck k c.domainId.toNat then some k else none

/-- The polynomials that a draw of `32 × (M − 1)` bytes gives: the coefficients of each key byte. -/
def coeffsOf (m : Nat) (b : Bytes) : List Bytes := (List.range 32).map fun j => slice b (j * (m - 1)) (m - 1)

/-- Purpose and custody state agree (R209). -/
def cerAllowed (p : Nat) (c : Custody) : Bool :=
  if p = 1 then c == .noDomain || c == .erased else if p = 2 then c == .noDomain else c == .ready

/-- CER_BEGIN at step 8 (R209, R210, R216). CREATE and RESPLIT draw once: the key's 32 bytes for CREATE, then the
coefficients of each key byte in turn (R205; log entry 63, DESIGN CHOICE). -/
def cerBegin (s : State) (d : Desc) : State :=
  let p := d.fld 16 1
  let m := d.fld 17 1
  let open_ := fun (t : State) (c : Ceremony) => t.crownDone [] [.ceremony (some c)] 0 c.result
  let base : Ceremony :=
    { purpose := .restore, m := 0, n := 0, devNumber := BitVec.ofNat 8 (d.fld 19 1),
      domainId := BitVec.ofNat 32 (d.fld 20 4), held := [], written := [], key := [], coeffs := [] }
  if s.keys.ceremony.isSome || !cerAllowed p s.keys.custody then s.crownFail (bad8 .notPermitted)
  else if p = 1 then open_ s base
  else
    let k := if p = 2 then 32 else 0
    match s.draw 0 (k + 32 * (m - 1)) false with
    | .wait => s.crownDraw
    | .fail s1 => s1.crownFail (bad8 .entropyFail)
    | .ok b _ s1 =>
      let c := { base with m := m, n := d.fld 18 1, coeffs := coeffsOf m (b.drop k) }
      if p = 2 then open_ s1 { c with purpose := .create, key := b.take 32 }
      else open_ s1 { c with purpose := .resplit, key := s.keys.domainKey.getD [], domainId := s.keys.domainId, devNumber := s.keys.deviceNumber }

/-- Persistent keys rewrapped under the present DRK (R214 step 3): record writes, keys rewrapped, records given
up. -/
def State.rewrap (s : State) (dk : Bytes) (domainId : Nat) : List RecWrite × Nat × Nat :=
  let drk := s.battery.drk.getD []
  (List.range 64).foldl (fun (acc : List RecWrite × Nat × Nat) i => match s.pkey i with
    | none => acc
    | some p =>
      if (unwrapBlob drk domainId p.drkBlob).isSome then acc
      else match unwrapBlob dk domainId p.domBlob with
        | some k => (acc.1 ++ [s.planRec (pkeyName i) 0x03 { p with drkBlob := wrapBlob drk 0 0 k }.bytes],
            acc.2.1 + 1, acc.2.2)
        | none => (acc.1 ++ [s.planRec (pkeyName i) 0x03 (⟨i, 0, 0, 0, [], []⟩ : PKey).bytes], acc.2.1, acc.2.2 + 1))
    ([], 0, 0)

/-- CER_FINISH at step 8 (R213, R214, R216). -/
def cerFinish (s : State) (c : Ceremony) : State :=
  let domain := fun (k : Bytes) (re : Bool) (later : Nat) =>
    s.planRec domainName 0x02 (s.domainBytes c.devNumber c.domainId k re) later
  match c.purpose with
  | .restore =>
    match (if c.held.length < c.m ∨ c.held = [] then none else c.recover) with
    | none => s.crownFail (bad8 .quorumShort)
    | some k =>
      let r := s.rewrap k c.domainId.toNat
      s.crownDone ([domain k true 0] ++ r.1 ++ [domain k false 1])
        [.custody .ready (some k) c.devNumber c.domainId, .ceremony none] 0
        (c.result ++ leBytes 2 r.2.1 ++ leBytes 2 r.2.2)
  | .create =>
    if c.indices.length < c.n then s.crownFail (bad8 .quorumShort)
    else s.crownDone [domain c.key true 0, domain c.key false 1]
      [.custody .ready (some c.key) c.devNumber c.domainId, .ceremony none] 0 c.result
  | .resplit =>
    if c.indices.length < c.n then s.crownFail (bad8 .quorumShort)
    else s.crownDone [] [.ceremony none] 0 c.result

/-- A ceremony descriptor is refused at step 8 (R165, R169, R210): outside PRODUCTION, or when no DRK is held. -/
def cerRefuse (s : State) (d : Desc) : Bool :=
  s.lcs != .production || s.battery.drk.isNone || (!d.is .cerBegin && s.keys.ceremony.isNone)

/-- Step 8 of the ceremony opcodes but `CER_SHARE`. -/
def cerStart (s : State) (d : Desc) : State :=
  if cerRefuse s d then s.crownFail (bad8 .notPermitted)
  else match s.keys.ceremony with
    | none => cerBegin s d
    | some c =>
      if d.is .cerBegin then cerBegin s d
      else if d.is .cerFinish then cerFinish s c
      else s.crownDone [] [.ceremony none] 0 c.result

/-- CEREMONY_TIMEOUT (R211): 30 minutes without a ceremony descriptor. -/
def execCeremonyTimeout (s : State) : Host.Outcome State Fault Refusal :=
  .next <|
    let busy := match s.crowns.journal with
      | some j => decide (0x810 ≤ j.opcode.toNat) && decide (j.opcode.toNat ≤ 0x813)
      | none => false
    if busy then s else { s with keys := { s.keys with ceremony := none } }

end Sys2Proof.Machine
end

