-- ==== Sys2Proof/Machine/HallmarkOps.lean ====
section
/-!
DEFINITION. Hallmark crown work, persistent registers, and the hallmark unit (R321 to R340).
-/

namespace Sys2Proof.Machine

/-- The payload of a persistent register's record (R333). -/
def Hallmark.bytes (h : Hallmark) (i : Nat) : Bytes :=
  fit 48 h.h ++ leBytes 8 h.extCount.toNat ++ leBytes 4 h.owner.toNat ++
    [BitVec.ofNat 8 (ofBits [h.readAll, h.resetOk]), BitVec.ofNat 8 i, 0, 0]

/-- The register in a payload. -/
def hallmarkOf (b : Bytes) : Hallmark :=
  { h := slice b 0 48, extCount := BitVec.ofNat 64 (leField b 48 8), owner := BitVec.ofNat 32 (leField b 56 4),
    readAll := bitOf (leField b 60 1) 0, resetOk := bitOf (leField b 60 1) 1 }

/-- Register `i` as its record gives it at stage S2 (R337); an `UNRESOLVED` device leaves the record unused (R665). -/
def State.loadHallmark (s : State) (i : Nat) : State :=
  let t := s.readRec (.sys 0x0B (i - 56))
  if s.lcs = .unresolved then t.2.setHallmark i (hallmarkReset i)
  else match t.1.st with
  | .never => t.2.setHallmark i (hallmarkReset i)
  | .torn => t.2.setHallmark i { h := List.replicate 48 0xFF, resetOk := false, torn := true }
  | .held => t.2.setHallmark i (hallmarkOf t.1.payload)

/-- Steps 6 and 7 of hallmark crown work. -/
def hmRead (s : State) (env : Env) (d : Desc) : Except Bad Got := digRead s env d

/-- The permission of hallmark crown work (R327, R329). -/
def hmPermit (s : State) (r : Nat) (d : Desc) : Bool :=
  let h := d.hm
  let x := s.hallmark h
  let owner := x.owner.getLsbD (fnOf r)
  if d.is .hmRead then r == 0 || owner || x.readAll
  else if d.is .hmReset then r == 0 || (decide (h < 56) && owner && x.resetOk)
  else if d.is .hmLock then r == 0 || (decide (h < 56) && owner)
  else r == 0

/-- The lock check of hallmark crown work, and the owner check of `HM_SETUP` (R329, R330). -/
def hmBars (s : State) (d : Desc) : Option Status :=
  let x := s.hallmark d.hm
  if d.is .hmReset then if x.locked then some .hallmarkLocked else none
  else if d.is .hmSetup then
    if x.locked || x.torn then some .hallmarkLocked
    else if !bitOf (d.fld 28 4) 0 then some .descMalformed else none
  else none

/-- The register after hallmark crown work (R330). -/
def hmAfter (d : Desc) (x : Hallmark) (v : Bytes) : Hallmark :=
  if d.is .hmReset then { x with h := zeros 48, extCount := 0, torn := false }
  else if d.is .hmLock then { x with locked := true }
  else if d.is .hmSetup then
    { x with owner := BitVec.ofNat 32 (d.fld 28 4), readAll := d.dctl 2, resetOk := d.dctl 3 }
  else x.extend v

/-- Hallmark crown work is carried out: for registers 56 to 63 the record is written first, but for
`HM_LOCK`, which stores nothing (R333, R334). -/
def hmApply (s : State) (d : Desc) (v : Bytes) : State :=
  let h := d.hm
  match hmBars s d with
  | some e => s.crownFail (bad8 e)
  | none =>
    let x := hmAfter d (s.hallmark h) v
    let recs := if 56 ≤ h ∧ !d.is .hmLock then [s.planRec (.sys 0x0B (h - 56)) 0x0B (x.bytes h)] else []
    let res := [BitVec.ofNat 8 h] ++ (if d.is .hmExtend then zeros 7 ++ leBytes 8 x.extCount.toNat else [])
    s.crownDone recs [.hallmark h x] 0 res

/-- The pending marks that the crown's hallmark work waits for are cleared (R328). -/
def State.hallmarkGo (s : State) : State :=
  match s.crownDesc with
  | none => s
  | some (j, d, got) =>
    if j.wait = .hold ∧ j.opcode.toNat / 256 = 3 then
      let left := j.hold.filter fun m => s.marks.elem m
      let s1 := s.modJournal fun x => { x with hold := left }
      if left = [] then hmApply s1 d got.2.2 else s1
    else s

/-- Step 8 of hallmark crown work. -/
def hmStart (s : State) (r : Nat) (d : Desc) (got : Got) : State :=
  let h := d.hm
  let x := s.hallmark h
  if d.is .hmExtend then
    match s.extendCheck h (fnOf r) (r == 0) with
    | some e => s.crownFail (bad8 e)
    | none => hmApply s d got.2.2
  else if !hmPermit s r d then s.crownFail (bad8 .notPermitted)
  else if d.is .hmRead then
    let v := if x.torn then List.replicate 48 0xFF else fit 48 x.h
    s.crownDone [] [.hostWrite got.2.1 v] 0
      ([BitVec.ofNat 8 h, BitVec.ofNat 8 (ofBits [x.locked, x.torn, x.readAll, x.resetOk]), 0, 0] ++
        leBytes 4 x.owner.toNat ++ leBytes 8 x.extCount.toNat)
  else match hmBars s d with
    | some e => s.crownFail (bad8 e)
    | none =>
      ((s.modJournal fun j => { j with wait := .hold, hold := s.marks.filter fun m => m.hm == h })).hallmarkGo

/-! The hallmark unit (R322 to R325). -/

/-- What the end of an extend completes; `n` is `EXT_COUNT` after it and `k` the number of its mark, which is
cleared. -/
def State.extendEnded (s : State) (h n k : Nat) : ExtSrc → State
  | .msg f id =>
    match s.msg f id with
    | none => s
    | some m =>
      match m.kind, s.descOf m.ring m.seq with
      | .digest i, some d => (digDone s f m i d (some (h, n))).sched f
      | _, _ => s
  | .desc r q => s.doneWork r q 0 ([BitVec.ofNat 8 h] ++ zeros 7 ++ leBytes 8 n)
  | .engine e =>
    let x := s.eng e
    match x.inv with
    | some _ =>
      -- R585: the count after the last extend in move order
      let s2 := if (x.extends_.getLast?.map (·.n)) = some k then s.setEng e { x with extCount := n } else s
      if s2.extends_.all fun y => y.src != .engine e then s2.acceptDone e else s2
    | none => s
  | .capture f id own =>
    match s.msg f id with
    | none => s
    | some m =>
      match m.kind with
      | .capture c => (capExtended s f m c own n).sched f
      | _ => s

/-- Waiting hallmark work needs the mark `n` cleared (R328). -/
def State.heldMark (s : State) (n : Nat) : Bool :=
  match s.crowns.journal with
  | none => false
  | some j => j.wait == .hold && j.hold.any fun m => m.n == n

/-- An extend checked after a waiting `HM_LOCK`, `HM_RESET` or `HM_SETUP` of its register had arrived: it sees the
effect of that, so it is applied after it (R328). -/
def State.extendWaits (s : State) (x : ExtendReq) : Bool :=
  match s.crowns.journal with
  | none => false
  | some j => j.wait == .hold && j.hold.any (fun m => m.hm == x.hm) && !s.heldMark x.n

/-- The extend applied next: the first that neither waits nor stands behind one of its source that waits, for extends of
one source keep their order (R324). One whose mark the waiting work needs passes, since that work is what the other
waits for (R328; log entry 57, DEDUCED). -/
def State.nextExtend (s : State) : List ExtendReq → List ExtendReq → Option ExtendReq
  | _, [] => none
  | before, x :: xs =>
    if !s.extendWaits x && (s.heldMark x.n || before.all fun y => y.rank != x.rank || !s.extendWaits y) then some x
    else s.nextExtend (before ++ [x]) xs

/-- HALLMARK_EXTEND_APPLIED (R323): the next extend of the unit's queue is applied and its mark cleared. -/
def State.applyExtend (s : State) : State :=
  match s.nextExtend [] s.extends_ with
  | none => s
  | some x =>
    let v := (s.hallmark x.hm).extend x.value
    let s1 : State := { s.unmark x.n with extends_ := s.extends_.erase x }
    (s1.setHallmark x.hm v).extendEnded x.hm v.extCount.toNat x.n x.src

end Sys2Proof.Machine
end

