-- ==== Sys2Proof/Machine/Takeover.lean ====
section
/-!
DEFINITION. The twin crowns (chapter 12): clasps, heartbeats, self-tests, takeover, swap and rejoin.
-/

namespace Sys2Proof.Machine

/-- CLASP_OUTPUT (R597): with `tie`, outputs of both crowns in one cycle, of which B's is discarded when the
claims are equal and at least `CLAIM_HI`. -/
def execClaspOutput (crownB : Bool) (clasp : Fin 4) (tie : Bool) (s : State) : Host.Outcome State Fault Refusal :=
  .next <|
    if s.start.stage < 2 then s
    else
      let a := s.crowns.a.claim
      if tie && a == s.crowns.b.claim && decide ((s.clasp clasp).claimHi ≤ a) then
        (s.setClasp clasp ((s.clasp clasp).take false a)).refuseOutput true clasp
      else s.claspOutput crownB clasp

/-! Heartbeats and causes (R603 to R605). -/

/-- `MISS`, taken as the nearest limit (R624). -/
def State.missLimit (s : State) : Nat := max 2 s.crowns.miss.toNat

/-- The crown-loss alarm (R605): HALT. -/
def State.crownLost (s : State) : State := s.raise 18 (if s.crowns.activeB then 1 else 0)

/-- CROWN_LOSS (R605): the watchdog expires. -/
def execCrownLoss (s : State) : Host.Outcome State Fault Refusal :=
  .next <| if s.start.stage < 2 then s else s.crownLost

/-- The standby looks at the active crown's heartbeat, once in every period (R603, R604). -/
def State.watchBeat (s : State) : State :=
  let o := s.otherCrown
  if o.st ≠ .standby then s
  else
    let w := s.activeCrown.heartbeat
    let m := if w = o.lastSeen then o.missed + 1 else 0
    let s1 := s.setOther { o with lastSeen := w, missed := m }
    if s.missLimit ≤ m then s1.addCause 1 else s1

/-- CROWN_FAULT_SIGNAL (R604, R605): cause 3 for an integrity fault, else cause 2; HALT where no takeover is
possible. -/
def execCrownFaultSignal (integrity : Bool) (s : State) : Host.Outcome State Fault Refusal :=
  .next <|
    if s.start.stage < 2 then s
    else if s.takeOk then s.addCause (if integrity then 3 else 2) else s.crownLost

/-! Takeover (R606 to R615). -/

/-- Every seize output accepted (R606 step 2): the first `n` clasps. -/
def State.seize (s : State) (n : Nat) (b : Bool) (c : BitVec 16) : State :=
  (List.range n).foldl (fun a k => a.setClasp k ((a.clasp k).take b c)) s

/-- What an unfinished descriptor of the old crown held is given up: its card, the slot it waited for, and what it waited
for of the vault engine, whose own work goes on. Its requests at the signet block stay and are answered to the new crown,
which discards the answers (R610, R615). -/
def State.dropEntry (s : State) (j : Journal) : State :=
  let card := match s.cards.job with
    | some c => c.ring == j.ring && c.seq == j.seq
    | none => false
  let sd := s.cards.sd
  let sd1 := { sd with st := if sd.st = .transferring then .ready else if sd.st = .identifying then .present else sd.st }
  let cards := if card then { s.cards with
      job := none, importing := false, writingB := false, cc := s.cards.cc.deactivate, sd := sd1 }
    else s.cards
  let slots := s.applets.slots.map fun (e : Nat × AppSlot) =>
    if (e.2.waiting.map fun c => c.ring == j.ring && c.seq == j.seq).getD false then
      (e.1, { e.2 with waiting := none, st := if e.2.st = .replacing then .installed else e.2.st })
    else e
  { s with
    cards := cards, applets := { s.applets with slots := slots },
    vault := { (if j.state = .intent ∧ j.opcode = Op.vaultImport.code then s.vault.unload else s.vault) with job := none }, nvm := { s.nvm with scanning := false } }

/-- A page in progress of a record write that is to be made again counts no longer. -/
def State.orphanPage (s : State) : State :=
  { s with nvm := { s.nvm with writing := s.nvm.writing.map fun w => match w.kind with
      | .record _ _ => { w with kind := .other }
      | .rollback _ => { w with kind := .other }
      | _ => w } }

/-- The entry's bundle write has a block in progress, which finishes its steps first (R749). -/
def State.blockOpen (s : State) (j : Journal) : Bool :=
  s.cards.job.any fun c => c.ring == j.ring && c.seq == j.seq && (match c.phase with
    | .wrCmd _ | .wrToken _ | .wrBusy _ | .wrStatus _ => true
    | _ => false)

/-- The journal resolved by the new active crown (R613, R614). -/
def State.resolve (s : State) : State :=
  match s.crowns.journal with
  | none => s
  | some j =>
    let s := s.noteEntry j.number j.state
    match s.crownDesc.map (·.2.1) with
    | none => { s.dropEntry j with crowns := { s.crowns with journal := none } }
    | some d =>
      let swap := j.opcode == Op.crownSwap.code
      match j.state with
      | .intent =>
        if s.blockOpen j then s.modJournal fun x => { x with outcome := some 0 }
        else (s.dropEntry j).crownClose { j with outcome := some 0 } (s.standbyCpl d 0)
      | _ =>
        let c := if swap then cplOf d .done 0 (s.swapResult 1) else s.standbyCpl d 1
        let s1 := ((s.dropRecPages.orphanPage).bump 24 3 1).modJournal fun x =>
          { x with
            outcome := some 1
            shown := if x.outcome.isSome then x.shown else (x.cpl.map (·.result)).getD []
            cpl := if x.cpl.isSome || swap || x.wait == .clearing then some c else none }
        if j.wait = .vault then s1 else s1.crownRecs

/-- An applet invocation restarts from move 0, its input read again (R588). -/
def State.restartEngine (s : State) (env : Env) (e : Nat) : State :=
  let x := s.eng e
  match x.inv, x.rets with
  | some v, none =>
    let y : Engine :=
      { inv := some v, done := x.done, faults := x.faults, budgets := x.budgets,
        restarts := min (x.restarts + 1) (2 ^ 32 - 1) }
    match v.kind with
    | .hook _ _ => (s.unmarkAll x.extends_).setEng e y
    | .invoke r q =>
      let s1 := s.unmarkAll x.extends_
      match (s1.ring r).find q with
      | none => s1.setEng e y
      | some w =>
        match s1.readAll env (w.got.getD ([], [], [])).1 with
        | .error b => ((s1.setEng e x.stop).countInvocation v).finishBad r q w.desc { b with step := 8 }
        | .ok data => s1.setEng e { y with scratch := Mem.writeN [] 0 data }
  | _, _ => s

/-- The takeover by the standby, for a cause of R604; its duration is left open. -/
def State.takeOver (s : State) (cause : Nat) (env : Env) : State :=
  let b := !s.crowns.activeB
  let claim := BitVec.ofNat 16 (s.claimHi + 1)
  let t := s.freshBytes 4
  let s1 := t.2.seize 4 b claim
  let k := s1.crowns
  let old := s1.activeCrown
  let old1 : Crown := { old with st := .out, heldInReset := true, missed := 0 }
  let new : Crown := { s1.otherCrown with st := .active, claim := claim, missed := 0, loopFails := 0 }
  let s2 := (s1.setCrown b new).setCrown (!b) old1
  let s3 : State := { s2 with crowns := { s2.crowns with
    activeB := b, due := [], takeValid := true, takeClaim := claim, takeCause := BitVec.ofNat 4 cause,
    takeCrownB := b, takeovers := k.takeovers + 1, takeTime := BitVec.ofNat 32 (leNat t.1),
    rejoinDue := k.rejoinAuto, standbySeen := old.report, standbyStale := 0 } }
  let s4 := (s3.bump 24 2 1).resolve
  (List.range 4).foldl (fun a e => a.restartEngine env e) s4

/-- What makes a clasp refuse a seize output (R608), or none: the other crown has meanwhile claimed higher, or claims the
same and is crown A. -/
def higherClaim (taker : Bool) (claim : Nat) : Option (BitVec 16) :=
  if claim < 65535 then some (BitVec.ofNat 16 (claim + 1))
  else if taker then some (BitVec.ofNat 16 claim) else none

/-- SEIZE_TIMEOUT (R608): the takeover of a cause that the standby has found ends at clasp `clasp`, which has not accepted
its seize output, for the other crown has meanwhile claimed higher there; the next claim is its claim from then on (log
entry 59, DESIGN CHOICE). -/
def execSeizeTimeout (clasp : Fin 4) (s : State) : Host.Outcome State Fault Refusal :=
  .next <|
    if s.start.stage < 2 ∨ s.crowns.due = [] ∨ !s.takeOk then s
    else
      let b := !s.crowns.activeB
      let claim := s.claimHi + 1
      match higherClaim b claim with
      | none => s
      | some c =>
        let s1 := s.setCrown b { s.crown b with claim := BitVec.ofNat 16 claim }
        let s2 := s1.seize clasp b (BitVec.ofNat 16 claim)
        let s3 := (s2.setCrown (!b) { s2.crown (!b) with claim := c }).claspOutput (!b) clasp
        let s4 := s3.claspOutput b clasp
        let s5 := s4.setCrown b { s4.crown b with st := .unfit }
        { s5 with crowns := { s5.crowns with due := [] } }

/-! Self-tests and reports (R618 to R622). -/

/-- The patch image of the NVM system area: nothing when none was ever written, none when its check fails. -/
def Nvm.patchImage (n : Nvm) : Option Bytes :=
  let r := n.record (.sys 0x07 0)
  match r.st with
  | .never => some []
  | .torn => none
  | .held =>
    let img := r.payload.take (r.payload.length - 48)
    if sha384 img = r.payload.drop (r.payload.length - 48) then some img else none

/-- An image in the patch area of a crown, with the version it shows (R591, R682). -/
def Crown.load (c : Crown) (img : Bytes) : Crown := { c with area := img, patch := BitVec.ofNat 32 (leField img 0 4) }

/-- A failed loop recorded: `t` is the test, counted from 0, and the tests before it have passed (R620, R624). -/
def Crown.failed (c : Crown) (t p : Nat) : Crown :=
  { c with
    fails := if c.fails = BitVec.allOnes 32 then c.fails else c.fails + 1
    lastFail := (t + 1) * 256 + p, testNow := 2 ^ t - 1 }

/-- The first test of a loop that fails, and its step: test 2 compares the patch area with its value in NVM (R619), the
others are given. The manual numbers no steps of test 2: it has one, step 0 (log entry 59, DESIGN CHOICE). -/
def firstFail (patchGood : Bool) (given : Option (Fin 7 × Byte)) : Option (Nat × Nat) :=
  match given with
  | some (t, p) => if t.val = 0 || patchGood then some (t.val, p.toNat) else some (1, 0)
  | none => if patchGood then none else some (1, 0)

/-- Test 2 of a crown passes (R619): its patch area is the image of the NVM system area, whose SHA-384 holds. -/
def State.patchGood (s : State) (b : Bool) : Bool := s.nvm.patchImage == some (s.crown b).area

/-- The crown is reset, loads the patch image and starts its start self-test, whose test 2 fails when the image's check
does (R592, R616, R618). -/
def State.rejoin (s0 : State) (b : Bool) : State :=
  let s := s0.noteTie (.sys 0x07 0)
  let c := (s.crown b).load (s.nvm.patchImage.getD [])
  let s1 := s.setCrown b { c with st := .starting, heldInReset := false, loopFails := 0, missed := 0, ram := [] }
  { s1 with crowns := { s1.crowns with rejoins := min (s1.crowns.rejoins + 1) 65535, rejoinDue := false } }

/-- REJOIN_AUTO (R618, R622). -/
def execRejoinAuto (s : State) : Host.Outcome State Fault Refusal :=
  .next <|
    let o := s.otherCrown
    if s.start.stage < 2 ∨ !s.crowns.rejoinDue ∨ !(o.st = .out ∨ o.st = .unfit) then s
    else s.rejoin (!s.crowns.activeB)

/-- SELF_TEST_LOOP_DONE (R619, R620): `fail` is the first test that fails apart from test 2, counted from 0, and its step.
The active crown runs test 6 alone, whose failure is a cause 3. -/
def execSelfTestLoopDone (crownB : Bool) (fail : Option (Fin 7 × Byte)) (s : State) :
    Host.Outcome State Fault Refusal :=
  .next <|
    let c := s.crown crownB
    if s.start.stage < 2 then s
    else if c.st = .active then
      match fail with
      | some (t, p) =>
        if t.val = 5 then
          let s1 := s.setCrown crownB { c.failed 5 p.toNat with testNow := c.testNow }
          if s1.takeOk then s1.addCause 3 else s1.crownLost
        else s
      | none => s
    else if !(c.st = .standby ∨ c.st = .unfit ∨ c.st = .starting) then s
    else match firstFail (s.patchGood crownB) fail with
      | none => s.setCrown crownB { c with st := .standby, loops := c.loops + 1, loopFails := 0, testNow := 127 }
      | some (t, p) =>
        let n := c.loopFails + 1
        let c1 : Crown := { c.failed t p with st := if 3 ≤ n then .out else .unfit, loops := c.loops + 1, loopFails := n }
        (s.setCrown crownB c1).raise 17 (if crownB then 1 else 0)

/-- STANDBY_REPORT_CHECK (R622): the fourth stale reading takes the standby out. -/
def execStandbyReportCheck (s : State) : Host.Outcome State Fault Refusal :=
  .next <|
    let o := s.otherCrown
    if s.start.stage < 2 ∨ o.st = .out then s
    else if o.report ≠ s.crowns.standbySeen then
      { s with crowns := { s.crowns with standbySeen := o.report, standbyStale := 0 } }
    else if s.crowns.standbyStale + 1 < 4 then
      { s with crowns := { s.crowns with standbyStale := s.crowns.standbyStale + 1 } }
    else
      let s1 := s.setOther { o with st := .out, heldInReset := true }
      ({ s1 with crowns := { s1.crowns with standbyStale := 0, due := [], rejoinDue := s1.crowns.rejoinAuto } } : State).raise 17
        (if s.crowns.activeB then 0 else 1)

/-! Crown descriptors (R616, R617). -/



/-- Step 8 of `CROWN_SWAP` and `CROWN_REJOIN`. -/
def crownStart (s : State) (d : Desc) (env : Env) : State :=
  let o := s.otherCrown
  if d.is .crownSwap then
    if s.takeOk then (s.modJournal fun j => { j with state := .committed }).takeOver 4 env
    else s.crownFail (bad8 .notPermitted)
  else if o.st = .out ∨ o.st = .unfit then
    let s1 := s.rejoin (!s.crowns.activeB)
    s1.crownAnswer .done (s1.swapResult 1)
  else s.crownFail (bad8 .notPermitted)

/-- The stimulus of a monitor fires (R654): one stimulus event, its response suppressed. -/
def State.fireStim (s : State) (m : Nat) : State :=
  { s with tamper := { s.tamper with
      stimBusy := some m, stimMon := m, stimPass := false, stimBat := false, stimNone := false } }

end Sys2Proof.Machine
end

