-- ==== Sys2Proof/Machine/NvmOps.lean ====
section
/-!
DEFINITION. NVM descriptors, page writes and their ends, recall, refreshing of weak pages, power loss at the
keeper (R689 to R716).
-/

namespace Sys2Proof.Machine

/-! Weak pages (R694, R695). -/

/-- The page that a physical page holds: itself, or the page that the spare replaces; none for a spare not in
use. -/
def Nvm.logical (n : Nvm) (p : Nat) : Option Nat :=
  if p % 4096 < 3840 then some p
  else (tget none n.remap (remapEntry p (p % 4096 - 3840))).map fun x => p / 4096 * 4096 + x

/-- The system records with their numbers of indices (R704). -/
def sysRecords : List (Nat × Nat) :=
  [(1, 1), (2, 1), (3, 64), (4, 1), (5, 1), (6, 2), (7, 1), (8, 1), (9, 1), (10, 1), (11, 8), (12, 1), (16, 1), (17, 1)]

/-- The record copy that a page belongs to, and which of its pages it is. -/
def recOfPage (p : Nat) : Option (RecName × Nat × Nat) :=
  if 16384 ≤ p then
    let q := (p - 16384) / 4096
    let i := p % 4096
    let partner := if q % 2 = 0 then q + 1 else q - 1
    if i < 1920 then some (.user (1920 * q + i), 0, 0)
    else if i < 3840 then some (.user (1920 * partner + (i - 1920)), 1, 0) else none
  else
    sysRecords.findSome? fun (e : Nat × Nat) => (List.range e.2).findSome? fun i => (List.range 2).findSome? fun c =>
      let f := recFirst (.sys e.1 i) c
      if f ≤ p ∧ p < f + recPages (.sys e.1 i) then some (.sys e.1 i, c, p - f) else none

/-- The bytes of the newest valid copy of a record, laid out with its `SEQ` and `CLAIM` kept (R695). -/
def Nvm.newestBytes (n : Nvm) (name : RecName) : Option Bytes :=
  let r := n.record name
  match r.st with
  | .held => some (recBytes name (BitVec.ofNat 8 r.type) r.payload r.seq r.claim)
  | _ => none

/-- The page set that a bitmap page belongs to (R686). -/
def bitmapSetOf (p : Nat) : Option Nat :=
  if p < 16384 ∧ p % 4096 < 2048 then some (p / 4096 * 4 + p % 4096 / 512) else none

/-- What a weak page is rewritten with (R695). -/
def State.refreshed (s : State) (p : Nat) : Bytes :=
  match bitmapSetOf p with
  | some k => if s.nvm.liveSets.elem k then List.replicate 256 0xFF else zeros 256
  | none => match recOfPage p with
    | some (name, _, k) => match s.nvm.newestBytes name with
      | some b => slice b (256 * k) 256
      | none => s.nvm.page p
    | none => zeros 256

/-- Weak pages by user quarter. -/
def Nvm.countWeak (n : Nvm) : List Nat :=
  (List.range 4).map fun q => (n.weak.filter fun p => p / 4096 == 4 + q).length

/-! Descriptors (R708 to R714). -/

/-- The body checks of step 5. -/
def nvmCheck5 (d : Desc) : Bool :=
  let rd := d.is .nvmRead
  let wr := d.is .nvmWrite
  let n := d.declLen.toNat
  (if rd || wr then decide (d.fld 16 2 < 7680) else d.fld 16 2 == 0) &&
  (if wr then d.fld 18 1 != 0 else d.fld 18 1 == 0) && allZero (d.bytes 19 13) && decide (n ≤ 240) &&
  (if wr then (d.ref 32).okFor n else (d.ref 32).isZero) &&
  (if rd then (d.ref 48).ok && ((d.ref 48).sgl || decide (240 ≤ (d.ref 48).len)) else (d.ref 48).isZero)

/-- Steps 6 and 7. -/
def nvmRead (s : State) (env : Env) (d : Desc) : Except Bad Got :=
  match crownRead s env d (some 32) (some 48) with
  | .error e => .error e
  | .ok got => if d.is .nvmRead && decide (extsLen got.2.1 < 240) then .error bad6 else .ok got

/-- The record's home quarter is protected (R708). -/
def Nvm.protects (n : Nvm) (u : Nat) : Bool :=
  let q := u / 1920
  n.bp == 3 || (n.bp == 2 && decide (2 ≤ q)) || (n.bp == 1 && q == 3)

/-- `RSTATE` (R712). -/
def rstate (n : Nvm) (name : RecName) (r : RecRead) : Nat :=
  let weak := (List.range 2).any fun c => n.weak.elem (n.phys (recFirst name c))
  r.source + (if r.tie then 4 else 0) + (if weak then 8 else 0)

/-- The first five fields of a result of `NVM_READ`, and of `NVM_WRITE` with zeros where it has none. -/
def nvmResult (u type rst len seq claim : Nat) : Bytes :=
  leBytes 2 u ++ [BitVec.ofNat 8 type, BitVec.ofNat 8 rst] ++ leBytes 2 len ++ zeros 2 ++ leBytes 4 seq ++ leBytes 2 claim

/-- The end of `NVM_SCAN` once no refresh waits or runs (R714). -/
def State.scanGo (s : State) : State :=
  let left := (s.nvm.writing.toList ++ s.nvm.queue ++ s.nvm.moving.map (·.1)).any fun w =>
    w.kind == .refresh false || w.kind == .moved false
  if !s.nvm.scanning || left then s
  else
    let n := s.nvm
    ({ s with nvm := { n with scanning := false } } : State).crownDone [] [] 0
      (leBytes 4 n.scanFound ++ leBytes 4 n.scanDone ++ leBytes 4 n.scanMoved)

/-- Pages of the user array that a margin scan finds, added to the weak ones (R694, R714). -/
def Nvm.scanned (n : Nvm) (l : List Nat) : Nvm :=
  { n with weak := n.weak ++ (l.filter fun p => 16384 ≤ p ∧ p < 32768 ∧ p ∉ n.weak).dedup }

/-- Step 8 of the NVM family. -/
def nvmStart (s : State) (d : Desc) (got : Got) (env : Env) : State :=
  let u := d.fld 16 2
  let name := RecName.user u
  if d.is .nvmRead then
    let t := s.readRec name
    let r := t.1
    match r.st with
    | .torn => t.2.crownFail (bad8 .nvmTorn)
    | .never => t.2.crownDone [] [] 0 (nvmResult u 0 (rstate s.nvm name r) 0 0 0)
    | .held => t.2.crownDone [] [.hostWrite got.2.1 r.payload] 0
        (nvmResult u r.type (rstate s.nvm name r) r.payload.length r.seq r.claim)
  else if d.is .nvmWrite then
    if s.nvm.protects u then s.crownFail (bad8 .nvmProtected)
    else match s.readAll env got.1 with
      | .error b => s.crownFail { b with step := 8 }
      | .ok b =>
        let w := s.planRec name (BitVec.ofNat 8 (d.fld 18 1)) b
        s.crownDone [w] [] 0 (nvmResult u 0 0 0 w.seq s.claim)
  else if s.nvm.scanning || s.nvm.recalling then s.crownFail (bad8 .nvmRecalling)
  else
    let n := s.nvm.scanned env.weak
    let l := n.weak.filter fun p => 16384 ≤ p
    let writes := l.map fun p =>
      let x := (n.logical p).getD p
      (⟨5, x, s.refreshed x, .refresh false⟩ : PageWrite)
    let s0 := s.noteTies (l.filterMap fun p => (recOfPage ((n.logical p).getD p)).map (·.1))
    let s1 : State := { s0 with nvm := { s0.nvm with
      weak := n.weak, scanWorn := false, scanning := true, weakCount := n.countWeak, scanFound := l.length, scanDone := 0, scanMoved := 0 } }
    ((s1.crownWait .nvm).askPages writes).scanGo

/-! Page writes end (R690, R701, R702, R706). -/

/-- A refresh has ended; one that could not be made leaves its page weak, and the first of a scan is recorded (R714). -/
def State.refreshEnded (s : State) (page : Nat) (late moved failed : Bool) : State :=
  let n := s.nvm
  if failed then
    let known := if late then n.lastErrStatus == Status.nvmWorn.code else n.scanWorn
    let s1 : State := { s with nvm := { n with weak := if n.weak.elem (n.phys page) then n.weak else n.weak ++ [n.phys page] } }
    match recOfPage page with
    | some (name, _, _) =>
      if known then s1
      else { s1.noteWorn name with nvm := { (s1.noteWorn name).nvm with scanWorn := !late } }
    | none => s1
  else if late then
    let bump := fun (r : StepRun) => if r.step != 0x12 then r
      else if moved then { r with method := r.method + 1 } else { r with attempt := r.attempt + 1 }
    { s with start := { s.start with running := s.start.running.map bump } }
  else { s with nvm := { n with
    scanDone := if moved then n.scanDone else n.scanDone + 1
    scanMoved := if moved then n.scanMoved + 1 else n.scanMoved } }

/-- A page that could be neither written nor relocated: its bytes are left open, but a record copy with such a page is
invalid or still old (R692, R701). -/
def Nvm.failPage (n : Nvm) (page : Nat) (b : Bytes) : Nvm :=
  let n1 := { n with pages := tset (zeros 256) n.pages (n.phys page) b }
  match recOfPage page with
  | some (name, copy, _) => if (n1.copy name copy).valid then n else n1
  | none => n1

/-- The bytes that a page write leaves in its page: the contents of a late refresh are formed as it is written (R695), a
ledger entry is one burst (R761). -/
def State.formed (s : State) (w : PageWrite) : Bytes :=
  match w.kind with
  | .refresh true => s.refreshed w.page
  | .ledger off => (s.nvm.page w.page).take off ++ fit 32 w.data ++ (s.nvm.page w.page).drop (off + 32)
  | _ => w.data

/-- A page write that has been read back: a page is weak until it is rewritten, and one burst does not rewrite it. A
bitmap page rewritten as all ones marks its set (R695). -/
def State.putPage (s : State) (w : PageWrite) : State :=
  let b := s.formed w
  let n := s.nvm
  let n1 : Nvm := match w.kind with
    | .ledger _ => { n with pages := tset (zeros 256) n.pages (n.phys w.page) b, writes := n.writes + 1 }
    | _ => n.put w.page b
  let late := match w.kind with
    | .refresh _ | .moved _ => true
    | _ => false
  let set := match bitmapSetOf w.page with
    | some k => if late && b == List.replicate 256 0xFF && !n1.bmWeak.elem k then [k] else []
    | none => []
  { s with nvm := { n1 with bmWeak := n1.bmWeak ++ set } }

/-- The end of a page write that has a page of its own, written or failed for good. -/
def State.pageEnded (s : State) (w : PageWrite) (failed : Bool) : State :=
  match w.kind with
  | .arm set p => if failed then s.armPageFailed p else s.armPage set p
  | .record copy last => s.recordPage copy last failed
  | .rollback last => s.rollbackPage last failed
  | .job copy last => s.jobPage copy last failed
  | .jobBack last => s.jobBackPage last failed
  | .refresh late => (s.refreshEnded w.page late false failed).scanGo
  | .moved late => (s.refreshEnded w.page late true failed).scanGo
  | .clear set last => if last then s.setCleared set else s
  | .remap _ _ | .remapBack _ | .ledger _ | .other => s

/-- A page that can be neither written nor relocated (R701, R702). -/
def State.pageLost (s : State) (w : PageWrite) : State :=
  let r := s.freshBytes 256
  ({ r.2 with nvm := r.2.nvm.failPage w.page r.1 } : State).pageEnded w true

/-- The relocations that wait, in turn (R702): the lowest free spare of the quarter is taken, and the remap record written
before the page. A quarter without one cannot relocate. -/
def State.moveGo (s : State) : List (PageWrite × Nat) → State
  | [] => { s with nvm := { s.nvm with moving := [], remapRec := none } }
  | (w, p) :: ws =>
    let name := RecName.sys 0x0C 0
    match s.nvm.freeSpare w.page with
    | none => (s.pageLost w).moveGo ws
    | some k =>
      let s1 := s.noteTie name
      let n1 := { s1.nvm with remap := tput s1.nvm.remap (remapEntry w.page k) (some (w.page % 4096)) }
      let x := s1.planRec name 0x0C n1.remapBytes
      if 2 ^ 32 ≤ x.seq then ((s1.noteWorn name).pageLost w).moveGo ws
      else (({ s1 with nvm := { n1 with moving := (w, p) :: ws, remapRec := some x } } : State).bump 24 1 1).askCopy x 0
        (.remap 0)

/-- A failed page write goes to a spare; a ledger entry takes its whole page there. -/
def State.movePage (s : State) (w : PageWrite) : State :=
  let x : PageWrite := match w.kind with
    | .refresh late => { w with data := s.formed w, kind := .moved late }
    | .ledger _ => { w with data := s.formed w, kind := .other }
    | _ => w
  let l := s.nvm.moving
  if l.isEmpty then s.moveGo [(x, s.nvm.phys w.page)]
  else { s with nvm := { s.nvm with moving := l ++ [(x, s.nvm.phys w.page)] } }

/-- The relocation in progress is given up: its spare is free again, its page lost, and the next is begun. -/
def State.moveFail (s : State) : State :=
  match s.nvm.moving with
  | [] => s
  | (w, _) :: ws =>
    let drop := match s.nvm.spareOf w.page with
      | some k => tset none s.nvm.remap (remapEntry w.page k) none
      | none => s.nvm.remap
    let mine := fun (k : PageKind) => match k with
      | .remap _ _ | .remapBack _ => true
      | _ => false
    let s1 := (s.dropPages mine).noteWorn (.sys 0x0C 0)
    ((({ s1 with nvm := { s1.nvm with remap := drop, remapRec := none } } : State).pageLost w)).moveGo ws

/-- A page of the remap record has ended (R701 to R703): its own pages are never relocated. Once both copies are written,
the page goes to its spare before any other page write of its class. -/
def State.remapPage (s : State) (copy : Nat) (last failed : Bool) : State :=
  match s.nvm.moving, s.nvm.remapRec with
  | (w, p) :: ws, some x =>
    let mine := fun (k : PageKind) => match k with
      | .remap _ _ => true
      | _ => false
    if failed then
      if copy = 0 then s.moveFail
      else (s.dropPages mine).askPages (copyWrites x.name 0 (x.back s.claim) .remapBack)
    else if !last then s
    else if copy = 0 then s.askCopy x 1 (.remap 1)
    else
      let n := s.nvm
      ({ s with nvm := { n with queue := w :: n.queue, weak := n.weak.filter fun q => q != p } } : State).moveGo ws
  | _, _ => s

/-- The reprogrammings of a page write: up to three of each of its eight bursts, and all three of one that fails (R690). -/
def retriesOf (retries : Nat) (failed : Bool) : Nat := if failed then max 3 (min retries 24) else min retries 24

/-- The page write in progress ends: written, to be relocated, or failed. -/
def State.pageDone (s : State) (retries : Nat) (failed : Bool) : State :=
  match s.nvm.writing with
  | none => s
  | some w =>
    let k := retriesOf retries failed
    let n := { s.nvm with writing := none, retry := min (s.nvm.retry + k) (2 ^ 32 - 1) }
    let s0 := (({ s with nvm := n } : State).bump 25 0 1).bump 25 2 k
    let s1 := match w.kind with
      | .remap copy last => (if failed then s0 else s0.putPage w).remapPage copy last failed
      | .remapBack last => if failed || last then (if failed then s0 else s0.putPage w).moveFail else s0.putPage w
      | _ => if !failed then (s0.putPage w).pageEnded w false
        else if isRemapPage w.page then s0.pageLost w else s0.movePage w
    s1.portGo

/-! Recall and power loss (R691, R692, R694). -/

/-- RECALL_DONE (R694): weak pages found, by physical page. The remap record is decided (R698). -/
def execRecallDone (us : Nat) (weak : List Nat) (s : State) : Host.Outcome State Fault Refusal :=
  .next <|
    if !s.nvm.recalling then s
    else
      let l := ((s.nvm.weak ++ weak).filter fun p => p < 32768).dedup
      let s := s.noteTie (.sys 0x0C 0)
      let r := s.nvm.record (.sys 0x0C 0)
      let n : Nvm := { s.nvm with
        recalling := false, ready := true, recallUs := min us 65535, recallWeak := min l.length 65535, weak := l
        remap := if r.st = .held then remapOf r.payload else [] }
      ({ s with nvm := { n with weakCount := n.countWeak } } : State).portGo

/-- One byte of a burst cut short by fast decay: each bit old or new, by a free mask (R692). -/
def mixByte (old new mask : Byte) : Byte := (new &&& mask) ||| (old &&& ~~~mask)

/-- The hold-up detector trips (R691, R692): `bursts` of the page in progress are complete, and the next one
ends within the hold-up requirement or not. -/
def State.trip (s : State) (bursts : Nat) (held : Bool) : State :=
  if s.nvm.tripped then s
  else match s.nvm.writing with
    | none => { s with nvm := { s.nvm with tripped := true } }
    | some w =>
      let n := s.nvm
      let p := n.phys w.page
      let old := n.page w.page
      let new := s.formed w
      let k := match w.kind with
        | .ledger off => off
        | _ => 32 * min bursts 7
      let f := s.freshBytes 32
      let burst := if held then slice new k 32
        else (List.range 32).map fun i => mixByte (byteAt old (k + i)) (byteAt new (k + i)) (byteAt f.1 i)
      let page := new.take k ++ burst ++ old.drop (k + 32)
      { f.2 with nvm := { n with
        tripped := true, writing := none, pages := tset (zeros 256) n.pages p (fit 256 page)
        weak := if held then n.weak else if n.weak.elem p then n.weak else n.weak ++ [p] } }

/-- HOLDUP_TRIP (R691). -/
def execHoldupTrip (bursts : Nat) (held : Bool) (s : State) : Host.Outcome State Fault Refusal :=
  .next (s.trip bursts held)

end Sys2Proof.Machine
end

