-- ==== Sys2Proof/Machine/Cards.lean ====
section
/-!
DEFINITION. The card ports (chapter 16): the SD host port, Phoulop bundles, the contact port and custodian
cards.
-/

namespace Sys2Proof.Machine

/-! Port state (R719, R727, R743, R751). -/

/-- The SD card state changed. -/
def State.modSd (s : State) (f : Sd → Sd) : State := { s with cards := { s.cards with sd := f s.cards.sd } }
/-- The contact port changed. -/
def State.modCc (s : State) (f : Cc → Cc) : State := { s with cards := { s.cards with cc := f s.cards.cc } }
/-- `CRD.CNT` k counted. -/
def State.cardCount (s : State) (k n : Nat) : State :=
  { s with cards := { s.cards with cnt := tmod 0 s.cards.cnt k fun v => min (v + n) (2 ^ 32 - 1) } }

/-- An SD command sent, with its CRC (R722). -/
def State.sdCommand (s : State) (cmd : Nat) (arg : Nat) : State :=
  let a := BitVec.ofNat 32 arg
  { s.cardCount 0 1 with out := { s.out with sdCmd := some (cmd, a), sdFrame := sdFrame cmd a } }

/-- A card descriptor uses the SD port. -/
def usesSd (d : Desc) : Bool := d.is .sdInfo || d.is .bundleWrite || d.is .bundleImport

/-- What a card port holds for a descriptor is given up: the SD card stays identified, the contact card is
deactivated (R743). -/
def State.cardEnd (s : State) (sd : Bool) : State :=
  let c := { s.cards with job := none, importing := false, writingB := false }
  let c1 := if sd then { c with sd := if c.sd.st = .transferring then { c.sd with st := .ready } else c.sd }
    else { c with cc := c.cc.deactivate }
  { s with cards := c1 }

/-- The entry of a bundle write that a takeover has met within a block (R749). -/
def State.takenOver (s : State) : Option (Journal × Desc) :=
  match s.crownDesc with
  | some (j, d, _) => if j.state = .intent ∧ j.outcome.isSome then some (j, d) else none
  | none => none

/-- A card descriptor ends with a failure, kept in `SD_ERR` or `CC_ERR` (R751). -/
def State.cardFailAt (s : State) (sd : Bool) (b : Bad) : State :=
  let c := s.cards
  let s1 : State := if sd then
      { s with cards := { c with sd := { c.sd with
        errStatus := b.status.code, errCmd := BitVec.ofNat 8 ((s.out.sdCmd.map (·.1)).getD 0) } } }
    else { s with cards := { c with cc := { c.cc with errStatus := b.status.code, errIns := byteAt s.out.apdu 1 } } }
  let s2 := s1.cardEnd sd
  match s2.takenOver with
  | some (j, d) => s2.crownClose j (s2.standbyCpl d 0)
  | none => s2.crownFail b

/-- The same with a status alone. -/
def State.cardFail (s : State) (sd : Bool) (st : Status) : State := s.cardFailAt sd (bad8 st)

/-- A card descriptor ends well. -/
def State.cardDone (s : State) (sd : Bool) (recs : List RecWrite) (effs : List Eff) (res : Bytes) : State :=
  (s.cardEnd sd).crownDone recs effs 0 res

/-- A descriptor's card job in a phase. -/
def State.cardJob (s : State) (j : CardJob) : State :=
  { s.crownWait .card with cards := { s.cards with job := some j } }

/-! Bundles (R729 to R737). -/

/-- BK (R730). -/
def bundleKey (dk : Bytes) (domainId : Word32) (id : Bytes) : Bytes :=
  kdf256 dk (ascii "WOALE-BUNDLE") (leBytes 4 domainId.toNat ++ id)

/-- One item (R732). -/
def itemBytes (t : Nat) (b : Bytes) : Bytes := padTo 8 ([BitVec.ofNat 8 t, 0, 0, 0] ++ leBytes 4 b.length ++ b)

/-- A tamper-log entry in 16 bytes (R656): `TIME`, monitor, rung with `CELL` in bit 3, detail, device rung,
number, value. -/
def LogEntry.bytes (e : LogEntry) : Bytes :=
  leBytes 6 e.time ++ [BitVec.ofNat 8 e.monitor, BitVec.ofNat 8 (e.rung + if e.cell then 8 else 0), e.detail,
    BitVec.ofNat 8 e.deviceRung] ++ leBytes 2 e.seq ++ leBytes 4 e.value.toNat

/-- The start-ledger pages as stored (R732, R761). -/
def Nvm.ledgerBytes (n : Nvm) : Bytes :=
  ((List.range 512).map fun p => n.page (p / 256 * 4096 + 3584 + p % 256)).flatten

/-- The items that a `BUNDLE_WRITE` with mask `m` includes (R736). -/
def State.bundleItems (s : State) (m : Nat) : List Bytes :=
  let keys := (List.range 64).filterMap fun i => (s.pkey i).map fun p =>
    itemBytes 1 ([BitVec.ofNat 8 p.index, BitVec.ofNat 8 p.type, 0, 0] ++ leBytes 8 p.blocksLeft ++
      leBytes 4 p.invsLeft ++ p.domBlob)
  let shares := match s.keys.ceremony with
    | some c => (List.range c.n).map fun i =>
        itemBytes 2 ([BitVec.ofNat 8 (i + 1), 0, 0, 0] ++ kwpWrap (s.keys.domainKey.getD c.key) (c.share (i + 1)))
    | none => []
  let log := itemBytes 3 (fit 256 (s.battery.log.map LogEntry.bytes).flatten)
  (if bitOf m 0 then keys else []) ++ (if bitOf m 1 then shares else []) ++ (if bitOf m 2 then [log] else []) ++
    (if bitOf m 3 then [itemBytes 4 s.nvm.ledgerBytes] else [])

/-- Block `n` of `count` with its `CHECK` (R729). -/
def bundleBlock (bk id : Bytes) (n count : Nat) (pay : Bytes) : Bytes :=
  let b := id ++ leBytes 4 n ++ leBytes 4 count ++ fit 480 pay
  b ++ cmac bk b

/-- The blocks of a bundle (R731). -/
def State.bundleBlocks (s : State) (items : List Bytes) (mask : Nat) (id : Bytes) : List Bytes :=
  let data := items.flatten
  let body := chunks 480 data
  let count := body.length + 2
  let bk := bundleKey (s.keys.domainKey.getD []) s.keys.domainId id
  let head := leBytes 4 0x504C4850 ++ [1, BitVec.ofNat 8 mask, s.keys.deviceNumber, 0] ++
    leBytes 4 s.keys.domainId.toNat ++ leBytes 4 s.start.startNumber.toNat ++ leBytes 8 s.rtc ++
    s.idHashBytes ++ leBytes 4 data.length
  let sealTag := leBytes 4 0x534C4850 ++ [1, 0, 0, 0] ++ leBytes 4 data.length ++ leBytes 2 items.length ++ zeros 10 ++
    sha384 data
  ([head] ++ body ++ [sealTag]).mapIdx fun n p => bundleBlock bk id n count p

/-- The items of a data stream; none when they do not fill it exactly (R733). `k` bounds their number. -/
def parseItems : Nat → Bytes → Option (List (Nat × Bytes))
  | 0, b => if b.isEmpty then some [] else none
  | k + 1, b =>
    if b.isEmpty then some []
    else
      let t := leField b 0 1
      let n := leField b 4 4
      let whole := 8 + ceilDiv n 8 * 8
      let okLen := if t = 1 then decide (16 ≤ n) else if t = 2 then n == 76 else if t = 3 then n == 256 else true
      if 1 ≤ t ∧ t ≤ 4 ∧ okLen ∧ leField b 1 3 = 0 ∧ whole ≤ b.length ∧ allZero (slice b (8 + n) (whole - 8 - n)) then
        match parseItems k (b.drop whole) with
        | some l => some ((t, slice b 8 n) :: l)
        | none => none
      else none

/-- A block carries its right `CHECK`. -/
def blockChecks (bk b : Bytes) : Bool := verdictWord (cmac bk (b.take 496)) (b.drop 496) == 0x3CC3

/-- The first failing block of a bundle that has been read whole, or its items (R733, R735). -/
def State.bundleCheck (s : State) (blocks : List Bytes) : Except Nat (List (Nat × Bytes)) :=
  let b0 := blocks.getD 0 []
  let id := b0.take 8
  let count := leField b0 12 4
  let bk := bundleKey (s.keys.domainKey.getD []) s.keys.domainId id
  let pay := fun (n : Nat) => slice (blocks.getD n []) 16 480
  let len := leField (pay 0) 40 4
  let sealTag := pay (count - 1)
  let headOk := leField (pay 0) 0 4 == 0x504C4850 && leField (pay 0) 4 1 == 1 && leField (pay 0) 7 1 == 0 &&
    leField (pay 0) 8 4 == s.keys.domainId.toNat && decide (len ≤ 491520) && count == 2 + ceilDiv len 480 &&
    allZero (slice (pay 0) 44 436)
  let good := fun (n : Nat) =>
    let b := blocks.getD n []
    blockChecks bk b && b.take 8 == id && leField b 8 4 == n && leField b 12 4 == count && (n != 0 || headOk)
  match (List.range count).find? fun n => !good n with
  | some n => .error n
  | none =>
    let data := ((List.range (count - 2)).map fun n => pay (n + 1)).flatten
    let items := parseItems (data.length + 1) (data.take len)
    let sealOk := leField sealTag 0 4 == 0x534C4850 && leField sealTag 4 1 == 1 && leField sealTag 5 3 == 0 &&
      leField sealTag 8 4 == len && allZero (data.drop len) && slice sealTag 24 48 == sha384 (data.take len) &&
      leField sealTag 14 10 == 0 && allZero (slice sealTag 72 408)
    match items with
    | none => .error (count - 1)
    | some l => if sealOk && leField sealTag 12 2 == l.length then .ok l else .error (count - 1)

/-- What an import does with one item: record writes, keys skipped, share indices checked (R737). -/
def State.importItem (s : State) (replace only : Bool) (acc : List RecWrite × Nat × Nat) (it : Nat × Bytes) :
    List RecWrite × Nat × Nat :=
  let dk := s.keys.domainKey.getD []
  if it.1 = 1 ∧ !only then
    let i := leField it.2 0 1
    let taken := (s.pkey i).isSome || acc.1.any fun w => w.name == pkeyName i
    match unwrapBlob dk s.keys.domainId.toNat (it.2.drop 16) with
    | none => (acc.1, acc.2.1 + 1, acc.2.2)
    | some k =>
      if 64 ≤ i ∨ (taken ∧ !replace) then (acc.1, acc.2.1 + 1, acc.2.2)
      else
        let p : PKey :=
          { index := i, type := leField it.2 1 1, blocksLeft := leField it.2 4 8, invsLeft := leField it.2 12 4,
            drkBlob := wrapBlob (s.battery.drk.getD []) 0 0 k, domBlob := it.2.drop 16 }
        let later := (acc.1.filter fun w => w.name == pkeyName i).length
        (acc.1 ++ [s.planRec (pkeyName i) 0x03 p.bytes later], acc.2.1, acc.2.2)
  else if it.1 = 2 then
    match kwpUnwrap dk (it.2.drop 4) with
    | some r =>
      let i := leField it.2 0 1
      if slice r 40 16 = domainCheck dk s.keys.domainId.toNat ∧ 1 ≤ i ∧ i ≤ 16 then
        (acc.1, acc.2.1, acc.2.2 ||| 2 ^ (i - 1))
      else acc
    | none => acc
  else acc

/-- A whole bundle has been read (R735, R737). -/
def State.importBundle (s : State) (j : CardJob) : State :=
  let id := (j.blocks.getD 0 []).take 8
  match s.bundleCheck j.blocks with
  | .error n => (s.cardCount 9 1).cardFailAt true { status := .bundleInvalid, step := 8, off := some (512 * n) }
  | .ok items =>
    let rep := bitOf j.flags.toNat 0
    let only := bitOf j.flags.toNat 1
    let r := items.foldl (s.importItem rep only) ([], 0, 0)
    s.cardDone true r.1 [] (id ++ leBytes 2 r.1.length ++ leBytes 2 r.2.1 ++ leBytes 2 r.2.2)

/-! SD transfers (R721 to R727). -/

/-- The argument that addresses block `n` (R723). -/
def Sd.address (x : Sd) (n : Nat) : Nat := if x.type = 1 then 512 * n else n

/-- The write of block `n` begins (R724 step 1), or the bundle is whole. -/
def State.writeNext (s : State) (j : CardJob) (n : Nat) : State :=
  if j.blocks.length ≤ n then
    let id := leBytes 8 j.bundleId.toNat
    (s.cardCount 8 1).cardDone true [] [] (id ++ leBytes 4 j.blocks.length ++ leBytes 2 j.itemCount)
  else (s.sdCommand 24 (s.cards.sd.address (j.start + n))).cardJob { j with phase := .wrCmd n }

/-- The read of block `n` begins. -/
def State.readNext (s : State) (j : CardJob) (n : Nat) : State :=
  (s.sdCommand 17 (s.cards.sd.address (j.start + n))).cardJob { j with phase := .rd n }

/-- An SD descriptor goes on with its card identified (R726, R734, R735, R747, R748). -/
def State.sdReady (s : State) (d : Desc) (j : CardJob) : State :=
  let c := s.cards.sd
  if d.is .sdInfo then
    s.cardDone true [] [] (leBytes 8 c.blocks ++ [BitVec.ofNat 8 c.type, if c.width4 then 4 else 1,
      BitVec.ofNat 8 c.clkMhz, if c.wp then 1 else 0])
  else if d.is .bundleWrite then
    let mask := j.flags.toNat
    let items := s.bundleItems mask
    let count := 2 + ceilDiv items.flatten.length 480
    if c.blocks < j.start + count ∨ 1026 < count then s.cardFail true .descMalformed
    else if (s.crowns.journal.bind (·.wp)).getD c.wp || c.csdWp then s.cardFail true .cardProtected
    else match s.draw 0 8 false with
      | .wait => ({ s with cards := { s.cards with job := none } } : State).crownDraw
      | .fail s1 => s1.cardFail true .entropyFail
      | .ok b _ s1 =>
        let id := fit 8 b
        let j1 := { j with
          blocks := s1.bundleBlocks items mask id, bundleId := BitVec.ofNat 64 (leNat id), itemCount := items.length }
        let s2 : State := { s1 with cards := { s1.cards with
          writingB := true, blocksDone := 0, bundleId := j1.bundleId,
          sd := { s1.cards.sd with st := .transferring, confirmed := 0 } } }
        s2.writeNext j1 0
  else if c.blocks < j.start + 2 then s.cardFail true .descMalformed
  else
    let s1 : State := { s with cards := { s.cards with
      importing := true, blocksDone := 0, sd := { s.cards.sd with st := .transferring } } }
    s1.readNext j 0

/-- The job of a descriptor at its start. -/
def jobOf (j : Journal) (d : Desc) (p : CardPhase) : CardJob :=
  { ring := j.ring, seq := j.seq, phase := p, blocks := [], bundleId := 0, start := d.fld 16 4,
    flags := BitVec.ofNat 8 (d.fld 20 1), index := d.fld 25 1, itemCount := 0, noPps := false, retry := 0 }

/-- The body checks of step 5 of family 0x0A (R736, R747). -/
def cardCheck5 (d : Desc) : Bool :=
  let bundle := d.is .bundleWrite || d.is .bundleImport
  (bundle || (d.fld 16 4 == 0 && d.fld 20 1 == 0)) &&
    (!d.is .bundleWrite || decide (d.fld 20 1 < 16)) && (!d.is .bundleImport || decide (d.fld 20 1 < 4))

/-- Custody and ceremony as R747 gives. -/
def cardPermit (s : State) (d : Desc) : Bool :=
  let ready := s.keys.custody == .ready && s.keys.domainKey.isSome
  let splits := match s.keys.ceremony with
    | some c => c.purpose != .restore
    | none => false
  if d.is .bundleWrite then ready && (!bitOf (d.fld 20 1) 1 || splits)
  else if d.is .bundleImport then ready
  else if d.is .ccClear then ready && s.keys.ceremony.isNone else true

/-- Steps 1 to 3 of R721 begin: power, CMD0, which has no response, and CMD8. -/
def State.identBegin (s : State) (j : CardJob) : State := ((s.sdCommand 0 0).sdCommand 8 0x1AA).cardJob j

/-- Step 8 of an SD descriptor: identification first, where it is due. A writing descriptor samples `SD_WP` once
(R726). -/
def sdStart (s : State) (d : Desc) : State :=
  match s.crowns.journal with
  | none => s
  | some j =>
    let c := s.cards.sd
    if !cardPermit s d then s.cardFail true .notPermitted
    else if s.tamper.fenceSd then s.cardFail true .facetFenced
    else if !c.present then s.cardFail true .cardAbsent
    else
      let s0 := if d.is .bundleWrite then s.modJournal fun x => { x with wp := some (x.wp.getD c.wp) } else s
      if c.st = .ready then s0.sdReady d (jobOf j d (.rd 0))
      else
      (s0.modSd fun x => { x.off with st := .identifying, power := true }).identBegin (jobOf j d (.ident .cmd8))

/-! The contact port (R738 to R746). -/

/-- The APDUs of R744. -/
def apduSelect : Bytes := [0x00, 0xA4, 0x04, 0x00, 0x06, 0xF0, 0x4B, 0x57, 0x53, 0x43, 0x01]
/-- `GET_INFO`. -/
def apduInfo : Bytes := [0x80, 0xCA, 0x00, 0x00, 0x10]
/-- `READ_SHARE`. -/
def apduRead : Bytes := [0x80, 0xB0, 0x00, 0x00, 0x40]
/-- `WRITE_SHARE`. -/
def apduWrite (repl : Bool) (share : Bytes) : Bytes := [0x80, 0xD0, 0x00, if repl then 1 else 0, 0x40] ++ share
/-- `CLEAR_SHARE`. -/
def apduClear : Bytes := [0x80, 0x0E, 0x00, 0x00]

/-- Characters sent to the contact card, its answer awaited. -/
def State.ccSend (s : State) (j : CardJob) (tx : Bytes) : State :=
  { s.cardJob j with out := { s.out with ccTx := tx } }

/-- The next I-block of the exchange: chained while command bytes remain (R741). -/
def State.t1Send (s : State) (j : CardJob) (x : Exchange) : State :=
  let c := s.cards.cc
  let inf := x.toSend.take c.ifsc
  let rest := x.toSend.drop c.ifsc
  let pcb := BitVec.ofNat 8 (64 * c.ns.toNat + 32 * (!rest.isEmpty).toNat)
  let b := t1Block c.crc pcb inf
  (s.modCc fun y => { y with ns := !y.ns }).ccSend { j with x := { x with toSend := rest, last := b } } b

/-- An APDU sent in a phase, beside response bytes already received (R741, R742, R744). -/
def State.sendTpdu (s : State) (j : CardJob) (p : CardPhase) (apdu rx : Bytes) : State :=
  let s1 : State := { s with out := { s.out with apdu := apdu } }
  let j1 := { j with phase := p, retry := 0 }
  if s.cards.cc.t1 then s1.t1Send j1 { apdu := apdu, toSend := apdu, rx := rx }
  else
    let t := t0Start apdu rx
    s1.ccSend { j1 with x := t.1 } t.2

/-- An APDU sent, its answer awaited in a phase. -/
def State.sendApdu (s : State) (j : CardJob) (p : CardPhase) (b : Bytes) : State := s.sendTpdu j p b []

/-- Activation with a class: 3 is C, 2 is B, 1 is A (R739): reset low, supply, reception, clock, and reset high after 500
clocks. -/
def State.activate (s : State) (j : CardJob) (cls : Nat) : State :=
  (s.modCc fun c => { c.deactivate with
    cls := BitVec.ofNat 2 cls, rst := true, khz := 100 * c.freq.toNat
    pins := [.rst false, .supply cls, .io true, .clk (100 * c.freq.toNat), .rst true] }).ccSend
    { j with phase := .atr cls, retry := 0, x := {} } []

/-- A class is abandoned (R739). -/
def State.nextClass (s : State) (j : CardJob) (cls : Nat) (silent : Bool) : State :=
  let next := cls - 1
  if next = 0 ∨ (next = 1 ∧ !s.cards.cc.classAEn) then
    (s.modCc fun c => { c with error := true, evtTimeout := c.evtTimeout || silent }).cardFail false .cardError
  else s.activate j next

/-- The descriptor's first command after activation. -/
def State.ccSelect (s : State) (j : CardJob) : State := s.sendApdu j .select apduSelect

/-- The exchange begins once the protocol stands: S(IFS request) with IFSD 254 under T=1 (R741). -/
def State.ccBegin (s : State) (j : CardJob) : State :=
  if s.cards.cc.t1 then
    let b := t1Block s.cards.cc.crc 0xC1 [0xFE]
    s.ccSend { j with phase := .ifs, retry := 0, x := { last := b } } b
  else s.ccSelect j

/-- Step 8 of a contact descriptor. -/
def ccStart (s : State) (d : Desc) : State :=
  match s.crowns.journal with
  | none => s
  | some j =>
    if !cardPermit s d then s.cardFail false .notPermitted
    else if s.tamper.fenceCc then s.cardFail false .facetFenced
    else if !s.cards.cc.present then s.cardFail false .cardAbsent
    else s.activate (jobOf j d (.atr 3)) 3

/-- The purposes that a share action serves: `ACTION` 0 in a `RESTORE`, `ACTION` 1 otherwise, for one of its
indices. The manual gives no status for any other; it is refused with `NOT_PERMITTED` at step 8 (R216; log entry 49,
DESIGN CHOICE). -/
def shareServes (c : Ceremony) (d : Desc) : Bool :=
  if d.fld 24 1 = 0 then c.purpose == .restore else c.purpose != .restore && decide (d.fld 25 1 ≤ c.n)

/-- CER_SHARE at step 8 (R212, R216). -/
def cerShare (s : State) (d : Desc) : State :=
  match s.keys.ceremony with
  | none => s.crownFail (bad8 .notPermitted)
  | some c => if shareServes c d then ccStart s d else s.crownFail (bad8 .notPermitted)

/-- A share record that a `RESTORE` can take (R746). -/
def shareOk (b : Bytes) : Bool :=
  let i := leField b 4 1
  let m := leField b 5 1
  let n := leField b 6 1
  b.length == 64 && leField b 7 1 == 0 && allZero (slice b 56 8) && decide (2 ≤ n) && decide (n ≤ 16) &&
    decide (2 ≤ m) && decide (m ≤ n) && decide (1 ≤ i) && decide (i ≤ n)

/-- A share has been read in a `RESTORE` (R212, R746). -/
def State.shareRead (s : State) (c : Ceremony) (b : Bytes) : State :=
  let i := leField b 4 1
  let m := leField b 5 1
  let n := leField b 6 1
  if !shareOk b then s.cardFail false .cardError
  else if leField b 0 4 ≠ c.domainId.toNat ∨ (c.held ≠ [] ∧ (m ≠ c.m ∨ n ≠ c.n)) then s.cardFail false .notPermitted
  else
    let c1 := if c.held.any fun p => p.1 == i then c
      else { c with m := m, n := n, held := c.held ++ [(i, b)] }
    s.cardDone false [] [.ceremony (some c1)] c1.result

/-- A share written has been read back (R216, R746). -/
def State.shareBack (s : State) (c : Ceremony) (i : Nat) (b : Bytes) : State :=
  if verdictWord (c.share i) b ≠ 0x3CC3 then s.cardFail false .cardError
  else
    let c1 := { c with written := if c.written.elem i then c.written else c.written ++ [i] }
    s.cardDone false [] [.ceremony (some c1)] c1.result

/-- What `GET_INFO` shows leads to (R746 to R748). -/
def State.infoRead (s : State) (d : Desc) (j : CardJob) (b : Bytes) : State :=
  let state := leField b 9 1
  let dom := leField b 10 4
  if b.length ≠ 16 then s.cardFail false .cardError
  else if d.is .ccInfo then s.cardDone false [] [] b
  else if d.is .ccClear then
    if dom ≠ s.keys.domainId.toNat then s.cardFail false .notPermitted else s.sendApdu j .clear apduClear
  else match s.keys.ceremony with
    | none => s.cardFail false .notPermitted
    | some c =>
      if state = 0 then s.sendApdu j .writeShare (apduWrite false (c.share j.index))
      else if dom = c.domainId.toNat then s.sendApdu j .writeShare (apduWrite true (c.share j.index))
      else s.cardFail false .notPermitted

/-- An APDU answered with `90 00`. -/
def State.apduOk (s : State) (d : Desc) (j : CardJob) (b : Bytes) : State :=
  match j.phase with
  | .select =>
    if d.is .cerShare && d.fld 24 1 == 0 then s.sendApdu j .readShare apduRead else s.sendApdu j .info apduInfo
  | .info => s.infoRead d j b
  | .readShare => match s.keys.ceremony with
    | some c => s.shareRead c b
    | none => s.cardFail false .notPermitted
  | .writeShare => s.sendApdu j .readBack apduRead
  | .readBack => match s.keys.ceremony with
    | some c => s.shareBack c j.index b
    | none => s.cardFail false .notPermitted
  | _ => s.cardDone false [] [] []

/-- A response APDU (R742, R744, R745): under T=0, `61xx` is followed by GET RESPONSE, and `6Cxx` by the command again
with Le = xx after its data. -/
def State.apduAnswer (s : State) (d : Desc) (j : CardJob) (b : Bytes) (sw : BitVec 16) : State :=
  let sw1 := sw.toNat / 256
  let xx := BitVec.ofNat 8 sw.toNat
  let s1 := s.modCc fun c => { c with lastSw := sw }
  if !s.cards.cc.t1 && sw1 == 0x61 then s1.sendTpdu j j.phase [0x00, 0xC0, 0x00, 0x00, xx] b
  else if !s.cards.cc.t1 && sw1 == 0x6C then
    let a := j.x.apdu
    s1.sendTpdu j j.phase ((if 5 < a.length then a.take (5 + (byteAt a 4).toNat) else a.take 4) ++ [xx]) []
  else
    let s2 := s1.modCc fun c => { c with apdus := c.apdus + 1 }
    if sw = 0x9000 then s2.apduOk d j b else s2.cardFail false .cardError

/-- A bad or missing answer in an exchange (R741, R742): under T=1 an R-block at most twice, then S(RESYNCH) once; under
T=0 a character with a parity error is repeated at most three times. -/
def State.apduBad (s : State) (j : CardJob) (silent : Bool) (code : Nat := 2) : State :=
  let s1 := s.modCc fun c => if silent then { c with evtTimeout := true } else { c with evtChk := true }
  let c := s.cards.cc
  let again := { j with retry := j.retry + 1 }
  if c.t1 then
    if j.retry < 2 ∧ !j.x.sync then
      (s1.cardCount 5 1).ccSend again (t1Block c.crc (BitVec.ofNat 8 (0x80 + 16 * c.nr.toNat + code)) [])
    else if !j.x.synced then
      (s1.cardCount 6 1).ccSend { again with x := { j.x with sync := true, synced := true } } (t1Block c.crc 0xC0 [])
    else s1.cardFail false .cardError
  else if silent then s1.cardFail false .cardError
  else if j.retry < 3 then (s1.cardCount 4 1).ccSend again [] else (s1.cardCount 4 1).cardFail false .cardError

/-- What a T=1 exchange sends again from its start: the APDU, or S(IFS request). -/
def State.t1Again (s : State) (j : CardJob) : State :=
  if j.phase = .ifs then s.ccSend { j with x := { j.x with sync := false } } (t1Block s.cards.cc.crc 0xC1 [0xFE])
  else s.t1Send j { apdu := j.x.apdu, toSend := j.x.apdu, wtx := j.x.wtx, synced := true }

/-- An I-block received: chained, or the end of the response (R741). -/
def State.t1Info (s : State) (d : Desc) (j : CardJob) (pcb : Byte) (inf : Bytes) : State :=
  let c := s.cards.cc
  if pcb.getLsbD 6 != c.nr || !j.x.toSend.isEmpty || j.phase == .ifs || j.x.sync then s.apduBad j false
  else
    let rx := j.x.rx ++ inf
    let s1 := s.modCc fun y => { y with nr := !y.nr }
    let j1 := { j with retry := 0, x := { j.x with rx := rx } }
    if pcb.getLsbD 5 then
      let b := t1Block c.crc (BitVec.ofNat 8 (0x80 + 16 * (!c.nr).toNat)) []
      s1.ccSend { j1 with x := { j1.x with last := b } } b
    else if rx.length < 2 then s1.cardFail false .cardError
    else s1.apduAnswer d j1 (rx.take (rx.length - 2))
      (BitVec.ofNat 16 (beNat (rx.drop (rx.length - 2))))

/-- An R-block: it acknowledges a chained block, or asks for the last block again (R741). -/
def State.t1Ack (s : State) (j : CardJob) (pcb : Byte) : State :=
  if j.x.sync then s.apduBad j false
  else
    let j1 := { j with retry := 0 }
    if !j.x.toSend.isEmpty && pcb.getLsbD 4 == s.cards.cc.ns then s.t1Send j1 j.x else s.ccSend j1 j.x.last

/-- An S-block: IFS, WTX or RESYNCH (R741); a waiting-time extension is honoured up to 10 s for one APDU. -/
def State.t1Super (s : State) (j : CardJob) (pcb : Byte) (inf : Bytes) : State :=
  let c := s.cards.cc
  let n := (byteAt inf 0).toNat
  let j1 := { j with retry := 0 }
  if pcb = 0xE0 ∧ j.x.sync ∧ inf = [] then
    (s.modCc fun y => { y with ns := false, nr := false }).t1Again { j1 with x := { j.x with sync := false } }
  else if j.x.sync then s.apduBad j false
  else if pcb = 0xE1 ∧ j.phase = .ifs ∧ inf = [0xFE] then s.ccSelect j1
  else if pcb = 0xC1 ∧ inf.length = 1 ∧ 1 ≤ n ∧ n ≤ 254 then
    (s.modCc fun y => { y with ifsc := n }).ccSend j1 (t1Block c.crc 0xE1 inf)
  else if pcb = 0xC3 ∧ inf.length = 1 ∧ j.phase ≠ .ifs then
    let w := j.x.wtx + n * c.bwtMs
    if 10000 < w then (s.modCc fun y => { y with evtTimeout := true }).cardFail false .cardError
    else s.ccSend { j1 with x := { j.x with wtx := w } } (t1Block c.crc 0xE3 inf)
  else s.apduBad j false

/-- A block of T=1 (R741). -/
def State.t1Answer (s : State) (d : Desc) (j : CardJob) (b : Bytes) : State :=
  match t1Read s.cards.cc.crc b with
  | none => s.apduBad j false 1
  | some (pcb, inf) =>
    if !pcb.getLsbD 7 then s.t1Info d j pcb inf
    else if !pcb.getLsbD 6 then (if inf = [] then s.t1Ack j pcb else s.apduBad j false) else s.t1Super j pcb inf

/-- Characters of T=0 (R742). -/
def State.t0Answer (s : State) (d : Desc) (j : CardJob) (b : Bytes) : State :=
  match t0Feed b j.x [] with
  | .more x tx => s.ccSend { j with retry := 0, x := x } tx
  | .done x sw => s.apduAnswer d { j with x := x } x.rx sw
  | .bad => s.cardFail false .cardError

/-- The rates in use set: Fi, Di, a clock under the highest of Fi and 5 MHz, and the times that follow (R740, R751). -/
def Cc.rated (c : Cc) (a : Atr) (fi fmax di : Nat) : Cc :=
  let khz := min (100 * c.freq.toNat) (min fmax 5000)
  { c with fi := fi, di := di, khz := khz,
           bwtMs := if c.t1 then min (bwtOf a.tb3 fi di khz) 65535 else 0
           cwtEtu := if c.t1 then cwtOf a.tb3 else 0 }

/-- An ATR (R739, R740): it is parsed, its TCK checked, and it is stored; a class that it shows unsupported is abandoned. -/
def State.atrRead (s : State) (j : CardJob) (cls : Nat) (b : Bytes) : State :=
  match parseAtr b with
  | none => (s.modCc fun c => { c with error := true, evtChk := true }).cardFail false .cardError
  | some a =>
    if a.classes.any fun m => !bitOf m (cls - 1) then s.nextClass j cls false
    else
      let r := a.rates
      let s1 := s.modCc fun c => { c with
        active := true, error := false, atr := b.take 32, t1 := a.useT1, ifsc := min (max a.ifsc 1) 254
        crc := a.tc3.getLsbD 0, ns := false, nr := false }
      if a.specific then (s1.modCc fun c => c.rated a r.1 r.2.1 r.2.2).ccBegin j
      else
        let s2 := s1.modCc fun c => c.rated a 372 5000 1
        if !j.noPps ∧ (r.1 ≠ 372 ∨ r.2.2 ≠ 1) then s2.ccSend { j with phase := .pps, retry := 0 } a.pps else s2.ccBegin j

/-- A PPS response (R740): one equal to the request brings its rates, any other leaves Fi 372 and Di 1. -/
def State.ppsRead (s : State) (j : CardJob) (b : Bytes) : State :=
  match parseAtr s.cards.cc.atr with
  | none => s.ccBegin j
  | some a =>
    let r := a.rates
    if b = a.pps then (s.modCc fun c => c.rated a r.1 r.2.1 (min r.2.2 32)).ccBegin j else s.ccBegin j

/-! Answers (R721 to R727, R739 to R746). -/

/-- The SD card does not answer (R725, R727). -/
def State.sdGone (s : State) : State :=
  ((s.modSd fun x => { x.off with evtTimeout := true }).cardCount 2 1).cardFail true .cardGone

/-- The SD card answers with an error. -/
def State.sdError (s : State) (crc : Bool) : State :=
  let ident := s.cards.sd.st = .identifying
  let s1 := s.modSd fun x => { x with evtChk := x.evtChk || crc, st := if ident then .error else x.st }
  (if crc then s1.cardCount 1 1 else s1).cardFail true .cardError

/-- The identification goes on with a command (R721). -/
def State.identNext (s : State) (j : CardJob) (cmd arg : Nat) (p : SdStep) : State :=
  (s.sdCommand cmd arg).cardJob { j with phase := .ident p }

/-- The argument that carries the card's address. -/
def Sd.rcaArg (x : Sd) : Nat := x.rca * 2 ^ 16

/-- Identification has ended: an application command reads the SD status last (step 9). -/
def State.identStatus (s : State) (j : CardJob) : State := s.identNext j 55 s.cards.sd.rcaArg .app13

/-- Step 9. -/
def State.identStep9 (s : State) (j : CardJob) : State :=
  if s.cards.sd.type = 1 then s.identNext j 16 512 .cmd16 else s.identStatus j

/-- Step 8: High Speed, where the SCR shows CMD6 and `HS` allows it. -/
def State.identStep8 (s : State) (j : CardJob) : State :=
  let x := s.cards.sd
  if x.hs && decide (1 ≤ (byteAt x.scr 0).toNat % 16) then s.identNext j 6 0x80FFFFF1 .cmd6 else s.identStep9 j

/-- Step 7's bus width, where the SCR and `BUS4` allow it. -/
def State.identBus (s : State) (j : CardJob) : State :=
  let x := s.cards.sd
  if x.bus4 && (byteAt x.scr 1).getLsbD 2 then s.identNext j 55 x.rcaArg .app6 else s.identStep8 j

/-- A try of ACMD41: every 10 ms, for at most 1 s. -/
def State.identTry (s : State) (j : CardJob) (n : Nat) (v2 : Bool) : State :=
  if 100 ≤ n then (s.modSd fun x => { x with evtTimeout := true }).sdError false else s.identNext j 55 0 (.app41 n v2)

/-- The 32 bits of a response in the identification, each step checked (R720, R721). -/
def State.identArg (s : State) (j : CardJob) (p : SdStep) (v : Bytes) : State :=
  let bad := s.sdError false
  match p with
  | .cmd8 => if beNat v % 4096 = 0x1AA then s.identTry j 0 true else bad
  | .app41 n v2 => s.identNext j 41 ((if v2 then 2 ^ 30 else 0) + 0x00FF8000) (.acmd41 n v2)
  | .acmd41 n v2 =>
    let o := beNat v
    if !bitOf o 31 then s.identTry j (n + 1) v2
    -- a card whose voltage window holds nothing of 2.7 to 3.6 V has no 3.3 V signalling
    else if bitsOf o 23 15 = 0 then bad
    else (s.modSd fun x => { x with ocr := v, type := if v2 && bitOf o 30 then 2 else 1 }).identNext j 2 0 .cmd2
  | .cmd3 =>
    if bitsOf (beNat v) 15 13 ≠ 0 then bad
    else
      let s1 := s.modSd fun x => { x with rca := beNat v / 2 ^ 16 }
      s1.identNext j 9 s1.cards.sd.rcaArg .cmd9
  | .app51 => if r1Error v then bad else s.identNext j 51 0 .acmd51
  | .app6 => if r1Error v then bad else s.identNext j 6 2 .acmd6
  | .app13 => if r1Error v then bad else s.identNext j 13 0 .acmd13
  | .cmd7 => if r1Error v then bad else s.identNext j 55 s.cards.sd.rcaArg .app51
  | .acmd51 => if r1Error v then bad else s.cardJob { j with phase := .ident .scr }
  | .acmd6 => if r1Error v then bad else (s.modSd fun x => { x with width4 := true }).identStep8 j
  | .cmd6 => if r1Error v then bad else s.cardJob { j with phase := .ident .switch }
  | .cmd16 => if r1Error v then bad else s.identStatus j
  | .acmd13 => if r1Error v then bad else s.cardJob { j with phase := .ident .ssr }
  | .cmd2 | .cmd9 | .scr | .switch | .ssr => bad

/-- A card register in the identification: the CID, then the CSD, which brings the capacity, the type and the 25 MHz. -/
def State.identReg (s : State) (j : CardJob) (p : SdStep) (v : Bytes) : State :=
  match p with
  | .cmd2 => (s.modSd fun x => { x with cid := v }).identNext j 3 0 .cmd3
  | _ => match csdBlocks v with
    | none => s.sdError false
    | some n =>
      let s1 := s.modSd fun x => { x with
        csd := v, blocks := n % 2 ^ 32, csdWp := csdProtects v, clkMhz := 25, type := sdType (x.type != 1) n }
      s1.identNext j 7 s1.cards.sd.rcaArg .cmd7

/-- What a read of a response leads to. -/
def State.sdTake (s : State) (r : SdRead) (go : Bytes → State) : State :=
  match r with
  | .ok v => go v
  | .crc => s.sdError true
  | .bad => s.sdError false

/-- A response in the identification. -/
def State.identResp (s : State) (j : CardJob) (p : SdStep) (b : Bytes) : State :=
  match p with
  | .acmd41 _ _ => s.sdTake (readR3 b) (s.identArg j p)
  | .cmd2 | .cmd9 => s.sdTake (readR2 b) (s.identReg j p)
  | _ => s.sdTake (readR48 ((s.out.sdCmd.map (·.1)).getD 0) b) (s.identArg j p)

/-- The data of a read, where its length is the one expected and the CRC of each line holds (R722). -/
def State.sdBlockOk (s : State) (n : Nat) (b : Bytes) (crcs : List (BitVec 16)) : SdRead :=
  if b.length ≠ n then .bad
  else if crcs ≠ blockCrcs s.cards.sd.width4 b then .crc else .ok b

/-- Data in the identification: the SCR, the answer to CMD6, the SD status, with which it ends. -/
def State.identData (s : State) (d : Desc) (j : CardJob) (p : SdStep) (b : Bytes) (crcs : List (BitVec 16)) : State :=
  match p with
  | .scr => s.sdTake (s.sdBlockOk 8 b crcs) fun v => (s.modSd fun x => { x with scr := v }).identBus j
  | .switch => s.sdTake (s.sdBlockOk 64 b crcs) fun v =>
    (if (byteAt v 16).toNat % 16 = 1 then s.modSd fun x => { x with clkMhz := 50 } else s).identStep9 j
  | .ssr => s.sdTake (s.sdBlockOk 64 b crcs) fun v => (s.modSd fun x => { x with st := .ready, ssr := v }).sdReady d j
  | _ => s

/-- The block `n` of a bundle on `SD_DAT`, with the CRC of each active line (R722, R724 step 2). -/
def State.sendBlock (s : State) (j : CardJob) (n : Nat) : State :=
  let b := j.blocks.getD n []
  { s.cardJob { j with phase := .wrToken n } with out := { s.out with sdBlock := (b, blockCrcs s.cards.sd.width4 b) } }

/-- Block `n` has been read (R735, R748). -/
def State.blockRead (s : State) (j : CardJob) (n : Nat) (b : Bytes) : State :=
  let j1 := { j with blocks := j.blocks ++ [fit 512 b] }
  let count := leField (j1.blocks.getD 0 []) 12 4
  let s1 : State := { s with cards := { s.cards with
    blocksDone := n + 1, bundleId := BitVec.ofNat 64 (leField (j1.blocks.getD 0 []) 0 8) } }
  let bk := bundleKey (s.keys.domainKey.getD []) s.keys.domainId (b.take 8)
  let bad := (s1.cardCount 9 1).cardFailAt true { status := .bundleInvalid, step := 8, off := some 0 }
  if n = 0 ∧ (!blockChecks bk (fit 512 b)) then bad
  else if n = 0 ∧ (count < 2 ∨ s.cards.sd.blocks < j.start + count) then s1.cardFail true .descMalformed
  else if n = 0 ∧ 1026 < count then bad
  else if n + 1 < count then s1.readNext j1 (n + 1) else s1.importBundle j1

/-- Block `n` is confirmed (R724 step 5). After a takeover the bundle write ends here, done when the block was its
seal (R749; log entry 28, DEDUCED). -/
def State.blockWritten (s : State) (j : CardJob) (n : Nat) : State :=
  let s1 : State := { s with cards := { s.cards with
    blocksDone := n + 1, sd := { s.cards.sd with confirmed := n + 1 } } }
  match s1.takenOver with
  | some (e, d) =>
    let done := j.blocks.length == n + 1
    let s2 := (if done then s1.cardCount 8 1 else s1).cardEnd true
    s2.crownClose { e with outcome := some done.toNat } (s2.standbyCpl d done.toNat)
  | none => s1.writeNext j (n + 1)

/-- A response in a phase of the SD port. -/
def State.sdResp (s : State) (j : CardJob) (b : Bytes) : State :=
  match j.phase with
  | .ident p => match p with
    | .scr | .switch | .ssr => s
    | _ => s.identResp j p b
  | .wrCmd n => s.sdTake (readR48 24 b) fun v => if r1Error v then s.sdError false else s.sendBlock j n
  | .wrStatus n => s.sdTake (readR48 13 b) fun v =>
    if r1Error v || !r1Tran v then s.sdError false else s.blockWritten j n
  | .rd n => s.sdTake (readR48 17 b) fun v =>
    if r1Error v then s.sdError false else s.cardJob { j with phase := .rdData n }
  | _ => s

/-- An answer in a phase of the SD port; a card that does not answer CMD8 is a version 1 card (R721). -/
def State.sdAnswer (s : State) (d : Desc) (j : CardJob) (r : CardResp) : State :=
  match r with
  | .silent => if j.phase = .ident .cmd8 then s.identTry j 0 false else s.sdGone
  | .sd b => s.sdResp j b
  | .token t => match j.phase with
    | .wrToken n => if t = 2 then s.cardJob { j with phase := .wrBusy n } else s.sdError false
    | _ => s
  | .data b crcs => match j.phase with
    | .ident p => s.identData d j p b crcs
    | .rdData n => s.sdTake (s.sdBlockOk 512 b crcs) (s.blockRead j n)
    | _ => s
  | .chars _ | .parity => s

/-- An answer in a phase of the contact port. -/
def State.ccAnswer (s : State) (d : Desc) (j : CardJob) (r : CardResp) : State :=
  match j.phase with
  | .atr cls => match r with
    | .chars b => s.atrRead j cls b
    | .silent => s.nextClass j cls true
    | .parity => (s.modCc fun c => { c with error := true, evtChk := true }).cardFail false .cardError
    | _ => s
  | .pps => match r with
    | .chars b => s.ppsRead j b
    | .silent => s.activate { j with noPps := true } s.cards.cc.cls.toNat
    | .parity => (s.modCc fun c => { c with evtChk := true }).ppsRead j []
    | _ => s
  | _ => match r with
    | .chars b => if s.cards.cc.t1 then s.t1Answer d j b else s.t0Answer d j b
    | .silent => s.apduBad j true
    | .parity => s.apduBad j false 1
    | _ => s

/-- A job of the SD port, or of the contact port, is in progress. -/
def State.cardBusy (s : State) (sd : Bool) : Bool := (s.cards.job.map fun j => j.phase.isSd == sd).getD false

/-- CARD_RESPONSE: what the card of the job in progress answers. A phase takes no answer that only its end of
busy can follow. -/
def State.cardAnswer (s : State) (r : CardResp) : State :=
  match s.cards.job, s.crownDesc with
  | some j, some (_, d, _) => match j.phase with
    | .wrBusy _ => s
    | _ => if j.phase.isSd then s.sdAnswer d j r else s.ccAnswer d j r
  | _, _ => s

/-! Events of the ports (R719, R724, R725, R727, R743, R751, R857). -/

/-- SD_CARD_DETECT (R719, R727). -/
def State.sdDetect (s : State) (present wp : Bool) : State :=
  let x := s.cards.sd
  let s0 := s.modSd fun y => { y with wp := wp }
  if present = x.present then s0
  else if present then s0.modSd fun y => { y with present := true, st := .present, evtInserted := true }
  else
    let s1 := (s0.modSd fun y => { ({ y with present := false } : Sd).off with evtRemoved := true }).cardCount 3 1
    if s.cardBusy true then s1.cardFail true .cardGone else s1

/-- CC_CARD_DETECT (R719, R743). -/
def State.ccDetect (s : State) (present : Bool) : State :=
  let x := s.cards.cc
  if present = x.present then s
  else if present then s.modCc fun y => { y with present := true, evtInserted := true }
  else
    let s1 := (s.modCc fun y => { y.deactivate with present := false, evtRemoved := true }).cardCount 7 1
    if s.cardBusy false then s1.cardFail false .cardGone else s1

/-- SD_BUSY_END (R724): the status command follows. -/
def State.sdBusyEnd (s : State) : State :=
  match s.cards.job with
  | some j => match j.phase with
    | .wrBusy n => (s.sdCommand 13 s.cards.sd.rcaArg).cardJob { j with phase := .wrStatus n }
    | _ => s
  | none => s

/-- SD_BUSY_TIMEOUT (R725). -/
def State.sdBusyTimeout (s : State) : State :=
  match s.cards.job with
  | some j => match j.phase with
    | .wrBusy _ => ((s.modSd fun x => { x with evtTimeout := true }).cardCount 2 1).cardFail true .cardError
    | _ => s
  | none => s

/-- The contact card deactivated at once: its descriptor ends with `CARD_ERROR` (R743, R751, R857). -/
def State.ccOff (s : State) : State :=
  let s1 := s.modCc Cc.deactivate
  if s.cardBusy false then s1.cardFail false .cardError else s1

/-- `SD_PWR_EN` low: a descriptor that uses the card no longer gets an answer (R727, R751). -/
def State.sdOff (s : State) : State :=
  let s1 := s.modSd Sd.off
  if s.cardBusy true then s1.cardFail true .cardGone else s1

/-- `dclk` runs: a descriptor uses the SD port (R630). -/
def State.dclkRuns (s : State) : Bool := s.cardBusy true
/-- `tclk` runs: the contact card's clock is on (R630). -/
def State.tclkRuns (s : State) : Bool := s.cards.cc.khz != 0

/-- A cycle of `mref` passes with nothing commanded (log entry 1, DESIGN CHOICE); the islands whose clock runs only at
times are noted (R630). -/
def State.idle (s : State) : State :=
  { s with
    tick := s.tick + 1
    cards := { s.cards with
      sdRun := if s.dclkRuns then s.tick + 1 else s.cards.sdRun
      ccRun := if s.tclkRuns then s.tick + 1 else s.cards.ccRun } }

/-- Step 8 of family 0x0A. -/
def cardStart (s : State) (d : Desc) : State := if usesSd d then sdStart s d else ccStart s d

end Sys2Proof.Machine
end

