-- ==== Sys2Proof/Machine/Der.lean ====
section
/-!
DEFINITION. DER as far as `PROV_CERT` reads it (R681): tag, length and value items, and the subject public
key of an X.509 certificate (log entry 30, PRESUMED).
-/

namespace Sys2Proof.Machine

/-- Header length and value length of the item at the front of `b`: low tag numbers, definite lengths of at
most three octets in the shortest form. -/
def derHead (b : Bytes) : Option (Nat × Nat) :=
  let l := (byteAt b 1).toNat
  if (byteAt b 0).toNat % 32 = 31 ∨ b.length < 2 then none
  else if l < 128 then some (2, l)
  else
    let k := l - 128
    let v := beNat (slice b 2 k)
    if k = 0 ∨ 3 < k then none
    else if v < 128 ∨ v < 256 ^ (k - 1) then none else some (2 + k, v)

/-- The items that fill `b` exactly, each with its tag; `n` bounds their number. -/
def derItems : Nat → Bytes → Option (List (Byte × Bytes))
  | 0, b => if b = [] then some [] else none
  | n + 1, b =>
    if b = [] then some []
    else match derHead b with
      | none => none
      | some (h, l) =>
        if b.length < h + l then none
        else (derItems n (b.drop (h + l))).map ((byteAt b 0, slice b h l) :: ·)

/-- The items of a byte string. -/
def derList (b : Bytes) : Option (List (Byte × Bytes)) := derItems b.length b

/-- Every constructed item inside, down to depth `n`, is filled by its own items. -/
def derOk : Nat → Bytes → Bool
  | 0, _ => true
  | n + 1, b => match derList b with
    | none => false
    | some l => l.all fun (x : Byte × Bytes) => !x.1.getLsbD 5 || derOk n x.2

/-- Algorithm identifier of a P-384 public key: `ecPublicKey` and `secp384r1`. -/
def p384Alg : Bytes :=
  [0x06, 0x07, 0x2A, 0x86, 0x48, 0xCE, 0x3D, 0x02, 0x01, 0x06, 0x05, 0x2B, 0x81, 0x04, 0x00, 0x22]

/-- The subject public key of a certificate's contents, when it is a P-384 key. -/
def certKey (cert : Bytes) : Option Bytes :=
  match derList cert with
  | some ((_, tbs) :: _) =>
    match derList tbs with
    | some l =>
      let m := match l with
        | (t, _) :: r => if t = 0xA0 then r else l
        | [] => l
      match (m[5]?).map fun (x : Byte × Bytes) => derList x.2 with
      | some (some [(0x30, alg), (0x03, bits)]) =>
        if alg = p384Alg ∧ byteAt bits 0 = 0 ∧ bits.length = 98 then some (bits.drop 1) else none
      | _ => none
    | none => none
  | _ => none

/-- The certificates of a chain that begins with its 52-byte header parse and fill it (R681): their
contents. -/
def chainCerts (b : Bytes) : Option (List Bytes) :=
  if leField b 0 2 ≠ b.length ∨ leField b 2 2 ≠ 0 then none
  else match derList (b.drop 52) with
    | none => none
    | some l =>
      if l ≠ [] ∧ l.all (fun (x : Byte × Bytes) => x.1 == 0x30 && derOk 16 x.2) then
        some (l.map fun (x : Byte × Bytes) => x.2)
      else none

end Sys2Proof.Machine
end

