-- ==== Sys2Proof/Machine/Lcs.lean ====
section
/-!
DEFINITION. Life cycle, debug authorisation, provisioning, factory tests (R663 to R684).
-/

namespace Sys2Proof.Machine

/-! Codes, records (R663, R664, R704). -/

/-- The 32-bit code of a state (R663); `UNRESOLVED` shows all ones (R684). -/
def Lcs.code : Lcs → Word32
  | .blank => 0
  | .test => 0x00003C5A
  | .production => 0x96A53C5A
  | .endOfLife => 0xFFFFFFFF
  | .unresolved => 0xFFFFFFFF

/-- The state of a code. -/
def Lcs.ofCode (w : Word32) : Option Lcs :=
  if w = Lcs.blank.code then some .blank
  else if w = Lcs.test.code then some .test
  else if w = Lcs.production.code then some .production
  else if w = Lcs.endOfLife.code then some .endOfLife else none

/-- The vote over three copies (R664): the state and `VOTE`. -/
def lcsVote (c : List Word32) : Lcs × Nat :=
  let a := c.getD 0 0
  let b := c.getD 1 0
  let d := c.getD 2 0
  let of := fun (w : Word32) => match Lcs.ofCode w with
    | some s => (s, 0)
    | none => (Lcs.unresolved, 1)
  if a = b ∨ a = d then of a else if b = d then of b else (.unresolved, 2)

/-- `TARGET` of a transition. -/
def lcsTarget (n : Nat) : Option Lcs :=
  match n with
  | 1 => some .test
  | 2 => some .production
  | 3 => some .endOfLife
  | _ => none

/-- Number of a target in the life-cycle record; 0 for none (log entry 31, DESIGN CHOICE). -/
def targetByte (t : Option Lcs) : Byte :=
  match t with
  | some .test => 1
  | some .production => 2
  | some .endOfLife => 3
  | _ => 0

/-- The life-cycle record's payload (log entry 31, DESIGN CHOICE). -/
def lcsBytes (t : Option Lcs) (wipe : Bool) : Bytes := [targetByte t, if wipe then 1 else 0]
/-- Its name. -/
def lcsName : RecName := .sys 0x01 0
/-- The owner debug key record's payload (R678, log entry 31, DESIGN CHOICE). -/
def debugKeyBytes (gen : Nat) (key : Bytes) : Bytes := leBytes 4 gen ++ fit 97 key

/-- The public key of the identity key. -/
def idPublic (k : Bytes) : Bytes := curve384.public k

/-- A record of the system area holds something. -/
def State.recHeld (s : State) (t i : Nat) : Bool := (s.nvm.record (.sys t i)).st == .held

/-! Bodies (R668). -/

/-- A life-cycle descriptor with an input. -/
def lcsHasIn (d : Desc) : Bool :=
  d.is .lcsDebugKey || d.is .lcsDebugGrant || d.is .provCert || d.is .provPatch
/-- The bytes that one with an output writes; 0 without. -/
def lcsOut (d : Desc) : Nat := if d.is .lcsDebugNonce then 32 else if d.is .provIdkey then 97 else 0

/-- The reserved bytes of a life-cycle body are zero, an absent `IN` among them (R668). -/
def lcsReserved (d : Desc) : Bool :=
  allZero (d.bytes 17 15) && (d.is .lcsTransition || d.is .provCert || d.fld 16 1 == 0) &&
    (lcsOut d != 0 || (d.ref 48).isZero) && (lcsHasIn d || (d.ref 32).isZero)

/-- The body checks of step 5 (R668, R680 to R682). -/
def lcsCheck5 (d : Desc) : Bool :=
  let n := d.declLen.toNat
  (!d.is .lcsTransition || (lcsTarget (d.fld 16 1)).isSome) && (!d.is .provCert || decide (d.fld 16 1 < 2)) &&
  (lcsOut d == 0 || ((d.ref 48).ok && ((d.ref 48).sgl || decide (lcsOut d ≤ (d.ref 48).len)))) &&
  (!lcsHasIn d || (d.ref 32).ok) &&
  (!d.is .provCert || (decide (52 ≤ n) && decide (n ≤ 16384))) &&
  (!d.is .provPatch || (decide (4 ≤ n) && decide (n ≤ 65536)))

/-- Steps 6 and 7. -/
def lcsRead (s : State) (env : Env) (d : Desc) : Except Bad Got :=
  match crownRead s env d (if lcsHasIn d then some 32 else none) (if lcsOut d ≠ 0 then some 48 else none) with
  | .error e => .error e
  | .ok got => if extsLen got.2.1 < lcsOut d then .error bad6 else .ok got

/-! Transitions (R669, R670). -/

/-- The condition of a transition (R669). -/
def transitionOk (s : State) (t : Lcs) : Bool :=
  match t, s.lcs with
  | .test, .blank => true
  | .production, .test =>
    s.life.idKey.isSome && s.recHeld 0x06 0 && s.recHeld 0x07 0 && s.life.debugGen != 0
  | .endOfLife, .blank => true
  | .endOfLife, .test => true
  | .endOfLife, .production => (s.grantNow.map fun g => g.scope.getLsbD 3).getD false
  | _, _ => false

/-- LCS_TRANSITION at step 8. -/
def lcsTransition (s : State) (t : Lcs) : State :=
  if s.life.pendingTarget = some t then s.crownDone [] [] 0 (leBytes 4 t.code.toNat)
  else
    let s := if t = .production then s.noteTies [.sys 0x06 0, .sys 0x07 0] else s
    if s.life.pendingTarget.isSome ∨ !transitionOk s t then s.crownFail (bad8 .notPermitted)
    else s.crownDone [s.planRec lcsName 0x01 (lcsBytes (some t) s.life.wipe)] [.lcs (some t) s.life.wipe] 0
      (leBytes 4 t.code.toNat)

/-- Some antifuse copy holds a bit of the target beyond the present state's code (R670). -/
def lcsBegun (s : State) (t : Lcs) : Bool :=
  s.life.copies.any fun c => c &&& t.code &&& ~~~s.lcs.code != 0

/-- LCS_CANCEL at step 8. -/
def lcsCancel (s : State) : State :=
  let res := leBytes 4 s.lcs.code.toNat
  match s.life.pendingTarget with
  | none => if s.life.wipe then s.crownFail (bad8 .notPermitted) else s.crownDone [] [] 0 res
  | some t =>
    if s.life.wipe ∨ lcsBegun s t then s.crownFail (bad8 .notPermitted)
    else s.crownDone [s.planRec lcsName 0x01 (lcsBytes none false)] [.lcs none false] 0 res

/-! Debug authorisation (R673 to R678). -/

/-- LCS_DEBUG_NONCE at step 8 (R675). -/
def lcsNonce (s : State) (got : Got) : State :=
  match s.draw 0 32 false with
  | .wait => s.crownDraw
  | .fail s1 => s1.crownFail (bad8 .entropyFail)
  | .ok b _ s1 =>
    let n := s.life.nonceNumber + 1
    s1.crownDone [] [.nonce (some b) n, .hostWrite got.2.1 b] 0 (leBytes 4 n)

/-- A refused attempt, counted in `LCS.GRANTS` (R684). -/
def State.grantRefuse (s : State) (b : Bad) : State :=
  ({ s with life := { s.life with grantsRefused := min 65535 (s.life.grantsRefused + 1) } } : State).crownFail b

/-- The token's fields are as R673 gives. -/
def tokenOk (t : Bytes) : Bool :=
  leField t 0 4 == 0x4B574454 && leField t 4 1 == 1 && leField t 5 1 == 0 && leField t 6 2 != 0 &&
    decide (leField t 6 2 < 16) && decide (leField t 8 4 ≤ 86400) && leField t 12 4 == 0

/-- LCS_DEBUG_GRANT at step 8, orders 1 to 4 (R676); its signature follows. -/
def lcsGrant (s : State) (d : Desc) (got : Got) (env : Env) : State :=
  if s.lcs ≠ .production ∨ s.life.debugGen = 0 then s.grantRefuse (bad8 .notPermitted)
  else if d.declLen ≠ 160 then s.grantRefuse (bad8 .descMalformed)
  else match s.readAll env got.1 with
    | .error b => s.grantRefuse { b with step := 8 }
    | .ok t =>
      if !tokenOk t then s.grantRefuse (bad8 .descMalformed)
      else if s.life.idHash ≠ some (slice t 16 16) then s.grantRefuse (bad8 .notPermitted)
      else
        let s1 : State := { s with life := { s.life with nonce := none } }
        if s.life.nonce ≠ some (slice t 32 32) then s1.grantRefuse (bad8 .notPermitted)
        else (s1.crownKeep (got.1, got.2.1, t)).askCrown false 0x02

/-- The token verified: the grant (R676, R677). -/
def grantMade (s : State) (t : Bytes) : State :=
  let g : Grant := ⟨BitVec.ofNat 16 (leField t 6 2), leField t 8 4, s.rtc⟩
  ({ s with life := { s.life with grantsMade := min 65535 (s.life.grantsMade + 1) } } : State).crownDone []
    [.grant (some g)] 0 (leBytes 2 (leField t 6 2))

/-- LCS_DEBUG_REVOKE at step 8 (R677). -/
def lcsRevoke (s : State) : State :=
  s.crownDone [] [.grant none] 0 (leBytes 2 ((s.grantNow.map fun g => g.scope.toNat).getD 0))

/-- A new owner debug key written (R678). -/
def debugKeyCommit (s : State) (d : Desc) (key : Bytes) : State :=
  let g := s.life.debugGen.toNat + 1
  s.crownDone [s.planRec (.sys 0x09 0) 0x09 (debugKeyBytes g key)] [.debugKey (BitVec.ofNat 32 g) key]
    0 (leBytes 4 g)

/-- LCS_DEBUG_KEY at step 8 (R678). -/
def lcsDebugKey (s : State) (d : Desc) (got : Got) (env : Env) : State :=
  let first := s.life.debugGen == 0
  if first && s.lcs != .test && s.lcs != .production then s.crownFail (bad8 .notPermitted)
  else if d.declLen.toNat ≠ (if first then 97 else 193) then s.crownFail (bad8 .descMalformed)
  else match s.readAll env got.1 with
    | .error b => s.crownFail { b with step := 8 }
    | .ok b =>
      if !pubValid 0x02 (b.take 97) then s.crownFail (bad8 .signetInput)
      else if first then debugKeyCommit s d (b.take 97)
      else (s.crownKeep (got.1, got.2.1, b)).askCrown false 0x02

/-- What the signature of `LCS_DEBUG_KEY` covers. -/
def debugKeyMsg (s : State) (b : Bytes) : Bytes :=
  ascii "WOALE-DEBUG-KEY" ++ leBytes 4 (s.life.debugGen.toNat + 1) ++ b.take 97

/-- DEBUG_GRANT_EXPIRE (R677). -/
def execDebugGrantExpire (s : State) : Host.Outcome State Fault Refusal :=
  .next <| if s.grantNow.isSome then s else { s with life := { s.life with grant := none } }

/-! Provisioning (R679 to R682). -/

/-- PROV_IDKEY at step 8: a candidate scalar is drawn, and a signet engine makes its public key (R344, R399, R680). -/
def provIdkey (s : State) (got : Got) : State :=
  if s.lcs ≠ .test ∨ s.life.idKey.isSome ∨ s.battery.drk.isNone then s.crownFail (bad8 .notPermitted)
  else match s.draw 0 48 false with
    | .wait => s.crownDraw
    | .fail s1 => s1.crownFail (bad8 .entropyFail)
    | .ok b _ s1 => (s1.crownKeep (got.1, got.2.1, b)).askCrown false 0x02

/-- The engine has ended: a scalar out of range is drawn again, by rejection sampling; the key is recorded (R680). -/
def provIdkeyDone (s : State) (got : Got) : State :=
  let k := got.2.2
  if !curve384.scalarOk k then provIdkey s got
  else
    let blob := wrapBlob (s.battery.drk.getD []) 0 0 ⟨0x11, 0, 0, 0, 0, k⟩
    let pub := idPublic k
    s.crownDone [s.planRec (.sys 0x04 0) 0x04 blob] [.idKey k, .hostWrite got.2.1 pub] 0 ((sha384 pub).take 16)

/-- PROV_CERT at step 8. -/
def provCert (s : State) (d : Desc) (got : Got) (env : Env) : State :=
  let slot := d.fld 16 1
  if s.lcs ≠ (if slot = 0 then .test else .production) then s.crownFail (bad8 .notPermitted)
  else match s.life.idKey with
    | none => s.crownFail (bad8 .notPermitted)
    | some k => match s.readAll env got.1 with
      | .error b => s.crownFail { b with step := 8 }
      | .ok b => match chainCerts b with
        | none => s.crownFail (bad8 .descMalformed)
        | some l =>
          if (l.getLast?).bind certKey ≠ some (idPublic k) then s.crownFail (bad8 .notPermitted)
          else s.crownDone [s.planRec (.sys 0x06 slot) 0x06 b] [] 0 (leBytes 4 b.length)

/-- PROV_PATCH at step 8. -/
def provPatch (s : State) (d : Desc) (got : Got) (env : Env) : State :=
  if s.lcs ≠ .test then s.crownFail (bad8 .notPermitted)
  else match s.readAll env got.1 with
    | .error b => s.crownFail { b with step := 8 }
    | .ok b => s.crownDone [s.planRec (.sys 0x07 0) 0x07 (b ++ sha384 b)] [] 0 (b.take 4)

/-- Step 8 of the life-cycle family. -/
def lcsStart (s : State) (d : Desc) (got : Got) (env : Env) : State :=
  if d.is .lcsTransition then
    match lcsTarget (d.fld 16 1) with
    | some t => lcsTransition s t
    | none => s.crownFail (bad8 .descMalformed)
  else if d.is .lcsCancel then lcsCancel s
  else if d.is .lcsDebugKey then lcsDebugKey s d got env
  else if d.is .lcsDebugNonce then lcsNonce s got
  else if d.is .lcsDebugGrant then lcsGrant s d got env
  else if d.is .lcsDebugRevoke then lcsRevoke s
  else if d.is .provIdkey then provIdkey s got
  else if d.is .provCert then provCert s d got env
  else provPatch s d got env

/-! Factory tests (R667, R684). -/

/-- A write to a register that the life cycle opens in TEST only (R666). -/
def State.testWrite (s : State) (f addr : Nat) (act : State → State) : State :=
  s.pfWrite f addr fun x => if x.lcs = .test then act x else x.violation 2 f true addr

/-- What a GDDR6 line of the vault region holds, where it verifies (R410). -/
def State.gddrLine (x : State) (iface idx : Nat) : Option Bytes :=
  let k := lineKey (lineGroup (idx * 64)) iface idx
  if x.vault.lineLives x.vault.lines k && (flawsOf iface idx).all (fun y => !x.vault.flaws.elem y) then
    some (x.vault.lineBytes x.free k)
  else none

/-- The word that a memory test reads where the model holds it (R667): keeper NVM as stored, a vault line that
verifies, a word written by the test before, zeros in SRAM that the test does not cover. Which SRAM word addresses
those are, and what the other words hold, the manual leaves open (log entry 32). -/
def State.mtestWord (x : State) (target w : Nat) : Option (Word64 × Byte) :=
  let page := tget (zeros 256) x.nvm.pages (w / 32)
  if target = 0 ∧ Config.sramHidden w then some (0, 0)
  else if target = 1 ∧ w < 1048576 then
    let d := BitVec.ofNat 64 (leField page (8 * (w % 32)) 8)
    some (match tget none (x.life.mtWords.map fun e => (e.1, some e.2)) (2 ^ 32 + w) with
      | some (v, c) => if v = d then (d, c) else (d, Config.freeBits (2 ^ 62 + w) 8)
      | none => (d, Config.freeBits (2 ^ 62 + w) 8))
  else match (if target < 2 then none else x.gddrLine (target - 2) (w / 8)), tget none
      (x.life.mtWords.map fun e => (e.1, some e.2)) (target * 2 ^ 32 + w) with
    | some b, _ => some (BitVec.ofNat 64 (leField b (8 * (w % 8)) 8), Config.freeBits (2 ^ 62 + w) 8)
    | none, v => v

/-- One access of the memory test (R667, R684). A word written to a GDDR6 line of the vault makes that line fail its
verification (R416). -/
def State.mtest (x : State) : State :=
  let l := x.life
  let w := l.mtAddr.toNat
  let p := w / 32
  if l.mtWrite then
    if (l.mtTarget = 1 ∧ 1048576 ≤ w) ∨ (l.mtTarget = 0 ∧ Config.sramHidden w) then x
    else
      let y : State := { x with life := { l with
        mtWords := (l.mtWords.filter fun e => e.1 != l.mtTarget * 2 ^ 32 + w) ++
          [(l.mtTarget * 2 ^ 32 + w, (l.mtWdata, l.mtCheck))] } }
      if l.mtTarget = 1 then
        let old := tget (zeros 256) x.nvm.pages p
        let b := old.take (8 * (w % 32)) ++ leBytes 8 l.mtWdata.toNat ++ old.drop (8 * (w % 32) + 8)
        { y with nvm := { x.nvm with pages := tset (zeros 256) x.nvm.pages p b } }
      else if l.mtTarget = 0 then y
      else { y with vault := { y.vault with flaws := flawsOf (l.mtTarget - 2) (w / 8) ++ y.vault.flaws } }
  else
    let t := x.freshBytes 9
    let v := (x.mtestWord l.mtTarget w).getD (BitVec.ofNat 64 (leNat (t.1.take 8)), byteAt t.1 8)
    { t.2 with life := { t.2.life with mtRdata := v.1, mtCheck := v.2 } }

/-- MTEST_GO (R684, R667). -/
def execMtestGo (fn : Fin 32) (s : State) : Host.Outcome State Fault Refusal :=
  .next <| s.testWrite fn 0xB0040 State.mtest

/-- An array's test begun; ignored while one runs (R684). -/
def State.mbist (x : State) : State :=
  if x.life.mbBusy then x
  else { x with life := { x.life with
    mbBusy := true, mbDone := false, mbFail := false, mbFailWord := 0, mbLast := x.life.mbArray } }

/-- MBIST_GO (R684). -/
def execMbistGo (fn : Fin 32) (s : State) : Host.Outcome State Fault Refusal :=
  .next <| s.testWrite fn 0xB0058 State.mbist

/-- The array that a test leaves at zero (R667). -/
def State.zeroArray (s : State) (a : Nat) : State :=
  if a < 16 then s.clearFacet a
  else if a = 16 then { s with vault := { s.vault with pip := [], pipZeroed := true } }
  else if a = 17 then
    -- the pinned nodes of L1 to L5 are zero, so an L0 node ever written no longer matches its parent (R411, R418)
    let v := s.vault
    let low := v.nodes.filter fun (e : Nat × Nat) => decide (e.1 < 2 ^ 20)
    { s with vault := { v with
        cached := [], l0 := [], entries := v.stored, nodes := low, flaws := low.map (fun e => VFlaw.node e.1) ++ v.flaws } }
  else if a = 18 then { s with hif := { s.hif with held := [] } }
  else if a = 19 then
    { s with signet := { s.signet with engines := s.signet.engines.map fun (e : Nat × SigEngine) =>
      (e.1, { e.2 with busy := e.2.busy.map fun q =>
        { q with input := zeros q.input.length, rnd := zeros q.rnd.length } }) } }
  else if a = 20 then
    { s with snp := { s.snp with
        run := s.snp.run.map (fun r => { r with counters := [] })
        banks := s.snp.banks.map fun b => zeros b.length } }
  else { s with nvm := { s.nvm with pages := [] } }

/-- MBIST_DONE (R667): the first failing word, or none. -/
def execMbistDone (fail : Option Word32) (s : State) : Host.Outcome State Fault Refusal :=
  .next <|
    if !s.life.mbBusy then s
    else
      ({ s with life := { s.life with
        mbBusy := false, mbDone := true, mbFail := fail.isSome, mbFailWord := fail.getD 0 } } : State).zeroArray
        s.life.mbLast

end Sys2Proof.Machine
end

