-- ==== Sys2Proof/Machine/StartOps.lean ====
section
/-!
DEFINITION. The start ledger and the start steps (chapter 17; R664, R671, R672, R165, R170, R337, R695).
-/

namespace Sys2Proof.Machine

/-! Step codes (R757). -/

/-- The start steps. -/
inductive Step | start | recall | crown | lifecycle | nvmWeak | entropy | keys | kat | host
  | facetBist | gddr6 | nvmLate | lcsWipe | retry | ready
deriving DecidableEq, Repr

/-- Their codes. -/
def Step.code : Step → Nat
  | .start => 0x01 | .recall => 0x02 | .crown => 0x03 | .lifecycle => 0x04 | .nvmWeak => 0x05
  | .entropy => 0x06 | .keys => 0x07 | .kat => 0x08 | .host => 0x09 | .facetBist => 0x10
  | .gddr6 => 0x11 | .nvmLate => 0x12 | .lcsWipe => 0x13 | .retry => 0x1E | .ready => 0x1F

/-! The ledger (R761 to R765). -/

/-- One ledger entry. -/
structure LedgerEntry where
  seq : Nat
  start : Nat
  step : Nat
  phase : Nat
  attempt : Nat
  outcome : Nat
  method : Nat
  crown : Nat
  time : Nat
  param : Nat
deriving DecidableEq, Repr

/-- The 28 bytes before `CRC` (R762). -/
def LedgerEntry.body (e : LedgerEntry) : Bytes :=
  leBytes 4 e.seq ++ leBytes 4 e.start ++ leBytes 1 e.step ++ leBytes 1 e.phase ++ leBytes 1 e.attempt ++
    leBytes 1 e.outcome ++ leBytes 1 e.method ++ leBytes 1 e.crown ++ zeros 2 ++ leBytes 6 e.time ++ zeros 2 ++
    leBytes 4 e.param

/-- The 32 bytes of an entry. -/
def LedgerEntry.bytes (e : LedgerEntry) : Bytes := e.body ++ leBytes 4 (crc32c e.body)

/-- The entry in 32 bytes; none when it is not valid (R765). -/
def ledgerOf (b : Bytes) : Option LedgerEntry :=
  if leField b 28 4 = crc32c (b.take 28) ∧ leField b 0 4 ≠ 0 then
    some ⟨leField b 0 4, leField b 4 4, leField b 8 1, leField b 9 1, leField b 10 1, leField b 11 1,
      leField b 12 1, leField b 13 1, leField b 16 6, leField b 24 4⟩
  else none

/-- The page of entry place `k` (R761). -/
def ledgerPage (k : Nat) : Nat := if k / 8 < 256 then 3584 + k / 8 else 4096 + 3584 + (k / 8 - 256)

/-- The valid entries of the ledger with their places. -/
def Nvm.ledger (n : Nvm) : List (Nat × LedgerEntry) :=
  (List.range 512).flatMap fun p =>
    let b := n.page (ledgerPage (8 * p))
    if allZero b then [] else (List.range 8).filterMap fun i => (ledgerOf (slice b (32 * i) 32)).map (8 * p + i, ·)

/-- The newest entry of a list (R765). -/
def newestEntry (l : List (Nat × LedgerEntry)) : Option (Nat × LedgerEntry) :=
  l.foldl (fun best e => match best with
    | none => some e
    | some b => if b.2.seq < e.2.seq then some e else some b) none

/-- The ledger of start `n`. -/
def Nvm.startLog (v : Nvm) (n : Nat) : List (Nat × LedgerEntry) := v.ledger.filter fun e => e.2.start == n

/-- The newest entry of a step in a start's ledger. -/
def stepEntry (l : List (Nat × LedgerEntry)) (x : Step) : Option LedgerEntry :=
  (newestEntry (l.filter fun e => e.2.step == x.code)).map (·.2)

/-- The place and number of the newest entry are found at the start (R765). -/
def State.ledgerFind (s : State) : State :=
  match newestEntry s.nvm.ledger with
  | some (k, e) => { s with start := { s.start with ledgerPlace := (k + 1) % 4096, ledgerSeq := e.seq } }
  | none => { s with start := { s.start with ledgerPlace := 0, ledgerSeq := 0 } }

/-- The NVM with the ledger entries that wait for the port. -/
def Nvm.withLedger (n : Nvm) : Nvm :=
  (n.writing.toList ++ n.queue).foldl (fun (a : Nvm) w => match w.kind with
    | .ledger off =>
      let b := a.page w.page
      { a with pages := tset (zeros 256) a.pages (a.phys w.page) (b.take off ++ fit 32 w.data ++ b.drop (off + 32)) }
    | _ => a) n

/-- One entry written at the next place, as one burst (R761, R764), through the NVM write clasp and the port (R596, R706):
at once where the port is free, else in its turn. The first failure of a step of this start shows in `FAIL_STEP` (R782). -/
def State.logAs (s : State) (start : Nat) (x : Step) (phase attempt outcome method param : Nat) : State :=
  let k := s.start.ledgerPlace
  let e : LedgerEntry := ⟨s.start.ledgerSeq + 1, start, x.code, phase, attempt, outcome, method,
    (if s.crowns.activeB then 1 else 0), s.rtc % 2 ^ 48, param % 2 ^ 32⟩
  let w : PageWrite := ⟨4, ledgerPage k, e.bytes, .ledger (32 * (k % 8))⟩
  let fail := if outcome = 2 ∧ s.start.failStep = 0 then x.code else s.start.failStep
  let s1 : State := { s with
    start := { s.start with ledgerPlace := (k + 1) % 4096, ledgerSeq := s.start.ledgerSeq + 1, failStep := fail } }
  if s.nvm.writing.isNone && s.nvm.queue.isEmpty && !s.nvm.tripped then
    let t := s1.nvmOutput
    if t.1 then (t.2.putPage w).bump 25 0 1 else t.2
  else s1.askPages [w]

/-- An entry of the present start. -/
def State.log (s : State) (x : Step) (phase attempt outcome method param : Nat) : State :=
  s.logAs s.start.startNumber.toNat x phase attempt outcome method param

/-- The begin entry of a step. -/
def State.stepBegin (s : State) (x : Step) (attempt : Nat := 1) (method : Nat := 0) : State :=
  s.log x 1 attempt 0 method 0
/-- The end entry of a step that made one attempt with its normal method. -/
def State.stepEnd (s : State) (x : Step) (outcome param : Nat) : State := s.log x 2 1 outcome 0 param
/-- A skipped step (R770). -/
def State.stepSkip (s : State) (x : Step) : State := s.log x 3 1 4 0 0

/-- A step still runs between commands. -/
def State.stepRuns (s : State) (x : Step) : Option StepRun := s.start.running.find? fun r => r.step == x.code
/-- It begins to run. -/
def State.stepRun (s : State) (x : Step) (attempt method : Nat) : State :=
  { s with start := { s.start with running := s.start.running ++ [⟨x.code, attempt, method⟩] } }
/-- It no longer runs. -/
def State.stepStop (s : State) (x : Step) : State :=
  { s with start := { s.start with running := s.start.running.filter fun r => r.step != x.code } }

/-- The start is sent to STUCK mode (R754, R770). -/
def State.stick (s : State) : State := { s with start := { s.start with stuck := true } }

/-! What the previous start leaves (R757, R766, R769, R772). -/

/-- A step failed or was interrupted. -/
def LedgerEntry.bad (e : LedgerEntry) : Bool := e.phase == 1 || e.outcome == 2 || e.outcome == 5

/-- A `RETRY` entry stands in a start's ledger. -/
def hasRetry (l : List (Nat × LedgerEntry)) : Bool := l.any fun e => e.2.step == Step.retry.code

/-- The ledger of the previous start: none of its entries count once a `RETRY` has been written. -/
def State.prevLog (s : State) : List (Nat × LedgerEntry) :=
  let l := s.nvm.startLog (s.start.startNumber.toNat - 1)
  if hasRetry l then [] else l

/-- A start tried full training and failed, or skipped the step outside STUCK mode (R758, R770). -/
def fullFailed (l : List (Nat × LedgerEntry)) : Bool :=
  let stuck := match stepEntry l .facetBist with
    | some e => e.outcome == 4
    | none => false
  match stepEntry l .gddr6 with
  | some e => (e.method != 0 && e.bad) || (e.outcome == 4 && !stuck)
  | none => false

/-! START and RECALL. -/

/-- The name of the start record (R767). -/
def startName : RecName := .sys 0x10 0
/-- The name of the GDDR6 training record. -/
def trainName : RecName := .sys 0x11 0

/-- Crown B is the intended active crown: crown A failed the `CROWN` step of the previous start (R600). -/
def intendedB (l : List (Nat × LedgerEntry)) : Bool :=
  match stepEntry l .crown with
  | some e => e.phase == 2 && !bitOf e.param 17
  | none => false

/-- The steps of the previous start that are found interrupted, oldest first, get their entries (R766). -/
def State.logInterrupted (s : State) (prev : Nat) (l : List (Nat × LedgerEntry)) : State :=
  let open_ := l.filter fun e => e.2.phase == 1 && l.all fun d => d.2.step != e.2.step || decide (d.2.seq ≤ e.2.seq)
  (open_.mergeSort fun a b => decide (a.2.seq ≤ b.2.seq)).foldl (fun a e =>
    match [Step.crown, .lifecycle, .nvmWeak, .entropy, .keys, .kat, .host, .facetBist, .gddr6, .nvmLate,
        .lcsWipe].find? fun x => x.code == e.2.step with
    | some x => a.logAs prev x 3 e.2.attempt 5 e.2.method 0
    | none => a) s

/-- The `START` and `RECALL` steps (R764, R766, R768, R769). -/
def State.stepStart (s0 : State) : State :=
  let s := s0.ledgerFind
  let t := s.readRec startName
  let r := t.1
  let torn := ((s.nvm.ledger.map fun e => e.2.start)).foldl max 0
  let prev := match r.st with
    | .held => leField r.payload 0 4
    | .never => 0
    | .torn => torn
  let stored := if r.st = .held then leField r.payload 4 1 else 0
  let l := s.nvm.startLog prev
  let retry := hasRetry l
  let ready := (stepEntry l .ready).isSome
  let consec := if r.st = .never ∨ ready ∨ retry then 0 else min 3 (stored + 1)
  let s1 := t.2
  let s2 : State := { s1 with
    start := { s1.start with startNumber := BitVec.ofNat 32 (prev + 1), consec := consec }
    crowns := { s1.crowns with activeB := !retry && intendedB l } }
  -- the intended active crown writes with the claim of a whole start (R599)
  let s3 := s2.setActive { s2.activeCrown with st := .active, claim := 2 }
  let s4 := s3.putRec startName 0x10 (leBytes 4 (prev + 1) ++ leBytes 1 consec)
  let s5 := s4.log .start 3 1 1 0 (s.start.resetCause + consec * 2 ^ 16)
  (s5.logInterrupted prev l).log .recall 3 1 1 0 s.nvm.recallWeak

/-! CROWN (R592, R599, R600). -/

/-- A crown after a whole start's self-test: `active` with claim 2, standing by with claim 1, or unfit and
looping with claim 0. -/
def Crown.started (c : Crown) (img : Bytes) (fail : Option (Nat × Nat)) (active : Bool) : Crown :=
  let c0 := { c.load img with loops := c.loops + 1 }
  let c1 := match fail with
    | none => { c0 with testNow := 127 }
    | some (t, p) => c0.failed t p
  if active then { c1 with st := .active, claim := 2 }
  else if fail.isNone then { c1 with st := .standby, claim := 1 }
  else { c1 with st := .unfit, claim := 0, loopFails := 1 }

/-- The active crown takes every clasp (R597). -/
def State.takeClasps (s : State) : State :=
  (List.range 4).foldl (fun a k =>
    a.setClasp k ((a.clasp k).take a.crowns.activeB a.activeCrown.claim)) s

/-- The `CROWN` step: a failure is recorded and reported as in a loop (R620). -/
def State.stepCrown (s00 : State) (givenA givenB : Option (Fin 7 × Byte)) : State :=
  let s0 := s00.noteTie (.sys 0x07 0)
  let s := s0.stepBegin .crown
  let img := s.nvm.patchImage
  let fa := firstFail img.isSome givenA
  let fb := firstFail img.isSome givenB
  let a := fa.isNone
  let b := fb.isNone
  let im := img.getD []
  let wantB := s.crowns.activeB
  let k := s.crowns
  let k1 : Crowns :=
    if !a && !b then
      -- crown A from ROM without patch, crown B held in reset (R600)
      { k with activeB := false, a := k.a.started [] fa true
               b := { k.b.started [] fb false with st := .out, claim := 0, heldInReset := true } }
    else
      let act := if wantB then b else !a
      { k with activeB := act, a := k.a.started im fa !act, b := k.b.started im fb act }
  let s2 : State := ({ s with crowns := k1 } : State).takeClasps
  let s3 := if a then s2 else s2.raise 17 0
  let s1 := if b then s3 else s3.raise 17 1
  let param := s1.activeClaim.toNat + (if s1.crowns.activeB then 2 ^ 16 else 0) + (if a then 2 ^ 17 else 0) +
    (if b then 2 ^ 18 else 0)
  if a && b then s1.stepEnd .crown 1 param
  else if a || b then s1.log .crown 2 1 3 1 param
  else (s1.stepEnd .crown 2 param).stick

/-! LIFECYCLE (R664, R671, R672). -/

/-- The copy is programmed: every bit of the target, or only some when it cannot be. -/
def programCopy (old target : Word32) (fails : Bool) (free : Word32) : Word32 :=
  if fails then old ||| (free &&& target) else old ||| target

/-- The records that an END_OF_LIFE start overwrites with zeros (R671 step 3). -/
def wipedRecords : List RecName :=
  [.sys 0x02 0, .sys 0x04 0] ++ (List.range 64).map (RecName.sys 0x03 ·)

/-- A record's pages overwritten with zeros. -/
def Nvm.zeroRec (n : Nvm) (name : RecName) : Nvm :=
  (List.range 2).foldl (fun a c => (List.range (recPages name)).foldl (fun b k =>
    b.put (recFirst name c + k) (zeros 256)) a) n

/-- Step 1 of R671: the flag `WIPE`, not written again where it stands (R672). -/
def State.setWipe (s : State) : State :=
  if s.life.wipe then s
  else { s.putRec lcsName 0x01 (lcsBytes (some .endOfLife) true) with life := { s.life with wipe := true } }

/-- Step 2. -/
def State.eraseDrk (s : State) : State :=
  { s with battery := { s.battery with drk := none, log := [], logSeq := 0, logLost := 0 } }

/-- Step 3. -/
def State.wipeRecords (s : State) : State :=
  if s.nvm.tripped then s else { s with nvm := wipedRecords.foldl (fun n r => n.zeroRec r) s.nvm }

/-- Copy `k` programmed in step 4: every bit of the target, or only some when it cannot be. -/
def State.programAt (s : State) (t : Lcs) (k : Nat) (fails : Bool) : State :=
  let f := s.freshBytes 4
  let c := programCopy (s.life.copies.getD k 0) t.code fails (BitVec.ofNat 32 (leField f.1 0 4))
  { f.2 with life := { f.2.life with copies := f.2.life.copies.set k c } }

/-- The copies that could not be programmed, as they are left after step 4. Which of their bits have taken the target is
free, but two failed copies leave no two copies that agree on a code (R672): where the free bits would, the first two
failed copies keep one bit short of the target each (log entry 62, DESIGN CHOICE). -/
def copiesLeft (old now : List Word32) (t : Lcs) (fails : BitVec 3) : List Word32 :=
  let bad := (List.range 3).filter fails.getLsbD
  if bad.length < 2 ∨ (lcsVote now).1 = .unresolved then now
  else
    let gap := fun (w : Word32) => (List.range 32).filter fun b => t.code.getLsbD b && !w.getLsbD b
    ((List.range 2).map fun i => (bad.getD i 0, i)).foldl (fun l (e : Nat × Nat) =>
      let w := old.getD e.1 0
      l.set e.1 (match (gap w)[e.2]? with
        | some b => t.code &&& ~~~(BitVec.ofNat 32 (2 ^ b))
        | none => w)) now

/-- Steps 1 to 5 of R671, up to the action `cut` where the supply fails; a copy then being programmed has taken some of
its bits. The second answer has a bit for each copy that this start has changed to the target. -/
def State.transition (s : State) (t : Lcs) (fails : BitVec 3) (cut : Nat) : State × Nat :=
  let old := s.life.copies
  let s1 := if t = .endOfLife ∧ 0 < cut then s.setWipe else s
  let s2 := if t = .endOfLife ∧ 1 < cut then s1.eraseDrk else s1
  let s3 := if t = .endOfLife ∧ 2 < cut then s2.wipeRecords else s2
  let s4 := (List.range 3).foldl (fun (a : State) k =>
    if k + 3 < cut then a.programAt t k (fails.getLsbD k)
    else if k + 3 = cut then a.programAt t k true else a) s3
  let count := ofBits ((List.range 3).map fun k => !fails.getLsbD k && old.getD k 0 != s4.life.copies.getD k 0)
  if cut ≤ 6 then (s4, count)
  else
    let s5 := s4.putRec lcsName 0x01 (lcsBytes none false)
    ({ s5 with life := { s5.life with
        copies := copiesLeft old s4.life.copies t fails, pendingTarget := none, wipe := false } }, count)

/-- A pending target is acted on: always the first time, and again where `WIPE` stands or every copy holds only bits of
it (R672). -/
def State.transitionDue (s : State) (t : Lcs) : Bool :=
  s.life.wipe || s.life.copies.all fun c => c &&& ~~~t.code == 0

/-- The life-cycle record as the start reads it. -/
def State.readLcs (s : State) : State :=
  let t := s.readRec lcsName
  let r := t.1
  let target := match r.st with
    | .held => lcsTarget (leField r.payload 0 1)
    | _ => none
  { t.2 with life := { t.2.life with
      pendingTarget := target, wipe := r.st == .held && bitOf (leField r.payload 1 1) 0 } }

/-- The vote latched (R664). -/
def State.voteLcs (s : State) : State :=
  let v := lcsVote s.life.copies
  { s with life := { s.life with current := v.1, vote := v.2 } }

/-- Two bits for a state in `PARAM` (R763). -/
def Lcs.bits : Lcs → Nat
  | .blank => 0 | .test => 1 | .production => 2 | .endOfLife => 3 | .unresolved => 3

/-- The `LIFECYCLE` step. -/
def State.stepLifecycle (s0 : State) (fails : BitVec 3) (cut : Nat) : State :=
  let s := s0.stepBegin .lifecycle
  let s1 := s.readLcs
  let t : State × Nat := match s1.life.pendingTarget with
    | none => (s1, 0)
    | some t => if s1.transitionDue t then s1.transition t fails cut else (s1, 0)
  if cut ≤ 6 then t.1
  else
    let s2 := t.1.voteLcs
    s2.stepEnd .lifecycle 1 (t.2 + 2 ^ 4 * s2.life.vote + 2 ^ 6 * s2.lcs.bits)

/-! NVM_WEAK and NVM_LATE (R695, R702, R768). -/

/-- A weak page is dealt with by `NVM_WEAK`: a page of a system record, or of a live bitmap set. -/
def Nvm.weakEarly (n : Nvm) (p : Nat) : Bool :=
  match n.logical p with
  | none => false
  | some x => (x.blt 16384 && (recOfPage x).isSome) ||
      (match bitmapSetOf x with
        | some k => n.liveSets.elem k
        | none => false)

/-- One weak page rewritten, relocated when the rewrite fails its read-back, or left weak. -/
def State.weakPage (acc : State × Nat × Nat) (p : Nat) (fails : Bool) : State × Nat × Nat :=
  let x := (acc.1.nvm.logical p).getD p
  let s := acc.1.noteTies ((recOfPage x).map (·.1)).toList
  let ones := match bitmapSetOf x with
    | some k => if s.nvm.liveSets.elem k then some k else none
    | none => none
  let data := match ones with
    | some _ => List.replicate 256 0xFF
    | none => s.refreshed x
  let mark := fun (n : Nvm) => match ones with
    | some k => { n with bmWeak := if n.bmWeak.elem k then n.bmWeak else n.bmWeak ++ [k] }
    | none => n
  if !fails then ({ s with nvm := mark (s.nvm.put x data) }, acc.2.1 + 1, acc.2.2)
  else match s.nvm.relocate x data s.claim with
    | some n => ({ s.noteTie (.sys 0x0C 0) with nvm := mark { n with
        tie := (s.noteTie (.sys 0x0C 0)).nvm.tie, weak := n.weak.filter fun w => w != p } }, acc.2.1, acc.2.2 + 1)
    | none => (s, acc.2)

/-- The `NVM_WEAK` step: it fails when the remap record or the start record has no valid copy, or the
start record was torn when the start read it. -/
def State.stepWeak (s0 : State) (torn : Bool) (pageFails : List Nat) : State :=
  let s := (s0.stepBegin .nvmWeak).noteTies [.sys 0x0C 0, .sys 0x0A 0]
  if torn || (s.nvm.record (.sys 0x0C 0)).st == .torn then (s.stepEnd .nvmWeak 2 0).stick
  else
    let t := (s.nvm.weak.filter s.nvm.weakEarly).foldl (fun a p => State.weakPage a p (pageFails.elem p)) (s, 0, 0)
    t.1.stepEnd .nvmWeak 1 (t.2.1 + 2 ^ 16 * t.2.2)

/-! ENTROPY (R378, R382). -/

/-- The instances instantiated, as a mask. -/
def State.instMask (s : State) : Nat := ofBits ((List.range 4).map fun i => (s.drbg i).instantiated)

/-- The identity key as its record and the DRK give it; an `UNRESOLVED` device uses neither (R665). -/
def State.idKeyRead (s : State) : Option Bytes :=
  let r := s.nvm.record (.sys 0x04 0)
  match r.st, s.battery.drk with
  | .held, some d => if s.lcs = .unresolved then none else (unwrapBlob d 0 r.payload).map (·.mat)
  | _, _ => none

/-- The first 16 bytes of the personalization strings (R382, R680): `ID_HASH`, or the serial number where the device
has no identity key. -/
def State.personalBytes (s : State) : Bytes :=
  match s.idKeyRead with
  | some k => (sha384 (idPublic k)).take 16
  | none => leBytes 8 Config.serial.toNat ++ zeros 8

/-- The `ENTROPY` step begins: the source starts. -/
def State.beginEntropy (s : State) : State :=
  let s1 := (s.stepBegin .entropy).stepRun .entropy 1 0
  { s1.noteTie (.sys 0x04 0) with signet := { s1.signet.entStart with stepTests := 0, personal := s1.personalBytes } }

/-- It ends. -/
def State.endEntropy (s : State) (ok : Bool) : State :=
  let s1 := (s.stepStop .entropy).stepEnd .entropy (if ok then 1 else 2) (s.instMask + 2 ^ 4 * s.signet.stepTests)
  if ok then s1 else s1.stick

/-! KEYS (R165, R170, R337, R492). -/

/-- The domain key in a domain-key record's payload, unwrapped under the DRK. -/
def State.domainKeyOf (s : State) (b : Bytes) : Option Bytes :=
  match s.battery.drk with
  | none => none
  | some d => (unwrapBlob d (leField b 4 4) (slice b 12 (leField b 8 4))).map (·.mat)

/-- The custody state derived (R170): `made` says that a DRK was generated at this start. A DRK generated at this start
beside a torn domain-key record stands in no row of R170's table; a torn record gives `ERASED` with either DRK
(log entry 49, DEDUCED). An `UNRESOLVED` device uses neither the DRK nor the record (R665) and shows `ERASED` too, as one
in END_OF_LIFE whose DRK is gone (log entry 62, DEDUCED). `DEVICE_NUMBER` and `DOMAIN_ID` are 0 wherever the domain key is
not held, although a record may hold them in clear (log entry 49, DESIGN CHOICE). -/
def State.deriveCustody (s : State) (made : Bool) : State :=
  let t := s.readRec domainName
  let r := t.1
  let s1 := t.2
  let set := fun (x : State) (c : Custody) (k : Option Bytes) =>
    { x with keys := { x.keys with
        custody := c, domainKey := k,
        deviceNumber := if k.isSome then byteAt r.payload 0 else 0
        domainId := if k.isSome then BitVec.ofNat 32 (leField r.payload 4 4) else 0 } }
  if s1.battery.drk.isNone || s1.lcs = .unresolved then set s1 .erased none
  else match r.st with
    | .never => set s1 .noDomain none
    | .torn => set s1 .erased none
    | .held =>
      if made then set s1 .erased none
      else match s1.domainKeyOf r.payload with
        | none => set s1 .erased none
        | some dk =>
          let s2 := set s1 .ready (some dk)
          if bitOf (byteAt r.payload 1).toNat 0 then
            -- steps 3 and 4 of R214
            let w := s2.rewrap dk (leField r.payload 4 4)
            let s3 := w.1.foldl (fun (a : State) (x : RecWrite) => a.putRec x.name x.type x.payload) s2
            s3.putRec domainName 0x02 (s3.domainBytes s3.keys.deviceNumber s3.keys.domainId dk false)
          else s2

/-- The identity key, the signer record, the owner debug key and the vault record are read. A vault in its standing state or
`MOVED` has a committed checkpoint to be imported (R407). -/
def State.loadRecords (s0 : State) : State :=
  let s := s0.noteTies [.sys 0x04 0, .sys 0x08 0, .sys 0x09 0, .sys 0x0A 0]
  let get := fun (t i : Nat) =>
    let r := s.nvm.record (.sys t i)
    if r.st = .held ∧ s.lcs ≠ .unresolved then some r.payload else none
  let id := s.idKeyRead
  let sg := get 0x08 0
  let dbg := get 0x09 0
  let v := s.nvm.record (.sys 0x0A 0)
  let used := s.lcs != .unresolved
  let rec_ := match v.st, used with
    | .held, true => vrecordOf v.payload
    | _, _ => {}
  { s with
    life := { s.life with
      idKey := id
      idHash := id.map fun k => (sha384 (idPublic k)).take 16
      debugGen := BitVec.ofNat 32 ((dbg.map fun b => leField b 0 4).getD 0)
      debugKey := (dbg.map fun b => slice b 4 97).getD [] }
    applets := { s.applets with
      gen := BitVec.ofNat 32 ((sg.map fun b => leField b 0 4).getD 0)
      signerEc := (sg.map fun b => slice b 4 97).getD []
      signerMl := (sg.map fun b => b.drop 101).getD [] }
    vault := { s.vault with
      record := rec_, recordWritten := v.st != .never, recordTorn := v.st == .torn
      st := .none }
    start := { s.start with holdVault := used && (v.st == .torn || (v.st == .held && rec_.vstate != 0)) } }

/-- Page sets that no epoch of the vault record needs are to be cleared; a torn record tells none, and its sets stay (R405,
R427). -/
def State.clearOld (s : State) : State := if s.vault.recordTorn then s else s.releaseSets

/-- Facet `f`'s staging key is drawn (R236, R524). -/
def State.drawStaging (s : State) (f : Nat) : State :=
  match s.draw 3 32 false with
  | .ok b _ s1 => s1.modFacet f fun x => { x with stageKey := some b }
  | .wait => s
  | .fail s1 => s1

/-- The token key is drawn (R492), and then the facets' staging keys in facet order; the request waits for a pool
block where it must, and is made again after an `ENTROPY_FAIL` (R383, R385; log entry 52, DESIGN CHOICE). -/
def State.drawTk (s : State) : State :=
  match s.draw 3 16 false with
  | .ok b _ s1 =>
    (List.range 16).foldl State.drawStaging { s1 with pip := { s1.pip with tk := BitVec.ofNat 128 (leNat b) } }
  | .wait => s.waitFor .inst3
  | .fail s1 => s1.waitFor .inst3

/-- The end of the `KEYS` step. -/
def State.endKeys (s : State) (made : Bool) : State :=
  let s1 := (s.stepStop .keys).deriveCustody made
  let s2 := (List.range 8).foldl (fun (a : State) i => a.loadHallmark (56 + i)) s1
  let s3 := s2.loadRecords.vaultKeys.clearOld.drawTk
  let c := match s3.keys.custody with
    | .noDomain => 0
    | .ready => 1
    | .erased => 2
  if s3.battery.drk.isSome then s3.stepEnd .keys 1 (c + if made then 4 else 0)
  else (s3.stepEnd .keys 2 c).stick

/-- A draw of the DRK has failed: it is repeated after 1 ms, 100 ms long (R165). -/
def State.drkFail (s : State) : State :=
  let n := ((s.stepRuns .keys).map (·.attempt)).getD 0
  let y : State := { s with start := { s.start with running := s.start.running.map fun r =>
    if r.step = Step.keys.code then { r with attempt := n + 1 } else r } }
  if 100 ≤ n + 1 then y.endKeys false else y

/-- A fresh DRK is drawn from instance 0; the draw may wait for a pool block, and one that fails is repeated
(R165, R383). -/
def State.drawDrk (s : State) : State :=
  match s.draw 0 32 false with
  | .ok b _ s1 => ({ s1 with battery := { s1.battery with drk := some b } } : State).endKeys true
  | .wait => s.waitFor .drk
  | .fail s1 => s1.drkFail

/-- The `KEYS` step begins. -/
def State.beginKeys (s : State) : State :=
  let s1 := (s.stepBegin .keys).stepRun .keys 0 0
  if s1.battery.drk.isSome then s1.endKeys false else s1.drawDrk

/-! SIGNET_KAT and HOST. -/

/-- The `SIGNET_KAT` step: an engine that fails is out of service (R399, R760). -/
def State.stepKat (s0 : State) : State :=
  let s := s0.stepBegin .kat
  let mask := ofBits ((List.range 12).map fun n => !(s.engine n).katFail)
  s.stepEnd .kat (if mask = 4095 then 1 else 2) mask

/-- Rings left from before the start are none; S2 ends and the host is served (R61). -/
def State.stepHost (s0 : State) : State :=
  let s := (s0.stepBegin .host).stepEnd .host 1 0
  let stuck := s.start.stuck || s.start.consec == 3
  { s with
    start := { s.start with stage := 3, stuck := stuck }
    link := { s.link with ready := !s.link.perst }
    out := { s.out with readyStatus := !s.link.perst && s.link.cfg.readiness } }

/-! S3 steps (R757, R758, R763). -/

/-- Facet `f` failed at the previous start: neither in service nor fenced untested (R757). -/
def lastFailed (l : List (Nat × LedgerEntry)) (f : Nat) : Bool :=
  match stepEntry l .facetBist with
  | some e => e.phase == 2 && !bitOf e.param f && !bitOf e.param (16 + f)
  | none => false

/-- The facet's state. -/
def State.setFct (s : State) (f : Nat) (x : FctSt) : State :=
  { s with start := { s.start with facets := tset .untested s.start.facets f x } }

/-- The `FACET_BIST` step begins. -/
def State.beginBist (s : State) : State :=
  let l := s.prevLog
  let s1 := (s.stepBegin .facetBist).stepRun .facetBist 1 0
  (List.range 16).foldl (fun (a : State) f =>
    if a.fctState f = .fencedAlarm then a
    else if lastFailed l f then a.setFct f .fencedStart
    else
      let b := a.setFct f .bist
      { b with start := { b.start with bistLeft := b.start.bistLeft ||| BitVec.ofNat 16 (2 ^ f) } }) s1

/-- Every cluster's state (R831). -/
def State.setClus (s : State) (g : Clu → Clu) : State :=
  { s with clus := (List.range 4).foldl (fun t c => tmod {} t c g) s.clus }

/-- GDDR6 is out of service until the next whole start (R759). -/
def State.gddrDrop (s : State) : State :=
  ({ s with start := { s.start with gddrOut := true, gddrTrained := false, gddrRate := 0, holdVault := false } } :
    State).setClus fun c => { c with state := 4 }

/-- Training begins: stored, or full. -/
def State.beginTraining (s : State) (attempt method : Nat) : State :=
  ((s.stepBegin .gddr6 attempt method).stepRun .gddr6 attempt method).setClus fun c =>
    { c with state := method + 1, trainMethod := method + 1 }

/-- The `GDDR6` step begins (R758). -/
def State.beginGddr (s : State) : State :=
  let n := s.start.startNumber.toNat
  let l1 := s.nvm.startLog (n - 1)
  let l2 := s.nvm.startLog (n - 2)
  if 2 < n && fullFailed l1 && fullFailed l2 && !hasRetry l1 && !hasRetry l2 then
    (s.stepSkip .gddr6).gddrDrop
  else
    let t := s.readRec trainName
    let passed := hasRetry l1 || (match stepEntry l1 .gddr6 with
      | some e => e.phase == 2 && (e.outcome == 1 || e.outcome == 3)
      | none => false)
    if t.1.st = .held ∧ passed then
      let s1 : State := { t.2 with start := { t.2.start with ratesRecord := t.1.payload } }
      s1.beginTraining 1 0
    else t.2.beginTraining 1 1

/-- The `GDDR6` step ends. -/
def State.endGddr (s : State) (attempt outcome method param : Nat) : State :=
  (s.stepStop .gddr6).log .gddr6 2 attempt outcome method param

/-- All four interfaces have trained at a rate (R36, R38). -/
def State.gddrUp (s : State) (rate : Nat) : State :=
  ({ s with start := { s.start with gddrTrained := true, gddrRate := rate } } : State).setClus fun c =>
    { c with state := 3 }

/-- What a training has left in the CLU registers (R831). -/
def Clu.trained (c : Clu) (t : Training) : Clu :=
  { c with trainTime := t.time, failValid := t.failRate != 0, failRate := t.failRate, failDq := t.failDq }

/-- GDDR6_TRAINING_DONE (R758, R830). -/
def State.trainingDone (s : State) (t : Training) : State :=
  match s.stepRuns .gddr6 with
  | none => s
  | some r =>
    let s1 := s.setClus (·.trained t)
    let ok := t.trained == 15 && t.rate.isSome
    if r.method = 0 then
      if ok then (s1.gddrUp (leField s1.start.ratesRecord 0 1)).endGddr r.attempt 1 0 15
      else (s1.endGddr r.attempt 2 0 t.trained.toNat).beginTraining 2 1
    else if ok then
      let rate := t.rate.getD 0
      ((s1.putRec trainName 0x11 (leBytes 1 rate)).gddrUp rate).endGddr r.attempt 3 1 31
    else (s1.endGddr r.attempt 2 1 t.trained.toNat).gddrDrop

/-- Class of a weak page's rewrite at the port (R706). -/
def weakClass (p : Nat) : Nat := if 16384 ≤ p then 5 else if (bitmapSetOf p).isSome then 6 else 4

/-- The `NVM_LATE` step begins: every other weak page is to be rewritten. -/
def State.beginLate (s : State) : State :=
  let l := (s.nvm.weak.filter fun p => !s.nvm.weakEarly p).map fun p =>
    let x := (s.nvm.logical p).getD p
    (⟨weakClass x, x, [], .refresh true⟩ : PageWrite)
  ((s.stepBegin .nvmLate).stepRun .nvmLate 0 0).askPages l

/-- Its end: no such rewrite waits or runs; the counts are kept in the running step. -/
def State.lateGo (s : State) : State :=
  match s.stepRuns .nvmLate with
  | none => s
  | some r =>
    if (s.nvm.writing.toList ++ s.nvm.queue ++ s.nvm.moving.map (·.1)).any fun w =>
        w.kind == .refresh true || w.kind == .moved true then s
    else (s.stepStop .nvmLate).stepEnd .nvmLate 1 (r.attempt % 2 ^ 16 + 2 ^ 16 * (r.method % 2 ^ 16))

/-- The end of the `FACET_BIST` step (R757). -/
def State.bistGo (s : State) : State :=
  match s.stepRuns .facetBist with
  | none => s
  | some _ =>
    if s.start.bistLeft ≠ 0 then s
    else
      let live := fun f => s.fctState f == .inService || s.fctState f == .narrow
      let l := s.prevLog
      let up := ofBits ((List.range 16).map live)
      let untested := ofBits ((List.range 16).map fun f => s.fctState f == .fencedStart && lastFailed l f)
      let s1 := (s.stepStop .facetBist).stepEnd .facetBist (if up = 0 then 2 else 1) (up + 2 ^ 16 * untested)
      if up = 0 then s1.stick else s1

/-- The wipe of END_OF_LIFE is due: no ledger entry shows that it has passed (R672). -/
def State.wipeDue (s : State) : Bool :=
  s.lcs == .endOfLife &&
    !(s.nvm.ledger.any fun e => e.2.step == Step.lcsWipe.code && e.2.phase == 2 && e.2.outcome == 1)

/-- `READY` (R769, R774). -/
def State.stepReady (s : State) : State :=
  let n := ((List.range 16).filter fun f => s.fctState f == .inService || s.fctState f == .narrow).length
  let s1 := s.log .ready 3 1 1 0 n
  { s1 with start := { s1.start with holdSteps := false } }

/-- The steps of S3 that run together have ended: the wipe follows where it is due, then `READY`; in STUCK
mode the wipe is skipped and no `READY` is written (R770). -/
def State.s3Go (s : State) : State :=
  if s.start.stage ≠ 3 ∨ !s.start.holdSteps ∨ s.start.running ≠ [] ∨ s.start.consec = 3 then s
  else if s.start.stuck then
    if (stepEntry (s.nvm.withLedger.startLog s.start.startNumber.toNat) .lcsWipe).isSome then s else s.stepSkip .lcsWipe
  else if s.start.holdWipe then
    let s1 := (s.stepBegin .lcsWipe).stepRun .lcsWipe 1 0
    { s1 with life := { s1.life with wiping := true, pagesLeft := 16384 } }
  else s.stepReady

/-- S3 begins; in STUCK mode its steps are skipped (R770). -/
def State.beginS3 (s : State) : State :=
  if s.start.stuck then
    [Step.facetBist, .gddr6, .nvmLate, .lcsWipe].foldl (fun (a : State) x => a.stepSkip x) s
  else
    let s1 := s.beginBist.beginGddr.beginLate
    { s1 with start := { s1.start with holdWipe := s1.wipeDue } }

/-- LCS_WIPE_DONE (R671 step 7). -/
def State.wipeDone (s : State) : State :=
  match s.stepRuns .lcsWipe with
  | none => s
  | some _ =>
    let c := s.nvmOutput
    let s := c.2
    let n := s.nvm
    if n.tripped || !c.1 then s else
    let s1 : State := { s with
      nvm := { n with
        pages := n.pages.filter fun (e : Nat × Bytes) => decide (e.1 < 16384)
        weak := n.weak.filter fun p => decide (p < 16384), writes := n.writes + 16384 }
      life := { s.life with wiping := false, pagesLeft := 0 }
      start := { s.start with holdWipe := false } }
    ((s1.stepStop .lcsWipe).stepEnd .lcsWipe 1 0).bump 25 0 16384

/-! The climb through S2. -/

/-- The steps of S2 after the one that has ended; each goes on at once unless it waits (R757). In STUCK
mode only `KEYS` and `HOST` still run (log entry 24, DEDUCED). -/
def State.afterKeys (s : State) : State :=
  let s1 := if s.start.stuck then
      ((List.range 12).foldl (fun (a : State) n => a.setEngine n { a.engine n with katFail := false }) s).stepSkip .kat
    else s.stepKat
  s1.stepHost.beginS3

/-- What follows `KEYS` once it has ended. -/
def State.keysGo (s : State) : State := if (s.stepRuns .keys).isSome then s else s.afterKeys

/-- `KEYS`, and what follows. -/
def State.fromKeys (s : State) : State := s.beginKeys.keysGo

/-- `ENTROPY` goes on: it passes once every instance is instantiated, and fails with the source. -/
def State.entropyGo (s : State) : State :=
  match s.stepRuns .entropy with
  | none => s
  | some _ =>
    if s.signet.ent = .failed then (s.endEntropy false).fromKeys
    else if s.instMask = 15 then (s.endEntropy true).fromKeys else s

/-- `START` and `CROWN`. -/
def State.s2First (s : State) (r : S2Results) : State := s.stepStart.stepCrown r.crownA r.crownB

/-- The supply fails while `LIFECYCLE` acts on a pending target (R672). -/
def State.cutTaken (s1 : State) (r : S2Results) : Bool :=
  let x := s1.readLcs
  r.cut.isSome && !s1.start.stuck && x.life.pendingTarget.any x.transitionDue

/-- `LIFECYCLE`. -/
def State.s2Lcs (s1 : State) (r : S2Results) : State :=
  if s1.start.stuck then (s1.stepSkip .lifecycle).readLcs.voteLcs
  else s1.stepLifecycle r.copyFails (if s1.cutTaken r then (r.cut.map (·.val)).getD 7 else 7)

/-- The steps of S2 after `LIFECYCLE`; `torn` says how the start record was found. -/
def State.s2Rest (s2 : State) (torn : Bool) (r : S2Results) : State :=
  let s3 := if s2.start.stuck then s2.stepSkip .nvmWeak else s2.stepWeak torn r.pageFails
  if s3.start.stuck then (s3.stepSkip .entropy).fromKeys else s3.beginEntropy

end Sys2Proof.Machine
end

