-- ==== Sys2Proof/Machine/Onward.lean ====
section
/-!
DEFINITION. What follows of itself once a command has changed the state: waits that are over, facets and
strands that go on, start steps that end, the step from S3 to S4, high-water marks.
-/

namespace Sys2Proof.Machine

/-! Holds (R407, R759, R774). -/

/-- The hold of R407 applies: the start found a committed checkpoint or a torn vault record, and the vault
is not in service yet. -/
def State.vaultHold (s : State) : Bool :=
  s.start.holdVault &&
    (s.vault.st == .none || (!s.vault.recordTorn && (s.vault.st == .loading || s.vault.st == .recovering)))

/-- `GLB.STAGE.HOLD` (R774). -/
def State.holds (s : State) : Nat := ofBits [s.start.holdSteps, s.vaultHold, s.start.holdWipe]

/-- S4 is entered with the last hold's end; the narrow facet then serves like the others (R752, R774). -/
def State.stageUp (s : State) : State :=
  if s.start.stage = 3 ∧ !s.start.stuck ∧ s.holds = 0 then
    let l := s.start.facets.map fun (e : Nat × FctSt) => (e.1, if e.2 = .narrow then FctSt.inService else e.2)
    { s with start := { s.start with stage := 4, facets := l } }
  else s

/-! The narrow facet (R773). -/

/-- Facet `f` holds no work. -/
def State.facetIdle (s : State) (f : Nat) : Bool := (s.facet f).msgs.isEmpty && (s.facet f).queue.isEmpty

/-- A facet has passed its BIST: in S3 the first that passes is the narrow facet, and a lower-indexed one
takes its place while it holds no work (log entry 25, DEDUCED). -/
def State.facetPassed (s : State) (f : Nat) : State :=
  if s.start.stage ≠ 3 ∨ s.start.stuck then s.setFct f .inService
  else match (List.range 16).find? fun g => s.fctState g == .narrow with
    | none => s.setFct f .narrow
    | some g =>
      if f < g ∧ s.facetIdle g then (s.setFct g .inService).setFct f .narrow else s.setFct f .inService

/-- The narrow facet has left service: the lowest-indexed one in service takes its place. -/
def State.narrowGo (s : State) : State :=
  if s.start.stage ≠ 3 ∨ s.start.stuck ∨ ((List.range 16).any fun g => s.fctState g == .narrow) then s
  else match (List.range 16).find? fun g => s.fctState g == .inService with
    | none => s
    | some g => s.setFct g .narrow

/-! High-water marks (R828, R831). -/

/-- The high-water marks of a facet's staging and of its cluster's. -/
def State.noteHwm (s : State) : State :=
  let fr := (List.range 16).foldl (fun t f =>
    if (s.facet f).msgs.isEmpty then t
    else tmod {} t f fun (x : FctRegs) => { x with
      hwmOnChip := max x.hwmOnChip (ceilDiv (s.onChipUsed f) 1024)
      hwmGddr := max x.hwmGddr (ceilDiv ((((s.facet f).msgs.map (·.gddrBytes)).foldl (· + ·) 0)) (2 ^ 20)) }) s.fctRegs
  let cl := (List.range 4).foldl (fun t c =>
    if s.gddrUsed c = 0 then t
    else tmod {} t c fun (x : Clu) => { x with stageHwm := max x.stageHwm (ceilDiv (s.gddrUsed c) (2 ^ 20)) }) s.clus
  { s with fctRegs := fr, clus := cl }

/-- What follows of itself. -/
def State.onward (s : State) : State :=
  let s1 := s.hallmarkGo.appGo.vaultGo.scanGo.strandsGo
  let s2 := s1.lateGo.bistGo.entropyGo.s3Go.narrowGo.stageUp
  s2.schedAll.noteHwm

end Sys2Proof.Machine
end

