-- ==== Sys2Proof/Machine/Start.lean ====
section
/-!
DEFINITION. Stages, whole starts, results of start steps, facet resets and fences (R752 to R782).
-/

namespace Sys2Proof.Machine

/-! Whole starts (R637, R652, R753, R776, R777, R820). -/

/-- Both `VDD_KPR` and `VBAT` are gone: DRK and tamper log are lost, and the real-time clock counts from zero
again (R164, R658). -/
def State.batteryLost (s : State) : State :=
  let t := s.tick * 32768 / 250000000
  { s with battery := { s.battery with
      drk := none, log := [], logSeq := 0, logLost := 0, rtc := (2 ^ 64 - t % 2 ^ 64) % 2 ^ 64 } }

/-- The NVM at a whole start: its cells stay, everything else is read again or at its reset value. -/
def Nvm.restart (n : Nvm) : Nvm := { pages := n.pages, weak := n.weak }

/-- The battery domain at a whole start: its copies follow the registers' reset values (R652, R820). -/
def Battery.restart (b : Battery) (onCell industrial : Bool) : Battery :=
  { b with
    onCell := onCell, purgedOnCell := onCell && b.purgedOnCell, sampler := false
    copyCfg := {}, copyHigh := if industrial then 125 else 120, copyLow := if industrial then -55 else -20 }

/-- The device at the beginning of a whole start for a reset cause, in stage S1 (R776, R777): what is
volatile is cleared; NVM, antifuses, battery domain and the levels of pins stay. -/
def State.wholeStart (s : State) (cause : Nat) (onCell : Bool) : State :=
  let ind := s.glb.grade
  { pending := s.pending, free := s.free, tick := s.tick, hostMem := s.hostMem
    nvm := s.nvm.restart
    battery := s.battery.restart onCell ind
    life := { copies := s.life.copies }
    cards := {
      sd := { present := s.cards.sd.present, wp := s.cards.sd.wp, st := if s.cards.sd.present then .present else .absent }
      cc := { present := s.cards.cc.present } }
    link := { perst := s.link.perst, dlUp := s.link.dlUp, width := s.link.width, rate := s.link.rate, flit := s.link.flit }
    tamper := { tempHigh := if ind then 125 else 120, tempLow := if ind then -55 else -20 }
    start := { resetCause := cause, pwrGood := s.start.pwrGood, sysResetN := cause != 2 }
    glb := { grade := s.glb.grade, clamshell := s.glb.clamshell } }

/-- KEEPER_POR (R752): `VDD_KPR` has risen from S0. -/
def execKeeperPor (s : State) : Host.Outcome State Fault Refusal :=
  .next <|
    if s.start.stage ≠ 0 then s
    else
      let s1 := if s.battery.vbat then s else s.batteryLost
      s1.wholeStart 1 s.battery.vbat

/-- S0: main power is lost, and the battery domain alone runs, with the copies as they stood (R652, R649). -/
def State.goDark (s : State) : State :=
  let s1 := s.wholeStart 1 true
  let s2 : State := { s1 with
    battery := { s.battery with sampler := true, onCell := s.battery.vbat, purgedOnCell := false }
    tamper := { s1.tamper with mons := s.tamper.mons.map fun (e : Nat × Monitor) =>
      (e.1, { monReset e.1 with cellN := e.2.cellN, cellHigh := e.2.cellHigh }) }
    start := { s1.start with stage := 0, pwrGood := false } }
  if s.battery.vbat then s2 else s2.batteryLost

/-- `PWR_GOOD` falls: the hold-up detector trips; how many bursts of a page in progress are complete is left open. With
`VDD_KPR` the device stands in S1, and the battery domain keeps its copies until the next climb, the whole start (R652,
R753); without, in S0. -/
def State.pwrFall (s : State) (kprHolds : Bool) : State :=
  let f := s.freshBytes 1
  let s1 := f.2.trip (byteAt f.1 0).toNat.log2 true
  if kprHolds then
    if s.start.stage = 1 then { s1 with start := { s1.start with pwrGood := false } }
    else
      let s2 := s1.wholeStart 1 false
      { s2 with
        battery := { s2.battery with
          copyCfg := s.battery.copyCfg, copyHigh := s.battery.copyHigh, copyLow := s.battery.copyLow }
        start := { s2.start with pwrGood := false } }
  else s1.goDark

/-- PWR_GOOD_FALL (R691, R753). -/
def execPwrGoodFall (kprHolds : Bool) (s : State) : Host.Outcome State Fault Refusal :=
  .next <| if s.start.stage = 0 then s else s.pwrFall kprHolds

/-- SYS_RESET_N (R637, R691, R776): a whole start with cause 2. -/
def execSysResetN (s : State) : Host.Outcome State Fault Refusal :=
  .next <|
    if s.start.stage = 0 then s
    else
      let f := s.freshBytes 1
      (f.2.trip (byteAt f.1 0).toNat.log2 true).wholeStart 2 false

/-- A whole start asked for in `GLB.RESET`: a wrong key is a violation (R782). -/
def State.resetBy (x : State) (key : BitVec 16) : State :=
  if key ≠ 0x4B57 then x.violation 4 0 true 0x4C
  else
    let f := x.freshBytes 1
    (f.2.trip (byteAt f.1 0).toNat.log2 true).wholeStart 3 false

/-- RESET_WHOLE (R782). -/
def execResetWhole (fn : Fin 32) (key : BitVec 16) (s : State) : Host.Outcome State Fault Refusal :=
  .next <| s.pfWrite fn 0x4C fun x => x.resetBy key

/-- S2_ENTRY (R752, R756): recall has ended, `PWR_GOOD` and `SYS_RESET_N` are high; the start steps of S2
run, with what no rule computes of their results given; the supply may fail while a pending life-cycle target is acted
on (R672). -/
def execS2Entry (r : S2Results) (s : State) : Host.Outcome State Fault Refusal :=
  .next <|
    if s.start.stage ≠ 1 ∨ s.nvm.recalling then s
    else
      let vid := if 40 < r.vid.toNat then 40 else r.vid
      let s1 : State := { s with
        start := { s.start with stage := 2, pwrGood := true, sysResetN := true }
        glb := { s.glb with vid := vid }
        nvm := { s.nvm with tripped := false }
        battery := { s.battery.restart s.battery.onCell s.glb.grade with sampler := s.battery.sampler } }
      let s2 := (List.range 12).foldl (fun (a : State) n =>
        a.setEngine n { a.engine n with katFail := !r.kat.getLsbD n }) s1
      let s3 := s2.s2First r
      let s4 := s3.s2Lcs r
      if s3.cutTaken r then s4.pwrFall true
      else (s4.s2Rest ((s2.nvm.record startName).st == .torn) r).onward

/-! Results of start steps. -/

/-- DRK_DRAW_RETRY (R165). -/
def execDrkDrawRetry (s : State) : Host.Outcome State Fault Refusal :=
  .next <|
    -- a draw that waits for a pool block still is not repeated yet
    if (s.stepRuns .keys).isNone ∨ s.signet.waits.elem .drk then s else s.drawDrk.keysGo.onward

/-- STARTUP_TEST_DONE (R378, R380, R382). -/
def execStartupTestDone (rct apt : Bool) (s : State) : Host.Outcome State Fault Refusal :=
  .next <|
    if s.start.stage < 2 ∨ s.signet.ent ≠ .startup ∨ s.signet.settling then s
    else (s.startupTest rct apt).onward

/-- ENTROPY_INSTANTIATION_LIMIT (R382): 100 ms have passed since the step's begin entry. -/
def execEntropyInstantiationLimit (s : State) : Host.Outcome State Fault Refusal :=
  .next <|
    if (s.stepRuns .entropy).isNone then s else ((s.endEntropy false).fromKeys).onward

/-- FACET_BIST_DONE (R757, R779). A facet that an alarm has fenced meanwhile stays so. -/
def execFacetBistDone (f : Fin 16) (pass : Bool) (ms : Nat) (s : State) : Host.Outcome State Fault Refusal :=
  .next <|
    if s.fctState f ≠ .bist then s
    else
      let bit := BitVec.ofNat 16 (2 ^ f.val)
      let regs := tmod {} s.fctRegs f.val fun (x : FctRegs) =>
        { x with bistMs := min ms 65535, passes := if pass then min (x.passes + 1) 65535 else x.passes }
      let s1 : State := { s with
        fctRegs := regs
        start := { s.start with
          bistFail := if pass then s.start.bistFail &&& ~~~bit else s.start.bistFail ||| bit
          softFence := if pass then s.start.softFence &&& ~~~bit else s.start.softFence
          bistLeft := s.start.bistLeft &&& ~~~bit } }
      (if pass then s1.facetPassed f
       else s1.setFct f (if s.start.softFence.getLsbD f then .fencedSoft else .fencedStart)).onward

/-- GDDR6_TRAINING_DONE (R758, R759, R830). -/
def execGddr6TrainingDone (t : Training) (s : State) : Host.Outcome State Fault Refusal :=
  .next <| if (s.stepRuns .gddr6).isNone then s else (s.trainingDone t).onward

/-- LCS_WIPE_DONE (R671, R672). -/
def execLcsWipeDone (s : State) : Host.Outcome State Fault Refusal :=
  .next <| if (s.stepRuns .lcsWipe).isNone then s else s.wipeDone.onward

/-- START_RETRY (R772, R782): the crown writes a `RETRY` entry. -/
def execStartRetry (fn : Fin 32) (s : State) : Host.Outcome State Fault Refusal :=
  .next <| s.pfWrite fn 0x48 fun x => x.log .retry 3 1 1 0 0

/-! Facets (R779, R782). -/

/-- The first address of the FCT window of facet `f`. -/
def fctBase (f : Nat) : Nat := 0x30000 + 0x1000 * f

/-- A facet reset (R779): its work ends with `FACET_FENCED`, and its BIST begins. -/
def State.facetReset (x : State) (f : Nat) : State :=
  if x.fctState f = .fencedAlarm then x.violation 4 0 true (fctBase f)
  else ((x.clearFacet f).setFct f .bist).onward

/-- FCT_RESET (R779). -/
def execFctReset (fn : Fin 32) (f : Fin 16) (s : State) : Host.Outcome State Fault Refusal :=
  .next <| s.pfWrite fn (fctBase f) fun x => x.facetReset f

/-- A software fence (R782): it acts as step 1 of R779; taken back, the facet returns to service. -/
def State.facetFence (x : State) (f : Nat) (on : Bool) : State :=
  let bit := BitVec.ofNat 16 (2 ^ f)
  let st := x.fctState f
  if on then
    if st = .inService ∨ st = .narrow then
      let y := (x.clearFacet f).setFct f .fencedSoft
      ({ y with start := { y.start with softFence := y.start.softFence ||| bit } } : State).onward
    else x
  else if st = .fencedSoft then
    let y : State := { x with start := { x.start with softFence := x.start.softFence &&& ~~~bit } }
    (y.facetPassed f).onward
  else x

/-- FCT_FENCE (R782). -/
def execFctFence (fn : Fin 32) (f : Fin 16) (on : Bool) (s : State) : Host.Outcome State Fault Refusal :=
  .next <| s.pfWrite fn (fctBase f) fun x => x.facetFence f on

end Sys2Proof.Machine
end

