-- ==== Sys2Proof/Machine/Tamper.lean ====
section
/-!
DEFINITION. Commands of the monitors, the alarm ladder, stimulus tests and the battery domain (R625 to R662,
R200 of the tamper log's clearing).
-/

namespace Sys2Proof.Machine

/-! Pins of the tamper logic (R627, R636, R854). -/

/-- What a pin shows: `released` is high-impedance, or an open-drain output that is not driven. -/
inductive PinLevel | low | high | released
deriving DecidableEq, Repr

/-- An open-drain output. -/
def openDrain (drive : Bool) : PinLevel := if drive then .low else .released

/-- The device's outputs are powered: S2 has begun, which needs `VDD_IO18` (R751, R854). -/
def State.pinsLive (s : State) : Bool := Nat.ble 2 s.start.stage

/-- `ALM_N`: low from THROTTLE on; released before S2 and with `VDD_IO18` absent (R636, R854). -/
def State.almN (s : State) : PinLevel := openDrain (s.pinsLive && Nat.ble 1 s.tamper.rung)
/-- `HALT_N`: low from HALT on (R636, R854). -/
def State.haltN (s : State) : PinLevel := openDrain (s.pinsLive && Nat.ble 3 s.tamper.rung)
/-- `MG_ALERT_N`: low while `ALM_N` is low (R859). -/
def State.mgAlertN (s : State) : PinLevel := openDrain (s.almN == .low)
/-- The code driven on `VID[5:0]`, which are high-impedance in S0 (R839). -/
def State.vidOut (s : State) : Option (BitVec 6) := if s.start.stage = 0 then none else some s.glb.vid
/-- `RESET_N` of GDDR6 interface `c`: low until the `GDDR6` start step (R863). -/
def State.gddrResetN (s : State) (c : Fin 4) : PinLevel := if (tget {} s.clus c.val).state = 0 then .low else .high
/-- `TL_OUT[n]`: driven only within a loop sample, which no command divides (R627, R854). -/
def State.tlOut (_s : State) (_n : Fin 4) : PinLevel := .released
/-- An output of the `VDD_IO18` or `VDD_SD33` group whose driven level is `v` (R854). -/
def State.ioPin (s : State) (v : Bool) : PinLevel := if s.pinsLive then (if v then .high else .low) else .released

/-! Pins of the card ports (R717, R719, R721, R739); their inputs enter with the commands of the cards. -/

/-- The rate of `SD_CLK` in kHz, 0 while it stands. -/
def State.sdClk (s : State) : Nat :=
  if s.dclkRuns then (if s.cards.sd.clkMhz = 0 then 400 else 1000 * s.cards.sd.clkMhz) else 0
/-- `SD_CMD` is open-drain, in steps 1 to 5 of the identification. -/
def State.sdCmdOpenDrain (s : State) : Bool := s.cards.sd.clkMhz == 0
/-- The data block and its CRCs driven on `SD_DAT` until its status token has come. -/
def State.sdDat (s : State) : Option (Bytes × List (BitVec 16)) :=
  s.cards.job.bind fun j => match j.phase with
    | .wrToken _ => some s.out.sdBlock
    | _ => none
/-- `SD_PWR_EN`. -/
def State.sdPwrEn (s : State) : PinLevel := s.ioPin s.cards.sd.power
/-- `CC_CLASS[1:0]`. -/
def State.ccClass (s : State) : BitVec 2 := s.cards.cc.cls
/-- `CC_VCC` supplies the card, in classes B and C. -/
def State.ccVcc (s : State) : Bool := Nat.ble 2 s.cards.cc.cls.toNat
/-- `CC_VCC_EN`: the external switch, in class A. -/
def State.ccVccEn (s : State) : PinLevel := s.ioPin (s.cards.cc.cls == 1)
/-- `CC_RST`. -/
def State.ccRst (s : State) : PinLevel := s.ioPin s.cards.cc.rst
/-- The rate of `CC_CLK` in kHz, 0 while it stands. -/
def State.ccClk (s : State) : Nat := s.cards.cc.khz
/-- `CC_IO`: in reception while the card is powered, else low. -/
def State.ccIo (s : State) : PinLevel := if s.cards.cc.cls = 0 then .low else .released

/-! Inputs and outputs of the pip port (R466). -/

/-- The on-die termination of the inputs in ohms; none while it is off. -/
def State.pipOdtOhms (s : State) : Option Nat :=
  if s.pip.odtOn = 0 then none else if s.pip.odtOn = 1 then some 120 else if s.pip.odtOn = 2 then some 60 else some 40
/-- The drive impedance of the outputs in ohms. -/
def State.pipDriveOhms (s : State) : Nat := if s.pip.driveOn = 0 then 48 else if s.pip.driveOn = 1 then 40 else 34

/-! Events (R625, R630, R633). -/

/-- Values that `DETAIL` takes for a monitor (R625). -/
def detailOk (m d : Nat) : Bool :=
  match m with
  | 0 => d.blt 64 | 1 => d.blt 16 | 2 => d.blt 8 | 8 => d.blt 24 | 9 => d.blt 12
  | 10 => d.blt 10 | 11 => d.blt 10 | 12 => d.blt 16 | 13 => d.blt 16
  | 15 => Nat.ble 1 d && d.blt 4 | 16 => d.blt 4 | 17 => d.blt 2 | 18 => d.blt 2
  | 19 => Nat.ble 1 d && d.blt 6 | 20 => d.blt 5
  | _ => d == 0

/-- Islands whose clock runs only at times (R630): `dclk` while a descriptor uses the SD port, `tclk` while a
contact card is activated, `qclk` while it is locked. -/
def State.islandRuns (s : State) (i : Nat) : Bool :=
  if i = 13 then s.dclkRuns
  else if i = 14 then s.tclkRuns
  else if i = 11 then s.pip.locked else true

/-- Limits of rail `r` in mV at reset (R661). -/
def railReset (r : Nat) : Nat × Nat :=
  [(600, 900), (720, 880), (1215, 1485), (720, 880), (1080, 1320), (1620, 1980), (1080, 1320), (2970, 3630),
    (1620, 1980), (2000, 3800)].getD r (0, 0)

/-- Nominal frequency of island `i` in kHz (R23, R629, R630); `dclk` and `tclk` are checked against the rate that their
port has programmed. -/
def State.nominalKhz (s : State) (i : Nat) : Option Nat :=
  if i < 4 then some (if s.tamper.throttled then 750000 else 1500000)
  else if i = 13 then some (if s.cards.sd.clkMhz = 0 then 400 else 1000 * s.cards.sd.clkMhz)
  else if i = 14 then some s.cards.cc.khz
  else [none, none, none, none, some 800000, some 800000, some 1200000, some 1000000, some 1000000, some 1250000,
    some 1500000, some 1600000, some 100000, none, none, some 250000].getD i none

/-- The value that a monitor reports is an event: a reading outside its window, an excursion of at least `AMPL` and
`WIDTH`, a frequency outside `TOL`, a phase shorter than `GLITCH` (R625, R651, R660); a rail that falls once `PWR_GOOD` has
fallen is none (R662), and a count that spans a change of rate is not judged (R630). Monitors that judge no value report
events only. -/
def State.outside (s : State) (e : MonEvent) : Bool :=
  let d := e.detail.toNat
  let v := e.value.toNat
  match e.m.val with
  | 9 =>
    let t := (e.value.setWidth 16).toInt
    decide (t < 8 * s.tamper.tempLow) || decide (8 * s.tamper.tempHigh < t)
  | 10 =>
    let w := tget (railReset d) s.tamper.railWin d
    (decide (v < w.1) && s.start.pwrGood) || decide (w.2 < v)
  | 11 =>
    let g := tget (2, 10) s.tamper.railGlitch d
    decide (10 * g.2 ≤ e.value.toInt.natAbs) && decide (g.1 ≤ e.extent.toNat)
  | 13 => decide (e.extent.toNat < (tget (20, 40) s.tamper.clkWin d).2)
  | 21 => decide (v < 2300)
  | 12 => !e.spans && match s.nominalKhz d with
    | some n =>
      let tol := (tget (20, 40) s.tamper.clkWin d).1
      decide (1000 * v < n * (1000 - tol)) || decide (n * (1000 + tol) < 1000 * v)
    | none => true
  | _ => true

/-- The event can occur: its detail is one of its monitor's, a clock monitor's island runs, and its value is one that
the monitor reports. An event of monitor 19 is the request of a crown, of either and in any state, for the rung in `DETAIL`
(R602, R648); that it is logged as `COMMAND` is the model's (log entry 61, DESIGN CHOICE). -/
def State.eventOk (s : State) (e : MonEvent) : Bool :=
  e.m.val.blt 22 && (e.m.val != 19 || Nat.ble 2 s.start.stage) && detailOk e.m.val e.detail.toNat &&
    (!(e.m.val == 12 || e.m.val == 13) || s.islandRuns e.detail.toNat) && s.outside e

/-- Readings kept for `TMP.TEMP_RD` and `TMP.BAT_STS` (R660): of running temperature sensors, and of the cell. -/
def State.noteReads (s : State) (l : List MonEvent) : State :=
  let note := fun (t : Tab (Option (BitVec 16))) (e : MonEvent) =>
    if e.m.val = 9 ∧ detailOk 9 e.detail.toNat ∧ s.monRuns 9 e.detail.toNat then
      tset none t e.detail.toNat (some (e.value.setWidth 16))
    else t
  let cell := fun (v : Nat) (e : MonEvent) =>
    if e.m.val = 21 ∧ detailOk 21 e.detail.toNat ∧ s.monRuns 21 0 then e.value.toNat else v
  { s with
    tamper := { s.tamper with tempRd := l.foldl note s.tamper.tempRd }
    battery := { s.battery with vbatMv := l.foldl cell s.battery.vbatMv } }

/-- Waits of one descriptor taken out of the streams, the snapshot units and the signet block. -/
def State.forget (s : State) (r q : Nat) : State :=
  let out := fun (l : List (Nat × Nat)) => l.filter fun p => p != (r, q)
  { s with
    streams := s.streams.map fun (e : Nat × Stream) => (e.1, { e.2 with
      collects := out e.2.collects, closers := out e.2.closers, setup := e.2.setup.filter fun p => p != (r, q) })
    vault := { s.vault with armJobs := s.vault.armJobs.filter fun j => !(j.ring == r && j.seq == q) }
    snp := { s.snp with
      run := s.snp.run.map fun x => { x with reqs := x.reqs.filter fun y => y != .desc r q }
      waiting := s.snp.waiting.filter fun y => y != .desc r q }
    extends_ := s.extends_.filter fun x => x.src != .desc r q
    marks := s.marks.filter fun x => x.seq != q
    signet := { s.signet with
      queue := s.signet.queue.filter fun y => y.client != .desc r q
      waits := s.signet.waits.filter fun w => w != .random r q
      engines := s.signet.engines.map fun (e : Nat × SigEngine) =>
        if e.2.busy.any fun y => y.client == .desc r q then (e.1, { e.2 with busy := none }) else e } }

/-- SCRUB_CLEAR_DONE (R644, R635): the clearing of a SCRUB or PURGE is complete; the token key is drawn anew
(R492) and the crown's request completes (R202). -/
def execScrubClearDone (s : State) : Host.Outcome State Fault Refusal :=
  .next <|
    if !s.tamper.clearing then s
    else
      let s1 : State := { s with tamper := { s.tamper with
        clearing := false, scrubDone := Nat.ble 4 s.tamper.rung, purgeDone := Nat.ble 5 s.tamper.rung } }
      let s2 := s1.drawTk
      (match s2.crowns.journal with
        | some (j : Journal) => if j.wait = CrownWait.clearing then s2.crownDone [] [] 0 [] else s2
        | none => s2).onward

/-- An alarm on the cell alone (R651): PURGE for a rung of SCRUB or above, else NOTE. -/
def State.cellAlarm (s : State) (m : Nat) (detail : Byte) (value : Word32) (purge : Bool) (dev : Nat) : State :=
  let b := if purge then { s.battery with drk := none, purgedOnCell := true } else s.battery
  let e : LogEntry :=
    { time := s.rtc % 2 ^ 48, monitor := m, rung := if purge then 5 else 0, cell := true, detail := detail,
      deviceRung := dev, seq := 0, value := value }
  { s with battery := b.logPut e }

/-- ZERO_N (R625, R649): watched in every stage, on the cell by a level detector. -/
def execZeroN (s : State) : Host.Outcome State Fault Refusal :=
  .next <|
    if s.start.stage = 0 then
      if s.battery.vbat then s.cellAlarm 7 0 0 true 5 else s
    else (s.raise 7).onward

/-! The sampler (R650, R651). -/

/-- The monitors of a group of R650. -/
def cellGroup (g : Nat) : List Nat :=
  match g with
  | 0 => [1, 2]
  | 1 => [3, 4, 5, 6]
  | 2 => [9]
  | _ => [21]

/-- What a sample shows of monitor `m`: the detail of its event, if any. Temperature and cell voltage are
judged from the reading. -/
def State.cellShows (s : State) (m : Nat) (shows : List (Fin 32 × Byte)) (reading : BitVec 16) : Option Byte :=
  if m = 9 then
    if s.battery.copyHigh * 8 < reading.toInt ∨ reading.toInt < s.battery.copyLow * 8 then some 11 else none
  else if m = 21 then if reading.toNat < 2300 then some 0 else none
  else (shows.find? fun e => e.1.val == m && detailOk m e.2.toNat).map (·.2)

/-- BATTERY_SAMPLE (R650, R651): one sample of a group on the cell alone. -/
def execBatterySample (group : Fin 4) (shows : List (Fin 32 × Byte)) (reading : BitVec 16) (s : State) :
    Host.Outcome State Fault Refusal :=
  .next <|
    if s.start.stage ≠ 0 ∨ !s.battery.vbat then s
    else
      let s0 : State := if group = 3 then { s with battery := { s.battery with vbatMv := reading.toNat } } else s
      let one := fun (t : State × List (Nat × Byte)) (m : Nat) =>
        let x := t.1.mon m
        match s.cellShows m shows reading with
        | none => (t.1.setMon m { x with cellRun := 0 }, t.2)
        | some d =>
          let y := { x with cellRun := min (x.cellRun + 1) 255 }
          (t.1.setMon m y, if x.cellN ≤ y.cellRun then t.2 ++ [(m, d)] else t.2)
      let t := (cellGroup group).foldl one (s0, [])
      let high := fun (m : Nat) => (t.1.mon m).cellHigh
      let dev := if s.battery.purgedOnCell || t.2.any fun e => high e.1 then 5 else 0
      t.2.foldl (fun (a : State) (e : Nat × Byte) =>
        a.cellAlarm e.1 e.2 (if e.1 = 9 then BitVec.ofInt 32 reading.toInt else 0) (high e.1) dev) t.1

/-! Stimulus tests (R654, R655). -/

/-- Monitors with a sampler path (R650). -/
def sampled (m : Nat) : Bool := (Nat.ble 1 m && Nat.ble m 6) || m == 9 || m == 21

/-- A stimulus asked for; ignored while a test runs. -/
def State.stim (s : State) (m : Nat) : State :=
  if s.tamper.stimBusy.isSome then s
  else if 18 ≤ m ∧ m ≠ 21 then
    { s with tamper := { s.tamper with stimMon := m, stimPass := false, stimBat := false, stimNone := true } }
  else s.fireStim m

/-- TMP_STIM (R654). -/
def execTmpStim (fn : Fin 32) (m : Fin 32) (s : State) : Host.Outcome State Fault Refusal :=
  .next <| s.pfWrite fn 0xA000C fun x => x.stim m.val
/-- TMP_STIM_DONE (R654 step 4); the entropy stimulus shows in `ENT_STS` too (R390). -/
def execTmpStimDone (s : State) : Host.Outcome State Fault Refusal :=
  .next <|
    match s.tamper.stimBusy with
    | none => s
    | some m =>
      let g := if m = 15 then { s.signet with rctFail := true, aptFail := true } else s.signet
      { s with signet := g, tamper := { s.tamper with stimBusy := none, stimPass := true, stimBat := sampled m } }
/-- ENT_STIM (R655, R390). -/
def execEntStim (fn : Fin 32) (s : State) : Host.Outcome State Fault Refusal :=
  .next <| s.pfWrite fn 0x70000 fun x => x.stim 15
/-- VAULT_CTL_STIM (R655, R462). -/
def execVaultCtlStim (fn : Fin 32) (s : State) : Host.Outcome State Fault Refusal :=
  .next <| s.pfWrite fn 0x50000 fun x => x.stim 16
/-- CRN_STIM (R655, R624). -/
def execCrnStim (fn : Fin 32) (s : State) : Host.Outcome State Fault Refusal :=
  .next <| s.pfWrite fn 0x80000 fun x => x.stim 17

/-! Settings (R642, R643, R656, R660). -/

/-- TMP_LOCK (R643). -/
def execTmpLock (fn : Fin 32) (s : State) : Host.Outcome State Fault Refusal :=
  .next <| s.pfWrite fn 0xA0000 fun x => { x with tamper := { x.tamper with locked := true } }

/-- The tamper log cleared (R656). -/
def State.clearLog (x : State) : State :=
  { x with battery := { x.battery with log := [], logSeq := 0, logLost := 0 } }

/-- LOG_CLEAR (R656): TEST only. -/
def execLogClear (fn : Fin 32) (s : State) : Host.Outcome State Fault Refusal :=
  .next <| s.testWrite fn 0xA0024 State.clearLog

/-- The floor of a monitor's rung (R641). -/
def rungFloor (m : Nat) : Option Nat := if m ≤ 6 then some 4 else if m = 7 then some 5 else none

/-- A value written to `TMP.MON_CFG`, each field at its nearest limit (R660). -/
def monCfgOf (w : Word32) : MonCfg :=
  let u := bitsOf w.toNat 27 26
  { en := bitOf w.toNat 31, rung := min 5 (bitsOf w.toNat 30 28), wunit := min 2 u
    wval := max 1 (min 1000 (bitsOf w.toNat 25 16)), n := max 1 (bitsOf w.toNat 15 8) }

/-- The value stored for a monitor with a floor (R642). -/
def MonCfg.floored (c : MonCfg) (floor : Nat) : MonCfg :=
  let c1 := { c with en := true, rung := max floor c.rung, n := min 8 c.n }
  if c.window < 250000 then { c1 with wunit := 1, wval := 1 } else c1

/-- Life-cycle states in which the floors hold (R641, R665). -/
def Lcs.floors : Lcs → Bool
  | .production | .endOfLife | .unresolved => true
  | _ => false

/-- A write of `TMP.MON_CFG` of monitor `m` that finds it unlocked; monitors 17 to 20 are fixed, unassigned
ones ignore writes (R641, R660). -/
def State.setMonCfg (s : State) (m : Nat) (w : Word32) : State :=
  if 17 ≤ m ∧ m ≠ 21 then s
  else
    let c := monCfgOf w
    let c1 := match rungFloor m with
      | some f => if s.lcs.floors then c.floored f else c
      | none => c
    s.setMon m { s.mon m with cfg := c1, cellN := c1.n, cellHigh := Nat.ble 4 c1.rung }

/-- A write by the PF to a register that `TMP.CTL.LOCK` locks (R643). -/
def State.lockedWrite (x : State) (addr : Nat) (act : State → State) : State :=
  if x.tamper.locked then x.violation 4 0 true addr else act x

/-- MON_CFG_WRITE (R642, R643, R660). -/
def execMonCfgWrite (fn : Fin 32) (m : Fin 32) (value : Word32) (s : State) : Host.Outcome State Fault Refusal :=
  .next <| s.pfWrite fn (0xA0100 + 4 * m.val) fun x =>
    x.lockedWrite (0xA0100 + 4 * m.val) fun y => y.setMonCfg m.val value

/-! The battery (R658, R164, R847). -/

/-- VBAT_LOSS: in S0 nothing else holds the battery domain up. -/
def execVbatLoss (s : State) : Host.Outcome State Fault Refusal :=
  .next <|
    let s1 : State := { s with battery := { s.battery with vbat := false } }
    if s.start.stage = 0 then s1.batteryLost else s1

/-- XTAL32_STOP (R847): `bclk` goes on from its internal oscillator; a check of `mref` against it that fails is
an event of the clock monitor on island 15. -/
def execXtal32Stop (s : State) : Host.Outcome State Fault Refusal :=
  .next <|
    if s.battery.intOsc then s
    else
      let s1 : State := { s with battery := { s.battery with intOsc := true } }
      if 2 ≤ s.start.stage then (s1.raise 12 15).onward else s1

end Sys2Proof.Machine
end

