-- ==== Sys2Proof/Machine/Snapshot.lean ====
section
/-!
DEFINITION. Consistent snapshots (R783 to R800) and the violation registers' clearing (R808).
-/

namespace Sys2Proof.Machine

/-! Units and channels (R784, R785, R788). -/

/-- Counters of a unit (R784). -/
def unitCounters (u : Nat) : Nat :=
  if u = 0 then 1152 else if u ≤ 16 then 8 else if u = 17 then 16 else if u = 18 then 32 else if u = 19 then 40
  else if u ≤ 23 then 4 else if u = 24 then 8 else if u = 25 then 4 else 32

/-- Sender and receiver of a channel (R785). -/
def channelEnds (c : Nat) : Nat × Nat :=
  if c < 16 then (0, 1 + c) else if c < 32 then (1 + (c - 16), 0)
  else if c < 48 then (1 + (c - 32), 18) else if c < 64 then (18, 1 + (c - 48))
  else if c < 80 then (1 + (c - 64), 17) else if c < 96 then (1 + (c - 80), 20 + (c - 80) / 4)
  else if c < 112 then (20 + (c - 96) / 4, 1 + (c - 96)) else if c < 128 then (24, 1 + (c - 112))
  else match c with
    | 128 => (0, 17) | 129 => (17, 0) | 130 => (0, 18) | 131 => (18, 0) | 132 => (0, 24) | 133 => (24, 0)
    | 134 => (18, 19) | 135 => (19, 18) | 144 => (24, 25) | 145 => (25, 24) | 146 => (24, 18)
    | 147 => (24, 17) | 148 => (17, 24)
    | _ => if c < 140 then (18, 20 + (c - 136)) else (20 + (c - 140), 18)

/-- The channels into a unit. -/
def inputsOf (u : Nat) : List Nat := (List.range 149).filter fun c => (channelEnds c).2 == u
/-- The channels out of a unit. -/
def outputsOf (u : Nat) : List Nat := (List.range 149).filter fun c => (channelEnds c).1 == u

/-- The unit runs (R788): a facet once it has left its first BIST, a GDDR6 interface once trained, the Pip port
while its clock is locked; in STUCK mode facets, GDDR6 and the vault engine are not started (R771). -/
def State.unitRuns (s : State) (u : Nat) : Bool :=
  if 1 ≤ u ∧ u ≤ 16 then !s.isStuck && s.fctState (u - 1) != .untested && s.fctState (u - 1) != .bist
  else if u = 18 then !s.isStuck
  else if u = 19 then s.pip.locked
  else if 20 ≤ u ∧ u ≤ 23 then s.start.gddrTrained
  else true

/-! The cut (R786, R787). -/

/-- The running snapshot changed. -/
def State.modSnap (s : State) (f : Snap → Snap) : State := { s with snp := { s.snp with run := s.snp.run.map f } }

/-- Transfers sent on channel `c` since its count was last fixed: how many is left open. -/
def State.sentNow (s : State) (c : Nat) : State :=
  let n := Config.freeTransfers s.free c % 65536
  { s with free := s.free + 1
           snp := { s.snp with sent := tmod 0 s.snp.sent c (· + BitVec.ofNat 64 n) } }

/-- The sender of channel `c` fixes its count. -/
def State.copySent (s : State) (c : Nat) : State :=
  let s1 := s.sentNow c
  s1.modSnap fun r => { r with sent := tset 0 r.sent c (tget 0 s1.snp.sent c) }

/-- The receiver of channel `c` fixes its count: some of the transfers sent so far, all that precede the marker
when that has come on the channel itself. -/
def State.copyRecv (s : State) (c : Nat) (marker : Bool) : State :=
  match s.snp.run with
  | none => s
  | some r0 =>
    let done := r0.copied.elem (channelEnds c).1
    let s1 := if done then s else s.sentNow c
    let bound := if done then tget 0 r0.sent c else tget 0 s1.snp.sent c
    let old := tget 0 s1.snp.recv c
    let n := if marker then (bound - old).toNat
      else Config.freeTransfers s1.free c % ((bound - old).toNat + 1)
    let now := old + BitVec.ofNat 64 n
    ({ s1 with free := s1.free + 1, snp := { s1.snp with recv := tset 0 s1.snp.recv c now } } : State).modSnap
      fun r => { r with recv := tset 0 r.recv c now }

/-- A unit copies its counters, and the counts of its channels (R786 step 2); `via` is the channel on which the
marker has come. -/
def State.unitCopy (s : State) (u : Nat) (via : Option Nat) : State :=
  let mine := s.snp.counters.filter fun (e : Nat × BitVec 64) => e.1 / 2048 == u
  let s1 := s.modSnap fun r => { r with
    copied := r.copied ++ [u]
    counters := mine.foldl (fun (t : Tab (BitVec 64)) (e : Nat × BitVec 64) => tset 0 t e.1 e.2) r.counters }
  let s2 := (inputsOf u).foldl (fun (a : State) c => a.copyRecv c (via == some c)) s1
  (outputsOf u).foldl (fun (a : State) c => a.copySent c) s2

/-- Marker on channel `c` has reached the receiver after its copy: what it has taken since was in flight. -/
def State.markerIn (s : State) (c : Nat) : State :=
  match s.snp.run with
  | none => s
  | some r =>
    let sent := tget 0 r.sent c
    let fl := (sent - tget 0 r.recv c).toNat
    ({ s with snp := { s.snp with recv := tset 0 s.snp.recv c sent } } : State).modSnap fun x =>
      { x with arrived := x.arrived ++ [c], inflight := tset 0 x.inflight c fl }

/-- A unit that is not running: its last values, its channels empty (R788). -/
def State.stillCopy (s : State) (u : Nat) : State :=
  let mine := s.snp.counters.filter fun (e : Nat × BitVec 64) => e.1 / 2048 == u
  let chans := (inputsOf u ++ outputsOf u)
  let s1 := s.modSnap fun r => { r with
    still := r.still ++ [u], copied := r.copied ++ [u], acked := r.acked ++ [u]
    counters := mine.foldl (fun (t : Tab (BitVec 64)) (e : Nat × BitVec 64) => tset 0 t e.1 e.2) r.counters }
  chans.foldl (fun (a : State) c =>
    let v := tget 0 a.snp.sent c
    ({ a with snp := { a.snp with recv := tset 0 a.snp.recv c v } } : State).modSnap fun r =>
      { r with sent := tset 0 r.sent c v, recv := tset 0 r.recv c v, arrived := r.arrived ++ [c] }) s1

/-! The record (R793 to R795). -/

/-- `RFLAGS`. -/
def Snap.rflags (r : Snap) (vf : Bool) : Byte :=
  BitVec.ofNat 8 (ofBits [!r.late.isEmpty, vf, r.epoch.getLsbD 0])

/-- The 15,496 bytes of the record; `vf` gives a VF's view. -/
def State.snapRecord (s : State) (r : Snap) (vf : Option Nat) : Bytes :=
  let hide := vf.isSome
  let shown := fun (u k : Nat) => match vf with
    | none => true
    | some f => u == 0 && (k / 32 == f && k.blt 1024 || (k / 4 == 256 + f))
  let head := leBytes 4 0x4B57534E ++ [1, r.rflags hide] ++ leBytes 2 27 ++ leBytes 4 r.epoch.toNat ++
    leBytes 2 149 ++ zeros 2 ++ leBytes 8 r.startTime ++ leBytes 8 s.rtc ++ leBytes 4 s.start.startNumber.toNat ++
    zeros 28
  let unit := fun (u : Nat) =>
    leBytes 2 u ++ leBytes 2 (unitCounters u) ++ leBytes 4 r.epoch.toNat ++
    [BitVec.ofNat 8 (ofBits [r.still.elem u, r.late.elem u, hide && u != 0])] ++ zeros 7 ++
    ((List.range (unitCounters u)).map fun k =>
      leBytes 8 (if shown u k then (tget 0 r.counters (u * 2048 + k)).toNat else 0)).flatten
  let chan := fun (c : Nat) =>
    let e := channelEnds c
    let late := r.late.elem e.1 || r.late.elem e.2
    leBytes 2 c ++ [BitVec.ofNat 8 (ofBits [false, late && !hide, hide])] ++ zeros 1 ++
    (if hide then zeros 20
     else leBytes 4 (tget 0 r.inflight c) ++ leBytes 8 (tget 0 r.sent c).toNat ++ leBytes 8 (tget 0 r.recv c).toNat)
  head ++ ((List.range 27).map unit).flatten ++ ((List.range 149).map chan).flatten

/-! Requests, completion (R789, R790, R799, R800). -/

/-- A snapshot begins: step 1, with the values of the units that do not run. -/
def State.snapBegin (s : State) (reqs : List SnapReq) : State :=
  let e := if s.snp.epoch + 1 = 0 then 1 else s.snp.epoch + 1
  let b := e.toNat % 2
  let run : Snap :=
    { epoch := e, startTime := s.rtc, startTick := s.tick, reqs := reqs, copied := [], acked := [], still := [],
      late := [], arrived := [], counters := [], sent := [], recv := [], inflight := [] }
  let s1 : State := { s with snp := { s.snp with
    epoch := e, run := some run, banks := s.snp.banks.set b [], bankEpoch := s.snp.bankEpoch.set b e } }
  ((List.range 27).filter fun u => !s.unitRuns u).foldl (fun (a : State) u => a.stillCopy u) s1

/-- A request: it begins a snapshot, or joins the one that waits. -/
def State.snapAsk (s : State) (q : SnapReq) : State :=
  if s.snp.run.isNone then s.snapBegin [q]
  else { s with snp := { s.snp with waiting := s.snp.waiting ++ [q], joined := min 65535 (s.snp.joined + 1) } }

/-- Output of which an undefined part is written: a free value says which bytes (R799). -/
def State.writePart (s : State) (r : Nat) (outs : List Ext) (b : Bytes) : State :=
  let f := s.freshBytes b.length
  ((List.range b.length).filter fun i => bitOf (byteAt f.1 i).toNat 0).foldl
    (fun a i => a.writeOut r outs i [byteAt b i]) f.2

/-- A record handed to one request; a write that fails leaves an undefined part of it (R799, R800). -/
def State.snapDeliver (s : State) (r : Snap) (env : Env) (q : SnapReq) : State :=
  let b := s.snapRecord r none
  match q with
  | .desc g k =>
    match (s.ring g).find k with
    | none => s
    | some w =>
      let outs := (w.got.getD ([], [], [])).2.1
      let vf := if fnOf g = 0 then none else some (fnOf g)
      match outs.find? fun e => (readFault env e.addr e.len).isSome with
      | some e =>
        let dma := (readFault env e.addr e.len).map fun x => (e.addr, x, 5)
        (s.writePart g outs (s.snapRecord r vf)).finishBad g k w.desc { status := .dmaFault, step := 8, dma := dma }
      | none =>
        (s.writeOut g outs 0 (s.snapRecord r vf)).finishDone g k w.desc 0
          (leBytes 4 r.epoch.toNat ++ leBytes 4 15496 ++ [r.rflags vf.isSome])
  | .reg =>
    let a := s.snp.buf.toNat
    let bad := a != 0 && (readFault env a 15496).isSome
    let s1 := if a = 0 then s
      else if bad then { s.writePart 0 [{ addr := a, len := 15496 }] b with snp := { s.snp with writeFault := true } }
      else s.writeOut 0 [{ addr := a, len := 15496 }] 0 b
    if s1.snp.irqEn then s1.sendMsix 0 s1.snp.irqVector.toNat else s1

/-- Every unit has acknowledged, or is marked `LATE`: the record is complete (R786 step 6). -/
def State.snapDone (s : State) (env : Env) : State :=
  match s.snp.run with
  | none => s
  | some r =>
    let b := r.epoch.toNat % 2
    let n := s.snp
    let s1 : State := { s with snp := { n with
      run := none, banks := n.banks.set b (s.snapRecord r none), lastEpoch := r.epoch, lastBank := b == 1
      incomplete := !r.late.isEmpty, duration := BitVec.ofNat 32 ((s.tick - r.startTick) * 4 / 10)
      completed := n.completed + 1, lateUnits := BitVec.ofNat 27 (ofBits ((List.range 27).map r.late.elem)) } }
    let s2 := r.reqs.foldl (fun (a : State) q => a.snapDeliver r env q) s1
    match s2.snp.waiting with
    | [] => s2
    | l => ({ s2 with snp := { s2.snp with waiting := [] } } : State).snapBegin l

/-- The units that have copied and met the marker on every input channel acknowledge (R786 step 5). -/
def State.snapAcks (s : State) (env : Env) : State :=
  match s.snp.run with
  | none => s
  | some r =>
    let ok := fun (u : Nat) => r.copied.elem u && (inputsOf u).all r.arrived.elem
    let acked := (List.range 27).filter fun u => r.acked.elem u || ok u
    let s1 := s.modSnap fun x => { x with acked := acked }
    if acked.length = 27 then s1.snapDone env else s1

/-- A marker comes to a unit on its control channel, or on a counted channel behind the transfers that the
sender had sent before its copy (R786). -/
def State.marker (s : State) (u : Nat) (via : Option Nat) : State :=
  match s.snp.run with
  | none => s
  | some r =>
    if r.still.elem u ∨ r.late.elem u then s
    else
      let first := !r.copied.elem u
      match via with
      | none => if first then s.unitCopy u none else s
      | some c =>
        if (channelEnds c).2 ≠ u ∨ r.arrived.elem c ∨ !r.copied.elem (channelEnds c).1 then s
        else (if first then s.unitCopy u (some c) else s).markerIn c

/-- SNAPSHOT_MARKER (R786). -/
def execSnapshotMarker (unit : Fin 27) (channel : Option (Fin 149)) (env : Env) (s : State) :
    Host.Outcome State Fault Refusal :=
  .next <|
    if s.snp.run.isNone then s
    else ((s.hostStores env).marker unit.val (channel.map (·.val))).snapAcks env

/-- SNAPSHOT_ACK_TIMEOUT (R789): the units that have not acknowledged are `LATE`; those without a copy show
what the snapshot logic reads from them at this moment. -/
def execSnapshotAckTimeout (env : Env) (s0 : State) : Host.Outcome State Fault Refusal :=
  .next <|
    let s := s0.hostStores env
    match s.snp.run with
    | none => s0
    | some r =>
      let l := (List.range 27).filter fun u => !r.acked.elem u
      let s1 := (l.filter fun u => !r.copied.elem u).foldl (fun (a : State) u => a.unitCopy u none) s
      (s1.modSnap fun x => { x with late := l }).snapDone env

/-- SNP_TRIGGER (R800). -/
def execSnpTrigger (fn : Fin 32) (s : State) : Host.Outcome State Fault Refusal :=
  .next <| s.pfWrite fn 0xE0000 fun x => x.snapAsk .reg

/-- CLR_VIOL (R808). -/
def execClrViol (fn : Fin 32) (s : State) : Host.Outcome State Fault Refusal :=
  .next <| s.pfWrite fn 0xE0000 fun x => { x with viol := {} }

/-! The descriptor (R796). -/

/-- The body checks of step 5. -/
def snapCheck5 (d : Desc) : Bool :=
  d.declLen == 0 && allZero (d.bytes 16 32) && (d.ref 48).ok && ((d.ref 48).sgl || Nat.ble 15496 (d.ref 48).len)

/-- Steps 6 and 7. -/
def snapRead (s : State) (env : Env) (d : Desc) : Except Bad Got :=
  match s.walkRef env (d.ref 48) with
  | .error e => .error e
  | .ok outs => if extsLen outs < 15496 then .error { status := .descMalformed, step := 6 } else .ok ([], outs, [])

end Sys2Proof.Machine
end

