-- ==== Sys2Proof/Machine/Link.lean ====
section
/-!
DEFINITION. Link events and resets of the host side, power states of functions, the DOE mailbox, SPDM and IDE
(R49 to R84, R388, R778, R780, R792, R820).
-/

namespace Sys2Proof.Machine

/-! Work dropped without completion (R64, R780). -/

/-- The crown's descriptor of a dropped ring runs to its end: it is kept beside the journal. One whose lists are
still being read has made no effect and ends. -/
def State.keepCrown (s : State) (which : Nat → Bool) : State :=
  match s.crowns.journal with
  | none => s
  | some j =>
    if !which j.ring then s
    else match (s.ring j.ring).find j.seq with
      | none => s
      | some w =>
        if w.phase = .reading then { s with crowns := { s.crowns with journal := none } }
        else s.modJournal fun x => { x with kept := some (w.desc, w.got.getD ([], [], [])) }

/-- The slots that signing descriptors of dropped rings reserve, given back. -/
def State.dropSigs (s : State) (which : Nat → Bool) : State :=
  let mine := fun (c : Client) => match c with
    | .desc r _ => which r
    | _ => false
  let reqs := (s.signet.engines.filterMap fun (e : Nat × SigEngine) => e.2.busy) ++ s.signet.queue
  let s1 := (reqs.filter fun q => mine q.client).foldl (fun (a : State) q => match q.client with
    | .desc r k => match a.descOf r k with
      | some d => a.sigGiveBack d
      | none => a
    | _ => a) s
  { s1 with signet := { s1.signet with
    queue := s1.signet.queue.filter fun q => !mine q.client
    waits := s1.signet.waits.filter fun w => match w with
      | .random r _ => !which r
      | _ => true } }

/-- What streams, vault and snapshots owe to descriptors of dropped rings. -/
def State.dropWaits (s : State) (which : Nat → Bool) : State :=
  let out := fun (l : List (Nat × Nat)) => l.filter fun p => !which p.1
  let reqs := fun (l : List SnapReq) => l.filter fun q => match q with
    | .desc r _ => !which r
    | .reg => true
  { s with
    streams := s.streams.map fun (e : Nat × Stream) => (e.1, { e.2 with
      collects := out e.2.collects, closers := out e.2.closers, setup := e.2.setup.filter fun p => !which p.1 })
    vault := { s.vault with armJobs := s.vault.armJobs.filter fun j => !which j.ring }
    snp := { s.snp with
      run := s.snp.run.map fun r => { r with reqs := reqs r.reqs }, waiting := reqs s.snp.waiting }
    hif := { s.hif with held := s.hif.held.filter fun p => !which p.1 } }

/-- Every fetched descriptor of the rings that `which` selects dropped, its work ended, nothing released; the
digest contexts of the functions that `fns` selects freed. Usage charged stays charged. -/
def State.dropRings (s : State) (which fns : Nat → Bool) : State :=
  let s1 := (s.keepCrown which).dropSigs which
  let s2 := (List.range 16).foldl (fun (a : State) f =>
    let b := ((a.facet f).msgs.filter fun m => which m.ring).foldl (fun (x : State) m => x.vanishMsg f m) a
    (b.modFacet f fun x => { x with queue := x.queue.filter fun q => !which q.ring }).freeDigs f fun c => fns c.fn) s1
  let s3 := s2.endInvocations (fun i => match i.kind with
    | .invoke r _ => which r
    | .hook _ _ => false) none
  let s4 := s3.dropWaits which
  { s4 with rings := s4.rings.map fun (e : Nat × Ring) =>
      if which e.1 then (e.1, { e.2 with work := [], reads := [], since := 0, timing := false }) else e }

/-- Every ring after a link event: `STOPPED` with cause 7 (R140, R820). -/
def State.stopAll (s : State) : State :=
  (List.range 512).foldl (fun (a : State) r => a.modRing r fun x => { x with st := .stopped, cause := 7 }) s

/-- The SPDM request in progress given up, with the requests that it has made of the signet block (R69); what an
engine still runs for it has no effect. -/
def State.dropJob (s : State) (f : Link → Link) : State :=
  { s with
    link := { f s.link with job := none }
    signet := { s.signet with
      queue := s.signet.queue.filter fun q => match q.client with
        | .spdm _ => false
        | _ => true
      waits := s.signet.waits.filter fun w => w != .spdm } }

/-- A link event of R64: rings, their work and every function's power state; sessions and IDE keys. The
configuration-space fields of R49 to R55 and a standing DOE answer or DOE Error stay as they are (log entry 21,
DESIGN CHOICE). -/
def State.linkLoss (s : State) : State :=
  let s1 := (s.dropRings (fun _ => true) fun _ => true).stopAll
  let s2 := s1.dropJob fun l => { l.clearSecrets with doeBusy := false }
  { s2 with
    fns := s2.fns.map fun (e : Nat × Fn) => (e.1, { e.2 with polling := false, d3hot := false, msixPend := 0 })
    hif := { s2.hif with dmaErr := [], held := [] } }

/-- HOT_RESET (R64, R83). -/
def execHotReset (s : State) : Host.Outcome State Fault Refusal :=
  .next <|
    if s.start.stage < 2 ∨ s.link.perst then s
    else
      let s1 := s.linkLoss
      ({ s1 with link := { s1.link with evt := s1.link.evt ||| 2 } } : State).onward

/-- DL_DOWN (R64, R82, R83). -/
def execDlDown (s : State) : Host.Outcome State Fault Refusal :=
  .next <|
    if !s.link.dlUp then s
    else
      let s1 := if s.start.stage < 2 then s else s.linkLoss
      let evt := if s1.link.perst then s1.link.evt else s1.link.evt ||| 1
      ({ s1 with link := { s1.link with dlUp := false, width := 0, rate := 0, flit := false, evt := evt } } : State).onward

/-- PE_PERST_N (R64, R65, R778, R792, R820): the `pclk` and `hclk` islands are reset; the mailbox, the SPDM
connection and configuration space with them; snapshots are abandoned. -/
def execPePerstN (s : State) : Host.Outcome State Fault Refusal :=
  .next <|
    let s1 := if s.start.stage < 2 then s else s.linkLoss
    ({ s1 with
      fns := s1.fns.map fun (e : Nat × Fn) => (e.1, { e.2 with msixMask := BitVec.allOnes 64, relaxed := true })
      link := { perst := true, nextSession := s1.link.nextSession, jobs := s1.link.jobs }
      snp := { s1.snp with run := none, waiting := [] }
      out := { s1.out with readyStatus := false } } : State).onward

/-- PE_PERST_N_DEASSERT (R59, R61, R778): after a host reset readiness follows at once. -/
def execPePerstNDeassert (s : State) : Host.Outcome State Fault Refusal :=
  .next <|
    let up := Nat.ble 3 s.start.stage
    { s with
      link := { s.link with perst := false, ready := up }
      out := { s.out with readyStatus := s.out.readyStatus || (up && s.link.cfg.readiness) } }

/-- A width and a rate of R82; outside FLIT mode there is no 64 GT/s (R49). -/
def linkOk (width : BitVec 6) (rate : BitVec 4) (flit : Bool) : Bool :=
  (width == 4 || width == 8 || width == 16) && Nat.ble 1 rate.toNat && Nat.ble rate.toNat (if flit then 6 else 5)

/-- DL_UP (R82). -/
def execDlUp (width : BitVec 6) (rate : BitVec 4) (flit : Bool) (s : State) : Host.Outcome State Fault Refusal :=
  .next <|
    if s.link.perst ∨ s.link.dlUp ∨ !linkOk width rate flit then s
    else { s with link := { s.link with dlUp := true, width := width, rate := rate, flit := flit } }

/-- RETRAIN (R52, R83). -/
def execRetrain (rate : BitVec 4) (width : BitVec 6) (s : State) : Host.Outcome State Fault Refusal :=
  .next <|
    if !s.link.dlUp ∨ !linkOk width rate s.link.flit ∨ (s.link.rate = rate ∧ s.link.width = width) then s
    else { s with link := { s.link with rate := rate, width := width, evt := s.link.evt ||| 4 } }

/-! Functions (R55, R58, R780). -/

/-- What configuration space shows of a function (R49, R54, R55, R59, R63, R813). -/
structure CfgView where
  vendorId : BitVec 16 := 0x1E3F
  revision : Byte := 0xB1
  deviceId : BitVec 16
  classCode : BitVec 24
  /-- BAR0 bytes; 64-bit and non-prefetchable, the only BAR -/
  bar0 : Nat
  bar0Is64 : Bool := true
  bar0Prefetchable : Bool := false
  totalVfs : Nat
  firstVfOffset : Nat := 1
  vfStride : Nat := 1
  numVfs : Nat
  vectors : Nat := 64
  msixTable : Nat
  pba : Nat
  doe : Bool
  immediateReadiness : Bool := false
  relaxed : Bool
  d3hot : Bool
  cfg : PcieCfg
  aer : Aer
deriving DecidableEq, Repr

/-- The function's configuration space; none while a request gets Request Retry Status, or where no function is
(R55, R59). -/
def State.cfgView (s : State) (f : Nat) : Option CfgView :=
  if !s.link.ready || !s.fnExists f then none
  else some {
    deviceId := if f = 0 then 0x0880 else 0x0881, classCode := 0x108000
    bar0 := if f = 0 then 2 ^ 25 else 2 ^ 16
    totalVfs := if s.start.stuck then 0 else 31, numVfs := if s.start.stuck then 0 else s.link.numVfs
    msixTable := if f = 0 then 0x1F000 else 0xF000, pba := if f = 0 then 0x1F800 else 0xF800
    doe := f == 0, relaxed := (s.fn f).relaxed, d3hot := (s.fn f).d3hot, cfg := s.link.cfg
    aer := s.link.aer }

/-- MSI-X messages held pending that may now be sent, sent (R58, R119). -/
def State.sendPending (s : State) (f : Nat) : State :=
  let x := s.fn f
  if x.d3hot then s
  else
    let go := x.msixPend &&& ~~~x.msixMask
    let s1 := s.modFn f fun y => { y with msixPend := y.msixPend &&& y.msixMask }
    ((List.range 64).filter go.getLsbD).foldl (fun (a : State) v => a.sendMsix f v) s1

/-- The function's completions held in staging, written (R58). -/
def State.releaseHeld (s : State) (f : Nat) : State :=
  let l := s.hif.held.filter fun p => fnOf p.1 == f
  let s1 : State := { s with hif := { s.hif with held := s.hif.held.filter fun p => fnOf p.1 != f } }
  let s2 := l.foldl (fun (a : State) p => a.writeCpl p.1 p.2) s1
  ((ringsOf f).foldl (fun (a : State) r => a.settle r) s2).fences f (s2.workCount f)

/-- D3HOT (R58). -/
def execD3hot (f : Fin 32) (enter : Bool) (s : State) : Host.Outcome State Fault Refusal :=
  .next <|
    if s.start.stage < 3 ∨ !s.fnExists f then s
    else if enter then s.modFn f fun x => { x with d3hot := true }
    else if (s.fn f).d3hot then
      (((s.modFn f fun x => { x with d3hot := false }).sendPending f).releaseHeld f).onward
    else s

/-- FLR (R780): one function's rings, work and contexts. -/
def execFlr (f : Fin 32) (s : State) : Host.Outcome State Fault Refusal :=
  .next <|
    if s.start.stage < 3 ∨ !s.fnExists f then s
    else
      let s1 := s.dropRings (fun r => fnOf r == f.val) fun g => g == f.val
      let s2 := (ringsOf f).foldl (fun (a : State) r => a.setRing r { cause := 8 }) s1
      (s2.modFn f fun x => { x with
        db := 0, pollMin := 1, pollMax := 1000, interval := 1, pollFaults := 0, polling := false, relaxed := true
        msixPend := 0 }).onward

/-! IDE (R77 to R81). -/

/-- An IDE stream: 0 the link's, 1 to 4 selective. -/
def State.ide (s : State) (i : Nat) : IdeStream := tget {} s.link.ide i
/-- It is replaced. -/
def State.setIde (s : State) (i : Nat) (x : IdeStream) : State :=
  { s with link := { s.link with ide := tset {} s.link.ide i x } }

/-- Sub-streams of an IDE stream (R77). -/
inductive SubStream | posted | nonPosted | completion
deriving DecidableEq, Repr

/-- Place of a sub-stream's key in a set: received, then sent (R77; log entry 33, DESIGN CHOICE). -/
def SubStream.place (x : SubStream) (sent : Bool) : Nat :=
  (match x with | .posted => 0 | .nonPosted => 1 | .completion => 2) + (if sent then 3 else 0)

/-- Requests and completions as IDE sorts them. -/
inductive TlpKind | memoryWrite | memoryRead | config | message | completion
deriving DecidableEq, Repr

/-- A stream covers a kind of TLP: a selective stream memory requests and completions alone (R79). -/
def ideCovers (stream : Nat) : TlpKind → Bool
  | .config | .message => stream == 0
  | _ => true

/-- The key of a sub-stream in key set `set`. -/
def IdeStream.key (x : IdeStream) (set : Nat) (sub : SubStream) (sent : Bool) : Option Bytes :=
  (x.keys.find? fun e => e.1 == 6 * set + sub.place sent).map (·.2)

/-- A TLP of a Secure stream sent, under the set that goes: ciphertext and tag (R77). -/
def IdeStream.seal (x : IdeStream) (sub : SubStream) (nonce aad body : Bytes) : Option (Bytes × Bytes) :=
  if !x.secure then none
  else (x.key x.set sub true).map fun k =>
    let ct := gcmX k nonce 0 body
    (ct, gcmTag k nonce aad ct)

/-- A received TLP of a Secure stream, decrypted with the set that its key-set bit names, so that both sets serve while
both are programmed; none where its integrity check fails, which is `IDE_FAIL` (R80, R81). -/
def IdeStream.receive (x : IdeStream) (sub : SubStream) (keySet : Bool) (nonce aad ct tag : Bytes) : Option Bytes :=
  if !x.secure then none
  else match x.key (if keySet then 1 else 0) sub false with
    | none => none
    | some k => if gcmTag k nonce aad ct = tag then some (gcmX k nonce 0 ct) else none

/-- IDE_FAIL (R81). -/
def execIdeFail (stream : Fin 5) (s : State) : Host.Outcome State Fault Refusal :=
  .next <|
    if s.start.stage < 2 ∨ !(s.ide stream).secure then s
    else
      let s1 := s.setIde stream {}
      (({ s1 with link := { s1.link with evt := s1.link.evt ||| 8 } } : State).raise 20
        (BitVec.ofNat 8 stream.val)).onward

/-! The DOE mailbox (R67 to R69). -/

/-- An answer stands in the mailbox. -/
def State.reply (s : State) (kind : Nat) (data : Bytes) : State :=
  { s with link := { s.link with answer := some ⟨kind, 0, data⟩, doeBusy := false, job := none } }
/-- An SPDM `ERROR` of a code. -/
def State.spdmError (s : State) (code : Nat) : State :=
  { s with link := { s.link with answer := some ⟨0x7F, code, []⟩, doeBusy := false, job := none } }

/-- A request reaches the mailbox: from the end of S2 on, and no longer than 64 KiB (R68, R70). The manual does not say
what becomes of a request that comes while DOE Error stands, or while the mailbox is Busy: the first is answered as
ever, and DOE Error stays set; the second is not accepted (log entry 33, DESIGN CHOICE). -/
def State.doe (s : State) (q : DoeReq) (act : State → State) : State :=
  if s.start.stage < 3 ∨ s.link.perst then s
  else if 65536 < q.len then { s with link := { s.link with doeError := true } }
  else if s.link.doeBusy then s
  else act s

/-- An SPDM request: answered by the active crown (R70, R784). -/
def State.spdm (s : State) (q : DoeReq) (act : State → State) : State := s.doe q fun x => act (x.bump 24 6 1)

/-- DOE_DISCOVERY (R67). -/
def execDoeDiscovery (q : DoeReq) (index : Byte) (s : State) : Host.Outcome State Fault Refusal :=
  .next <| s.doe q fun x =>
    if index.toNat < 3 then x.reply 0 (leBytes 2 1 ++ [index, if index = 2 then 0 else index + 1])
    else x.reply 0 [0xFF, 0xFF, 0, 0]

/-- DOE_ABORT (R69). -/
def execDoeAbort (s : State) : Host.Outcome State Fault Refusal :=
  .next <|
    if s.start.stage < 3 ∨ s.link.perst then s
    else s.dropJob fun l => { l with answer := none, doeError := false, doeBusy := false }

/-! SPDM (R70 to R74, R388). Message and error codes are those of SPDM 1.2 (log entry 33, PRESUMED). -/

/-- GET_VERSION. -/
def execGetVersion (q : DoeReq) (s : State) : Host.Outcome State Fault Refusal :=
  .next <| s.spdm q fun x =>
    { x.reply 0x04 [0x12] with link := { (x.reply 0x04 [0x12]).link with versioned := true, capable := false, negotiated := false, keyed := false } }

/-- The capabilities that R71 gives the responder: certificates, challenge, fresh signed measurements, encryption and
message authentication, key exchange, heartbeat, key update; the largest object is that of R68. Their places are
those of SPDM 1.2 (log entry 33, PRESUMED). -/
def capabilities : Bytes := zeros 4 ++ leBytes 4 0x62F6 ++ leBytes 4 65536 ++ leBytes 4 65536

/-- GET_CAPABILITIES. -/
def execGetCapabilities (q : DoeReq) (s : State) : Host.Outcome State Fault Refusal :=
  .next <| s.spdm q fun x =>
    if !x.link.versioned then x.spdmError 0x04
    else
      let y := x.reply 0x61 capabilities
      { y with link := { y.link with capable := true } }

/-- NEGOTIATE_ALGORITHMS: what the requester offers of the five sets, of which the device has one member
each. -/
def execNegotiateAlgorithms (q : DoeReq) (asym hash dhe aead schedule : Bool) (s : State) :
    Host.Outcome State Fault Refusal :=
  .next <| s.spdm q fun x =>
    if !x.link.capable then x.spdmError 0x04
    else
      let y := x.reply 0x63 [BitVec.ofNat 8 (ofBits [asym, hash, dhe, aead, schedule])]
      { y with link := { y.link with
        negotiated := asym && hash, keyed := asym && hash && dhe && aead && schedule } }

/-- The certificate chain of a slot (R72, R387): none when it has not been written. A chain that is being written shows
once its descriptor completes (R681); an `UNRESOLVED` device leaves its records unused (R665). -/
def State.certChain (s : State) (slot : Nat) : Option Bytes :=
  if slot < 2 ∧ s.lcs ≠ .unresolved then
    match s.crowns.journal.bind fun j => j.recs.find? fun w => w.name == .sys 0x06 slot with
    | some w => w.prev.map (·.2)
    | none =>
      let r := s.nvm.record (.sys 0x06 slot)
      if r.st = .held then some r.payload else none
  else none

/-- GET_DIGESTS (R72). -/
def execGetDigests (q : DoeReq) (s : State) : Host.Outcome State Fault Refusal :=
  .next <| s.spdm q fun x =>
    if !x.link.negotiated then x.spdmError 0x04
    else
      let x := x.noteTies [.sys 0x06 0, .sys 0x06 1]
      let l := (List.range 2).filterMap x.certChain
      let mask := ofBits ((List.range 2).map fun i => (x.certChain i).isSome)
      x.reply 0x01 ([BitVec.ofNat 8 mask] ++ (l.map sha384).flatten)

/-- GET_CERTIFICATE (R72): a portion of the slot's chain, and what is left after it. -/
def execGetCertificate (q : DoeReq) (slot : BitVec 4) (offset length : BitVec 16) (s : State) :
    Host.Outcome State Fault Refusal :=
  .next <| s.spdm q fun x =>
    if !x.link.negotiated then x.spdmError 0x04
    else match x.certChain slot.toNat with
      | none => x.spdmError 0x01
      | some c =>
        let x := x.noteTie (.sys 0x06 slot.toNat)
        if c.length ≤ offset.toNat then x.spdmError 0x01
        else
          let n := min length.toNat (c.length - offset.toNat)
          x.reply 0x02 (leBytes 2 n ++ leBytes 2 (c.length - offset.toNat - n) ++ slice c offset.toNat n)

/-! Signed answers (R70, R344, R381, R388): the request waits in the mailbox, which is Busy, for random numbers of
instance 0 and for a signet engine. What is signed is a hash over the whole exchange, which the standard forms of
messages that the commands do not spell: its value is free. -/

/-- The job of that number, while the mailbox holds it. -/
def State.spdmJob (s : State) (n : Nat) : Option SpdmJob := s.link.job.filter fun j => j.number == n

/-- The job changed. -/
def State.modJob (s : State) (f : SpdmJob → SpdmJob) : State :=
  { s with link := { s.link with job := s.link.job.map f } }

/-- The job goes on: its scalar or its nonce is drawn, and an engine asked for (R346, R383). Without random numbers or
an engine in service the answer is `Unspecified` (R385, R399). -/
def State.spdmGo (s : State) : State :=
  match s.link.job with
  | none => s
  | some j =>
    if !s.kindServes false then s.spdmError 0x05
    else match s.draw 0 (if j.step = .agree then 48 else 32) false with
      | .wait => s.waitFor .spdm
      | .fail s1 => s1.spdmError 0x05
      | .ok b _ s1 =>
        let s2 := s1.modJob fun x => if j.step = .agree then { x with eph := b } else { x with nonce := b }
        { s2 with signet := { s2.signet with
          queue := s2.signet.queue ++ [{ client := .spdm j.number, lattice := false, scheme := 0x02 }] } }

/-- A job begins: the mailbox is Busy until its answer stands. -/
def State.spdmBegin (s : State) (step : SpdmStep) (kind : Nat) (data peer : Bytes) : State :=
  let t := s.freshBytes 48
  let n := t.2.link.jobs + 1
  let j : SpdmJob := { number := n, step := step, kind := kind, data := data, peer := peer, hash := t.1 }
  ({ t.2 with link := { t.2.link with job := some j, jobs := n, doeBusy := true, answer := none } } : State).spdmGo

/-- A signed answer: its data, a fresh nonce, and the signature; `Unspecified` when the device has no identity key
(R70). -/
def State.signedReply (s : State) (kind : Nat) (data : Bytes) : State :=
  if s.life.idKey.isNone then s.spdmError 0x05 else s.spdmBegin .sign kind data []

/-- The job fails for want of random numbers (R385). -/
def State.spdmFail (s : State) (n : Nat) : State := if (s.spdmJob n).isNone then s else s.spdmError 0x05

/-- What the job's operation signs with the identity key: none where the nonce drawn gives no signature. -/
def State.spdmSignature (s : State) (n : Nat) (rnd : Bytes) : Option Bytes :=
  match s.spdmJob n, s.life.idKey with
  | some j, some k => if j.step = .sign then signBytes 0x02 0x02 1 k [] rnd j.hash else some []
  | _, _ => some []

/-- The session of a `KEY_EXCHANGE` that has been answered. -/
def State.openSession (s : State) (secret : Bytes) : State :=
  let id := s.link.nextSession
  { s with link := { s.link with sessions := s.link.sessions ++ [⟨id, false, secret, 0⟩], nextSession := id + 1 } }

/-- The job's operation on an engine has ended. After the agreement comes the signature; a scalar out of range is drawn
again (R368). -/
def State.spdmOpDone (s : State) (n : Nat) (sig : Bytes) : State :=
  match s.spdmJob n with
  | none => s
  | some j =>
    match j.step with
    | .agree =>
      if !curve384.scalarOk j.eph then s.spdmGo
      else match curve384.ecdh j.eph (0x04 :: fit 96 j.peer) with
        | none => s.spdmError 0x01
        | some x =>
          let own := (curve384.public j.eph).drop 1
          (s.modJob fun y => { y with step := .sign, secret := x, data := j.data ++ own }).spdmGo
    | .sign =>
      if s.life.idKey.isNone then s.spdmError 0x05
      else
        let s1 := s.reply j.kind (j.data ++ j.nonce ++ sig)
        if j.kind = 0x64 then s1.openSession j.secret else s1

/-- CHALLENGE (R388). -/
def execChallenge (q : DoeReq) (slot : BitVec 4) (_nonce : BitVec 256) (s : State) : Host.Outcome State Fault Refusal :=
  .next <| s.spdm q fun x =>
    if !x.link.negotiated then x.spdmError 0x04
    else match x.certChain slot.toNat with
      | none => x.spdmError 0x01
      | some c => (x.noteTie (.sys 0x06 slot.toNat)).signedReply 0x03 (sha384 c)

/-- The content of measurement block `i` (R73, R338, R566). -/
def State.measured (s : State) (i : Nat) : Bytes :=
  match i with
  | 2 => sha384 s.activeCrown.area
  | 3 => sha384 (leBytes 4 s.lcs.code.toNat ++ (match s.grantNow with
    | some g => leBytes 2 g.scope.toNat ++ leBytes 4 g.duration
    | none => []))
  | 4 => s.appletMeasure
  | 5 => sha384 ((List.range 8).map fun k =>
      let h := s.hallmark (56 + k)
      if h.torn then List.replicate 48 0xFF else fit 48 h.h).flatten
  | 6 => sha384 ([BitVec.ofNat 8 s.start.failStep, BitVec.ofNat 8 (s.start.consec + if s.start.stuck then 4 else 0)] ++
      (List.range 16).map fun f => match s.fctState f with
        | .fencedSoft => 4 | .fencedStart => 5 | .fencedAlarm => 6
        | _ => 0)
  | _ => sha384 (leBytes 262144 Config.crownRom.toNat)

/-- A measurement block in DMTF format (R73): index, specification, size, then value type, value size and the digest.
The value types are those of SPDM 1.2: 0 ROM, 1 firmware, 2 hardware configuration, 3 firmware configuration
(log entry 33, PRESUMED). -/
def State.measureBlock (s : State) (i : Nat) : Bytes :=
  let kind : Byte := match i with
    | 2 | 4 => 1
    | 3 | 6 => 2
    | 5 => 3
    | _ => 0
  [BitVec.ofNat 8 i, 1] ++ leBytes 2 51 ++ [kind] ++ leBytes 2 48 ++ fit 48 (s.measured i)

/-- GET_MEASUREMENTS (R73): index 0 asks for their number, 255 for all of them. The answer gives that number where it
is asked for, then the number of blocks, their length and the blocks. -/
def execGetMeasurements (q : DoeReq) (index : Byte) (nonce : Option (BitVec 256)) (s : State) :
    Host.Outcome State Fault Refusal :=
  .next <| s.spdm q fun x =>
    if !x.link.negotiated then x.spdmError 0x04
    else
      let i := index.toNat
      let l := if i = 255 then [1, 2, 3, 4, 5, 6] else if i = 0 ∨ 6 < i then [] else [i]
      if 6 < i ∧ i ≠ 255 then x.spdmError 0x01
      else
        let blocks := (l.map x.measureBlock).flatten
        let data := [if i = 0 then 6 else 0, BitVec.ofNat 8 l.length] ++ leBytes 3 blocks.length ++ blocks
        if nonce.isSome then x.signedReply 0x60 data else x.reply 0x60 data

/-- An open session. -/
def State.session (s : State) (i : Option Nat) : Option Session :=
  i.bind fun n => s.link.sessions.find? fun x => x.id == n
/-- The sessions changed. -/
def State.modSessions (s : State) (f : List Session → List Session) : State :=
  { s with link := { s.link with sessions := f s.link.sessions } }

/-- KEY_EXCHANGE (R71, R74, R344): the agreement runs on a signet engine, and the signature after it. The peer's
point comes as X ‖ Y (log entry 33, PRESUMED). -/
def execKeyExchange (q : DoeReq) (slot : BitVec 4) (peer : Bytes) (s : State) : Host.Outcome State Fault Refusal :=
  .next <| s.spdm q fun x =>
    if !x.link.negotiated then x.spdmError 0x04
    else if !x.link.keyed then x.spdmError 0x07
    else if (x.certChain slot.toNat).isNone then x.spdmError 0x01
    else
      let x := x.noteTie (.sys 0x06 slot.toNat)
      if 4 ≤ x.link.sessions.length then x.spdmError 0x0A
      else if x.life.idKey.isNone then x.spdmError 0x05
      else x.spdmBegin .agree 0x64 [] peer

/-- FINISH (R71): a wrong MAC ends the session that is being made. -/
def execFinish (q : DoeReq) (macOk : Bool) (s : State) : Host.Outcome State Fault Refusal :=
  .next <| s.spdm q fun x =>
    match x.session q.session with
    | none => x.spdmError 0x0B
    | some y =>
      if y.finished then x.spdmError 0x04
      else if !macOk then (x.modSessions fun l => l.filter fun z => z.id != y.id).spdmError 0x06
      else (x.modSessions fun l => l.map fun z => if z.id = y.id then { z with finished := true } else z).reply 0x65 []

/-- A request that belongs into a finished session. -/
def State.inSession (s : State) (q : DoeReq) (act : State → Session → State) : State :=
  match s.session q.session with
  | none => s.spdmError 0x0B
  | some y => if y.finished then act s y else s.spdmError 0x04

/-- HEARTBEAT (R71). -/
def execHeartbeat (q : DoeReq) (s : State) : Host.Outcome State Fault Refusal :=
  .next <| s.spdm q fun x => x.inSession q fun y _ => y.reply 0x68 []

/-- KEY_UPDATE (R71): the session's keys advance by one generation. -/
def execKeyUpdate (q : DoeReq) (s : State) : Host.Outcome State Fault Refusal :=
  .next <| s.spdm q fun x => x.inSession q fun y w =>
    (y.modSessions fun l => l.map fun z => if z.id = w.id then { z with generation := z.generation + 1 } else z).reply
      0x69 []

/-- END_SESSION (R71). -/
def execEndSession (q : DoeReq) (s : State) : Host.Outcome State Fault Refusal :=
  .next <| s.spdm q fun x => x.inSession q fun y w =>
    (y.modSessions fun l => l.filter fun z => z.id != w.id).reply 0x6C []

/-! IDE_KM (R78, R80). -/

/-- The request comes in a finished session (R78). -/
def State.secured (s : State) (q : DoeReq) : Bool := ((s.session q.session).map (·.finished)).getD false

/-- QUERY: for the stream, whether it is Secure and how many keys each set holds. The manual gives no layout of the
IDE_KM answers, and a refusal outside a secured session for `KEY_PROG` alone: QUERY, K_SET_GO and K_SET_STOP are
answered there with the SPDM error 0x0B (log entry 33, DESIGN CHOICE). -/
def execIdeQuery (q : DoeReq) (stream : Fin 5) (s : State) : Host.Outcome State Fault Refusal :=
  .next <| s.spdm q fun x =>
    if !x.secured q then x.spdmError 0x0B
    else
      let y := x.ide stream
      let n := fun (k : Nat) => (y.keys.filter fun e => e.1 / 6 == k).length
      x.reply 0x7E [1, BitVec.ofNat 8 stream.val, if y.secure then 1 else 0, BitVec.ofNat 8 (n 0), BitVec.ofNat 8 (n 1)]

/-- KEY_PROG: a `KP_ACK`, whose status is failure outside a secured session (R78); the value 1 of that status and the
3 bytes of the answer are the model's (log entry 33, DESIGN CHOICE). -/
def execKeyProg (q : DoeReq) (stream : Fin 5) (set : Fin 2) (sub : Fin 6) (key : BitVec 256) (s : State) :
    Host.Outcome State Fault Refusal :=
  .next <| s.spdm q fun x =>
    if !x.secured q then x.reply 0x7E [3, BitVec.ofNat 8 stream.val, 1]
    else
      let k := 6 * set.val + sub.val
      let y := x.ide stream
      (x.setIde stream { y with keys := (y.keys.filter fun e => e.1 != k) ++ [(k, leBytes 32 key.toNat)] }).reply 0x7E
        [3, BitVec.ofNat 8 stream.val, 0]

/-- A key set holds all six keys (R77). -/
def IdeStream.full (x : IdeStream) (set : Nat) : Bool := (x.keys.filter fun e => e.1 / 6 == set).length == 6

/-- K_SET_GO (R80): a set that holds its keys is set going. -/
def execKSetGo (q : DoeReq) (stream : Fin 5) (set : Fin 2) (s : State) : Host.Outcome State Fault Refusal :=
  .next <| s.spdm q fun x =>
    if !x.secured q then x.spdmError 0x0B
    else
      let y := x.ide stream
      let z := if y.full set then { y with set := set.val, secure := true } else y
      (x.setIde stream z).reply 0x7E [5, BitVec.ofNat 8 stream.val]

/-- K_SET_STOP (R78): the manual names the message alone; here the set's keys are given up, and a stream that ran under
it is Insecure (log entry 33, DESIGN CHOICE). -/
def execKSetStop (q : DoeReq) (stream : Fin 5) (set : Fin 2) (s : State) : Host.Outcome State Fault Refusal :=
  .next <| s.spdm q fun x =>
    if !x.secured q then x.spdmError 0x0B
    else
      let y := x.ide stream
      let keys := y.keys.filter fun e => e.1 / 6 != set.val
      let z : IdeStream := if y.set = set.val ∨ !y.secure then { keys := keys, set := y.set } else { y with keys := keys }
      (x.setIde stream z).reply 0x7E [5, BitVec.ofNat 8 stream.val]

end Sys2Proof.Machine
end

