-- ==== Sys2Proof/Machine/Events.lean ====
section
/-!
DEFINITION. Events of the hallmark unit, the vault engine, the write port, the card ports and the standby
crown (R323, R425 to R431, R462, R606, R706, R719, R725, R741 to R743, R751, R857).
-/

namespace Sys2Proof.Machine

/-! Hallmark unit and vault engine. -/

/-- HALLMARK_EXTEND_APPLIED (R323): the extend at the head of the hallmark unit's queue is applied. -/
def execHallmarkExtendApplied (s : State) : Host.Outcome State Fault Refusal := .next s.applyExtend.onward

/-- FOLD_PASS (R431): the pass after a cut makes its last write. -/
def execFoldPass (env : Env) (s : State) : Host.Outcome State Fault Refusal :=
  .next ((s.hostStores env).foldAll env).onward

/-- ARM_BATCH_CLOSE (R429): the gathering time of the arm batch ends. -/
def execArmBatchClose (s : State) : Host.Outcome State Fault Refusal := .next s.closeBatch.onward

/-- ARM_COMPLETE (R428): step 4 of the arms whose bitmap page has been written. -/
def execArmComplete (s : State) : Host.Outcome State Fault Refusal := .next s.completeArms.onward

/-- BITMAP_SET_CLEAR (R427): the crown begins to clear the first page set that waits for it. -/
def execBitmapSetClear (s : State) : Host.Outcome State Fault Refusal :=
  .next <|
    match s.vault.clearing.find? fun k => !s.setClearing k with
    | none => s
    | some set => (s.clearSet set).onward

/-- PIP_ENTRY_REBUILD (R425): the vault engine rebuilds an entry whose CHECK has failed; captures that wait for it
go on. -/
def execPipEntryRebuild (endpoint : BitVec 20) (lineOk : Bool) (s : State) : Host.Outcome State Fault Refusal :=
  .next <|
    let e := endpoint.toNat
    if (s.pipe e).checkErr = 0 then s
    else
      let s1 := if lineOk || s.vault.cached.elem e then s else s.flawEntry e
      ((s1.rebuild e).capRetry fun c => c.endpoint == e).onward

/-- VAULT_CTL_FLUSH (R462). -/
def execVaultCtlFlush (fn : Fin 32) (s : State) : Host.Outcome State Fault Refusal :=
  .next (s.pfWrite fn 0x50000 State.flushVault)

/-! NVM write port. -/

/-- NVM_PAGE_WRITE_DONE (R706): the page write in progress ends. -/
def execNvmPageWriteDone (retries : Nat) (failed : Bool) (s : State) : Host.Outcome State Fault Refusal :=
  .next (s.pageDone retries failed).onward

/-! Card ports. -/

/-- CARD_RESPONSE (R741): the card answers the exchange in progress, or does not. -/
def execCardResponse (resp : CardResp) (s : State) : Host.Outcome State Fault Refusal :=
  .next (s.cardAnswer resp).onward

/-- SD_CARD_DETECT (R719): the level of `SD_CD_N`, debounced, with that of `SD_WP`. -/
def execSdCardDetect (present wp : Bool) (s : State) : Host.Outcome State Fault Refusal :=
  .next (if s.start.stage < 2 then s else (s.sdDetect present wp).onward)

/-- CC_CARD_DETECT (R743): the level of `CC_DET_N`. -/
def execCcCardDetect (present : Bool) (s : State) : Host.Outcome State Fault Refusal :=
  .next (if s.start.stage < 2 then s else (s.ccDetect present).onward)

/-- SD_BUSY_END (R724). -/
def execSdBusyEnd (s : State) : Host.Outcome State Fault Refusal := .next s.sdBusyEnd.onward

/-- SD_BUSY_TIMEOUT (R725). -/
def execSdBusyTimeout (s : State) : Host.Outcome State Fault Refusal := .next s.sdBusyTimeout.onward

/-- CC_VCC_CURRENT_LIMIT (R857). -/
def execCcVccCurrentLimit (s : State) : Host.Outcome State Fault Refusal :=
  .next (if s.cards.cc.active || s.cardBusy false then s.ccOff.onward else s)

/-- CC_DEACT (R751). -/
def execCcDeact (fn : Fin 32) (s : State) : Host.Outcome State Fault Refusal :=
  .next (s.pfWrite fn 0xD0000 fun x => x.ccOff.onward)

/-- SD_OFF (R751). -/
def execSdOff (fn : Fin 32) (s : State) : Host.Outcome State Fault Refusal :=
  .next (s.pfWrite fn 0xD0000 fun x => x.sdOff.onward)

/-! Takeover (R606). -/

/-- TAKEOVER: the standby takes over for a cause it has found; `cause` is one below its code. -/
def execTakeover (cause : Fin 3) (env : Env) (s : State) : Host.Outcome State Fault Refusal :=
  .next <|
    if s.start.stage < 2 ∨ !s.crowns.due.elem (cause.val + 1) ∨ !s.takeOk then s
    else ((s.hostStores env).takeOver (cause.val + 1) env).onward

end Sys2Proof.Machine
end

