-- ==== Sys2Proof/Machine/Post.lean ====
section
/-!
DEFINITION. A descriptor from its dispatch to the unit that runs it: the checks of R131 in their order, the reads
of steps 6 and 7, the start of step 8; what the ring engine holds, and which descriptor it dispatches next (R120 to
R137).
-/

namespace Sys2Proof.Machine

/-! Steps 1 to 5 (R131). -/

/-- Operations of other families that ring 0 alone accepts (R284, R452, R504, R560). -/
def ringZeroOnly : Op → Bool
  | .hmSetup | .vaultFormat | .vaultCheckpoint | .vaultCommit | .vaultImport | .vaultMoveOpen | .strandSetup | .strandClose
  | .appletInstall | .appletRemove | .appletSigner => true
  | _ => false

/-- What the active crown runs under a journal entry (R611). -/
def crownRuns (o : Op) (d : Desc) : Bool :=
  adminFamily o.family ||
  match o with
  | .hmRead | .hmReset | .hmLock | .hmSetup | .vaultFormat | .vaultCheckpoint | .vaultCommit | .vaultImport
  | .vaultMoveOpen | .appletInstall | .appletRemove | .appletSigner => true
  | .hmExtend => Nat.ble 56 d.hm
  | _ => false

/-- The life-cycle state opens the operation (R666); the provisioning opcodes are refused at step 8 (R679). -/
def lcsOpens (l : Lcs) (o : Op) : Bool :=
  match o, l with
  | .cerBegin, l | .cerShare, l | .cerFinish, l | .cerCancel, l => l == .production
  | _, .test | _, .production => true
  | _, _ => o.family == 1 || o.family == 0xB

/-- The ring and the function's permissions allow the operation (step 2; R134, R136, R666). -/
def State.allows (s : State) (r : Nat) (o : Op) : Bool :=
  let fam := o.family
  (r == 0 || !(adminFamily fam || ringZeroOnly o)) &&
  (fam == 1 || Nat.ble 10 fam || (s.fn (fnOf r)).perm.getLsbD (fam - 2)) && lcsOpens s.lcs o

/-- Facet work, which S3 serves once a facet has passed its BIST (R773). -/
def needsFacet (o : Op) (d : Desc) : Bool :=
  match o with
  | .capture => true
  | .digFlush => false
  | _ => o.family == 2 || (o.family == 3 && !crownRuns o d)

/-- The stage serves the operation (step 3; R771, R773). -/
def State.stageServes (s : State) (r : Nat) (o : Op) (d : Desc) : Bool :=
  let fam := o.family
  if s.start.stage < 3 then false
  else if s.start.stage = 4 then true
  else if s.isStuck then r == 0 && (fam == 1 || adminFamily fam)
  else r % 16 == 0 && fam != 4 && o != .appletInvoke && (!needsFacet o d || !s.serving.isEmpty)

/-- Operations that may form chains (R217). -/
def chainable (o : Op) : Bool := o.family == 2 && o != .aesKw

/-- Bytes of the body that are reserved and for which the chapter of the opcode gives no step of its own, so that
step 4 checks them (R126, R208, R221, R358, R531, R541, R544, R616, R668, R747). -/
def reservedZero (o : Op) (d : Desc) : Bool :=
  match o with
  | .fence => decide (d.fld 16 1 < 2) && allZero (d.bytes 17 47)
  | .cerBegin => allZero (d.bytes 24 40)
  | .cerShare => allZero (d.bytes 16 8) && allZero (d.bytes 26 38)
  | .cerFinish | .cerCancel | .crownSwap | .crownRejoin => allZero (d.bytes 16 48)
  | .strandSetup => allZero (d.bytes 36 28)
  | .strandCollect => allZero (d.bytes 17 31)
  | .strandClose => allZero (d.bytes 17 3) && allZero (d.bytes 24 40)
  | _ => match o.family with
    | 2 => d.fld 23 1 == 0
    | 4 => sigReserved d
    | 0xA => allZero (d.bytes 21 43)
    | 0xB => lcsReserved d
    | _ => true

/-- The checks of steps 2 to 4. A device that runs the END_OF_LIFE wipe serves families 0x01xx and 0x0Bxx
(R671). -/
def State.check4 (s : State) (r : Nat) (o : Op) (d : Desc) : Option Bad :=
  let fam := o.family
  if s.life.wiping && fam != 1 && fam != 0xB then some { status := .bringup, step := 3 }
  else if !s.allows r o then some { status := .notPermitted, step := 2 }
  else if !s.stageServes r o d then some { status := .bringup, step := 3 }
  else if s.halted && !haltServes r d then some { status := .deviceHalted, step := 3 }
  else if fam == 0xC && (s.nvm.recalling || s.nvm.scanning) then some { status := .nvmRecalling, step := 3 }
  else if !Nat.ble d.cls.toNat 3 || d.flags.toNat / 16 != 0 || ((d.more || d.cont) && !chainable o) ||
      (o == .cipherDrop && (d.more || !d.cont)) || !reservedZero o d then some { status := .descMalformed, step := 4 }
  else none

/-- The body checks of step 5, by the chapter that owns the family. A `NOP` or `FENCE` that declares a length is
refused here (R130; log entry 63, DESIGN CHOICE). -/
def State.bodyOk (s : State) (o : Op) (d : Desc) : Bool :=
  match o with
  | .nop => d.declLen == 0
  | .fence => d.declLen == 0
  | .snapshot => snapCheck5 d
  | .crownSwap | .crownRejoin => true
  | .cerBegin | .cerShare | .cerFinish | .cerCancel => cerCheck5 d
  | .capture => capCheck5 d
  | .strandSetup | .strandCollect | .strandClose => strandCheck5 d
  | _ => match o.family with
    | 2 => cipherCheck5 d
    | 3 => digCheck5 d
    | 4 => sigCheck5 d
    | 5 => vaultCheck5 d
    | 7 => appCheck5 s d
    | 8 => keyCheck5 d
    | 0xA => cardCheck5 d
    | 0xB => lcsCheck5 d
    | _ => nvmCheck5 d

/-! Steps 6 and 7. -/

/-- Lists, blocks and lengths of steps 6 and 7. -/
def State.readOp (s : State) (env : Env) (o : Op) (d : Desc) : Except Bad Got :=
  match o with
  | .nop | .fence | .cipherDrop | .digFlush | .crownSwap | .crownRejoin | .cerBegin | .cerShare | .cerFinish
  | .cerCancel => noRead d
  | .snapshot => snapRead s env d
  | .capture => capRead s env d
  | .strandSetup | .strandCollect | .strandClose => strandRead s env d
  | _ => match o.family with
    | 2 => cipherRead s env d
    | 3 => digRead s env d
    | 4 => sigRead s env d
    | 5 => vaultRead s env d
    | 7 => appRead s env d
    | 8 => keyRead s env d
    | 0xA => noRead d
    | 0xB => lcsRead s env d
    | _ => nvmRead s env d

/-- The offsets of an operation's buffer references. -/
def refsOf : Op → List Nat
  | .nop | .fence | .cipherDrop | .digFlush | .crownSwap | .crownRejoin | .cerBegin | .cerShare | .cerFinish
  | .cerCancel | .strandSetup | .strandClose | .sdInfo | .bundleWrite | .bundleImport | .ccInfo | .ccClear => []
  | .snapshot | .strandCollect | .keyImport | .keyExport | .keyPublic | .keyDecapsulate => [48]
  | .keyGenerate | .keyDestroy | .keyRelease | .keyLimit | .keyLoad | .keyScrub | .keyPurge => []
  | _ => [32, 48]

/-- The operation reads its input, or part of it, before a unit runs it on. -/
def readsEarly (o : Op) (d : Desc) : Bool :=
  d.declLen != 0 &&
  match o with
  | .hmExtend | .digCompare | .capture => true
  | _ => o.family == 5 || crownRuns o d

/-- Steps 6 to 8 read host memory before the descriptor reaches its unit: a list, a block, or early input. -/
def readsHost (o : Op) (d : Desc) : Bool :=
  ((refsOf o).any fun k => (d.ref k).sgl) || o == .capture || (o.family == 2 && o != .cipherDrop && needsParam d) ||
    readsEarly o d

/-! Step 8. -/

/-- Step 8 of an operation, by the chapter that owns it. -/
def State.startOp (s : State) (r seq : Nat) (o : Op) (d : Desc) (got : Got) (env : Env) : State :=
  match o with
  | .nop => s.finishDone r seq d 0 (d.bytes 16 16)
  | .fence => (s.modRing r fun x => x.setPhase seq .active).drain r
  | .cipherDrop => cipherCont s r seq d [] [] [] none
  | .digest | .digOpen => digOpen s r seq d got.1 got.2.1
  | .digUpdate | .digFinal | .digRead | .digRelease => digNamed s r seq d got.1 got.2.1 got.2.2 none
  | .digCompare => (digNamed s r seq d got.1 got.2.1 got.2.2 none).sched d.ctxFacet env.raw
  | .digFlush => digFlush s r seq d
  | .hmExtend => if crownRuns o d then hmStart s r d got else hmExtendFacet s r seq d got.2.2
  | .snapshot => (s.keepGot r seq got).snapAsk (.desc r seq)
  | .capture => capStart s r seq d got env
  | .strandSetup => strandSetup s r seq d
  | .strandCollect => strandCollect s r seq d got
  | .strandClose => strandClose s r seq d
  | .appletInvoke => appInvoke s r seq d got
  | .appletInstall => appInstall s d got env
  | .appletRemove => appRemove s d
  | .appletSigner => appSigner s d got env
  | .cerShare => if cerRefuse s d then s.crownFail (bad8 .notPermitted) else cerShare s d
  | .cerBegin | .cerFinish | .cerCancel => cerStart s d
  | .crownSwap | .crownRejoin => crownStart s d env
  | _ => match o.family with
    | 2 => if d.cont then cipherCont s r seq d got.1 got.2.1 got.2.2 none
           else cipherOpen s r seq d got.1 got.2.1 got.2.2
    | 3 => hmStart s r d got
    | 4 => sigStart s r seq d got
    | 5 => vaultStart s r seq d got env
    | 8 => keyStart s d got env
    | 0xA => cardStart s d
    | 0xB => lcsStart s d got env
    | _ => nvmStart s d got env

/-- A failure of steps 5 to 7: an opening cipher descriptor ends its chain unless that is open, a `CONT` descriptor and
one that names a context take it to their facet, a crown descriptor ends its journal entry (R133, R254, R262,
R294). -/
def State.failEarly (s : State) (r seq : Nat) (o : Op) (d : Desc) (b : Bad) : State :=
  if s.crowns.journal.any fun j => j.ring == r && j.seq == seq then s.crownFail b
  else match o with
    | .digUpdate | .digFinal | .digRead | .digCompare | .digRelease => digNamed s r seq d [] [] [] (some b)
    | _ =>
      if o.family ≠ 2 then s.claspBad r seq d b
      else if d.cont then cipherCont s r seq d [] [] [] (some b)
      else s.failOpening r seq d b

/-- A failure of steps 2 to 4: a `CONT` descriptor takes it to the facet of its chain, which ends there (R133). In HALT,
where no segment starts, it completes at once and cuts its chain (R137). -/
def State.failCheck (s : State) (r seq : Nat) (o : Op) (d : Desc) (b : Bad) : State :=
  if o.family == 2 && d.cont && !s.halted then cipherCont s r seq d [] [] [] (some b)
  else (s.cutChain r d).claspBad r seq d b

/-- A descriptor whose reads are outstanding takes its place on the facet of its open chain or of the context that it
names, which its ring holds from then on (R262, R294). -/
def State.reserveQueue (s : State) (r seq : Nat) (d : Desc) : State :=
  let q : Queued :=
    { ring := r, seq := seq, chain := none, ctx := none, ins := [], outs := [], block := [], bad := none, reading := true }
  if d.family == 2 && d.cont then match tget .free (s.ring r).chains (d.fld 22 1) with
    | .opened f => s.enqueue f { q with chain := some (d.fld 22 1) }
    | _ => s
  else if d.namesCtx then match s.dig d.ctxFacet d.ctxIndex with
    | none => s
    | some c =>
      if c.fn = fnOf r ∧ !c.oneShot ∧ (c.heldBy = none ∨ c.heldBy = some r) then
        (s.enqueue d.ctxFacet { q with ctx := some d.ctxIndex }).setDig d.ctxFacet d.ctxIndex
          (some { c with heldBy := some r })
      else s
  else s

/-- Steps 6 to 8. -/
def State.runOp (s : State) (r seq : Nat) (o : Op) (d : Desc) (env : Env) : State :=
  match s.readOp env o d with
  | .error b => (s.noteDma r d.tag b.dma).failEarly r seq o d { b with dma := none }
  | .ok got =>
    let mine := s.crowns.journal.any fun j => j.ring == r && j.seq == seq
    (if mine then s.crownKeep got else s).startOp r seq o d got env

/-- A descriptor dispatched (R131): with `env` its reads are made at once, without it they wait for
`HOST_READ_COMPLETE`; `weak` are the pages that a margin scan started now finds (R694). -/
def State.launch (s : State) (r : Nat) (w : Work) (env : Option Env) (weak : List Nat := []) : State :=
  let env0 : Env := env.getD { weak := weak }
  let d := w.desc
  match Op.decode d.opcode with
  | none => s.claspBad r w.seq d { status := .descOpcode, step := 1 }
  | some o =>
    match s.check4 r o d with
    | some b => s.failCheck r w.seq o d b
    | none =>
      match w.got with
      | some got => s.startOp r w.seq o d got env0
      | none =>
        if !s.bodyOk o d then s.failEarly r w.seq o d { status := .descMalformed, step := 5 }
        else
          let s1 := if crownRuns o d then s.crownTake r w.seq d ([], [], []) else s
          if crownRuns o d && s1.crowns.journal.isNone then s1
          else if env.isNone && readsHost o d then
            (s1.reserveQueue r w.seq d).modRing r fun x => x.setPhase w.seq .reading
          else s1.runOp r w.seq o d env0

/-! What the ring engine holds (R826). -/

/-- A `FENCE` fetched before holds the work (R127, R128). -/
def State.fenceHolds (s : State) (r : Nat) (w : Work) : Bool :=
  (ringsOf (fnOf r)).any fun q => (s.ring q).work.any fun v =>
    Nat.blt v.seq w.seq && v.desc.isFence && (v.phase == .active || v.phase == .fetched) &&
      (q == r || v.desc.fenceScope)

/-- Descriptors queued on a facet that `which` selects. -/
def queuedOn (x : Facet) (which : Queued → Bool) : Nat := (x.queue.filter which).length

/-- `CONT` descriptors in the queue of facet `f` (R262). -/
def State.contQueued (s : State) (f : Nat) : Nat := queuedOn (s.facet f) fun q => q.chain.isSome

/-- Digest descriptors that wait on facet `f` for a held context: a message or an earlier descriptor of the queue has
it (R295). -/
def Facet.digWaiting (x : Facet) : Nat :=
  ((List.range x.queue.length).filter fun k => match x.queue[k]?.bind (·.ctx) with
    | some i => (x.msgs.any fun m => m.kind == .digest i) || (x.queue.take k).any fun q => q.ctx == some i
    | none => false).length

/-- Why an operation cannot reach its unit now (R237, R262, R263, R290, R295, R347, R523, R532, R568, R122). -/
def State.unitHold (s : State) (r : Nat) (o : Op) (w : Work) : Option Nat :=
  let d := w.desc
  if o.family == 7 && Nat.ble 64 s.invWaiting then some 3
  else if crownRuns o d then (if s.crowns.journal.isSome && s.bodyOk o d then some 4 else none)
  else match o with
    | .digest => if w.got.isSome && (s.pickDig 1).isNone then some 0 else none
    | .digOpen => if w.got.isSome && (s.pickDig 1).isSome && (s.pickDig 17).isNone then some 0 else none
    | .digUpdate | .digFinal | .digRead | .digCompare | .digRelease =>
      if Nat.ble 16 (s.facet d.ctxFacet).digWaiting then some 1 else none
    | .capture =>
      if w.got.isSome && ((s.stream d.stream).setup.isSome || (s.pickFacet 1 w.need 512).isNone) then some 0 else none
    | .strandSetup => if w.got.isSome && (s.stream (d.fld 16 1)).setup.isSome then some 0 else none
    | _ => match o.family with
      | 2 =>
        if d.cont then match tget .free (s.ring r).chains (d.fld 22 1) with
          | .opened f => if Nat.ble 16 (s.contQueued f) then some 1 else none
          | _ => none
        else if w.got.isSome && (!d.more || (s.pickFacet 17 0 0).isSome) &&
            (s.pickFacet (if d.more then 17 else 1) w.need 0).isNone then some 0 else none
      | 4 => if Nat.ble 256 s.sigHeld then some 2 else none
      | _ => none

/-- Two descriptors of a ring belong to one chain, and so run one after another (R122). -/
def Desc.joins (a b : Desc) : Bool := a.family == 2 && b.family == 2 && a.chain.isSome && a.chain == b.chain

/-- An earlier descriptor of its chain has reads of steps 6 and 7 outstanding and no place in a facet's queue: this
one has nothing to queue behind yet (R122, R262). -/
def State.behindReads (s : State) (r : Nat) (w : Work) : Bool :=
  (s.ring r).work.any fun v => Nat.blt v.seq w.seq && v.phase == .reading && v.desc.joins w.desc &&
    (List.range 16).all fun f => (s.facet f).queue.all fun q => !(q.ring == r && q.seq == v.seq)

/-- Non-posted requests outstanding: polls, descriptor reads, and reads of dispatched descriptors (R49). -/
def State.outstanding (s : State) : Nat :=
  (s.fns.filter fun (e : Nat × Fn) => e.2.polling).length +
    (s.rings.map fun (e : Nat × Ring) =>
      e.2.reads.length + (e.2.work.filter fun w => w.phase == .reading).length).foldl (· + ·) 0

/-- A tag is free for a further request (R49). -/
def State.tagFree (s : State) : Bool := Nat.blt s.outstanding 1024

/-- The reason for which a fetched descriptor is held, if any, numbered as in `HIF.UNIT_WAIT`; 8, which no register
shows, is the wait for a tag (R49). In HALT what the rung does not serve is refused at once (R137). A `CONT`
descriptor that fails steps 2 to 4 still takes its place behind its chain (R133, R262). -/
def State.holdOf (s : State) (r : Nat) (w : Work) : Option Nat :=
  if s.halted && !haltServes r w.desc then none
  else if s.fenceHolds r w then some 5
  else match Op.decode w.desc.opcode with
    | none => none
    | some o =>
      let fails := (s.check4 r o w.desc).isSome
      if fails && !(o.family == 2 && w.desc.cont) then none
      else if s.behindReads r w then some 6
      else match s.unitHold r o w with
        | some k => some k
        | none => if !fails && w.got.isNone && readsHost o w.desc && !s.tagFree then some 8 else none

/-! Dispatch (R120). -/

/-- The oldest descriptor of each running ring that has not been dispatched. -/
def State.heads (s : State) : List (Nat × Work) :=
  s.rings.filterMap fun (e : Nat × Ring) =>
    if e.2.st = .running then (e.2.work.find? fun w => w.phase == .fetched).map fun w => (e.1, w) else none

/-- The descriptor that the ring engine dispatches next: class first, rings of one class in turn, the crown's hallmark
work among them (R286; log entry 63, DESIGN CHOICE). -/
def State.nextWork (s : State) : Option (Nat × Work) :=
  let l := s.heads.filter fun p => (s.holdOf p.1 p.2).isNone
  let c := (l.map fun p => p.2.cls).foldl max 0
  let top := l.filter fun p => p.2.cls == c
  match rrPick (tget 0 s.hif.rr c) (top.map (·.1)) with
  | none => none
  | some r => top.find? fun p => p.1 == r

/-- The descriptor dispatched. -/
def State.dispatchWork (s : State) (r : Nat) (w : Work) (env : Option Env) (weak : List Nat := []) : State :=
  ({ s with hif := { s.hif with rr := tset 0 s.hif.rr w.cls (rrNext 512 r) } } : State).launch r w env weak

/-- What the margin scan of a held `NVM_SCAN` finds when its turn comes: any pages of the user array, a free value
(R694; log entry 3, DESIGN CHOICE). -/
def State.scanFinds (s : State) (d : Desc) : List Nat × State :=
  if d.is .nvmScan then
    let t := s.freshBytes 2048
    ((List.range 16384).filterMap fun k => if bitOf (byteAt t.1 (k / 8)).toNat (k % 8) then some (16384 + k) else none,
      t.2)
  else ([], s)

/-- DISPATCH (R120). -/
def execDispatch (s : State) : Host.Outcome State Fault Refusal :=
  .next <|
    match s.nextWork with
    | none => s
    | some (r, w) =>
      let t := s.scanFinds w.desc
      (t.2.dispatchWork r w none t.1).onward

/-! Fetching (R87, R94, R99, R105). -/

/-- Function `f` is active but for its rings (R94): enabled, present, in D0, served by the stage. -/
def State.fnServed (s : State) (f : Nat) : Bool :=
  Nat.ble 3 s.start.stage && (s.fn f).en && s.fnExists f && !(s.fn f).d3hot && (!s.isStuck || f == 0)

/-- Ring `r` is one that a poll of its function looks at (R93, R138). -/
def State.ringPolled (s : State) (r : Nat) : Bool := (s.ring r).st == .running && (!s.isStuck || r == 0)

/-- Descriptors fetched or being fetched, and not dispatched (R99). -/
def Ring.undispatched (x : Ring) : Nat :=
  (x.work.filter fun w => w.phase == .fetched).length + (x.reads.map (·.count)).foldl (· + ·) 0

/-- One descriptor fetched (R98): `F` passes it, and it takes its place in the order of fetching. -/
def State.fetchDesc (s : State) (r : Nat) (d : Desc) : State :=
  let w : Work := { seq := s.hif.nextSeq, desc := d, cls := s.servedClass r d, phase := .fetched }
  let s1 := s.modRing r fun x => { x with f := x.f + 1, work := x.work ++ [w] }
  ({ s1 with hif := { s1.hif with nextSeq := s1.hif.nextSeq + 1 } } : State).bump 0 (2 * r) 1

/-! Posting (R88, R91, R92). -/

/-- Host address of a ring's word in its function's doorbell region (R91). -/
def State.doorbell (s : State) (r : Nat) : Nat := (s.fn (fnOf r)).db.toNat + 8 * (r % 16)

/-- P as the host holds it (R91). -/
def State.hostP (s : State) (r : Nat) : Word32 := BitVec.ofNat 32 (leNat (s.hostMem.readN (s.doorbell r) 4))

/-- The driver's stores of one post (R92): the descriptor in its submission slot, then the new P. -/
def State.driverPost (s : State) (r : Nat) (d : Desc) : State :=
  let x := s.ring r
  let p := s.hostP r
  (s.hostWrite (x.sqBase.toNat + 64 * (p.toNat % x.size)) (encodeDesc d)).hostWrite (s.doorbell r)
    (leBytes 4 (p + 1).toNat)

/-- The descriptor of a post. -/
def postDesc (o : Op) (p : Post) : Desc :=
  { opcode := o.code, flags := p.flags, cls := p.cls, tag := p.tag, declLen := p.declLen, body := fit 48 p.body }

/-- The device finds and fetches a post at once: its ring is polled, everything posted before has been fetched, and
there is room (R93 to R99). -/
def State.fetchesNow (s : State) (r : Nat) : Bool :=
  s.ringPolled r && s.fnServed (fnOf r) && s.hostP r == (s.ring r).f && (s.ring r).reads.isEmpty &&
    Nat.blt (s.ring r).undispatched 64

/-- A poll that finds work sets the interval to MIN (R95, R155). -/
def Fn.minInterval (x : Fn) : Nat :=
  let lim := fun (n : Nat) => if n = 0 then 1 else min n 1000
  min (lim x.pollMin.toNat) (lim x.pollMax.toNat)

/-- The host's own stores of a post, and the driver's (R92). -/
def State.stored (s : State) (o : Op) (p : Post) : State :=
  (s.hostStores p.env).driverPost p.ring (postDesc o p)

/-- The poll that finds a post: the function's interval falls to its minimum (R95). -/
def State.polled (s : State) (o : Op) (p : Post) : State :=
  (s.stored o p).modFn (fnOf p.ring) fun x => { x with interval := x.minInterval, pollFaults := 0 }

/-- One ring's P as a poll has read it: P − W and P − F are tested against N (R90). -/
def State.seeP (s : State) (r : Nat) (p : Word32) : State :=
  let s1 := s.modRing r fun x => { x with p := p }
  let x := s1.ring r
  if x.size < (p - x.w).toNat ∨ x.size < (p - x.f).toNat then s1.stopRing r 3 else s1

/-- The post stored, found and fetched. -/
def State.arrive (s : State) (o : Op) (p : Post) : State :=
  ((s.polled o p).fetchDesc p.ring (postDesc o p)).modRing p.ring fun x => { x with p := x.f }

/-- A post of operation `o`: the driver's stores; the poll that finds the descriptor, its fetch; and its dispatch
when the ring engine would dispatch it next, its reads being made at once. A ring that is not polled keeps it in host
memory. -/
def State.post (s : State) (o : Op) (p : Post) : State :=
  let s0 := s.hostStores p.env
  if (s0.ring p.ring).st = .disabled then s0
  else if s0.fetchesNow p.ring then
    let c := (s.polled o p).seeP p.ring ((s0.hostP p.ring) + 1)
    if (c.ring p.ring).st ≠ .running then c.onward
    else
      let a := s.arrive o p
      match a.nextWork with
      | none => a
      | some (q, w) =>
        if q = p.ring.val ∧ w.seq = s.hif.nextSeq then (a.dispatchWork p.ring w (some p.env)).onward else a
  else s.stored o p

end Sys2Proof.Machine
end

