-- ==== Sys2Proof/Machine/Rings.lean ====
section
/-!
DEFINITION. Polling and fetching, reads of dispatched descriptors, ageing, segment ends, interrupts, and the control
of rings and functions (R87 to R101, R118 to R123, R139 to R144, R267 to R273).
-/

namespace Sys2Proof.Machine

/-! Polling (R90 to R97). -/

/-- Longest poll interval (R155). -/
def Fn.maxInterval (x : Fn) : Nat := if x.pollMax = 0 then 1 else min x.pollMax.toNat 1000

/-- The 100 µs window of `HIF.POLL_RATE` that the present cycle lies in, and the counts moved on to it (R826). -/
def Hif.window (h : Hif) (tick : Nat) : Hif :=
  let w := tick / 25000
  if w = h.pollWin then h
  else { h with polls := if w = h.pollWin + 1 then h.pollNow else 0, pollNow := 0, pollWin := w }

/-- DOORBELL_POLL (R93, R94): an active function's doorbell region is read. -/
def execDoorbellPoll (f : Fin 32) (s : State) : Host.Outcome State Fault Refusal :=
  .next <|
    if (s.fn f).polling || !s.tagFree || !s.fnServed f || !(ringsOf f).any s.ringPolled then s
    else
      let h := s.hif.window s.tick
      ({ s with hif := { h with pollNow := min 4000 (h.pollNow + 1) } } : State).modFn f fun x =>
        { x with polling := true, wide := !s.isStuck }

/-- A poll made while `wide` looks at ring `r`: in STUCK mode at ring 0 alone (R138). -/
def State.pollSees (s : State) (wide : Bool) (r : Nat) : Bool := (s.ring r).st == .running && (wide || r == 0)

/-- One ring's P as a poll has read it (R90). -/
def State.pollRing (s : State) (wide : Bool) (r : Nat) (b : Bytes) : State :=
  if s.pollSees wide r then s.seeP r (BitVec.ofNat 32 (leField b (8 * (r % 16)) 4)) else s

/-- POLL_COMPLETE (R90, R95, R97): the poll read returns, or fails. -/
def execPollComplete (f : Fin 32) (env : Env) (s0 : State) : Host.Outcome State Fault Refusal :=
  .next <|
    if !(s0.fn f).polling then s0
    else
      let wide := (s0.fn f).wide
      let s := (s0.hostStores env).modFn f fun x => { x with polling := false }
      let a := (s.fn f).db.toNat
      match s.hostFetch env a 128 with
      | .error e =>
        let s1 := (s.noteDma (16 * f.val) 0 (some (a, e, 1))).modFn f fun x =>
          { x with pollFaults := min 255 (x.pollFaults + 1), interval := x.minInterval }
        if (s1.fn f).pollFaults < 8 then s1
        else ((ringsOf f).foldl (fun (t : State) r => t.stopRing r 5) s1).onward
      | .ok b =>
        let found := (ringsOf f).any fun r =>
          s.pollSees wide r && leField b (8 * (r % 16)) 4 != (s.ring r).f.toNat
        let s1 := s.modFn f fun x => { x with
          pollFaults := 0
          interval := if found then x.minInterval else min (2 * x.interval) x.maxInterval }
        ((ringsOf f).foldl (fun (t : State) r => t.pollRing wide r b) s1).onward

/-! Fetching (R98 to R100). -/

/-- DESCRIPTOR_FETCH (R98, R99): up to 16 descriptors in one read that stays within the ring. In STUCK mode a ring of
the PF other than ring 0 still gives up what a poll made before has found (R138). -/
def execDescriptorFetch (ring : Fin 512) (s : State) : Host.Outcome State Fault Refusal :=
  .next <|
    let x := s.ring ring
    let next := x.f + BitVec.ofNat 32 ((x.reads.map (·.count)).foldl (· + ·) 0)
    let ahead := (x.p - next).toNat
    let n := min (min ahead 16) (min (x.size - next.toNat % x.size) (64 - x.undispatched))
    if (s.ring ring).st != .running || !s.tagFree || !s.fnServed (fnOf ring) || Nat.blt x.size ahead || n == 0 then s
    else s.setRing ring { x with reads := x.reads ++ [⟨next, n⟩] }

/-- What completes a descriptor that has been fetched after its ring had left `RUNNING` (R98, R140). -/
def Ring.stopStatus (x : Ring) : Status := if x.cause = 6 then .functionDisabled else .ringStopped

/-- FETCH_COMPLETE (R98, R100): the oldest descriptor read of the ring returns, or fails. -/
def execFetchComplete (ring : Fin 512) (env : Env) (s0 : State) : Host.Outcome State Fault Refusal :=
  .next <|
    match (s0.ring ring).reads with
    | [] => s0
    | rd :: rest =>
      let s := s0.hostStores env
      let x := s.ring ring
      let a := x.sqBase.toNat + 64 * (rd.first.toNat % x.size)
      match s.hostFetch env a (64 * rd.count) with
      | .error e =>
        -- reads of the ring still in flight return as usual
        let s1 := (s.setRing ring { x with reads := rest }).noteDma ring 0 (some (a, e, 2))
        (if x.st = .running then s1.stopRing ring 4 else s1.settle ring).onward
      | .ok b =>
        let s1 := s.setRing ring { x with reads := rest }
        let s2 := (List.range rd.count).foldl (fun (t : State) k =>
          t.fetchDesc ring (decodeDesc (slice b (64 * k) 64))) s1
        (if x.st = .running then s2
         else (s2.refuseFetched ring x.stopStatus).drain ring).onward

/-! Dispatched descriptors (R131, R121, R267). -/

/-- HOST_READ_COMPLETE (R131): the reads of steps 6 and 7 of the ring's `n`-th descriptor that waits for them. -/
def execHostReadComplete (ring : Fin 512) (n : Nat) (env : Env) (s0 : State) : Host.Outcome State Fault Refusal :=
  .next <|
    match ((s0.ring ring).work.filter fun w => w.phase == .reading)[n]? with
    | none => s0
    | some w =>
      let s := s0.hostStores env
      match Op.decode w.desc.opcode with
      | none => s
      | some o => (s.runOp ring w.seq o w.desc env).onward

/-- SCHED_AGE_EXPIRY (R121, R271): what has waited for the ageing period is raised one class. -/
def execSchedAgeExpiry (target : AgeOf) (s : State) : Host.Outcome State Fault Refusal :=
  .next <|
    if s.hif.schedAge = 0 then s
    else match target with
      | .ring r n =>
        match ((s.ring r).work.filter fun w => w.phase == .fetched)[n]? with
        | none => s
        | some w => s.modRing r fun x => { x with work := x.work.map fun v =>
            if v.seq = w.seq then { v with cls := min 3 (v.cls + 1) } else v }
      | .facet f id =>
        match (readyMsgs (s.facet f)).find? fun m => m.id == id with
        | none => s
        | some m =>
          if 3 ≤ m.clsNow then s
          else
            let s1 := s.modMsg f id fun y => { y with clsNow := y.clsNow + 1 }
            { s1 with fctRegs := tmod {} s1.fctRegs f fun (x : FctRegs) =>
                { x with ageRaises := min (x.ageRaises + 1) (2 ^ 32 - 1) } }

/-- The message on a lane, with the length of its segment. -/
def State.onLane (s : State) (f lane : Nat) : Option (Msg × Nat) :=
  (s.facet f).msgs.findSome? fun m => match m.st with
    | .onLane l n => if l = lane then some (m, n) else none
    | _ => none

/-- SEGMENT_END (R267 to R273): the segment on a lane ends; an aborted message goes no further. -/
def execSegmentEnd (f : Fin 16) (lane : Fin 8) (env : Env) (stageFails : Bool) (s0 : State) :
    Host.Outcome State Fault Refusal :=
  .next <|
    match s0.onLane f lane with
    | none => s0
    | some (m, n) =>
      let s := s0.hostStores env
      let s1 := match m.kind with
        | .cipher c => cipherSegEnd s f m c n env
        | .digest i => digSegEnd s f m i n env
        | .capture c => capSegEnd s f m c n env stageFails
      let s2 := match s1.msg f m.id with
        | some y => if m.aborted && y.st == MsgSt.parked then s1.endMsg f y (bad8 .aborted) else s1
        | none => s1
      (s2.sched f env.raw).onward

/-! Interrupts (R118, R119). -/

/-- COAL_TIME_EXPIRY (R118). -/
def execCoalTimeExpiry (ring : Fin 512) (s : State) : Host.Outcome State Fault Refusal :=
  .next (if (s.ring ring).timing then s.trigger ring else s)

/-- A vector unmasked: if it is pending it is sent (R119). -/
def State.unmask (s : State) (f v : Nat) : State :=
  let bit := BitVec.ofNat 64 (2 ^ v)
  let s1 := s.modFn f fun x => { x with msixMask := x.msixMask &&& ~~~bit }
  let x := s1.fn f
  if x.d3hot || !x.msixPend.getLsbD v then s1
  else (s1.modFn f fun y => { y with msixPend := y.msixPend &&& ~~~bit }).sendMsix f v

/-- MSIX_UNMASK (R119): a pending vector is sent when it is unmasked. -/
def execMsixUnmask (f : Fin 32) (vector : Fin 64) (s : State) : Host.Outcome State Fault Refusal :=
  .next <| if s.start.stage < 3 ∨ !s.fnExists f then s else s.unmask f vector

/-! Control of rings (R140 to R144). -/

/-- Address of `RNG.CTL` of a ring as function `f` reaches it (R146, R810). -/
def rngCtl (f r : Nat) : Nat := if f = 0 then 0x20018 + 32 * r else 32 * (r % 16) + 0x18

/-- A write of function `f` to `RNG.CTL` of ring `r`: the PF reaches every ring, a VF its own (R817). -/
def State.ringWrite (s : State) (f r : Nat) (act : State → State) : State :=
  if s.start.stage < 3 ∨ !s.fnExists f then s
  else if f ≠ 0 ∧ fnOf r ≠ f then s.violation 1 f true (rngCtl f r)
  else act s

/-- A ring enabled (R140, R143, R253). -/
def State.ringEnable (t : State) (r : Nat) : State :=
  let x := t.ring r
  if x.st = .disabled then
    t.setRing r { x with
      st := .running, cause := 0, f := 0, w := 0, p := 0, chains := [], since := 0, timing := false }
  else if x.st = .stopped then t.setRing r { x with st := .running, cause := 0, p := x.f }
  else t

/-- RING_EN (R140, R143, R253). -/
def execRingEn (fn : Fin 32) (ring : Fin 512) (s : State) : Host.Outcome State Fault Refusal :=
  .next <| s.ringWrite fn ring fun t => t.ringEnable ring

/-- Collects that wait on a ring, ended as refused (R543). -/
def State.abortCollects (s : State) (r : Nat) : State :=
  let l := s.streams.flatMap fun (e : Nat × Stream) => e.2.collects.filter fun p => p.1 == r
  let s1 : State := { s with streams := s.streams.map fun (e : Nat × Stream) =>
    (e.1, { e.2 with collects := e.2.collects.filter fun p => p.1 != r }) }
  l.foldl (fun (a : State) p => a.failWork p.1 p.2 (bad8 .aborted)) s1

/-- A ring stopped by its driver (R140, R543). -/
def State.ringHalt (t : State) (r : Nat) : State :=
  if (t.ring r).st = .running then ((t.stopRing r 1).abortCollects r).onward else t

/-- RING_STOP (R140, R543). -/
def execRingStop (fn : Fin 32) (ring : Fin 512) (s : State) : Host.Outcome State Fault Refusal :=
  .next <| s.ringWrite fn ring fun t => t.ringHalt ring

/-- A digest descriptor that has not started, on a context opened before it: refused, and the context left exactly
as it was (R319). -/
def State.refuseDig (s : State) (f : Nat) (m : Msg) : State :=
  match m.kind, m.st, s.descOf m.ring m.seq with
  | .digest i, .ready, some d =>
    if d.is .digUpdate || d.is .digFinal then
      let s1 : State := { s with marks := s.marks.filter fun x => x.seq != m.seq }
      ((((s1.dropMsg f m.id).noteEndOf f m.ring m.seq .aborted).bump (1 + f) 2 1).failWork m.ring m.seq
        (bad8 .aborted)).unholdCtx f i
    else s
  | _, _, _ => s

/-- Facet work of a ring at an abort (R142, R273, R527): a message on a lane ends at its segment boundary, one that
waits at once; what is queued is refused. -/
def State.abortFacet (s : State) (f r : Nat) : State :=
  let s1 := s.failQueue f (fun q => q.ring == r) .aborted
  let s2 := s1.modFacet f fun x => { x with msgs := x.msgs.map fun m => match m.st with
    | .onLane _ _ => if m.ring = r then { m with aborted := true } else m
    | _ => m }
  let s3 := ((s2.facet f).msgs.filter fun m => m.ring == r).foldl (fun (a : State) m => a.refuseDig f m) s2
  s3.endMsgs f (fun m => m.ring == r && match m.st with
    | .onLane _ _ | .extending => false
    | _ => true) .aborted

/-- Signet descriptors of a ring that have not reached an engine (R142). -/
def State.abortSignet (s : State) (r : Nat) : State :=
  let mine := fun (q : SigReq) => match q.client with
    | .desc g _ => g == r
    | _ => false
  let draws := s.signet.waits.filterMap fun w => match w with
    | .random g k => if g = r then some k else none
    | _ => none
  let seqs := (s.signet.queue.filter mine).filterMap fun q => match q.client with
    | .desc _ k => some k
    | _ => none
  let s1 : State := { s with signet := { s.signet with
    queue := s.signet.queue.filter fun q => !mine q
    waits := s.signet.waits.filter fun w => match w with
      | .random g _ => g != r
      | _ => true } }
  let s2 := seqs.foldl (fun (a : State) k => match a.descOf r k with
    | some d => (a.sigGiveBack d).finishBad r k d (bad8 .aborted)
    | none => a) s1
  draws.foldl (fun (a : State) k => a.failWork r k (bad8 .aborted)) s2

/-- Strand set-ups and closings of a ring that wait, and its snapshot requests, ended as refused. -/
def State.abortWaits (s : State) (r : Nat) : State :=
  let setups := s.streams.filterMap fun (e : Nat × Stream) => e.2.setup.filter fun p => p.1 == r
  let closers := s.streams.flatMap fun (e : Nat × Stream) => e.2.closers.filter fun p => p.1 == r
  let mine := fun (q : SnapReq) => match q with
    | .desc g _ => g == r
    | .reg => false
  let reqs := ((s.snp.run.map (·.reqs)).getD [] ++ s.snp.waiting).filterMap fun q => match q with
    | .desc g k => if g = r then some (g, k) else none
    | .reg => none
  let s1 : State := { s with
    streams := s.streams.map fun (e : Nat × Stream) => (e.1, { e.2 with
      setup := e.2.setup.filter fun p => p.1 != r, closers := e.2.closers.filter fun p => p.1 != r })
    snp := { s.snp with
      run := s.snp.run.map fun x => { x with reqs := x.reqs.filter fun q => !mine q }
      waiting := s.snp.waiting.filter fun q => !mine q } }
  (setups ++ closers ++ reqs).foldl (fun (a : State) p => a.failWork p.1 p.2 (bad8 .aborted)) s1

/-- A dispatched descriptor refused before a unit has taken it: an opening cipher descriptor ends its `CHAIN_ID`
(R254), a context it named is no longer held by it (R294). -/
def State.failRead (s : State) (r : Nat) (w : Work) (b : Bad) : State :=
  let d := w.desc
  let s0 := s.unqueue r w.seq
  let s1 := if d.family == 2 && d.opens then s0.failOpening r w.seq d b
    else (s0.cutChain r d).finishBad r w.seq d b
  if d.namesCtx then s1.unholdCtx d.ctxFacet d.ctxIndex else s1

/-- Descriptors of a ring whose reads are outstanding, and its fences: refused. The crown's descriptor runs on
(R141). -/
def State.abortReading (s : State) (r : Nat) : State :=
  let mine := fun (w : Work) => s.crowns.journal.any fun j => j.ring == r && j.seq == w.seq
  ((s.ring r).work.filter fun w => (w.phase == .reading && !mine w) || (w.phase == .active && w.desc.isFence)).foldl
    (fun (a : State) w => a.failRead r w (bad8 .aborted)) s

/-- A ring aborted (R140 to R142, R588). -/
def State.ringEnd (t : State) (r : Nat) : State :=
  let st := (t.ring r).st
  if st ≠ .running ∧ st ≠ .stopping then t
  else
    -- the ring cannot settle before its work has been ended: it is put into `STOPPING` first
    let s1 := (t.refuseFetched r .ringStopped).modRing r fun x => { x with st := .stopping, cause := 2 }
    let s2 := (((s1.abortReading r).abortCollects r).abortSignet r).abortWaits r
    let s3 := s2.endInvocations (fun i => match i.kind with
      | .invoke g _ => g == r
      | .hook _ _ => false) (some .aborted)
    ((List.range 16).foldl (fun (a : State) f => a.abortFacet f r) s3 |>.drain r).onward

/-- RING_ABORT (R140 to R142, R588). -/
def execRingAbort (fn : Fin 32) (ring : Fin 512) (s : State) : Host.Outcome State Fault Refusal :=
  .next <| s.ringWrite fn ring fun t => t.ringEnd ring

/-- A `STOPPED` ring returned to `DISABLED`; its open chains end (R140, R273). -/
def State.ringClear (t : State) (r : Nat) : State :=
  if (t.ring r).st ≠ .stopped then t
  else
    let s1 := (List.range 16).foldl (fun (a : State) f =>
      ((a.facet f).msgs.filter fun m => m.ring == r && m.st == .await).foldl (fun (b : State) m => b.vanishMsg f m) a) t
    (s1.modRing r fun x => { x with st := .disabled, cause := 0, chains := [] }).onward

/-- RING_RESET (R140, R273). -/
def execRingReset (fn : Fin 32) (ring : Fin 512) (s : State) : Host.Outcome State Fault Refusal :=
  .next <| s.ringWrite fn ring fun t => t.ringClear ring

/-- A function no longer served (R140, R156); `EN` of the PF stays 1. -/
def State.disableFn (t : State) (f : Nat) : State :=
  if f = 0 then t
  else
    let s1 := t.modFn f fun x => { x with en := false }
    ((ringsOf f).foldl (fun (a : State) r => a.stopRing r 6 .functionDisabled) s1).onward

/-- FUNCTION_DISABLED (R140, R156): the PF writes `HIF.FN_CFG.EN` of a VF with 0. -/
def execFunctionDisabled (fn : Fin 32) (f : Fin 32) (s : State) : Host.Outcome State Fault Refusal :=
  .next <| s.pfWrite fn (0x1010C + 32 * f.val) fun t => t.disableFn f

end Sys2Proof.Machine
end

