-- ==== Sys2Proof/Machine/Engines.lean ====
section
/-!
DEFINITION. The signet and lattice engines: taking a request, its random values and its charge, its end; waits for a
pool block (R344 to R350, R361 to R368, R376, R383 to R385, R399, R539, R615).
-/

namespace Sys2Proof.Machine

/-! Requests (R346). -/

/-- Engine `n` is a lattice engine (R344). -/
def latticeEngine (n : Nat) : Bool := Nat.ble 8 n

/-- The engine is idle and in service. -/
def SigEngine.free (e : SigEngine) : Bool := e.busy.isNone && !e.katFail

/-- The lowest-indexed free engine of a kind. -/
def State.freeEngine (s : State) (lattice : Bool) : Option Nat := (enginesOf lattice).find? fun n => (s.engine n).free

/-- A request's rank of client: crown, strand, descriptor. -/
def Client.rank : Client → Nat
  | .crown _ | .spdm _ => 0
  | .strand _ _ _ => 1
  | .desc _ _ => 2

/-- Where the pointer of an engine kind for a class stands. -/
def rrPlace (lattice : Bool) (cls : Nat) : Nat := cls + if lattice then 4 else 0

/-- The request that an engine of a kind takes next. -/
def State.nextRequest (s : State) (lattice : Bool) : Option SigReq :=
  let l := s.signet.queue.filter fun q => q.lattice == lattice
  match l.find? fun q => q.client.rank == 0 with
  | some q => some q
  | none => match l.find? fun q => q.client.rank == 1 with
    | some q => some q
    | none =>
      let who := l.filterMap fun q => match q.client with
        | .desc r k => some (s.workClass r k, r, k, q)
        | _ => none
      let c := (who.map (·.1)).foldl max 0
      let top := who.filter fun x => x.1 == c
      match rrPick (tget 0 s.signet.rr (rrPlace lattice c)) (top.map (·.2.1)) with
      | none => none
      | some r => ((top.filter fun x => x.2.1 == r).foldl (fun (b : Option (Nat × SigReq)) x => match b with
          | none => some (x.2.2.1, x.2.2.2)
          | some y => if x.2.2.1 < y.1 then some (x.2.2.1, x.2.2.2) else b) none).map (·.2)

/-- The request leaves the queue; a descriptor's moves its class's pointer. -/
def State.takeRequest (s : State) (q : SigReq) : State :=
  let g := s.signet
  let rr := match q.client with
    | .desc r k => tset 0 g.rr (rrPlace q.lattice (s.workClass r k)) (rrNext 512 r)
    | _ => g.rr
  { s with signet := { g with queue := g.queue.erase q, rr := rr } }

/-! Start of an operation (R350, R362, R367, R385, R539). -/

/-- Random bytes that a request draws of instance 1 at its start. -/
def State.drawNeed (s : State) (q : SigReq) : Nat :=
  match q.client with
  | .crown _ => 0
  | .spdm j => match s.link.job with
    | some x => if x.number = j ∧ x.step = .sign then signDraw 0x02 0x02 1 else 0
    | none => 0
  | .strand _ _ ml => if ml then 32 else 48
  | .desc r k => match s.descOf r k with
    | none => 0
    | some d => if d.is .sigVerify then 0 else signDraw (d.fld 20 1) (d.fld 21 1) d.sctl

/-- The slot that a strand's signature charges. -/
def Strand.key (x : Strand) (ml : Bool) : Nat := handleIndex (if ml then x.mlKey else x.ecKey).toNat

/-- The charge of a request taken back: an `ENTROPY_FAIL` charges no usage, also where the random bytes are drawn a
second time (R385). -/
def State.unchargeRequest (s : State) (q : SigReq) : State :=
  if !q.charged then s
  else match q.client with
    | .crown _ | .spdm _ => s
    | .strand i id ml => match s.strand i id with
      | none => s
      | some x => s.modSlot (x.key ml) fun k => k.uncharge 1 8
    | .desc r k => match s.descOf r k with
      | none => s
      | some d => s.modSlot (handleIndex (d.fld 16 4)) fun x => x.uncharge 1 (blocksOf (signedLen d))

/-- A request that no random data could be drawn for: the descriptor fails, a strand's signature is asked for again
after 1 ms; nothing is charged. -/
def State.noRandom (s0 : State) (q : SigReq) : State :=
  let s := s0.unchargeRequest q
  match q.client with
  | .crown _ => s
  | .spdm j => s.spdmFail j
  | .strand i id ml => match s.strand i id with
    | none => s
    | some x => s.putStrand { x with retry := x.retry ++ [if ml then 1 else 0] }
  | .desc r k => match s.descOf r k with
    | none => s
    | some d => (s.sigGiveBack d).finishBad r k d (bad8 .entropyFail)

/-- The charge of a request: the state after it, or the request ended without its operation. -/
def State.chargeRequest (s : State) (q : SigReq) : State × Bool :=
  match q.client with
  | .crown _ | .spdm _ => (s, true)
  | .strand i id ml => match s.strand i id with
    | none => (s, false)
    | some x =>
      if (s.slot (x.key ml)).mayCharge 1 8 then (s.modSlot (x.key ml) fun k => k.charge 1 8, true)
      else (s.strandSigned i id ml none, false)
  | .desc r k => match s.descOf r k with
    | none => (s, false)
    | some d => match sigCharge s d with
      | some s1 => (s1, true)
      | none => ((s.sigGiveBack d).finishBad r k d (bad8 .keySpent), false)

/-- An operation begins on engine `n`: its random values, then its charge. -/
def State.engineBegin (s : State) (n : Nat) (q : SigReq) : State :=
  let run := fun (t : State) (b : Bytes) =>
    let c := if q.charged then (t, true) else t.chargeRequest q
    c.1.setEngine n { c.1.engine n with busy := if c.2 then some { q with rnd := b } else none }
  let need := s.drawNeed q
  if need = 0 then run s []
  else match s.draw 1 need false with
    | .ok b _ s1 => run s1 b
    | .fail s1 => (s1.setEngine n { s1.engine n with busy := none }).noRandom q
    | .wait =>
      (s.setEngine n { s.engine n with busy := some q }).waitFor (.engine n)

/-- ENGINE_START (R346, R350): a free engine takes its next request and reads a descriptor's input. -/
def execEngineStart (n : Fin 12) (env : Env) (s0 : State) : Host.Outcome State Fault Refusal :=
  .next <|
    let ml := latticeEngine n
    if s0.freeEngine ml ≠ some n.val then s0
    else match s0.nextRequest ml with
      | none => s0
      | some q =>
        let s := (s0.hostStores env).takeRequest q
        (match q.client with
          | .crown _ | .spdm _ | .strand _ _ _ => s.engineBegin n q
          | .desc r k => match (s.ring r).find k with
            | none => s
            | some w =>
              let got := w.got.getD ([], [], [])
              match s.readAll env got.1 with
              | .error b => (s.sigGiveBack w.desc).finishBad r k w.desc { b with step := 8 }
              | .ok data =>
                let input := if w.desc.is .sigQuote then quoteBytes s w.desc data else data
                s.engineBegin n { q with input := input }).strandsGo.onward

/-! Ends (R363 to R368, R539, R615). -/

/-- What a crown verification checks: scheme, public key, signature, message. -/
def State.crownVerify (s : State) (j : Journal) (d : Desc) (b : Bytes) : Nat × Bytes × Bytes × Bytes :=
  if d.is .appletInstall then
    let n := 128 + 8 * moveCount b
    if j.step = 0 then (0x02, s.applets.signerEc, slice b n 96, b.take n)
    else (0x20, s.applets.signerMl, slice b (n + 96) 3309, b.take n)
  else if d.is .appletSigner then
    let n := b.length - 96
    (0x02, s.applets.signerEc, b.drop n,
      ascii "WOALE-APPLET-SIGNER" ++ leBytes 4 (s.applets.gen.toNat + 1) ++ b.take n)
  else if d.is .lcsDebugGrant then (0x02, s.life.debugKey, slice b 64 96, b.take 64)
  else (0x02, s.life.debugKey, slice b 97 96, debugKeyMsg s b)

/-- The crown goes on after a verification that succeeded. -/
def State.crownVerified (s : State) (j : Journal) (d : Desc) (b : Bytes) (env : Env) : State :=
  if d.is .appletInstall then
    if j.step = 0 ∧ bitOf (leField b 5 1) 1 then
      let s1 := s.modJournal fun x => { x with step := 1 }
      if s.applets.signerMl.isEmpty then s1.crownFail (bad8 .signatureBad) else s1.askCrown true 0x20
    else appInstallBind s d b env
  else if d.is .appletSigner then signerCommit s d b
  else if d.is .lcsDebugGrant then grantMade s b
  else debugKeyCommit s d (b.take 97)

/-- The flag of a verification whose journal entry is gone: the operation has run to its end (R345, R398). -/
def State.crownOpLost (s : State) (n : Nat) (q : SigReq) (env : Env) : State :=
  let checks := q.desc.any fun d => d.is .appletInstall || d.is .appletSigner || d.is .lcsDebugGrant || d.is .lcsDebugKey
  match env.raw with
  | some w => if checks then (s.noteWord n w).verdict w else s
  | none => s

/-- The crown's operation on engine `n` has ended; its result is discarded unless the entry of that number waits for
it (R615). -/
def State.crownOpDone (s : State) (n entry : Nat) (q : SigReq) (env : Env) : State :=
  match s.crownDesc with
  | none => s.crownOpLost n q env
  | some (j, d, got) =>
    if j.number ≠ entry ∨ j.wait ≠ .engine then s.crownOpLost n q env
    else if d.is .keyGenerate || d.is .keyDecapsulate then keyEngineDone s d got
    else if d.is .provIdkey then provIdkeyDone s got
    else
      let b := got.2.2
      let v := s.crownVerify j d b
      let w := sigVerdict (comparands v.1 (if v.1 = 0x20 then 0 else 2) 0 v.2.1 v.2.2.1 [] v.2.2.2) env.raw
      let s1 := s.noteWord n w
      (if w = 0x3CC3 then s1.crownVerified j d b env
       else if d.is .lcsDebugGrant then s1.grantRefuse (bad8 .signatureBad)
       else s1.crownFail (bad8 .signatureBad)).verdict w

/-- The ring's work in progress has been aborted (R142). -/
def State.ringAborted (s : State) (r : Nat) : Bool := (s.ring r).st == .stopping && (s.ring r).cause == 2

/-- The signature that a request asks for, or none where its random bytes give none. -/
def State.signatureOf (s : State) (q : SigReq) : Option Bytes :=
  match q.client with
  | .crown _ => some []
  | .spdm j => s.spdmSignature j q.rnd
  | .strand i id ml => match s.strand i id with
    | none => some []
    | some x => signBytes (if ml then 0x20 else 0x02) (if ml then 0 else 2) 0 (s.material (x.key ml)) [] q.rnd x.header
  | .desc r k => match s.descOf r k with
    | none => some []
    | some d => if d.is .sigVerify then some [] else sigOf s d q

/-- The operation of an engine has ended with what it signed. -/
def State.opDone (s : State) (n : Nat) (q : SigReq) (sig : Bytes) (env : Env) (signCheckFails : Bool) : State :=
  match q.client with
  | .crown e => s.crownOpDone n e q env
  | .spdm j => s.spdmOpDone j sig
  | .strand i id ml => s.strandSigned i id ml (some sig)
  | .desc r k => match (s.ring r).find k with
    | none => s.opLost n q sig env.raw signCheckFails
    | some w =>
      if s.ringAborted r then
        let s1 := s.opLost n q sig env.raw signCheckFails
        (s1.sigGiveBack w.desc).finishBad r k w.desc (bad8 .aborted)
      else if w.desc.is .sigVerify then verifyDone s r k w.desc q env.raw n
      else signDone s r k w.desc (w.got.getD ([], [], [])) q sig signCheckFails n

/-- ENGINE_OP_DONE (R345, R363): the operation of an engine ends; random bytes that give no signature are drawn
again, without a second charge. -/
def execEngineOpDone (n : Fin 12) (env : Env) (signCheckFails : Bool) (s0 : State) :
    Host.Outcome State Fault Refusal :=
  .next <|
    match (s0.engine n).busy with
    | none => s0
    | some q =>
      if s0.signet.waits.any fun w => w == .engine n.val then s0
      else
        let s1 := s0.hostStores env
        match s1.signatureOf q with
        | none => s1.engineBegin n { q with rnd := [], charged := true }
        | some sig =>
          let s := (s1.setEngine n { s1.engine n with busy := none }).bump 17 n 1
          (s.opDone n q sig env signCheckFails).strandsGo.onward

/-! Waits for a pool block (R383, R385). -/

/-- The instance that a waiter draws of (R381). -/
def DrawWait.inst : DrawWait → Nat
  | .crown _ | .spdm | .drk => 0
  | .engine _ => 1
  | .random _ _ => 2
  | .inst3 => 3

/-- A waiter taken off the list. -/
def State.unwait (s : State) (w : DrawWait) : State :=
  { s with signet := { s.signet with waits := s.signet.waits.erase w } }

/-- RESEED_WAIT_TIMEOUT (R383): the oldest request of the instance that waits ends with `ENTROPY_FAIL`. -/
def execReseedWaitTimeout (i : Fin 4) (s : State) : Host.Outcome State Fault Refusal :=
  .next <|
    match s.signet.waits.find? fun w => w.inst == i.val with
    | none => s
    | some w =>
      let s1 := (s.unwait w).drawFail i
      (match w with
        | .crown n => if s1.crowns.journal.any fun (j : Journal) => j.number == n && j.wait == CrownWait.draw then
            s1.crownFail (bad8 .entropyFail) else s1
        | .spdm => s1.spdmError 0x05
        | .drk => s1.drkFail.keysGo
        | .inst3 => s1.waitFor .inst3
        | .random r k => s1.failWork r k (bad8 .entropyFail)
        | .engine n => match (s1.engine n).busy with
          | none => s1
          | some q => (s1.setEngine n { s1.engine n with busy := none }).noRandom q).onward

/-- A waiter tries again. -/
def State.retryDraw (s : State) (w : DrawWait) : State :=
  let s1 := s.unwait w
  match w with
  | .crown n => match s1.crownDesc with
    | none => s1
    | some (j, d, got) => match Op.decode d.opcode with
      | none => s1
      | some o => if j.number = n ∧ j.wait = .draw then s1.startOp j.ring j.seq o d got {} else s1
  | .spdm => s1.spdmGo
  | .drk => s1.drawDrk.keysGo
  | .inst3 => s1.drawTk
  | .random r k => match (s1.ring r).find k with
    | none => s1
    | some w => randomGo s1 r k w.desc (w.got.getD ([], [], [])).2.1
  | .engine n => match (s1.engine n).busy with
    | none => s1
    | some q => s1.engineBegin n q

/-- Waiting requests try again, instances in index order, oldest first. -/
def State.serveWaits (s : State) : State :=
  let l := [0, 1, 2, 3].flatMap fun i => s.signet.waits.filter fun w => w.inst == i
  l.foldl (fun (a : State) w => if a.signet.waits.elem w then a.retryDraw w else a) s

/-- CONDITIONED_BLOCK (R376, R382, R383): a block joins the pool; instances and waiting requests take theirs. -/
def execConditionedBlock (s : State) : Host.Outcome State Fault Refusal :=
  .next <|
    if s.start.stage < 2 ∨ s.signet.ent ≠ .running ∨ 16 ≤ s.signet.pool.length then s
    else
      -- the noise samples are free; their conditioning is SHA-384 (R376)
      let t := s.freshBytes 128
      let g : Signet := { t.2.signet with pool := t.2.signet.pool ++ [sha384 t.1] }
      ({ t.2 with signet := g.instantiate s.tick } : State).serveWaits.onward

/-! Monitors (R29, R30, R632, R633, R646). -/

/-- A descriptor that owned a failed transfer ends with the status of its chapter, and nothing that the transfer carried
is used. What the crown has committed runs on, and its completion carries the status (R612). -/
def State.failDesc (s : State) (r q : Nat) (st : Status) : State :=
  let b := bad8 st
  match (s.ring r).find q with
  | none => s
  | some w =>
    match w.phase, s.crowns.journal.filter fun (j : Journal) => j.ring == r && j.seq == q with
    | .fin _, _ => s
    | _, some j =>
      if j.state = .intent || (j.state == .applied && j.cpl.isNone) then ((s.dropEntry j).crownFail b).drain r
      else s.modJournal fun x => { x with cpl := some (cplBad w.desc b 0) }
    | _, none =>
      let f := (List.range 16).find? fun f => (s.facet f).msgs.any fun m => m.ring == r && m.seq == q
      match f.bind fun f => ((s.facet f).msgs.find? fun m => m.ring == r && m.seq == q).map fun m => (f, m) with
      | some (f, m) => s.endMsg f m b
      | none =>
        let held := (s.signet.queue ++ s.signet.engines.filterMap (·.2.busy)).any fun y => y.client == .desc r q
        let s1 := (if held then s.sigGiveBack w.desc else s).forget r q
        ((s1.cutInvocations fun i => i.kind == .invoke r q).failRead r w b).drain r

/-- The request of a client at the signet block, its engine and its wait given up; none, nothing. -/
def State.dropRequest (s : State) (c : Client) : Option State :=
  if (s.signet.queue ++ s.signet.engines.filterMap (·.2.busy)).any fun y => y.client == c then
    some { s with signet := { s.signet with
      queue := s.signet.queue.filter fun y => y.client != c
      engines := s.signet.engines.map fun (e : Nat × SigEngine) =>
        if e.2.busy.any fun y => y.client == c then (e.1, { e.2 with busy := none }) else e } }
  else none

/-- The operation that owned a failed transfer ends (R29). A strand asks for its signature again, as after an
`ENTROPY_FAIL`, and the SPDM request is answered with an error: their chapters give no status of their own (log entry 61,
DESIGN CHOICE). -/
def State.failOwner (s : State) (t : TransferOwner) : State :=
  match t with
  | .desc r q st => if st = .done then s else s.failDesc r q st
  | .strand i id ml => match s.dropRequest (.strand i id ml), s.strand i id with
    | some s1, some x => s1.putStrand { x with retry := x.retry ++ [if ml then 1 else 0] }
    | _, _ => s
  | .spdm => match s.link.job with
    | some j => match s.dropRequest (.spdm j.number) with
      | some s1 => s1.spdmFail j.number
      | none => s
    | none => s

/-- MONITOR_EVENT (R602, R632, R633, R646): what monitors report and crowns ask for in one `mref` cycle; reports inside
their window are no events. A failed transfer ends its owner. -/
def execMonitorEvent (events : List MonEvent) (s : State) : Host.Outcome State Fault Refusal :=
  .next <|
    if s.start.stage = 0 then s
    else
      let l := events.filter s.eventOk
      let s1 := l.foldl (fun a e => match e.owner with
        | some t => if e.m.val = 14 then a.failOwner t else a
        | none => a) (s.noteReads events)
      (s1.events (l.map fun e =>
        (e.m.val, e.detail, e.value, if e.m.val = 19 then some e.detail.toNat else none))).onward

end Sys2Proof.Machine
end

