-- ==== Sys2Proof/Machine/Commands.lean ====
section
/-!
DEFINITION. The commands that post a descriptor, one for each operation: its opcode, posted on a ring with the header
fields and the body the command gives. What each does is its chapter's step 8 (`State.startOp`), behind the checks of
R131.
-/

namespace Sys2Proof.Machine

/-- NOP, opcode 0x0100 (R125). -/
def execNop (p : Post) (s : State) : Host.Outcome State Fault Refusal := .next (s.post .nop p)

/-- FENCE, opcode 0x0101 (R127). -/
def execFence (p : Post) (s : State) : Host.Outcome State Fault Refusal := .next (s.post .fence p)

/-- AES_ECB, opcode 0x0200 (R230). -/
def execAesEcb (p : Post) (s : State) : Host.Outcome State Fault Refusal := .next (s.post .aesEcb p)

/-- AES_CBC, opcode 0x0201 (R230). -/
def execAesCbc (p : Post) (s : State) : Host.Outcome State Fault Refusal := .next (s.post .aesCbc p)

/-- AES_CTR, opcode 0x0202 (R231). -/
def execAesCtr (p : Post) (s : State) : Host.Outcome State Fault Refusal := .next (s.post .aesCtr p)

/-- AES_GCM, opcode 0x0203 (R233). -/
def execAesGcm (p : Post) (s : State) : Host.Outcome State Fault Refusal := .next (s.post .aesGcm p)

/-- AES_XTS, opcode 0x0204 (R244). -/
def execAesXts (p : Post) (s : State) : Host.Outcome State Fault Refusal := .next (s.post .aesXts p)

/-- AES_CMAC, opcode 0x0205 (R248). -/
def execAesCmac (p : Post) (s : State) : Host.Outcome State Fault Refusal := .next (s.post .aesCmac p)

/-- AES_KW, opcode 0x0206 (R249). -/
def execAesKw (p : Post) (s : State) : Host.Outcome State Fault Refusal := .next (s.post .aesKw p)

/-- CIPHER_DROP, opcode 0x0210 (R261). -/
def execCipherDrop (p : Post) (s : State) : Host.Outcome State Fault Refusal := .next (s.post .cipherDrop p)

/-- DIGEST, opcode 0x0300 (R290). -/
def execDigest (p : Post) (s : State) : Host.Outcome State Fault Refusal := .next (s.post .digest p)

/-- DIG_OPEN, opcode 0x0301 (R291). -/
def execDigOpen (p : Post) (s : State) : Host.Outcome State Fault Refusal := .next (s.post .digOpen p)

/-- DIG_UPDATE, opcode 0x0302 (R298). -/
def execDigUpdate (p : Post) (s : State) : Host.Outcome State Fault Refusal := .next (s.post .digUpdate p)

/-- DIG_FINAL, opcode 0x0303 (R306). -/
def execDigFinal (p : Post) (s : State) : Host.Outcome State Fault Refusal := .next (s.post .digFinal p)

/-- DIG_READ, opcode 0x0304 (R307). -/
def execDigRead (p : Post) (s : State) : Host.Outcome State Fault Refusal := .next (s.post .digRead p)

/-- DIG_COMPARE, opcode 0x0305 (R311). -/
def execDigCompare (p : Post) (s : State) : Host.Outcome State Fault Refusal := .next (s.post .digCompare p)

/-- DIG_RELEASE, opcode 0x0306 (R289). -/
def execDigRelease (p : Post) (s : State) : Host.Outcome State Fault Refusal := .next (s.post .digRelease p)

/-- DIG_FLUSH, opcode 0x0307 (R297). -/
def execDigFlush (p : Post) (s : State) : Host.Outcome State Fault Refusal := .next (s.post .digFlush p)

/-- HM_EXTEND, opcode 0x0310 (R322). -/
def execHmExtend (p : Post) (s : State) : Host.Outcome State Fault Refusal := .next (s.post .hmExtend p)

/-- HM_READ, opcode 0x0311 (R329). -/
def execHmRead (p : Post) (s : State) : Host.Outcome State Fault Refusal := .next (s.post .hmRead p)

/-- HM_RESET, opcode 0x0312 (R330). -/
def execHmReset (p : Post) (s : State) : Host.Outcome State Fault Refusal := .next (s.post .hmReset p)

/-- HM_LOCK, opcode 0x0313 (R330). -/
def execHmLock (p : Post) (s : State) : Host.Outcome State Fault Refusal := .next (s.post .hmLock p)

/-- HM_SETUP, opcode 0x0314 (R330). -/
def execHmSetup (p : Post) (s : State) : Host.Outcome State Fault Refusal := .next (s.post .hmSetup p)

/-- SIG_SIGN, opcode 0x0400 (R362). -/
def execSigSign (p : Post) (s : State) : Host.Outcome State Fault Refusal := .next (s.post .sigSign p)

/-- SIG_VERIFY, opcode 0x0401 (R364). -/
def execSigVerify (p : Post) (s : State) : Host.Outcome State Fault Refusal := .next (s.post .sigVerify p)

/-- RANDOM, opcode 0x0402 (R386). -/
def execRandomDraw (p : Post) (s : State) : Host.Outcome State Fault Refusal := .next (s.post .random p)

/-- SIG_QUOTE, opcode 0x0403 (R369). -/
def execSigQuote (p : Post) (s : State) : Host.Outcome State Fault Refusal := .next (s.post .sigQuote p)

/-- VAULT_FORMAT, opcode 0x0500 (R453). -/
def execVaultFormat (p : Post) (s : State) : Host.Outcome State Fault Refusal := .next (s.post .vaultFormat p)

/-- VAULT_ENROLL, opcode 0x0501 (R454). -/
def execVaultEnroll (p : Post) (s : State) : Host.Outcome State Fault Refusal := .next (s.post .vaultEnroll p)

/-- VAULT_REVOKE, opcode 0x0502 (R457). -/
def execVaultRevoke (p : Post) (s : State) : Host.Outcome State Fault Refusal := .next (s.post .vaultRevoke p)

/-- VAULT_REKEY, opcode 0x0503 (R456). -/
def execVaultRekey (p : Post) (s : State) : Host.Outcome State Fault Refusal := .next (s.post .vaultRekey p)

/-- VAULT_ARM, opcode 0x0504 (R458). -/
def execVaultArm (p : Post) (s : State) : Host.Outcome State Fault Refusal := .next (s.post .vaultArm p)

/-- VAULT_QUERY, opcode 0x0505 (R459). -/
def execVaultQuery (p : Post) (s : State) : Host.Outcome State Fault Refusal := .next (s.post .vaultQuery p)

/-- VAULT_CHECKPOINT, opcode 0x0506 (R433). -/
def execVaultCheckpoint (p : Post) (s : State) : Host.Outcome State Fault Refusal := .next (s.post .vaultCheckpoint p)

/-- VAULT_COMMIT, opcode 0x0507 (R437). -/
def execVaultCommit (p : Post) (s : State) : Host.Outcome State Fault Refusal := .next (s.post .vaultCommit p)

/-- VAULT_IMPORT, opcode 0x0508 (R447). -/
def execVaultImport (p : Post) (s : State) : Host.Outcome State Fault Refusal := .next (s.post .vaultImport p)

/-- VAULT_MOVE_OPEN, opcode 0x0509 (R448). -/
def execVaultMoveOpen (p : Post) (s : State) : Host.Outcome State Fault Refusal := .next (s.post .vaultMoveOpen p)

/-- CAPTURE, opcode 0x0600 (R510). -/
def execCapture (p : Post) (s : State) : Host.Outcome State Fault Refusal := .next (s.post .capture p)

/-- STRAND_SETUP, opcode 0x0601 (R532). -/
def execStrandSetup (p : Post) (s : State) : Host.Outcome State Fault Refusal := .next (s.post .strandSetup p)

/-- STRAND_COLLECT, opcode 0x0602 (R541). -/
def execStrandCollect (p : Post) (s : State) : Host.Outcome State Fault Refusal := .next (s.post .strandCollect p)

/-- STRAND_CLOSE, opcode 0x0603 (R544). -/
def execStrandClose (p : Post) (s : State) : Host.Outcome State Fault Refusal := .next (s.post .strandClose p)

/-- APPLET_INVOKE, opcode 0x0700 (R584). -/
def execAppletInvoke (p : Post) (s : State) : Host.Outcome State Fault Refusal := .next (s.post .appletInvoke p)

/-- APPLET_INSTALL, opcode 0x0701 (R563). -/
def execAppletInstall (p : Post) (s : State) : Host.Outcome State Fault Refusal := .next (s.post .appletInstall p)

/-- APPLET_REMOVE, opcode 0x0702 (R565). -/
def execAppletRemove (p : Post) (s : State) : Host.Outcome State Fault Refusal := .next (s.post .appletRemove p)

/-- APPLET_SIGNER, opcode 0x0703 (R554). -/
def execAppletSigner (p : Post) (s : State) : Host.Outcome State Fault Refusal := .next (s.post .appletSigner p)

/-- KEY_GENERATE, opcode 0x0800 (R199). -/
def execKeyGenerate (p : Post) (s : State) : Host.Outcome State Fault Refusal := .next (s.post .keyGenerate p)

/-- KEY_IMPORT, opcode 0x0801 (R191). -/
def execKeyImport (p : Post) (s : State) : Host.Outcome State Fault Refusal := .next (s.post .keyImport p)

/-- KEY_EXPORT, opcode 0x0802 (R192). -/
def execKeyExport (p : Post) (s : State) : Host.Outcome State Fault Refusal := .next (s.post .keyExport p)

/-- KEY_DESTROY, opcode 0x0803 (R203). -/
def execKeyDestroy (p : Post) (s : State) : Host.Outcome State Fault Refusal := .next (s.post .keyDestroy p)

/-- KEY_RELEASE, opcode 0x0804 (R874). -/
def execKeyRelease (p : Post) (s : State) : Host.Outcome State Fault Refusal := .next (s.post .keyRelease p)

/-- KEY_LIMIT, opcode 0x0805 (R198). -/
def execKeyLimit (p : Post) (s : State) : Host.Outcome State Fault Refusal := .next (s.post .keyLimit p)

/-- KEY_LOAD, opcode 0x0806 (R194). -/
def execKeyLoad (p : Post) (s : State) : Host.Outcome State Fault Refusal := .next (s.post .keyLoad p)

/-- KEY_PUBLIC, opcode 0x0807 (R201). -/
def execKeyPublic (p : Post) (s : State) : Host.Outcome State Fault Refusal := .next (s.post .keyPublic p)

/-- KEY_DECAPSULATE, opcode 0x0808 (R200). -/
def execKeyDecapsulate (p : Post) (s : State) : Host.Outcome State Fault Refusal := .next (s.post .keyDecapsulate p)

/-- KEY_SCRUB, opcode 0x0809 (R202). -/
def execKeyScrub (p : Post) (s : State) : Host.Outcome State Fault Refusal := .next (s.post .keyScrub p)

/-- KEY_PURGE, opcode 0x080A (R202). -/
def execKeyPurge (p : Post) (s : State) : Host.Outcome State Fault Refusal := .next (s.post .keyPurge p)

/-- CER_BEGIN, opcode 0x0810 (R210). -/
def execCerBegin (p : Post) (s : State) : Host.Outcome State Fault Refusal := .next (s.post .cerBegin p)

/-- CER_SHARE, opcode 0x0811 (R212). -/
def execCerShare (p : Post) (s : State) : Host.Outcome State Fault Refusal := .next (s.post .cerShare p)

/-- CER_FINISH, opcode 0x0812 (R213). -/
def execCerFinish (p : Post) (s : State) : Host.Outcome State Fault Refusal := .next (s.post .cerFinish p)

/-- CER_CANCEL, opcode 0x0813 (R211). -/
def execCerCancel (p : Post) (s : State) : Host.Outcome State Fault Refusal := .next (s.post .cerCancel p)

/-- SNAPSHOT, opcode 0x0900 (R796). -/
def execSnapshot (p : Post) (s : State) : Host.Outcome State Fault Refusal := .next (s.post .snapshot p)

/-- SD_INFO, opcode 0x0A00 (R747). -/
def execSdInfo (p : Post) (s : State) : Host.Outcome State Fault Refusal := .next (s.post .sdInfo p)

/-- BUNDLE_WRITE, opcode 0x0A01 (R734). -/
def execBundleWrite (p : Post) (s : State) : Host.Outcome State Fault Refusal := .next (s.post .bundleWrite p)

/-- BUNDLE_IMPORT, opcode 0x0A02 (R735). -/
def execBundleImport (p : Post) (s : State) : Host.Outcome State Fault Refusal := .next (s.post .bundleImport p)

/-- CC_INFO, opcode 0x0A10 (R747). -/
def execCcInfo (p : Post) (s : State) : Host.Outcome State Fault Refusal := .next (s.post .ccInfo p)

/-- CC_CLEAR, opcode 0x0A11 (R748). -/
def execCcClear (p : Post) (s : State) : Host.Outcome State Fault Refusal := .next (s.post .ccClear p)

/-- LCS_TRANSITION, opcode 0x0B00 (R669). -/
def execLcsTransition (p : Post) (s : State) : Host.Outcome State Fault Refusal := .next (s.post .lcsTransition p)

/-- LCS_CANCEL, opcode 0x0B01 (R670). -/
def execLcsCancel (p : Post) (s : State) : Host.Outcome State Fault Refusal := .next (s.post .lcsCancel p)

/-- LCS_DEBUG_KEY, opcode 0x0B02 (R678). -/
def execLcsDebugKey (p : Post) (s : State) : Host.Outcome State Fault Refusal := .next (s.post .lcsDebugKey p)

/-- LCS_DEBUG_NONCE, opcode 0x0B03 (R675). -/
def execLcsDebugNonce (p : Post) (s : State) : Host.Outcome State Fault Refusal := .next (s.post .lcsDebugNonce p)

/-- LCS_DEBUG_GRANT, opcode 0x0B04 (R676). -/
def execLcsDebugGrant (p : Post) (s : State) : Host.Outcome State Fault Refusal := .next (s.post .lcsDebugGrant p)

/-- LCS_DEBUG_REVOKE, opcode 0x0B05 (R677). -/
def execLcsDebugRevoke (p : Post) (s : State) : Host.Outcome State Fault Refusal := .next (s.post .lcsDebugRevoke p)

/-- PROV_IDKEY, opcode 0x0B10 (R680). -/
def execProvIdkey (p : Post) (s : State) : Host.Outcome State Fault Refusal := .next (s.post .provIdkey p)

/-- PROV_CERT, opcode 0x0B11 (R681). -/
def execProvCert (p : Post) (s : State) : Host.Outcome State Fault Refusal := .next (s.post .provCert p)

/-- PROV_PATCH, opcode 0x0B12 (R682). -/
def execProvPatch (p : Post) (s : State) : Host.Outcome State Fault Refusal := .next (s.post .provPatch p)

/-- CROWN_SWAP, opcode 0x0B20 (R616). -/
def execCrownSwap (p : Post) (s : State) : Host.Outcome State Fault Refusal := .next (s.post .crownSwap p)

/-- CROWN_REJOIN, opcode 0x0B21 (R616). -/
def execCrownRejoin (p : Post) (s : State) : Host.Outcome State Fault Refusal := .next (s.post .crownRejoin p)

/-- NVM_READ, opcode 0x0C00 (R712). -/
def execNvmRead (p : Post) (s : State) : Host.Outcome State Fault Refusal := .next (s.post .nvmRead p)

/-- NVM_WRITE, opcode 0x0C01 (R699). -/
def execNvmWrite (p : Post) (s : State) : Host.Outcome State Fault Refusal := .next (s.post .nvmWrite p)

/-- NVM_SCAN, opcode 0x0C02 (R714). -/
def execNvmScan (p : Post) (s : State) : Host.Outcome State Fault Refusal := .next (s.post .nvmScan p)

end Sys2Proof.Machine
end

