-- ==== Sys2Proof/Machine/Views.lean ====
section
/-!
DEFINITION. What each register reads as (chapter 19 and the register sections of the other chapters):
one function a block, from the offset to the 32 bits, each field taken from the state. Reserved bits and
unassigned offsets read zero (R813).
-/

namespace Sys2Proof.Machine

/-- Fields put together, each a value with the place of its lowest bit. -/
def pk (l : List (Nat × Nat)) : Word32 := BitVec.ofNat 32 ((l.map fun f => f.2 * 2 ^ f.1).foldl (· + ·) 0)

/-- A value shown in `n` bits, saturating. -/
def satN (n v : Nat) : Nat := min v (2 ^ n - 1)

/-- Low or high half of a 64-bit value. -/
def half (v : Nat) (hi : Bool) : Word32 := BitVec.ofNat 32 (if hi then v / 2 ^ 32 else v)

/-- Index of a register in an array of `n` registers of 4 bytes at `base`. -/
def inArr (o base n : Nat) : Option Nat := if base ≤ o ∧ o < base + 4 * n then some ((o - base) / 4) else none

/-- Index and offset in an array of `n` windows of `size` bytes at `base`. -/
def inWin (o base size n : Nat) : Option (Nat × Nat) :=
  if base ≤ o ∧ o < base + size * n then some ((o - base) / size, (o - base) % size) else none

/-- Snapshot counter `k` of unit `u`, live (R784). -/
def State.counter (s : State) (u k : Nat) : Nat := (tget 0 s.snp.counters (u * 2048 + k)).toNat

/-! Rings and functions (R146 to R160, R82, R83, R826). -/

/-- Codes of ring states (R139). -/
def RingState.code : RingState → Nat
  | .disabled => 0 | .running => 1 | .stopping => 2 | .stopped => 3

/-- Register `o` of ring `r` (R146 to R152). -/
def State.rngReg (s : State) (r o : Nat) : Word32 :=
  let x := s.ring r
  match o with
  | 0x00 => half x.sqBase.toNat false | 0x04 => half x.sqBase.toNat true
  | 0x08 => half x.cqBase.toNat false | 0x0C => half x.cqBase.toNat true
  | 0x10 => pk [(0, x.sizeLog2.toNat)]
  | 0x14 => pk [(0, x.vector.toNat), (6, x.irqEn.toNat), (8, x.coalCount.toNat), (16, x.coalTime.toNat)]
  | 0x1C => pk [(0, x.st.code), (4, x.cause.toNat), (16, x.f.toNat % 65536)]
  | _ => 0

/-- The rings of a function in a state, as a mask. -/
def State.ringMask (s : State) (f : Nat) (p : Ring → Bool) : Nat := ofBits ((ringsOf f).map fun r => p (s.ring r))

/-- Register `o` of function `f` (R153 to R159). -/
def State.fnReg (s : State) (f o : Nat) : Word32 :=
  let x := s.fn f
  match o with
  | 0x00 => half x.db.toNat false | 0x04 => half x.db.toNat true
  | 0x08 => pk [(0, x.pollMin.toNat), (16, x.pollMax.toNat)]
  | 0x0C => pk [(0, x.en.toNat), (4, x.classCap.toNat)]
  | 0x10 => pk [(2, x.perm.toNat)]
  | 0x14 =>
    let on := s.fnServed f && s.ringMask f (fun r => r.st == .running) != 0
    pk [(0, on.toNat), (1, x.d3hot.toNat), (8, satN 8 x.pollFaults), (16, if on then x.interval else 0)]
  | 0x18 => pk [(0, s.ringMask f fun r => r.st == .stopped && r.cause != 0)]
  | 0x1C => pk [(0, s.ringMask f fun r => r.st == .running)]
  | _ => 0

/-- Fetched descriptors awaiting dispatch, with their rings. -/
def State.fetchedWorks (s : State) : List (Nat × Work) :=
  s.rings.flatMap fun (e : Nat × Ring) => (e.2.work.filter fun w => w.phase == .fetched).map (e.1, ·)

/-- Waiting for reason `k` (R826); a `SNAPSHOT` that waits is with its unit already. -/
def State.unitWait (s : State) (k : Nat) : Nat :=
  if k = 7 then (s.snp.waiting.filter fun q => q != .reg).length
  else (s.fetchedWorks.filter fun e => s.holdOf e.1 e.2 == some k).length

/-- Registers of HIF (R82, R83, R160, R825, R826). -/
def State.hifReg (s : State) (o : Nat) : Word32 :=
  let l := s.link
  let sec := fun n => (tget {} l.ide n).secure
  match o with
  | 0x000 => pk [(0, l.rate.toNat), (4, l.width.toNat), (10, l.flit.toNat), (11, l.dlUp.toNat),
      (16, (sec 0).toNat), (17, ofBits [sec 1, sec 2, sec 3, sec 4])]
  | 0x004 => pk [(0, l.evt.toNat)]
  | 0x008 => pk [(0, (s.hif.window s.tick).polls)]
  | 0x010 => pk [(0, s.hif.schedAge.toNat)]
  | _ => match inWin o 0x100 0x20 32, inArr o 0x500 32, inArr o 0x580 4, inArr o 0x5A0 8, inWin o 0x600 0x10 4 with
    | some (f, q), _, _, _, _ => s.fnReg f q
    | _, some f, _, _, _ => pk [(0, satN 21 (s.workCount f))]
    | _, _, some k, _, _ => pk [(0, satN 16 (s.fetchedWorks.filter fun e => e.2.cls == k).length)]
    | _, _, _, some k, _ => pk [(0, satN 16 (s.unitWait k))]
    | _, _, _, _, some (e, q) => match s.hif.dmaErr[e]? with
      | none => 0
      | some x => match q with
        | 0x0 => half x.addr false | 0x4 => half x.addr true
        | 0x8 => pk [(0, x.ring), (25, x.cpl), (28, x.kind), (31, 1)]
        | _ => x.tag
    | _, _, _, _, _ => 0

/-! Facets and clusters (R279 to R281, R341 to R343, R546 to R548, R782, R827 to R831). -/

/-- Codes of facet states (R782). -/
def FctSt.code : FctSt → Nat
  | .untested => 0 | .bist => 1 | .inService => 2 | .narrow => 3
  | .fencedSoft => 4 | .fencedStart => 5 | .fencedAlarm => 6

/-- Messages of facet `f` that `p` selects. -/
def State.msgCount (s : State) (f : Nat) (p : Msg → Bool) : Nat := ((s.facet f).msgs.filter p).length

/-- The message is a cipher, a digest, a capture. -/
def Msg.isCipher (m : Msg) : Bool := match m.kind with | .cipher _ => true | _ => false
/-- See `Msg.isCipher`. -/
def Msg.isDigest (m : Msg) : Bool := match m.kind with | .digest _ => true | _ => false
/-- See `Msg.isCipher`. -/
def Msg.isCapture (m : Msg) : Bool := match m.kind with | .capture _ => true | _ => false

/-- Registers of the FCT window of facet `f`. -/
def State.fctReg (s : State) (f o : Nat) : Word32 :=
  let r := tget {} s.fctRegs f
  let x := s.facet f
  match o with
  | 0x000 => pk [(1, (s.start.softFence.getLsbD f).toNat)]
  | 0x004 => pk [(0, (s.fctState f).code), (8, (s.start.bistFail.getLsbD f).toNat)]
  | 0x008 => pk [(0, f), (4, f / 4)]
  | 0x00C => pk [(0, r.passes), (16, r.bistMs)]
  | 0x080 => pk [(0, s.cipherUsed f), (16, s.msgCount f fun m => !m.isDigest && m.st == .parked)]
  | 0x084 => pk [(0, s.msgCount f fun m => m.isCipher && m.st == .await),
      (16, queuedOn x fun q => q.chain.isSome)]
  | 0x088 => pk [(0, s.digUsed f), (16, (x.digs.filter fun e => e.2.any fun c => c.st == .final).length)]
  | 0x08C => pk [(0, s.msgCount f fun m => m.isDigest && m.st == .parked), (16, x.digWaiting)]
  | 0x090 => pk [(0, s.msgCount f Msg.isCapture), (16, s.msgCount f fun m => m.isCapture && m.gddrBytes != 0)]
  | 0x094 => pk [(0, ceilDiv (s.onChipUsed f) 1024),
      (16, ceilDiv (((x.msgs.map (·.gddrBytes)).foldl (· + ·) 0)) (2 ^ 20))]
  | 0x098 => pk [(0, r.hwmOnChip), (16, r.hwmGddr)]
  | 0x09C => pk [(0, satN 32 r.ageRaises)]
  | 0x0E0 => pk [(0, r.errRing), (24, r.errStatus.toNat)]
  | 0x0E4 => pk [(0, r.errOp.toNat)]
  | 0x0E8 => r.errTag
  | _ => match inArr o 0x0A0 4, inArr o 0x0B0 4, inArr o 0x0C0 8, inArr o 0x100 16 with
    | some c, _, _, _ => pk [(0, ((readyMsgs x).filter fun m => m.clsNow == c).length)]
    | _, some c, _, _ => pk [(0, satN 32 (r.waitMax.getD c 0))]
    | _, _, some k, _ => pk [(0, satN 32 (r.endCnt.getD k 0))]
    | _, _, _, some k => half (s.counter (1 + f) (k / 2)) (k % 2 == 1)
    | _, _, _, _ => 0

/-- Registers of the CLU window of cluster `c`. -/
def State.cluReg (s : State) (c o : Nat) : Word32 :=
  let x := tget {} s.clus c
  let dev := if s.glb.clamshell then 2 else 1
  let free := (s.gddrSize - s.gddrUsed c) / 2 ^ 20
  match o with
  | 0x004 => pk [(0, x.state), (4, s.tamper.throttled.toNat), (8, s.glb.clamshell.toNat),
      (16, ofBits ((List.range 4).map fun j => s.fctState (4 * c + j) == .inService))]
  | 0x008 => if x.state = 3 then pk [(0, 2048 * dev), (16, dev), (24, s.start.gddrRate)] else pk [(16, dev)]
  | 0x00C => pk [(0, free)]
  | 0x010 => pk [(0, x.trainMethod), (16, satN 16 x.trainTime)]
  | 0x014 => pk [(0, x.edcLine.toNat), (30, x.edcVault.toNat), (31, x.edcValid.toNat)]
  | 0x018 => pk [(0, x.stageHwm)]
  | 0x01C => pk [(0, x.failDq), (8, x.failRate), (31, x.failValid.toNat)]
  | _ => match inArr o 0x020 8, inArr o 0x100 32, inWin o 0x200 0x10 4 with
    | some k, _, _ => half (s.counter (20 + c) (k / 2)) (k % 2 == 1)
    | _, some b, _ => x.dqTrain.getD b 0
    | _, _, some (h, q) =>
      let here := decide (h < 2 * dev)
      match q with
      | 0x0 => pk [(0, here.toNat), (1, (here && x.state == 3).toNat)]
      | 0x4 => pk [(0, satN 32 (x.chRetry.getD h 0))]
      | 0x8 => pk [(0, satN 32 (x.chFail.getD h 0))]
      | _ => pk [(0, x.chBursts.getD h 0)]
    | _, _, _ => 0

/-! Vault and Pip port (R461, R462, R498, R499). -/

/-- Codes of vault states (R404). -/
def VaultState.code : VaultState → Nat
  | .none => 0 | .loading => 1 | .recovering => 2 | .active => 3 | .sealed => 4 | .moved => 5

/-- Set bits of a byte. -/
def popByte (b : Byte) : Nat := ((List.range 8).filter fun i => b.getLsbD i).length

/-- Endpoints marked in the bitmap pages of an epoch (R428). -/
def State.dirtyCount (s : State) (epoch : Nat) : Nat :=
  ((List.range 512).map fun p =>
    ((s.nvm.page (bitmapPage epoch p)).map popByte).foldl (· + ·) 0).foldl (· + ·) 0

/-- Lines with changes that the vault cache holds and GDDR6 does not yet (R418, R462). -/
def Vault.dirtyLines (v : Vault) : Nat :=
  (markLines [] ((v.entries.filter fun e => e.2.modified).flatMap fun e => writeLines e.1)).length

/-- A crown descriptor of an opcode is in progress. -/
def State.crownDoes (s : State) (o : Op) : Bool := s.crowns.journal.any fun j => j.opcode == o.code

/-- Registers of VLT. An export runs within the command that begins it, so that `EXPORT_BUSY` reads 0 between commands
(log entry 60, DESIGN CHOICE). -/
def State.vltReg (s : State) (o : Nat) : Word32 :=
  let v := s.vault
  let r := v.record
  match o with
  | 0x004 => pk [(0, v.st.code), (3, r.pending.isSome.toNat), (4, v.foldBusy.toNat),
      (6, (s.crownDoes .vaultImport && v.st == .loading).toNat), (7, (!v.clearing.isEmpty).toNat),
      (8, (v.vek.isSome && v.vmk.isSome).toNat)]
  | 0x008 => pk [(0, r.openEpoch)]
  | 0x00C => pk [(0, r.committed)]
  | 0x010 => pk [(0, if r.lOpen = 0 then 16 else r.lOpen.log2), (16, if r.pending.isSome then r.lPending.log2 else 0)]
  | 0x014 => pk [(0, s.vlt.batchUs.toNat)]
  | 0x018 => pk [(0, satN 16 v.dirtyLines), (16, satN 16 v.cached.length)]
  | 0x01C => pk [(0, satN 32 s.vlt.integErr)]
  | 0x020 => pk [(0, s.vlt.errEndpoint.toNat), (31, s.vlt.errValid.toNat)]
  | 0x024 => pk [(0, (v.entries.filter fun e => e.2.st != .empty).length)]
  | 0x028 => pk [(0, if v.recordWritten && !v.recordTorn then s.dirtyCount r.openEpoch else 0)]
  | 0x02C => pk [(0, match r.pending with | some p => s.dirtyCount p | none => 0)]
  | 0x030 => pk [(0, v.fold.length)]
  | 0x034 => pk [(0, (v.changed.filter fun e => e.2).length)]
  | 0x038 => pk [(0, (v.lines.filter fun e => v.lineLives v.lines e.1).length)]
  | 0x03C => pk [(0, (v.pip.filter fun e => e.2.coarse).length)]
  | _ => match inArr o 0x040 16, inArr o 0x080 16 with
    | some b, _ => pk [(0, satN 32 (tget 0 s.vlt.bankRetry b))]
    | _, some b => pk [(0, satN 32 (tget 0 s.vlt.bankChkerr b))]
    | _, _ => 0

/-- Registers of PIP. -/
def State.pipReg (s : State) (o : Nat) : Word32 :=
  let p := s.pip
  match o with
  | 0x000 => pk [(0, p.en.toNat)]
  | 0x004 => pk [(4, s.portMode.code), (7, p.locked.toNat), (8, p.framed.toNat), (16, s.portArms)]
  | 0x008 => pk [(0, p.armqHint.toNat), (16, p.outHint.toNat)]
  | 0x00C => pk [(0, p.drive.toNat), (4, p.odt.toNat)]
  | 0x010 => pk [(0, p.parityErr.toNat), (8, p.opErr.toNat), (16, p.strobeErr.toNat), (24, p.frameErr.toNat)]
  | 0x014 => p.late
  | 0x018 => half p.reqCount.toNat false | 0x01C => half p.reqCount.toNat true
  | _ => match inArr o 0x040 16, inArr o 0x080 16 with
    | some v, _ => tget 0 p.vcount v
    | _, some b => tget 0 p.bankReq b
    | _, _ => 0

/-! Signet block and applets (R389 to R401, R589, R590). -/

/-- Codes of the source's states (R396). -/
def EntState.code : EntState → Nat
  | .startup => 0 | .running => 1 | .failed => 2

/-- Registers of SIG; `RAW_TAP` is read by the operation of R401. -/
def State.sigReg (s : State) (o : Nat) : Word32 :=
  let g := s.signet
  let eng := fun n => s.engine n
  let twelve := List.range 12
  match o with
  | 0x000 => pk [(0, g.predResAll.toNat)]
  | 0x004 => pk [(0, (g.ent == .running).toNat), (1, ((List.range 4).all fun i => (s.drbg i).instantiated).toNat),
      (8, ofBits (twelve.map fun n => (eng n).busy.isSome)), (20, ofBits (twelve.map fun n => (eng n).katFail))]
  | 0x008 => pk [(0, s.sigHeld), (16, (g.queue.filter fun q => match q.client with
      | .strand _ _ _ => true
      | _ => false).length)]
  | 0x00C => pk [(0, g.reqLog2.toNat), (16, g.intervalMs.toNat)]
  | 0x014 => pk [(0, g.pool.length), (8, g.rctFail.toNat), (9, g.aptFail.toNat), (10, g.startupFail.toNat)]
  | 0x018 => pk [(0, 41), (16, 795)]
  | 0x01C => pk [(0, g.rctCount), (15, g.aptCount), (30, g.ent.code)]
  | _ => match inArr o 0x040 12, inArr o 0x080 12, inWin o 0x100 0x10 4, inArr o 0x200 16 with
    | some n, _, _, _ => match (eng n).busy with
      | none => 0
      | some q => match q.client with
        | .desc r _ => pk [(0, q.scheme), (16, r)]
        | .crown _ | .spdm _ => pk [(0, q.scheme), (31, 1)]
        | .strand _ _ _ => pk [(0, q.scheme), (30, 1)]
    | _, some n, _, _ => pk [(0, (eng n).katFail.toNat), (1, (eng n).signCheck.toNat), (2, (eng n).verdictFault.toNat)]
    | _, _, some (i, q), _ =>
      let d := s.drbg i
      match q with
      | 0x0 => pk [(0, d.instantiated.toNat), (1, d.reseedReq.toNat), (16, satN 16 d.fails)]
      | 0x4 => half d.requests false | 0x8 => half d.requests true
      | _ => pk [(0, satN 32 (drbgAge s d))]
    | _, _, _, some k => if s.lcs = .test then g.rawTap.getD k 0 else 0
    | _, _, _, _ => 0

/-- Codes of applet-slot states (R590). -/
def AppSt.code : AppSt → Nat
  | .empty => 0 | .installed => 1 | .replacing => 2

/-- Register `q` of the three of applet slot `k`: `SLOT_STS`, `SLOT_RUNS`, `SLOT_FAULT`. -/
def State.appSlotReg (s : State) (q k : Nat) : Word32 :=
  let a := tget {} s.applets.slots k
  match q with
  | 0 => pk [(0, a.moves.length), (17, (s.applets.engines.filter fun e => e.2.inv.any fun i => i.slot == k).length),
      (20, ofBits ((List.range 8).map fun c => (a.caps.getD c none).isSome)),
      (28, (a.kind 0).toNat), (29, (a.kind 1).toNat), (30, a.st.code)]
  | 1 => a.runs
  | _ => pk [(0, a.lastMove.toNat), (16, a.lastReason.toNat), (24, a.lastFault.toNat)]

/-- Registers of APL. -/
def State.aplReg (s : State) (o : Nat) : Word32 :=
  let a := s.applets
  match o with
  | 0x000 => pk [(0, a.invokeEn.toNat)]
  | 0x004 => pk [(0, (a.gen != 0).toNat), (1, (!a.signerMl.isEmpty).toNat),
      (8, ((List.range 32).filter fun k => (tget {} a.slots k).st != .empty).length),
      (16, ofBits ((List.range 4).map fun e => (tget {} a.engines e).inv.isSome))]
  | 0x008 => pk [(0, s.invWaiting), (16, satN 13 (a.waiting.length - s.invWaiting))]
  | 0x00C => a.gen
  | 0x010 => half a.invokes.toNat false | 0x014 => half a.invokes.toNat true
  | 0x018 => half a.hooks.toNat false | 0x01C => half a.hooks.toNat true
  | _ => match inWin o 0x040 0x20 4, inArr o 0x100 32, inArr o 0x180 32, inArr o 0x200 32 with
    | some (e, q), _, _, _ =>
      let x := tget {} a.engines e
      match q with
      | 0x00 => match x.inv with
        | none => 0
        | some i => pk [(0, i.slot), (16, i.ring),
            (30, (match i.kind with | .hook _ _ => true | _ => false).toNat), (31, 1)]
      | 0x04 => pk [(0, x.units)]
      | 0x08 => x.done
      | 0x0C => pk [(0, satN 32 x.faults)]
      | 0x10 => pk [(0, satN 32 x.budgets)]
      | 0x14 => pk [(0, satN 32 x.restarts)]
      | _ => 0
    | _, some k, _, _ => s.appSlotReg 0 k
    | _, _, some k, _ => s.appSlotReg 1 k
    | _, _, _, some k => s.appSlotReg 2 k
    | _, _, _, _ => 0

/-! Crowns, tamper logic, life cycle (R623, R624, R659 to R661, R683, R684). -/

/-- Codes of crown states (R595). -/
def CrownSt.code : CrownSt → Nat
  | .out => 0 | .starting => 1 | .standby => 2 | .unfit => 3 | .taking => 4 | .active => 5

/-- Register `q` of a crown's health half: `H_HB` to `H_JOURNAL`. -/
def Crown.hReg (c : Crown) (q : Nat) : Word32 :=
  match q with
  | 0 => c.heartbeat.setWidth 32
  | 1 => c.report
  | 2 => pk [(0, (c.st == .standby || c.st == .unfit).toNat), (1, c.testNow)]
  | 3 => c.loops
  | 4 => c.fails
  | 5 => pk [(0, c.lastFail)]
  | 6 => c.patch
  | _ => pk [(0, c.jState), (16, c.jSeq % 65536)]

/-- Registers of CRN. -/
def State.crnReg (s : State) (o : Nat) : Word32 :=
  let k := s.crowns
  match o with
  | 0x000 => pk [(0, k.rejoinAuto.toNat)]
  | 0x004 => pk [(0, k.a.st.code), (4, k.b.st.code), (8, k.activeB.toNat), (9, s.exhausted.toNat), (10, s.takeOk.toNat),
      (16, s.claimHi)]
  | 0x008 => pk [(0, k.periodUs.toNat), (8, k.miss.toNat), (16, k.healthUs.toNat)]
  | 0x00C => pk [(0, k.takeValid.toNat), (4, k.takeCrownB.toNat), (8, k.takeCause.toNat), (16, k.takeClaim.toNat)]
  | 0x010 => pk [(0, k.a.claim.toNat)]
  | 0x014 => pk [(0, k.b.claim.toNat)]
  | 0x018 => pk [(0, k.takeovers.toNat), (16, satN 16 k.rejoins)]
  | 0x01C => k.takeTime
  | _ => match inArr o 0x020 4, inArr o 0x030 4, inArr o 0x040 8, inArr o 0x060 8 with
    | some c, _, _, _ =>
      let x := s.clasp c
      pk [(0, x.claimHi.toNat), (16, (x.holder.getD false).toNat), (17, x.holder.isSome.toNat)]
    | _, some c, _, _ => pk [(0, satN 32 (s.clasp c).refused)]
    | _, _, some q, _ => k.a.hReg q
    | _, _, _, some q => k.b.hReg q
    | _, _, _, _ => 0

/-- Assigned monitors (R625). -/
def monAssigned (m : Nat) : Bool := Nat.ble m 21

/-- Entry `k` of the tamper log, counted from the newest by `SEQ`; entries stand oldest first. -/
def Battery.logAt (b : Battery) (k : Nat) : Bytes := ((b.log.reverse[k]?).map LogEntry.bytes).getD (zeros 16)

/-- Registers of TMP. -/
def State.tmpReg (s : State) (o : Nat) : Word32 :=
  let t := s.tamper
  let b := s.battery
  match o with
  | 0x000 => pk [(0, t.locked.toNat)]
  | 0x004 => pk [(0, t.purgeDone.toNat), (1, t.scrubDone.toNat), (2, t.throttled.toNat), (16, t.cause), (29, t.rung)]
  | 0x008 => t.latch
  | 0x010 => pk [(0, t.stimMon), (28, t.stimNone.toNat), (29, t.stimBat.toNat), (30, t.stimPass.toNat),
      (31, t.stimBusy.isSome.toNat)]
  | 0x014 => pk [(0, t.batCfg.mesh), (8, t.batCfg.loop), (16, t.batCfg.temp), (24, t.batCfg.vbat)]
  | 0x018 => pk [(0, b.sampler.toNat), (1, b.purgedOnCell.toNat), (2, b.onCell.toNat), (16, satN 16 b.vbatMv)]
  | 0x01C => half s.rtc false | 0x020 => half s.rtc true
  | 0x024 => pk [(0, t.logIndex), (8, b.log.length), (16, b.logLost)]
  | 0x038 => pk [(0, t.fenceFacet.toNat), (16, t.fenceSd.toNat), (17, t.fenceCc.toNat)]
  | 0x03C => pk [(0, (BitVec.ofInt 8 t.tempLow).toNat), (8, (BitVec.ofInt 8 t.tempHigh).toNat)]
  | _ => match inArr o 0x028 4, inArr o 0x100 32, inArr o 0x180 32, inArr o 0x200 32 with
    | some k, _, _, _ => BitVec.ofNat 32 (leField (b.logAt t.logIndex) (4 * k) 4)
    | _, some m, _, _ =>
      let c := (s.mon m).cfg
      if !monAssigned m then 0
      else pk [(0, (decide (17 ≤ m) && decide (m ≤ 20)).toNat), (8, c.n), (16, c.wval), (26, c.wunit), (28, c.rung),
        (31, c.en.toNat)]
    | _, _, some m, _ =>
      let x := s.mon m
      pk [(0, (x.times.filter fun z => decide (s.tick ≤ z + x.cfg.window)).length), (16, x.detail.toNat),
        (28, x.rungTaken), (31, x.latched.toNat)]
    | _, _, _, some m => pk [(0, (s.mon m).count)]
    | _, _, _, _ => match inWin o 0x280 8 10, inArr o 0x300 12, inArr o 0x340 16 with
      | some (r, q), _, _ =>
        if q = 0 then
          let w := tget (railReset r) t.railWin r
          pk [(0, w.1), (16, w.2)]
        else
          let g := tget (2, 10) t.railGlitch r
          pk [(0, g.2), (8, g.1)]
      | _, some n, _ => match tget none t.tempRd n with
        | some v => pk [(0, v.toNat), (16, 1)]
        | none => 0
      | _, _, some i =>
        let w := tget (20, 40) t.clkWin i
        pk [(0, w.2), (8, w.1)]
      | _, _, _ => 0

/-- `LCS.CURRENT` (R684). -/
def Lcs.shown (l : Lcs) : Word32 := if l = .unresolved then 0xFFFFFFFF else l.code

/-- Registers of LCS; the test registers show outside TEST nothing (R666). -/
def State.lcsReg (s : State) (o : Nat) : Word32 :=
  let l := s.life
  match o with
  | 0x000 => s.lcs.shown
  | 0x004 => match l.pendingTarget with
    | some t => t.code
    | none => s.lcs.shown
  | 0x008 =>
    let st := match s.lcs with
      | .blank => 0 | .test => 1 | .production => 2 | .endOfLife => 3 | .unresolved => 3
    pk [(0, st), (2, l.vote), (4, (s.lcs == .unresolved).toNat), (5, l.wiping.toNat)]
  | 0x018 => match s.grantNow with
    | some g => pk [(0, g.scope.toNat), (31, 1)]
    | none => 0
  | 0x01C => match s.grantNow with
    | some g => if g.duration = 0 then 0xFFFFFFFF else pk [(0, g.duration - (s.rtc - g.started) / 32768)]
    | none => 0
  | 0x020 => l.debugGen
  | 0x034 => pk [(0, satN 16 l.grantsMade), (16, satN 16 l.grantsRefused)]
  | 0x038 => pk [(0, satN 16 l.pagesLeft)]
  | _ => match inArr o 0x00C 3, inArr o 0x024 4 with
    | some k, _ => l.copies.getD k 0
    | _, some k => BitVec.ofNat 32 (leField s.idHashBytes (4 * k) 4)
    | _, _ =>
      if s.lcs ≠ .test then 0
      else match o with
      | 0x040 => pk [(0, l.mtTarget), (8, l.mtCheck.toNat), (29, l.mtBusy.toNat), (30, l.mtWrite.toNat)]
      | 0x044 => l.mtAddr
      | 0x048 => half l.mtWdata.toNat false | 0x04C => half l.mtWdata.toNat true
      | 0x050 => half l.mtRdata.toNat false | 0x054 => half l.mtRdata.toNat true
      | 0x058 => pk [(0, l.mbArray), (8, l.mbAlgo)]
      | 0x05C => pk [(0, l.mbLast), (29, l.mbFail.toNat), (30, l.mbDone.toNat), (31, l.mbBusy.toNat)]
      | 0x060 => l.mbFailWord
      | _ => 0

/-! NVM and card ports (R715, R716, R750, R751). -/

/-- Remap entries in use among `n` from `base` on (R703). -/
def Nvm.remapped (v : Nvm) (base n : Nat) : Nat :=
  (v.remap.filter fun e => decide (base ≤ e.1) && decide (e.1 < base + n) && e.2.isSome).length

/-- Registers of NVM. -/
def State.nvmReg (s : State) (o : Nat) : Word32 :=
  let n := s.nvm
  match o with
  | 0x004 => pk [(0, n.ready.toNat), (1, n.recalling.toNat), (2, n.scanning.toNat), (3, n.writing.isSome.toNat),
      (4, (s.start.pwrGood && !n.tripped).toNat)]
  | 0x008 => pk [(0, n.bp.toNat), (8, n.bpLock.toNat)]
  | 0x00C => pk [(0, satN 16 n.recallWeak), (16, satN 16 n.recallUs)]
  | 0x010 => pk [(0, satN 32 n.tie)]
  | 0x014 => pk [(0, n.lastTieRec.toNat), (30, n.lastTieSys.toNat), (31, n.lastTieValid.toNat)]
  | 0x018 => pk [(0, satN 32 n.torn)]
  | 0x01C => half n.writes.toNat false | 0x020 => half n.writes.toNat true
  | 0x024 => pk [(0, satN 32 n.retry)]
  | 0x028 => pk [(0, n.remapped 0 1024), (16, n.remapped 1024 1024)]
  | 0x02C => pk [(0, n.lastErrRec.toNat), (23, n.lastErrSys.toNat), (24, n.lastErrStatus.toNat)]
  | _ => match inArr o 0x030 4, inArr o 0x040 4, inArr o 0x050 4, inArr o 0x080 16 with
    | some q, _, _, _ => pk [(0, 256 - n.remapped (256 * q) 256)]
    | _, some q, _, _ => pk [(0, 256 - n.remapped (1024 + 256 * q) 256)]
    | _, _, some q, _ => pk [(0, n.weakCount.getD q 0)]
    | _, _, _, some k =>
      let r := s.vault.record
      let held := if !s.vault.recordWritten || s.vault.recordTorn then none
        else if r.openEpoch % 16 = k then some r.openEpoch
        else r.pending.filter fun p => p % 16 == k
      pk [(0, (held.getD 0) % 65536), (29, (n.bmWeak.elem k).toNat), (30, (s.vault.clearing.elem k).toNat),
        (31, held.isSome.toNat)]
    | _, _, _, _ => 0

/-- Codes of the SD port's states (R751). -/
def SdSt.code : SdSt → Nat
  | .absent => 0 | .present => 1 | .identifying => 2 | .ready => 3 | .transferring => 4 | .error => 5

/-- Four bytes of a raw card register, the first in bits [7:0]. -/
def rawReg (b : Bytes) (k : Nat) : Word32 := BitVec.ofNat 32 (leField b (4 * k) 4)

/-- Registers of CRD. -/
def State.crdReg (s : State) (o : Nat) : Word32 :=
  let c := s.cards
  let d := c.sd
  let m := c.cc
  match o with
  | 0x004 => pk [(0, d.present.toNat), (1, d.power.toNat), (2, d.shown.csdWp.toNat), (3, d.wp.toNat), (4, d.st.code)]
  | 0x008 => pk [(0, d.bus4.toNat), (1, d.hs.toNat)]
  | 0x00C => pk [(0, d.shown.type), (4, d.width4.toNat), (8, d.clkMhz)]
  | 0x010 => pk [(0, d.shown.blocks)]
  | 0x014 => pk [(16, d.errCmd.toNat), (24, d.errStatus.toNat)]
  | 0x018 => pk [(0, d.confirmed)]
  | 0x01C => pk [(0, ofBits [d.evtInserted, d.evtRemoved, d.evtTimeout, d.evtChk])]
  | 0x020 => rawReg d.shown.ocr 0
  | 0x024 => rawReg d.shown.scr 0 | 0x028 => rawReg d.shown.scr 1
  | 0x02C => pk [(0, c.writingB.toNat), (1, c.importing.toNat), (16, satN 16 c.blocksDone)]
  | 0x030 => half c.bundleId.toNat false | 0x034 => half c.bundleId.toNat true
  | 0x038 => pk [(0, m.present.toNat), (1, m.active.toNat), (2, m.error.toNat), (3, m.t1.toNat), (4, m.cls.toNat),
      (8, m.atr.length)]
  | 0x03C => pk [(0, m.freq.toNat), (8, m.classAEn.toNat)]
  | 0x040 => pk [(8, m.di), (16, m.fi)]
  | 0x044 => pk [(0, satN 16 m.cwtEtu), (16, satN 16 m.bwtMs)]
  | 0x048 => pk [(16, m.errIns.toNat), (24, m.errStatus.toNat)]
  | 0x04C => pk [(0, ofBits [m.evtInserted, m.evtRemoved, m.evtTimeout, m.evtChk])]
  | 0x050 => pk [(0, m.lastSw.toNat)]
  | 0x054 => m.apdus
  | _ => match inArr o 0x060 4, inArr o 0x070 4, inArr o 0x080 8, inArr o 0x0A0 10 with
    | some k, _, _, _ => rawReg d.shown.cid k
    | _, some k, _, _ => rawReg d.shown.csd k
    | _, _, some k, _ => rawReg m.atr k
    | _, _, _, some k => pk [(0, satN 32 (tget 0 c.cnt k))]
    | _, _, _, _ => match inArr o 0x100 16 with
      | some k => rawReg d.shown.ssr k
      | none => 0

/-! Snapshots and violations (R807, R808), GLB (R781, R782, R822, R823). -/

/-- Registers of SNP. -/
def State.snpReg (s : State) (o : Nat) : Word32 :=
  let p := s.snp
  let v := s.viol
  match o with
  | 0x004 => pk [(0, p.lastBank.toNat), (28, p.incomplete.toNat), (29, p.writeFault.toNat), (30, (!p.waiting.isEmpty).toNat),
      (31, p.run.isSome.toNat)]
  | 0x008 => half p.buf.toNat false | 0x00C => half p.buf.toNat true
  | 0x010 => pk [(0, p.irqVector.toNat), (6, p.irqEn.toNat)]
  | 0x014 => p.lastEpoch
  | 0x018 => p.duration
  | 0x01C => p.completed
  | 0x020 => p.bankEpoch.getD 0 0 | 0x024 => p.bankEpoch.getD 1 0
  | 0x028 => pk [(0, p.lateUnits.toNat)]
  | 0x02C => pk [(0, satN 32 v.total)]
  | 0x030 => pk [(0, v.write.toNat), (24, v.fn), (29, v.kind)]
  | 0x034 => v.addr
  | 0x038 => pk [(0, satN 8 (v.kinds.getD 0 0)), (8, satN 8 (v.kinds.getD 1 0)), (16, satN 8 (v.kinds.getD 2 0)),
      (24, satN 8 (v.kinds.getD 3 0))]
  | 0x03C => pk [(0, satN 16 p.joined)]
  | _ => match inArr o 0x080 32 with
    | some f => pk [(0, satN 32 (tget 0 v.byFn f))]
    | none => 0

/-- `GLB.STAGE` (R774, R782). -/
def State.stageReg (s : State) : Word32 :=
  let t := s.start
  pk [(0, t.stage), (4, t.gddrOut.toNat), (5, t.stuck.toNat), (6, satN 2 t.consec),
    (8, s.holds), (24, t.failStep)]

/-- Registers of GLB but for `ISL_FREQ`, a measurement (R823). -/
def State.glbReg (s : State) (o : Nat) : Word32 :=
  match o with
  | 0x000 => 0x08801E3F
  | 0x004 => 0xB1
  | 0x008 => pk [(0, s.glb.grade.toNat)]
  | 0x00C => half Config.serial.toNat false | 0x010 => half Config.serial.toNat true
  | 0x014 => 0x02040810
  | 0x018 =>
    let up := s.start.gddrTrained && s.start.gddrRate != 0
    pk [(0, s.glb.clamshell.toNat), (8, if up then (if s.glb.clamshell then 16 else 8) else 0),
      (24, if up then s.start.gddrRate else 0)]
  | 0x01C => pk [(0, s.glb.vid.toNat)]
  | 0x040 => s.stageReg
  | 0x044 => s.start.startNumber
  | _ => match inArr o 0x030 4, inArr o 0x080 32 with
    | some k, _ => s.glb.scratch.getD k 0
    | _, some k => s.glb.health.getD k 0
    | _, _ => 0

/-- The register at offset `a` of PF BAR0, as it stands (R809). -/
def State.pfReg (s : State) (a : Nat) : Word32 :=
  let o := a % 65536
  match a / 65536 with
  | 0x0 => s.glbReg o
  | 0x1 => if o < 0xF000 then s.hifReg o else 0
  | 0x2 => if o < 0x4000 then s.rngReg (o / 32) (o % 32) else 0
  | 0x3 => s.fctReg (o / 4096) (o % 4096)
  | 0x4 => if o < 0x4000 then s.cluReg (o / 4096) (o % 4096) else 0
  | 0x5 => s.vltReg o
  | 0x6 => s.pipReg o
  | 0x7 => s.sigReg o
  | 0x8 => s.crnReg o
  | 0x9 => s.aplReg o
  | 0xA => s.tmpReg o
  | 0xB => s.lcsReg o
  | 0xC => s.nvmReg o
  | 0xD => s.crdReg o
  | 0xE => s.snpReg o
  | _ => 0

/-! The management health record (R45, R603, R621, R824). -/

/-- Words 16 to 23 or 24 to 31: a crown's half. -/
def healthHalf (c : Crown) : List Word32 := (List.range 8).map c.hReg

/-- The words of the tamper logic and of the active crown, written once in a heartbeat period. -/
def State.healthBeat (s : State) : State :=
  let head : List Word32 := s.glb.health.take 12 ++
      [s.stageReg, s.lcsReg 0x008, s.crnReg 0x004,
        pk [(0, match s.keys.custody with | .noDomain => 0 | .ready => 1 | .erased => 2), (8, s.vault.st.code)]]
  let a := if s.crowns.activeB then (s.glb.health.drop 16).take 8 else healthHalf s.crowns.a
  let b := if s.crowns.activeB then healthHalf s.crowns.b else s.glb.health.drop 24
  { s with glb := { s.glb with health := head ++ a ++ b } }

/-- Each crown's half as that crown writes it; a crown that is out writes nothing. -/
def State.healthHalves (s : State) : State :=
  let half := fun (c : Crown) (old : List Word32) => if c.st = .out then old else healthHalf c
  let h := s.glb.health
  let all := h.take 16 ++ half s.crowns.a ((h.drop 16).take 8) ++ half s.crowns.b (h.drop 24)
  { s with glb := { s.glb with health := all } }

/-- CROWN_HEARTBEAT (R603): the active crown's word, and the health record's words of the period. -/
def execCrownHeartbeat (s : State) : Host.Outcome State Fault Refusal :=
  .next <|
    if s.start.stage < 2 then s
    else
      let c := s.activeCrown
      (s.setActive { c with heartbeat := c.heartbeat + 1 }).healthBeat

/-- The tamper logic's words of the health record, written in every heartbeat period whatever the crowns do (R45,
R824). -/
def State.tamperBeat (s : State) : State :=
  let t := fun n => match tget none s.tamper.tempRd n with
    | some v => v.toNat
    | none => 0
  let n := s.glb.healthCount + 1
  let head : List Word32 :=
    [0x4B480100, n, s.tmpReg 0x004, s.tmpReg 0x008, s.tmpReg 0x038, s.tmpReg 0x018] ++
      (List.range 6).map (fun k => pk [(0, t (2 * k)), (16, t (2 * k + 1))])
  { s with glb := { s.glb with health := head ++ s.glb.health.drop 12, healthCount := n } }

/-- HEARTBEAT_CHECK (R603, R604): the end of a heartbeat period. -/
def execHeartbeatCheck (s : State) : Host.Outcome State Fault Refusal :=
  .next (if s.start.stage < 2 then s else s.watchBeat.tamperBeat)

/-- A crown writes its health report (R621). -/
def Crown.reported (c : Crown) : Crown := if c.st = .out then c else { c with report := c.report + 1 }

/-- HEALTH_REPORT (R621). -/
def execHealthReport (s : State) : Host.Outcome State Fault Refusal :=
  .next <|
    if s.start.stage < 2 then s
    else
      ({ s with crowns := { s.crowns with a := s.crowns.a.reported, b := s.crowns.b.reported } } : State).healthHalves

end Sys2Proof.Machine
end

