-- ==== Sys2Proof/Machine/Mirror.lean ====
section
/-!
DEFINITION. The state mirror (R801 to R804, R832, R833): each region is an array of entries, formed
from the state when it is read.
-/

namespace Sys2Proof.Machine

/-- A register copied into a line. -/
def regB (w : Word32) : Bytes := leBytes 4 w.toNat

/-- Codes of custody states (R763). -/
def Custody.code : Custody → Nat
  | .noDomain => 0 | .ready => 1 | .erased => 2

/-- `PURPOSE` codes (R208). -/
def CerPurpose.code : CerPurpose → Nat
  | .restore => 1 | .create => 2 | .resplit => 3

/-- Lines of the global region (R832). -/
def State.mirrorGlobal (s : State) (n : Nat) : Bytes :=
  match n with
  | 0 => ([s.stageReg, s.glbReg 0x44, s.lcsReg 0x0, s.lcsReg 0x4, s.lcsReg 0x8, s.lcsReg 0x18, s.tmpReg 0x4, s.tmpReg 0x8,
      s.tmpReg 0x38, s.crnReg 0x4, s.crnReg 0x10, s.crnReg 0x14, s.vltReg 0x4, s.vltReg 0x8, s.vltReg 0xC,
      s.pipReg 0x4].map regB).flatten
  | 1 =>
    let c := s.keys.ceremony
    let idx := (c.map Ceremony.indices).getD []
    ([s.crnReg 0x20, s.crnReg 0x24, s.crnReg 0x28, s.crnReg 0x2C, s.crnReg 0xC].map regB).flatten ++
      [BitVec.ofNat 8 s.keys.custody.code, s.keys.deviceNumber,
        BitVec.ofNat 8 ((c.map fun x => x.purpose.code).getD 0), BitVec.ofNat 8 idx.length] ++
      leBytes 4 s.keys.domainId.toNat ++ leBytes 4 s.loadCount ++
      leBytes 2 ((idx.map fun i => 2 ^ (i - 1)).foldl (· ||| ·) 0) ++ zeros 2 ++
      ([s.sigReg 0x4, s.aplReg 0x4, s.nvmReg 0x4, s.nvmReg 0x8].map regB).flatten
  | 2 =>
    let act : Byte := if s.crowns.activeB then 1 else 0
    match (match s.crowns.journal with | some j => some j | none => s.crowns.lastEntry) with
    | none => zeros 13 ++ [0xFF, act] ++ zeros 17 ++ leBytes 2 s.activeClaim.toNat
    | some j =>
      leBytes 4 j.tag.toNat ++ leBytes 2 j.opcode.toNat ++ leBytes 2 j.ring ++ leBytes 4 j.number ++
        [BitVec.ofNat 8 j.state.code, BitVec.ofNat 8 (j.outcome.getD 0xFF), act, 0] ++
        (if j.outcome = some 1 then fit 16 j.shown else zeros 16) ++ leBytes 2 s.activeClaim.toNat
  | _ => []

/-- Facet line: its state registers. -/
def State.mirrorFacet (s : State) (f : Nat) : Bytes :=
  ([0x0, 0x4, 0x80, 0x84, 0x88, 0x8C, 0x90, 0x94, 0xA0, 0xA4, 0xA8, 0xAC].map fun o => regB (s.fctReg f o)).flatten

/-- Applet-slot line. -/
def State.mirrorApplet (s : State) (k : Nat) : Bytes :=
  let a := tget {} s.applets.slots k
  (regB (s.appSlotReg 0 k) ++ regB (s.appSlotReg 1 k) ++ regB (s.appSlotReg 2 k)) ++
    slice a.header 8 8 ++ regB a.owner ++ slice a.header 24 8 ++
    ((List.range 8).map fun c => regB ((a.caps.getD c none).getD 0)).flatten

/-- Strand-stream line. -/
def State.mirrorStream (s : State) (i : Nat) : Bytes :=
  let x := s.stream i
  let mine := s.strands.filter fun y => y.stream == i
  let signing := mine.filter fun y => match y.st with | .signing _ _ => true | _ => false
  [BitVec.ofNat 8 x.sigs.toNat, 0] ++ leBytes 2 x.countLimit ++ leBytes 4 x.timeLimit ++ regB x.ecKey ++ regB x.mlKey ++
    regB x.owner ++ regB x.counter ++ regB (((s.openStrand i).map (·.id)).getD 0) ++
    leBytes 2 (s.openPearls i) ++ leBytes 2 x.places ++ leBytes 2 signing.length ++
    leBytes 2 (mine.filter fun y => y.st == .ready).length ++ leBytes 2 x.collects.length ++
    [BitVec.ofNat 8 s.buffersUsed, 0] ++ regB x.delivered

/-- Hallmark line. -/
def State.mirrorHallmark (s : State) (k : Nat) : Bytes :=
  let h := s.hallmark k
  fit 48 h.h ++ leBytes 8 h.extCount.toNat ++ regB h.owner ++
    [BitVec.ofNat 8 (ofBits [h.locked, h.torn, h.readAll, h.resetOk]),
      BitVec.ofNat 8 (min 255 (s.marks.filter fun m => m.hm == k).length)]

/-- Persistent-key line. -/
def State.mirrorPkey (s : State) (i : Nat) : Bytes :=
  let r := s.nvm.record (pkeyName i)
  let tail := leBytes 4 r.seq ++ leBytes 2 r.claim
  match r.st, s.pkey i with
  | .torn, _ => [BitVec.ofNat 8 i, 0, 3] ++ zeros 17 ++ tail
  | _, none => [BitVec.ofNat 8 i, 0, 0] ++ zeros 17 ++ tail
  | _, some p =>
    let k := s.pkeyData p
    [BitVec.ofNat 8 i, BitVec.ofNat 8 p.type, if k.isSome then 1 else 2, 0] ++ leBytes 8 p.blocksLeft ++
      leBytes 4 p.invsLeft ++ leBytes 4 ((k.map (·.attr)).getD 0) ++ tail

/-- Codes of chain states (R833). -/
def ChainSt.code : ChainSt → Nat
  | .free => 0 | .opened _ => 1 | .ended _ => 2

/-- Ring line. -/
def State.mirrorRing (s : State) (r : Nat) : Bytes :=
  let x := s.ring r
  let cap := (s.fn (fnOf r)).classCap
  let waits := (x.work.filter fun w => w.phase == .fetched).length
  let chains := fun k => (x.chains.filter fun e => e.2.code == k).length
  [BitVec.ofNat 8 x.st.code, BitVec.ofNat 8 x.cause.toNat, BitVec.ofNat 8 x.sizeLog2.toNat, BitVec.ofNat 8 cap.toNat] ++
    regB x.p ++ regB x.f ++ regB x.w ++ leBytes 4 waits ++ leBytes 4 (x.work.length - waits) ++
    leBytes 8 x.sqBase.toNat ++ leBytes 8 x.cqBase.toNat ++ regB (s.rngReg r 0x14) ++
    leBytes 2 (chains 1) ++ leBytes 2 (chains 2)

/-- Ring-extension entry. -/
def State.mirrorRingExt (s : State) (r : Nat) : Bytes :=
  let x := s.ring r
  let n := x.work.length
  let four := fun b => (List.range 4).map fun j => (tget ChainSt.free x.chains (4 * b + j)).code * 4 ^ j
  (List.range 64).map (fun b => BitVec.ofNat 8 ((four b).foldl (· + ·) 0)) ++ leBytes 4 n ++ leBytes 4 (min n 108) ++
    zeros 8 ++ ((x.work.take 108).map fun w => regB w.desc.tag).flatten

/-- Codes of slot states (R171). -/
def SlotState.code : SlotState → Nat
  | .empty => 0 | .loaded => 1 | .spent => 2 | .erased => 3 | .extension => 4

/-- Key-slot line: bytes 64 to 127 of the slot's record (R171). -/
def State.mirrorSlot (s : State) (i : Nat) : Bytes :=
  let k := s.slot i
  [k.type, BitVec.ofNat 8 k.st.code, BitVec.ofNat 8 k.extCount, 0] ++ regB k.attr ++ regB k.owner ++ regB k.fixedField ++
    leBytes 8 k.blockCount ++ leBytes 8 k.blockLimit ++ leBytes 4 k.invCount ++ leBytes 4 k.invLimit ++
    leBytes 2 k.reservedBy ++ zeros 2 ++ regB k.parent

/-- State code of a message's context (R833). -/
def Msg.ctxCode (m : Msg) : Nat :=
  match m.st with
  | .parked => 2
  | .await => 3
  | .onLane _ _ => 1
  | .ready => if m.pos = 0 then 4 else 2
  | .fetching => 4
  | _ => 1

/-- Cipher-context entry: contexts of a facet are numbered in the order their messages took them. -/
def State.mirrorCipher (s : State) (n : Nat) : Bytes :=
  match ((s.facet (n / 256)).msgs.filter fun m => !m.isDigest)[n % 256]? with
  | none => zeros 16
  | some m =>
    let d := s.descOf m.ring m.seq
    let key := match m.kind with
      | .cipher c => c.key
      | .capture c => c.archive
      | .digest _ => 0
    let op := match m.kind with
      | .cipher c => c.op
      | _ => Op.capture.code
    [BitVec.ofNat 8 m.ctxCode, BitVec.ofNat 8 (fnOf m.ring)] ++ leBytes 2 m.ring ++
      [BitVec.ofNat 8 (m.chain.getD 0), BitVec.ofNat 8 m.cls] ++ leBytes 2 op.toNat ++ regB key ++
      regB ((d.map (·.tag)).getD 0)

/-- Digest-context entry. -/
def State.mirrorDigest (s : State) (n : Nat) : Bytes :=
  match tget none (s.facet (n / 256)).digs (n % 256) with
  | none => zeros 16
  | some c =>
    let st := if c.oneShot then 3 else if c.st = .final then 2 else 1
    [BitVec.ofNat 8 st, BitVec.ofNat 8 c.fn, BitVec.ofNat 8 c.alg, if c.key = 0 then 0 else 1] ++
      leBytes 2 (c.heldBy.getD 0xFFFF) ++ zeros 2 ++ regB c.key

/-- A region of R801: its place, size, the size of its entries, whether it reads as zero outside TEST and PRODUCTION
(R804), and its entries. -/
structure Region where
  base : Nat
  size : Nat
  entry : Nat
  shut : Bool
  line : State → Nat → Bytes

/-- The regions (R801, R833). -/
def regions : List Region :=
  [⟨0x00000, 0x1000, 64, false, State.mirrorGlobal⟩, ⟨0x01000, 0x400, 64, false, State.mirrorFacet⟩,
   ⟨0x01400, 0x800, 64, false, State.mirrorApplet⟩, ⟨0x01C00, 0x100, 64, false, State.mirrorStream⟩,
   ⟨0x01D00, 0x100, 16, false, fun s k => s.battery.logAt k⟩, ⟨0x02000, 0x1000, 64, false, State.mirrorHallmark⟩,
   ⟨0x03000, 0x1000, 64, true, State.mirrorPkey⟩, ⟨0x04000, 0x8000, 64, false, State.mirrorRing⟩,
   ⟨0x10000, 0x40000, 512, false, State.mirrorRingExt⟩, ⟨0x50000, 0x40000, 64, true, State.mirrorSlot⟩,
   ⟨0x90000, 0x10000, 16, true, State.mirrorCipher⟩, ⟨0xA0000, 0x10000, 16, true, State.mirrorDigest⟩,
   ⟨0xB0000, 0x20000, 256, false, fun s k => s.nvm.page (k / 256 * 4096 + 3584 + k % 256)⟩,
   ⟨0xD0000, 0x8000, 0x4000, false, fun s k => s.snp.banks.getD k []⟩]

/-- The key-slot, persistent-key and context regions show their entries (R804). -/
def Lcs.mirrors : Lcs → Bool
  | .test | .production => true
  | _ => false

/-- The 4 bytes of the mirror at offset `o` (R801, R803). -/
def State.mirrorWord (s : State) (o : Nat) : Word32 :=
  match regions.find? fun r => decide (r.base ≤ o) && decide (o < r.base + r.size) with
  | none => 0
  | some r =>
    if r.shut && !s.lcs.mirrors then 0
    else BitVec.ofNat 32 (leField (r.line s ((o - r.base) / r.entry)) ((o - r.base) % r.entry) 4)

end Sys2Proof.Machine
end

