-- ==== Sys2Proof/Machine/Registers.lean ====
section
/-!
DEFINITION. Register accesses (R809 to R821): who reaches which register, what a write stores or sets off, and
what a read returns and latches.
-/

namespace Sys2Proof.Machine

/-! Where an access goes (R809 to R813, R817). -/

/-- What an address of a function's BAR0 names. -/
inductive Place
  /-- register at this offset of PF BAR0 -/
  | reg (a : Nat)
  /-- word `w` of the MSI-X table, or of the PBA -/
  | msix (w : Nat)
  | pba (w : Nat)
  /-- offset of the state mirror -/
  | mirror (o : Nat)
  /-- an offset that a VF does not reach -/
  | barred
  /-- an unassigned offset of the PF, or beyond the BAR -/
  | nothing
deriving DecidableEq, Repr

/-- The MSI-X structures, at offset `o` of their 4 KiB (R54). -/
def msixPlace (o : Nat) : Place :=
  if o < 0x400 then .msix (o / 4) else if 0x800 ≤ o ∧ o < 0x808 then .pba ((o - 0x800) / 4) else .nothing

/-- Where function `f` gets with offset `a` of its BAR0. -/
def placeOf (f a : Nat) : Place :=
  if f = 0 then
    if 0x1F000 ≤ a ∧ a < 0x20000 then msixPlace (a - 0x1F000)
    else if a < 0xF0000 then .reg a
    else if 0x100000 ≤ a ∧ a < 0x200000 then .mirror (a - 0x100000)
    else .nothing
  else if a < 0x200 then .reg (0x20000 + 0x200 * f + a)
  else if 0x400 ≤ a ∧ a < 0x420 then
    if a = 0x40C ∨ a = 0x410 then .barred else .reg (0x10100 + 0x20 * f + (a - 0x400))
  else if 0xF000 ≤ a ∧ a < 0x10000 then
    (match msixPlace (a - 0xF000) with
      | .nothing => .barred
      | p => p)
  else if a < 0x10000 then .barred
  else .nothing

/-! Count registers (R590, R716, R751, R828, R831). -/

/-- The count registers of a block cleared. -/
def State.clearCounts (s : State) : CntBlock → State
  | .apl =>
    let a := s.applets
    { s with applets := { a with
      invokes := 0, hooks := 0
      engines := a.engines.map fun (e : Nat × Engine) =>
        (e.1, { e.2 with done := 0, faults := 0, budgets := 0, restarts := 0 })
      slots := a.slots.map fun (e : Nat × AppSlot) => (e.1, { e.2 with runs := 0 }) } }
  | .nvm => { s with nvm := { s.nvm with tie := 0, torn := 0, writes := 0, retry := 0 } }
  | .crd => { s with cards := { s.cards with cnt := [], cc := { s.cards.cc with apdus := 0 } } }
  | .fct f =>
    { s with fctRegs := tmod {} s.fctRegs f.val fun (x : FctRegs) => { bistMs := x.bistMs, passes := x.passes } }
  | .clu c =>
    { s with clus := tmod {} s.clus c.val fun (x : Clu) => { x with
      stageHwm := 0, edcValid := false, edcVault := false, edcLine := 0
      chRetry := [0, 0, 0, 0], chFail := [0, 0, 0, 0], chBursts := [0, 0, 0, 0] } }

/-- The address of the register whose bit clears a block's counts. -/
def cntAddr : CntBlock → Nat
  | .apl => 0x90000
  | .nvm => 0xC0000
  | .crd => 0xD0000
  | .fct f => 0x300EC + 0x1000 * f.val
  | .clu c => 0x40000 + 0x1000 * c.val

/-- CLR_CNT (R590, R716, R751, R828, R831). -/
def execClrCnt (fn : Fin 32) (block : CntBlock) (s : State) : Host.Outcome State Fault Refusal :=
  .next (s.pfWrite fn (cntAddr block) fun x => x.clearCounts block)

/-! Writes, block by block. `v` is the word as a number; unnamed offsets hold read-only fields or nothing, and a
write to them is ignored (R813). -/

/-- An action taken where a bit is written with 1. -/
def State.onBit (s : State) (v i : Nat) (act : State → State) : State := if bitOf v i then act s else s

/-- A 64-bit register with its low or its high half replaced. -/
def setHalf (w : Word64) (hi : Bool) (v : Nat) : Word64 :=
  BitVec.ofNat 64 (if hi then v * 2 ^ 32 + w.toNat % 2 ^ 32 else w.toNat / 2 ^ 32 * 2 ^ 32 + v)

/-- A value at its nearest limit (R393, R624, R660). -/
def clamp (lo hi v : Nat) : Nat := max lo (min hi v)

/-- A write by function `f` to register `o` of ring `r`, at offset `a` of its BAR0 (R144, R147 to R151). -/
def State.wrRng (s : State) (f r o v a : Nat) : State :=
  let x := s.ring r
  let set := fun (y : Ring) => if x.st = .disabled then s.setRing r y else s.violation 4 f true a
  match o with
  | 0x00 => set { x with sqBase := setHalf x.sqBase false (v / 4096 * 4096) }
  | 0x04 => set { x with sqBase := setHalf x.sqBase true v }
  | 0x08 => set { x with cqBase := setHalf x.cqBase false (v / 4096 * 4096) }
  | 0x0C => set { x with cqBase := setHalf x.cqBase true v }
  | 0x10 => set { x with sizeLog2 := BitVec.ofNat 5 v }
  | 0x14 => set { x with
      coalTime := BitVec.ofNat 12 (v / 2 ^ 16), coalCount := BitVec.ofNat 8 (v / 256), irqEn := bitOf v 6
      vector := BitVec.ofNat 6 v }
  | 0x18 =>
    if bitOf v 3 then s.ringClear r
    else if bitOf v 2 then s.ringEnd r
    else if bitOf v 1 then s.ringHalt r
    else if bitOf v 0 then s.ringEnable r
    else s
  | _ => s

/-- A write to register `o` of function `f` (R154 to R157). -/
def State.wrFn (s : State) (f o v : Nat) : State :=
  match o with
  | 0x00 => s.modFn f fun x => { x with db := setHalf x.db false (v / 128 * 128) }
  | 0x04 => s.modFn f fun x => { x with db := setHalf x.db true v }
  | 0x08 => s.modFn f fun x => { x with pollMin := BitVec.ofNat 10 v, pollMax := BitVec.ofNat 10 (v / 2 ^ 16) }
  | 0x0C =>
    let s1 := s.modFn f fun x => { x with classCap := BitVec.ofNat 2 (v / 16), en := x.en || bitOf v 0 }
    if bitOf v 0 then s1 else s1.disableFn f
  | 0x10 => s.modFn f fun x => { x with perm := BitVec.ofNat 8 (v / 4) }
  | _ => s

/-- A write to HIF (R83, R160). -/
def State.wrHif (s : State) (o v : Nat) : State :=
  match o with
  | 0x004 => { s with link := { s.link with evt := s.link.evt &&& ~~~(BitVec.ofNat 4 v) } }
  | 0x010 => { s with hif := { s.hif with schedAge := BitVec.ofNat 16 v } }
  | _ => match inWin o 0x100 0x20 32 with
    | some (f, q) => s.wrFn f q v
    | none => s

/-- A write to GLB (R782, R823). -/
def State.wrGlb (s : State) (o v : Nat) : State :=
  match o with
  | 0x048 => s.onBit v 0 fun x => x.log .retry 3 1 1 0 0
  | 0x04C =>
    if v / 2 ^ 16 ≠ 0x4B57 then s.violation 4 0 true 0x4C
    else s.onBit v 0 fun x => x.resetBy 0x4B57
  | _ => match inArr o 0x030 4 with
    | some k => { s with glb := { s.glb with scratch := s.glb.scratch.set k (BitVec.ofNat 32 v) } }
    | none => s

/-- A write to the FCT window of facet `f` (R782, R828): the fence as written, then the reset. -/
def State.wrFct (s : State) (f : Fin 16) (o v : Nat) : State :=
  match o with
  | 0x000 => (s.facetFence f (bitOf v 1)).onBit v 0 fun x => x.facetReset f
  | 0x0EC => s.onBit v 0 fun x => x.clearCounts (.fct f)
  | _ => s

/-- A write to the CLU window of cluster `c` (R831). -/
def State.wrClu (s : State) (c : Fin 4) (o v : Nat) : State :=
  match o with
  | 0x000 => s.onBit v 0 fun x => x.clearCounts (.clu c)
  | 0x014 => s.onBit v 31 fun x => { x with clus := tmod {} x.clus c.val fun (y : Clu) => { y with edcValid := false } }
  | _ => s

/-- A write to VLT (R462). -/
def State.wrVlt (s : State) (o v : Nat) : State :=
  match o with
  | 0x000 => (s.onBit v 1 State.flushVault).onBit v 0 fun x => x.stim 16
  | 0x014 => { s with vlt := { s.vlt with batchUs := BitVec.ofNat 10 (min 1000 (v % 1024)) } }
  | 0x020 => s.onBit v 31 fun x => { x with vlt := { x.vlt with errValid := false } }
  | _ => s

/-- A write to PIP (R499). -/
def State.wrPip (s : State) (o v : Nat) : State :=
  match o with
  | 0x000 =>
    let s1 : State := { s with pip := { s.pip with en := bitOf v 0 } }
    (s1.onBit v 1 State.reframe).onBit v 2 State.clearPipFault
  | 0x008 => { s with pip := { s.pip with armqHint := BitVec.ofNat 10 v, outHint := BitVec.ofNat 10 (v / 2 ^ 16) } }
  | 0x00C =>
    let d := if v % 4 = 3 then 2 else v % 4
    { s with pip := { s.pip with drive := BitVec.ofNat 2 d, odt := BitVec.ofNat 2 (v / 16) } }
  | _ => s

/-- A write to SIG (R390, R393 to R395, R398). -/
def State.wrSig (s : State) (o v : Nat) : State :=
  let g := s.signet
  match o with
  | 0x000 => ({ s with signet := { g with predResAll := bitOf v 0 } } : State).onBit v 8 fun x => x.stim 15
  | 0x00C => { s with signet := { g with
      reqLog2 := BitVec.ofNat 5 (clamp 10 20 (v % 32)), intervalMs := BitVec.ofNat 10 (clamp 1 1000 (v / 2 ^ 16 % 1024)) } }
  | 0x010 => s.onBit v 0 fun x => { x with signet := x.signet.entStart }
  | 0x014 => { s with signet := { g with
      rctFail := g.rctFail && !bitOf v 8, aptFail := g.aptFail && !bitOf v 9, startupFail := g.startupFail && !bitOf v 10 } }
  | _ => match inArr o 0x080 12 with
    | some n =>
      let e := s.engine n
      s.setEngine n { e with signCheck := e.signCheck && !bitOf v 1, verdictFault := e.verdictFault && !bitOf v 2 }
    | none => s

/-- A write to CRN (R624). -/
def State.wrCrn (s : State) (o v : Nat) : State :=
  match o with
  | 0x000 => ({ s with crowns := { s.crowns with rejoinAuto := bitOf v 0 } } : State).onBit v 1 fun x => x.stim 17
  | 0x008 => { s with crowns := { s.crowns with
      periodUs := BitVec.ofNat 7 (clamp 1 100 (v % 128)), miss := BitVec.ofNat 4 (clamp 2 15 (v / 256 % 16))
      healthUs := BitVec.ofNat 16 (clamp 10 10000 (v / 2 ^ 16)) } }
  | 0x00C => s.onBit v 0 fun x => { x with crowns := { x.crowns with takeValid := false } }
  | _ => s

/-- A write to APL (R590). -/
def State.wrApl (s : State) (o v : Nat) : State :=
  match o with
  | 0x000 =>
    ({ s with applets := { s.applets with invokeEn := bitOf v 0 } } : State).onBit v 1 fun x => x.clearCounts .apl
  | _ => s

/-- A write to a register of TMP that the lock does not find locked (R652, R660). -/
def State.wrTmpFree (s : State) (o v : Nat) : State :=
  let t := s.tamper
  match o with
  | 0x014 =>
    let c : BatCfg :=
      { mesh := clamp 6 17 (bitsOf v 4 0), loop := clamp 6 17 (bitsOf v 12 8), temp := clamp 6 17 (bitsOf v 20 16)
        vbat := clamp 6 17 (bitsOf v 28 24) }
    { s with tamper := { t with batCfg := c }, battery := { s.battery with copyCfg := c } }
  | 0x03C =>
    let hi := (BitVec.ofNat 8 (v / 256)).toInt
    let lo := (BitVec.ofNat 8 v).toInt
    { s with tamper := { t with tempHigh := hi, tempLow := lo }, battery := { s.battery with copyHigh := hi, copyLow := lo } }
  | _ => match inArr o 0x100 32, inWin o 0x280 8 10, inArr o 0x340 16 with
    | some m, _, _ => s.setMonCfg m (BitVec.ofNat 32 v)
    | _, some (r, q), _ =>
      if q = 0 then { s with tamper := { t with railWin := tset (railReset r) t.railWin r (v % 2 ^ 16, v / 2 ^ 16) } }
      else { s with tamper := { t with
        railGlitch := tset (2, 10) t.railGlitch r (clamp 1 15 (bitsOf v 11 8), clamp 3 50 (v % 256)) } }
    | _, _, some i => { s with tamper := { t with
        clkWin := tset (20, 40) t.clkWin i (clamp 5 100 (bitsOf v 15 8), clamp 20 49 (v % 256)) } }
    | _, _, _ => s

/-- Registers that `TMP.CTL.LOCK` locks (R643). -/
def tmpLockable (o : Nat) : Bool :=
  o == 0x014 || o == 0x03C || (inArr o 0x100 32).isSome || (inWin o 0x280 8 10).isSome || (inArr o 0x340 16).isSome

/-- A write to TMP (R643, R654, R656, R660). -/
def State.wrTmp (s : State) (o v : Nat) : State :=
  match o with
  | 0x000 => s.onBit v 0 fun x => { x with tamper := { x.tamper with locked := true } }
  | 0x00C => s.onBit v 31 fun x => x.stim (v % 32)
  | 0x024 =>
    let s1 := s.onBit v 31 fun x => if x.lcs = .test then x.clearLog else x.violation 2 0 true 0xA0024
    { s1 with tamper := { s1.tamper with logIndex := v % 16 } }
  | _ => if tmpLockable o then s.lockedWrite (0xA0000 + o) fun x => x.wrTmpFree o v else s

/-- A write to LCS: the test registers, in TEST only; a `GO` acts on the fields written with it (R666, R684). -/
def State.wrLcs (s : State) (o v : Nat) : State :=
  if o < 0x040 ∨ 0x064 ≤ o then s
  else if s.lcs ≠ .test then s.violation 2 0 true (0xB0000 + o)
  else
    let l := s.life
    match o with
    | 0x040 =>
      let t := v % 16
      ({ s with life := { l with
        mtWrite := bitOf v 30, mtCheck := BitVec.ofNat 8 (v / 256), mtTarget := if t ≤ 5 then t else 0 } } : State).onBit
        v 31 State.mtest
    | 0x044 => { s with life := { l with mtAddr := BitVec.ofNat 32 v } }
    | 0x048 => { s with life := { l with mtWdata := setHalf l.mtWdata false v } }
    | 0x04C => { s with life := { l with mtWdata := setHalf l.mtWdata true v } }
    | 0x058 =>
      let g := v / 256 % 4
      let a := v % 32
      ({ s with life := { l with mbAlgo := if g = 3 then 0 else g, mbArray := if a ≤ 21 then a else 0 } } : State).onBit
        v 31 State.mbist
    | _ => s

/-- A write to NVM (R709, R716). -/
def State.wrNvm (s : State) (o v : Nat) : State :=
  match o with
  | 0x000 => s.onBit v 0 fun x => x.clearCounts .nvm
  | 0x008 =>
    if s.nvm.bpLock then s.violation 4 0 true 0xC0008
    else { s with nvm := { s.nvm with bp := BitVec.ofNat 2 v, bpLock := bitOf v 8 } }
  | 0x014 => s.onBit v 31 fun x => { x with nvm := { x.nvm with lastTieValid := false } }
  | _ => s

/-- A write to CRD (R751). -/
def State.wrCrd (s : State) (o v : Nat) : State :=
  let d := s.cards.sd
  let m := s.cards.cc
  match o with
  | 0x000 =>
    let s1 := s.onBit v 0 fun x => x.clearCounts .crd
    (s1.onBit v 1 fun x => x.sdOff.onward).onBit v 2 fun x => x.ccOff.onward
  | 0x008 => { s with cards := { s.cards with sd := { d with hs := bitOf v 1, bus4 := bitOf v 0 } } }
  | 0x01C => { s with cards := { s.cards with sd := { d with
      evtChk := d.evtChk && !bitOf v 3, evtTimeout := d.evtTimeout && !bitOf v 2
      evtRemoved := d.evtRemoved && !bitOf v 1, evtInserted := d.evtInserted && !bitOf v 0 } } }
  | 0x03C => { s with cards := { s.cards with cc := { m with
      freq := BitVec.ofNat 6 (clamp 10 50 (v % 64)), classAEn := bitOf v 8 } } }
  | 0x04C => { s with cards := { s.cards with cc := { m with
      evtChk := m.evtChk && !bitOf v 3, evtTimeout := m.evtTimeout && !bitOf v 2
      evtRemoved := m.evtRemoved && !bitOf v 1, evtInserted := m.evtInserted && !bitOf v 0 } } }
  | _ => s

/-- A write to SNP (R808). -/
def State.wrSnp (s : State) (o v : Nat) : State :=
  let p := s.snp
  match o with
  | 0x000 => (s.onBit v 1 fun x => { x with viol := {} }).onBit v 0 fun x => x.snapAsk .reg
  | 0x004 => s.onBit v 29 fun x => { x with snp := { x.snp with writeFault := false } }
  | 0x008 => { s with snp := { p with buf := setHalf p.buf false (v / 64 * 64) } }
  | 0x00C => { s with snp := { p with buf := setHalf p.buf true v } }
  | 0x010 => { s with snp := { p with irqVector := BitVec.ofNat 6 v, irqEn := bitOf v 6 } }
  | _ => s

/-- A write by function `f`, at offset `at_` of its BAR0, to the register at offset `a` of PF BAR0 (R809). -/
def State.wrReg (s : State) (f a v at_ : Nat) : State :=
  let o := a % 65536
  if s.stageBars a then s.violation 3 f true at_
  else match a / 65536 with
  | 0x0 => s.wrGlb o v
  | 0x1 => s.wrHif o v
  | 0x2 => if o < 0x4000 then s.wrRng f (o / 32) (o % 32) v at_ else s
  | 0x3 => s.wrFct (Fin.ofNat 16 (o / 4096)) (o % 4096) v
  | 0x4 => if o < 0x4000 then s.wrClu (Fin.ofNat 4 (o / 4096)) (o % 4096) v else s
  | 0x5 => s.wrVlt o v
  | 0x6 => s.wrPip o v
  | 0x7 => if 0x200 ≤ o ∧ o < 0x240 ∧ s.lcs ≠ .test then s.violation 2 f true at_ else s.wrSig o v
  | 0x8 => s.wrCrn o v
  | 0x9 => s.wrApl o v
  | 0xA => s.wrTmp o v
  | 0xB => s.wrLcs o v
  | 0xC => s.wrNvm o v
  | 0xD => s.wrCrd o v
  | 0xE => s.wrSnp o v
  | _ => s

/-- A write to word `w` of a function's MSI-X table: the fourth word of an entry holds its mask bit (R54, R119). -/
def State.wrMsix (s : State) (f w v : Nat) : State :=
  if w % 4 = 3 then
    if bitOf v 0 then s.modFn f fun x => { x with msixMask := x.msixMask ||| BitVec.ofNat 64 (2 ^ (w / 4)) }
    else s.unmask f (w / 4)
  else s.modFn f fun x => { x with msixTable := tset 0 x.msixTable w (BitVec.ofNat 32 v) }

/-- REGISTER_WRITE (R806, R812, R813, R819): a write of 4 bytes; `aligned` is false for a request that R812 does not
allow. -/
def execRegisterWrite (fn : Fin 32) (addr : BitVec 25) (value : Word32) (aligned : Bool) (s : State) :
    Host.Outcome State Fault Refusal :=
  .next <|
    let a := addr.toNat
    if s.start.stage < 3 ∨ !s.fnExists fn then s
    else if !aligned then s.violation 4 fn true a
    else match placeOf fn (a / 4 * 4) with
      | .reg p => s.wrReg fn p value.toNat a
      | .msix w => s.wrMsix fn w value.toNat
      | .mirror _ => s.violation 4 fn true a
      | .barred => s.violation 1 fn true a
      | .pba _ => s
      | .nothing => s

/-! Reads (R814, R815). -/

/-- The `_HI` partner of an `_LO` register that latches (R814). -/
def latchOf (a : Nat) : Option Nat :=
  let o := a % 65536
  let w := o % 4096
  let hit := match a / 65536 with
    | 0x3 => decide (0x100 ≤ w) && decide (w < 0x140) && w % 8 == 0
    | 0x4 => decide (o < 0x4000) && decide (0x020 ≤ w) && decide (w < 0x040) && w % 8 == 0
    | 0x6 => o == 0x018
    | 0x9 => o == 0x010 || o == 0x018
    | 0xA => o == 0x01C
    | 0xC => o == 0x01C
    | 0xD => o == 0x030
    | _ => false
  if hit then some (a + 4) else none

/-- The register is the `_HI` partner of one that latches. -/
def isLatched (a : Nat) : Bool := decide (4 ≤ a) && (latchOf (a - 4)).isSome

/-- A value returned to the reader. -/
def State.answerRead (s : State) (v : Word32) : State := { s with out := { s.out with readData := v } }

/-- 512 fresh samples captured into `RAW_TAP` (R401). -/
def State.rawTap (s : State) : State :=
  let t := s.freshBytes 64
  let l := (List.range 16).map fun k => BitVec.ofNat 32 (leField t.1 (4 * k) 4)
  ({ t.2 with signet := { t.2.signet with rawTap := l } } : State).answerRead (l.getD 0 0)

/-- A read of the register at offset `a` of PF BAR0 by function `f`, at offset `at_` of its own (R401, R666, R814). -/
def State.rdReg (s : State) (f a at_ : Nat) : State :=
  let raw := decide (0x70200 ≤ a) && decide (a < 0x70240)
  let test := decide (0xB0040 ≤ a) && decide (a < 0xB0064)
  if (raw || test) && s.lcs != .test then (s.violation 2 f false at_).answerRead 0
  else if a = 0x70200 then s.rawTap
  else if 0x100 ≤ a ∧ a < 0x140 then
    -- `ISL_FREQ` is a measurement: a free value (log entry 3, DESIGN CHOICE), but 0 for `dclk` or `tclk` stopped for 1 ms
    let i := (a - 0x100) / 4
    let still := fun (runs : Bool) (last : Nat) => !runs && (last == 0 || decide (last + 250000 ≤ s.tick))
    if (i = 13 && still s.dclkRuns s.cards.sdRun) || (i = 14 && still s.tclkRuns s.cards.ccRun) then s.answerRead 0
    else
      let t := s.freshBytes 4
      t.2.answerRead (BitVec.ofNat 32 (leNat t.1))
  else if isLatched a then s.answerRead (tget 0 s.glb.latches a)
  else match latchOf a with
    | some h =>
      let s1 : State := { s with glb := { s.glb with latches := tset 0 s.glb.latches h (s.pfReg h) } }
      s1.answerRead (s.pfReg a)
    | none => s.answerRead (s.pfReg a)

/-- A word of a function's MSI-X table. -/
def Fn.msixWord (x : Fn) (w : Nat) : Word32 :=
  if w % 4 = 3 then (if x.msixMask.getLsbD (w / 4) then 1 else 0) else tget 0 x.msixTable w

/-- LO_REGISTER_READ (R814): a read of 4 bytes; an `_LO` register latches its partner. Reads of every other register
and of the mirror change nothing but the value returned (R815). -/
def execLoRegisterRead (fn : Fin 32) (addr : BitVec 25) (s : State) : Host.Outcome State Fault Refusal :=
  .next <|
    let a := addr.toNat
    if s.start.stage < 3 ∨ !s.fnExists fn then s
    else if a % 4 ≠ 0 then (s.violation 4 fn false a).answerRead 0
    else match placeOf fn a with
      | .reg p => s.rdReg fn p a
      | .msix w => s.answerRead ((s.fn fn).msixWord w)
      | .pba w => s.answerRead (half (s.fn fn).msixPend.toNat (w == 1))
      | .mirror o => s.answerRead (s.mirrorWord o)
      | .barred => (s.violation 1 fn false a).answerRead 0
      | .nothing => s.answerRead 0

end Sys2Proof.Machine
end

