-- ==== Sys2Proof/Machine/Mgmt.lean ====
section
/-!
DEFINITION. The ports beside PCI Express: the core voltage request (R838, R839), SMBus (R858 to R860) and JTAG
(R667, R673, R674).
-/

namespace Sys2Proof.Machine

/-- VID_STEP (R839): one step of the code, which stays in 0 to 40. -/
def execVidStep (up : Bool) (s : State) : Host.Outcome State Fault Refusal :=
  .next <|
    let c := s.glb.vid
    if s.start.stage < 2 then s
    else if up then (if c.toNat < 40 then { s with glb := { s.glb with vid := c + 1 } } else s)
    else if c = 0 then s else { s with glb := { s.glb with vid := c - 1 } }

/-! SMBus. -/

/-- One byte of the CRC-8 of SMBus (x^8 + x^2 + x + 1). -/
def pecByte (c b : Byte) : Byte :=
  (List.range 8).foldl (fun (x : Byte) _ => if x.getLsbD 7 then (x <<< 1) ^^^ 0x07 else x <<< 1) (c ^^^ b)

/-- The packet error code over the bytes of a transaction. -/
def pec (b : Bytes) : Byte := b.foldl pecByte 0

/-- The 128 bytes of the health record (R824). -/
def State.healthBytes (s : State) : Bytes := (s.glb.health.map fun w => leBytes 4 w.toNat).flatten

/-- HEALTH_READ (R858, R859): a Block Read of code `0xD0` at address `0x6A`: the count, the record and the code over
address, command, address and data. Before S2 the address is not acknowledged. -/
def execHealthRead (s : State) : Host.Outcome State Fault Refusal :=
  .next <|
    if s.start.stage < 2 then { s with out := { s.out with smbus := none } }
    else
      let b := 128 :: s.healthBytes
      { s with out := { s.out with smbus := some (b ++ [pec ([0xD4, 0xD0, 0xD5] ++ b)]) } }

/-- MCTP_CONTROL (R859): the answer to a control message of DSP0236; what it holds beyond the command code is left
open (log entry 3, DESIGN CHOICE). Before S2 the address is not acknowledged. -/
def execMctpControl (command : Byte) (_data : Bytes) (s : State) : Host.Outcome State Fault Refusal :=
  .next <|
    if s.start.stage < 2 then { s with out := { s.out with mctp := none } }
    else
      let t := s.freshBytes 16
      { t.2 with out := { t.2.out with mctp := some (command :: t.1) } }

/-- SMBUS_TIMEOUT (R860): the transaction in progress is abandoned, its answer with it. -/
def execSmbusTimeout (s : State) : Host.Outcome State Fault Refusal :=
  .next { s with out := { s.out with smbus := none, mctp := none } }

/-! JTAG. -/

/-- A debug scope is open (R665, R666, R673): bit 0 `CROWN_TRACE`, 1 `FACET_STATE`, 2 `PINS`. The life-cycle state is
known from S2 on. -/
def State.scopeOpen (s : State) (bit : Nat) : Bool :=
  Nat.ble 2 s.start.stage &&
    match s.lcs with
    | .blank | .test | .endOfLife => true
    | .production => s.grantNow.any fun g => g.scope.getLsbD bit
    | .unresolved => false

/-- Codes of the instruction last loaded, as the model shows it. -/
inductive JtagIr | bypass | idcode | sample | extest | own
deriving DecidableEq, Repr


/-- Its number in `Outputs.jtagIr`. -/
def JtagIr.code : JtagIr → Nat
  | .bypass => 0 | .idcode => 1 | .sample => 2 | .extest => 3 | .own => 4

/-- An instruction loaded, with what it shifts out. -/
def State.jtag (s : State) (i : JtagIr) (b : Option Bytes) : State :=
  -- R854: `JT_TDO` is high-impedance until S2 begins
  { s with out := { s.out with jtag := if s.start.stage < 2 then none else b, jtagIr := i.code } }

/-- BYPASS (R667): open in every state; its one-bit register starts at zero. -/
def execBypass (s : State) : Host.Outcome State Fault Refusal :=
  .next (if s.start.stage = 0 then s else s.jtag .bypass (some [0]))

/-- IDCODE (R667): open in every state; the manual gives no code, so it is free but for bit 0, which IEEE 1149.1 sets. -/
def execIdcode (s : State) : Host.Outcome State Fault Refusal :=
  .next <|
    if s.start.stage = 0 then s
    else
      let t := s.freshBytes 4
      t.2.jtag .idcode (some ((byteAt t.1 0 ||| 1) :: t.1.drop 1))

/-- SAMPLE_PRELOAD (R667): open in every state; the levels sampled are free, the value shifted in is held for `EXTEST`. -/
def execSamplePreload (pins : Bytes) (s : State) : Host.Outcome State Fault Refusal :=
  .next <|
    if s.start.stage = 0 then s
    else
      let t := s.freshBytes pins.length
      ({ t.2 with out := { t.2.out with scan := pins } } : State).jtag .sample (some t.1)

/-- EXTEST (R667, R673): only with scope `PINS`; the value shifted in drives the pins. -/
def execExtest (drive : Bytes) (s : State) : Host.Outcome State Fault Refusal :=
  .next <|
    if s.start.stage = 0 then s
    else if !s.scopeOpen 2 then s.jtag .extest none
    else
      let t := s.freshBytes drive.length
      ({ t.2 with out := { t.2.out with scan := drive } } : State).jtag .extest (some t.1)

/-- The scope that opens a read (R674); the key slots of crown memory open to none. -/
def knaquelScope : Knaquel → Option Nat
  | .trace => some 0
  | .keySlots => none
  | .pipeline | .contexts => some 1

/-- KNAQUEL_PRIVATE_INSTRUCTION (R667, R674): without its scope nothing is shown; the cipher and digest contexts read as
zero, and what the trace, the crowns' registers and the pipeline hold is free. -/
def execKnaquelPrivateInstruction (what : Knaquel) (s : State) : Host.Outcome State Fault Refusal :=
  .next <|
    if s.start.stage = 0 then s
    else if !((knaquelScope what).any s.scopeOpen) then s.jtag .own none
    else if what = .contexts then s.jtag .own (some (zeros 64))
    else
      let t := s.freshBytes 64
      t.2.jtag .own (some t.1)

end Sys2Proof.Machine
end

