-- ==== Sys2Proof/Machine/Moves.lean ====
section
/-!
DEFINITION. The moves of the applet engines (R567 to R581). Every move goes through one operation, which
checks that the engine is at that move, takes its cost from the budget and acts on what the move answers.
-/

namespace Sys2Proof.Machine

/-! Registers and scratch. -/

/-- Register `S`n. -/
def Engine.reg (x : Engine) (n : Fin 16) : BitVec 64 := tget 0 x.regs n
/-- Register `S`n written. -/
def Engine.setReg (x : Engine) (n : Fin 16) (v : BitVec 64) : Engine := { x with regs := tset 0 x.regs n v }
/-- `n` bytes of scratch from offset `a`. -/
def Engine.bytes (x : Engine) (a n : Nat) : Bytes := Mem.readN x.scratch a n
/-- A byte string written to scratch. -/
def Engine.put (x : Engine) (a : Nat) (b : Bytes) : Engine := { x with scratch := Mem.writeN x.scratch a b }

/-- A range lies wholly in scratch (R576); an empty one always does. -/
def inScratch (a n : Nat) : Bool := n == 0 || decide (a + n ≤ 16384)

/-- `IMM` extended with its sign. -/
def sext (i : Word32) : BitVec 64 := i.signExtend 64
/-- `IMM` extended with zeros. -/
def zext (i : Word32) : BitVec 64 := i.setWidth 64
/-- The scratch offset `IMM[15:0]`. -/
def immOff (i : Word32) : Nat := i.toNat % 65536
/-- The key selection `IMM[19:16]`. -/
def immKey (i : Word32) : Nat := bitsOf i.toNat 19 16

/-! What a move answers. -/

/-- The answer of a move: the engine goes on, at the next move or at another; a fault, with its code; an
ending `ret` with verdict, output offset and length. -/
inductive MoveRes
  | go (s : State) (x : Engine)
  | jump (s : State) (x : Engine) (dst : Nat)
  | bad (s : State) (code : Byte)
  | ret (verdict : Byte) (a n : Nat)

/-- The units of a move, from its code and the length it works on (R571). -/
def moveCost (m : MoveFields) (x : Engine) : Nat :=
  let n := (x.reg m.b).toNat
  match m.op with
  | 0x2C => 8 + ceilDiv m.imm.toNat 8
  | 0x40 => 64 + ceilDiv n 16
  | 0x41 | 0x42 | 0x43 | 0x44 | 0x48 => 32 + ceilDiv n 16
  | 0x50 => 8
  | _ => 1

/-- The engine at its next move; an invocation that runs past its last one faults (R581). One that an alarm of the move
has ended goes no further (R588). -/
def State.movedTo (s : State) (e : Nat) (x : Engine) (v : Invocation) (dst units : Nat) : State :=
  if (s.eng e).inv.isNone then s
  else if dst < (s.app v.slot).moves.length then s.setEng e { x with pc := dst, units := units }
  else (s.faultRun e x 0x0D 0).onward

/-- One move of engine `e` (R569, R581): only the move that the engine has reached is executed. -/
def State.runMove (s : State) (e : Nat) (i : Instr) (act : State → Engine → Invocation → MoveRes) : State :=
  let x := s.eng e
  match x.inv, moveFields i with
  | some v, some m =>
    if x.rets.isSome ∨ (s.app v.slot).moves[x.pc]? ≠ some (packMove m) then s
    else
      let cost := moveCost m x
      if v.budget < x.units + cost then (s.faultRun e x 0x10 0).onward
      else match act s x v with
        | .go t y => t.movedTo e y v (x.pc + 1) (x.units + cost)
        | .jump t y dst => t.movedTo e y v dst (x.units + cost)
        | .bad t code => (t.faultRun e x code 0).onward
        | .ret verdict a n =>
          if verdict ≠ 0 then (s.faultRun e x 0x01 verdict).onward
          else (s.acceptRun e { x with units := x.units + cost } a n).onward
  | _, _ => s

/-- A move that only writes a register. -/
def State.aluMove (s : State) (e : Nat) (i : Instr) (d : Fin 16) (f : Engine → BitVec 64) : State :=
  s.runMove e i fun t x _ => .go t (x.setReg d (f x))

/-- A division by register `b` (R571). -/
def State.divMove (s : State) (e : Nat) (i : Instr) (d a b : Fin 16) (f : BitVec 64 → BitVec 64 → BitVec 64) : State :=
  s.runMove e i fun t x _ => if x.reg b = 0 then .bad t 0x03 else .go t (x.setReg d (f (x.reg a) (x.reg b)))

/-! Keys of engine moves (R557, R559, R572, R574). -/

/-- The key that a move uses and the state with its charge of `n` bytes, or the fault code. -/
def moveKey (s : State) (x : Engine) (v : Invocation) (k n : Nat) (gcms : Bool) : Except Byte (Bytes × State) :=
  if 8 ≤ k then
    match tget none x.keys (k - 8) with
    | some b => .ok (b, s)
    | none => .error 0x08
  else match (s.app v.slot).caps.getD k none with
    | none => .error 0x05
    | some h =>
      let i := handleIndex h.toNat
      if gcms && hasAttr (s.slot i) 8 then .error 0x07
      else if (s.slot i).mayCharge 1 (blocksOf n) then
        .ok (s.material i, s.modSlot i fun y => y.charge 1 (blocksOf n))
      else .error 0x06

/-- An engine move on the range of registers `a` and `b` with a key: ranges are checked first, then `pre`,
then the key is charged. -/
def keyMove (s : State) (x : Engine) (v : Invocation) (a b : Fin 16) (imm : Word32) (ok : Nat → Nat → Bool)
    (pre : Nat → Nat → Option Byte) (gcms : Bool) (act : Bytes → Nat → Nat → State → MoveRes) : MoveRes :=
  let p := (x.reg a).toNat
  let n := (x.reg b).toNat
  if !inScratch p n || !ok p n then .bad s 0x02
  else match pre p n with
    | some c => .bad s c
    | none =>
      match moveKey s x v (immKey imm) n gcms with
      | .error c => .bad s c
      | .ok (key, t) => act key p n t

/-- The SP 800-108 counter-mode KDF with AES-CMAC, 256 bits (R572). -/
def kdfCmac (key range : Bytes) : Bytes :=
  ((List.range 2).map fun k => cmac key (beBytes 4 (k + 1) ++ range ++ beBytes 4 256)).flatten

/-- A verdict word as a register and its alarm (R575). -/
def verdictReg (s : State) (w : BitVec 16) : BitVec 64 × State :=
  (if w = 0x3CC3 then 0x3CC3 else 0xC33C, s.verdict w)

/-! Fields (R578). -/

/-- The field of code `c`; none where the kind of invocation does not have it. -/
def moveField (s : State) (v : Invocation) (c : Nat) : Option Nat :=
  match v.kind, c with
  | .invoke _ _, 0 => some 0
  | .hook _ _, 0 => some 1
  | _, 1 => some v.fn
  | _, 2 => some v.ring
  | _, 3 => some v.declLen
  | .invoke _ _, 4 => some v.arg.toNat
  | _, 5 => some s.rtc
  | .invoke _ _, _ => none
  | .hook f id, _ =>
    match s.msg f id with
    | none => none
    | some m =>
      match m.kind, s.descOf m.ring m.seq with
      | .capture h, some d =>
        let y := s.ventry h.endpoint
        if c = 0x10 then some h.endpoint
        else if c = 0x11 then some h.sequence
        else if c = 0x12 then some (leField h.header 5 1)
        else if c = 0x13 then some (capB d)
        else if c = 0x14 then some (d.fld 22 1)
        else if c = 0x15 then some (d.fld 23 1)
        else if c = 0x16 then some (if d.tokenValid then 1 else 0)
        else if 0x18 ≤ c ∧ c ≤ 0x1F then some (sectionLen h.header (c - 0x18))
        else if c = 0x20 then some (leField h.header 20 8)
        else if c = 0x21 then some (leField h.header 28 4)
        else if c = 0x28 then some y.keyGen
        else if c = 0x29 then some y.recCount
        else if 0x30 ≤ c ∧ c ≤ 0x37 then some (leField y.appletData (8 * (c - 0x30)) 8)
        else none
      | _, _ => none

/-- ADD (R571). -/
def execMoveAdd (e : Fin 4) (d a b : Fin 16) (s : State) : Host.Outcome State Fault Refusal :=
  .next (s.aluMove e (.moveAdd e d a b) d fun x => x.reg a + x.reg b)

/-- SUB (R571). -/
def execMoveSub (e : Fin 4) (d a b : Fin 16) (s : State) : Host.Outcome State Fault Refusal :=
  .next (s.aluMove e (.moveSub e d a b) d fun x => x.reg a - x.reg b)

/-- MUL (R571). -/
def execMoveMul (e : Fin 4) (d a b : Fin 16) (s : State) : Host.Outcome State Fault Refusal :=
  .next (s.aluMove e (.moveMul e d a b) d fun x => x.reg a * x.reg b)

/-- DIVU (R571). -/
def execMoveDivu (e : Fin 4) (d a b : Fin 16) (s : State) : Host.Outcome State Fault Refusal :=
  .next (s.divMove e (.moveDivu e d a b) d a b fun p q => p.udiv q)

/-- REMU (R571). -/
def execMoveRemu (e : Fin 4) (d a b : Fin 16) (s : State) : Host.Outcome State Fault Refusal :=
  .next (s.divMove e (.moveRemu e d a b) d a b fun p q => p.umod q)

/-- AND (R571). -/
def execMoveAnd (e : Fin 4) (d a b : Fin 16) (s : State) : Host.Outcome State Fault Refusal :=
  .next (s.aluMove e (.moveAnd e d a b) d fun x => x.reg a &&& x.reg b)

/-- OR (R571). -/
def execMoveOr (e : Fin 4) (d a b : Fin 16) (s : State) : Host.Outcome State Fault Refusal :=
  .next (s.aluMove e (.moveOr e d a b) d fun x => x.reg a ||| x.reg b)

/-- XOR (R571). -/
def execMoveXor (e : Fin 4) (d a b : Fin 16) (s : State) : Host.Outcome State Fault Refusal :=
  .next (s.aluMove e (.moveXor e d a b) d fun x => x.reg a ^^^ x.reg b)

/-- SHL (R571). -/
def execMoveShl (e : Fin 4) (d a b : Fin 16) (s : State) : Host.Outcome State Fault Refusal :=
  .next (s.aluMove e (.moveShl e d a b) d fun x => x.reg a <<< ((x.reg b).toNat % 64))

/-- SHR (R571). -/
def execMoveShr (e : Fin 4) (d a b : Fin 16) (s : State) : Host.Outcome State Fault Refusal :=
  .next (s.aluMove e (.moveShr e d a b) d fun x => x.reg a >>> ((x.reg b).toNat % 64))

/-- ADDI (R571). -/
def execMoveAddi (e : Fin 4) (d a : Fin 16) (imm : Word32) (s : State) : Host.Outcome State Fault Refusal :=
  .next (s.aluMove e (.moveAddi e d a imm) d fun x => x.reg a + sext imm)

/-- LDI (R571). -/
def execMoveLdi (e : Fin 4) (d : Fin 16) (imm : Word32) (s : State) : Host.Outcome State Fault Refusal :=
  .next (s.aluMove e (.moveLdi e d imm) d fun _ => zext imm)

/-- LDIH (R571): the low half of the register is kept. -/
def execMoveLdih (e : Fin 4) (d : Fin 16) (imm : Word32) (s : State) : Host.Outcome State Fault Refusal :=
  .next (s.aluMove e (.moveLdih e d imm) d fun x => ((x.reg d).setWidth 32).setWidth 64 + (zext imm <<< 32))

/-- ANDI (R571). -/
def execMoveAndi (e : Fin 4) (d a : Fin 16) (imm : Word32) (s : State) : Host.Outcome State Fault Refusal :=
  .next (s.aluMove e (.moveAndi e d a imm) d fun x => x.reg a &&& zext imm)

/-- SHLI (R571). -/
def execMoveShli (e : Fin 4) (d a : Fin 16) (imm : Word32) (s : State) : Host.Outcome State Fault Refusal :=
  .next (s.aluMove e (.moveShli e d a imm) d fun x => x.reg a <<< (imm.toNat % 64))

/-- SHRI (R571). -/
def execMoveShri (e : Fin 4) (d a : Fin 16) (imm : Word32) (s : State) : Host.Outcome State Fault Refusal :=
  .next (s.aluMove e (.moveShri e d a imm) d fun x => x.reg a >>> (imm.toNat % 64))

/-- CMPEQ (R571). -/
def execMoveCmpeq (e : Fin 4) (d a b : Fin 16) (s : State) : Host.Outcome State Fault Refusal :=
  .next (s.aluMove e (.moveCmpeq e d a b) d fun x => if x.reg a = x.reg b then 1 else 0)

/-- CMPLTU (R571). -/
def execMoveCmpltu (e : Fin 4) (d a b : Fin 16) (s : State) : Host.Outcome State Fault Refusal :=
  .next (s.aluMove e (.moveCmpltu e d a b) d fun x => if x.reg a < x.reg b then 1 else 0)

/-- BEQZ (R571). -/
def execMoveBeqz (e : Fin 4) (a : Fin 16) (imm : Word32) (s : State) : Host.Outcome State Fault Refusal :=
  .next (s.runMove e (.moveBeqz e a imm) fun t x _ => if x.reg a = 0 then .jump t x imm.toNat else .go t x)

/-- BNEZ (R571). -/
def execMoveBnez (e : Fin 4) (a : Fin 16) (imm : Word32) (s : State) : Host.Outcome State Fault Refusal :=
  .next (s.runMove e (.moveBnez e a imm) fun t x _ => if x.reg a ≠ 0 then .jump t x imm.toNat else .go t x)

/-- JMP (R571). -/
def execMoveJmp (e : Fin 4) (imm : Word32) (s : State) : Host.Outcome State Fault Refusal :=
  .next (s.runMove e (.moveJmp e imm) fun t x _ => .jump t x imm.toNat)

/-- MEMCMP (R571, R575). -/
def execMoveMemcmp (e : Fin 4) (d a b : Fin 16) (imm : Word32) (raw : Option (BitVec 16)) (s : State) : Host.Outcome State Fault Refusal :=
  .next (s.runMove e (.moveMemcmp e d a b imm raw) fun t x _ =>
    let p := (x.reg a).toNat
    let q := (x.reg b).toNat
    let m := imm.toNat
    if !inScratch p m || !inScratch q m then .bad t 0x02
    else
      let r := verdictReg t (raw.getD (verdictWord (x.bytes p m) (x.bytes q m)))
      .go r.2 (x.setReg d r.1))

/-- LD (R571, R576). -/
def execMoveLd (e : Fin 4) (d a : Fin 16) (c : Fin 4) (imm : Word32) (s : State) : Host.Outcome State Fault Refusal :=
  .next (s.runMove e (.moveLd e d a c imm) fun t x _ =>
    let p := (x.reg a + sext imm).toNat
    let n := 2 ^ c.val
    if !inScratch p n then .bad t 0x02
    else .go t (x.setReg d (BitVec.ofNat 64 (leNat (x.bytes p n)))))

/-- ST (R571, R576). -/
def execMoveSt (e : Fin 4) (a b : Fin 16) (c : Fin 4) (imm : Word32) (s : State) : Host.Outcome State Fault Refusal :=
  .next (s.runMove e (.moveSt e a b c imm) fun t x _ =>
    let p := (x.reg a + sext imm).toNat
    let n := 2 ^ c.val
    if !inScratch p n then .bad t 0x02 else .go t (x.put p (leBytes n (x.reg b).toNat)))

/-- FLD (R578). -/
def execMoveFld (e : Fin 4) (d : Fin 16) (imm : Word32) (s : State) : Host.Outcome State Fault Refusal :=
  .next (s.runMove e (.moveFld e d imm) fun t x v =>
    match moveField t v imm.toNat with
    | some y => .go t (x.setReg d (BitVec.ofNat 64 y))
    | none => .bad t 0x04)

/-- KDF (R572). -/
def execMoveKdf (e : Fin 4) (a b : Fin 16) (c : Fin 4) (imm : Word32) (s : State) : Host.Outcome State Fault Refusal :=
  .next (s.runMove e (.moveKdf e a b c imm) fun t x v =>
    keyMove t x v a b imm (fun _ _ => true) (fun _ _ => none) false fun key p n u =>
      .go u { x with keys := tset none x.keys c (some (kdfCmac key (x.bytes p n))) })

/-- CTR (R573): the range is transformed in place, then the next counter block is written back. -/
def execMoveCtr (e : Fin 4) (d a b : Fin 16) (imm : Word32) (s : State) : Host.Outcome State Fault Refusal :=
  .next (s.runMove e (.moveCtr e d a b imm) fun t x v =>
    let o := immOff imm
    let blk := x.bytes o 16
    keyMove t x v a b imm (fun _ _ => inScratch o 16)
      (fun _ n => if 2 ^ 32 < beNat (blk.drop 12) + blocksOf n then some 0x09 else none) false fun key p n u =>
        .go u (((x.put p (ctrX key blk 32 0 (x.bytes p n))).put o (ctrAdd blk 32 (blocksOf n))).setReg d
          (BitVec.ofNat 64 n)))

/-- CMAC (R571). -/
def execMoveCmac (e : Fin 4) (d a b : Fin 16) (imm : Word32) (s : State) : Host.Outcome State Fault Refusal :=
  .next (s.runMove e (.moveCmac e d a b imm) fun t x v =>
    let o := immOff imm
    keyMove t x v a b imm (fun _ _ => inScratch o 16) (fun _ _ => none) false fun key p n u =>
      .go u ((x.put o (cmac key (x.bytes p n))).setReg d 16))

/-- GCMS (R571, R573). -/
def execMoveGcms (e : Fin 4) (d a b : Fin 16) (imm : Word32) (s : State) : Host.Outcome State Fault Refusal :=
  .next (s.runMove e (.moveGcms e d a b imm) fun t x v =>
    let o := immOff imm
    keyMove t x v a b imm (fun p n => inScratch o 12 && decide (n ≤ 16368) && inScratch p (n + 16))
      (fun _ _ => none) true fun key p n u =>
        let iv := x.bytes o 12
        let ct := gcmX key iv 0 (x.bytes p n)
        .go u ((x.put p (ct ++ gcmTag key iv [] ct)).setReg d (BitVec.ofNat 64 (n + 16))))

/-- GCMO (R571, R573, R575): a range of fewer than 16 bytes holds no tag and faults. -/
def execMoveGcmo (e : Fin 4) (d a b : Fin 16) (imm : Word32) (raw : Option (BitVec 16)) (s : State) : Host.Outcome State Fault Refusal :=
  .next (s.runMove e (.moveGcmo e d a b imm raw) fun t x v =>
    let o := immOff imm
    keyMove t x v a b imm (fun _ n => inScratch o 12 && decide (16 ≤ n)) (fun _ _ => none) false fun key p n u =>
      let iv := x.bytes o 12
      let ct := x.bytes p (n - 16)
      let w := raw.getD (verdictWord (gcmTag key iv [] ct) (x.bytes (p + (n - 16)) 16))
      let r := verdictReg u w
      .go r.2 ((x.put p (if w = 0x3CC3 then gcmX key iv 0 ct else zeros (n - 16))).setReg d r.1))

/-- HASH (R571). -/
def execMoveHash (e : Fin 4) (d a b : Fin 16) (imm : Word32) (s : State) : Host.Outcome State Fault Refusal :=
  .next (s.runMove e (.moveHash e d a b imm) fun t x _ =>
    let p := (x.reg a).toNat
    let n := (x.reg b).toNat
    let alg := bitsOf imm.toNat 27 20
    let o := immOff imm
    if !inScratch p n || !inScratch o (digestLen alg) then .bad t 0x02
    else .go t ((x.put o (digest alg (x.bytes p n))).setReg d (BitVec.ofNat 64 (digestLen alg))))

/-- HMX (R579, R580): the extend is deferred and holds a pending mark. -/
def execMoveHmx (e : Fin 4) (a : Fin 16) (imm : Word32) (s : State) : Host.Outcome State Fault Refusal :=
  .next (s.runMove e (.moveHmx e a imm) fun t x v =>
    let p := (x.reg a).toNat
    let h := imm.toNat % 64
    let seq : Nat := match v.kind with
      | .invoke _ q => q
      | .hook f id => ((t.msg f id).map (·.seq)).getD 0
    if 4 ≤ x.extends_.length then .bad t 0x0B
    else if !inScratch p 48 then .bad t 0x02
    else match t.extendCheck h v.fn false with
      | some _ => .bad t 0x0A
      | none => .go (t.mark h seq) { x with extends_ := x.extends_ ++ [⟨h, x.bytes p 48, t.nextMark⟩] })

/-- NOTE (R579, R587). -/
def execMoveNote (e : Fin 4) (a : Fin 16) (s : State) : Host.Outcome State Fault Refusal :=
  .next (s.runMove e (.moveNote e a) fun t x v =>
    match v.kind with
    | .hook _ _ => .go t { x with note := some (x.reg a) }
    | .invoke _ _ => .bad t 0x04)

/-- RET (R581, R582, R587). -/
def execMoveRet (e : Fin 4) (a b : Fin 16) (imm : Word32) (s : State) : Host.Outcome State Fault Refusal :=
  .next (s.runMove e (.moveRet e a b imm) fun t x v =>
    let p := (x.reg a).toNat
    let n := (x.reg b).toNat
    let verdict := BitVec.ofNat 8 imm.toNat
    match v.kind with
    | .hook _ _ => .ret verdict 0 0
    | .invoke r q =>
      let room := match (t.ring r).find q with
        | some w => extsLen (w.got.getD ([], [], [])).2.1
        | none => 0
      if verdict ≠ 0 then .ret verdict 0 0
      else if !inScratch p n then .bad t 0x02
      else if room < n then .bad t 0x0C
      else .ret 0 p n)

end Sys2Proof.Machine
end

