-- ==== Sys2Proof/Machine/Dispatch.lean ====
section
/-!
DEFINITION. The meaning of every command: one arm per row of the command table.
-/

namespace Sys2Proof.Machine

def exec (i : Instr) (s : State) : Host.Outcome State Fault Refusal :=
  match i with
  | .nop p => Sys2Proof.Machine.execNop p s
  | .fence p => Sys2Proof.Machine.execFence p s
  | .aesEcb p => Sys2Proof.Machine.execAesEcb p s
  | .aesCbc p => Sys2Proof.Machine.execAesCbc p s
  | .aesCtr p => Sys2Proof.Machine.execAesCtr p s
  | .aesGcm p => Sys2Proof.Machine.execAesGcm p s
  | .aesXts p => Sys2Proof.Machine.execAesXts p s
  | .aesCmac p => Sys2Proof.Machine.execAesCmac p s
  | .aesKw p => Sys2Proof.Machine.execAesKw p s
  | .cipherDrop p => Sys2Proof.Machine.execCipherDrop p s
  | .digest p => Sys2Proof.Machine.execDigest p s
  | .digOpen p => Sys2Proof.Machine.execDigOpen p s
  | .digUpdate p => Sys2Proof.Machine.execDigUpdate p s
  | .digFinal p => Sys2Proof.Machine.execDigFinal p s
  | .digRead p => Sys2Proof.Machine.execDigRead p s
  | .digCompare p => Sys2Proof.Machine.execDigCompare p s
  | .digRelease p => Sys2Proof.Machine.execDigRelease p s
  | .digFlush p => Sys2Proof.Machine.execDigFlush p s
  | .hmExtend p => Sys2Proof.Machine.execHmExtend p s
  | .hmRead p => Sys2Proof.Machine.execHmRead p s
  | .hmReset p => Sys2Proof.Machine.execHmReset p s
  | .hmLock p => Sys2Proof.Machine.execHmLock p s
  | .hmSetup p => Sys2Proof.Machine.execHmSetup p s
  | .hallmarkExtendApplied => Sys2Proof.Machine.execHallmarkExtendApplied s
  | .sigSign p => Sys2Proof.Machine.execSigSign p s
  | .sigVerify p => Sys2Proof.Machine.execSigVerify p s
  | .randomDraw p => Sys2Proof.Machine.execRandomDraw p s
  | .sigQuote p => Sys2Proof.Machine.execSigQuote p s
  | .engineStart n env => Sys2Proof.Machine.execEngineStart n env s
  | .engineOpDone n env signCheckFails => Sys2Proof.Machine.execEngineOpDone n env signCheckFails s
  | .reseedWaitTimeout inst => Sys2Proof.Machine.execReseedWaitTimeout inst s
  | .entropyHealthFail proportion => Sys2Proof.Machine.execEntropyHealthFail proportion s
  | .entropySettleEnd => Sys2Proof.Machine.execEntropySettleEnd s
  | .startupTestDone rctFails aptFails => Sys2Proof.Machine.execStartupTestDone rctFails aptFails s
  | .conditionedBlock => Sys2Proof.Machine.execConditionedBlock s
  | .entCtlRestart fn => Sys2Proof.Machine.execEntCtlRestart fn s
  | .entStim fn => Sys2Proof.Machine.execEntStim fn s
  | .rawTapRead fn => Sys2Proof.Machine.execRawTapRead fn s
  | .vaultFormat p => Sys2Proof.Machine.execVaultFormat p s
  | .vaultEnroll p => Sys2Proof.Machine.execVaultEnroll p s
  | .vaultRevoke p => Sys2Proof.Machine.execVaultRevoke p s
  | .vaultRekey p => Sys2Proof.Machine.execVaultRekey p s
  | .vaultArm p => Sys2Proof.Machine.execVaultArm p s
  | .vaultQuery p => Sys2Proof.Machine.execVaultQuery p s
  | .vaultCheckpoint p => Sys2Proof.Machine.execVaultCheckpoint p s
  | .vaultCommit p => Sys2Proof.Machine.execVaultCommit p s
  | .vaultImport p => Sys2Proof.Machine.execVaultImport p s
  | .vaultMoveOpen p => Sys2Proof.Machine.execVaultMoveOpen p s
  | .foldPass env => Sys2Proof.Machine.execFoldPass env s
  | .armBatchClose => Sys2Proof.Machine.execArmBatchClose s
  | .armComplete => Sys2Proof.Machine.execArmComplete s
  | .bitmapSetClear => Sys2Proof.Machine.execBitmapSetClear s
  | .pipEntryRebuild endpoint lineOk => Sys2Proof.Machine.execPipEntryRebuild endpoint lineOk s
  | .vaultKeyFetchDone f id lineOk => Sys2Proof.Machine.execVaultKeyFetchDone f id lineOk s
  | .vaultCtlFlush fn => Sys2Proof.Machine.execVaultCtlFlush fn s
  | .vaultCtlStim fn => Sys2Proof.Machine.execVaultCtlStim fn s
  | .pipPeek endpoint seq rtag pins => Sys2Proof.Machine.execPipPeek endpoint seq rtag pins s
  | .pipClaim endpoint seq rtag pins => Sys2Proof.Machine.execPipClaim endpoint seq rtag pins s
  | .pipArm endpoint seq rtag pins => Sys2Proof.Machine.execPipArm endpoint seq rtag pins s
  | .pipIdleCycle strobeLater => Sys2Proof.Machine.execPipIdleCycle strobeLater s
  | .pipAnswerCutoff req pins tookEffect => Sys2Proof.Machine.execPipAnswerCutoff req pins tookEffect s
  | .qclkLock locked => Sys2Proof.Machine.execQclkLock locked s
  | .pipReframe fn => Sys2Proof.Machine.execPipReframe fn s
  | .clrFault fn => Sys2Proof.Machine.execClrFault fn s
  | .capture p => Sys2Proof.Machine.execCapture p s
  | .strandSetup p => Sys2Proof.Machine.execStrandSetup p s
  | .strandCollect p => Sys2Proof.Machine.execStrandCollect p s
  | .strandClose p => Sys2Proof.Machine.execStrandClose p s
  | .strandTimeLimit stream => Sys2Proof.Machine.execStrandTimeLimit stream s
  | .strandSignRetry stream id ml => Sys2Proof.Machine.execStrandSignRetry stream id ml s
  | .appletInvoke p => Sys2Proof.Machine.execAppletInvoke p s
  | .appletInstall p => Sys2Proof.Machine.execAppletInstall p s
  | .appletRemove p => Sys2Proof.Machine.execAppletRemove p s
  | .appletSigner p => Sys2Proof.Machine.execAppletSigner p s
  | .moveEngineTake env => Sys2Proof.Machine.execMoveEngineTake env s
  | .moveAdd e d a b => Sys2Proof.Machine.execMoveAdd e d a b s
  | .moveSub e d a b => Sys2Proof.Machine.execMoveSub e d a b s
  | .moveMul e d a b => Sys2Proof.Machine.execMoveMul e d a b s
  | .moveDivu e d a b => Sys2Proof.Machine.execMoveDivu e d a b s
  | .moveRemu e d a b => Sys2Proof.Machine.execMoveRemu e d a b s
  | .moveAnd e d a b => Sys2Proof.Machine.execMoveAnd e d a b s
  | .moveOr e d a b => Sys2Proof.Machine.execMoveOr e d a b s
  | .moveXor e d a b => Sys2Proof.Machine.execMoveXor e d a b s
  | .moveShl e d a b => Sys2Proof.Machine.execMoveShl e d a b s
  | .moveShr e d a b => Sys2Proof.Machine.execMoveShr e d a b s
  | .moveAddi e d a imm => Sys2Proof.Machine.execMoveAddi e d a imm s
  | .moveLdi e d imm => Sys2Proof.Machine.execMoveLdi e d imm s
  | .moveLdih e d imm => Sys2Proof.Machine.execMoveLdih e d imm s
  | .moveAndi e d a imm => Sys2Proof.Machine.execMoveAndi e d a imm s
  | .moveShli e d a imm => Sys2Proof.Machine.execMoveShli e d a imm s
  | .moveShri e d a imm => Sys2Proof.Machine.execMoveShri e d a imm s
  | .moveCmpeq e d a b => Sys2Proof.Machine.execMoveCmpeq e d a b s
  | .moveCmpltu e d a b => Sys2Proof.Machine.execMoveCmpltu e d a b s
  | .moveBeqz e a imm => Sys2Proof.Machine.execMoveBeqz e a imm s
  | .moveBnez e a imm => Sys2Proof.Machine.execMoveBnez e a imm s
  | .moveJmp e imm => Sys2Proof.Machine.execMoveJmp e imm s
  | .moveMemcmp e d a b imm raw => Sys2Proof.Machine.execMoveMemcmp e d a b imm raw s
  | .moveLd e d a c imm => Sys2Proof.Machine.execMoveLd e d a c imm s
  | .moveSt e a b c imm => Sys2Proof.Machine.execMoveSt e a b c imm s
  | .moveFld e d imm => Sys2Proof.Machine.execMoveFld e d imm s
  | .moveKdf e a b c imm => Sys2Proof.Machine.execMoveKdf e a b c imm s
  | .moveCtr e d a b imm => Sys2Proof.Machine.execMoveCtr e d a b imm s
  | .moveCmac e d a b imm => Sys2Proof.Machine.execMoveCmac e d a b imm s
  | .moveGcms e d a b imm => Sys2Proof.Machine.execMoveGcms e d a b imm s
  | .moveGcmo e d a b imm raw => Sys2Proof.Machine.execMoveGcmo e d a b imm raw s
  | .moveHash e d a b imm => Sys2Proof.Machine.execMoveHash e d a b imm s
  | .moveHmx e a imm => Sys2Proof.Machine.execMoveHmx e a imm s
  | .moveNote e a => Sys2Proof.Machine.execMoveNote e a s
  | .moveRet e a b imm => Sys2Proof.Machine.execMoveRet e a b imm s
  | .keyGenerate p => Sys2Proof.Machine.execKeyGenerate p s
  | .keyImport p => Sys2Proof.Machine.execKeyImport p s
  | .keyExport p => Sys2Proof.Machine.execKeyExport p s
  | .keyDestroy p => Sys2Proof.Machine.execKeyDestroy p s
  | .keyRelease p => Sys2Proof.Machine.execKeyRelease p s
  | .keyLimit p => Sys2Proof.Machine.execKeyLimit p s
  | .keyLoad p => Sys2Proof.Machine.execKeyLoad p s
  | .keyPublic p => Sys2Proof.Machine.execKeyPublic p s
  | .keyDecapsulate p => Sys2Proof.Machine.execKeyDecapsulate p s
  | .keyScrub p => Sys2Proof.Machine.execKeyScrub p s
  | .keyPurge p => Sys2Proof.Machine.execKeyPurge p s
  | .cerBegin p => Sys2Proof.Machine.execCerBegin p s
  | .cerShare p => Sys2Proof.Machine.execCerShare p s
  | .cerFinish p => Sys2Proof.Machine.execCerFinish p s
  | .cerCancel p => Sys2Proof.Machine.execCerCancel p s
  | .ceremonyTimeout => Sys2Proof.Machine.execCeremonyTimeout s
  | .snapshot p => Sys2Proof.Machine.execSnapshot p s
  | .snpTrigger fn => Sys2Proof.Machine.execSnpTrigger fn s
  | .clrViol fn => Sys2Proof.Machine.execClrViol fn s
  | .snapshotMarker unit channel env => Sys2Proof.Machine.execSnapshotMarker unit channel env s
  | .snapshotAckTimeout env => Sys2Proof.Machine.execSnapshotAckTimeout env s
  | .sdInfo p => Sys2Proof.Machine.execSdInfo p s
  | .bundleWrite p => Sys2Proof.Machine.execBundleWrite p s
  | .bundleImport p => Sys2Proof.Machine.execBundleImport p s
  | .ccInfo p => Sys2Proof.Machine.execCcInfo p s
  | .ccClear p => Sys2Proof.Machine.execCcClear p s
  | .sdCardDetect present wp => Sys2Proof.Machine.execSdCardDetect present wp s
  | .ccCardDetect present => Sys2Proof.Machine.execCcCardDetect present s
  | .sdBusyTimeout => Sys2Proof.Machine.execSdBusyTimeout s
  | .ccDeact fn => Sys2Proof.Machine.execCcDeact fn s
  | .sdOff fn => Sys2Proof.Machine.execSdOff fn s
  | .lcsTransition p => Sys2Proof.Machine.execLcsTransition p s
  | .lcsCancel p => Sys2Proof.Machine.execLcsCancel p s
  | .lcsDebugKey p => Sys2Proof.Machine.execLcsDebugKey p s
  | .lcsDebugNonce p => Sys2Proof.Machine.execLcsDebugNonce p s
  | .lcsDebugGrant p => Sys2Proof.Machine.execLcsDebugGrant p s
  | .lcsDebugRevoke p => Sys2Proof.Machine.execLcsDebugRevoke p s
  | .debugGrantExpire => Sys2Proof.Machine.execDebugGrantExpire s
  | .provIdkey p => Sys2Proof.Machine.execProvIdkey p s
  | .provCert p => Sys2Proof.Machine.execProvCert p s
  | .provPatch p => Sys2Proof.Machine.execProvPatch p s
  | .crownSwap p => Sys2Proof.Machine.execCrownSwap p s
  | .crownRejoin p => Sys2Proof.Machine.execCrownRejoin p s
  | .nvmRead p => Sys2Proof.Machine.execNvmRead p s
  | .nvmWrite p => Sys2Proof.Machine.execNvmWrite p s
  | .nvmScan p => Sys2Proof.Machine.execNvmScan p s
  | .nvmPageWriteDone retries failed => Sys2Proof.Machine.execNvmPageWriteDone retries failed s
  | .recallDone us weak => Sys2Proof.Machine.execRecallDone us weak s
  | .holdupTrip bursts held => Sys2Proof.Machine.execHoldupTrip bursts held s
  | .doorbellPoll f => Sys2Proof.Machine.execDoorbellPoll f s
  | .pollComplete f env => Sys2Proof.Machine.execPollComplete f env s
  | .descriptorFetch ring => Sys2Proof.Machine.execDescriptorFetch ring s
  | .fetchComplete ring env => Sys2Proof.Machine.execFetchComplete ring env s
  | .dispatch => Sys2Proof.Machine.execDispatch s
  | .hostReadComplete ring n env => Sys2Proof.Machine.execHostReadComplete ring n env s
  | .schedAgeExpiry target => Sys2Proof.Machine.execSchedAgeExpiry target s
  | .segmentEnd f lane env stageFails => Sys2Proof.Machine.execSegmentEnd f lane env stageFails s
  | .coalTimeExpiry ring => Sys2Proof.Machine.execCoalTimeExpiry ring s
  | .msixUnmask f vector => Sys2Proof.Machine.execMsixUnmask f vector s
  | .ringEn fn ring => Sys2Proof.Machine.execRingEn fn ring s
  | .ringStop fn ring => Sys2Proof.Machine.execRingStop fn ring s
  | .ringAbort fn ring => Sys2Proof.Machine.execRingAbort fn ring s
  | .ringReset fn ring => Sys2Proof.Machine.execRingReset fn ring s
  | .functionDisabled fn f => Sys2Proof.Machine.execFunctionDisabled fn f s
  | .flr f => Sys2Proof.Machine.execFlr f s
  | .pePerstN => Sys2Proof.Machine.execPePerstN s
  | .hotReset => Sys2Proof.Machine.execHotReset s
  | .dlDown => Sys2Proof.Machine.execDlDown s
  | .retrain rate width => Sys2Proof.Machine.execRetrain rate width s
  | .d3hot f enter => Sys2Proof.Machine.execD3hot f enter s
  | .ideFail stream => Sys2Proof.Machine.execIdeFail stream s
  | .doeDiscovery q index => Sys2Proof.Machine.execDoeDiscovery q index s
  | .doeAbort => Sys2Proof.Machine.execDoeAbort s
  | .getVersion q => Sys2Proof.Machine.execGetVersion q s
  | .getCapabilities q => Sys2Proof.Machine.execGetCapabilities q s
  | .negotiateAlgorithms q asym hash dhe aead schedule => Sys2Proof.Machine.execNegotiateAlgorithms q asym hash dhe aead schedule s
  | .getDigests q => Sys2Proof.Machine.execGetDigests q s
  | .getCertificate q slot offset length => Sys2Proof.Machine.execGetCertificate q slot offset length s
  | .challenge q slot nonce => Sys2Proof.Machine.execChallenge q slot nonce s
  | .getMeasurements q index nonce => Sys2Proof.Machine.execGetMeasurements q index nonce s
  | .keyExchange q slot peer => Sys2Proof.Machine.execKeyExchange q slot peer s
  | .finish q macOk => Sys2Proof.Machine.execFinish q macOk s
  | .heartbeat q => Sys2Proof.Machine.execHeartbeat q s
  | .keyUpdate q => Sys2Proof.Machine.execKeyUpdate q s
  | .endSession q => Sys2Proof.Machine.execEndSession q s
  | .ideQuery q stream => Sys2Proof.Machine.execIdeQuery q stream s
  | .keyProg q stream set sub key => Sys2Proof.Machine.execKeyProg q stream set sub key s
  | .kSetGo q stream set => Sys2Proof.Machine.execKSetGo q stream set s
  | .kSetStop q stream set => Sys2Proof.Machine.execKSetStop q stream set s
  | .crownHeartbeat => Sys2Proof.Machine.execCrownHeartbeat s
  | .heartbeatCheck => Sys2Proof.Machine.execHeartbeatCheck s
  | .takeover cause env => Sys2Proof.Machine.execTakeover cause env s
  | .crownFaultSignal integrity => Sys2Proof.Machine.execCrownFaultSignal integrity s
  | .seizeTimeout clasp => Sys2Proof.Machine.execSeizeTimeout clasp s
  | .crownLoss => Sys2Proof.Machine.execCrownLoss s
  | .claspOutput crownB clasp tie => Sys2Proof.Machine.execClaspOutput crownB clasp tie s
  | .healthReport => Sys2Proof.Machine.execHealthReport s
  | .standbyReportCheck => Sys2Proof.Machine.execStandbyReportCheck s
  | .selfTestLoopDone crownB fail => Sys2Proof.Machine.execSelfTestLoopDone crownB fail s
  | .rejoinAuto => Sys2Proof.Machine.execRejoinAuto s
  | .crnStim fn => Sys2Proof.Machine.execCrnStim fn s
  | .monitorEvent events => Sys2Proof.Machine.execMonitorEvent events s
  | .scrubClearDone => Sys2Proof.Machine.execScrubClearDone s
  | .zeroN => Sys2Proof.Machine.execZeroN s
  | .batterySample group shows reading => Sys2Proof.Machine.execBatterySample group shows reading s
  | .tmpStim fn m => Sys2Proof.Machine.execTmpStim fn m s
  | .tmpStimDone => Sys2Proof.Machine.execTmpStimDone s
  | .tmpLock fn => Sys2Proof.Machine.execTmpLock fn s
  | .logClear fn => Sys2Proof.Machine.execLogClear fn s
  | .monCfgWrite fn m value => Sys2Proof.Machine.execMonCfgWrite fn m value s
  | .vidStep up => Sys2Proof.Machine.execVidStep up s
  | .keeperPor => Sys2Proof.Machine.execKeeperPor s
  | .s2Entry r => Sys2Proof.Machine.execS2Entry r s
  | .pwrGoodFall kprHolds => Sys2Proof.Machine.execPwrGoodFall kprHolds s
  | .sysResetN => Sys2Proof.Machine.execSysResetN s
  | .resetWhole fn key => Sys2Proof.Machine.execResetWhole fn key s
  | .facetBistDone f pass ms => Sys2Proof.Machine.execFacetBistDone f pass ms s
  | .gddr6TrainingDone t => Sys2Proof.Machine.execGddr6TrainingDone t s
  | .lcsWipeDone => Sys2Proof.Machine.execLcsWipeDone s
  | .drkDrawRetry => Sys2Proof.Machine.execDrkDrawRetry s
  | .startRetry fn => Sys2Proof.Machine.execStartRetry fn s
  | .fctReset fn f => Sys2Proof.Machine.execFctReset fn f s
  | .fctFence fn f on => Sys2Proof.Machine.execFctFence fn f on s
  | .mtestGo fn => Sys2Proof.Machine.execMtestGo fn s
  | .mbistGo fn => Sys2Proof.Machine.execMbistGo fn s
  | .mbistDone fail => Sys2Proof.Machine.execMbistDone fail s
  | .clrCnt fn block => Sys2Proof.Machine.execClrCnt fn block s
  | .loRegisterRead fn addr => Sys2Proof.Machine.execLoRegisterRead fn addr s
  | .registerWrite fn addr value aligned => Sys2Proof.Machine.execRegisterWrite fn addr value aligned s
  | .healthRead => Sys2Proof.Machine.execHealthRead s
  | .mctpControl command data => Sys2Proof.Machine.execMctpControl command data s
  | .smbusTimeout => Sys2Proof.Machine.execSmbusTimeout s
  | .bypass => Sys2Proof.Machine.execBypass s
  | .idcode => Sys2Proof.Machine.execIdcode s
  | .samplePreload pins => Sys2Proof.Machine.execSamplePreload pins s
  | .extest drive => Sys2Proof.Machine.execExtest drive s
  | .pePerstNDeassert => Sys2Proof.Machine.execPePerstNDeassert s
  | .dlUp width rate flit => Sys2Proof.Machine.execDlUp width rate flit s
  | .vbatLoss => Sys2Proof.Machine.execVbatLoss s
  | .xtal32Stop => Sys2Proof.Machine.execXtal32Stop s
  | .entropyInstantiationLimit => Sys2Proof.Machine.execEntropyInstantiationLimit s
  | .sdBusyEnd => Sys2Proof.Machine.execSdBusyEnd s
  | .cardResponse resp => Sys2Proof.Machine.execCardResponse resp s
  | .ccVccCurrentLimit => Sys2Proof.Machine.execCcVccCurrentLimit s
  | .knaquelPrivateInstruction what => Sys2Proof.Machine.execKnaquelPrivateInstruction what s

end Sys2Proof.Machine
end

