-- ==== Sys2Proof/Safety.lean ====
section
/-!
DEFINITION. The terms in which claims are stated: what a safe state is, and what it means that a posted descriptor is
stored, found, fetched and dispatched at once, up to the state in which its unit begins.
-/

namespace Sys2Proof.Machine

/-- Host memory is in its canonical form. -/
def State.Safe (s : State) : Prop := Memory.wf s.hostMem = true

/-- The descriptor of a post as the ring engine holds it once fetched (R98, R105). -/
def State.newWork (s : State) (o : Op) (p : Post) : Work :=
  { seq := (s.polled o p).hif.nextSeq, desc := postDesc o p,
    cls := (s.polled o p).servedClass p.ring (postDesc o p), phase := .fetched }

/-- The poll that finds the post sees a P within the ring (R90). -/
def State.seesPost (s : State) (o : Op) (p : Post) : Bool :=
  decide ((((s.polled o p).seeP p.ring ((s.hostStores p.env).hostP p.ring + 1)).ring p.ring).st = .running)

/-- The post is fetched at once, and the ring engine dispatches it next (R93 to R99, R120). -/
def State.takesNow (s : State) (o : Op) (p : Post) : Bool :=
  decide (((s.hostStores p.env).ring p.ring).st ≠ .disabled) &&
    (s.hostStores p.env).fetchesNow p.ring && s.seesPost o p &&
    decide ((s.arrive o p).nextWork = some (p.ring.val, s.newWork o p))

/-- The post handed to its unit: its class's pointer moves past the ring (R120). -/
def State.handed (s : State) (o : Op) (p : Post) : State :=
  let a := s.arrive o p
  { a with hif := { a.hif with rr := tset 0 a.hif.rr (s.newWork o p).cls (rrNext 512 p.ring) } }

/-- Then, for crown work, its journal entry is made (R611). -/
def State.entered (s : State) (o : Op) (p : Post) : State :=
  if crownRuns o (postDesc o p) then
    (s.handed o p).crownTake p.ring (s.newWork o p).seq (postDesc o p) ([], [], [])
  else s.handed o p

/-- The state in which the unit begins step 8: what steps 6 and 7 read is kept by the journal entry. -/
def State.atUnit (s : State) (o : Op) (p : Post) (got : Got) : State :=
  let e := s.entered o p
  if e.crowns.journal.any fun j => j.ring == p.ring.val && j.seq == (s.newWork o p).seq then e.crownKeep got else e

/-- The same of a key descriptor, the decisions between copies of the records that it names counted (R698). -/
def State.atKeys (s : State) (o : Op) (p : Post) (got : Got) : State :=
  (s.atUnit o p got).noteTies (keyNames (postDesc o p))

/-- The post of operation `o` passes steps 1 to 7 at once, with `got` read: what is left is step 8 (R131). -/
structure State.Starts (s : State) (o : Op) (p : Post) (got : Got) : Prop where
  takes : s.takesNow o p = true
  check : (s.handed o p).check4 p.ring o (postDesc o p) = none
  body : (s.handed o p).bodyOk o (postDesc o p) = true
  /-- clasp 0 accepts the journal entry of crown work (R596, R597) -/
  entry : crownRuns o (postDesc o p) = true → ((s.handed o p).activeOutput 0).1 = true
  read : (s.entered o p).readOp p.env o (postDesc o p) = .ok got

/-! Moves by engine. -/

/-- The engine of a move command. -/
def moveEngine : Instr → Option (Fin 4)
  | .moveAdd e _ _ _ | .moveSub e _ _ _ | .moveMul e _ _ _ | .moveDivu e _ _ _ | .moveRemu e _ _ _ => some e
  | .moveAnd e _ _ _ | .moveOr e _ _ _ | .moveXor e _ _ _ | .moveShl e _ _ _ | .moveShr e _ _ _ => some e
  | .moveAddi e _ _ _ | .moveLdi e _ _ | .moveLdih e _ _ | .moveAndi e _ _ _ | .moveShli e _ _ _ => some e
  | .moveShri e _ _ _ | .moveCmpeq e _ _ _ | .moveCmpltu e _ _ _ | .moveBeqz e _ _ | .moveBnez e _ _ => some e
  | .moveJmp e _ | .moveMemcmp e _ _ _ _ _ | .moveLd e _ _ _ _ | .moveSt e _ _ _ _ | .moveFld e _ _ => some e
  | .moveKdf e _ _ _ _ | .moveCtr e _ _ _ _ | .moveCmac e _ _ _ _ | .moveGcms e _ _ _ _ => some e
  | .moveGcmo e _ _ _ _ _ | .moveHash e _ _ _ _ | .moveHmx e _ _ | .moveNote e _ | .moveRet e _ _ _ => some e
  | _ => none

/-- The faulty word of a comparison that a move command carries (R313). -/
def moveRaw : Instr → Option (BitVec 16)
  | .moveMemcmp _ _ _ _ _ raw | .moveGcmo _ _ _ _ _ raw => raw
  | _ => none

/-- Engine `e` stands at move `i`: it runs invocation `v` as `x` and has not returned, its applet holds the move there,
and the budget covers it. -/
structure State.AtMove (s : State) (e : Fin 4) (i : Instr) (x : Engine) (v : Invocation) (m : MoveFields) : Prop where
  engine : s.eng e = x
  runs : x.inv = some v
  going : x.rets = none
  fields : moveFields i = some m
  held : (s.app v.slot).moves[x.pc]? = some (packMove m)
  budget : x.units + moveCost m x ≤ v.budget

/-- The move that engine `e` stands at costs `units` and leaves the engine as `y` at the next move. -/
def State.MoveGives (s : State) (e : Fin 4) (i : Instr) (units : Engine → Nat) (y : Engine → Engine) : Prop :=
  ∀ x v m, s.AtMove e i x v m → exec i s = .next (s.movedTo e (y x) v (x.pc + 1) (x.units + units x))

/-! The posted commands, each with its operation. -/

/-- A posted command: its operation, and its constructor. -/
abbrev Posted := Op × (Post → Instr)

/-- The cipher operations that open a message. -/
def cipherOpens : List Posted :=
  [(.aesEcb, .aesEcb), (.aesCbc, .aesCbc), (.aesCtr, .aesCtr), (.aesGcm, .aesGcm), (.aesXts, .aesXts),
   (.aesCmac, .aesCmac), (.aesKw, .aesKw)]

/-- The digest operations that name a context. -/
def digestNames : List Posted :=
  [(.digUpdate, .digUpdate), (.digFinal, .digFinal), (.digRead, .digRead), (.digCompare, .digCompare),
   (.digRelease, .digRelease)]

/-- The signet operations that wait for an engine. -/
def signetAsks : List Posted := [(.sigSign, .sigSign), (.sigVerify, .sigVerify), (.sigQuote, .sigQuote)]

/-- Every posted command. -/
def posts : List Posted :=
  [(.nop, .nop), (.fence, .fence)] ++ cipherOpens ++ [(.cipherDrop, .cipherDrop), (.digest, .digest),
   (.digOpen, .digOpen)] ++ digestNames ++ [(.digFlush, .digFlush), (.hmExtend, .hmExtend), (.hmRead, .hmRead),
   (.hmReset, .hmReset), (.hmLock, .hmLock), (.hmSetup, .hmSetup)] ++ signetAsks ++ [(.random, .randomDraw),
   (.vaultFormat, .vaultFormat), (.vaultEnroll, .vaultEnroll), (.vaultRevoke, .vaultRevoke),
   (.vaultRekey, .vaultRekey), (.vaultArm, .vaultArm), (.vaultQuery, .vaultQuery),
   (.vaultCheckpoint, .vaultCheckpoint), (.vaultCommit, .vaultCommit), (.vaultImport, .vaultImport),
   (.vaultMoveOpen, .vaultMoveOpen), (.capture, .capture), (.strandSetup, .strandSetup),
   (.strandCollect, .strandCollect), (.strandClose, .strandClose), (.appletInvoke, .appletInvoke),
   (.appletInstall, .appletInstall), (.appletRemove, .appletRemove), (.appletSigner, .appletSigner),
   (.keyGenerate, .keyGenerate), (.keyImport, .keyImport), (.keyExport, .keyExport), (.keyDestroy, .keyDestroy),
   (.keyRelease, .keyRelease), (.keyLimit, .keyLimit), (.keyLoad, .keyLoad), (.keyPublic, .keyPublic),
   (.keyDecapsulate, .keyDecapsulate), (.keyScrub, .keyScrub), (.keyPurge, .keyPurge), (.cerBegin, .cerBegin),
   (.cerShare, .cerShare), (.cerFinish, .cerFinish), (.cerCancel, .cerCancel), (.snapshot, .snapshot),
   (.sdInfo, .sdInfo), (.bundleWrite, .bundleWrite), (.bundleImport, .bundleImport), (.ccInfo, .ccInfo),
   (.ccClear, .ccClear), (.lcsTransition, .lcsTransition), (.lcsCancel, .lcsCancel),
   (.lcsDebugKey, .lcsDebugKey), (.lcsDebugNonce, .lcsDebugNonce), (.lcsDebugGrant, .lcsDebugGrant),
   (.lcsDebugRevoke, .lcsDebugRevoke), (.provIdkey, .provIdkey), (.provCert, .provCert),
   (.provPatch, .provPatch), (.crownSwap, .crownSwap), (.crownRejoin, .crownRejoin), (.nvmRead, .nvmRead),
   (.nvmWrite, .nvmWrite), (.nvmScan, .nvmScan)]

/-- The commands that write a register of the PF, each with the register's address. -/
def pfCommands (f : Fin 16) (m : Fin 32) (block : CntBlock) (value : Word32) (on : Bool) (key : BitVec 16) :
    List ((Fin 32 → Instr) × Nat) :=
  [(.entCtlRestart, 0x70010), (.entStim, 0x70000), (.vaultCtlFlush, 0x50000), (.vaultCtlStim, 0x50000),
   (.pipReframe, 0x60000), (.clrFault, 0x60000), (.ccDeact, 0xD0000), (.sdOff, 0xD0000), (.snpTrigger, 0xE0000),
   (.clrViol, 0xE0000), (.startRetry, 0x48), (fun fn => .fctReset fn f, 0x30000 + 0x1000 * f.val),
   (fun fn => .fctFence fn f on, 0x30000 + 0x1000 * f.val), (.mtestGo, 0xB0040), (.mbistGo, 0xB0058),
   (fun fn => .tmpStim fn m, 0xA000C), (.tmpLock, 0xA0000), (.logClear, 0xA0024),
   (fun fn => .monCfgWrite fn m value, 0xA0100 + 4 * m.val), (.crnStim, 0x80000),
   (fun fn => .resetWhole fn key, 0x4C), (fun fn => .clrCnt fn block, cntAddr block)]

end Sys2Proof.Machine
end

