-- ==== Sys2Proof/Certificates/Slice0/Obligations.lean ====
section
/-!
DEFINITION. What is stated about the block. In the statements about posts, `s.Starts o p g` says that a post passes
steps 1 to 7 at once with `g` read (Safety.lean), `u` is the state in which its unit begins step 8, and `onward` is what
follows of itself in every unit (Machine/Onward.lean).
-/

open Sys2Proof Sys2Proof.Machine

/-! The queue of commands. -/

/-- The command at the front of the queue is executed on the state with the rest of the queue; on an empty queue one
cycle of `mref` passes, which the clocks of the cards follow while they run (the model's choice, log entry 1). -/
def Obligations.StepRunsFront : Prop :=
  (∀ (c : Instr) (rest : List Instr) (s : State), s.pending = c :: rest →
    Machine.step s = exec c { s with pending := rest }) ∧
  (∀ s : State, s.pending = [] → Machine.step s = .next { s with
    tick := s.tick + 1
    cards := { s.cards with
      sdRun := if s.dclkRuns = true then s.tick + 1 else s.cards.sdRun
      ccRun := if s.tclkRuns = true then s.tick + 1 else s.cards.ccRun } })

/-- No command stops the device: each answers a next state. It rests on choices of the model too (log entry 8). -/
def Obligations.EveryCommandAnswers : Prop := ∀ (c : Instr) (s : State), ∃ t, exec c s = .next t

/-! Encodings. -/

/-- Every move command, with every operand, is read back from its 64 bits by the engine that it names; and a word
that decodes to a move is the move's own encoding: no bit of it is dropped, and bits [39:32] and unused fields are
zero. -/
def Obligations.MoveEncoding : Prop :=
  (∀ (i : Instr) (e : Fin 4), moveEngine i = some e → moveRaw i = none →
     ∃ w, encodeMove i = some w ∧ decodeMove e w = some i) ∧
  (∀ (e : Fin 4) (w : BitVec 64) (i : Instr), decodeMove e w = some i →
     encodeMove i = some w ∧ moveEngine i = some e ∧ moveRaw i = none)

/-- A descriptor and its 64 bytes determine each other, and every opcode decodes to its operation. -/
def Obligations.DescriptorRoundTrip : Prop :=
  (∀ d : Desc, d.body.length = 48 → (encodeDesc d).length = 64 ∧ decodeDesc (encodeDesc d) = d) ∧
  (∀ b : Bytes, b.length = 64 → encodeDesc (decodeDesc b) = b) ∧
  (∀ o : Op, Op.decode o.code = some o) ∧
  (∀ (w : BitVec 16) (o : Op), Op.decode w = some o → w = o.code)

/-! Host memory. -/

/-- A write of the device gives the bytes written, leaves every other byte, keeps the canonical form, and goes nowhere
beyond 2^64. It rests on choices of the model too (log entry 2). -/
def Obligations.HostWriteExact : Prop :=
  ∀ (s : State) (a : Nat) (b : Bytes), s.Safe →
    (s.hostWrite a b).Safe ∧
    (∀ k, k < b.length → a + k < 2 ^ 64 → (s.hostWrite a b).hostMem.read (a + k) = b.getD k 0) ∧
    (∀ c, (c < a ∨ a + b.length ≤ c ∨ (2 ^ 64 ≤ c ∧ a ≤ c)) → (s.hostWrite a b).hostMem.read c = s.hostMem.read c)

/-! Posted descriptors (chapter 3). -/

/-- A post on a `DISABLED` ring makes the host's own stores and nothing more; one that the device does not fetch at
once stores 64 bytes in its slot and the new P in its doorbell word, and leaves every other byte of host memory, and
all else, as it was. It rests on choices of the model too (log entries 2 and 11). -/
def Obligations.PostStores : Prop :=
  ∀ x ∈ posts, ∀ (p : Post) (s s0 : State), s0 = s.hostStores p.env →
    ((s0.ring p.ring).st = .disabled → exec (x.2 p) s = .next s0) ∧
    ((s0.ring p.ring).st ≠ .disabled → s0.fetchesNow p.ring = false → s0.Safe →
      ∃ t, exec (x.2 p) s = .next t ∧ t = { s0 with hostMem := t.hostMem } ∧
        ∀ a,
          ¬ ((s0.ring p.ring).sqBase.toNat + 64 * ((s0.hostP p.ring).toNat % (s0.ring p.ring).size) ≤ a ∧
            a < (s0.ring p.ring).sqBase.toNat + 64 * ((s0.hostP p.ring).toNat % (s0.ring p.ring).size) + 64) →
          ¬ (s0.doorbell p.ring ≤ a ∧ a < s0.doorbell p.ring + 4) →
          t.hostMem.read a = s0.hostMem.read a)

/-- The completion of the only work of a ring: 32 bytes in slot W mod N with tag, status, phase, ring and result, W
one higher, and nothing else of host memory changed. It rests on choices of the model too (log entry 11). -/
def Obligations.CompletionEntry : Prop :=
  ∀ (s : State) (r : Nat) (c : Cpl) (x : Ring), s.Safe → s.ring r = x →
    (s.writeCpl r c).hostMem =
      memWrite s.hostMem (x.cqBase.toNat + 32 * (x.w.toNat % x.size)) (cplBytes r x.w.toNat x.size c) ∧
    (cplBytes r x.w.toNat x.size c).length = 32 ∧
    (s.writeCpl r c).Safe ∧
    (∀ a, (a < x.cqBase.toNat + 32 * (x.w.toNat % x.size) ∨ x.cqBase.toNat + 32 * (x.w.toNat % x.size) + 32 ≤ a) →
      (s.writeCpl r c).hostMem.read a = s.hostMem.read a)

/-- `NOP` completes with its 16 bytes echoed; a `FENCE` is taken, and completes when its ring is drained. It rests on
choices of the model too (log entries 11 and 16). -/
def Obligations.RingFamilyStarts : Prop :=
  (∀ (s : State) (p : Post) (g : Got) (u : State) (d : Desc),
    s.Starts .nop p g → u = s.atUnit .nop p g → d = postDesc .nop p →
    exec (.nop p) s = .next (u.finishDone p.ring s.hif.nextSeq d 0 (d.bytes 16 16)).onward) ∧
  (∀ (s : State) (p : Post) (g : Got) (u : State),
    s.Starts .fence p g → u = s.atUnit .fence p g →
    exec (.fence p) s =
      .next ((u.modRing p.ring fun x => x.setPhase s.hif.nextSeq .active).drain p.ring).onward)

/-! Ciphers (chapter 5). -/

/-- An opening or unchained cipher descriptor whose checks pass reserves its key slot, opens its chain, if it has one,
and becomes a message of the facet with the fewest messages that can hold its output. It rests on choices of the model
too (log entries 11, 14, 48 and 52). -/
def Obligations.CipherOpens : Prop :=
  ∀ x ∈ cipherOpens, ∀ (s : State) (p : Post) (g : Got) (u : State) (d : Desc) (i f : Nat),
    s.Starts x.1 p g → u = s.atUnit x.1 p g → d = postDesc x.1 p → i = handleIndex (d.fld 16 4) →
    d.cont = false →
    (∀ c h, d.chain = some c → tget .free (u.ring p.ring).chains c ≠ .opened h) →
    (d.more = true → middleOk (cipherInit d g.2.2) (extsLen g.1) = true ∧
      extsLen g.1 ≤ d.declLen.toNat ∧ (u.pickFacet 17 0 0).isSome = true) →
    slotCheck (u.slot i) (fnOf p.ring) (cipherSuits d (u.slot i)) = none →
    cipherLimit d g.2.2 = none →
    (262144 < heldBytes d g.2.2 → u.start.stage = 4 ∧ u.start.gddrOut = false) →
    u.pickFacet (if d.more then 17 else 1) (heldBytes d g.2.2) 0 = some f →
    exec (x.2 p) s = .next
      ((match d.chain with
        | some c => ((u.reserve i).modRing p.ring fun y => y.setPhase s.hif.nextSeq .active).setChain p.ring (some c)
            (.opened f)
        | none => (u.reserve i).modRing p.ring fun y => y.setPhase s.hif.nextSeq .active).addMsg f
        { cipherMsg p.ring s.hif.nextSeq d (u.servedClass p.ring d) (cipherInit d g.2.2) g.1 g.2.1
            (if heldBytes d g.2.2 = 0 then (0, 0) else (u.stagePlan f (heldBytes d g.2.2) 0).getD (0, 0)) with
          clsNow := u.workClass p.ring s.hif.nextSeq }).onward

/-- A cipher descriptor that continues an open chain queues on the chain's facet, at its end or in the place that its
outstanding reads have kept for it; `CIPHER_DROP` of an ended chain frees it and returns the input it had taken; with
no chain it is `CONTEXT_FREE`. It rests on choices of the model too (log entries 11, 14, 48 and 63). -/
def Obligations.ChainsContinue : Prop :=
  (∀ x ∈ cipherOpens ++ [(.cipherDrop, .cipherDrop)],
    ∀ (s : State) (p : Post) (g : Got) (u : State) (d : Desc) (f : Nat),
    s.Starts x.1 p g → u = s.atUnit x.1 p g → d = postDesc x.1 p → (x.1 = .cipherDrop ∨ d.cont = true) →
    tget .free (u.ring p.ring).chains (d.fld 22 1) = .opened f → x.1 ≠ .aesKw →
    exec (x.2 p) s = .next ((u.enqueue f
        { ring := p.ring, seq := s.hif.nextSeq, chain := some (d.fld 22 1), ctx := none,
          ins := if x.1 = .cipherDrop then [] else g.1, outs := if x.1 = .cipherDrop then [] else g.2.1,
          block := if x.1 = .cipherDrop then [] else g.2.2, bad := none }).modRing p.ring
        fun y => y.setPhase s.hif.nextSeq .active).onward) ∧
  (∀ (u : State) (f : Nat) (q : Queued),
    ((∀ e ∈ (u.facet f).queue, e.ring = q.ring → e.seq ≠ q.seq) →
      u.enqueue f q = u.modFacet f fun y => { y with queue := (u.facet f).queue ++ [q] }) ∧
    (∀ a e b, (u.facet f).queue = a ++ e :: b → e.ring = q.ring → e.seq = q.seq →
      (∀ e' ∈ a ++ b, e'.ring = q.ring → e'.seq ≠ q.seq) →
      u.enqueue f q = u.modFacet f fun y => { y with queue := a ++ q :: b })) ∧
  (∀ (s : State) (p : Post) (g : Got) (u : State) (d : Desc) (n : Nat),
    s.Starts .cipherDrop p g → u = s.atUnit .cipherDrop p g → d = postDesc .cipherDrop p →
    tget .free (u.ring p.ring).chains (d.fld 22 1) = .ended n →
    exec (.cipherDrop p) s = .next
      ((u.setChain p.ring (some (d.fld 22 1)) .free).finishDone p.ring s.hif.nextSeq d 0 (leBytes 8 n)).onward) ∧
  (∀ (s : State) (p : Post) (g : Got) (u : State) (d : Desc),
    s.Starts .cipherDrop p g → u = s.atUnit .cipherDrop p g → d = postDesc .cipherDrop p →
    tget .free (u.ring p.ring).chains (d.fld 22 1) = .free →
    exec (.cipherDrop p) s = .next
      (u.finishBad p.ring s.hif.nextSeq d { status := .contextFree, step := 8 }).onward)

/-! Digests and hallmarks (chapter 6). -/

/-- `DIGEST` and `DIG_OPEN` whose checks pass take the lowest free context of the least used facet, reserve the key of
an HMAC, and become a message there. It rests on choices of the model too (log entries 11 and 63). -/
def Obligations.DigestOpens : Prop :=
  ∀ x ∈ ([(.digest, .digest), (.digOpen, .digOpen)] : List Posted),
    ∀ (s : State) (p : Post) (g : Got) (u : State) (d : Desc) (f k : Nat),
    s.Starts x.1 p g → u = s.atUnit x.1 p g → d = postDesc x.1 p → k = d.fld 16 4 →
    keyCheck u (fnOf p.ring) k = none → d.declLen.toNat ≤ digMax → extendStatus u p.ring d = none →
    u.pickDig (if x.1 = .digest then 1 else 17) = some f →
    exec (x.2 p) s = .next
      ((((if d.dctl 0 then (if k = 0 then u else u.reserve (handleIndex k)).mark d.hm s.hif.nextSeq
          else if k = 0 then u else u.reserve (handleIndex k)).modRing p.ring fun y =>
            y.setPhase s.hif.nextSeq .active).setDig f ((u.freeCtx f).getD 0)
        (some {
          st := .opened, fn := fnOf p.ring, alg := d.fld 22 1, outLen := digOut (d.fld 22 1) (d.fld 26 2),
          key := BitVec.ofNat 32 k, acc := [], dig := [], invCharged := 0, blocksCharged := 0,
          heldBy := some p.ring.val, oneShot := x.1 == .digest })).addMsg f
        (digMsg u p.ring s.hif.nextSeq d ((u.freeCtx f).getD 0) g.1 g.2.1)).onward

/-- A descriptor that names a context of its own function, free or held by its ring, queues behind it; one that names
none is `CONTEXT_FREE`, and one that another ring holds is `CONTEXT_BUSY`. `DIG_COMPARE` queues on its context like
the others, and its facet then goes on with the comparison; `DIG_FLUSH` frees the contexts of its function that no
ring holds, and returns their number. It rests on choices of the model too (log entries 11, 14 and 18). -/
def Obligations.DigestContexts : Prop :=
  (∀ x ∈ digestNames, ∀ (s : State) (p : Post) (g : Got) (u : State) (d : Desc),
     s.Starts x.1 p g → u = s.atUnit x.1 p g → d = postDesc x.1 p → x.1 ≠ .digCompare →
     (∀ c, u.dig d.ctxFacet d.ctxIndex = some c → c.fn = fnOf p.ring → c.oneShot = false →
       (c.heldBy = none ∨ c.heldBy = some p.ring.val) →
       exec (x.2 p) s = .next
         (((u.enqueue d.ctxFacet
             { ring := p.ring, seq := s.hif.nextSeq, chain := none, ctx := some d.ctxIndex, ins := g.1, outs := g.2.1,
               block := g.2.2, bad := none }).setDig d.ctxFacet d.ctxIndex
             (some { c with heldBy := some p.ring.val })).modRing p.ring fun y =>
               y.setPhase s.hif.nextSeq .active).onward) ∧
     (u.dig d.ctxFacet d.ctxIndex = none →
       exec (x.2 p) s = .next (u.finishBad p.ring s.hif.nextSeq d { status := .contextFree, step := 8 }).onward) ∧
     (∀ c q, u.dig d.ctxFacet d.ctxIndex = some c → c.fn = fnOf p.ring → c.oneShot = false → c.heldBy = some q →
       q ≠ p.ring.val →
       exec (x.2 p) s = .next (u.finishBad p.ring s.hif.nextSeq d { status := .contextBusy, step := 8 }).onward)) ∧
  (∀ (s : State) (p : Post) (g : Got) (u : State) (d : Desc) (c : DigCtx),
    s.Starts .digCompare p g → u = s.atUnit .digCompare p g → d = postDesc .digCompare p →
    u.dig d.ctxFacet d.ctxIndex = some c → c.fn = fnOf p.ring → c.oneShot = false →
    (c.heldBy = none ∨ c.heldBy = some p.ring.val) →
    exec (.digCompare p) s = .next
      ((((u.enqueue d.ctxFacet
          { ring := p.ring, seq := s.hif.nextSeq, chain := none, ctx := some d.ctxIndex, ins := g.1, outs := g.2.1,
            block := g.2.2, bad := none }).setDig d.ctxFacet d.ctxIndex
          (some { c with heldBy := some p.ring.val })).modRing p.ring fun y =>
            y.setPhase s.hif.nextSeq .active).sched d.ctxFacet p.env.raw).onward) ∧
  (∀ (s : State) (p : Post) (g : Got) (u v : State) (mine : DigCtx → Bool),
    s.Starts .digFlush p g → u = s.atUnit .digFlush p g →
    mine = (fun c => c.fn == fnOf p.ring && c.heldBy.isNone && !c.oneShot) →
    v = (List.range 16).foldl (fun a f => a.freeDigs f mine) u →
    exec (.digFlush p) s = .next (v.finishDone p.ring s.hif.nextSeq (postDesc .digFlush p) 0
      (leBytes 4 ((List.range 16).foldl (fun a f =>
        a + ((u.facet f).digs.filter fun e => (e.2.map mine).getD false).length) 0))).onward)

/-- `HM_EXTEND` of registers 0 to 55 by a function that may extend goes to the hallmark unit with a pending mark of
its own. An extend waits while an `HM_LOCK`, `HM_RESET` or `HM_SETUP` that arrived before it holds its register. The
first extend that does not wait, and that either the crown waits for or comes behind no waiting one of its source,
makes H the SHA-384 of H and its value, and `EXT_COUNT` one higher, and its mark is cleared; what asked for it then
goes on. It rests on choices of the model too (log entries 11, 14, 57 and 63). -/
def Obligations.HallmarkExtends : Prop :=
  (∀ (s : State) (p : Post) (g : Got) (u : State) (d : Desc),
     s.Starts .hmExtend p g → u = s.atUnit .hmExtend p g → d = postDesc .hmExtend p → d.hm < 56 →
     u.extendCheck d.hm (fnOf p.ring) false = none →
     exec (.hmExtend p) s = .next
       (((({ u with
           marks := u.marks ++ [⟨d.hm, s.hif.nextSeq, u.nextMark⟩], nextMark := u.nextMark + 1 } : State).modRing
           p.ring fun x => x.setPhase s.hif.nextSeq .active).sendExtend d.hm g.2.2 u.nextMark
         ((leastOf u.digUsed u.serving).getD 0) (.desc p.ring s.hif.nextSeq)).onward)) ∧
  (∀ (s : State) (x : ExtendReq) (v : Hallmark), s.nextExtend [] s.extends_ = some x →
     v = { s.hallmark x.hm with
       h := sha384 ((s.hallmark x.hm).h ++ x.value), extCount := (s.hallmark x.hm).extCount + 1 } →
     exec .hallmarkExtendApplied s = .next
       ((({ s with marks := s.marks.filter fun m => m.n != x.n, extends_ := s.extends_.erase x } : State).setHallmark
         x.hm v).extendEnded x.hm v.extCount.toNat x.n x.src).onward) ∧
  (∀ (s : State) (a b : List ExtendReq) (x : ExtendReq), s.extendWaits x = false →
     (s.heldMark x.n = true ∨ ∀ y ∈ a, y.rank = x.rank → s.extendWaits y = false) →
     (∀ c d y, a = c ++ y :: d → s.extendWaits y = true ∨
       (s.heldMark y.n = false ∧ ∃ z ∈ c, z.rank = y.rank ∧ s.extendWaits z = true)) →
     s.nextExtend [] (a ++ x :: b) = some x) ∧
  (∀ (s : State) (x : ExtendReq), s.extendWaits x = true ↔
     s.heldMark x.n = false ∧ ∃ j m, s.crowns.journal = some j ∧ j.wait = .hold ∧ m ∈ j.hold ∧ m.hm = x.hm)

/-- What crown work commits: its entry is written through clasp 0; with no record to write, every recorded effect is
then made through the clasp of its unit, and the completion is written through clasp 2, which closes the entry. An
output that its clasp discards, where the claim has passed to the other crown, is refused and counted, and the entry
stays as it stands. -/
def Obligations.CrownCommits : Prop :=
  (∀ (u v w : State) (j k : Journal) (d : Desc) (got : Got) (effs : List Eff) (res : Bytes) (c : Cpl),
    u.crownDesc = some (j, d, got) → u.crowns.journal = some j → c = cplOf d .done 0 res →
    (u.activeOutput 0 = (false, v) → u.crownDone [] effs 0 res = v.modJournal fun x => { x with wait := .clasp }) ∧
    (u.activeOutput 0 = (true, v) →
      k = { j with state := .committed, recs := [], effs := effs, cpl := some c, wait := .nvm } →
      w = ({ v with crowns := { v.crowns with journal := some k } } : State).noteEntry j.number .committed →
      w.cutWaits k = false →
      (∀ t, w.makeEffects effs = (false, t) → u.crownDone [] effs 0 res = t.modJournal fun x => { x with wait := .clasp }) ∧
      (∀ t, w.makeEffects effs = (true, t) →
        u.crownDone [] effs 0 res =
          ((t.modJournal fun x => { x with state := .applied, wait := .vault }).noteEntry j.number .applied).crownClose
            { k with state := .applied } c))) ∧
  (∀ (s t : State) (e : Eff) (es : List Eff),
    s.makeEffects [] = (true, s) ∧
    (s.activeOutput e.clasp = (true, t) → s.makeEffects (e :: es) = (t.effect e).makeEffects es) ∧
    (s.activeOutput e.clasp = (false, t) → s.makeEffects (e :: es) = (false, t))) ∧
  (∀ (s t : State) (j : Journal) (c : Cpl),
    (s.activeOutput 2 = (true, t) → s.crownClose j c =
      ((({ t with crowns := { t.crowns with
          journal := none, lastEntry := some (j.closed (some c)) } } : State).bump 24 0 1).noteEntry
        j.number .completed).finish j.ring j.seq c) ∧
    (s.activeOutput 2 = (false, t) → s.crownClose j c = t.modJournal fun x => { x with wait := .clasp })) ∧
  (∀ (s : State) (k : Nat) (b : Bool) (c : BitVec 16), b = s.crowns.activeB → c = (s.crown b).claim →
    ((s.clasp k).claimHi < c ∨ (c = (s.clasp k).claimHi ∧ ((s.clasp k).holder = some b ∨ b = false)) →
      s.activeOutput k = (true, s.setClasp k ((s.clasp k).take b c))) ∧
    (¬ ((s.clasp k).claimHi < c ∨ (c = (s.clasp k).claimHi ∧ ((s.clasp k).holder = some b ∨ b = false))) →
      s.activeOutput k = (false, ((s.setClasp k { s.clasp k with
        refused := min ((s.clasp k).refused + 1) (2 ^ 32 - 1) }).bump 24 5 1).noteEvent 17 (if b then 1 else 0))))

/-- Hallmark crown work that is permitted: `HM_READ` writes H and returns the register's fields; `HM_RESET`, `HM_LOCK`
and `HM_SETUP`, with no mark pending, commit H of 48 zero bytes with `EXT_COUNT` 0, `LOCKED`, and the new `OWNER`,
`READ_ALL` and `RESET_OK`, and with marks pending wait for those; `HM_EXTEND` of registers 56 to 63 commits the
extend. Registers 56 to 63 have their record written first, but for `HM_LOCK`. It rests on choices of the model too
(log entry 11). -/
def Obligations.HallmarkCrownWork : Prop :=
  (∀ (s : State) (p : Post) (g : Got) (u : State) (d : Desc),
    s.Starts .hmRead p g → u = s.atUnit .hmRead p g → d = postDesc .hmRead p → hmPermit u p.ring d = true →
    exec (.hmRead p) s = .next (u.crownDone []
      [.hostWrite g.2.1 (if (u.hallmark d.hm).torn then List.replicate 48 0xFF else fit 48 (u.hallmark d.hm).h)] 0
      ([BitVec.ofNat 8 d.hm, BitVec.ofNat 8 (ofBits [(u.hallmark d.hm).locked, (u.hallmark d.hm).torn,
          (u.hallmark d.hm).readAll, (u.hallmark d.hm).resetOk]), 0, 0] ++
        leBytes 4 (u.hallmark d.hm).owner.toNat ++ leBytes 8 (u.hallmark d.hm).extCount.toNat)).onward) ∧
  (∀ x ∈ ([(.hmReset, .hmReset), (.hmLock, .hmLock), (.hmSetup, .hmSetup)] : List Posted),
    ∀ (s : State) (p : Post) (g : Got) (u v : State) (d : Desc) (y : Hallmark) (j : Journal),
    s.Starts x.1 p g → u = s.atUnit x.1 p g → d = postDesc x.1 p → hmPermit u p.ring d = true → hmBars u d = none →
    u.crownDesc = some (j, d, g) →
    y = hmAfter d (u.hallmark d.hm) g.2.2 →
    ((∀ m ∈ u.marks, m.hm ≠ d.hm) → v = u.modJournal (fun j => { j with wait := .hold, hold := [] }) →
      exec (x.2 p) s = .next (v.crownDone
        (if 56 ≤ d.hm ∧ x.1 ≠ .hmLock then [v.planRec (.sys 0x0B (d.hm - 56)) 0x0B (y.bytes d.hm)] else [])
        [.hallmark d.hm y] 0 [BitVec.ofNat 8 d.hm]).onward) ∧
    ((∃ m ∈ u.marks, m.hm = d.hm) → v = u.modJournal (fun j => { j with
        wait := .hold, hold := u.marks.filter fun m => m.hm == d.hm }) →
      exec (x.2 p) s = .next v.onward)) ∧
  (∀ (s : State) (p : Post) (g : Got) (u : State) (d : Desc) (y : Hallmark),
    s.Starts .hmExtend p g → u = s.atUnit .hmExtend p g → d = postDesc .hmExtend p → 56 ≤ d.hm →
    u.extendCheck d.hm (fnOf p.ring) (p.ring.val == 0) = none → y = hmAfter d (u.hallmark d.hm) g.2.2 →
    exec (.hmExtend p) s = .next (u.crownDone [u.planRec (.sys 0x0B (d.hm - 56)) 0x0B (y.bytes d.hm)]
      [.hallmark d.hm y] 0 ([BitVec.ofNat 8 d.hm] ++ (zeros 7 ++ leBytes 8 y.extCount.toNat))).onward) ∧
  (∀ (d : Desc) (x : Hallmark) (v : Bytes),
    (d.opcode = Op.hmReset.code → hmAfter d x v = { x with h := zeros 48, extCount := 0, torn := false }) ∧
    (d.opcode = Op.hmLock.code → hmAfter d x v = { x with locked := true }) ∧
    (d.opcode = Op.hmSetup.code → hmAfter d x v =
      { x with owner := BitVec.ofNat 32 (d.fld 28 4), readAll := d.dctl 2, resetOk := d.dctl 3 }) ∧
    (d.opcode = Op.hmExtend.code → hmAfter d x v = { x with h := sha384 (x.h ++ v), extCount := x.extCount + 1 }))

/-! Signet and lattice (chapter 7). -/

/-- `SIG_SIGN`, `SIG_VERIFY` and `SIG_QUOTE` whose checks pass wait for an engine of their kind, a signing one with
its slot reserved. `RANDOM` that instance 2 can serve writes what it draws and completes; with `ENTROPY_FAIL` it draws
nothing, and when a block must come first it waits. It rests on choices of the model too (log entries 11, 42 and 51).
-/
def Obligations.SignetPosts : Prop :=
  (∀ x ∈ signetAsks, ∀ (s : State) (p : Post) (g : Got) (u : State) (d : Desc) (signs : Bool),
     s.Starts x.1 p g → u = s.atUnit x.1 p g → d = postDesc x.1 p → signs = (x.1 != .sigVerify) →
     (x.1 ≠ .sigQuote → d.declLen.toNat - sigFixed d ≤ 65536) →
     (signs = true → signCheck u p.ring d = none) →
     (x.1 = .sigQuote → ∀ h, h < 64 → bitOf (d.fld 24 8) h = true → u.hmReadable h p.ring = true) →
     u.kindServes (isLattice (d.fld 20 1)) = true →
     exec (x.2 p) s = .next
       ({ (if signs then (u.keepGot p.ring s.hif.nextSeq g).reserve (handleIndex (d.fld 16 4))
           else u.keepGot p.ring s.hif.nextSeq g) with
         signet := { u.signet with queue := u.signet.queue ++
           [{ client := .desc p.ring s.hif.nextSeq, lattice := isLattice (d.fld 20 1), scheme := d.fld 20 1,
              desc := some d }] } } :
         State).onward) ∧
  (∀ (s : State) (p : Post) (g : Got) (u w : State) (d : Desc),
     s.Starts .random p g → u = s.atUnit .random p g → d = postDesc .random p →
     w = u.keepGot p.ring s.hif.nextSeq g →
     (∀ b re v, w.draw 2 (d.fld 24 4) (bitOf d.sctl 2 || w.signet.predResAll) = .ok b re v →
       exec (.randomDraw p) s = .next
         (((v.writeOut p.ring g.2.1 0 b).bump 17 12 b.length).finishDone p.ring s.hif.nextSeq d 0
           (leBytes 4 b.length ++ [if re then 1 else 0])).onward) ∧
     (∀ v, w.draw 2 (d.fld 24 4) (bitOf d.sctl 2 || w.signet.predResAll) = .fail v →
       exec (.randomDraw p) s = .next
         (v.finishBad p.ring s.hif.nextSeq d { status := .entropyFail, step := 8 }).onward) ∧
     (w.draw 2 (d.fld 24 4) (bitOf d.sctl 2 || w.signet.predResAll) = .wait →
       exec (.randomDraw p) s = .next
         ({ w with signet := { w.signet with waits := w.signet.waits ++ [.random p.ring s.hif.nextSeq] } } :
           State).onward))

/-! The endpoint vault (chapter 8). -/

/-- Vault descriptors on one entry, read through the vault cache: a first enrolment and a rekeying, with the key that
their blob unwraps to or the status of the blob that does not, a revocation and a query, each with its completion; an
entry that cannot be read is `VAULT_INTEGRITY` to each, and one that is not known `ENDPOINT_UNKNOWN`. `VAULT_ARM` of
one endpoint that may be armed and is not armed in the open epoch gathers its arm into the batch and waits, or is
`VAULT_INTEGRITY` where the fold that the arm calls for cannot be made; of one that is armed already it completes as
such. It rests on choices of the model too (log entries 11, 39 and 50). -/
def Obligations.VaultEntryWork : Prop :=
  (∀ (s : State) (p : Post) (g : Got) (u w : State) (d : Desc) (data : Bytes) (n : Nat) (e : PipEntry),
    s.Starts .vaultEnroll p g → u = s.atUnit .vaultEnroll p g → d = postDesc .vaultEnroll p →
    vaultRefuse u d = none → u.readAll p.env g.1 = .ok data → n = leField data 0 8 → n ≠ 0 → n < 2 ^ 40 →
    (u.ventry d.endpoint).st = .empty → (u.ventry d.endpoint).failed = false →
    e = { hwm := BitVec.ofNat 40 (n - 1), window := BitVec.allOnes 64, known := true } →
    (u.readEntry d.endpoint = (w, true) →
      exec (.vaultEnroll p) s = .next (match freshKey w d (fnOf p.ring) (data.drop 72) with
        | (.ok k, v) => ((if d.vctl 0 then
              ((v.setPipe d.endpoint e).setVentry d.endpoint (enrolled v d data k (u.ventry d.endpoint) e)).dropSched
                fun x => x == .endpoint d.endpoint
            else (v.setPipe d.endpoint e).setVentry d.endpoint
              (enrolled v d data k (u.ventry d.endpoint) e)).finishDone p.ring s.hif.nextSeq d 0
            (leBytes 8 e.hwm.toNat)).onward
        | (.error st, v) => (v.finishBad p.ring s.hif.nextSeq d { status := st, step := 8 }).onward)) ∧
    (u.readEntry d.endpoint = (w, false) →
      exec (.vaultEnroll p) s = .next
        (w.finishBad p.ring s.hif.nextSeq d { status := .vaultIntegrity, step := 8 }).onward)) ∧
  (∀ (s : State) (p : Post) (g : Got) (u w : State) (d : Desc),
    s.Starts .vaultRevoke p g → u = s.atUnit .vaultRevoke p g → d = postDesc .vaultRevoke p →
    vaultRefuse u d = none →
    (∀ v, knownEntry u d.endpoint = (w, .ok v) →
      exec (.vaultRevoke p) s = .next
        ((((w.setVentry d.endpoint { v with
            st := .revoked, key := zeros 32, prevKey := zeros 32, revokeTime := u.rtc }).setPipe d.endpoint
          { w.pipe d.endpoint with revoked := true, armed := false }).dropSched fun x =>
            x == .endpoint d.endpoint).finishDone p.ring s.hif.nextSeq d 0
          (leBytes 8 (w.pipe d.endpoint).hwm.toNat)).onward) ∧
    (∀ st, knownEntry u d.endpoint = (w, .error st) →
      exec (.vaultRevoke p) s = .next (w.finishBad p.ring s.hif.nextSeq d { status := st, step := 8 }).onward)) ∧
  (∀ (u w : State) (e : Nat),
    (u.vault.st = .moved → knownEntry u e = (u, .error .endpointUnknown)) ∧
    (u.vault.st ≠ .moved → u.readEntry e = (w, false) → knownEntry u e = (w, .error .vaultIntegrity)) ∧
    (u.vault.st ≠ .moved → u.readEntry e = (w, true) → (w.ventry e).st = .empty →
      knownEntry u e = (w, .error .endpointUnknown)) ∧
    (u.vault.st ≠ .moved → u.readEntry e = (w, true) → (w.ventry e).st ≠ .empty →
      knownEntry u e = (w.soundPip e, .ok (w.ventry e))) ∧
    ((u.ventry e).failed = true → u.readEntry e = (u, false)) ∧
    ((u.ventry e).failed = false → u.vault.cached.elem e = true → u.readEntry e = (u.touch e, true)) ∧
    ((u.ventry e).failed = false → u.vault.cached.elem e = false → (u.ventry e).version = 0 →
      u.readEntry e = (u, true)) ∧
    ((u.ventry e).failed = false → u.vault.cached.elem e = false → (u.ventry e).version ≠ 0 →
      (u.vault.nodeLost (e / 8) = true → u.readEntry e = (u.nodeFail (e / 8), false)) ∧
      (u.vault.nodeLost (e / 8) = false → u.vault.flaws.elem (.entry e) = true →
        u.readEntry e = ((u.touchNode (e / 8)).vaultFail e, false)) ∧
      (u.vault.nodeLost (e / 8) = false → u.vault.flaws.elem (.entry e) = false →
        u.readEntry e = ((u.touchNode (e / 8)).touch e, true)))) ∧
  (∀ (s : State) (p : Post) (g : Got) (u w0 : State) (d : Desc) (v : VEntry) (data : Bytes),
    s.Starts .vaultRekey p g → u = s.atUnit .vaultRekey p g → d = postDesc .vaultRekey p →
    vaultRefuse u d = none → u.readAll p.env g.1 = .ok data → knownEntry u d.endpoint = (w0, .ok v) →
    v.st ≠ .revoked → (w0.pipe d.endpoint).hwm.toNat < leField data 0 8 → leField data 0 8 < 2 ^ 40 →
    exec (.vaultRekey p) s = .next (match freshKey w0 d (fnOf p.ring) (data.drop 8) with
      | (.ok k, w) => (((w.dropSched fun x => x == .endpoint d.endpoint).setVentry d.endpoint { v with
          key := k.mat, prevKey := v.key, rekeySeq := leField data 0 8, recCount := 0, blockCount := 0,
          recLimit := if k.invLimit = 0 then 2 ^ 32 else k.invLimit,
          blockLimit := if k.blockLimit = 0 then 2 ^ 64 - 1 else k.blockLimit,
          keyGen := v.keyGen + 1 }).finishDone p.ring s.hif.nextSeq d 0 (leBytes 4 (v.keyGen + 1))).onward
      | (.error st, w) => (w.finishBad p.ring s.hif.nextSeq d { status := st, step := 8 }).onward)) ∧
  (∀ (s : State) (p : Post) (g : Got) (u w : State) (d : Desc) (v : VEntry),
    s.Starts .vaultQuery p g → u = s.atUnit .vaultQuery p g → d = postDesc .vaultQuery p →
    vaultRefuse u d = none → knownEntry u d.endpoint = (w, .ok v) →
    exec (.vaultQuery p) s = .next
      ((w.writeOut p.ring g.2.1 0 (queryBytes w d.endpoint v)).finishDone p.ring s.hif.nextSeq d 0
        [if v.st = .enrolled then 1 else 2]).onward) ∧
  (∀ (s : State) (p : Post) (g : Got) (u w : State) (d : Desc) (e : Nat),
     s.Starts .vaultArm p g → u = s.atUnit .vaultArm p g → d = postDesc .vaultArm p → e = d.endpoint →
     vaultRefuse u d = none → d.fld 20 4 = 1 → w = u.keepGot p.ring s.hif.nextSeq g → w.mayArm e = true →
     ((w.pipe e).armedIn w.vault.record.openEpoch = false → ∀ x : State,
       (w.tryArm e (some (p.ring.val, s.hif.nextSeq)) = (x, true) → exec (.vaultArm p) s = .next
         ({ x with vault := { x.vault with
             armJobs := x.vault.armJobs ++ [⟨p.ring, s.hif.nextSeq, 1, 0, 0, 0⟩] } } : State).endArmJobs.onward) ∧
       (w.tryArm e (some (p.ring.val, s.hif.nextSeq)) = (x, false) → exec (.vaultArm p) s = .next
         ((({ x with vault := { x.vault with
             arms := x.vault.arms.filter fun a => a.by_ != some (p.ring.val, s.hif.nextSeq)
             armJobs := x.vault.armJobs.filter fun j => !(j.ring == p.ring.val && j.seq == s.hif.nextSeq) } } :
           State).failWork p.ring s.hif.nextSeq { status := .vaultIntegrity, step := 8 }).onward))) ∧
     ((w.pipe e).armedIn w.vault.record.openEpoch = true →
       exec (.vaultArm p) s = .next
         ({ w with vault := { w.vault with armJobs := w.vault.armJobs ++ [⟨p.ring, s.hif.nextSeq, 0, 1, 0, 0⟩] } } :
           State).endArmJobs.onward)) ∧
  (∀ (w x : State) (e : Nat) (o : Option (Nat × Nat)),
     ((e ∉ w.vault.fold ∧ x = w) ∨ (e ∈ w.vault.fold ∧ w.tryFold e = (x, true)) →
       w.tryArm e o = (({ x with vault := { x.vault with
         arms := x.vault.arms ++ [⟨e, .gathered, o⟩], batching := true } } : State).bump 24 4 1, true)) ∧
     (e ∈ w.vault.fold → w.tryFold e = (x, false) → w.tryArm e o = (x, false)))

/-- Vault descriptors of the crown: the job of a format and of a cut, an export of the pending epoch, a commit of the
last export, an import with no leap due, verified or refused, and the nonce of a move. It rests on choices of the
model too (log entries 11, 39, 50 and 60). -/
def Obligations.VaultCrownWork : Prop :=
  (∀ (s : State) (p : Post) (g : Got) (u : State) (d : Desc),
    s.Starts .vaultFormat p g → u = s.atUnit .vaultFormat p g → d = postDesc .vaultFormat p →
    vaultRefuse u d = none → u.vault.recordWritten = false → u.setHolds 1 = false →
    exec (.vaultFormat p) s = .next
      (({ u with vault := { u.vault with job := some (.format (2 ^ d.fld 26 1)) } } : State).crownWait
        .vault).vaultGo.onward) ∧
  (∀ (s : State) (p : Post) (g : Got) (u : State) (d : Desc) (data : Bytes),
    s.Starts .vaultCheckpoint p g → u = s.atUnit .vaultCheckpoint p g → d = postDesc .vaultCheckpoint p →
    vaultRefuse u d = none → u.readAll p.env g.1 = .ok data → u.vault.st ≠ .moved →
    208 + 72 * ((if (chkForm u d data).full || ((chkForm u d data).move && !d.vctl 5) || u.vault.record.moveIn
      then u.vault.lines.length else u.vault.changed.length) + 16384) ≤ extsLen g.2.1 →
    (d.vctl 5 = false → u.vault.st ≠ .recovering → u.vault.record.pending = none →
      exec (.vaultCheckpoint p) s = .next
        (({ u with vault := { u.vault with job := some (.cut (chkForm u d data)) } } : State).crownWait
          .vault).vaultGo.onward) ∧
    (d.vctl 5 = true → u.vault.record.pending.isSome = true →
      exec (.vaultCheckpoint p) s = .next (u.runExport p.env { chkForm u d data with
        move := false, nonce := u.vault.record.moveNonce, target := u.vault.moveTarget }).onward)) ∧
  (∀ (s : State) (p : Post) (g : Got) (u : State) (d : Desc) (x : Export) (r : VRecord),
    s.Starts .vaultCommit p g → u = s.atUnit .vaultCommit p g → d = postDesc .vaultCommit p →
    vaultRefuse u d = none → u.vault.st ≠ .recovering → u.vault.lastExport = some x →
    u.vault.record.pending = some x.epoch → d.endpoint = x.epoch →
    r = { u.vault.record with committed := x.epoch, committedRoot := x.root, pending := none } →
    exec (.vaultCommit p) s = .next
      (u.crownDone [u.planVault r] [.vcommit, .vault r u.vault.st, .vrelease] 0 (leBytes 4 x.epoch)).onward) ∧
  (∀ (s : State) (p : Post) (g : Got) (u : State) (d : Desc) (h data : Bytes) (r : VRecord)
    (v : Tab Nat → Tab VEntry → State),
    s.Starts .vaultImport p g → u = s.atUnit .vaultImport p g → d = postDesc .vaultImport p →
    vaultRefuse u d = none → u.vault.recordTorn = false → u.gather p.env g.1 0 0 128 = .ok h →
    importHeader u d (fit 128 h) = none → u.readAll p.env g.1 = .ok data →
    leField data 5 1 ≠ 3 → (∀ e, leapOf u e = 0) →
    v = (fun nodes entries => (entries.map fun e => (e.1, (0 : Nat))).foldl
      (fun x (q : Nat × Nat) => x.loadPip q.1 q.2)
      { u with vault := { u.vault with
        st := .loading, entries := entries, stored := entries, nodes := nodes, cached := [], l0 := [], flaws := [],
        pip := [], pipZeroed := false, changed := [], changedExp := [], written := [], writtenExp := [],
        lastExport := none } }) →
    r = { u.vault.record with openEpoch := u.vault.record.openEpoch + 1, sealedF := false, pending := none } →
    exec (.vaultImport p) s = .next
      (match checkImage (u.vault.vek.getD []) (u.vault.vmk.getD []) data with
        | some (nodes, entries) =>
          (((v nodes entries).bump 18 7 (leField data 24 8)).crownDone [(v nodes entries).planVault r]
            [.vault r .active, .vrelease] 0
            (leBytes 4 (leField data 12 4) ++ leBytes 4 (entries.filter fun e => e.2.st != .empty).length ++
              leBytes 4 0)).onward
        | none => (u.crownFail { status := .vaultIntegrity, step := 8 }).onward)) ∧
  (∀ (s : State) (p : Post) (g : Got) (u v : State) (d : Desc) (b : Bytes) (re : Bool) (r : VRecord),
    s.Starts .vaultMoveOpen p g → u = s.atUnit .vaultMoveOpen p g → d = postDesc .vaultMoveOpen p →
    vaultRefuse u d = none → u.vault.recordTorn = false → u.draw 0 8 false = .ok b re v →
    r = { v.vault.record with moveNonce := BitVec.ofNat 64 (leNat b), domainId := v.keys.domainId } →
    exec (.vaultMoveOpen p) s = .next (v.crownDone [v.planVault r] [.vault r .none] 0 (fit 8 b)).onward)

/-! Captures and strands (chapter 10). -/

/-- A capture whose checks of orders 1 to 8 pass takes a place of its stream, reserves its archive key, marks its
hallmark, and becomes a message that fetches the endpoint key. `STRAND_SETUP` with usable signing slots takes effect
once no capture holds a place of the stream; `STRAND_COLLECT` of an owner waits its turn; `STRAND_CLOSE` of the open
strand closes it with cause 3; with none open, number 0 or a number never opened completes at once, and a number that
has closed gives `STRAND_CLOSED`. It rests on choices of the model too (log entries 11, 22 and 52). -/
def Obligations.CaptureAndStrandPosts : Prop :=
  (∀ (s : State) (p : Post) (g : Got) (u v : State) (d : Desc) (f : Nat) (h : Bytes) (c : CapSt),
     s.Starts .capture p g → u = s.atUnit .capture p g → d = postDesc .capture p →
     (u.stream d.stream).setup = none → capRefuse u p.ring d = none → u.reservePlace d.stream = some v →
     u.pickFacet 1 (capB d) 512 = some f → u.gather p.env g.1 0 0 64 = .ok h → headerOk d h = true →
     c = capInit d h g.2.2 → c.startSector + unitCount (capB d) c.sectorSize ≤ 2 ^ 128 →
     exec (.capture p) s = .next
       ((((match c.hm with
           | some x => v.mark x s.hif.nextSeq
           | none => v).reserve (handleIndex c.archive.toNat)).modRing p.ring fun x =>
             x.setPhase s.hif.nextSeq .active).addMsg f
         { id := 0, ring := p.ring, seq := s.hif.nextSeq, chain := none, cls := u.servedClass p.ring d,
           clsNow := u.workClass p.ring s.hif.nextSeq,
           kind := .capture { c with gddr := ((u.stagePlan f (capB d) 512).getD (0, 0)).2 != 0 },
           st := .fetching, ins := g.1, outs := g.2.1, inLen := d.declLen.toNat, pos := 0, outPos := 0, first := true,
           staged := [], held := true, onChip := ((u.stagePlan f (capB d) 512).getD (0, 0)).1,
           gddrBytes := ((u.stagePlan f (capB d) 512).getD (0, 0)).2, param := 0, aborted := false }).onward) ∧
  (∀ (s : State) (p : Post) (g : Got) (u : State) (d : Desc),
    s.Starts .strandSetup p g → u = s.atUnit .strandSetup p g → d = postDesc .strandSetup p →
    (u.stream (d.fld 16 1)).setup = none →
    (bitOf (d.fld 17 1) 0 = true → strandSlot u (d.fld 24 4) 0x11 = none) →
    (bitOf (d.fld 17 1) 1 = true → strandSlot u (d.fld 28 4) 0x20 = none) →
    exec (.strandSetup p) s = .next
      (((u.modRing p.ring fun x => x.setPhase s.hif.nextSeq .active).modStream (d.fld 16 1) fun x =>
        { x with setup := some (p.ring.val, s.hif.nextSeq) }).setupGo (d.fld 16 1)).onward) ∧
  (∀ (s : State) (p : Post) (g : Got) (u : State) (d : Desc),
    s.Starts .strandCollect p g → u = s.atUnit .strandCollect p g → d = postDesc .strandCollect p →
    (u.stream (d.fld 16 1)).owner.getLsbD (fnOf p.ring) = true →
    (u.stream (d.fld 16 1)).recordLen ≤ extsLen g.2.1 → (u.stream (d.fld 16 1)).collects.length < 64 →
    exec (.strandCollect p) s = .next
      ((u.keepGot p.ring s.hif.nextSeq g).modStream (d.fld 16 1) fun y =>
        { y with collects := y.collects ++ [(p.ring.val, s.hif.nextSeq)] }).strandsGo.onward) ∧
  (∀ (s : State) (p : Post) (g : Got) (u : State) (d : Desc),
    s.Starts .strandClose p g → u = s.atUnit .strandClose p g → d = postDesc .strandClose p →
    (∀ x, u.openStrand (d.fld 16 1) = some x → (d.fld 20 4 = 0 ∨ d.fld 20 4 = x.id.toNat) →
      exec (.strandClose p) s = .next
        (((u.modRing p.ring fun y => y.setPhase s.hif.nextSeq .active).modStream (d.fld 16 1) fun y =>
          { y with closers := y.closers ++ [(p.ring.val, s.hif.nextSeq)] }).askClose (d.fld 16 1) 3).onward) ∧
    (u.openStrand (d.fld 16 1) = none → d.fld 20 4 = 0 ∨ (u.stream (d.fld 16 1)).counter.toNat < d.fld 20 4 →
      exec (.strandClose p) s = .next (u.finishDone p.ring s.hif.nextSeq d 0 []).onward) ∧
    (u.openStrand (d.fld 16 1) = none → d.fld 20 4 ≠ 0 → d.fld 20 4 ≤ (u.stream (d.fld 16 1)).counter.toNat →
      exec (.strandClose p) s = .next
        (u.finishBad p.ring s.hif.nextSeq d { status := .strandClosed, step := 8 }).onward))

/-! Applets (chapter 11). -/

/-- `APPLET_INVOKE` that is permitted waits for a move engine with its budget, 100,000 units where it names none;
`APPLET_INSTALL` of a well-formed image asks for its ECDSA verification; `APPLET_REMOVE` waits until the slot is free;
the first `APPLET_SIGNER`, of an ECDSA key alone, is committed if the key is valid, and a later one asks for its
verification. It rests on choices of the model too (log entries 11 and 42). -/
def Obligations.AppletPosts : Prop :=
  (∀ (s : State) (p : Post) (g : Got) (u w : State) (d : Desc),
    s.Starts .appletInvoke p g → u = s.atUnit .appletInvoke p g → d = postDesc .appletInvoke p →
    d.declLen.toNat ≤ 16384 → u.applets.invokeEn = true → (u.app (d.fld 16 1)).kind 0 = true →
    (u.app (d.fld 16 1)).waiting = none → (u.app (d.fld 16 1)).owner.getLsbD (fnOf p.ring) = true →
    w = u.keepGot p.ring s.hif.nextSeq g →
    exec (.appletInvoke p) s = .next
      ({ w with applets := { w.applets with waiting := w.applets.waiting ++
        [{ kind := .invoke p.ring s.hif.nextSeq, slot := d.fld 16 1, ring := p.ring, fn := fnOf p.ring,
           cls := u.workClass p.ring s.hif.nextSeq, declLen := d.declLen.toNat, arg := BitVec.ofNat 64 (d.fld 24 8),
           budget := if d.fld 20 4 = 0 then 100000 else d.fld 20 4 }] } } : State).onward) ∧
  (∀ (s : State) (p : Post) (g : Got) (u : State) (d : Desc) (img : Bytes),
    s.Starts .appletInstall p g → u = s.atUnit .appletInstall p g → d = postDesc .appletInstall p →
    u.readAll p.env g.1 = .ok img → imageBad d img = none → (u.app (d.fld 16 1)).st = .empty →
    u.applets.gen ≠ 0 → (u.applets.signerMl = [] ∨ bitOf (leField img 5 1) 1 = true) →
    exec (.appletInstall p) s = .next ((u.crownKeep (g.1, g.2.1, img)).askCrown false 0x02).onward) ∧
  (∀ (s : State) (p : Post) (g : Got) (u : State) (d : Desc) (j : Journal),
    s.Starts .appletRemove p g → u = s.atUnit .appletRemove p g → d = postDesc .appletRemove p →
    u.crowns.journal = some j → (u.app (d.fld 16 1)).st ≠ .empty →
    exec (.appletRemove p) s = .next
      (((u.setApp (d.fld 16 1) { u.app (d.fld 16 1) with waiting := some ⟨j.ring, j.seq, true, [], [], [], 0⟩ }).crownWait
        .hold).appGo).onward) ∧
  (∀ (s : State) (p : Post) (g : Got) (u : State) (d : Desc) (b : Bytes),
    s.Starts .appletSigner p g → u = s.atUnit .appletSigner p g → d = postDesc .appletSigner p →
    u.readAll p.env g.1 = .ok b → (signerKeys d b).2 = [] →
    (u.applets.gen = 0 → exec (.appletSigner p) s = .next (if pubValid 0x02 (signerKeys d b).1
      then u.crownDone [u.planRec (.sys 0x08 0) 0x08 (signerBytes (u.applets.gen + 1) (signerKeys d b).1 [])]
        [.signer (u.applets.gen + 1) (signerKeys d b).1 []] 0 (leBytes 4 (u.applets.gen + 1).toNat)
      else u.crownFail { status := .signetInput, step := 8 }).onward) ∧
    (u.applets.gen ≠ 0 → exec (.appletSigner p) s = .next (if pubValid 0x02 (signerKeys d b).1
      then (u.crownKeep (g.1, g.2.1, b)).askCrown false 0x02
      else u.crownFail { status := .signetInput, step := 8 }).onward))

/-! Key custody (chapter 4). -/

/-- `KEY_GENERATE` of a symmetric key draws its material from instance 0 and makes it; `KEY_IMPORT` makes the key that
its blob unwraps to, or ends with the status of a blob that does not; both fill the first run of free slots. It rests
on choices of the model too (log entries 11, 15, 49 and 51). -/
def Obligations.KeysMade : Prop :=
  (∀ (s : State) (p : Post) (g : Got) (u v : State) (d : Desc) (b : Bytes) (re : Bool) (n : Nat),
    s.Starts .keyGenerate p g → u = s.atKeys .keyGenerate p g → d = postDesc .keyGenerate p → d.persist = false →
    keyRefuse u d = false → attrOk (d.fld 24 1) (d.fld 28 4) (d.fld 36 4) = true →
    n = matLen (d.fld 24 1) (d.fld 26 2) → typeScheme (d.fld 24 1) = 0 →
    (∃ t, newKey u 1 noParent (descKey d []) = .ok t) → u.draw 0 n false = .ok b re v →
    exec (.keyGenerate p) s = .next (keyMade v d (descKey d b)).onward) ∧
  (∀ (s : State) (p : Post) (g : Got) (u : State) (d : Desc) (blob : Bytes),
    s.Starts .keyImport p g → u = s.atKeys .keyImport p g → d = postDesc .keyImport p → d.persist = false →
    keyRefuse u d = false → u.readAll p.env g.1 = .ok blob → blobOuterOk blob (d.fld 20 4) = true →
    exec (.keyImport p) s = .next (match u.unwrap (d.fld 20 4) 0 blob with
      | (.ok k, v) => (if importMaterialOk k then keyMade v d k
          else v.crownFail { status := .signetInput, step := 8 }).onward
      | (.error e, v) => (v.crownFail { status := e, step := 8 }).onward)) ∧
  (∀ (s : State) (d : Desc) (k : KeyData) (i : Nat) (recs : List RecWrite) (effs : List Eff),
    d.persist = false → newKey s (d.fld 32 4) noParent k = .ok (i, recs, effs) →
    keyMade s d k = s.crownDone recs effs 0 (leBytes 4 (slotHandle i)) ∧
    s.freeRun (slotRun k.type) = some i)

/-- Descriptors on one key: export, destruction, release, lowering of limits, loading, public key, decapsulation, and
the two rungs by command. It rests on choices of the model too (log entries 11, 15, 49 and 63). -/
def Obligations.KeyWork : Prop :=
  (∀ (s : State) (p : Post) (g : Got) (u v : State) (d : Desc) (k : KeyData) (x : Wrapper) (b : Bytes),
    s.Starts .keyExport p g → u = s.atKeys .keyExport p g → d = postDesc .keyExport p → keyRefuse u d = false →
    exportSource u d = .ok k → u.custodyKey (d.fld 20 4) 4 (fun t => t == 1 || t == 2) = .ok x →
    b = wrapBlob x.key (handleClass (d.fld 20 4)) (handleIndex (d.fld 20 4)) k → b.length ≤ extsLen g.2.1 →
    u.chargeWrapper x (blocksOf k.inner.length) = some v →
    exec (.keyExport p) s = .next (v.crownDone [] [.hostWrite g.2.1 b] 0 (zeros 4 ++ leBytes 4 b.length)).onward) ∧
  (∀ (s : State) (p : Post) (g : Got) (u : State) (d : Desc) (i : Nat),
    s.Starts .keyDestroy p g → u = s.atKeys .keyDestroy p g → d = postDesc .keyDestroy p → keyRefuse u d = false →
    handleClass (d.fld 16 4) ≠ 2 → i = handleIndex (d.fld 16 4) → slotReach (u.slot i) 0 = none →
    ((u.slot i).reservedBy = 0 → exec (.keyDestroy p) s = .next
      (u.crownDone [] ((List.range (1 + (u.slot i).extCount)).map fun j =>
        .slot (i + j) ((u.eraseRun i).slot (i + j))) 0 []).onward) ∧
    ((u.slot i).reservedBy ≠ 0 → exec (.keyDestroy p) s = .next
      (u.crownAnswer .contextBusy (leBytes 2 (u.slot i).reservedBy)).onward)) ∧
  (∀ (s : State) (p : Post) (g : Got) (u : State) (d : Desc) (i : Nat),
    s.Starts .keyRelease p g → u = s.atKeys .keyRelease p g → d = postDesc .keyRelease p → keyRefuse u d = false →
    i = handleIndex (d.fld 16 4) → (u.slot i).st = .erased → (u.slot i).type ≠ 0 →
    exec (.keyRelease p) s = .next
      (u.crownDone [] ((List.range (1 + (u.slot i).extCount)).map fun j => .slot (i + j) {}) 0 []).onward) ∧
  (∀ (s : State) (p : Post) (g : Got) (u : State) (d : Desc) (i : Nat),
    s.Starts .keyLimit p g → u = s.atKeys .keyLimit p g → d = postDesc .keyLimit p → keyRefuse u d = false →
    i = handleIndex (d.fld 16 4) → slotReach (u.slot i) 0 = none →
    exec (.keyLimit p) s = .next
      (u.crownDone [] [.slot i ((u.slot i).lower (d.fld 36 4) (d.fld 40 8))] 0 []).onward) ∧
  (∀ (s : State) (p : Post) (g : Got) (u : State) (d : Desc) (i inv blk : Nat) (x : PKey),
    s.Starts .keyLoad p g → u = s.atKeys .keyLoad p g → d = postDesc .keyLoad p → keyRefuse u d = false →
    i = handleIndex (d.fld 16 4) → u.pkey i = some x → x.invsLeft ≠ 0 → x.blocksLeft ≠ 0 →
    x.invsLeft ≠ 0xFFFFFFFF → inv = min (if d.fld 36 4 = 0 then 2 ^ 32 else d.fld 36 4) x.invsLeft →
    blk = min (limitOf (d.fld 40 8)) x.blocksLeft →
    exec (.keyLoad p) s = .next (match u.pkeyData x with
      | none => (u.crownFail { status := .notPermitted, step := 8 }).onward
      | some k => (match newKey u (d.fld 32 4) i { k with invLimit := inv % 2 ^ 32, blockLimit := blk } with
        | .ok (j, recs, effs) => u.crownDone (u.planRec (pkeyName i) 0x03
            { x with blocksLeft := x.blocksLeft - blk, invsLeft := x.invsLeft - inv }.bytes :: recs) effs 0
            (leBytes 4 (slotHandle j))
        | .error e => u.crownFail { status := e, step := 8 }).onward)) ∧
  (∀ (s : State) (p : Post) (g : Got) (u : State) (d : Desc) (t : Nat) (m : Bytes),
    s.Starts .keyPublic p g → u = s.atKeys .keyPublic p g → d = postDesc .keyPublic p → keyRefuse u d = false →
    publicSource u (d.fld 16 4) = .ok (t, m) → typePub t ≤ extsLen g.2.1 →
    exec (.keyPublic p) s = .next
      (u.crownDone [] [.hostWrite g.2.1 (publicOf t m)] 0 (zeros 4 ++ leBytes 4 (typePub t))).onward) ∧
  (∀ (s : State) (p : Post) (g : Got) (u v : State) (d : Desc) (x : Wrapper) (ct : Bytes),
    s.Starts .keyDecapsulate p g → u = s.atKeys .keyDecapsulate p g → d = postDesc .keyDecapsulate p →
    keyRefuse u d = false → attrOk (d.fld 24 1) (d.fld 28 4) (d.fld 36 4) = true →
    u.custodyKey (d.fld 20 4) 6 (fun t => t == 0x21) = .ok x →
    (∃ t, newKey u (d.fld 32 4) noParent (descKey d []) = .ok t) → u.readAll p.env g.1 = .ok ct →
    u.kindServes true = true → u.chargeWrapper x (blocksOf ct.length) = some v →
    exec (.keyDecapsulate p) s = .next
      ((v.crownKeep (g.1, g.2.1, kemDecaps x.key ct)).askCrown true 0x21).onward) ∧
  (∀ x ∈ ([(.keyScrub, .keyScrub), (.keyPurge, .keyPurge)] : List Posted),
    ∀ (s : State) (p : Post) (g : Got) (u v : State) (rung : Nat),
    s.Starts x.1 p g → u = s.atKeys x.1 p g → keyRefuse u (postDesc x.1 p) = false →
    rung = (if x.1 = .keyPurge then 5 else 4) →
    v = (u.modJournal fun j => { j with state := .committed, wait := .clearing }).events
      [(19, BitVec.ofNat 8 rung, 0, some rung)] →
    exec (x.2 p) s = .next (if v.tamper.clearing then v else v.crownDone [] [] 0 []).onward)

/-- Ceremonies: a `RESTORE` is opened without a draw; a share descriptor activates the contact card; a `CREATE` whose
shares are all written sets the domain key; a cancelled ceremony is gone. It rests on choices of the model too (log
entries 11, 47, 49 and 63). -/
def Obligations.CeremonyPosts : Prop :=
  (∀ (s : State) (p : Post) (g : Got) (u : State) (d : Desc) (c : Ceremony),
    s.Starts .cerBegin p g → u = s.atUnit .cerBegin p g → d = postDesc .cerBegin p → cerRefuse u d = false →
    u.keys.ceremony = none → d.fld 16 1 = 1 → cerAllowed 1 u.keys.custody = true →
    c = { purpose := .restore, m := 0, n := 0, devNumber := BitVec.ofNat 8 (d.fld 19 1),
          domainId := BitVec.ofNat 32 (d.fld 20 4), held := [], written := [], key := [], coeffs := [] } →
    exec (.cerBegin p) s = .next (u.crownDone [] [.ceremony (some c)] 0 c.result).onward) ∧
  (∀ (s : State) (p : Post) (g : Got) (u : State) (d : Desc) (c : Ceremony) (j : Journal),
    s.Starts .cerShare p g → u = s.atUnit .cerShare p g → d = postDesc .cerShare p → cerRefuse u d = false →
    u.keys.ceremony = some c → shareServes c d = true → u.crowns.journal = some j → u.tamper.fenceCc = false →
    u.cards.cc.present = true →
    exec (.cerShare p) s = .next (u.activate (jobOf j d (.atr 3)) 3).onward) ∧
  (∀ (s : State) (p : Post) (g : Got) (u : State) (d : Desc) (c : Ceremony),
    s.Starts .cerFinish p g → u = s.atUnit .cerFinish p g → d = postDesc .cerFinish p → cerRefuse u d = false →
    u.keys.ceremony = some c → c.purpose = .create → c.n ≤ c.indices.length →
    exec (.cerFinish p) s = .next
      (u.crownDone [u.planRec domainName 0x02 (u.domainBytes c.devNumber c.domainId c.key true),
          u.planRec domainName 0x02 (u.domainBytes c.devNumber c.domainId c.key false) 1]
        [.custody .ready (some c.key) c.devNumber c.domainId, .ceremony none] 0 c.result).onward) ∧
  (∀ (s : State) (p : Post) (g : Got) (u : State) (d : Desc) (c : Ceremony),
    s.Starts .cerCancel p g → u = s.atUnit .cerCancel p g → d = postDesc .cerCancel p → cerRefuse u d = false →
    u.keys.ceremony = some c →
    exec (.cerCancel p) s = .next (u.crownDone [] [.ceremony none] 0 c.result).onward)

/-! Card ports (chapter 16). -/

/-- Card descriptors of the crown: an SD descriptor with its card identified goes on with it, and else identifies the
card, with CMD0 and CMD8 first, and a writing one samples `SD_WP` once before either; a contact descriptor activates
its card with class C first, with reset low, the supply, reception, the clock and reset high in this order; a port
without its card ends in `CARD_ABSENT`. A command on `SD_CMD` is 48 bits with a CRC7. It rests on choices of the model
too (log entries 11 and 40). -/
def Obligations.CardPosts : Prop :=
  (∀ x ∈ ([(.sdInfo, .sdInfo), (.bundleWrite, .bundleWrite), (.bundleImport, .bundleImport)] : List Posted),
    ∀ (s : State) (p : Post) (g : Got) (u v : State) (d : Desc) (j : Journal),
    s.Starts x.1 p g → u = s.atUnit x.1 p g → d = postDesc x.1 p → u.crowns.journal = some j →
    cardPermit u d = true → u.tamper.fenceSd = false →
    v = (if x.1 = .bundleWrite then u.modJournal fun k => { k with wp := some (k.wp.getD u.cards.sd.wp) } else u) →
    (u.cards.sd.present = true → u.cards.sd.st = .ready →
      exec (x.2 p) s = .next (v.sdReady d (jobOf j d (.rd 0))).onward) ∧
    (u.cards.sd.present = true → u.cards.sd.st ≠ .ready →
      exec (x.2 p) s = .next ((((v.modSd fun y => { y.off with st := .identifying, power := true }).sdCommand 0 0).sdCommand
          8 0x1AA).cardJob (jobOf j d (.ident .cmd8))).onward) ∧
    (u.cards.sd.present = false → exec (x.2 p) s = .next (u.cardFail true .cardAbsent).onward)) ∧
  (∀ x ∈ ([(.ccInfo, .ccInfo), (.ccClear, .ccClear)] : List Posted),
    ∀ (s : State) (p : Post) (g : Got) (u : State) (d : Desc) (j : Journal),
    s.Starts x.1 p g → u = s.atUnit x.1 p g → d = postDesc x.1 p → u.crowns.journal = some j →
    cardPermit u d = true → u.tamper.fenceCc = false →
    (u.cards.cc.present = true → exec (x.2 p) s = .next ({ (u.modCc fun c => { c.deactivate with
        cls := 3, rst := true, khz := 100 * c.freq.toNat
        pins := [.rst false, .supply 3, .io true, .clk (100 * c.freq.toNat), .rst true] }).cardJob
        { jobOf j d (.atr 3) with phase := .atr 3, retry := 0, x := {} } with out := { u.out with ccTx := [] } } :
          State).onward) ∧
    (u.cards.cc.present = false → exec (x.2 p) s = .next (u.cardFail false .cardAbsent).onward)) ∧
  (∀ (u : State) (d : Desc) (j : CardJob), d.opcode = Op.sdInfo.code →
    u.sdReady d j = u.cardDone true [] [] (leBytes 8 u.cards.sd.blocks ++ [BitVec.ofNat 8 u.cards.sd.type,
      if u.cards.sd.width4 then 4 else 1, BitVec.ofNat 8 u.cards.sd.clkMhz, if u.cards.sd.wp then 1 else 0])) ∧
  (∀ (u : State) (cmd arg : Nat), cmd < 64 → arg < 2 ^ 32 →
    (u.sdCommand cmd arg).out.sdCmd = some (cmd, BitVec.ofNat 32 arg) ∧
    (u.sdCommand cmd arg).out.sdFrame = BitVec.ofNat 8 (64 + cmd) :: beBytes 4 arg ++
      [BitVec.ofNat 8 (2 * (crc7 (BitVec.ofNat 8 (64 + cmd) :: beBytes 4 arg)).toNat + 1)])

/-! Life cycle and provisioning (chapter 14). -/

/-- Life-cycle descriptors: a permitted transition is recorded as pending, a pending one that no antifuse copy has
begun is cancelled, the first debug key is written, a nonce is drawn and returned, a valid token goes to its
verification, and a grant is revoked. Provisioning: the identity key is drawn once in TEST and asks for an engine; a
chain whose last certificate carries its public key is stored; a patch image is stored in TEST with its hash. It rests
on choices of the model too (log entries 11, 30, 31 and 41). -/
def Obligations.LifeCyclePosts : Prop :=
  (∀ (s : State) (p : Post) (g : Got) (u v : State) (d : Desc) (t : Lcs),
    s.Starts .lcsTransition p g → u = s.atUnit .lcsTransition p g → d = postDesc .lcsTransition p →
    lcsTarget (d.fld 16 1) = some t → u.life.pendingTarget = none →
    v = (if t = .production then u.noteTies [.sys 0x06 0, .sys 0x07 0] else u) →
    (transitionOk v t = true → exec (.lcsTransition p) s = .next
      (v.crownDone [v.planRec lcsName 0x01 (lcsBytes (some t) u.life.wipe)] [.lcs (some t) u.life.wipe] 0
        (leBytes 4 t.code.toNat)).onward) ∧
    (transitionOk v t = false →
      exec (.lcsTransition p) s = .next (v.crownFail { status := .notPermitted, step := 8 }).onward)) ∧
  (∀ (s : State) (p : Post) (g : Got) (u : State) (t : Lcs),
    s.Starts .lcsCancel p g → u = s.atUnit .lcsCancel p g → u.life.pendingTarget = some t → u.life.wipe = false →
    lcsBegun u t = false →
    exec (.lcsCancel p) s = .next
      (u.crownDone [u.planRec lcsName 0x01 (lcsBytes none false)] [.lcs none false] 0
        (leBytes 4 u.lcs.code.toNat)).onward) ∧
  (∀ (s : State) (p : Post) (g : Got) (u : State) (d : Desc) (b : Bytes),
    s.Starts .lcsDebugKey p g → u = s.atUnit .lcsDebugKey p g → d = postDesc .lcsDebugKey p →
    u.readAll p.env g.1 = .ok b →
    (u.life.debugGen = 0 → (u.lcs = .test ∨ u.lcs = .production) → d.declLen.toNat = 97 →
      exec (.lcsDebugKey p) s = .next (if pubValid 0x02 (b.take 97)
        then u.crownDone [u.planRec (.sys 0x09 0) 0x09 (debugKeyBytes 1 (b.take 97))] [.debugKey 1 (b.take 97)] 0
          (leBytes 4 1)
        else u.crownFail { status := .signetInput, step := 8 }).onward) ∧
    (u.life.debugGen ≠ 0 → d.declLen.toNat = 193 → exec (.lcsDebugKey p) s = .next (if pubValid 0x02 (b.take 97)
      then (u.crownKeep (g.1, g.2.1, b)).askCrown false 0x02
      else u.crownFail { status := .signetInput, step := 8 }).onward)) ∧
  (∀ (s : State) (p : Post) (g : Got) (u v : State) (b : Bytes) (re : Bool),
    s.Starts .lcsDebugNonce p g → u = s.atUnit .lcsDebugNonce p g → u.draw 0 32 false = .ok b re v →
    exec (.lcsDebugNonce p) s = .next
      (v.crownDone [] [.nonce (some b) (u.life.nonceNumber + 1), .hostWrite g.2.1 b] 0
        (leBytes 4 (u.life.nonceNumber + 1))).onward) ∧
  (∀ (s : State) (p : Post) (g : Got) (u : State) (d : Desc) (t : Bytes),
    s.Starts .lcsDebugGrant p g → u = s.atUnit .lcsDebugGrant p g → d = postDesc .lcsDebugGrant p →
    u.lcs = .production → u.life.debugGen ≠ 0 → d.declLen = 160 → u.readAll p.env g.1 = .ok t → tokenOk t = true →
    u.life.idHash = some (slice t 16 16) → u.life.nonce = some (slice t 32 32) →
    exec (.lcsDebugGrant p) s = .next
      ((({ u with life := { u.life with nonce := none } } : State).crownKeep (g.1, g.2.1, t)).askCrown false
        0x02).onward) ∧
  (∀ (s : State) (p : Post) (g : Got) (u : State),
    s.Starts .lcsDebugRevoke p g → u = s.atUnit .lcsDebugRevoke p g →
    exec (.lcsDebugRevoke p) s = .next
      (u.crownDone [] [.grant none] 0 (leBytes 2 ((u.grantNow.map fun g => g.scope.toNat).getD 0))).onward) ∧
  (∀ (s : State) (p : Post) (g : Got) (u v : State) (b : Bytes) (re : Bool),
    s.Starts .provIdkey p g → u = s.atUnit .provIdkey p g → u.lcs = .test → u.life.idKey = none →
    u.battery.drk.isSome = true → u.draw 0 48 false = .ok b re v →
    exec (.provIdkey p) s = .next ((v.crownKeep (g.1, g.2.1, b)).askCrown false 0x02).onward) ∧
  (∀ (s : State) (p : Post) (g : Got) (u : State) (d : Desc) (k b : Bytes) (l : List Bytes),
    s.Starts .provCert p g → u = s.atUnit .provCert p g → d = postDesc .provCert p →
    u.lcs = (if d.fld 16 1 = 0 then .test else .production) → u.life.idKey = some k →
    u.readAll p.env g.1 = .ok b → chainCerts b = some l →
    exec (.provCert p) s = .next (if (l.getLast?).bind certKey = some (idPublic k)
      then u.crownDone [u.planRec (.sys 0x06 (d.fld 16 1)) 0x06 b] [] 0 (leBytes 4 b.length)
      else u.crownFail { status := .notPermitted, step := 8 }).onward) ∧
  (∀ (s : State) (p : Post) (g : Got) (u : State) (b : Bytes),
    s.Starts .provPatch p g → u = s.atUnit .provPatch p g → u.lcs = .test → u.readAll p.env g.1 = .ok b →
    exec (.provPatch p) s = .next
      (u.crownDone [u.planRec (.sys 0x07 0) 0x07 (b ++ sha384 b)] [] 0 (b.take 4)).onward)

/-! Crown descriptors and Keeper records (chapters 12 and 15). -/

/-- `CROWN_SWAP` with a standby that can take over commits its entry and takes over with cause 4, and else is not
permitted; `CROWN_REJOIN` of a crown that is out or unfit starts its self-test; `NVM_READ` returns what its record
holds; `NVM_WRITE` outside the protected quarters commits a record write; `NVM_SCAN` asks for a rewrite of every weak
user page. It rests on choices of the model too (log entries 11 and 28). -/
def Obligations.CrownAndRecordPosts : Prop :=
  (∀ (s : State) (p : Post) (g : Got) (u : State), s.Starts .crownSwap p g → u = s.atUnit .crownSwap p g →
    (u.takeOk = true → exec (.crownSwap p) s = .next
      ((u.modJournal fun j => { j with state := .committed }).takeOver 4 p.env).onward) ∧
    (u.takeOk = false → exec (.crownSwap p) s = .next
      (u.crownFail { status := .notPermitted, step := 8 }).onward)) ∧
  (∀ (s : State) (p : Post) (g : Got) (u : State), s.Starts .crownRejoin p g → u = s.atUnit .crownRejoin p g →
    (u.otherCrown.st = .out ∨ u.otherCrown.st = .unfit) →
    exec (.crownRejoin p) s = .next ((u.rejoin (!u.crowns.activeB)).crownAnswer .done
      ((u.rejoin (!u.crowns.activeB)).swapResult 1)).onward) ∧
  (∀ (s : State) (p : Post) (g : Got) (u v : State) (d : Desc) (r : RecRead),
    s.Starts .nvmRead p g → u = s.atUnit .nvmRead p g → d = postDesc .nvmRead p →
    u.readRec (.user (d.fld 16 2)) = (r, v) →
    (r.st = .held → exec (.nvmRead p) s = .next (v.crownDone [] [.hostWrite g.2.1 r.payload] 0
      (nvmResult (d.fld 16 2) r.type (rstate u.nvm (.user (d.fld 16 2)) r) r.payload.length r.seq r.claim)).onward) ∧
    (r.st = .never → exec (.nvmRead p) s = .next (v.crownDone [] [] 0
      (nvmResult (d.fld 16 2) 0 (rstate u.nvm (.user (d.fld 16 2)) r) 0 0 0)).onward) ∧
    (r.st = .torn → exec (.nvmRead p) s = .next (v.crownFail { status := .nvmTorn, step := 8 }).onward)) ∧
  (∀ (s : State) (p : Post) (g : Got) (u : State) (d : Desc) (b : Bytes) (w : RecWrite),
    s.Starts .nvmWrite p g → u = s.atUnit .nvmWrite p g → d = postDesc .nvmWrite p →
    u.nvm.protects (d.fld 16 2) = false → u.readAll p.env g.1 = .ok b →
    w = u.planRec (.user (d.fld 16 2)) (BitVec.ofNat 8 (d.fld 18 1)) b →
    exec (.nvmWrite p) s = .next
      (u.crownDone [w] [] 0 (nvmResult (d.fld 16 2) 0 0 0 w.seq u.claim)).onward) ∧
  (∀ (s : State) (p : Post) (g : Got) (u v : State) (n : Nvm) (l : List Nat),
    s.Starts .nvmScan p g → u = s.atUnit .nvmScan p g → u.nvm.scanning = false → u.nvm.recalling = false →
    n = { u.nvm with weak := u.nvm.weak ++
      (p.env.weak.filter fun q => 16384 ≤ q ∧ q < 32768 ∧ q ∉ u.nvm.weak).dedup } →
    l = n.weak.filter (fun q => 16384 ≤ q) →
    v = u.noteTies (l.filterMap fun q => (recOfPage ((n.logical q).getD q)).map (·.1)) →
    exec (.nvmScan p) s = .next
      ((({ v with nvm := { v.nvm with
          weak := n.weak, scanWorn := false, scanning := true, weakCount := n.countWeak, scanFound := l.length, scanDone := 0, scanMoved := 0 } } :
          State).crownWait .nvm).askPages (l.map fun q =>
            ⟨5, (n.logical q).getD q, u.refreshed ((n.logical q).getD q), .refresh false⟩)).scanGo.onward)

/-! Engines and the entropy source (chapters 6 and 7). -/

/-- A free engine takes its kind's next request, reads a descriptor's input, draws and charges, and is busy with it;
at its end a verification completes with its verdict, or with `SIGNET_INPUT` for an invalid public key, and a
signature is written and completes, an RSA signature only where it passes its check with the public exponent. The
operation of a descriptor that its ring's abort has overtaken runs to its end, and its checks are flagged all the
same. It rests on choices of the model too (log entries 42 and 51). -/
def Obligations.EngineTurns : Prop :=
  (∀ (s u : State) (n : Fin 12) (env : Env) (q : SigReq),
    s.freeEngine (latticeEngine n) = some n.val → s.nextRequest (latticeEngine n) = some q →
    u = (s.hostStores env).takeRequest q →
    ((∀ r k, q.client ≠ .desc r k) → exec (.engineStart n env) s = .next (u.engineBegin n q).strandsGo.onward) ∧
    (∀ r k w b, q.client = .desc r k → (u.ring r).find k = some w →
      u.readAll env (w.got.getD ([], [], [])).1 = .ok b →
      exec (.engineStart n env) s = .next (u.engineBegin n { q with
        input := if w.desc.is .sigQuote then quoteBytes u w.desc b else b }).strandsGo.onward)) ∧
  (∀ (u v : State) (n : Nat) (q : SigReq), u.drawNeed q = 0 → q.charged = false →
    u.chargeRequest q = (v, true) →
    u.engineBegin n q = v.setEngine n { v.engine n with busy := some { q with rnd := [] } }) ∧
  (∀ (s s1 u : State) (n : Fin 12) (env : Env) (fails : Bool) (q : SigReq) (r k : Nat) (w : Work),
    (s.engine n).busy = some q → q.client = .desc r k → DrawWait.engine n.val ∉ s.signet.waits →
    s1 = s.hostStores env → u = (s1.setEngine n { s1.engine n with busy := none }).bump 17 n 1 →
    (u.ring r).find k = some w → u.ringAborted r = false →
    (∀ c pub sig rest v, w.desc.is .sigVerify = true → c = w.desc.fld 20 1 → pub = q.input.take (schemePub c) →
      sig = slice q.input (schemePub c) (schemeSig c) → rest = q.input.drop (schemePub c + schemeSig c) →
      v = sigVerdict (comparands c (w.desc.fld 21 1) (w.desc.sctl % 4) pub sig (rest.take (w.desc.fld 23 1))
        (rest.drop (w.desc.fld 23 1))) env.raw →
      exec (.engineOpDone n env fails) s = .next (if pubValid c pub then
          (((if v = 0x3CC3 ∨ v = 0xC33C then u else u.setEngine n { u.engine n with verdictFault := true }).finish r k
            (cplOf w.desc (if v = 0x3CC3 then .done else .signatureBad) 0
              (leBytes 2 (if v = 0x3CC3 then 0x3CC3 else 0xC33C) ++ zeros 2 ++ leBytes 2 v.toNat))).verdict v)
        else u.finishBad r k w.desc { status := .signetInput, step := 8 }).strandsGo.onward) ∧
    (∀ sig, w.desc.is .sigVerify = false → sigOf s1 w.desc q = some sig →
      (isRsa (w.desc.fld 20 1) = false ∨ (fails = false ∧
        sigVerdict (comparands (w.desc.fld 20 1) (w.desc.fld 21 1) (w.desc.sctl % 4)
          (rsaPublic (schemeSig (w.desc.fld 20 1)) (u.material (handleIndex (w.desc.fld 16 4)))) sig []
          (q.input.drop (if w.desc.is .sigSign then w.desc.fld 23 1 else 0))) none = 0x3CC3)) →
      exec (.engineOpDone n env fails) s = .next
        (((u.emit r false (w.got.getD ([], [], [])).1 (w.got.getD ([], [], [])).2.1 0
            (if w.desc.is .sigQuote then q.input ++ sig else sig)).sigGiveBack w.desc).finish r k
          (cplOf w.desc .done 0 (if w.desc.is .sigQuote then leBytes 2 q.input.length ++ leBytes 2 sig.length
            else leBytes 2 sig.length))).strandsGo.onward) ∧
    (∀ sig, w.desc.is .sigVerify = false → sigOf s1 w.desc q = some sig →
      isRsa (w.desc.fld 20 1) = true → (fails = true ∨
        sigVerdict (comparands (w.desc.fld 20 1) (w.desc.fld 21 1) (w.desc.sctl % 4)
          (rsaPublic (schemeSig (w.desc.fld 20 1)) (u.material (handleIndex (w.desc.fld 16 4)))) sig []
          (q.input.drop (if w.desc.is .sigSign then w.desc.fld 23 1 else 0))) none ≠ 0x3CC3) →
      exec (.engineOpDone n env fails) s = .next
        ((((u.setEngine n { u.engine n with signCheck := true }).sigGiveBack w.desc).finish r k
          (cplOf w.desc .signatureBad 0 (leBytes 2 0xC33C ++ zeros 2 ++ leBytes 2 0xC33C))).busIntegrity).strandsGo.onward) ∧
    (w.desc.is .sigVerify = false → sigOf s1 w.desc q = none →
      exec (.engineOpDone n env fails) s = .next (s1.engineBegin n { q with rnd := [], charged := true }))) ∧
  (∀ (s s1 u : State) (n : Fin 12) (env : Env) (fails : Bool) (q : SigReq) (r k : Nat) (w : Work) (sig : Bytes),
    (s.engine n).busy = some q → q.client = .desc r k → DrawWait.engine n.val ∉ s.signet.waits →
    s1 = s.hostStores env → s1.signatureOf q = some sig →
    u = ((s1.setEngine n { s1.engine n with busy := none }).bump 17 n 1).opLost n q sig env.raw fails →
    (s1.ring r).find k = some w → s1.ringAborted r = true →
    exec (.engineOpDone n env fails) s = .next
      ((u.sigGiveBack w.desc).finishBad r k w.desc { status := .aborted, step := 8 }).strandsGo.onward) ∧
  (∀ (u : State) (n : Nat) (q : SigReq) (d : Desc) (sig : Bytes) (raw : Option (BitVec 16)) (fails : Bool),
    q.desc = some d →
    (d.is .sigVerify = true → pubValid (d.fld 20 1) (q.input.take (schemePub (d.fld 20 1))) = true →
      verifyWord d q raw ≠ 0x3CC3 → verifyWord d q raw ≠ 0xC33C → u.opLost n q sig raw fails =
        (u.setEngine n { u.engine n with verdictFault := true }).busIntegrity) ∧
    (d.is .sigVerify = false → rsaBad u d q sig fails = true → u.opLost n q sig raw fails =
      (u.setEngine n { u.engine n with signCheck := true }).busIntegrity) ∧
    (d.is .sigVerify = false → rsaBad u d q sig fails = false → u.opLost n q sig raw fails = u)) ∧
  (∀ (s s1 u : State) (n : Fin 12) (env : Env) (fails : Bool) (q : SigReq) (j : Journal) (d : Desc) (got : Got),
    (s.engine n).busy = some q → q.client = .crown j.number → DrawWait.engine n.val ∉ s.signet.waits →
    s1 = s.hostStores env → u = (s1.setEngine n { s1.engine n with busy := none }).bump 17 n 1 →
    u.crownDesc = some (j, d, got) → j.wait = .engine →
    (d.opcode = Op.keyGenerate.code → madeOk (d.fld 24 1) got.2.2 = true → exec (.engineOpDone n env fails) s =
      .next (keyMade u d (descKey d got.2.2)).strandsGo.onward) ∧
    (d.opcode = Op.keyGenerate.code → madeOk (d.fld 24 1) got.2.2 = false → exec (.engineOpDone n env fails) s =
      .next (keyGenerate u d got).strandsGo.onward) ∧
    (d.opcode = Op.keyDecapsulate.code → exec (.engineOpDone n env fails) s =
      .next (keyMade u d (descKey d got.2.2)).strandsGo.onward) ∧
    (d.opcode = Op.provIdkey.code → curve384.scalarOk got.2.2 = true → exec (.engineOpDone n env fails) s =
      .next (u.crownDone [u.planRec (.sys 0x04 0) 0x04
          (wrapBlob (u.battery.drk.getD []) 0 0 ⟨0x11, 0, 0, 0, 0, got.2.2⟩)]
        [.idKey got.2.2, .hostWrite got.2.1 (idPublic got.2.2)] 0
        ((sha384 (idPublic got.2.2)).take 16)).strandsGo.onward) ∧
    (d.opcode = Op.provIdkey.code → curve384.scalarOk got.2.2 = false → exec (.engineOpDone n env fails) s =
      .next (provIdkey u got).strandsGo.onward) ∧
    (∀ v, d.opcode ∉ [Op.keyGenerate.code, Op.keyDecapsulate.code, Op.provIdkey.code] →
      v = sigVerdict (comparands (u.crownVerify j d got.2.2).1
        (if (u.crownVerify j d got.2.2).1 = 0x20 then 0 else 2) 0 (u.crownVerify j d got.2.2).2.1
        (u.crownVerify j d got.2.2).2.2.1 [] (u.crownVerify j d got.2.2).2.2.2) none → env.raw = none →
      exec (.engineOpDone n env fails) s = .next
        (if v = 0x3CC3 then u.crownVerified j d got.2.2 env
         else if d.opcode = Op.lcsDebugGrant.code then u.grantRefuse { status := .signatureBad, step := 8 }
         else u.crownFail { status := .signatureBad, step := 8 }).strandsGo.onward))

/-- A request for random data that has waited too long ends with `ENTROPY_FAIL`, and a charge that its operation had
made before it drew again is taken back; a conditioned block joins the pool, up to 16, and the requests that wait are
then served. The entropy source: a health failure while it runs restarts it, calls for a reseed of every instance and
raises monitor 15; its start-up test ends the settling; three failed tests in a row fail the source; a restart and a
reading of raw samples are the PF's, the latter in `TEST` only. It rests on choices of the model too (log entries 42
and 55). -/
def Obligations.EntropyUnit : Prop :=
  (∀ (s : State) (i : Fin 4) (r k : Nat),
    (s.signet.waits.find? fun w => w.inst == i.val) = some (.random r k) →
    exec (.reseedWaitTimeout i) s = .next
      (((s.unwait (.random r k)).drawFail i).failWork r k { status := .entropyFail, step := 8 }).onward) ∧
  (∀ (s v : State) (i : Fin 4) (w : DrawWait), (s.signet.waits.find? fun w => w.inst == i.val) = some w →
    v = (s.unwait w).drawFail i →
    (∀ n j, w = .crown n → v.crowns.journal = some j → exec (.reseedWaitTimeout i) s = .next
      (if j.number = n ∧ j.wait = .draw then v.crownFail { status := .entropyFail, step := 8 } else v).onward) ∧
    (w = .spdm → exec (.reseedWaitTimeout i) s = .next (v.spdmError 0x05).onward) ∧
    (w = .drk → exec (.reseedWaitTimeout i) s = .next v.drkFail.keysGo.onward) ∧
    (w = .inst3 → exec (.reseedWaitTimeout i) s = .next (v.waitFor .inst3).onward) ∧
    (∀ n q, w = .engine n → (v.engine n).busy = some q → exec (.reseedWaitTimeout i) s = .next
      ((v.setEngine n { v.engine n with busy := none }).noRandom q).onward)) ∧
  (∀ (u : State) (q : SigReq) (r k : Nat) (d : Desc), q.client = .desc r k → u.descOf r k = some d →
    u.noRandom q = ((if q.charged = true then u.modSlot (handleIndex (d.fld 16 4))
        fun x => x.uncharge 1 (blocksOf (signedLen d)) else u).sigGiveBack d).finishBad r k d
      { status := .entropyFail, step := 8 }) ∧
  (∀ (x : KeySlot) (b : Nat), x.mayCharge 1 b = true → x.invCount < 2 ^ 32 → (x.charge 1 b).uncharge 1 b = x) ∧
  (∀ (s t : State) (b : Bytes), 2 ≤ s.start.stage → s.signet.ent = .running → s.signet.pool.length < 16 →
    s.freshBytes 128 = (b, t) →
    exec .conditionedBlock s = .next
      ({ t with signet := ({ t.signet with pool := t.signet.pool ++ [sha384 b] } : Signet).instantiate s.tick } :
        State).serveWaits.onward) ∧
  (∀ (s : State) (proportion : Bool) (g : Signet) (l : Tab Drbg), 2 ≤ s.start.stage → s.signet.ent = .running →
    g = (s.signet.noteFail (!proportion) proportion).entStart →
    l = (List.range 4).foldl (fun t i => tset {} t i { tget {} t i with reseedReq := true }) g.drbgs →
    exec (.entropyHealthFail proportion) s = .next
      (({ s with signet := { g with drbgs := l } } : State).raise 15 (if proportion then 2 else 1))) ∧
  (∀ s : State, 2 ≤ s.start.stage → s.signet.ent = .startup →
    exec .entropySettleEnd s = .next { s with signet := { s.signet with settling := false } }) ∧
  (∀ (s : State) (rct apt : Bool) (g : Signet), 2 ≤ s.start.stage → s.signet.ent = .startup →
    s.signet.settling = false → g = { s.signet with stepTests := min 15 (s.signet.stepTests + 1) } →
    ((rct = false ∧ apt = false) → exec (.startupTestDone rct apt) s = .next
      ({ s with signet := { g with ent := .running, startupFails := 0 } } : State).onward) ∧
    ((rct = true ∨ apt = true) → s.signet.startupFails < 2 → exec (.startupTestDone rct apt) s = .next
      ((({ s with signet := { g.noteFail rct apt with
        startupFail := true, startupFails := s.signet.startupFails + 1 } } : State).raise 15 3).onward)) ∧
    ((rct = true ∨ apt = true) → 2 ≤ s.signet.startupFails → exec (.startupTestDone rct apt) s = .next
      ((({ s with signet := { g.noteFail rct apt with
        startupFail := true, startupFails := s.signet.startupFails + 1, ent := .failed, pool := [] } } :
          State).raise 15 3).onward))) ∧
  (∀ s : State, 3 ≤ s.start.stage → s.stageBars 0x70010 = false →
    exec (.entCtlRestart 0) s = .next { s with signet := { s.signet with
      ent := .startup, settling := true, startupFails := 0, pool := [] } }) ∧
  (∀ (s t : State) (b : Bytes) (l : List Word32), 3 ≤ s.start.stage → s.lcs = .test → s.freshBytes 64 = (b, t) →
    l = (List.range 16).map (fun k => BitVec.ofNat 32 (leField b (4 * k) 4)) →
    exec (.rawTapRead 0) s = .next { t with
      signet := { t.signet with rawTap := l }, out := { t.out with readData := l.getD 0 0 } }) ∧
  (∀ (s : State) (fn : Fin 32), 3 ≤ s.start.stage → s.fnExists fn = true → s.lcs ≠ .test ∨ fn ≠ 0 → ∃ t,
    exec (.rawTapRead fn) s = .next t ∧ t.out.readData = 0 ∧
      t.viol.kind = (if fn = 0 then 2 else 1) ∧ t.viol.fn = fn.val ∧ t.signet = s.signet) ∧
  (∀ (s : State) (fn : Fin 32), 3 ≤ s.start.stage → s.fnExists fn = true → fn ≠ 0 →
    exec (.entCtlRestart fn) s = .next (s.violation 1 fn true 0x70010)) ∧
  (∀ (s : State) (fn : Fin 32), s.fnExists fn = false →
    exec (.rawTapRead fn) s = .next s ∧ exec (.entCtlRestart fn) s = .next s)

/-! The vault engine and the Pip port (chapters 8 and 9). -/

/-- Events of the vault engine: the last write of a fold pass, the close of an arm batch, the end of its arms, a page
set cleared, an entry rebuilt, the cache flushed, and an endpoint key fetched for a capture; what cannot be read
leaves the pip table as it is, and ends the capture with `VAULT_INTEGRITY`. It rests on choices of the model too (log
entries 39, 50 and 60). -/
def Obligations.VaultEvents : Prop :=
  (∀ (s u v : State) (env : Env), u = s.hostStores env → u.vault.foldBusy = true →
    v = u.vault.fold.foldl (fun a e => a.foldEntry e) u →
    ((∀ f, v.vault.job ≠ some (.exporting f)) → exec (.foldPass env) s = .next
      ({ v with vault := { v.vault with fold := [], foldBusy := false } } : State).vaultGo.onward) ∧
    (∀ f, v.vault.job = some (.exporting f) → exec (.foldPass env) s = .next
      (({ v with vault := { v.vault with fold := [], foldBusy := false } } : State).runExport env f).onward)) ∧
  (∀ (s : State) (k : Nat) (l pages : List Nat), s.vault.batching = true → s.vault.st = .active →
    k = s.vault.record.openEpoch →
    l = (s.vault.arms.filter fun a => a.stage == .gathered).map (·.endpoint) →
    pages = ((l.map (· / 2048)).mergeSort fun a b => decide (a ≤ b)).dedup →
    exec .armBatchClose s = .next
      (({ s with vault := { s.vault with
          batching := false
          arms := s.vault.arms.map fun a => if a.stage = .gathered then { a with stage := .writing } else a } } :
          State).askPages (pages.map fun p =>
        ⟨1, bitmapPage k p, (l.filter fun e => e / 2048 == p).foldl setPageBit (s.pagePlanned (bitmapPage k p)),
          PageKind.arm (k % 16) p⟩)).onward) ∧
  (∀ (s u : State) (k : Nat), k = s.vault.record.openEpoch →
    u = (s.vault.arms.filter fun a => a.stage == .written).foldl (fun x a =>
      let t := if a.endpoint ∈ x.vault.fold then x.tryFold a.endpoint else (x.meetBank a.endpoint, true)
      if t.2 = false then (match a.by_ with
        | some o => t.1.armLost o.1 o.2
        | none => t.1)
      else if t.1.mayArm a.endpoint = true then
        (t.1.setPipe a.endpoint ((t.1.pipe a.endpoint).arm k x.vault.record.lOpen)).bump 18 9 1
      else t.1) s →
    exec .armComplete s = .next
      ({ u with vault := { u.vault with arms := u.vault.arms.filter fun a => a.stage != .written } } :
        State).endArmJobs.onward) ∧
  (∀ (s : State) (a b : List Nat) (set : Nat), s.vault.clearing = a ++ set :: b →
    (∀ k ∈ a, s.setClearing k = true) → s.setClearing set = false → exec .bitmapSetClear s = .next
      (s.askPages ((List.range 512).map fun p =>
        ⟨6, bitmapPage set p, zeros 256, PageKind.clear set (p == 511)⟩)).onward) ∧
  (∀ (s u r : State) (endpoint : BitVec 20) (lineOk : Bool) (e : Nat), e = endpoint.toNat → (s.pipe e).checkErr ≠ 0 →
    s.vault.st ≠ .none → s.vault.st ≠ .moved →
    u = (if lineOk || s.vault.cached.elem e then s else s.flawEntry e).meetBank e →
    (u.readEntry e = (r, true) → ∀ v : State, v = (({ r with vlt := { r.vlt with
        bankChkerr := tmod 0 r.vlt.bankChkerr (e % 16) fun n => min (n + 1) (2 ^ 32 - 1) } } : State).bump 18 8
          1).setPipe e (rebuildPip r.vault.record (r.ventry e)) →
      exec (.pipEntryRebuild endpoint lineOk) s = .next
        (({ v with vault := { v.vault with
            coarseFold := v.vault.coarseFold.filter (fun x => x != e)
            coarseOut := v.vault.coarseOut.filter fun x => x != e } } :
          State).capRetry fun c => c.endpoint == e).onward) ∧
    (u.readEntry e = (r, false) → exec (.pipEntryRebuild endpoint lineOk) s = .next
      (r.capRetry fun c => c.endpoint == e).onward)) ∧
  (∀ (s : State) (e : Nat),
    (tget 0 s.pip.bankAt (e % 16) = s.tick + 1 → s.meetBank e = { s with vlt := { s.vlt with
      bankRetry := tmod 0 s.vlt.bankRetry (e % 16) fun n => min (n + 1) (2 ^ 32 - 1) } }) ∧
    (tget 0 s.pip.bankAt (e % 16) ≠ s.tick + 1 → s.meetBank e = s)) ∧
  (∀ s : State, 3 ≤ s.start.stage → s.stageBars 0x50000 = false → exec (.vaultCtlFlush 0) s = .next
    (((s.vault.entries.filter fun e => e.2.modified).map (·.1)).foldl (fun a e => a.writeBack e) s)) ∧
  (∀ (s u r : State) (f : Fin 16) (id : Nat) (lineOk hit : Bool) (m : Msg) (c : CapSt) (v : VEntry),
    s.msg f id = some m → m.kind = .capture c → m.st = .fetching → c.ekey = [] → s.halted = false →
    (s.vault.st = .active ∨ s.vault.st = .sealed) → hit = s.vault.cached.elem c.endpoint →
    u = (s.bump 18 0 1).bump 18 1 (if hit then 1 else 0) →
    (∀ b, (if lineOk || hit then u else u.flawEntry c.endpoint).readEntry c.endpoint = (r, b) → v = r.ventry c.endpoint →
      (b = false → exec (.vaultKeyFetchDone f id lineOk) s = .next
        (r.endMsg f m { status := .vaultIntegrity, step := 8 }).strandsGo) ∧
      (b = true → v.st = .empty → exec (.vaultKeyFetchDone f id lineOk) s = .next
        (r.endMsg f m { status := .endpointUnknown, step := 8 }).strandsGo) ∧
      (b = true → v.st = .revoked → exec (.vaultKeyFetchDone f id lineOk) s = .next
        (r.endMsg f m { status := .endpointRevoked, step := 8 }).strandsGo) ∧
      (b = true → v.st = .enrolled → v.recCount < v.recLimit → v.blockCount < v.blockLimit →
        ∀ c1 : CapSt, c1 = { c with
          ekey := fit 32 (if v.rekeySeq ≤ c.sequence then v.key else v.prevKey), sha3 := c.sha3 || v.sha3 } →
        exec (.vaultKeyFetchDone f id lineOk) s = .next
          ((r.modMsg f m.id fun y => { y with kind := .capture c1 }).capClaim f { m with kind := .capture c1 }
            c1).strandsGo)))

/-- A request without a fault, in `FULL` mode: `PEEK` changes no entry and answers by the table of R484; `CLAIM`
answers by it and, when it is `FRESH`, moves its entry; `ARM` answers by R494, and gathers the arm when it is
queued; an `ARM` with a sequence is answered as a fault. -/
def Obligations.PipRequests : Prop :=
  ∀ (s s0 : State) (e : BitVec 20) (q : BitVec 40) (t : BitVec 2) (p : PipPins),
    p.noise = 0 → p.chkNoise = 0 → p.strobe = 3 → p.strobeLater = false → s.portMode = .full →
    s0 = ({ s with pip := { s.pip with framed := true } } : State).countRequest →
    (∀ a, a = s.fullAnswer false e.toNat q.toNat →
      exec (.pipPeek e q t p) s = .next ((s0.reachBank e.toNat).answer (pipRequest 0 e q t) a.1 a.2)) ∧
    (∀ a, a = s.fullAnswer true e.toNat q.toNat →
      exec (.pipClaim e q t p) s = .next
        ((if a.1 = 1 then (s0.reachBank e.toNat).setPipe e.toNat ((s.pipe e.toNat).claim q.toNat)
          else s0.reachBank e.toNat).answer (pipRequest 1 e q t) a.1 a.2)) ∧
    (∀ a, a = s.armAnswer e.toNat → q = 0 →
      exec (.pipArm e q t p) s = .next
        ((if a.2 then ((s0.reachBank e.toNat).gatherArm e.toNat none).bump 19 7 1 else s0.reachBank e.toNat).answer
          (pipRequest 2 e q t) a.1.1 a.1.2)) ∧
    (q ≠ 0 → exec (.pipArm e q t p) s = .next ((s0.pipFault 4).answer (pipRequest 2 e q t) 0xE 4))

/-- No sequence is `FRESH` twice: after a claim answered `FRESH`, no request finds that sequence, or any that showed
as seen or stale before, `FRESH` again in its entry, whatever epoch is open. -/
def Obligations.ClaimedOnce : Prop :=
  ∀ (p : PipEntry) (k k' q r : Nat), q < 2 ^ 40 → p.verdict k q = .fresh →
    (p.claim q).verdict k' q ≠ .fresh ∧
    ((p.seen r = true ∨ r + 65 ≤ p.hwm.toNat) → (p.claim q).verdict k' r ≠ .fresh) ∧
    (p.claim q).hwm.toNat = max p.hwm.toNat q

/-- R484, in `FULL` mode and for a request without a fault: the first row of its table that applies decides the
answer to `PEEK` and to `CLAIM`, for every entry, sequence and open epoch; `X` is the epoch limit of R422, and an
entry is armed by R421. -/
def Obligations.VerdictTable : Prop :=
  ∀ (s s0 : State) (e : BitVec 20) (q : BitVec 40) (t : BitVec 2) (p : PipPins) (x : PipEntry) (h S X k : Nat)
    (rows : Nat → Nat × Nat),
    p.noise = 0 → p.chkNoise = 0 → p.strobe = 3 → p.strobeLater = false → s.portMode = .full →
    s0 = (({ s with pip := { s.pip with framed := true } } : State).countRequest).reachBank e.toNat →
    x = s.pipe e.toNat → h = x.hwm.toNat → S = q.toNat → k = s.vault.record.openEpoch →
    X % 32 = 0 → h + 1 ≤ X → X ≤ h + 65536 → X / 32 % 2048 = x.limit.toNat →
    (rows = fun fresh =>
      if x.checkErr ≠ 0 then (6, 20)
      else if x.known = false then (4, 0)
      else if x.revoked = true then (5, 0)
      else if x.coarse = true then (if h < S then (7, 0) else s.deferOut)
      else if S + 65 ≤ h then (3, min (h - S) 1023)
      else if S = h ∨ (S < h ∧ x.window.getLsbD (h - 1 - S) = true) then (2, 0)
      else if ¬(x.armed = true ∧ x.parity = (k % 2 == 1)) ∨ (h < S ∧ X ≤ S) then (6, 0x3FF)
      else (1, fresh)) →
    exec (.pipPeek e q t p) s = .next (s0.answer (pipRequest 0 e q t) (rows (min (X - 1 - S) 1023)).1
      (rows (min (X - 1 - S) 1023)).2) ∧
    (∀ a, a = rows (Config.claimToken s.pip.tk e.toNat S).toNat →
      exec (.pipClaim e q t p) s = .next
        ((if a.1 = 1 then s0.setPipe e.toNat (x.claim S) else s0).answer (pipRequest 1 e q t) a.1 a.2))

/-- Events of the Pip port: an idle cycle takes over the termination and drive settings and drives `DEFER` of hint 0;
a cut-off answer is `DEFER` with hint 0x3FE and is counted, its effect taken or not; `qclk` locks, or loses its lock
and with it the framing; the PF drops the framing and clears the fault counts. It rests on choices of the model too
(log entry 43). -/
def Obligations.PipPortEvents : Prop :=
  (∀ (s u : State) (later : Bool), s.portMode ≠ .dark → s.pip.framed = true →
    u = { s with pip := { s.pip with odtOn := s.pip.odt, driveOn := s.pip.drive } } →
    exec (.pipIdleCycle later) s = .next ((if later then u.frameError else u).drive 0x6000)) ∧
  (∀ (s s0 x : State) (e : BitVec 20) (q : BitVec 40) (t : BitVec 2) (p : PipPins) (took : Bool),
    p.noise = 0 → p.chkNoise = 0 → p.strobe = 3 → p.strobeLater = false → s.portMode = .full →
    s0 = ({ s with pip := { s.pip with framed := true } } : State).countRequest →
    s.fullAnswer true e.toNat q.toNat = (1, (Config.claimToken s.pip.tk e.toNat q.toNat).toNat) →
    x = (if took then (s0.reachBank e.toNat).setPipe e.toNat ((s.pipe e.toNat).claim q.toNat) else s0) →
    s.pip.late ≠ BitVec.allOnes 32 →
    exec (.pipAnswerCutoff (pipRequest 1 e q t) p took) s = .next
      ((({ x with pip := { x.pip with late := s.pip.late + 1 } } : State).bump 19 1 1).answer (pipRequest 1 e q t) 6
        0x3FE)) ∧
  (∀ s : State, exec (.qclkLock true) s = .next { s with pip := { s.pip with locked := true } } ∧
    exec (.qclkLock false) s = .next
      { s with pip := { s.pip with locked := false, framed := false, answer := none } }) ∧
  (∀ s : State, 3 ≤ s.start.stage → s.stageBars 0x60000 = false →
    exec (.pipReframe 0) s = .next { s with pip := { s.pip with framed := false } } ∧
    exec (.clrFault 0) s = .next
      { s with pip := { s.pip with frameErr := 0, strobeErr := 0, opErr := 0, parityErr := 0 } })

/-- R486: a `PEEK` as received never changes the pip table, and a `CLAIM` whose answer is not `FRESH` leaves it
unchanged. -/
def Obligations.PeekKeepsTable : Prop :=
  ∀ (s u : State) (e : BitVec 20) (q : BitVec 40) (t : BitVec 2) (p : PipPins),
    (exec (.pipPeek e q t p) s = .next u → reqOp (pipRequest 0 e q t ^^^ p.noise) = 0 →
      u.vault.pip = s.vault.pip) ∧
    (exec (.pipClaim e q t p) s = .next u → reqOp (pipRequest 1 e q t ^^^ p.noise) = 1 →
      (∀ w, u.pip.answer = some w → w.1.toNat / 4096 ≠ 1) → u.vault.pip = s.vault.pip)

/-! Moves (chapter 11). In these statements the engine stands at the move (`State.AtMove`, Safety.lean). -/

/-- The moves that compute into register `d`, each with its result and its one unit; the next move is then reached,
or past the last one the invocation faults with code 0x0D. Division by a register that is not zero; by zero the
invocation faults with code 0x03. An engine whose invocation the move's own alarm ended moves no further. -/
def Obligations.MoveArithmetic : Prop :=
  (∀ (s : State) (e : Fin 4) (d a b : Fin 16) (imm : Word32),
    s.MoveGives e (.moveAdd e d a b) (fun _ => 1) (fun x => x.setReg d (x.reg a + x.reg b)) ∧
    s.MoveGives e (.moveSub e d a b) (fun _ => 1) (fun x => x.setReg d (x.reg a - x.reg b)) ∧
    s.MoveGives e (.moveMul e d a b) (fun _ => 1) (fun x => x.setReg d (x.reg a * x.reg b)) ∧
    s.MoveGives e (.moveAnd e d a b) (fun _ => 1) (fun x => x.setReg d (x.reg a &&& x.reg b)) ∧
    s.MoveGives e (.moveOr e d a b) (fun _ => 1) (fun x => x.setReg d (x.reg a ||| x.reg b)) ∧
    s.MoveGives e (.moveXor e d a b) (fun _ => 1) (fun x => x.setReg d (x.reg a ^^^ x.reg b)) ∧
    s.MoveGives e (.moveShl e d a b) (fun _ => 1) (fun x => x.setReg d (x.reg a <<< ((x.reg b).toNat % 64))) ∧
    s.MoveGives e (.moveShr e d a b) (fun _ => 1) (fun x => x.setReg d (x.reg a >>> ((x.reg b).toNat % 64))) ∧
    s.MoveGives e (.moveAddi e d a imm) (fun _ => 1) (fun x => x.setReg d (x.reg a + imm.signExtend 64)) ∧
    s.MoveGives e (.moveLdi e d imm) (fun _ => 1) (fun x => x.setReg d (imm.setWidth 64)) ∧
    s.MoveGives e (.moveLdih e d imm) (fun _ => 1)
      (fun x => x.setReg d (imm ++ (x.reg d).setWidth 32)) ∧
    s.MoveGives e (.moveAndi e d a imm) (fun _ => 1) (fun x => x.setReg d (x.reg a &&& imm.setWidth 64)) ∧
    s.MoveGives e (.moveShli e d a imm) (fun _ => 1) (fun x => x.setReg d (x.reg a <<< (imm.toNat % 64))) ∧
    s.MoveGives e (.moveShri e d a imm) (fun _ => 1) (fun x => x.setReg d (x.reg a >>> (imm.toNat % 64))) ∧
    s.MoveGives e (.moveCmpeq e d a b) (fun _ => 1) (fun x => x.setReg d (if x.reg a = x.reg b then 1 else 0)) ∧
    s.MoveGives e (.moveCmpltu e d a b) (fun _ => 1)
      (fun x => x.setReg d (if (x.reg a).toNat < (x.reg b).toNat then 1 else 0))) ∧
  (∀ (s : State) (e : Fin 4) (y : Engine) (v : Invocation) (dst units : Nat),
    ((s.eng e).inv = none → s.movedTo e y v dst units = s) ∧
    ((s.eng e).inv ≠ none → s.movedTo e y v dst units =
      if dst < (s.app v.slot).moves.length then s.setEng e { y with pc := dst, units := units }
      else (s.faultRun e y 0x0D 0).onward)) ∧
  (∀ (s : State) (e : Fin 4) (d a b : Fin 16) (x : Engine) (v : Invocation) (m : MoveFields),
     (s.AtMove e (.moveDivu e d a b) x v m →
       ((x.reg b ≠ 0 → exec (.moveDivu e d a b) s = .next (s.movedTo e
         (x.setReg d (BitVec.ofNat 64 ((x.reg a).toNat / (x.reg b).toNat))) v (x.pc + 1) (x.units + 1))) ∧
       (x.reg b = 0 → exec (.moveDivu e d a b) s = .next (s.faultRun e x 0x03 0).onward))) ∧
     (s.AtMove e (.moveRemu e d a b) x v m →
       ((x.reg b ≠ 0 → exec (.moveRemu e d a b) s = .next (s.movedTo e
         (x.setReg d (BitVec.ofNat 64 ((x.reg a).toNat % (x.reg b).toNat))) v (x.pc + 1) (x.units + 1))) ∧
       (x.reg b = 0 → exec (.moveRemu e d a b) s = .next (s.faultRun e x 0x03 0).onward))))

/-- A move whose budget is short ends the invocation with code 0x10, and a move that the engine has not reached
leaves everything as it was. A move that computes into a register, not the last of its applet, changes nothing but
its engine, and in the engine only that register, the program counter and the units. -/
def Obligations.MoveGuardsAndFrame : Prop :=
  (∀ (i : Instr) (e : Fin 4) (s : State), moveEngine i = some e →
     (∀ x v m, s.eng e = x → x.inv = some v → x.rets = none → moveFields i = some m →
       (s.app v.slot).moves[x.pc]? = some (packMove m) → v.budget < x.units + moveCost m x →
       exec i s = .next (s.faultRun e x 0x10 0).onward) ∧
     ((s.eng e).inv = none → exec i s = .next s) ∧
     (∀ v m, (s.eng e).inv = some v → moveFields i = some m →
       (s.app v.slot).moves[(s.eng e).pc]? ≠ some (packMove m) → exec i s = .next s)) ∧
  (∀ (s t : State) (e : Fin 4) (d a b : Fin 16) (imm : Word32) (i : Instr) (x : Engine) (v : Invocation)
     (m : MoveFields),
     i ∈ [Instr.moveAdd e d a b, .moveSub e d a b, .moveMul e d a b, .moveAnd e d a b, .moveOr e d a b,
       .moveXor e d a b, .moveShl e d a b, .moveShr e d a b, .moveAddi e d a imm, .moveLdi e d imm,
       .moveLdih e d imm, .moveAndi e d a imm, .moveShli e d a imm, .moveShri e d a imm, .moveCmpeq e d a b,
       .moveCmpltu e d a b] →
     s.AtMove e i x v m → x.pc + 1 < (s.app v.slot).moves.length → exec i s = .next t →
     t = s.setEng e (t.eng e) ∧
     (∀ r, r ≠ d → (t.eng e).reg r = x.reg r) ∧
     t.eng e = { x with regs := (t.eng e).regs, pc := x.pc + 1, units := x.units + 1 } ∧
     (∀ k, k ≠ e.val → t.eng k = s.eng k) ∧ t.hostMem = s.hostMem)

/-- Branches test a register and go to the move that they name. Loads, stores and comparisons of scratch,
little-endian, of 1, 2, 4 or 8 bytes; a range outside scratch faults with code 0x02. A comparison gives 0x3CC3 where
the bytes are equal and 0xC33C where they are not. -/
def Obligations.MoveBranchesAndScratch : Prop :=
  (∀ (s : State) (e : Fin 4) (a : Fin 16) (imm : Word32) (x : Engine) (v : Invocation) (m : MoveFields),
     (s.AtMove e (.moveBeqz e a imm) x v m → exec (.moveBeqz e a imm) s = .next
       (s.movedTo e x v (if x.reg a = 0 then imm.toNat else x.pc + 1) (x.units + 1))) ∧
     (s.AtMove e (.moveBnez e a imm) x v m → exec (.moveBnez e a imm) s = .next
       (s.movedTo e x v (if x.reg a = 0 then x.pc + 1 else imm.toNat) (x.units + 1))) ∧
     (s.AtMove e (.moveJmp e imm) x v m → exec (.moveJmp e imm) s = .next
       (s.movedTo e x v imm.toNat (x.units + 1)))) ∧
  (∀ (s : State) (e : Fin 4) (d a b : Fin 16) (c : Fin 4) (imm : Word32) (x : Engine) (v : Invocation)
     (m : MoveFields) (p n : Nat), p = (x.reg a + imm.signExtend 64).toNat → n = 2 ^ c.val →
     (s.AtMove e (.moveLd e d a c imm) x v m →
       (p + n ≤ 16384 → exec (.moveLd e d a c imm) s = .next (s.movedTo e
         (x.setReg d (BitVec.ofNat 64 (leNat (x.bytes p n)))) v (x.pc + 1) (x.units + 1))) ∧
       (16384 < p + n → exec (.moveLd e d a c imm) s = .next (s.faultRun e x 0x02 0).onward)) ∧
     (s.AtMove e (.moveSt e a b c imm) x v m →
       (p + n ≤ 16384 → exec (.moveSt e a b c imm) s = .next (s.movedTo e
         (x.put p (leBytes n (x.reg b).toNat)) v (x.pc + 1) (x.units + 1))) ∧
       (16384 < p + n → exec (.moveSt e a b c imm) s = .next (s.faultRun e x 0x02 0).onward)) ∧
     (s.AtMove e (.moveMemcmp e d a b imm none) x v m →
       (imm.toNat = 0 ∨ ((x.reg a).toNat + imm.toNat ≤ 16384 ∧ (x.reg b).toNat + imm.toNat ≤ 16384)) →
       exec (.moveMemcmp e d a b imm none) s = .next (s.movedTo e
         (x.setReg d (if x.bytes (x.reg a).toNat imm.toNat = x.bytes (x.reg b).toNat imm.toNat then 0x3CC3
           else 0xC33C)) v (x.pc + 1) (x.units + (8 + ceilDiv imm.toNat 8)))))

/-- The moves that use a key, their ranges in scratch and their key charged: key derivation, counter mode, CMAC, and
GCM with its tag beside the text. It rests on choices of the model too (log entries 23 and 44). -/
def Obligations.MoveCrypto : Prop :=
  ∀ (s u : State) (e : Fin 4) (d a b : Fin 16) (c : Fin 4) (imm : Word32) (x : Engine) (v : Invocation)
    (m : MoveFields) (p n o : Nat) (key : Bytes),
    p = (x.reg a).toNat → n = (x.reg b).toNat → o = imm.toNat % 65536 → (n = 0 ∨ p + n ≤ 16384) →
    (s.AtMove e (.moveKdf e a b c imm) x v m → moveKey s x v (immKey imm) n false = .ok (key, u) →
      exec (.moveKdf e a b c imm) s = .next (u.movedTo e
        { x with keys := tset none x.keys c (some (kdfCmac key (x.bytes p n))) } v (x.pc + 1)
          (x.units + moveCost m x))) ∧
    (s.AtMove e (.moveCtr e d a b imm) x v m → moveKey s x v (immKey imm) n false = .ok (key, u) →
      o + 16 ≤ 16384 → beNat ((x.bytes o 16).drop 12) + blocksOf n ≤ 2 ^ 32 →
      exec (.moveCtr e d a b imm) s = .next (u.movedTo e
        (((x.put p (ctrX key (x.bytes o 16) 32 0 (x.bytes p n))).put o (ctrAdd (x.bytes o 16) 32 (blocksOf n))).setReg
          d (BitVec.ofNat 64 n)) v (x.pc + 1) (x.units + moveCost m x))) ∧
    (s.AtMove e (.moveCmac e d a b imm) x v m → moveKey s x v (immKey imm) n false = .ok (key, u) →
      o + 16 ≤ 16384 →
      exec (.moveCmac e d a b imm) s = .next (u.movedTo e ((x.put o (cmac key (x.bytes p n))).setReg d 16) v (x.pc + 1)
        (x.units + moveCost m x))) ∧
    (s.AtMove e (.moveGcms e d a b imm) x v m → moveKey s x v (immKey imm) n true = .ok (key, u) →
      o + 12 ≤ 16384 → p + n + 16 ≤ 16384 →
      exec (.moveGcms e d a b imm) s = .next (u.movedTo e
        ((x.put p (gcmX key (x.bytes o 12) 0 (x.bytes p n) ++
          gcmTag key (x.bytes o 12) [] (gcmX key (x.bytes o 12) 0 (x.bytes p n)))).setReg d
            (BitVec.ofNat 64 (n + 16))) v (x.pc + 1) (x.units + moveCost m x))) ∧
    (s.AtMove e (.moveGcmo e d a b imm none) x v m → moveKey s x v (immKey imm) n false = .ok (key, u) →
      o + 12 ≤ 16384 → 16 ≤ n →
      ∀ ct ok, ct = x.bytes p (n - 16) →
      ok = decide (gcmTag key (x.bytes o 12) [] ct = x.bytes (p + (n - 16)) 16) →
      exec (.moveGcmo e d a b imm none) s = .next (u.movedTo e
        ((x.put p (if ok then gcmX key (x.bytes o 12) 0 ct else zeros (n - 16))).setReg d
          (if ok then 0x3CC3 else 0xC33C)) v (x.pc + 1) (x.units + moveCost m x)))

/-- The other moves: a field read, a hash, a deferred extend with its mark, a note, and a return, which ends the
invocation with its output or, by its verdict, as a fault. It rests on choices of the model too (log entry 23). -/
def Obligations.MoveEffects : Prop :=
  ∀ (s : State) (e : Fin 4) (d a b : Fin 16) (imm : Word32) (x : Engine) (v : Invocation) (m : MoveFields)
    (p n o : Nat), p = (x.reg a).toNat → n = (x.reg b).toNat → o = imm.toNat % 65536 →
    (∀ y, s.AtMove e (.moveFld e d imm) x v m → moveField s v imm.toNat = some y →
      exec (.moveFld e d imm) s = .next
        (s.movedTo e (x.setReg d (BitVec.ofNat 64 y)) v (x.pc + 1) (x.units + 1))) ∧
    (∀ l, s.AtMove e (.moveHash e d a b imm) x v m → l = digestLen (imm.toNat / 2 ^ 20 % 256) →
      (n = 0 ∨ p + n ≤ 16384) → o + l ≤ 16384 →
      exec (.moveHash e d a b imm) s = .next (s.movedTo e
        ((x.put o (digest (imm.toNat / 2 ^ 20 % 256) (x.bytes p n))).setReg d (BitVec.ofNat 64 l)) v (x.pc + 1)
          (x.units + moveCost m x))) ∧
    (∀ r q, s.AtMove e (.moveHmx e a imm) x v m → v.kind = .invoke r q → x.extends_.length < 4 → p + 48 ≤ 16384 →
      s.extendCheck (imm.toNat % 64) v.fn false = none →
      exec (.moveHmx e a imm) s = .next ((s.mark (imm.toNat % 64) q).movedTo e
        { x with extends_ := x.extends_ ++ [⟨imm.toNat % 64, x.bytes p 48, s.nextMark⟩] } v (x.pc + 1) (x.units + 8))) ∧
    (∀ f id, s.AtMove e (.moveNote e a) x v m → v.kind = .hook f id →
      exec (.moveNote e a) s = .next (s.movedTo e { x with note := some (x.reg a) } v (x.pc + 1) (x.units + 1))) ∧
    (∀ r q w, s.AtMove e (.moveRet e a b imm) x v m → v.kind = .invoke r q → (s.ring r).find q = some w →
      (imm.toNat % 256 = 0 → (n = 0 ∨ p + n ≤ 16384) → n ≤ extsLen (w.got.getD ([], [], [])).2.1 →
        exec (.moveRet e a b imm) s = .next (s.acceptRun e { x with units := x.units + 1 } p n).onward) ∧
      (imm.toNat % 256 ≠ 0 → exec (.moveRet e a b imm) s = .next
        (s.faultRun e x 0x01 (BitVec.ofNat 8 imm.toNat)).onward)) ∧
    (∀ f id, s.AtMove e (.moveRet e a b imm) x v m → v.kind = .hook f id → imm.toNat % 256 = 0 →
      exec (.moveRet e a b imm) s = .next (s.acceptRun e { x with units := x.units + 1 } 0 0).onward)

/-- A free move engine takes the next invocation: its applet's input is read to scratch from offset 0; in HALT none is
taken. Strands: the time limit asks for the close with cause 2, and a signature that met `ENTROPY_FAIL` is asked for
again. It rests on choices of the model too (log entry 22). -/
def Obligations.AppletAndStrandEvents : Prop :=
  (∀ (s u w : State) (env : Env) (e : Nat) (v : Invocation) (r q : Nat) (k : Work) (b : Bytes),
    u = s.hostStores env → u.halted = false → ((List.range 4).find? fun e => (u.eng e).inv.isNone) = some e →
    nextInvocation u = some v → v.kind = .invoke r q →
    w = { u with applets := { u.applets with
      waiting := u.applets.waiting.erase v, rr := tset 0 u.applets.rr v.cls (rrNext 512 r) } } →
    (u.ring r).find q = some k → (u.app v.slot).kind 0 = true →
    w.readAll env (k.got.getD ([], [], [])).1 = .ok b →
    exec (.moveEngineTake env) s = .next
      (w.setEng e { u.eng e with inv := some v, scratch := Mem.writeN [] 0 b })) ∧
  (∀ (s u : State) (env : Env) (e : Nat) (v : Invocation) (f id : Nat) (y : Msg),
    u = s.hostStores env → u.halted = false → ((List.range 4).find? fun e => (u.eng e).inv.isNone) = some e →
    nextInvocation u = some v → v.kind = .hook f id → u.msg f id = some y →
    exec (.moveEngineTake env) s = .next
      (({ u with applets := { u.applets with waiting := u.applets.waiting.erase v } } : State).setEng e
        { u.eng e with inv := some v, scratch := [] })) ∧
  (∀ (s : State) (env : Env), (s.hostStores env).halted = true →
    exec (.moveEngineTake env) s = .next (s.hostStores env)) ∧
  (∀ (s : State) (i : Fin 4) (x : Strand), s.openStrand i = some x → x.closeDue = 0 →
    exec (.strandTimeLimit i) s = .next ((s.putStrand { x with closeDue := 2 }).tryClose i).strandsGo) ∧
  (∀ (s : State) (i : Fin 4) (id : Word32) (ml : Bool) (x y : Strand), s.strand i id = some x →
    (if ml then 1 else 0) ∈ x.retry → s.kindServes ml = true →
    y = { x with retry := x.retry.erase (if ml then 1 else 0) } →
    exec (.strandSignRetry i id ml) s = .next
      (({ s with signet := { s.signet with queue := s.signet.queue ++
        [{ client := .strand x.stream x.id ml, lattice := ml, scheme := if ml then 0x20 else 0x02 }] } } :
          State).putStrand (y.settle x.sigs)).strandsGo)

/-! Registers of the PF (chapter 17). -/

/-- A command that writes a register of the PF does nothing before stage S3 and from a VF that does not exist, is a
violation of kind 1 from one that does, and of kind 3 where the stage bars the register; the violation changes nothing
but the record of violations and its count. It rests on choices of the model too (log entry 35). -/
def Obligations.PfOnlyCommands : Prop :=
  ∀ (f : Fin 16) (m : Fin 32) (block : CntBlock) (value : Word32) (on : Bool) (key : BitVec 16),
    ∀ x ∈ pfCommands f m block value on key, ∀ (fn : Fin 32) (s : State),
      (s.start.stage < 3 ∨ s.fnExists fn = false → exec (x.1 fn) s = .next s) ∧
      (3 ≤ s.start.stage → fn ≠ 0 → s.fnExists fn = true → exec (x.1 fn) s = .next (s.violation 1 fn true x.2)) ∧
      (s.fnExists fn = true ↔ fn = 0 ∨ (fn ≤ s.link.numVfs ∧ s.start.stuck = false)) ∧
      (3 ≤ s.start.stage → s.stageBars x.2 = true → exec (x.1 0) s = .next (s.violation 3 0 true x.2)) ∧
      (∀ k w a, s.violation k fn w a =
        { s with viol := (s.violation k fn w a).viol, snp := (s.violation k fn w a).snp })

/-! Tamper response (chapter 13). -/

/-- Stimulus tests, the lock, the log and the settings of monitors; events of monitors, the end of a clearing, the pin
`ZERO_N`, and samples on the cell alone. It rests on choices of the model too (log entries 10, 29 and 61). -/
def Obligations.TamperCommands : Prop :=
  (∀ (s : State), 3 ≤ s.start.stage → s.stageBars 0x50000 = false →
    ∀ x ∈ ([(.entStim 0, 15), (.vaultCtlStim 0, 16), (.crnStim 0, 17), (.tmpStim 0 3, 3), (.tmpStim 0 21, 21)] :
      List (Instr × Nat)), s.tamper.stimBusy = none →
      exec x.1 s = .next { s with tamper := { s.tamper with
        stimBusy := some x.2, stimMon := x.2, stimPass := false, stimBat := false, stimNone := false } }) ∧
  (∀ (s : State) (m : Fin 32), 3 ≤ s.start.stage → s.tamper.stimBusy = none → 18 ≤ m.val → m.val ≠ 21 →
    exec (.tmpStim 0 m) s = .next { s with tamper := { s.tamper with
      stimMon := m.val, stimPass := false, stimBat := false, stimNone := true } }) ∧
  (∀ (s : State) (m : Nat), s.tamper.stimBusy = some m → exec .tmpStimDone s = .next
    { s with
      signet := if m = 15 then { s.signet with rctFail := true, aptFail := true } else s.signet
      tamper := { s.tamper with stimBusy := none, stimPass := true, stimBat := sampled m } }) ∧
  (∀ s : State, 3 ≤ s.start.stage →
    exec (.tmpLock 0) s = .next { s with tamper := { s.tamper with locked := true } } ∧
    (s.lcs = .test → exec (.logClear 0) s = .next
      { s with battery := { s.battery with log := [], logSeq := 0, logLost := 0 } }) ∧
    (s.lcs ≠ .test → exec (.logClear 0) s = .next (s.violation 2 0 true 0xA0024))) ∧
  (∀ (s : State) (m : Fin 32) (value : Word32) (c : MonCfg), 3 ≤ s.start.stage →
    c = { en := value.getLsbD 31, rung := min 5 (value.toNat / 2 ^ 28 % 8), wunit := min 2 (value.toNat / 2 ^ 26 % 4),
          wval := max 1 (min 1000 (value.toNat / 2 ^ 16 % 1024)), n := max 1 (value.toNat / 2 ^ 8 % 256) } →
    (s.tamper.locked = true →
      exec (.monCfgWrite 0 m value) s = .next (s.violation 4 0 true (0xA0100 + 4 * m.val))) ∧
    (∀ c1, s.tamper.locked = false → (m.val < 17 ∨ m.val = 21) →
      c1 = (if m.val ≤ 7 ∧ s.lcs.floors then c.floored (if m.val = 7 then 5 else 4) else c) →
      exec (.monCfgWrite 0 m value) s = .next (s.setMon m.val { s.mon m.val with
        cfg := c1, cellN := c1.n, cellHigh := Nat.ble 4 c1.rung })) ∧
    (s.tamper.locked = false → 17 ≤ m.val → m.val ≠ 21 → exec (.monCfgWrite 0 m value) s = .next s)) ∧
  (∀ (s u : State) (l : List MonEvent), s.start.stage ≠ 0 →
    u = (l.filter s.eventOk).foldl (fun a e => match e.owner with
      | some t => if e.m.val = 14 then a.failOwner t else a
      | none => a) (s.noteReads l) →
    exec (.monitorEvent l) s = .next (u.events ((l.filter s.eventOk).map fun e =>
      (e.m.val, e.detail, e.value, if e.m.val = 19 then some e.detail.toNat else none))).onward) ∧
  (∀ (s s1 : State) (r : Fin 512) (q j : Nat) (i : Fin 64) (id : Word32) (ml : Bool) (x : Strand) (st : Status),
    (st ≠ .done → s.failOwner (.desc r q st) = s.failDesc r q st) ∧
    (s.dropRequest (.strand i.val id ml) = some s1 → s.strand i id = some x → s.failOwner (.strand i id ml) =
      s1.putStrand { x with retry := x.retry ++ [if ml then 1 else 0] }) ∧
    (s.link.job.map (·.number) = some j → s.dropRequest (.spdm j) = some s1 →
      s.failOwner .spdm = s1.spdmFail j)) ∧
  (∀ (s u : State), s.tamper.clearing = true →
    u = ({ s with tamper := { s.tamper with
      clearing := false, scrubDone := Nat.ble 4 s.tamper.rung, purgeDone := Nat.ble 5 s.tamper.rung } } :
        State).drawTk →
    ((∀ j, u.crowns.journal = some j → j.wait ≠ .clearing) → exec .scrubClearDone s = .next u.onward) ∧
    (∀ j, u.crowns.journal = some j → j.wait = .clearing →
      exec .scrubClearDone s = .next (u.crownDone [] [] 0 []).onward)) ∧
  (∀ s : State, (s.start.stage ≠ 0 → exec .zeroN s = .next (s.raise 7).onward) ∧
    (s.start.stage = 0 → s.battery.vbat = true → exec .zeroN s = .next (s.cellAlarm 7 0 0 true 5)) ∧
    (s.cellAlarm 7 0 0 true 5).battery.drk = none) ∧
  (∀ (s : State) (shows : List (Fin 32 × Byte)) (mv : BitVec 16), s.start.stage = 0 → s.battery.vbat = true →
    2300 ≤ mv.toNat → exec (.batterySample 3 shows mv) s = .next
      (({ s with battery := { s.battery with vbatMv := mv.toNat } } : State).setMon 21
        { s.mon 21 with cellRun := 0 }))

/-! Factory tests, records and counts (chapters 12, 14 and 15). -/

/-- Factory tests in `TEST`, and elsewhere a violation of kind 2: a memory test writes or reads one word, a self-test
of an array begins and ends. A ceremony, but for one whose descriptor is in progress, and a grant with a duration run
out. A page write ends, with its page in place, or its relocation begun with the write of the remap record, or failed
for good where its quarter has no spare, and what asked for it goes on; a recall ends; a hold-up trip ends the page
write in progress with its burst; counts are cleared by block. It rests on choices of the model too (log entries 26,
32 and 60). -/
def Obligations.FactoryAndRecordEvents : Prop :=
  (∀ s : State, 3 ≤ s.start.stage →
    (s.lcs ≠ .test → exec (.mtestGo 0) s = .next (s.violation 2 0 true 0xB0040) ∧
      exec (.mbistGo 0) s = .next (s.violation 2 0 true 0xB0058)) ∧
    (s.lcs = .test → s.life.mtWrite = true → s.life.mtTarget = 1 →
      (∀ old, s.life.mtAddr.toNat < 1048576 → old = tget (zeros 256) s.nvm.pages (s.life.mtAddr.toNat / 32) →
        exec (.mtestGo 0) s = .next { s with
          life := { s.life with mtWords := (s.life.mtWords.filter fun e => e.1 != 2 ^ 32 + s.life.mtAddr.toNat) ++
            [(2 ^ 32 + s.life.mtAddr.toNat, (s.life.mtWdata, s.life.mtCheck))] }
          nvm := { s.nvm with
          pages := tset (zeros 256) s.nvm.pages (s.life.mtAddr.toNat / 32)
            (old.take (8 * (s.life.mtAddr.toNat % 32)) ++ leBytes 8 s.life.mtWdata.toNat ++
              old.drop (8 * (s.life.mtAddr.toNat % 32) + 8)) } }) ∧
      (1048576 ≤ s.life.mtAddr.toNat → exec (.mtestGo 0) s = .next s)) ∧
    (s.lcs = .test → s.life.mtWrite = true → s.life.mtTarget ≠ 1 →
      ¬(s.life.mtTarget = 0 ∧ Config.sramHidden s.life.mtAddr.toNat = true) → ∃ t, exec (.mtestGo 0) s = .next t ∧
        t.life = { s.life with mtWords := (s.life.mtWords.filter fun e =>
          e.1 != s.life.mtTarget * 2 ^ 32 + s.life.mtAddr.toNat) ++
            [(s.life.mtTarget * 2 ^ 32 + s.life.mtAddr.toNat, (s.life.mtWdata, s.life.mtCheck))] } ∧
        t = { s with life := t.life, vault := { s.vault with flaws := t.vault.flaws } }) ∧
    (s.lcs = .test → s.life.mtWrite = false → ∀ v, s.mtestWord s.life.mtTarget s.life.mtAddr.toNat = some v →
      ∃ t, exec (.mtestGo 0) s = .next t ∧ t.life = { s.life with mtRdata := v.1, mtCheck := v.2 } ∧
        t = { s with life := t.life, free := t.free }) ∧
    (s.lcs = .test → s.life.mbBusy = false → exec (.mbistGo 0) s = .next { s with life := { s.life with
      mbBusy := true, mbDone := false, mbFail := false, mbFailWord := 0, mbLast := s.life.mbArray } }) ∧
    (s.lcs = .test → s.life.mbBusy = true → exec (.mbistGo 0) s = .next s)) ∧
  (∀ (s : State) (fail : Option Word32), s.life.mbBusy = true → exec (.mbistDone fail) s = .next
    (({ s with life := { s.life with
      mbBusy := false, mbDone := true, mbFail := fail.isSome, mbFailWord := fail.getD 0 } } : State).zeroArray
        s.life.mbLast)) ∧
  (∀ s : State,
    ((∀ j, s.crowns.journal = some j → j.opcode.toNat < 0x810 ∨ 0x813 < j.opcode.toNat) →
      exec .ceremonyTimeout s = .next { s with keys := { s.keys with ceremony := none } }) ∧
    (∀ j, s.crowns.journal = some j → 0x810 ≤ j.opcode.toNat → j.opcode.toNat ≤ 0x813 →
      exec .ceremonyTimeout s = .next s)) ∧
  (∀ (s : State) (g : Grant), s.life.grant = some g →
    (g.duration ≠ 0 → g.duration * 32768 ≤ (s.rtc + (2 ^ 64 - g.started)) % 2 ^ 64 →
      s.grantNow = none ∧ exec .debugGrantExpire s = .next { s with life := { s.life with grant := none } }) ∧
    (g.duration = 0 ∨ (s.rtc + (2 ^ 64 - g.started)) % 2 ^ 64 < g.duration * 32768 →
      s.grantNow = some g ∧ exec .debugGrantExpire s = .next s)) ∧
  (∀ (s s0 : State) (w : PageWrite) (retries : Nat) (failed : Bool) (n : Nvm) (c : Nat), s.nvm.writing = some w →
    c = (if failed then max 3 (min retries 24) else min retries 24) →
    n = { s.nvm with writing := none, retry := min (s.nvm.retry + c) (2 ^ 32 - 1) } →
    s0 = (({ s with nvm := n } : State).bump 25 0 1).bump 25 2 c →
    (∀ u, failed = false → u = s0.putPage w →
      (w.kind = .other → exec (.nvmPageWriteDone retries failed) s = .next u.portGo.onward) ∧
      (∀ set p, w.kind = .arm set p →
        exec (.nvmPageWriteDone retries failed) s = .next (u.armPage set p).portGo.onward) ∧
      (∀ k last, w.kind = .record k last →
        exec (.nvmPageWriteDone retries failed) s = .next (u.recordPage k last false).portGo.onward) ∧
      (∀ last, w.kind = .rollback last →
        exec (.nvmPageWriteDone retries failed) s = .next (u.rollbackPage last false).portGo.onward) ∧
      (∀ k last, w.kind = .job k last →
        exec (.nvmPageWriteDone retries failed) s = .next (u.jobPage k last false).portGo.onward) ∧
      (∀ k last, w.kind = .remap k last →
        exec (.nvmPageWriteDone retries failed) s = .next (u.remapPage k last false).portGo.onward) ∧
      (∀ set last, w.kind = .clear set last → exec (.nvmPageWriteDone retries failed) s = .next
        (if last then u.setCleared set else u).portGo.onward) ∧
      (w.kind = .refresh false → exec (.nvmPageWriteDone retries failed) s = .next
        (u.refreshEnded w.page false false false).scanGo.portGo.onward)) ∧
    (∀ b t u, failed = true → isRemapPage w.page = false → n.moving = [] → n.freeSpare w.page = none →
      s0.freshBytes 256 = (b, t) → u = ({ t with nvm := (t.nvm.failPage w.page b) } : State) →
      (∀ set p, w.kind = .arm set p → exec (.nvmPageWriteDone retries failed) s = .next
        (({ u.armPageFailed p with nvm := { (u.armPageFailed p).nvm with moving := [], remapRec := none } } :
          State).portGo.onward)) ∧
      (∀ k last, w.kind = .record k last → exec (.nvmPageWriteDone retries failed) s = .next
        (({ u.recordPage k last true with nvm := { (u.recordPage k last true).nvm with moving := [], remapRec := none } } :
          State).portGo.onward))) ∧
    (∀ (sp : Nat) (v : State) (x : RecWrite) (m : Nvm), failed = true → isRemapPage w.page = false → n.moving = [] →
      (w.kind = .other ∨ (∃ set p, w.kind = .arm set p) ∨ ∃ k last, w.kind = .record k last) →
      n.freeSpare w.page = some sp → v = s0.noteTie (.sys 0x0C 0) →
      m = { v.nvm with remap := tput v.nvm.remap (remapEntry w.page sp) (some (w.page % 4096)) } →
      x = v.planRec (.sys 0x0C 0) 0x0C m.remapBytes → x.seq < 2 ^ 32 →
      exec (.nvmPageWriteDone retries failed) s = .next
        ((((({ v with nvm := { m with moving := [(w, n.phys w.page)], remapRec := some x } } : State).bump 24 1 1).askCopy
          x 0 (.remap 0)).portGo).onward))) ∧
  (∀ (s : State) (w : PageWrite), (∀ l, w.kind ≠ .refresh l) → (∀ l, w.kind ≠ .moved l) → (∀ o, w.kind ≠ .ledger o) →
    s.putPage w = { s with nvm := s.nvm.put w.page w.data }) ∧
  (∀ (s v : State) (us : Nat) (weak l : List Nat) (n : Nvm), s.nvm.recalling = true →
    l = ((s.nvm.weak ++ weak).filter fun p => p < 32768).dedup → v = s.noteTie (.sys 0x0C 0) →
    n = { v.nvm with
      recalling := false, ready := true, recallUs := min us 65535, recallWeak := min l.length 65535, weak := l
      remap := if (v.nvm.record (.sys 0x0C 0)).st = .held then remapOf (v.nvm.record (.sys 0x0C 0)).payload
        else [] } →
    exec (.recallDone us weak) s = .next
      ({ v with nvm := { n with weakCount := n.countWeak } } : State).portGo) ∧
  (∀ (s : State) (bursts : Nat) (held : Bool), s.nvm.tripped = false →
    (s.nvm.writing = none → exec (.holdupTrip bursts held) s = .next { s with nvm := { s.nvm with tripped := true } }) ∧
    (∀ w k b, s.nvm.writing = some w → b = s.formed w →
      ((∃ off, w.kind = .ledger off ∧ k = off) ∨ ((∀ off, w.kind ≠ .ledger off) ∧ k = 32 * min bursts 7)) →
      ∃ t, exec (.holdupTrip bursts held) s = .next t ∧
      t.nvm.tripped = true ∧ t.nvm.writing = none ∧
      t.nvm.weak = (if held ∨ s.nvm.phys w.page ∈ s.nvm.weak then s.nvm.weak
        else s.nvm.weak ++ [s.nvm.phys w.page]) ∧
      ∃ burst, (held = true → burst = slice b k 32) ∧
        (∀ m, held = false → m = (s.freshBytes 32).1 → burst = (List.range 32).map fun i =>
          (byteAt b (k + i) &&& byteAt m i) ||| (byteAt (s.nvm.page w.page) (k + i) &&& ~~~(byteAt m i))) ∧
        t.nvm.pages = tset (zeros 256) s.nvm.pages (s.nvm.phys w.page) (fit 256 (b.take k ++ burst ++
          (s.nvm.page w.page).drop (k + 32))))) ∧
  (∀ (s : State) (b : CntBlock), 3 ≤ s.start.stage → s.stageBars (cntAddr b) = false →
    exec (.clrCnt 0 b) s = .next (match b with
      | .nvm => { s with nvm := { s.nvm with tie := 0, torn := 0, writes := 0, retry := 0 } }
      | .crd => { s with cards := { s.cards with cnt := [], cc := { s.cards.cc with apdus := 0 } } }
      | .apl => { s with applets := { s.applets with
          invokes := 0, hooks := 0
          engines := s.applets.engines.map fun (e : Nat × Engine) =>
            (e.1, { e.2 with done := 0, faults := 0, budgets := 0, restarts := 0 })
          slots := s.applets.slots.map fun (e : Nat × AppSlot) => (e.1, { e.2 with runs := 0 }) } }
      | .fct f => { s with fctRegs := tmod {} s.fctRegs f.val fun (x : FctRegs) =>
          { bistMs := x.bistMs, passes := x.passes } }
      | .clu c => { s with clus := tmod {} s.clus c.val fun (x : Clu) => { x with
          stageHwm := 0, edcValid := false, edcVault := false, edcLine := 0
          chRetry := [0, 0, 0, 0], chFail := [0, 0, 0, 0], chBursts := [0, 0, 0, 0] } }))

/-- A `SNAPSHOT` with none running begins one: the epoch rises, skipping 0, the bank of its parity is emptied, and the
units that do not run have copied and acknowledged at once; with one running it joins those that wait. `CLR_VIOL`
clears the record of violations. Snapshot events: a trigger of the PF begins a snapshot or joins the one that waits; a
marker makes its unit copy, or fixes what was in flight on its channel; at the timeout the units that have not
acknowledged are `LATE`. It rests on choices of the model too (log entry 38). -/
def Obligations.Snapshots : Prop :=
  (∀ (s : State) (reqs : List SnapReq) (e : Word32) (r : Snap), e = (if s.snp.epoch + 1 = 0 then 1 else s.snp.epoch + 1) →
    r = { epoch := e, startTime := s.rtc, startTick := s.tick, reqs := reqs, copied := [], acked := [], still := [],
          late := [], arrived := [], counters := [], sent := [], recv := [], inflight := [] } →
    s.snapBegin reqs = ((List.range 27).filter fun u => !s.unitRuns u).foldl (fun (a : State) u => a.stillCopy u)
      { s with snp := { s.snp with
        epoch := e, run := some r, banks := s.snp.banks.set (e.toNat % 2) []
        bankEpoch := s.snp.bankEpoch.set (e.toNat % 2) e } }) ∧
  (∀ (s : State) (u : Nat) (r : Snap), s.snp.run = some r → twf 0 r.sent = true → twf 0 r.recv = true →
    ∃ y, (s.stillCopy u).snp.run = some y ∧
    y.still = r.still ++ [u] ∧ y.copied = r.copied ++ [u] ∧ y.acked = r.acked ++ [u] ∧
    (∀ c ∈ inputsOf u ++ outputsOf u, c ∈ y.arrived ∧ tget 0 y.sent c = tget 0 y.recv c)) ∧
  (∀ s : State, 3 ≤ s.start.stage →
    (s.snp.run = none → exec (.snpTrigger 0) s = .next (s.snapBegin [.reg])) ∧
    (s.snp.run ≠ none → exec (.snpTrigger 0) s = .next { s with snp := { s.snp with
      waiting := s.snp.waiting ++ [.reg], joined := min 65535 (s.snp.joined + 1) } }) ∧
    exec (.clrViol 0) s = .next { s with viol := {} }) ∧
  (∀ (s : State) (u : Fin 27) (env : Env) (r : Snap), s.snp.run = some r → u.val ∉ r.still → u.val ∉ r.late →
    u.val ∉ r.copied →
    exec (.snapshotMarker u none env) s = .next (((s.hostStores env).unitCopy u none).snapAcks env)) ∧
  (∀ (s : State) (u : Fin 27) (c : Fin 149) (env : Env) (r : Snap), s.snp.run = some r → u.val ∉ r.still →
    u.val ∉ r.late → (channelEnds c).2 = u.val → c.val ∉ r.arrived → (channelEnds c).1 ∈ r.copied →
    exec (.snapshotMarker u (some c) env) s = .next
      (((if u.val ∈ r.copied then s.hostStores env else (s.hostStores env).unitCopy u (some c)).markerIn c).snapAcks
        env)) ∧
  (∀ (s : State) (c : Nat) (r r' : Snap), s.snp.run = some r → (s.markerIn c).snp.run = some r' →
    r' = { r with
      arrived := r.arrived ++ [c]
      inflight := tset 0 r.inflight c (tget 0 r.sent c - tget 0 r.recv c).toNat } ∧
    (s.markerIn c).snp.recv = tset 0 s.snp.recv c (tget 0 r.sent c)) ∧
  (∀ (s : State) (env : Env) (r : Snap) (l : List Nat), s.snp.run = some r →
    l = (List.range 27).filter (fun u => !r.acked.elem u) →
    exec (.snapshotAckTimeout env) s = .next
      ((((l.filter fun u => !r.copied.elem u).foldl (fun (a : State) u => a.unitCopy u none)
        (s.hostStores env)).modSnap fun x => { x with late := l }).snapDone env)) ∧
  (∀ (s : State) (p : Post) (g : Got) (u w : State),
     s.Starts .snapshot p g → u = s.atUnit .snapshot p g → w = u.keepGot p.ring s.hif.nextSeq g →
     (w.snp.run = none → exec (.snapshot p) s = .next (w.snapBegin [.desc p.ring s.hif.nextSeq]).onward) ∧
     ((w.snapBegin [.desc p.ring s.hif.nextSeq]).snp.epoch =
       if w.snp.epoch + 1 = 0 then 1 else w.snp.epoch + 1) ∧
     (w.snp.run ≠ none → exec (.snapshot p) s = .next
       ({ w with snp := { w.snp with
         waiting := w.snp.waiting ++ [.desc p.ring s.hif.nextSeq], joined := min 65535 (w.snp.joined + 1) } } :
         State).onward))

/-- Events of the card ports: detection, the end of a busy card, its timeout, answers, the ports switched off. A block
is sent once its command is answered, with its CRCs; a positive status token, the end of busy and a status of the
transfer state confirm it. A block that a takeover met in progress ends its bundle write with `STANDBY_TAKEOVER`, not
done while the seal is not confirmed. A response whose CRC fails ends in `CARD_ERROR`, a card that is silent in
`CARD_GONE`, but for CMD8 of the identification, which a version 1 card leaves unanswered. An ATR of T=0 with the
default rates opens the exchange; the status word 90 00 of a T=0 answer, and of a T=1 block, brings the next command.
It rests on choices of the model too (log entry 40). -/
def Obligations.CardEvents : Prop :=
  (∀ (s : State) (wp : Bool), 2 ≤ s.start.stage →
    (s.cards.sd.present = false → exec (.sdCardDetect true wp) s = .next
      (s.modSd fun y => { y with wp := wp, present := true, st := .present, evtInserted := true }).onward) ∧
    (s.cards.sd.present = true → s.cardBusy true = false → exec (.sdCardDetect false wp) s = .next
      (((s.modSd fun y => { ({ y with wp := wp, present := false } : Sd).off with evtRemoved := true }).cardCount 3
        1).onward)) ∧
    (s.cards.sd.present = true → s.cardBusy true = true → exec (.sdCardDetect false wp) s = .next
      (((s.modSd fun y => { ({ y with wp := wp, present := false } : Sd).off with evtRemoved := true }).cardCount 3
        1).cardFail true .cardGone).onward)) ∧
  (∀ s : State, 2 ≤ s.start.stage →
    (s.cards.cc.present = false → exec (.ccCardDetect true) s = .next
      (s.modCc fun y => { y with present := true, evtInserted := true }).onward) ∧
    (s.cards.cc.present = true → s.cardBusy false = false → exec (.ccCardDetect false) s = .next
      ((s.modCc fun y => { y.deactivate with present := false, evtRemoved := true }).cardCount 7 1).onward) ∧
    (s.cards.cc.present = true → s.cardBusy false = true → exec (.ccCardDetect false) s = .next
      (((s.modCc fun y => { y.deactivate with present := false, evtRemoved := true }).cardCount 7 1).cardFail false
        .cardGone).onward)) ∧
  (∀ (s : State) (j : CardJob) (n : Nat), s.cards.job = some j → j.phase = .wrBusy n →
    exec .sdBusyEnd s = .next
      ((s.sdCommand 13 (s.cards.sd.rca * 2 ^ 16)).cardJob { j with phase := .wrStatus n }).onward ∧
    exec .sdBusyTimeout s = .next
      (((s.modSd fun x => { x with evtTimeout := true }).cardCount 2 1).cardFail true .cardError).onward) ∧
  (∀ s : State, 3 ≤ s.start.stage →
    (s.cardBusy false = false → exec (.ccDeact 0) s = .next (s.modCc Cc.deactivate).onward) ∧
    (s.cardBusy false = true →
      exec (.ccDeact 0) s = .next ((s.modCc Cc.deactivate).cardFail false .cardError).onward) ∧
    (s.cardBusy true = false → exec (.sdOff 0) s = .next (s.modSd Sd.off).onward) ∧
    (s.cardBusy true = true → exec (.sdOff 0) s = .next ((s.modSd Sd.off).cardFail true .cardGone).onward)) ∧
  (∀ s : State,
    (s.cardBusy false = true → exec .ccVccCurrentLimit s = .next
      ((s.modCc Cc.deactivate).cardFail false .cardError).onward) ∧
    (s.cardBusy false = false → s.cards.cc.active = true →
      exec .ccVccCurrentLimit s = .next (s.modCc Cc.deactivate).onward)) ∧
  (∀ (s : State) (j x : CardJob) (jr : Journal) (d : Desc) (g : Got), s.crownDesc = some (jr, d, g) →
    s.cards.job = some j →
    (∀ n b y, j.phase = .wrCmd n → x = { j with phase := .wrToken n } → readR48 24 b = .ok y → r1Error y = false →
      exec (.cardResponse (.sd b)) s = .next ({ s.cardJob x with
        out := { s.out with sdBlock := (j.blocks.getD n [], blockCrcs s.cards.sd.width4 (j.blocks.getD n [])) } } :
          State).onward) ∧
    (∀ n, j.phase = .wrToken n → x = { j with phase := .wrBusy n } →
      exec (.cardResponse (.token 2)) s = .next (s.cardJob x).onward) ∧
    (∀ n v b y, j.phase = .wrStatus n → readR48 13 b = .ok y → r1Error y = false → r1Tran y = true →
      v = { s with cards := { s.cards with blocksDone := n + 1, sd := { s.cards.sd with confirmed := n + 1 } } } →
      (jr.outcome = none → exec (.cardResponse (.sd b)) s = .next (v.writeNext j (n + 1)).onward) ∧
      (jr.state = .intent → jr.outcome ≠ none → n + 1 < j.blocks.length → exec (.cardResponse (.sd b)) s = .next
        ((v.cardEnd true).crownClose { jr with outcome := some 0 } (v.standbyCpl d 0)).onward)) ∧
    (∀ n b, j.phase = .wrCmd n → b.length = 6 → byteAt b 5 ≠ crcEnd (b.take 5) → s.cards.sd.st ≠ .identifying →
      exec (.cardResponse (.sd b)) s = .next (((s.modSd fun y => { y with evtChk := true }).cardCount 1 1).cardFail true
        .cardError).onward) ∧
    (∀ n b l, j.phase = .rdData n → b.length = 512 → l ≠ blockCrcs s.cards.sd.width4 b → s.cards.sd.st ≠ .identifying →
      exec (.cardResponse (.data b l)) s = .next (((s.modSd fun y => { y with evtChk := true }).cardCount 1 1).cardFail
        true .cardError).onward) ∧
    (j.phase.isSd = true → (∀ n, j.phase ≠ .wrBusy n) → j.phase ≠ .ident .cmd8 →
      exec (.cardResponse .silent) s = .next
        (((s.modSd fun y => { y.off with evtTimeout := true }).cardCount 2 1).cardFail true .cardGone).onward) ∧
    (j.phase = .ident .cmd8 → exec (.cardResponse .silent) s = .next
      ((s.sdCommand 55 0).cardJob { j with phase := .ident (.app41 0 false) }).onward) ∧
    (∀ b y, j.phase = .select → (d.is .cerShare && d.fld 24 1 == 0) = false → s.cards.cc.t1 = false →
      t0Feed b j.x [] = .done y 0x9000 →
      exec (.cardResponse (.chars b)) s = .next
        (((s.modCc fun c => { c with lastSw := 0x9000, apdus := c.apdus + 1 }).sendApdu { j with x := y } .info
          [0x80, 0xCA, 0x00, 0x00, 0x10])).onward) ∧
    (∀ b inf pcb y, j.phase = .select → (d.is .cerShare && d.fld 24 1 == 0) = false → s.cards.cc.t1 = true →
      t1Read s.cards.cc.crc b = some (pcb, inf) → pcb = (if s.cards.cc.nr then 0x40 else 0) →
      j.x.toSend = [] → j.x.sync = false → j.x.rx = [] → inf = y ++ [0x90, 0x00] →
      exec (.cardResponse (.chars b)) s = .next
        ((((s.modCc fun c => { c with nr := !c.nr }).modCc fun c => { c with lastSw := 0x9000 }).modCc fun c =>
          { c with apdus := c.apdus + 1 }).sendApdu { j with retry := 0, x := { j.x with rx := inf } } .info
          [0x80, 0xCA, 0x00, 0x00, 0x10]).onward) ∧
    (∀ cls, j.phase = .atr cls → cls = 3 → exec (.cardResponse (.chars [0x3B, 0x00])) s = .next
      (((s.modCc fun c => { c with
          active := true, error := false, atr := [0x3B, 0x00], t1 := false, ifsc := 32, crc := false, ns := false
          nr := false }).modCc fun c => { c with
          fi := 372, di := 1, khz := min (100 * c.freq.toNat) 5000, bwtMs := 0, cwtEtu := 0 }).sendApdu j .select
        apduSelect).onward))

/-! Starts, power and facets (chapter 17). -/

/-- Power, clocks and whole starts: which events begin a whole start and with which cause, what it keeps, the entry of
S2, and the ends of start steps. It rests on choices of the model too (log entries 5, 26, 27, 52, 60 and 62). -/
def Obligations.StartEvents : Prop :=
  (∀ (s : State) (c : Nat) (b : Bool),
    (s.wholeStart c b).nvm.pages = s.nvm.pages ∧ (s.wholeStart c b).life.copies = s.life.copies ∧
    (s.wholeStart c b).hostMem = s.hostMem ∧ (s.wholeStart c b).battery.drk = s.battery.drk ∧
    (s.wholeStart c b).battery.log = s.battery.log ∧ (s.wholeStart c b).start.stage = 1 ∧
    (s.wholeStart c b).start.resetCause = c ∧ (s.wholeStart c b).keys = {} ∧ (s.wholeStart c b).facets = [] ∧
    (s.wholeStart c b).hallmarks = [] ∧ (s.wholeStart c b).vault = {} ∧ (s.wholeStart c b).rings = []) ∧
  (∀ (s : State), s.start.stage = 0 →
    exec .keeperPor s = .next
      ((if s.battery.vbat then s else s.batteryLost).wholeStart 1 s.battery.vbat)) ∧
  (∀ (s t : State) (b : Bytes), s.start.stage ≠ 0 → s.freshBytes 1 = (b, t) →
    exec .sysResetN s = .next ((t.trip (byteAt b 0).toNat.log2 true).wholeStart 2 false) ∧
    exec (.pwrGoodFall false) s = .next (t.trip (byteAt b 0).toNat.log2 true).goDark ∧
    (s.start.stage ≠ 1 → ∃ u, exec (.pwrGoodFall true) s = .next u ∧ u.start.pwrGood = false ∧
      u = { (t.trip (byteAt b 0).toNat.log2 true).wholeStart 1 false with
        start := u.start
        battery := { ((t.trip (byteAt b 0).toNat.log2 true).wholeStart 1 false).battery with
          copyCfg := s.battery.copyCfg, copyHigh := s.battery.copyHigh, copyLow := s.battery.copyLow } }) ∧
    (3 ≤ s.start.stage → exec (.resetWhole 0 0x4B57) s = .next
      ((t.trip (byteAt b 0).toNat.log2 true).wholeStart 3 false)) ∧
    (∀ key, 3 ≤ s.start.stage → key ≠ 0x4B57 →
      exec (.resetWhole 0 key) s = .next (s.violation 4 0 true 0x4C))) ∧
  (∀ (s u v : State) (r : S2Results), s.start.stage = 1 → s.nvm.recalling = false →
    u = (List.range 12).foldl (fun (a : State) n => a.setEngine n { a.engine n with katFail := !r.kat.getLsbD n })
        { s with
          start := { s.start with stage := 2, pwrGood := true, sysResetN := true }
          glb := { s.glb with vid := if 40 < r.vid.toNat then 40 else r.vid }
          nvm := { s.nvm with tripped := false }
          battery := { s.battery.restart s.battery.onCell s.glb.grade with sampler := s.battery.sampler } } →
    v = u.stepStart.stepCrown r.crownA r.crownB →
    (v.cutTaken r = false → v.start.stuck = false → exec (.s2Entry r) s = .next
      (((v.stepLifecycle r.copyFails 7).s2Rest ((u.nvm.record startName).st == .torn) r).onward)) ∧
    (v.start.stuck = true → exec (.s2Entry r) s = .next
      (((v.stepSkip .lifecycle).readLcs.voteLcs.s2Rest ((u.nvm.record startName).st == .torn) r).onward)) ∧
    (∀ k, v.cutTaken r = true → r.cut = some k → exec (.s2Entry r) s = .next
      ((v.stepLifecycle r.copyFails k.val).pwrFall true))) ∧
  (∀ s : State, 2 ≤ s.start.stage →
    (s.glb.vid.toNat < 40 → exec (.vidStep true) s = .next { s with glb := { s.glb with vid := s.glb.vid + 1 } }) ∧
    (s.glb.vid ≠ 0 → exec (.vidStep false) s = .next { s with glb := { s.glb with vid := s.glb.vid - 1 } })) ∧
  (∀ s : State, s.start.stage ≠ 0 →
    exec .vbatLoss s = .next { s with battery := { s.battery with vbat := false } }) ∧
  (∀ s : State, s.battery.intOsc = false → 2 ≤ s.start.stage → exec .xtal32Stop s = .next
    (({ s with battery := { s.battery with intOsc := true } } : State).raise 12 15).onward) ∧
  (∀ (s : State) (r : StepRun), s.stepRuns .entropy = some r →
    exec .entropyInstantiationLimit s = .next ((s.endEntropy false).fromKeys).onward) ∧
  (∀ (s u v : State) (r : StepRun) (b : Bytes) (re : Bool), s.stepRuns .keys = some r →
    DrawWait.drk ∉ s.signet.waits → s.draw 0 32 false = .ok b re v →
    u = ({ v with battery := { v.battery with drk := some b } } : State).endKeys true → u.stepRuns .keys = none →
    exec .drkDrawRetry s = .next u.afterKeys.onward) ∧
  (∀ s : State, 3 ≤ s.start.stage → exec (.startRetry 0) s = .next (s.log .retry 3 1 1 0 0)) ∧
  (∀ (s u : State) (r : StepRun) (b : Bool), s.stepRuns .lcsWipe = some r → s.nvmOutput = (b, u) →
    (b = true → u.nvm.tripped = false → exec .lcsWipeDone s = .next
      (((({ u with
        nvm := { u.nvm with
          pages := u.nvm.pages.filter fun (e : Nat × Bytes) => decide (e.1 < 16384)
          weak := u.nvm.weak.filter fun p => decide (p < 16384)
          writes := u.nvm.writes + 16384 }
        life := { u.life with wiping := false, pagesLeft := 0 }
        start := { u.start with holdWipe := false } } : State).stepStop .lcsWipe).stepEnd .lcsWipe 1 0).bump 25 0
          16384).onward) ∧
    (b = false ∨ u.nvm.tripped = true → exec .lcsWipeDone s = .next u.onward))

/-- Facets: the result of a BIST and of GDDR6 training, a reset of a facet, and its fence by software. It rests on
choices of the model too (log entries 25 and 27). -/
def Obligations.FacetEvents : Prop :=
  (∀ (s u : State) (f : Fin 16) (pass : Bool) (ms : Nat), s.fctState f = .bist →
    u = { s with
      fctRegs := tmod {} s.fctRegs f.val fun (x : FctRegs) =>
        { x with bistMs := min ms 65535, passes := if pass then min (x.passes + 1) 65535 else x.passes }
      start := { s.start with
        bistFail := if pass then s.start.bistFail &&& ~~~BitVec.ofNat 16 (2 ^ f.val)
          else s.start.bistFail ||| BitVec.ofNat 16 (2 ^ f.val)
        softFence := if pass then s.start.softFence &&& ~~~BitVec.ofNat 16 (2 ^ f.val) else s.start.softFence
        bistLeft := s.start.bistLeft &&& ~~~BitVec.ofNat 16 (2 ^ f.val) } } →
    exec (.facetBistDone f pass ms) s = .next (if pass then u.facetPassed f
      else u.setFct f (if s.start.softFence.getLsbD f then .fencedSoft else .fencedStart)).onward) ∧
  (∀ (s : State) (t : Training) (r : StepRun) (rate : Nat), s.stepRuns .gddr6 = some r → t.trained = 15 →
    t.rate = some rate →
    (r.method = 0 → exec (.gddr6TrainingDone t) s = .next
      (((s.setClus (·.trained t)).gddrUp (leField s.start.ratesRecord 0 1)).endGddr r.attempt 1 0 15).onward) ∧
    (r.method ≠ 0 → exec (.gddr6TrainingDone t) s = .next
      (((((s.setClus (·.trained t)).putRec trainName 0x11 (leBytes 1 rate)).gddrUp rate).endGddr r.attempt 3 1
        31).onward))) ∧
  (∀ (s : State) (f : Fin 16), 3 ≤ s.start.stage → s.stageBars (0x30000 + 0x1000 * f.val) = false →
    (s.fctState f ≠ .fencedAlarm →
      exec (.fctReset 0 f) s = .next ((s.clearFacet f).setFct f .bist).onward) ∧
    (s.fctState f = .fencedAlarm →
      exec (.fctReset 0 f) s = .next (s.violation 4 0 true (0x30000 + 0x1000 * f.val))) ∧
    ((s.fctState f = .inService ∨ s.fctState f = .narrow) → ∃ t y, exec (.fctFence 0 f true) s = .next t.onward ∧
      y = (s.clearFacet f).setFct f .fencedSoft ∧
      t = { y with start := { y.start with softFence := y.start.softFence ||| BitVec.ofNat 16 (2 ^ f.val) } }) ∧
    (s.fctState f = .fencedSoft → exec (.fctFence 0 f false) s = .next
      (({ s with start := { s.start with softFence := s.start.softFence &&& ~~~BitVec.ofNat 16 (2 ^ f.val) } } :
        State).facetPassed f).onward))

/-! The ring engine and the control of rings (chapter 3). -/

/-- The ring engine's events: a poll begins, and gives each polled ring its P; a read of descriptors begins, and each
descriptor that it returns is fetched; a descriptor is dispatched; its reads return; what has waited is raised a
class; a segment ends; and interrupts that were held are sent. It rests on choices of the model too (log entries 3, 10
and 19). -/
def Obligations.RingEngineEvents : Prop :=
  (∀ (s : State) (f : Fin 32), (s.fn f).polling = false → s.tagFree = true → s.fnServed f = true →
    (ringsOf f).any s.ringPolled = true →
    exec (.doorbellPoll f) s = .next (({ s with hif := { s.hif.window s.tick with
      pollNow := min 4000 ((s.hif.window s.tick).pollNow + 1) } } : State).modFn f fun x =>
        { x with polling := true, wide := !s.isStuck })) ∧
  (∀ (s u : State) (f : Fin 32) (env : Env) (b : Bytes) (wide : Bool), (s.fn f).polling = true → wide = (s.fn f).wide →
    u = (s.hostStores env).modFn f (fun x => { x with polling := false }) →
    u.hostFetch env (u.fn f).db.toNat 128 = .ok b →
    exec (.pollComplete f env) s = .next ((ringsOf f).foldl (fun (t : State) r => t.pollRing wide r b)
      (u.modFn f fun x => { x with
        pollFaults := 0
        interval := if (ringsOf f).any fun r => u.pollSees wide r && leField b (8 * (r % 16)) 4 != (u.ring r).f.toNat
          then x.minInterval else min (2 * x.interval) x.maxInterval })).onward) ∧
  (∀ (s u : State) (r : Nat) (wide : Bool) (b : Bytes) (p : Word32), (s.ring r).st = .running →
    (wide = true ∨ r = 0) → p = BitVec.ofNat 32 (leField b (8 * (r % 16)) 4) →
    u = s.modRing r (fun x => { x with p := p }) →
    (((u.ring r).size < (p - (u.ring r).w).toNat ∨ (u.ring r).size < (p - (u.ring r).f).toNat) →
      s.pollRing wide r b = u.stopRing r 3) ∧
    ((p - (u.ring r).w).toNat ≤ (u.ring r).size → (p - (u.ring r).f).toNat ≤ (u.ring r).size →
      s.pollRing wide r b = u)) ∧
  (∀ (s : State) (r : Fin 512) (x : Ring) (next : Word32) (n : Nat), x = s.ring r → x.st = .running →
    s.tagFree = true → s.fnServed (fnOf r) = true → next = x.f + BitVec.ofNat 32 ((x.reads.map (·.count)).foldl (· + ·) 0) →
    n = min (min (x.p - next).toNat 16) (min (x.size - next.toNat % x.size) (64 - x.undispatched)) →
    (x.p - next).toNat ≤ x.size → n ≠ 0 →
    exec (.descriptorFetch r) s = .next (s.setRing r { x with reads := x.reads ++ [⟨next, n⟩] })) ∧
  (∀ (s u : State) (r : Fin 512) (env : Env) (rd : RingRead) (rest : List RingRead) (b : Bytes),
    (s.ring r).reads = rd :: rest → u = s.hostStores env →
    u.hostFetch env ((u.ring r).sqBase.toNat + 64 * (rd.first.toNat % (u.ring r).size)) (64 * rd.count) = .ok b →
    ∀ v, v = (List.range rd.count).foldl (fun (t : State) k => t.fetchDesc r (decodeDesc (slice b (64 * k) 64)))
      (u.setRing r { u.ring r with reads := rest }) →
    exec (.fetchComplete r env) s = .next (if (u.ring r).st = .running then v
      else (v.refuseFetched r (u.ring r).stopStatus).drain r).onward) ∧
  (∀ (s : State) (r : Nat) (st : Status), s.refuseFetched r st =
    (((s.ring r).work.filter fun w => w.phase == .fetched).foldl (fun (a : State) w => a.cutChain r w.desc) s).modRing r
      fun x => x.refuseFetched st) ∧
  (∀ (s u : State) (r : Nat) (w : Work) (weak : List Nat), s.nextWork = some (r, w) → s.scanFinds w.desc = (weak, u) →
    exec .dispatch s = .next
      ((({ u with hif := { u.hif with rr := tset 0 u.hif.rr w.cls (rrNext 512 r) } } : State).launch r w none weak).onward)) ∧
  (∀ (s : State) (r : Fin 512) (n : Nat) (env : Env) (w : Work) (o : Op),
    ((s.ring r).work.filter fun w => w.phase == .reading)[n]? = some w → Op.decode w.desc.opcode = some o →
    exec (.hostReadComplete r n env) s = .next ((s.hostStores env).runOp r w.seq o w.desc env).onward) ∧
  (∀ (s : State) (r : Fin 512) (n : Nat) (w : Work), s.hif.schedAge ≠ 0 →
    ((s.ring r).work.filter fun w => w.phase == .fetched)[n]? = some w →
    exec (.schedAgeExpiry (.ring r n)) s = .next (s.modRing r fun x => { x with
      work := x.work.map fun v => if v.seq = w.seq then { v with cls := min 3 (v.cls + 1) } else v })) ∧
  (∀ (s u v : State) (f : Fin 16) (lane : Fin 8) (env : Env) (fails : Bool) (m : Msg) (c : CipherSt) (n : Nat)
    (data : Bytes) (t : CipherSt × Bytes) (m1 : Msg),
    s.onLane f lane = some (m, n) → u = s.hostStores env → m.kind = .cipher c → m.held = false → m.aborted = false →
    u.gather env m.ins 0 m.pos n = .ok data →
    t = cipherSegment (u.material (handleIndex c.key.toNat)) c data →
    m1 = { m with
      kind := .cipher t.1, pos := m.pos + n, outPos := m.outPos + t.2.length, st := .parked } →
    m.pos + n < m.inLen →
    v = ((u.emit m.ring (cipherInPlace c m) m.ins m.outs m.outPos t.2).modMsg f m.id fun _ => m1).bump
      (1 + f) 1 n →
    exec (.segmentEnd f lane env fails) s = .next (v.sched f env.raw).onward) ∧
  (∀ (s : State) (r : Fin 512), (s.ring r).timing = true → exec (.coalTimeExpiry r) s = .next (s.trigger r)) ∧
  (∀ (s u : State) (f : Fin 32) (v : Fin 64), 3 ≤ s.start.stage → s.fnExists f = true →
    u = s.modFn f (fun x => { x with msixMask := x.msixMask &&& ~~~BitVec.ofNat 64 (2 ^ v.val) }) →
    (((u.fn f).d3hot = true ∨ (u.fn f).msixPend.getLsbD v = false) → exec (.msixUnmask f v) s = .next u) ∧
    ((u.fn f).d3hot = false → (u.fn f).msixPend.getLsbD v = true → exec (.msixUnmask f v) s = .next
      ((u.modFn f fun y => { y with msixPend := y.msixPend &&& ~~~BitVec.ofNat 64 (2 ^ v.val) }).sendMsix f v)))

/-- Control of rings by their function or the PF: a `DISABLED` ring starts empty, a `STOPPED` one goes on where it
stopped; stop, abort and reset; a function taken out of service. A function that reaches a ring of another is a
violation of kind 1; one that does not exist reaches none. It rests on choices of the model too (log entry 20). -/
def Obligations.RingControl : Prop :=
  ∀ (s : State) (fn : Fin 32) (r : Fin 512), 3 ≤ s.start.stage → (fn.val = 0 ∨ fnOf r = fn.val) →
    s.fnExists fn = true →
    ((s.ring r).st = .disabled → exec (.ringEn fn r) s = .next (s.setRing r { s.ring r with
      st := .running, cause := 0, f := 0, w := 0, p := 0, chains := [], since := 0, timing := false })) ∧
    ((s.ring r).st = .stopped → exec (.ringEn fn r) s = .next (s.setRing r { s.ring r with
      st := .running, cause := 0, p := (s.ring r).f })) ∧
    ((s.ring r).st = .running → exec (.ringStop fn r) s = .next ((s.stopRing r 1).abortCollects r).onward) ∧
    (∀ u : State, ((s.ring r).st = .running ∨ (s.ring r).st = .stopping) →
      u = ((((((s.refuseFetched r .ringStopped).modRing r fun x => { x with st := .stopping, cause := 2 }).abortReading
        r).abortCollects r).abortSignet r).abortWaits r).endInvocations
          (fun i => match i.kind with
            | .invoke g _ => g == r.val
            | .hook _ _ => false) (some .aborted) →
      exec (.ringAbort fn r) s = .next
        (((List.range 16).foldl (fun (a : State) f => a.abortFacet f r) u).drain r).onward) ∧
    (∀ u : State, (s.ring r).st = .stopped →
      u = (List.range 16).foldl (fun (a : State) f =>
        ((a.facet f).msgs.filter fun m => m.ring == r.val && m.st == .await).foldl
          (fun (b : State) m => b.vanishMsg f m) a) s →
      exec (.ringReset fn r) s = .next
        (u.modRing r fun x => { x with st := .disabled, cause := 0, chains := [] }).onward) ∧
    (∀ (g : Fin 32), ∀ x ∈ ([.ringEn g r, .ringStop g r, .ringAbort g r, .ringReset g r] : List Instr),
      (g ≠ 0 → fnOf r ≠ g.val → s.fnExists g = true →
        exec x s = .next (s.violation 1 g true (32 * (r.val % 16) + 0x18))) ∧
      (s.fnExists g = false → exec x s = .next s)) ∧
    (∀ g : Fin 32, g ≠ 0 → exec (.functionDisabled 0 g) s = .next
      ((ringsOf g).foldl (fun (a : State) q => a.stopRing q 6 .functionDisabled)
        (s.modFn g fun x => { x with en := false })).onward)

/-! The link, the mailbox and sessions (chapter 2). -/

/-- Events of the link: a reset or a loss stops every ring with cause 7 and clears session secrets, IDE keys, held
completions; a host reset abandons snapshots too; a function-level reset returns its function's rings to `DISABLED`
with cause 8; power states, retraining and the loss of an IDE stream. It rests on choices of the model too (log
entries 9, 21 and 53). -/
def Obligations.LinkEvents : Prop :=
  (∀ (s : State) (r : Nat), r < 512 → (s.linkLoss.ring r).st = .stopped ∧ (s.linkLoss.ring r).cause = 7) ∧
  (∀ s : State, s.linkLoss.link.sessions = [] ∧ s.linkLoss.link.ide = [] ∧ s.linkLoss.link.job = none ∧
    s.linkLoss.hif.held = []) ∧
  (∀ s : State, 2 ≤ s.start.stage → s.link.perst = false → exec .hotReset s = .next
    ({ s.linkLoss with link := { s.linkLoss.link with evt := s.linkLoss.link.evt ||| 2 } } : State).onward) ∧
  (∀ s : State, s.link.dlUp = true → 2 ≤ s.start.stage → s.linkLoss.link.perst = false → exec .dlDown s = .next
    ({ s.linkLoss with link := { s.linkLoss.link with
      dlUp := false, width := 0, rate := 0, flit := false, evt := s.linkLoss.link.evt ||| 1 } } : State).onward) ∧
  (∀ s : State, 2 ≤ s.start.stage → exec .pePerstN s = .next
    ({ s.linkLoss with
      fns := s.linkLoss.fns.map fun (e : Nat × Fn) => (e.1, { e.2 with msixMask := BitVec.allOnes 64, relaxed := true })
      link := { perst := true, nextSession := s.linkLoss.link.nextSession, jobs := s.linkLoss.link.jobs }
      snp := { s.linkLoss.snp with run := none, waiting := [] }
      out := { s.linkLoss.out with readyStatus := false } } : State).onward) ∧
  (∀ (s : State) (up : Bool), up = Nat.ble 3 s.start.stage → exec .pePerstNDeassert s = .next
    { s with
      link := { s.link with perst := false, ready := up }
      out := { s.out with readyStatus := s.out.readyStatus || (up && s.link.cfg.readiness) } }) ∧
  (∀ (s : State) (width : BitVec 6) (rate : BitVec 4) (flit : Bool), s.link.perst = false →
    (width = 4 ∨ width = 8 ∨ width = 16) → 1 ≤ rate.toNat →
    (rate.toNat ≤ 6 → (rate.toNat = 6 → flit = true) → s.link.dlUp = false → exec (.dlUp width rate flit) s = .next
      { s with link := { s.link with dlUp := true, width := width, rate := rate, flit := flit } }) ∧
    (rate.toNat = 6 → flit = false → exec (.dlUp width rate flit) s = .next s) ∧
    (rate.toNat ≤ 6 → (rate.toNat = 6 → s.link.flit = true) → s.link.dlUp = true →
      (s.link.rate ≠ rate ∨ s.link.width ≠ width) → exec (.retrain rate width) s = .next
      { s with link := { s.link with rate := rate, width := width, evt := s.link.evt ||| 4 } })) ∧
  (∀ (s : State) (f : Fin 32), 3 ≤ s.start.stage → s.fnExists f = true →
    exec (.d3hot f true) s = .next (s.modFn f fun x => { x with d3hot := true }) ∧
    ((s.fn f).d3hot = true → exec (.d3hot f false) s = .next
      (((s.modFn f fun x => { x with d3hot := false }).sendPending f).releaseHeld f).onward) ∧
    exec (.flr f) s = .next
      (((ringsOf f).foldl (fun (a : State) r => a.setRing r { cause := 8 })
        (s.dropRings (fun r => fnOf r == f.val) fun g => g == f.val)).modFn f fun x => { x with
          db := 0, pollMin := 1, pollMax := 1000, interval := 1, pollFaults := 0, polling := false
          relaxed := true, msixPend := 0 }).onward) ∧
  (∀ (s : State) (i : Fin 5), 2 ≤ s.start.stage → (s.ide i).secure = true → exec (.ideFail i) s = .next
    (({ s.setIde i {} with link := { (s.setIde i {}).link with evt := (s.setIde i {}).link.evt ||| 8 } } : State).raise
      20 (BitVec.ofNat 8 i.val)).onward)

/-- R68: a request of up to 64 KiB leaves DOE Error as it was; a longer one sets it, and does nothing else: no
response comes. -/
def Obligations.MailboxLimits : Prop :=
  ∀ (s : State) (q : DoeReq) (slot : BitVec 4) (off len : BitVec 16) (c : BitVec 256) (i : Fin 5) (set : Fin 2)
    (sub : Fin 6) (a b : Bool) (n : Byte) (peer : Bytes), 3 ≤ s.start.stage → s.link.perst = false →
    ∀ x ∈ ([.doeDiscovery q n, .getVersion q, .getCapabilities q, .negotiateAlgorithms q a b a b a,
      .getDigests q, .getCertificate q slot off len, .challenge q slot c, .getMeasurements q n (some c),
      .getMeasurements q n none, .keyExchange q slot peer, .finish q a, .heartbeat q, .keyUpdate q, .endSession q,
      .ideQuery q i, .keyProg q i set sub c, .kSetGo q i set, .kSetStop q i set] : List Instr),
      (q.len ≤ 65536 → ∀ t, exec x s = .next t → t.link.doeError = s.link.doeError) ∧
      (65536 < q.len → exec x s = .next { s with link := { s.link with doeError := true } })

/-- The mailbox from the end of S2 on: discovery of its three protocols, an abort, an object too long, and the SPDM
requests that name and measure the device, each counted and each refused before the one that must precede it; one that
is to be signed makes the mailbox Busy, draws its nonce from instance 0 and asks for a signet engine. It rests on
choices of the model too (log entry 33). -/
def Obligations.DoeMessages : Prop :=
  (∀ (s u : State) (q : DoeReq), 3 ≤ s.start.stage → s.link.perst = false → u = s.bump 24 6 1 →
    (∃ t, exec .doeAbort s = .next t ∧
      t.link = { s.link with answer := none, doeError := false, doeBusy := false, job := none } ∧
      (∀ x ∈ t.signet.queue, ∀ n, x.client ≠ .spdm n) ∧ DrawWait.spdm ∉ t.signet.waits ∧
      t = { s with
        link := t.link, signet := { s.signet with queue := t.signet.queue, waits := t.signet.waits } }) ∧
    (65536 < q.len → ∀ x ∈ ([.doeDiscovery q 0, .getVersion q, .getCapabilities q, .getDigests q, .heartbeat q] :
      List Instr), exec x s = .next { s with link := { s.link with doeError := true } }) ∧
    (q.len ≤ 65536 → s.link.doeBusy = false →
      (∀ i : Byte, i.toNat < 3 → exec (.doeDiscovery q i) s = .next
        (s.reply 0 (leBytes 2 1 ++ [i, if i = 2 then 0 else i + 1]))) ∧
      exec (.getVersion q) s = .next { u.reply 0x04 [0x12] with link := { (u.reply 0x04 [0x12]).link with
        versioned := true, capable := false, negotiated := false, keyed := false } } ∧
      (s.link.versioned = true → exec (.getCapabilities q) s = .next
        { u.reply 0x61 capabilities with link := { (u.reply 0x61 capabilities).link with capable := true } }) ∧
      (s.link.versioned = false → exec (.getCapabilities q) s = .next (u.spdmError 0x04)) ∧
      (s.link.capable = true → ∀ (a h x e k : Bool) (y : State),
        y = u.reply 0x63 [BitVec.ofNat 8 (ofBits [a, h, x, e, k])] →
        exec (.negotiateAlgorithms q a h x e k) s = .next
          { y with link := { y.link with negotiated := a && h, keyed := a && h && x && e && k } }) ∧
      (s.link.negotiated = false → ∀ (l n : BitVec 16) (c : BitVec 256),
        ∀ x ∈ ([.getDigests q, .getCertificate q 0 l n, .challenge q 0 c, .getMeasurements q 1 none,
          .keyExchange q 0 []] : List Instr), exec x s = .next (u.spdmError 0x04)) ∧
      (s.link.negotiated = true →
        exec (.getDigests q) s = .next ((u.noteTies [.sys 0x06 0, .sys 0x06 1]).reply 0x01
          ([BitVec.ofNat 8 (ofBits ((List.range 2).map fun i => (u.certChain i).isSome))] ++
            (((List.range 2).filterMap u.certChain).map sha384).flatten)) ∧
        (∀ (slot : BitVec 4) (off len : BitVec 16) (c : Bytes) (n : Nat), u.certChain slot.toNat = some c →
          off.toNat < c.length → n = min len.toNat (c.length - off.toNat) →
          exec (.getCertificate q slot off len) s = .next ((u.noteTie (.sys 0x06 slot.toNat)).reply 0x02
            (leBytes 2 n ++ leBytes 2 (c.length - off.toNat - n) ++ slice c off.toNat n))) ∧
        (∀ (slot : BitVec 4) (nonce : BitVec 256) (c : Bytes), u.certChain slot.toNat = some c →
          exec (.challenge q slot nonce) s = .next (if s.life.idKey = none
            then (u.noteTie (.sys 0x06 slot.toNat)).spdmError 0x05
            else (u.noteTie (.sys 0x06 slot.toNat)).spdmBegin .sign 0x03 (sha384 c) [])) ∧
        (∀ (i : Byte) (l : List Nat) (blocks data : Bytes), (i.toNat ≤ 6 ∨ i.toNat = 255) →
          l = (if i.toNat = 255 then [1, 2, 3, 4, 5, 6] else if i.toNat = 0 then [] else [i.toNat]) →
          blocks = (l.map fun k => [BitVec.ofNat 8 k, 1] ++ leBytes 2 51 ++
            [if k = 5 then 3 else if k = 3 ∨ k = 6 then 2 else if k = 2 ∨ k = 4 then 1 else (0 : Byte)] ++ leBytes 2 48 ++ fit 48 (u.measured k)).flatten →
          data = [if i.toNat = 0 then 6 else 0, BitVec.ofNat 8 l.length] ++ leBytes 3 blocks.length ++ blocks →
          exec (.getMeasurements q i none) s = .next (u.reply 0x60 data) ∧
          ∀ c, exec (.getMeasurements q i (some c)) s = .next (if s.life.idKey = none then u.spdmError 0x05
            else u.spdmBegin .sign 0x60 data []))))) ∧
  (∀ (u t y w : State) (step : SpdmStep) (kind : Nat) (data peer h b : Bytes) (re : Bool) (j : SpdmJob),
    u.freshBytes 48 = (h, t) →
    j = { number := t.link.jobs + 1, step := step, kind := kind, data := data, peer := peer, hash := h } →
    y = { t with link := { t.link with job := some j, jobs := j.number, doeBusy := true, answer := none } } →
    (y.kindServes false = false → u.spdmBegin step kind data peer = y.spdmError 0x05) ∧
    (y.kindServes false = true → y.draw 0 (if step = .agree then 48 else 32) false = .wait →
      u.spdmBegin step kind data peer = { y with signet := { y.signet with waits := y.signet.waits ++ [.spdm] } }) ∧
    (y.kindServes false = true → y.draw 0 (if step = .agree then 48 else 32) false = .fail w →
      u.spdmBegin step kind data peer = w.spdmError 0x05) ∧
    (y.kindServes false = true → y.draw 0 (if step = .agree then 48 else 32) false = .ok b re w →
      ∀ z, z = (w.modJob fun x => if step = .agree then { x with eph := b } else { x with nonce := b }) →
      u.spdmBegin step kind data peer = { z with signet := { z.signet with
        queue := z.signet.queue ++ [{ client := .spdm j.number, lattice := false, scheme := 0x02 }] } }))

/-- Sessions and IDE keys: a key exchange, with fewer than four sessions open, is agreed and signed on a signet engine
and then opens one; `FINISH` with a right MAC makes it usable and with a wrong one ends it; in a finished session its
keys advance, it ends, and IDE keys are set, started, stopped and asked for. It rests on choices of the model too (log
entry 33). -/
def Obligations.SessionMessages : Prop :=
  (∀ (s s1 u : State) (n : Fin 12) (env : Env) (fails : Bool) (q : SigReq) (k : Nat) (j : SpdmJob),
    (s.engine n).busy = some q → q.client = .spdm k → DrawWait.engine n.val ∉ s.signet.waits →
    s1 = s.hostStores env → u = (s1.setEngine n { s1.engine n with busy := none }).bump 17 n 1 →
    s.link.job = some j → j.number = k →
    (j.step = .agree → curve384.scalarOk j.eph = false →
      exec (.engineOpDone n env fails) s = .next u.spdmGo.strandsGo.onward) ∧
    (j.step = .agree → curve384.scalarOk j.eph = true → curve384.ecdh j.eph (0x04 :: fit 96 j.peer) = none →
      exec (.engineOpDone n env fails) s = .next (u.spdmError 0x01).strandsGo.onward) ∧
    (∀ x, j.step = .agree → curve384.scalarOk j.eph = true → curve384.ecdh j.eph (0x04 :: fit 96 j.peer) = some x →
      exec (.engineOpDone n env fails) s = .next (u.modJob fun y => { y with
        step := .sign, secret := x, data := j.data ++ (curve384.public j.eph).drop 1 }).spdmGo.strandsGo.onward) ∧
    (∀ key, j.step = .sign → s.life.idKey = some key →
      (signBytes 0x02 0x02 1 key [] q.rnd j.hash = none → exec (.engineOpDone n env fails) s = .next
        (s1.engineBegin n { q with rnd := [], charged := true })) ∧
      (∀ sig v, signBytes 0x02 0x02 1 key [] q.rnd j.hash = some sig → v = u.reply j.kind (j.data ++ j.nonce ++ sig) →
        exec (.engineOpDone n env fails) s = .next (if j.kind = 0x64 then
            ({ v with link := { v.link with
              sessions := v.link.sessions ++ [⟨v.link.nextSession, false, j.secret, 0⟩]
              nextSession := v.link.nextSession + 1 } } : State)
          else v).strandsGo.onward))) ∧
  ∀ (s u : State) (q : DoeReq), 3 ≤ s.start.stage → s.link.perst = false → s.link.doeBusy = false → q.len ≤ 65536 →
    u = s.bump 24 6 1 →
    (∀ (slot : BitVec 4) (peer : Bytes), s.link.negotiated = true →
      (s.link.keyed = false → exec (.keyExchange q slot peer) s = .next (u.spdmError 0x07)) ∧
      (s.link.keyed = true → (u.certChain slot.toNat).isSome = true →
        (4 ≤ s.link.sessions.length → exec (.keyExchange q slot peer) s = .next
          ((u.noteTie (.sys 0x06 slot.toNat)).spdmError 0x0A)) ∧
        (s.link.sessions.length < 4 → s.life.idKey.isSome = true →
          exec (.keyExchange q slot peer) s = .next
            ((u.noteTie (.sys 0x06 slot.toNat)).spdmBegin .agree 0x64 [] peer)))) ∧
    (∀ y, u.session q.session = some y → y.finished = false →
      exec (.finish q true) s = .next
        ((u.modSessions fun l => l.map fun z => if z.id = y.id then { z with finished := true } else z).reply 0x65 []) ∧
      exec (.finish q false) s = .next
        ((u.modSessions fun l => l.filter fun z => z.id != y.id).spdmError 0x06)) ∧
    (∀ y, u.session q.session = some y → y.finished = true →
      exec (.heartbeat q) s = .next (u.reply 0x68 []) ∧
      exec (.keyUpdate q) s = .next ((u.modSessions fun l => l.map fun z =>
        if z.id = y.id then { z with generation := z.generation + 1 } else z).reply 0x69 []) ∧
      exec (.endSession q) s = .next ((u.modSessions fun l => l.filter fun z => z.id != y.id).reply 0x6C []) ∧
      (∀ (i : Fin 5) (set : Fin 2) (sub : Fin 6) (key : BitVec 256) (x : IdeStream), x = u.ide i →
        exec (.ideQuery q i) s = .next (u.reply 0x7E [1, BitVec.ofNat 8 i.val, if x.secure then 1 else 0,
          BitVec.ofNat 8 (x.keys.filter fun e => e.1 / 6 == 0).length,
          BitVec.ofNat 8 (x.keys.filter fun e => e.1 / 6 == 1).length]) ∧
        exec (.keyProg q i set sub key) s = .next ((u.setIde i { x with
          keys := (x.keys.filter fun e => e.1 != 6 * set.val + sub.val) ++
            [(6 * set.val + sub.val, leBytes 32 key.toNat)] }).reply 0x7E [3, BitVec.ofNat 8 i.val, 0]) ∧
        (x.full set = true → exec (.kSetGo q i set) s = .next
          ((u.setIde i { x with set := set.val, secure := true }).reply 0x7E [5, BitVec.ofNat 8 i.val])) ∧
        ((x.set ≠ set.val ∧ x.secure = true) → exec (.kSetStop q i set) s = .next
          ((u.setIde i { x with keys := x.keys.filter fun e => e.1 / 6 != set.val }).reply 0x7E
            [5, BitVec.ofNat 8 i.val])) ∧
        ((x.set = set.val ∨ x.secure = false) → exec (.kSetStop q i set) s = .next
          ((u.setIde i { x with keys := x.keys.filter fun e => e.1 / 6 != set.val, secure := false }).reply 0x7E
            [5, BitVec.ofNat 8 i.val])))) ∧
    (u.session q.session = none → ∀ (i : Fin 5) (set : Fin 2),
      ∀ x ∈ ([.finish q true, .heartbeat q, .keyUpdate q, .endSession q, .ideQuery q i, .kSetGo q i set,
        .kSetStop q i set] : List Instr), exec x s = .next (u.spdmError 0x0B)) ∧
    (u.secured q = false → ∀ (i : Fin 5) (set : Fin 2) (sub : Fin 6) (key : BitVec 256),
      exec (.keyProg q i set sub key) s = .next (u.reply 0x7E [3, BitVec.ofNat 8 i.val, 1]))

/-! Twin crowns (chapter 12). -/

/-- R597: which output a clasp accepts, by its claim and its crown, and what the clasp holds then; a refused output
is counted and changes nothing behind the clasp but by its NOTE event; claims equal in one cycle go to crown A; and
a whole start leaves the clasps without claim and holder. -/
def Obligations.ClaspTable : Prop :=
  (∀ (s : State) (b : Bool) (k : Fin 4) (c : BitVec 16) (x : Clasp), 2 ≤ s.start.stage → c = (s.crown b).claim →
    x = s.clasp k →
    ((x.claimHi.toNat < c.toNat ∨ (c = x.claimHi ∧ (x.holder = some b ∨ b = false))) →
      exec (.claspOutput b k false) s = .next (s.setClasp k { x with claimHi := c, holder := some b })) ∧
    ((c.toNat < x.claimHi.toNat ∨ (c = x.claimHi ∧ x.holder ≠ some b ∧ b = true)) →
      exec (.claspOutput b k false) s = .next
        (((s.setClasp k { x with refused := min (x.refused + 1) (2 ^ 32 - 1) }).bump 24 5 1).noteEvent 17
          (if b then 1 else 0))) ∧
    (s.crowns.a.claim = s.crowns.b.claim → x.claimHi.toNat ≤ s.crowns.a.claim.toNat →
      exec (.claspOutput b k true) s = .next
        ((s.setClasp k { x with claimHi := s.crowns.a.claim, holder := some false }).refuseOutput true k))) ∧
  (∀ (s t : State) (k : Nat), k < 4 →
    ((s.start.stage = 0 ∧ exec .keeperPor s = .next t) ∨ (s.start.stage ≠ 0 ∧ exec .sysResetN s = .next t) ∨
      (s.start.stage ≠ 0 ∧ s.start.stage ≠ 1 ∧ exec (.pwrGoodFall true) s = .next t) ∨
      (3 ≤ s.start.stage ∧ exec (.resetWhole 0 0x4B57) s = .next t)) →
    (∀ b, (t.crown b).claim = 0) ∧ (t.clasp k).claimHi = 0 ∧ (t.clasp k).holder = none)

/-- Heartbeats, their checks and the health words that the tamper logic writes then, the causes found, a takeover, a
seize that fails, self-tests, reports and rejoins. It rests on choices of the model too (log entries 28, 37 and 59).
-/
def Obligations.CrownEvents : Prop :=
  (∀ s : State, 2 ≤ s.start.stage →
    exec .crownHeartbeat s = .next
      (s.setActive { s.activeCrown with heartbeat := s.activeCrown.heartbeat + 1 }).healthBeat ∧
    exec .healthReport s = .next ({ s with crowns := { s.crowns with
      a := if s.crowns.a.st = .out then s.crowns.a else { s.crowns.a with report := s.crowns.a.report + 1 }
      b := if s.crowns.b.st = .out then s.crowns.b else { s.crowns.b with report := s.crowns.b.report + 1 } } } :
        State).healthHalves ∧
    exec .crownLoss s = .next (s.raise 18 (if s.crowns.activeB then 1 else 0))) ∧
  (∀ (s u : State) (m : Nat), 2 ≤ s.start.stage → s.otherCrown.st = .standby →
    m = (if s.activeCrown.heartbeat = s.otherCrown.lastSeen then s.otherCrown.missed + 1 else 0) →
    u = s.setOther { s.otherCrown with lastSeen := s.activeCrown.heartbeat, missed := m } →
    (m < max 2 s.crowns.miss.toNat → exec .heartbeatCheck s = .next u.tamperBeat) ∧
    (max 2 s.crowns.miss.toNat ≤ m → exec .heartbeatCheck s = .next (u.addCause 1).tamperBeat)) ∧
  (∀ (s : State) (i : Bool), 2 ≤ s.start.stage →
    (s.takeOk = true → exec (.crownFaultSignal i) s = .next (s.addCause (if i then 3 else 2))) ∧
    (s.takeOk = false → exec (.crownFaultSignal i) s = .next
      (s.raise 18 (if s.crowns.activeB then 1 else 0)))) ∧
  (∀ (s : State) (c : Fin 3) (env : Env), 2 ≤ s.start.stage → c.val + 1 ∈ s.crowns.due → s.takeOk = true →
    exec (.takeover c env) s = .next ((s.hostStores env).takeOver (c.val + 1) env).onward) ∧
  (∀ (s : State) (k : Fin 4) (n : BitVec 16) (a : Bool), 2 ≤ s.start.stage → s.crowns.due ≠ [] → s.takeOk = true →
    a = s.crowns.activeB → n = BitVec.ofNat 16 (s.claimHi + 1) →
    (higherClaim (!a) (s.claimHi + 1) = none → exec (.seizeTimeout k) s = .next s) ∧
    (∀ c, higherClaim (!a) (s.claimHi + 1) = some c →
      ∃ t, exec (.seizeTimeout k) s = .next t ∧ t.crowns.due = [] ∧
        t.crown (!a) = { s.crown (!a) with st := .unfit, claim := n } ∧ t.crown a = { s.crown a with claim := c } ∧
        ∀ j : Fin 4, j.val < s.crowns.clasps.length → t.clasp j =
          if j < k then { s.clasp j with claimHi := n, holder := some (!a) }
          else if j = k then { claimHi := c, holder := some a, refused := min ((s.clasp k).refused + 1) (2 ^ 32 - 1) }
          else s.clasp j)) ∧
  (∀ (s : State) (b : Bool) (fail : Option (Fin 7 × Byte)) (v : Option (Nat × Nat)), 2 ≤ s.start.stage →
    (s.crown b).st = .standby ∨ (s.crown b).st = .unfit ∨ (s.crown b).st = .starting →
    v = (match fail with
      | none => if s.nvm.patchImage = some (s.crown b).area then none else some (1, 0)
      | some (t, p) =>
        if t = 0 ∨ s.nvm.patchImage = some (s.crown b).area then some (t.val, p.toNat) else some (1, 0)) →
    (v = none → exec (.selfTestLoopDone b fail) s = .next (s.setCrown b { s.crown b with
      st := .standby, loops := (s.crown b).loops + 1, loopFails := 0, testNow := 127 })) ∧
    (∀ t p, v = some (t, p) → exec (.selfTestLoopDone b fail) s = .next
      ((s.setCrown b { s.crown b with
        st := if 3 ≤ (s.crown b).loopFails + 1 then .out else .unfit
        loops := (s.crown b).loops + 1
        fails := if (s.crown b).fails = BitVec.allOnes 32 then (s.crown b).fails else (s.crown b).fails + 1
        lastFail := (t + 1) * 256 + p
        loopFails := (s.crown b).loopFails + 1
        testNow := 2 ^ t - 1 }).raise 17 (if b then 1 else 0)))) ∧
  (∀ (s u : State) (b : Bool) (p : Byte), 2 ≤ s.start.stage → (s.crown b).st = .active →
    exec (.selfTestLoopDone b none) s = .next s ∧
    (u = s.setCrown b { s.crown b with
        fails := if (s.crown b).fails = BitVec.allOnes 32 then (s.crown b).fails else (s.crown b).fails + 1
        lastFail := 6 * 256 + p.toNat } →
      exec (.selfTestLoopDone b (some (5, p))) s = .next
        (if u.takeOk then u.addCause 3 else u.raise 18 (if u.crowns.activeB then 1 else 0)))) ∧
  (∀ s : State, 2 ≤ s.start.stage → s.otherCrown.st ≠ .out →
    (s.otherCrown.report ≠ s.crowns.standbySeen → exec .standbyReportCheck s = .next
      { s with crowns := { s.crowns with standbySeen := s.otherCrown.report, standbyStale := 0 } }) ∧
    (s.otherCrown.report = s.crowns.standbySeen → s.crowns.standbyStale < 3 → exec .standbyReportCheck s = .next
      { s with crowns := { s.crowns with standbyStale := s.crowns.standbyStale + 1 } })) ∧
  (∀ (s u : State), 2 ≤ s.start.stage → s.crowns.rejoinDue = true →
    (s.otherCrown.st = .out ∨ s.otherCrown.st = .unfit) →
    u = (s.noteTie (.sys 0x07 0)).setCrown (!s.crowns.activeB) { s.crown (!s.crowns.activeB) with
      st := .starting, heldInReset := false, loopFails := 0, missed := 0, ram := []
      area := s.nvm.patchImage.getD [], patch := BitVec.ofNat 32 (leField (s.nvm.patchImage.getD []) 0 4) } →
    exec .rejoinAuto s = .next { u with crowns := { u.crowns with
      rejoins := min (u.crowns.rejoins + 1) 65535, rejoinDue := false } })

/-- A takeover gives the old standby the next claim at every clasp and makes it active, and the old active crown is
out and held in reset. It rests on choices of the model too (log entry 28). -/
def Obligations.TakeoverMade : Prop :=
  ∀ (s u : State) (cause : Nat) (env : Env), s.crowns.journal = none →
    (∀ e, e < 4 → (s.eng e).inv = none) → u = s.takeOver cause env →
    u.crowns.activeB = !s.crowns.activeB ∧
    (u.crown (!s.crowns.activeB)).st = .active ∧
    (u.crown (!s.crowns.activeB)).claim = BitVec.ofNat 16 (s.claimHi + 1) ∧
    (u.crown s.crowns.activeB).st = .out ∧ (u.crown s.crowns.activeB).heldInReset = true ∧
    (∀ k : Nat, k < 4 → k < s.crowns.clasps.length → (u.clasp k).claimHi = BitVec.ofNat 16 (s.claimHi + 1) ∧
      (u.clasp k).holder = some (!s.crowns.activeB)) ∧
    u.crowns.due = [] ∧ u.crowns.takeCause = BitVec.ofNat 4 cause ∧
    u.hallmarks = s.hallmarks ∧ u.keys = s.keys ∧ u.hostMem = s.hostMem

/-! Registers and management (chapters 19 and 20). -/

/-- Reads and writes of registers: a read that is not aligned, or by a VF beyond its own window, is a violation and
returns zero; a read otherwise changes nothing but the value returned and, for an `_LO` register that latches, its
partner's latch; a write of the mirror is a violation; the management buses answer from S2 on; JTAG's public
instructions are open in every state, with nothing driven out before S2; `EXTEST` and the crowns' own are open only
with their scope. It rests on choices of the model too (log entries 33, 34 and 35). -/
def Obligations.ManagementAccess : Prop :=
  (∀ (s : State) (fn : Fin 32) (addr : BitVec 25), 3 ≤ s.start.stage → s.fnExists fn = true →
    (addr.toNat % 4 ≠ 0 → exec (.loRegisterRead fn addr) s = .next
      ((s.violation 4 fn false addr.toNat).answerRead 0)) ∧
    (addr.toNat % 4 = 0 → placeOf fn addr.toNat = .barred → exec (.loRegisterRead fn addr) s = .next
      ((s.violation 1 fn false addr.toNat).answerRead 0)) ∧
    (addr.toNat % 4 = 0 → ∀ o, placeOf fn addr.toNat = .mirror o →
      exec (.loRegisterRead fn addr) s = .next (s.answerRead (s.mirrorWord o))) ∧
    (addr.toNat % 4 = 0 → ∀ p, placeOf fn addr.toNat = .reg p → (p < 0x100 ∨ 0x140 ≤ p) → p ≠ 0x70200 →
      (((0x70200 ≤ p ∧ p < 0x70240) ∨ (0xB0040 ≤ p ∧ p < 0xB0064)) → s.lcs = .test) →
      (∀ h, latchOf p = some h → isLatched p = false → exec (.loRegisterRead fn addr) s = .next
        (({ s with glb := { s.glb with latches := tset 0 s.glb.latches h (s.pfReg h) } } : State).answerRead
          (({ s with glb := { s.glb with latches := tset 0 s.glb.latches h (s.pfReg h) } } : State).pfReg p))) ∧
      (isLatched p = true → exec (.loRegisterRead fn addr) s = .next (s.answerRead (tget 0 s.glb.latches p))) ∧
      (isLatched p = false → latchOf p = none → exec (.loRegisterRead fn addr) s = .next
        (s.answerRead (s.pfReg p)))) ∧
    (∀ value, exec (.registerWrite fn addr value false) s = .next (s.violation 4 fn true addr.toNat)) ∧
    (∀ value o, placeOf fn (addr.toNat / 4 * 4) = .mirror o →
      exec (.registerWrite fn addr value true) s = .next (s.violation 4 fn true addr.toNat)) ∧
    (∀ value, placeOf fn (addr.toNat / 4 * 4) = .barred →
      exec (.registerWrite fn addr value true) s = .next (s.violation 1 fn true addr.toNat)) ∧
    (∀ value p, placeOf fn (addr.toNat / 4 * 4) = .reg p →
      exec (.registerWrite fn addr value true) s = .next (s.wrReg fn p value.toNat addr.toNat))) ∧
  (∀ (s : State) (command : Byte) (data b : Bytes) (t : State), 2 ≤ s.start.stage → s.freshBytes 16 = (b, t) →
    exec .healthRead s = .next { s with out := { s.out with smbus := some (128 :: s.healthBytes ++
      [pec ([0xD4, 0xD0, 0xD5] ++ (128 :: s.healthBytes))]) } } ∧
    exec (.mctpControl command data) s = .next { t with out := { t.out with mctp := some (command :: b) } }) ∧
  (∀ s : State, exec .smbusTimeout s = .next { s with out := { s.out with smbus := none, mctp := none } }) ∧
  (∀ s : State, s.start.stage = 1 →
    exec .bypass s = .next { s with out := { s.out with jtag := none, jtagIr := 0 } } ∧
    ∃ t, exec .idcode s = .next t ∧ t.out = { s.out with jtag := none, jtagIr := 1 }) ∧
  (∀ (s t : State) (pins b : Bytes), 2 ≤ s.start.stage →
    exec .bypass s = .next { s with out := { s.out with jtag := some [0], jtagIr := 0 } } ∧
    (s.freshBytes 4 = (b, t) → exec .idcode s = .next
      { t with out := { t.out with jtag := some ((byteAt b 0 ||| 1) :: b.drop 1), jtagIr := 1 } }) ∧
    (s.freshBytes pins.length = (b, t) → exec (.samplePreload pins) s = .next
      { t with out := { t.out with scan := pins, jtag := some b, jtagIr := 2 } }) ∧
    (s.freshBytes pins.length = (b, t) → s.scopeOpen 2 = true → exec (.extest pins) s = .next
      { t with out := { t.out with scan := pins, jtag := some b, jtagIr := 3 } }) ∧
    (s.scopeOpen 2 = false → exec (.extest pins) s = .next
      { s with out := { s.out with jtag := none, jtagIr := 3 } }) ∧
    (∀ x, s.freshBytes 64 = (b, t) → s.scopeOpen 0 = true → x = Knaquel.trace →
      exec (.knaquelPrivateInstruction x) s = .next { t with out := { t.out with jtag := some b, jtagIr := 4 } }) ∧
    (s.freshBytes 64 = (b, t) → s.scopeOpen 1 = true → exec (.knaquelPrivateInstruction .pipeline) s = .next
      { t with out := { t.out with jtag := some b, jtagIr := 4 } }) ∧
    (s.scopeOpen 1 = true → exec (.knaquelPrivateInstruction .contexts) s = .next
      { s with out := { s.out with jtag := some (zeros 64), jtagIr := 4 } }) ∧
    (∀ x, (knaquelScope x).any s.scopeOpen = false → exec (.knaquelPrivateInstruction x) s = .next
      { s with out := { s.out with jtag := none, jtagIr := 4 } }))

/-! Whole properties. -/

/-- R331: after every command that begins a whole start, and at reset, registers 0 to 55 hold H of 48 zero bytes,
`EXT_COUNT` 0, `OWNER` 1, `READ_ALL` 0, `RESET_OK` 1 and `LOCKED` 0. -/
def Obligations.HallmarksAfterStart : Prop :=
  (∀ (s t : State) (i : Nat), i < 56 →
    ((s.start.stage = 0 ∧ exec .keeperPor s = .next t) ∨ (s.start.stage ≠ 0 ∧ exec .sysResetN s = .next t) ∨
      (s.start.stage ≠ 0 ∧ s.start.stage ≠ 1 ∧ exec (.pwrGoodFall true) s = .next t) ∨
      (s.start.stage ≠ 0 ∧ exec (.pwrGoodFall false) s = .next t) ∨
      (3 ≤ s.start.stage ∧ exec (.resetWhole 0 0x4B57) s = .next t)) →
    (t.hallmark i).h = List.replicate 48 0 ∧ (t.hallmark i).extCount = 0 ∧ (t.hallmark i).owner = 1 ∧
      (t.hallmark i).readAll = false ∧ (t.hallmark i).resetOk = true ∧ (t.hallmark i).locked = false) ∧
  (∀ i, i < 56 → State.reset.hallmark i =
    { h := List.replicate 48 0, extCount := 0, owner := 1, readAll := false, resetOk := true, locked := false,
      torn := false })

/-- Commands of the Pip port change the port, the vault but for its record, and the counts of their units alone,
while no stored line of the vault is flawed (a read that fails raises monitor 16); messages of the mailbox change
the link, the random generators, the free values and counts alone, the count of ties among them. Host memory is
unchanged by all of them. -/
def Obligations.PortFrames : Prop :=
  (∀ (s t : State) (e : BitVec 20) (q : BitVec 40) (g : BitVec 2) (p : PipPins) (w : BitVec 64) (took later : Bool),
    ∀ i ∈ ([.pipPeek e q g p, .pipClaim e q g p, .pipArm e q g p, .pipAnswerCutoff w p took, .pipIdleCycle later,
      .qclkLock took] : List Instr), s.vault.flaws = [] → exec i s = .next t →
      t = { s with pip := t.pip, vault := t.vault, vlt := t.vlt, snp := t.snp } ∧
        t.vault.record = s.vault.record ∧ t.vault.flaws = []) ∧
  (∀ (s t : State) (q : DoeReq) (slot : BitVec 4) (off len : BitVec 16) (c : BitVec 256) (i : Fin 5) (set : Fin 2)
    (sub : Fin 6) (a b : Bool) (n : Byte) (peer : Bytes),
    ∀ x ∈ ([.doeDiscovery q n, .doeAbort, .getVersion q, .getCapabilities q, .negotiateAlgorithms q a b a b a,
      .getDigests q, .getCertificate q slot off len, .challenge q slot c, .getMeasurements q n (some c),
      .getMeasurements q n none, .keyExchange q slot peer, .finish q a, .heartbeat q, .keyUpdate q, .endSession q,
      .ideQuery q i, .keyProg q i set sub c, .kSetGo q i set, .kSetStop q i set] : List Instr),
      exec x s = .next t →
      t = { s with
        link := t.link, signet := t.signet, snp := t.snp, free := t.free
        nvm := { s.nvm with
          tie := t.nvm.tie, lastTieValid := t.nvm.lastTieValid, lastTieSys := t.nvm.lastTieSys
          lastTieRec := t.nvm.lastTieRec } } ∧ t.hostMem = s.hostMem)

/-- What reset leaves: stage S1 with every ring `DISABLED`, no key, no context, no vault, no alarm, no claim at a
clasp, the class caps of R156, and host memory listed nowhere (its contents are the model's choice, log entry 2). It
rests on choices of the model too (log entries 5 and 6). -/
def Obligations.ResetState : Prop :=
  State.reset.Safe ∧ State.reset.pending = [] ∧ State.reset.start.stage = 1 ∧ State.reset.start.stuck = false ∧
  (∀ r, State.reset.ring r = { st := .disabled }) ∧
  (State.reset.fn 0).classCap = 3 ∧ (∀ f, f ≠ 0 → (State.reset.fn f).classCap = 1) ∧
  (∀ i, (State.reset.slot i).st = .empty) ∧ (∀ f i, State.reset.dig f i = none) ∧
  State.reset.vault.st = .none ∧ State.reset.tamper.rung = 0 ∧ State.reset.tamper.latch = 0 ∧
  (∀ k : Fin 4, (State.reset.clasp k).claimHi = 0 ∧ (State.reset.clasp k).holder = none) ∧
  (∀ e, (State.reset.pipe e).known = false) ∧ State.reset.signet.pool = [] ∧ State.reset.nvm.recalling = true
end

