-- ==== Sys2Proof/Laws/Access.lean ====
section
/-!
SUPPORT. What the shared entry points do once their guards pass: a move that an engine stands at, a write to a register
of the PF or of a ring, a message of the mailbox.
-/

namespace Sys2Proof.Machine

/-- A move that its engine stands at, and can pay, acts. -/
theorem runMove_at {s : State} {e : Fin 4} {i : Instr} {x : Engine} {v : Invocation} {m : MoveFields}
    (h : s.AtMove e i x v m) (act : State → Engine → Invocation → MoveRes) :
    s.runMove e i act = match act s x v with
      | .go t y => t.movedTo e y v (x.pc + 1) (x.units + moveCost m x)
      | .jump t y dst => t.movedTo e y v dst (x.units + moveCost m x)
      | .bad t code => (t.faultRun e x code 0).onward
      | .ret verdict a n =>
        if verdict ≠ 0 then (s.faultRun e x 0x01 verdict).onward
        else (s.acceptRun e { x with units := x.units + moveCost m x } a n).onward := by
  obtain ⟨h1, h2, h3, h4, h5, h6⟩ := h
  unfold State.runMove
  simp only [h1, h2, h4]
  rw [if_neg (by simp [h3, h5]), if_neg (by omega)]
  all_goals rfl

/-- A write by the PF to a register that the stage does not bar acts. -/
theorem pfWrite_pf {s : State} {a : Nat} (act : State → State) (h : 3 ≤ s.start.stage) (b : s.stageBars a = false) :
    s.pfWrite 0 a act = act s := by
  unfold State.pfWrite
  rw [if_neg (by simp [State.fnExists]; omega), if_neg (by simp), if_neg (by simp [b])]

/-- From a VF it is a violation. -/
theorem pfWrite_vf {s : State} {f a : Nat} (act : State → State) (h : 3 ≤ s.start.stage) (b : f ≠ 0)
    (x : s.fnExists f = true) : s.pfWrite f a act = s.violation 1 f true a := by
  unfold State.pfWrite
  rw [if_neg (by simp [x]; omega), if_pos b]

/-- A write to a ring's registers by the PF or the ring's own function acts. -/
theorem ringWrite_own {s : State} {f r : Nat} (act : State → State) (h : 3 ≤ s.start.stage)
    (b : f = 0 ∨ fnOf r = f) (x : s.fnExists f = true) : s.ringWrite f r act = act s := by
  unfold State.ringWrite
  rw [if_neg (by simp [x]; omega), if_neg (by omega)]

/-- A mailbox object of at most 65,536 bytes, with the link out of reset and the mailbox not Busy, is answered. -/
theorem doe_taken {s : State} {q : DoeReq} (act : State → State) (h : 3 ≤ s.start.stage) (p : s.link.perst = false)
    (b : s.link.doeBusy = false) (l : q.len ≤ 65536) : s.doe q act = act s := by
  unfold State.doe
  rw [if_neg (by simp [p]; omega), if_neg (by omega), if_neg (by simp [b])]

/-- So is an SPDM request, which is counted. -/
theorem spdm_taken {s : State} {q : DoeReq} (act : State → State) (h : 3 ≤ s.start.stage)
    (p : s.link.perst = false) (b : s.link.doeBusy = false) (l : q.len ≤ 65536) :
    s.spdm q act = act (s.bump 24 6 1) :=
  doe_taken _ h p b l

end Sys2Proof.Machine
end

