-- ==== Sys2Proof/Laws/State.lean ====
section
/-!
SUPPORT. What the named updates of the state leave: one lemma for each field that an update does not write.
-/

namespace Sys2Proof.Machine

/-! `setRing` -/

@[simp] theorem State.setRing_pending (s : State) (r : Nat) (v : Ring) : (s.setRing r v).pending = s.pending := rfl
@[simp] theorem State.setRing_free (s : State) (r : Nat) (v : Ring) : (s.setRing r v).free = s.free := rfl
@[simp] theorem State.setRing_tick (s : State) (r : Nat) (v : Ring) : (s.setRing r v).tick = s.tick := rfl
@[simp] theorem State.setRing_hostMem (s : State) (r : Nat) (v : Ring) : (s.setRing r v).hostMem = s.hostMem := rfl
@[simp] theorem State.setRing_fns (s : State) (r : Nat) (v : Ring) : (s.setRing r v).fns = s.fns := rfl
@[simp] theorem State.setRing_hif (s : State) (r : Nat) (v : Ring) : (s.setRing r v).hif = s.hif := rfl
@[simp] theorem State.setRing_link (s : State) (r : Nat) (v : Ring) : (s.setRing r v).link = s.link := rfl
@[simp] theorem State.setRing_keys (s : State) (r : Nat) (v : Ring) : (s.setRing r v).keys = s.keys := rfl
@[simp] theorem State.setRing_facets (s : State) (r : Nat) (v : Ring) : (s.setRing r v).facets = s.facets := rfl
@[simp] theorem State.setRing_hallmarks (s : State) (r : Nat) (v : Ring) :
    (s.setRing r v).hallmarks = s.hallmarks := rfl
@[simp] theorem State.setRing_marks (s : State) (r : Nat) (v : Ring) : (s.setRing r v).marks = s.marks := rfl
@[simp] theorem State.setRing_nextMark (s : State) (r : Nat) (v : Ring) : (s.setRing r v).nextMark = s.nextMark := rfl
@[simp] theorem State.setRing_extends_ (s : State) (r : Nat) (v : Ring) : (s.setRing r v).extends_ = s.extends_ := rfl
@[simp] theorem State.setRing_signet (s : State) (r : Nat) (v : Ring) : (s.setRing r v).signet = s.signet := rfl
@[simp] theorem State.setRing_vault (s : State) (r : Nat) (v : Ring) : (s.setRing r v).vault = s.vault := rfl
@[simp] theorem State.setRing_vlt (s : State) (r : Nat) (v : Ring) : (s.setRing r v).vlt = s.vlt := rfl
@[simp] theorem State.setRing_pip (s : State) (r : Nat) (v : Ring) : (s.setRing r v).pip = s.pip := rfl
@[simp] theorem State.setRing_streams (s : State) (r : Nat) (v : Ring) : (s.setRing r v).streams = s.streams := rfl
@[simp] theorem State.setRing_strands (s : State) (r : Nat) (v : Ring) : (s.setRing r v).strands = s.strands := rfl
@[simp] theorem State.setRing_applets (s : State) (r : Nat) (v : Ring) : (s.setRing r v).applets = s.applets := rfl
@[simp] theorem State.setRing_crowns (s : State) (r : Nat) (v : Ring) : (s.setRing r v).crowns = s.crowns := rfl
@[simp] theorem State.setRing_tamper (s : State) (r : Nat) (v : Ring) : (s.setRing r v).tamper = s.tamper := rfl
@[simp] theorem State.setRing_battery (s : State) (r : Nat) (v : Ring) : (s.setRing r v).battery = s.battery := rfl
@[simp] theorem State.setRing_life (s : State) (r : Nat) (v : Ring) : (s.setRing r v).life = s.life := rfl
@[simp] theorem State.setRing_nvm (s : State) (r : Nat) (v : Ring) : (s.setRing r v).nvm = s.nvm := rfl
@[simp] theorem State.setRing_cards (s : State) (r : Nat) (v : Ring) : (s.setRing r v).cards = s.cards := rfl
@[simp] theorem State.setRing_start (s : State) (r : Nat) (v : Ring) : (s.setRing r v).start = s.start := rfl
@[simp] theorem State.setRing_snp (s : State) (r : Nat) (v : Ring) : (s.setRing r v).snp = s.snp := rfl
@[simp] theorem State.setRing_viol (s : State) (r : Nat) (v : Ring) : (s.setRing r v).viol = s.viol := rfl
@[simp] theorem State.setRing_fctRegs (s : State) (r : Nat) (v : Ring) : (s.setRing r v).fctRegs = s.fctRegs := rfl
@[simp] theorem State.setRing_clus (s : State) (r : Nat) (v : Ring) : (s.setRing r v).clus = s.clus := rfl
@[simp] theorem State.setRing_glb (s : State) (r : Nat) (v : Ring) : (s.setRing r v).glb = s.glb := rfl
@[simp] theorem State.setRing_out (s : State) (r : Nat) (v : Ring) : (s.setRing r v).out = s.out := rfl

/-! `modRing` -/

@[simp] theorem State.modRing_pending (s : State) (r : Nat) (f : Ring → Ring) :
    (s.modRing r f).pending = s.pending := rfl
@[simp] theorem State.modRing_free (s : State) (r : Nat) (f : Ring → Ring) : (s.modRing r f).free = s.free := rfl
@[simp] theorem State.modRing_tick (s : State) (r : Nat) (f : Ring → Ring) : (s.modRing r f).tick = s.tick := rfl
@[simp] theorem State.modRing_hostMem (s : State) (r : Nat) (f : Ring → Ring) :
    (s.modRing r f).hostMem = s.hostMem := rfl
@[simp] theorem State.modRing_fns (s : State) (r : Nat) (f : Ring → Ring) : (s.modRing r f).fns = s.fns := rfl
@[simp] theorem State.modRing_hif (s : State) (r : Nat) (f : Ring → Ring) : (s.modRing r f).hif = s.hif := rfl
@[simp] theorem State.modRing_link (s : State) (r : Nat) (f : Ring → Ring) : (s.modRing r f).link = s.link := rfl
@[simp] theorem State.modRing_keys (s : State) (r : Nat) (f : Ring → Ring) : (s.modRing r f).keys = s.keys := rfl
@[simp] theorem State.modRing_facets (s : State) (r : Nat) (f : Ring → Ring) : (s.modRing r f).facets = s.facets := rfl
@[simp] theorem State.modRing_hallmarks (s : State) (r : Nat) (f : Ring → Ring) :
    (s.modRing r f).hallmarks = s.hallmarks := rfl
@[simp] theorem State.modRing_marks (s : State) (r : Nat) (f : Ring → Ring) : (s.modRing r f).marks = s.marks := rfl
@[simp] theorem State.modRing_nextMark (s : State) (r : Nat) (f : Ring → Ring) :
    (s.modRing r f).nextMark = s.nextMark := rfl
@[simp] theorem State.modRing_extends_ (s : State) (r : Nat) (f : Ring → Ring) :
    (s.modRing r f).extends_ = s.extends_ := rfl
@[simp] theorem State.modRing_signet (s : State) (r : Nat) (f : Ring → Ring) : (s.modRing r f).signet = s.signet := rfl
@[simp] theorem State.modRing_vault (s : State) (r : Nat) (f : Ring → Ring) : (s.modRing r f).vault = s.vault := rfl
@[simp] theorem State.modRing_vlt (s : State) (r : Nat) (f : Ring → Ring) : (s.modRing r f).vlt = s.vlt := rfl
@[simp] theorem State.modRing_pip (s : State) (r : Nat) (f : Ring → Ring) : (s.modRing r f).pip = s.pip := rfl
@[simp] theorem State.modRing_streams (s : State) (r : Nat) (f : Ring → Ring) :
    (s.modRing r f).streams = s.streams := rfl
@[simp] theorem State.modRing_strands (s : State) (r : Nat) (f : Ring → Ring) :
    (s.modRing r f).strands = s.strands := rfl
@[simp] theorem State.modRing_applets (s : State) (r : Nat) (f : Ring → Ring) :
    (s.modRing r f).applets = s.applets := rfl
@[simp] theorem State.modRing_crowns (s : State) (r : Nat) (f : Ring → Ring) : (s.modRing r f).crowns = s.crowns := rfl
@[simp] theorem State.modRing_tamper (s : State) (r : Nat) (f : Ring → Ring) : (s.modRing r f).tamper = s.tamper := rfl
@[simp] theorem State.modRing_battery (s : State) (r : Nat) (f : Ring → Ring) :
    (s.modRing r f).battery = s.battery := rfl
@[simp] theorem State.modRing_life (s : State) (r : Nat) (f : Ring → Ring) : (s.modRing r f).life = s.life := rfl
@[simp] theorem State.modRing_nvm (s : State) (r : Nat) (f : Ring → Ring) : (s.modRing r f).nvm = s.nvm := rfl
@[simp] theorem State.modRing_cards (s : State) (r : Nat) (f : Ring → Ring) : (s.modRing r f).cards = s.cards := rfl
@[simp] theorem State.modRing_start (s : State) (r : Nat) (f : Ring → Ring) : (s.modRing r f).start = s.start := rfl
@[simp] theorem State.modRing_snp (s : State) (r : Nat) (f : Ring → Ring) : (s.modRing r f).snp = s.snp := rfl
@[simp] theorem State.modRing_viol (s : State) (r : Nat) (f : Ring → Ring) : (s.modRing r f).viol = s.viol := rfl
@[simp] theorem State.modRing_fctRegs (s : State) (r : Nat) (f : Ring → Ring) :
    (s.modRing r f).fctRegs = s.fctRegs := rfl
@[simp] theorem State.modRing_clus (s : State) (r : Nat) (f : Ring → Ring) : (s.modRing r f).clus = s.clus := rfl
@[simp] theorem State.modRing_glb (s : State) (r : Nat) (f : Ring → Ring) : (s.modRing r f).glb = s.glb := rfl
@[simp] theorem State.modRing_out (s : State) (r : Nat) (f : Ring → Ring) : (s.modRing r f).out = s.out := rfl

/-! `modFn` -/

@[simp] theorem State.modFn_pending (s : State) (f : Nat) (g : Fn → Fn) : (s.modFn f g).pending = s.pending := rfl
@[simp] theorem State.modFn_free (s : State) (f : Nat) (g : Fn → Fn) : (s.modFn f g).free = s.free := rfl
@[simp] theorem State.modFn_tick (s : State) (f : Nat) (g : Fn → Fn) : (s.modFn f g).tick = s.tick := rfl
@[simp] theorem State.modFn_hostMem (s : State) (f : Nat) (g : Fn → Fn) : (s.modFn f g).hostMem = s.hostMem := rfl
@[simp] theorem State.modFn_rings (s : State) (f : Nat) (g : Fn → Fn) : (s.modFn f g).rings = s.rings := rfl
@[simp] theorem State.modFn_hif (s : State) (f : Nat) (g : Fn → Fn) : (s.modFn f g).hif = s.hif := rfl
@[simp] theorem State.modFn_link (s : State) (f : Nat) (g : Fn → Fn) : (s.modFn f g).link = s.link := rfl
@[simp] theorem State.modFn_keys (s : State) (f : Nat) (g : Fn → Fn) : (s.modFn f g).keys = s.keys := rfl
@[simp] theorem State.modFn_facets (s : State) (f : Nat) (g : Fn → Fn) : (s.modFn f g).facets = s.facets := rfl
@[simp] theorem State.modFn_hallmarks (s : State) (f : Nat) (g : Fn → Fn) : (s.modFn f g).hallmarks = s.hallmarks := rfl
@[simp] theorem State.modFn_marks (s : State) (f : Nat) (g : Fn → Fn) : (s.modFn f g).marks = s.marks := rfl
@[simp] theorem State.modFn_nextMark (s : State) (f : Nat) (g : Fn → Fn) : (s.modFn f g).nextMark = s.nextMark := rfl
@[simp] theorem State.modFn_extends_ (s : State) (f : Nat) (g : Fn → Fn) : (s.modFn f g).extends_ = s.extends_ := rfl
@[simp] theorem State.modFn_signet (s : State) (f : Nat) (g : Fn → Fn) : (s.modFn f g).signet = s.signet := rfl
@[simp] theorem State.modFn_vault (s : State) (f : Nat) (g : Fn → Fn) : (s.modFn f g).vault = s.vault := rfl
@[simp] theorem State.modFn_vlt (s : State) (f : Nat) (g : Fn → Fn) : (s.modFn f g).vlt = s.vlt := rfl
@[simp] theorem State.modFn_pip (s : State) (f : Nat) (g : Fn → Fn) : (s.modFn f g).pip = s.pip := rfl
@[simp] theorem State.modFn_streams (s : State) (f : Nat) (g : Fn → Fn) : (s.modFn f g).streams = s.streams := rfl
@[simp] theorem State.modFn_strands (s : State) (f : Nat) (g : Fn → Fn) : (s.modFn f g).strands = s.strands := rfl
@[simp] theorem State.modFn_applets (s : State) (f : Nat) (g : Fn → Fn) : (s.modFn f g).applets = s.applets := rfl
@[simp] theorem State.modFn_crowns (s : State) (f : Nat) (g : Fn → Fn) : (s.modFn f g).crowns = s.crowns := rfl
@[simp] theorem State.modFn_tamper (s : State) (f : Nat) (g : Fn → Fn) : (s.modFn f g).tamper = s.tamper := rfl
@[simp] theorem State.modFn_battery (s : State) (f : Nat) (g : Fn → Fn) : (s.modFn f g).battery = s.battery := rfl
@[simp] theorem State.modFn_life (s : State) (f : Nat) (g : Fn → Fn) : (s.modFn f g).life = s.life := rfl
@[simp] theorem State.modFn_nvm (s : State) (f : Nat) (g : Fn → Fn) : (s.modFn f g).nvm = s.nvm := rfl
@[simp] theorem State.modFn_cards (s : State) (f : Nat) (g : Fn → Fn) : (s.modFn f g).cards = s.cards := rfl
@[simp] theorem State.modFn_start (s : State) (f : Nat) (g : Fn → Fn) : (s.modFn f g).start = s.start := rfl
@[simp] theorem State.modFn_snp (s : State) (f : Nat) (g : Fn → Fn) : (s.modFn f g).snp = s.snp := rfl
@[simp] theorem State.modFn_viol (s : State) (f : Nat) (g : Fn → Fn) : (s.modFn f g).viol = s.viol := rfl
@[simp] theorem State.modFn_fctRegs (s : State) (f : Nat) (g : Fn → Fn) : (s.modFn f g).fctRegs = s.fctRegs := rfl
@[simp] theorem State.modFn_clus (s : State) (f : Nat) (g : Fn → Fn) : (s.modFn f g).clus = s.clus := rfl
@[simp] theorem State.modFn_glb (s : State) (f : Nat) (g : Fn → Fn) : (s.modFn f g).glb = s.glb := rfl
@[simp] theorem State.modFn_out (s : State) (f : Nat) (g : Fn → Fn) : (s.modFn f g).out = s.out := rfl

/-! `bump` -/

@[simp] theorem State.bump_pending (s : State) (u k n : Nat) : (s.bump u k n).pending = s.pending := rfl
@[simp] theorem State.bump_free (s : State) (u k n : Nat) : (s.bump u k n).free = s.free := rfl
@[simp] theorem State.bump_tick (s : State) (u k n : Nat) : (s.bump u k n).tick = s.tick := rfl
@[simp] theorem State.bump_hostMem (s : State) (u k n : Nat) : (s.bump u k n).hostMem = s.hostMem := rfl
@[simp] theorem State.bump_rings (s : State) (u k n : Nat) : (s.bump u k n).rings = s.rings := rfl
@[simp] theorem State.bump_fns (s : State) (u k n : Nat) : (s.bump u k n).fns = s.fns := rfl
@[simp] theorem State.bump_hif (s : State) (u k n : Nat) : (s.bump u k n).hif = s.hif := rfl
@[simp] theorem State.bump_link (s : State) (u k n : Nat) : (s.bump u k n).link = s.link := rfl
@[simp] theorem State.bump_keys (s : State) (u k n : Nat) : (s.bump u k n).keys = s.keys := rfl
@[simp] theorem State.bump_facets (s : State) (u k n : Nat) : (s.bump u k n).facets = s.facets := rfl
@[simp] theorem State.bump_hallmarks (s : State) (u k n : Nat) : (s.bump u k n).hallmarks = s.hallmarks := rfl
@[simp] theorem State.bump_marks (s : State) (u k n : Nat) : (s.bump u k n).marks = s.marks := rfl
@[simp] theorem State.bump_nextMark (s : State) (u k n : Nat) : (s.bump u k n).nextMark = s.nextMark := rfl
@[simp] theorem State.bump_extends_ (s : State) (u k n : Nat) : (s.bump u k n).extends_ = s.extends_ := rfl
@[simp] theorem State.bump_signet (s : State) (u k n : Nat) : (s.bump u k n).signet = s.signet := rfl
@[simp] theorem State.bump_vault (s : State) (u k n : Nat) : (s.bump u k n).vault = s.vault := rfl
@[simp] theorem State.bump_vlt (s : State) (u k n : Nat) : (s.bump u k n).vlt = s.vlt := rfl
@[simp] theorem State.bump_pip (s : State) (u k n : Nat) : (s.bump u k n).pip = s.pip := rfl
@[simp] theorem State.bump_streams (s : State) (u k n : Nat) : (s.bump u k n).streams = s.streams := rfl
@[simp] theorem State.bump_strands (s : State) (u k n : Nat) : (s.bump u k n).strands = s.strands := rfl
@[simp] theorem State.bump_applets (s : State) (u k n : Nat) : (s.bump u k n).applets = s.applets := rfl
@[simp] theorem State.bump_crowns (s : State) (u k n : Nat) : (s.bump u k n).crowns = s.crowns := rfl
@[simp] theorem State.bump_tamper (s : State) (u k n : Nat) : (s.bump u k n).tamper = s.tamper := rfl
@[simp] theorem State.bump_battery (s : State) (u k n : Nat) : (s.bump u k n).battery = s.battery := rfl
@[simp] theorem State.bump_life (s : State) (u k n : Nat) : (s.bump u k n).life = s.life := rfl
@[simp] theorem State.bump_nvm (s : State) (u k n : Nat) : (s.bump u k n).nvm = s.nvm := rfl
@[simp] theorem State.bump_cards (s : State) (u k n : Nat) : (s.bump u k n).cards = s.cards := rfl
@[simp] theorem State.bump_start (s : State) (u k n : Nat) : (s.bump u k n).start = s.start := rfl
@[simp] theorem State.bump_viol (s : State) (u k n : Nat) : (s.bump u k n).viol = s.viol := rfl
@[simp] theorem State.bump_fctRegs (s : State) (u k n : Nat) : (s.bump u k n).fctRegs = s.fctRegs := rfl
@[simp] theorem State.bump_clus (s : State) (u k n : Nat) : (s.bump u k n).clus = s.clus := rfl
@[simp] theorem State.bump_glb (s : State) (u k n : Nat) : (s.bump u k n).glb = s.glb := rfl
@[simp] theorem State.bump_out (s : State) (u k n : Nat) : (s.bump u k n).out = s.out := rfl

/-! `hostWrite` -/

@[simp] theorem State.hostWrite_pending (s : State) (a : Nat) (b : Bytes) : (s.hostWrite a b).pending = s.pending := rfl
@[simp] theorem State.hostWrite_free (s : State) (a : Nat) (b : Bytes) : (s.hostWrite a b).free = s.free := rfl
@[simp] theorem State.hostWrite_tick (s : State) (a : Nat) (b : Bytes) : (s.hostWrite a b).tick = s.tick := rfl
@[simp] theorem State.hostWrite_rings (s : State) (a : Nat) (b : Bytes) : (s.hostWrite a b).rings = s.rings := rfl
@[simp] theorem State.hostWrite_fns (s : State) (a : Nat) (b : Bytes) : (s.hostWrite a b).fns = s.fns := rfl
@[simp] theorem State.hostWrite_hif (s : State) (a : Nat) (b : Bytes) : (s.hostWrite a b).hif = s.hif := rfl
@[simp] theorem State.hostWrite_link (s : State) (a : Nat) (b : Bytes) : (s.hostWrite a b).link = s.link := rfl
@[simp] theorem State.hostWrite_keys (s : State) (a : Nat) (b : Bytes) : (s.hostWrite a b).keys = s.keys := rfl
@[simp] theorem State.hostWrite_facets (s : State) (a : Nat) (b : Bytes) : (s.hostWrite a b).facets = s.facets := rfl
@[simp] theorem State.hostWrite_hallmarks (s : State) (a : Nat) (b : Bytes) :
    (s.hostWrite a b).hallmarks = s.hallmarks := rfl
@[simp] theorem State.hostWrite_marks (s : State) (a : Nat) (b : Bytes) : (s.hostWrite a b).marks = s.marks := rfl
@[simp] theorem State.hostWrite_nextMark (s : State) (a : Nat) (b : Bytes) :
    (s.hostWrite a b).nextMark = s.nextMark := rfl
@[simp] theorem State.hostWrite_extends_ (s : State) (a : Nat) (b : Bytes) :
    (s.hostWrite a b).extends_ = s.extends_ := rfl
@[simp] theorem State.hostWrite_signet (s : State) (a : Nat) (b : Bytes) : (s.hostWrite a b).signet = s.signet := rfl
@[simp] theorem State.hostWrite_vault (s : State) (a : Nat) (b : Bytes) : (s.hostWrite a b).vault = s.vault := rfl
@[simp] theorem State.hostWrite_vlt (s : State) (a : Nat) (b : Bytes) : (s.hostWrite a b).vlt = s.vlt := rfl
@[simp] theorem State.hostWrite_pip (s : State) (a : Nat) (b : Bytes) : (s.hostWrite a b).pip = s.pip := rfl
@[simp] theorem State.hostWrite_streams (s : State) (a : Nat) (b : Bytes) : (s.hostWrite a b).streams = s.streams := rfl
@[simp] theorem State.hostWrite_strands (s : State) (a : Nat) (b : Bytes) : (s.hostWrite a b).strands = s.strands := rfl
@[simp] theorem State.hostWrite_applets (s : State) (a : Nat) (b : Bytes) : (s.hostWrite a b).applets = s.applets := rfl
@[simp] theorem State.hostWrite_crowns (s : State) (a : Nat) (b : Bytes) : (s.hostWrite a b).crowns = s.crowns := rfl
@[simp] theorem State.hostWrite_tamper (s : State) (a : Nat) (b : Bytes) : (s.hostWrite a b).tamper = s.tamper := rfl
@[simp] theorem State.hostWrite_battery (s : State) (a : Nat) (b : Bytes) : (s.hostWrite a b).battery = s.battery := rfl
@[simp] theorem State.hostWrite_life (s : State) (a : Nat) (b : Bytes) : (s.hostWrite a b).life = s.life := rfl
@[simp] theorem State.hostWrite_nvm (s : State) (a : Nat) (b : Bytes) : (s.hostWrite a b).nvm = s.nvm := rfl
@[simp] theorem State.hostWrite_cards (s : State) (a : Nat) (b : Bytes) : (s.hostWrite a b).cards = s.cards := rfl
@[simp] theorem State.hostWrite_start (s : State) (a : Nat) (b : Bytes) : (s.hostWrite a b).start = s.start := rfl
@[simp] theorem State.hostWrite_snp (s : State) (a : Nat) (b : Bytes) : (s.hostWrite a b).snp = s.snp := rfl
@[simp] theorem State.hostWrite_viol (s : State) (a : Nat) (b : Bytes) : (s.hostWrite a b).viol = s.viol := rfl
@[simp] theorem State.hostWrite_fctRegs (s : State) (a : Nat) (b : Bytes) : (s.hostWrite a b).fctRegs = s.fctRegs := rfl
@[simp] theorem State.hostWrite_clus (s : State) (a : Nat) (b : Bytes) : (s.hostWrite a b).clus = s.clus := rfl
@[simp] theorem State.hostWrite_glb (s : State) (a : Nat) (b : Bytes) : (s.hostWrite a b).glb = s.glb := rfl
@[simp] theorem State.hostWrite_out (s : State) (a : Nat) (b : Bytes) : (s.hostWrite a b).out = s.out := rfl

/-! `setPipe` -/

@[simp] theorem State.setPipe_pending (s : State) (e : Nat) (p : PipEntry) : (s.setPipe e p).pending = s.pending := rfl
@[simp] theorem State.setPipe_free (s : State) (e : Nat) (p : PipEntry) : (s.setPipe e p).free = s.free := rfl
@[simp] theorem State.setPipe_tick (s : State) (e : Nat) (p : PipEntry) : (s.setPipe e p).tick = s.tick := rfl
@[simp] theorem State.setPipe_hostMem (s : State) (e : Nat) (p : PipEntry) : (s.setPipe e p).hostMem = s.hostMem := rfl
@[simp] theorem State.setPipe_rings (s : State) (e : Nat) (p : PipEntry) : (s.setPipe e p).rings = s.rings := rfl
@[simp] theorem State.setPipe_fns (s : State) (e : Nat) (p : PipEntry) : (s.setPipe e p).fns = s.fns := rfl
@[simp] theorem State.setPipe_hif (s : State) (e : Nat) (p : PipEntry) : (s.setPipe e p).hif = s.hif := rfl
@[simp] theorem State.setPipe_link (s : State) (e : Nat) (p : PipEntry) : (s.setPipe e p).link = s.link := rfl
@[simp] theorem State.setPipe_keys (s : State) (e : Nat) (p : PipEntry) : (s.setPipe e p).keys = s.keys := rfl
@[simp] theorem State.setPipe_facets (s : State) (e : Nat) (p : PipEntry) : (s.setPipe e p).facets = s.facets := rfl
@[simp] theorem State.setPipe_hallmarks (s : State) (e : Nat) (p : PipEntry) :
    (s.setPipe e p).hallmarks = s.hallmarks := rfl
@[simp] theorem State.setPipe_marks (s : State) (e : Nat) (p : PipEntry) : (s.setPipe e p).marks = s.marks := rfl
@[simp] theorem State.setPipe_nextMark (s : State) (e : Nat) (p : PipEntry) :
    (s.setPipe e p).nextMark = s.nextMark := rfl
@[simp] theorem State.setPipe_extends_ (s : State) (e : Nat) (p : PipEntry) :
    (s.setPipe e p).extends_ = s.extends_ := rfl
@[simp] theorem State.setPipe_signet (s : State) (e : Nat) (p : PipEntry) : (s.setPipe e p).signet = s.signet := rfl
@[simp] theorem State.setPipe_vlt (s : State) (e : Nat) (p : PipEntry) : (s.setPipe e p).vlt = s.vlt := rfl
@[simp] theorem State.setPipe_pip (s : State) (e : Nat) (p : PipEntry) : (s.setPipe e p).pip = s.pip := rfl
@[simp] theorem State.setPipe_streams (s : State) (e : Nat) (p : PipEntry) : (s.setPipe e p).streams = s.streams := rfl
@[simp] theorem State.setPipe_strands (s : State) (e : Nat) (p : PipEntry) : (s.setPipe e p).strands = s.strands := rfl
@[simp] theorem State.setPipe_applets (s : State) (e : Nat) (p : PipEntry) : (s.setPipe e p).applets = s.applets := rfl
@[simp] theorem State.setPipe_crowns (s : State) (e : Nat) (p : PipEntry) : (s.setPipe e p).crowns = s.crowns := rfl
@[simp] theorem State.setPipe_tamper (s : State) (e : Nat) (p : PipEntry) : (s.setPipe e p).tamper = s.tamper := rfl
@[simp] theorem State.setPipe_battery (s : State) (e : Nat) (p : PipEntry) : (s.setPipe e p).battery = s.battery := rfl
@[simp] theorem State.setPipe_life (s : State) (e : Nat) (p : PipEntry) : (s.setPipe e p).life = s.life := rfl
@[simp] theorem State.setPipe_nvm (s : State) (e : Nat) (p : PipEntry) : (s.setPipe e p).nvm = s.nvm := rfl
@[simp] theorem State.setPipe_cards (s : State) (e : Nat) (p : PipEntry) : (s.setPipe e p).cards = s.cards := rfl
@[simp] theorem State.setPipe_start (s : State) (e : Nat) (p : PipEntry) : (s.setPipe e p).start = s.start := rfl
@[simp] theorem State.setPipe_snp (s : State) (e : Nat) (p : PipEntry) : (s.setPipe e p).snp = s.snp := rfl
@[simp] theorem State.setPipe_viol (s : State) (e : Nat) (p : PipEntry) : (s.setPipe e p).viol = s.viol := rfl
@[simp] theorem State.setPipe_fctRegs (s : State) (e : Nat) (p : PipEntry) : (s.setPipe e p).fctRegs = s.fctRegs := rfl
@[simp] theorem State.setPipe_clus (s : State) (e : Nat) (p : PipEntry) : (s.setPipe e p).clus = s.clus := rfl
@[simp] theorem State.setPipe_glb (s : State) (e : Nat) (p : PipEntry) : (s.setPipe e p).glb = s.glb := rfl
@[simp] theorem State.setPipe_out (s : State) (e : Nat) (p : PipEntry) : (s.setPipe e p).out = s.out := rfl

/-! `modFacet` -/

@[simp] theorem State.modFacet_pending (s : State) (f : Nat) (g : Facet → Facet) :
    (s.modFacet f g).pending = s.pending := rfl
@[simp] theorem State.modFacet_free (s : State) (f : Nat) (g : Facet → Facet) : (s.modFacet f g).free = s.free := rfl
@[simp] theorem State.modFacet_tick (s : State) (f : Nat) (g : Facet → Facet) : (s.modFacet f g).tick = s.tick := rfl
@[simp] theorem State.modFacet_hostMem (s : State) (f : Nat) (g : Facet → Facet) :
    (s.modFacet f g).hostMem = s.hostMem := rfl
@[simp] theorem State.modFacet_rings (s : State) (f : Nat) (g : Facet → Facet) : (s.modFacet f g).rings = s.rings := rfl
@[simp] theorem State.modFacet_fns (s : State) (f : Nat) (g : Facet → Facet) : (s.modFacet f g).fns = s.fns := rfl
@[simp] theorem State.modFacet_hif (s : State) (f : Nat) (g : Facet → Facet) : (s.modFacet f g).hif = s.hif := rfl
@[simp] theorem State.modFacet_link (s : State) (f : Nat) (g : Facet → Facet) : (s.modFacet f g).link = s.link := rfl
@[simp] theorem State.modFacet_keys (s : State) (f : Nat) (g : Facet → Facet) : (s.modFacet f g).keys = s.keys := rfl
@[simp] theorem State.modFacet_hallmarks (s : State) (f : Nat) (g : Facet → Facet) :
    (s.modFacet f g).hallmarks = s.hallmarks := rfl
@[simp] theorem State.modFacet_marks (s : State) (f : Nat) (g : Facet → Facet) : (s.modFacet f g).marks = s.marks := rfl
@[simp] theorem State.modFacet_nextMark (s : State) (f : Nat) (g : Facet → Facet) :
    (s.modFacet f g).nextMark = s.nextMark := rfl
@[simp] theorem State.modFacet_extends_ (s : State) (f : Nat) (g : Facet → Facet) :
    (s.modFacet f g).extends_ = s.extends_ := rfl
@[simp] theorem State.modFacet_signet (s : State) (f : Nat) (g : Facet → Facet) :
    (s.modFacet f g).signet = s.signet := rfl
@[simp] theorem State.modFacet_vault (s : State) (f : Nat) (g : Facet → Facet) : (s.modFacet f g).vault = s.vault := rfl
@[simp] theorem State.modFacet_vlt (s : State) (f : Nat) (g : Facet → Facet) : (s.modFacet f g).vlt = s.vlt := rfl
@[simp] theorem State.modFacet_pip (s : State) (f : Nat) (g : Facet → Facet) : (s.modFacet f g).pip = s.pip := rfl
@[simp] theorem State.modFacet_streams (s : State) (f : Nat) (g : Facet → Facet) :
    (s.modFacet f g).streams = s.streams := rfl
@[simp] theorem State.modFacet_strands (s : State) (f : Nat) (g : Facet → Facet) :
    (s.modFacet f g).strands = s.strands := rfl
@[simp] theorem State.modFacet_applets (s : State) (f : Nat) (g : Facet → Facet) :
    (s.modFacet f g).applets = s.applets := rfl
@[simp] theorem State.modFacet_crowns (s : State) (f : Nat) (g : Facet → Facet) :
    (s.modFacet f g).crowns = s.crowns := rfl
@[simp] theorem State.modFacet_tamper (s : State) (f : Nat) (g : Facet → Facet) :
    (s.modFacet f g).tamper = s.tamper := rfl
@[simp] theorem State.modFacet_battery (s : State) (f : Nat) (g : Facet → Facet) :
    (s.modFacet f g).battery = s.battery := rfl
@[simp] theorem State.modFacet_life (s : State) (f : Nat) (g : Facet → Facet) : (s.modFacet f g).life = s.life := rfl
@[simp] theorem State.modFacet_nvm (s : State) (f : Nat) (g : Facet → Facet) : (s.modFacet f g).nvm = s.nvm := rfl
@[simp] theorem State.modFacet_cards (s : State) (f : Nat) (g : Facet → Facet) : (s.modFacet f g).cards = s.cards := rfl
@[simp] theorem State.modFacet_start (s : State) (f : Nat) (g : Facet → Facet) : (s.modFacet f g).start = s.start := rfl
@[simp] theorem State.modFacet_snp (s : State) (f : Nat) (g : Facet → Facet) : (s.modFacet f g).snp = s.snp := rfl
@[simp] theorem State.modFacet_viol (s : State) (f : Nat) (g : Facet → Facet) : (s.modFacet f g).viol = s.viol := rfl
@[simp] theorem State.modFacet_fctRegs (s : State) (f : Nat) (g : Facet → Facet) :
    (s.modFacet f g).fctRegs = s.fctRegs := rfl
@[simp] theorem State.modFacet_clus (s : State) (f : Nat) (g : Facet → Facet) : (s.modFacet f g).clus = s.clus := rfl
@[simp] theorem State.modFacet_glb (s : State) (f : Nat) (g : Facet → Facet) : (s.modFacet f g).glb = s.glb := rfl
@[simp] theorem State.modFacet_out (s : State) (f : Nat) (g : Facet → Facet) : (s.modFacet f g).out = s.out := rfl

/-! `setEng` -/

@[simp] theorem State.setEng_pending (s : State) (e : Nat) (x : Engine) : (s.setEng e x).pending = s.pending := rfl
@[simp] theorem State.setEng_free (s : State) (e : Nat) (x : Engine) : (s.setEng e x).free = s.free := rfl
@[simp] theorem State.setEng_tick (s : State) (e : Nat) (x : Engine) : (s.setEng e x).tick = s.tick := rfl
@[simp] theorem State.setEng_hostMem (s : State) (e : Nat) (x : Engine) : (s.setEng e x).hostMem = s.hostMem := rfl
@[simp] theorem State.setEng_rings (s : State) (e : Nat) (x : Engine) : (s.setEng e x).rings = s.rings := rfl
@[simp] theorem State.setEng_fns (s : State) (e : Nat) (x : Engine) : (s.setEng e x).fns = s.fns := rfl
@[simp] theorem State.setEng_hif (s : State) (e : Nat) (x : Engine) : (s.setEng e x).hif = s.hif := rfl
@[simp] theorem State.setEng_link (s : State) (e : Nat) (x : Engine) : (s.setEng e x).link = s.link := rfl
@[simp] theorem State.setEng_keys (s : State) (e : Nat) (x : Engine) : (s.setEng e x).keys = s.keys := rfl
@[simp] theorem State.setEng_facets (s : State) (e : Nat) (x : Engine) : (s.setEng e x).facets = s.facets := rfl
@[simp] theorem State.setEng_hallmarks (s : State) (e : Nat) (x : Engine) :
    (s.setEng e x).hallmarks = s.hallmarks := rfl
@[simp] theorem State.setEng_marks (s : State) (e : Nat) (x : Engine) : (s.setEng e x).marks = s.marks := rfl
@[simp] theorem State.setEng_nextMark (s : State) (e : Nat) (x : Engine) : (s.setEng e x).nextMark = s.nextMark := rfl
@[simp] theorem State.setEng_extends_ (s : State) (e : Nat) (x : Engine) : (s.setEng e x).extends_ = s.extends_ := rfl
@[simp] theorem State.setEng_signet (s : State) (e : Nat) (x : Engine) : (s.setEng e x).signet = s.signet := rfl
@[simp] theorem State.setEng_vault (s : State) (e : Nat) (x : Engine) : (s.setEng e x).vault = s.vault := rfl
@[simp] theorem State.setEng_vlt (s : State) (e : Nat) (x : Engine) : (s.setEng e x).vlt = s.vlt := rfl
@[simp] theorem State.setEng_pip (s : State) (e : Nat) (x : Engine) : (s.setEng e x).pip = s.pip := rfl
@[simp] theorem State.setEng_streams (s : State) (e : Nat) (x : Engine) : (s.setEng e x).streams = s.streams := rfl
@[simp] theorem State.setEng_strands (s : State) (e : Nat) (x : Engine) : (s.setEng e x).strands = s.strands := rfl
@[simp] theorem State.setEng_crowns (s : State) (e : Nat) (x : Engine) : (s.setEng e x).crowns = s.crowns := rfl
@[simp] theorem State.setEng_tamper (s : State) (e : Nat) (x : Engine) : (s.setEng e x).tamper = s.tamper := rfl
@[simp] theorem State.setEng_battery (s : State) (e : Nat) (x : Engine) : (s.setEng e x).battery = s.battery := rfl
@[simp] theorem State.setEng_life (s : State) (e : Nat) (x : Engine) : (s.setEng e x).life = s.life := rfl
@[simp] theorem State.setEng_nvm (s : State) (e : Nat) (x : Engine) : (s.setEng e x).nvm = s.nvm := rfl
@[simp] theorem State.setEng_cards (s : State) (e : Nat) (x : Engine) : (s.setEng e x).cards = s.cards := rfl
@[simp] theorem State.setEng_start (s : State) (e : Nat) (x : Engine) : (s.setEng e x).start = s.start := rfl
@[simp] theorem State.setEng_snp (s : State) (e : Nat) (x : Engine) : (s.setEng e x).snp = s.snp := rfl
@[simp] theorem State.setEng_viol (s : State) (e : Nat) (x : Engine) : (s.setEng e x).viol = s.viol := rfl
@[simp] theorem State.setEng_fctRegs (s : State) (e : Nat) (x : Engine) : (s.setEng e x).fctRegs = s.fctRegs := rfl
@[simp] theorem State.setEng_clus (s : State) (e : Nat) (x : Engine) : (s.setEng e x).clus = s.clus := rfl
@[simp] theorem State.setEng_glb (s : State) (e : Nat) (x : Engine) : (s.setEng e x).glb = s.glb := rfl
@[simp] theorem State.setEng_out (s : State) (e : Nat) (x : Engine) : (s.setEng e x).out = s.out := rfl

/-! `setEngine` -/

@[simp] theorem State.setEngine_pending (s : State) (n : Nat) (e : SigEngine) :
    (s.setEngine n e).pending = s.pending := rfl
@[simp] theorem State.setEngine_free (s : State) (n : Nat) (e : SigEngine) : (s.setEngine n e).free = s.free := rfl
@[simp] theorem State.setEngine_tick (s : State) (n : Nat) (e : SigEngine) : (s.setEngine n e).tick = s.tick := rfl
@[simp] theorem State.setEngine_hostMem (s : State) (n : Nat) (e : SigEngine) :
    (s.setEngine n e).hostMem = s.hostMem := rfl
@[simp] theorem State.setEngine_rings (s : State) (n : Nat) (e : SigEngine) : (s.setEngine n e).rings = s.rings := rfl
@[simp] theorem State.setEngine_fns (s : State) (n : Nat) (e : SigEngine) : (s.setEngine n e).fns = s.fns := rfl
@[simp] theorem State.setEngine_hif (s : State) (n : Nat) (e : SigEngine) : (s.setEngine n e).hif = s.hif := rfl
@[simp] theorem State.setEngine_link (s : State) (n : Nat) (e : SigEngine) : (s.setEngine n e).link = s.link := rfl
@[simp] theorem State.setEngine_keys (s : State) (n : Nat) (e : SigEngine) : (s.setEngine n e).keys = s.keys := rfl
@[simp] theorem State.setEngine_facets (s : State) (n : Nat) (e : SigEngine) :
    (s.setEngine n e).facets = s.facets := rfl
@[simp] theorem State.setEngine_hallmarks (s : State) (n : Nat) (e : SigEngine) :
    (s.setEngine n e).hallmarks = s.hallmarks := rfl
@[simp] theorem State.setEngine_marks (s : State) (n : Nat) (e : SigEngine) : (s.setEngine n e).marks = s.marks := rfl
@[simp] theorem State.setEngine_nextMark (s : State) (n : Nat) (e : SigEngine) :
    (s.setEngine n e).nextMark = s.nextMark := rfl
@[simp] theorem State.setEngine_extends_ (s : State) (n : Nat) (e : SigEngine) :
    (s.setEngine n e).extends_ = s.extends_ := rfl
@[simp] theorem State.setEngine_vault (s : State) (n : Nat) (e : SigEngine) : (s.setEngine n e).vault = s.vault := rfl
@[simp] theorem State.setEngine_vlt (s : State) (n : Nat) (e : SigEngine) : (s.setEngine n e).vlt = s.vlt := rfl
@[simp] theorem State.setEngine_pip (s : State) (n : Nat) (e : SigEngine) : (s.setEngine n e).pip = s.pip := rfl
@[simp] theorem State.setEngine_streams (s : State) (n : Nat) (e : SigEngine) :
    (s.setEngine n e).streams = s.streams := rfl
@[simp] theorem State.setEngine_strands (s : State) (n : Nat) (e : SigEngine) :
    (s.setEngine n e).strands = s.strands := rfl
@[simp] theorem State.setEngine_applets (s : State) (n : Nat) (e : SigEngine) :
    (s.setEngine n e).applets = s.applets := rfl
@[simp] theorem State.setEngine_crowns (s : State) (n : Nat) (e : SigEngine) :
    (s.setEngine n e).crowns = s.crowns := rfl
@[simp] theorem State.setEngine_tamper (s : State) (n : Nat) (e : SigEngine) :
    (s.setEngine n e).tamper = s.tamper := rfl
@[simp] theorem State.setEngine_battery (s : State) (n : Nat) (e : SigEngine) :
    (s.setEngine n e).battery = s.battery := rfl
@[simp] theorem State.setEngine_life (s : State) (n : Nat) (e : SigEngine) : (s.setEngine n e).life = s.life := rfl
@[simp] theorem State.setEngine_nvm (s : State) (n : Nat) (e : SigEngine) : (s.setEngine n e).nvm = s.nvm := rfl
@[simp] theorem State.setEngine_cards (s : State) (n : Nat) (e : SigEngine) : (s.setEngine n e).cards = s.cards := rfl
@[simp] theorem State.setEngine_start (s : State) (n : Nat) (e : SigEngine) : (s.setEngine n e).start = s.start := rfl
@[simp] theorem State.setEngine_snp (s : State) (n : Nat) (e : SigEngine) : (s.setEngine n e).snp = s.snp := rfl
@[simp] theorem State.setEngine_viol (s : State) (n : Nat) (e : SigEngine) : (s.setEngine n e).viol = s.viol := rfl
@[simp] theorem State.setEngine_fctRegs (s : State) (n : Nat) (e : SigEngine) :
    (s.setEngine n e).fctRegs = s.fctRegs := rfl
@[simp] theorem State.setEngine_clus (s : State) (n : Nat) (e : SigEngine) : (s.setEngine n e).clus = s.clus := rfl
@[simp] theorem State.setEngine_glb (s : State) (n : Nat) (e : SigEngine) : (s.setEngine n e).glb = s.glb := rfl
@[simp] theorem State.setEngine_out (s : State) (n : Nat) (e : SigEngine) : (s.setEngine n e).out = s.out := rfl

/-! `modSlot` -/

@[simp] theorem State.modSlot_pending (s : State) (i : Nat) (f : KeySlot → KeySlot) :
    (s.modSlot i f).pending = s.pending := rfl
@[simp] theorem State.modSlot_free (s : State) (i : Nat) (f : KeySlot → KeySlot) : (s.modSlot i f).free = s.free := rfl
@[simp] theorem State.modSlot_tick (s : State) (i : Nat) (f : KeySlot → KeySlot) : (s.modSlot i f).tick = s.tick := rfl
@[simp] theorem State.modSlot_hostMem (s : State) (i : Nat) (f : KeySlot → KeySlot) :
    (s.modSlot i f).hostMem = s.hostMem := rfl
@[simp] theorem State.modSlot_rings (s : State) (i : Nat) (f : KeySlot → KeySlot) :
    (s.modSlot i f).rings = s.rings := rfl
@[simp] theorem State.modSlot_fns (s : State) (i : Nat) (f : KeySlot → KeySlot) : (s.modSlot i f).fns = s.fns := rfl
@[simp] theorem State.modSlot_hif (s : State) (i : Nat) (f : KeySlot → KeySlot) : (s.modSlot i f).hif = s.hif := rfl
@[simp] theorem State.modSlot_link (s : State) (i : Nat) (f : KeySlot → KeySlot) : (s.modSlot i f).link = s.link := rfl
@[simp] theorem State.modSlot_facets (s : State) (i : Nat) (f : KeySlot → KeySlot) :
    (s.modSlot i f).facets = s.facets := rfl
@[simp] theorem State.modSlot_hallmarks (s : State) (i : Nat) (f : KeySlot → KeySlot) :
    (s.modSlot i f).hallmarks = s.hallmarks := rfl
@[simp] theorem State.modSlot_marks (s : State) (i : Nat) (f : KeySlot → KeySlot) :
    (s.modSlot i f).marks = s.marks := rfl
@[simp] theorem State.modSlot_nextMark (s : State) (i : Nat) (f : KeySlot → KeySlot) :
    (s.modSlot i f).nextMark = s.nextMark := rfl
@[simp] theorem State.modSlot_extends_ (s : State) (i : Nat) (f : KeySlot → KeySlot) :
    (s.modSlot i f).extends_ = s.extends_ := rfl
@[simp] theorem State.modSlot_signet (s : State) (i : Nat) (f : KeySlot → KeySlot) :
    (s.modSlot i f).signet = s.signet := rfl
@[simp] theorem State.modSlot_vault (s : State) (i : Nat) (f : KeySlot → KeySlot) :
    (s.modSlot i f).vault = s.vault := rfl
@[simp] theorem State.modSlot_vlt (s : State) (i : Nat) (f : KeySlot → KeySlot) : (s.modSlot i f).vlt = s.vlt := rfl
@[simp] theorem State.modSlot_pip (s : State) (i : Nat) (f : KeySlot → KeySlot) : (s.modSlot i f).pip = s.pip := rfl
@[simp] theorem State.modSlot_streams (s : State) (i : Nat) (f : KeySlot → KeySlot) :
    (s.modSlot i f).streams = s.streams := rfl
@[simp] theorem State.modSlot_strands (s : State) (i : Nat) (f : KeySlot → KeySlot) :
    (s.modSlot i f).strands = s.strands := rfl
@[simp] theorem State.modSlot_applets (s : State) (i : Nat) (f : KeySlot → KeySlot) :
    (s.modSlot i f).applets = s.applets := rfl
@[simp] theorem State.modSlot_crowns (s : State) (i : Nat) (f : KeySlot → KeySlot) :
    (s.modSlot i f).crowns = s.crowns := rfl
@[simp] theorem State.modSlot_tamper (s : State) (i : Nat) (f : KeySlot → KeySlot) :
    (s.modSlot i f).tamper = s.tamper := rfl
@[simp] theorem State.modSlot_battery (s : State) (i : Nat) (f : KeySlot → KeySlot) :
    (s.modSlot i f).battery = s.battery := rfl
@[simp] theorem State.modSlot_life (s : State) (i : Nat) (f : KeySlot → KeySlot) : (s.modSlot i f).life = s.life := rfl
@[simp] theorem State.modSlot_nvm (s : State) (i : Nat) (f : KeySlot → KeySlot) : (s.modSlot i f).nvm = s.nvm := rfl
@[simp] theorem State.modSlot_cards (s : State) (i : Nat) (f : KeySlot → KeySlot) :
    (s.modSlot i f).cards = s.cards := rfl
@[simp] theorem State.modSlot_start (s : State) (i : Nat) (f : KeySlot → KeySlot) :
    (s.modSlot i f).start = s.start := rfl
@[simp] theorem State.modSlot_snp (s : State) (i : Nat) (f : KeySlot → KeySlot) : (s.modSlot i f).snp = s.snp := rfl
@[simp] theorem State.modSlot_viol (s : State) (i : Nat) (f : KeySlot → KeySlot) : (s.modSlot i f).viol = s.viol := rfl
@[simp] theorem State.modSlot_fctRegs (s : State) (i : Nat) (f : KeySlot → KeySlot) :
    (s.modSlot i f).fctRegs = s.fctRegs := rfl
@[simp] theorem State.modSlot_clus (s : State) (i : Nat) (f : KeySlot → KeySlot) : (s.modSlot i f).clus = s.clus := rfl
@[simp] theorem State.modSlot_glb (s : State) (i : Nat) (f : KeySlot → KeySlot) : (s.modSlot i f).glb = s.glb := rfl
@[simp] theorem State.modSlot_out (s : State) (i : Nat) (f : KeySlot → KeySlot) : (s.modSlot i f).out = s.out := rfl

/-! `setIde` -/

@[simp] theorem State.setIde_pending (s : State) (i : Nat) (x : IdeStream) : (s.setIde i x).pending = s.pending := rfl
@[simp] theorem State.setIde_free (s : State) (i : Nat) (x : IdeStream) : (s.setIde i x).free = s.free := rfl
@[simp] theorem State.setIde_tick (s : State) (i : Nat) (x : IdeStream) : (s.setIde i x).tick = s.tick := rfl
@[simp] theorem State.setIde_hostMem (s : State) (i : Nat) (x : IdeStream) : (s.setIde i x).hostMem = s.hostMem := rfl
@[simp] theorem State.setIde_rings (s : State) (i : Nat) (x : IdeStream) : (s.setIde i x).rings = s.rings := rfl
@[simp] theorem State.setIde_fns (s : State) (i : Nat) (x : IdeStream) : (s.setIde i x).fns = s.fns := rfl
@[simp] theorem State.setIde_hif (s : State) (i : Nat) (x : IdeStream) : (s.setIde i x).hif = s.hif := rfl
@[simp] theorem State.setIde_keys (s : State) (i : Nat) (x : IdeStream) : (s.setIde i x).keys = s.keys := rfl
@[simp] theorem State.setIde_facets (s : State) (i : Nat) (x : IdeStream) : (s.setIde i x).facets = s.facets := rfl
@[simp] theorem State.setIde_hallmarks (s : State) (i : Nat) (x : IdeStream) :
    (s.setIde i x).hallmarks = s.hallmarks := rfl
@[simp] theorem State.setIde_marks (s : State) (i : Nat) (x : IdeStream) : (s.setIde i x).marks = s.marks := rfl
@[simp] theorem State.setIde_nextMark (s : State) (i : Nat) (x : IdeStream) :
    (s.setIde i x).nextMark = s.nextMark := rfl
@[simp] theorem State.setIde_extends_ (s : State) (i : Nat) (x : IdeStream) :
    (s.setIde i x).extends_ = s.extends_ := rfl
@[simp] theorem State.setIde_signet (s : State) (i : Nat) (x : IdeStream) : (s.setIde i x).signet = s.signet := rfl
@[simp] theorem State.setIde_vault (s : State) (i : Nat) (x : IdeStream) : (s.setIde i x).vault = s.vault := rfl
@[simp] theorem State.setIde_vlt (s : State) (i : Nat) (x : IdeStream) : (s.setIde i x).vlt = s.vlt := rfl
@[simp] theorem State.setIde_pip (s : State) (i : Nat) (x : IdeStream) : (s.setIde i x).pip = s.pip := rfl
@[simp] theorem State.setIde_streams (s : State) (i : Nat) (x : IdeStream) : (s.setIde i x).streams = s.streams := rfl
@[simp] theorem State.setIde_strands (s : State) (i : Nat) (x : IdeStream) : (s.setIde i x).strands = s.strands := rfl
@[simp] theorem State.setIde_applets (s : State) (i : Nat) (x : IdeStream) : (s.setIde i x).applets = s.applets := rfl
@[simp] theorem State.setIde_crowns (s : State) (i : Nat) (x : IdeStream) : (s.setIde i x).crowns = s.crowns := rfl
@[simp] theorem State.setIde_tamper (s : State) (i : Nat) (x : IdeStream) : (s.setIde i x).tamper = s.tamper := rfl
@[simp] theorem State.setIde_battery (s : State) (i : Nat) (x : IdeStream) : (s.setIde i x).battery = s.battery := rfl
@[simp] theorem State.setIde_life (s : State) (i : Nat) (x : IdeStream) : (s.setIde i x).life = s.life := rfl
@[simp] theorem State.setIde_nvm (s : State) (i : Nat) (x : IdeStream) : (s.setIde i x).nvm = s.nvm := rfl
@[simp] theorem State.setIde_cards (s : State) (i : Nat) (x : IdeStream) : (s.setIde i x).cards = s.cards := rfl
@[simp] theorem State.setIde_start (s : State) (i : Nat) (x : IdeStream) : (s.setIde i x).start = s.start := rfl
@[simp] theorem State.setIde_snp (s : State) (i : Nat) (x : IdeStream) : (s.setIde i x).snp = s.snp := rfl
@[simp] theorem State.setIde_viol (s : State) (i : Nat) (x : IdeStream) : (s.setIde i x).viol = s.viol := rfl
@[simp] theorem State.setIde_fctRegs (s : State) (i : Nat) (x : IdeStream) : (s.setIde i x).fctRegs = s.fctRegs := rfl
@[simp] theorem State.setIde_clus (s : State) (i : Nat) (x : IdeStream) : (s.setIde i x).clus = s.clus := rfl
@[simp] theorem State.setIde_glb (s : State) (i : Nat) (x : IdeStream) : (s.setIde i x).glb = s.glb := rfl
@[simp] theorem State.setIde_out (s : State) (i : Nat) (x : IdeStream) : (s.setIde i x).out = s.out := rfl

/-! `modStream` -/

@[simp] theorem State.modStream_pending (s : State) (i : Nat) (f : Stream → Stream) :
    (s.modStream i f).pending = s.pending := rfl
@[simp] theorem State.modStream_free (s : State) (i : Nat) (f : Stream → Stream) :
    (s.modStream i f).free = s.free := rfl
@[simp] theorem State.modStream_tick (s : State) (i : Nat) (f : Stream → Stream) :
    (s.modStream i f).tick = s.tick := rfl
@[simp] theorem State.modStream_hostMem (s : State) (i : Nat) (f : Stream → Stream) :
    (s.modStream i f).hostMem = s.hostMem := rfl
@[simp] theorem State.modStream_rings (s : State) (i : Nat) (f : Stream → Stream) :
    (s.modStream i f).rings = s.rings := rfl
@[simp] theorem State.modStream_fns (s : State) (i : Nat) (f : Stream → Stream) : (s.modStream i f).fns = s.fns := rfl
@[simp] theorem State.modStream_hif (s : State) (i : Nat) (f : Stream → Stream) : (s.modStream i f).hif = s.hif := rfl
@[simp] theorem State.modStream_link (s : State) (i : Nat) (f : Stream → Stream) :
    (s.modStream i f).link = s.link := rfl
@[simp] theorem State.modStream_keys (s : State) (i : Nat) (f : Stream → Stream) :
    (s.modStream i f).keys = s.keys := rfl
@[simp] theorem State.modStream_facets (s : State) (i : Nat) (f : Stream → Stream) :
    (s.modStream i f).facets = s.facets := rfl
@[simp] theorem State.modStream_hallmarks (s : State) (i : Nat) (f : Stream → Stream) :
    (s.modStream i f).hallmarks = s.hallmarks := rfl
@[simp] theorem State.modStream_marks (s : State) (i : Nat) (f : Stream → Stream) :
    (s.modStream i f).marks = s.marks := rfl
@[simp] theorem State.modStream_nextMark (s : State) (i : Nat) (f : Stream → Stream) :
    (s.modStream i f).nextMark = s.nextMark := rfl
@[simp] theorem State.modStream_extends_ (s : State) (i : Nat) (f : Stream → Stream) :
    (s.modStream i f).extends_ = s.extends_ := rfl
@[simp] theorem State.modStream_signet (s : State) (i : Nat) (f : Stream → Stream) :
    (s.modStream i f).signet = s.signet := rfl
@[simp] theorem State.modStream_vault (s : State) (i : Nat) (f : Stream → Stream) :
    (s.modStream i f).vault = s.vault := rfl
@[simp] theorem State.modStream_vlt (s : State) (i : Nat) (f : Stream → Stream) : (s.modStream i f).vlt = s.vlt := rfl
@[simp] theorem State.modStream_pip (s : State) (i : Nat) (f : Stream → Stream) : (s.modStream i f).pip = s.pip := rfl
@[simp] theorem State.modStream_strands (s : State) (i : Nat) (f : Stream → Stream) :
    (s.modStream i f).strands = s.strands := rfl
@[simp] theorem State.modStream_applets (s : State) (i : Nat) (f : Stream → Stream) :
    (s.modStream i f).applets = s.applets := rfl
@[simp] theorem State.modStream_crowns (s : State) (i : Nat) (f : Stream → Stream) :
    (s.modStream i f).crowns = s.crowns := rfl
@[simp] theorem State.modStream_tamper (s : State) (i : Nat) (f : Stream → Stream) :
    (s.modStream i f).tamper = s.tamper := rfl
@[simp] theorem State.modStream_battery (s : State) (i : Nat) (f : Stream → Stream) :
    (s.modStream i f).battery = s.battery := rfl
@[simp] theorem State.modStream_life (s : State) (i : Nat) (f : Stream → Stream) :
    (s.modStream i f).life = s.life := rfl
@[simp] theorem State.modStream_nvm (s : State) (i : Nat) (f : Stream → Stream) : (s.modStream i f).nvm = s.nvm := rfl
@[simp] theorem State.modStream_cards (s : State) (i : Nat) (f : Stream → Stream) :
    (s.modStream i f).cards = s.cards := rfl
@[simp] theorem State.modStream_start (s : State) (i : Nat) (f : Stream → Stream) :
    (s.modStream i f).start = s.start := rfl
@[simp] theorem State.modStream_snp (s : State) (i : Nat) (f : Stream → Stream) : (s.modStream i f).snp = s.snp := rfl
@[simp] theorem State.modStream_viol (s : State) (i : Nat) (f : Stream → Stream) :
    (s.modStream i f).viol = s.viol := rfl
@[simp] theorem State.modStream_fctRegs (s : State) (i : Nat) (f : Stream → Stream) :
    (s.modStream i f).fctRegs = s.fctRegs := rfl
@[simp] theorem State.modStream_clus (s : State) (i : Nat) (f : Stream → Stream) :
    (s.modStream i f).clus = s.clus := rfl
@[simp] theorem State.modStream_glb (s : State) (i : Nat) (f : Stream → Stream) : (s.modStream i f).glb = s.glb := rfl
@[simp] theorem State.modStream_out (s : State) (i : Nat) (f : Stream → Stream) : (s.modStream i f).out = s.out := rfl

/-! `setHallmark` -/

@[simp] theorem State.setHallmark_pending (s : State) (i : Nat) (h : Hallmark) :
    (s.setHallmark i h).pending = s.pending := rfl
@[simp] theorem State.setHallmark_free (s : State) (i : Nat) (h : Hallmark) : (s.setHallmark i h).free = s.free := rfl
@[simp] theorem State.setHallmark_tick (s : State) (i : Nat) (h : Hallmark) : (s.setHallmark i h).tick = s.tick := rfl
@[simp] theorem State.setHallmark_hostMem (s : State) (i : Nat) (h : Hallmark) :
    (s.setHallmark i h).hostMem = s.hostMem := rfl
@[simp] theorem State.setHallmark_rings (s : State) (i : Nat) (h : Hallmark) :
    (s.setHallmark i h).rings = s.rings := rfl
@[simp] theorem State.setHallmark_fns (s : State) (i : Nat) (h : Hallmark) : (s.setHallmark i h).fns = s.fns := rfl
@[simp] theorem State.setHallmark_hif (s : State) (i : Nat) (h : Hallmark) : (s.setHallmark i h).hif = s.hif := rfl
@[simp] theorem State.setHallmark_link (s : State) (i : Nat) (h : Hallmark) : (s.setHallmark i h).link = s.link := rfl
@[simp] theorem State.setHallmark_keys (s : State) (i : Nat) (h : Hallmark) : (s.setHallmark i h).keys = s.keys := rfl
@[simp] theorem State.setHallmark_facets (s : State) (i : Nat) (h : Hallmark) :
    (s.setHallmark i h).facets = s.facets := rfl
@[simp] theorem State.setHallmark_marks (s : State) (i : Nat) (h : Hallmark) :
    (s.setHallmark i h).marks = s.marks := rfl
@[simp] theorem State.setHallmark_nextMark (s : State) (i : Nat) (h : Hallmark) :
    (s.setHallmark i h).nextMark = s.nextMark := rfl
@[simp] theorem State.setHallmark_extends_ (s : State) (i : Nat) (h : Hallmark) :
    (s.setHallmark i h).extends_ = s.extends_ := rfl
@[simp] theorem State.setHallmark_signet (s : State) (i : Nat) (h : Hallmark) :
    (s.setHallmark i h).signet = s.signet := rfl
@[simp] theorem State.setHallmark_vault (s : State) (i : Nat) (h : Hallmark) :
    (s.setHallmark i h).vault = s.vault := rfl
@[simp] theorem State.setHallmark_vlt (s : State) (i : Nat) (h : Hallmark) : (s.setHallmark i h).vlt = s.vlt := rfl
@[simp] theorem State.setHallmark_pip (s : State) (i : Nat) (h : Hallmark) : (s.setHallmark i h).pip = s.pip := rfl
@[simp] theorem State.setHallmark_streams (s : State) (i : Nat) (h : Hallmark) :
    (s.setHallmark i h).streams = s.streams := rfl
@[simp] theorem State.setHallmark_strands (s : State) (i : Nat) (h : Hallmark) :
    (s.setHallmark i h).strands = s.strands := rfl
@[simp] theorem State.setHallmark_applets (s : State) (i : Nat) (h : Hallmark) :
    (s.setHallmark i h).applets = s.applets := rfl
@[simp] theorem State.setHallmark_crowns (s : State) (i : Nat) (h : Hallmark) :
    (s.setHallmark i h).crowns = s.crowns := rfl
@[simp] theorem State.setHallmark_tamper (s : State) (i : Nat) (h : Hallmark) :
    (s.setHallmark i h).tamper = s.tamper := rfl
@[simp] theorem State.setHallmark_battery (s : State) (i : Nat) (h : Hallmark) :
    (s.setHallmark i h).battery = s.battery := rfl
@[simp] theorem State.setHallmark_life (s : State) (i : Nat) (h : Hallmark) : (s.setHallmark i h).life = s.life := rfl
@[simp] theorem State.setHallmark_nvm (s : State) (i : Nat) (h : Hallmark) : (s.setHallmark i h).nvm = s.nvm := rfl
@[simp] theorem State.setHallmark_cards (s : State) (i : Nat) (h : Hallmark) :
    (s.setHallmark i h).cards = s.cards := rfl
@[simp] theorem State.setHallmark_start (s : State) (i : Nat) (h : Hallmark) :
    (s.setHallmark i h).start = s.start := rfl
@[simp] theorem State.setHallmark_snp (s : State) (i : Nat) (h : Hallmark) : (s.setHallmark i h).snp = s.snp := rfl
@[simp] theorem State.setHallmark_viol (s : State) (i : Nat) (h : Hallmark) : (s.setHallmark i h).viol = s.viol := rfl
@[simp] theorem State.setHallmark_fctRegs (s : State) (i : Nat) (h : Hallmark) :
    (s.setHallmark i h).fctRegs = s.fctRegs := rfl
@[simp] theorem State.setHallmark_clus (s : State) (i : Nat) (h : Hallmark) : (s.setHallmark i h).clus = s.clus := rfl
@[simp] theorem State.setHallmark_glb (s : State) (i : Nat) (h : Hallmark) : (s.setHallmark i h).glb = s.glb := rfl
@[simp] theorem State.setHallmark_out (s : State) (i : Nat) (h : Hallmark) : (s.setHallmark i h).out = s.out := rfl

/-! `mark` -/

@[simp] theorem State.mark_pending (s : State) (h seq : Nat) : (s.mark h seq).pending = s.pending := rfl
@[simp] theorem State.mark_free (s : State) (h seq : Nat) : (s.mark h seq).free = s.free := rfl
@[simp] theorem State.mark_tick (s : State) (h seq : Nat) : (s.mark h seq).tick = s.tick := rfl
@[simp] theorem State.mark_hostMem (s : State) (h seq : Nat) : (s.mark h seq).hostMem = s.hostMem := rfl
@[simp] theorem State.mark_rings (s : State) (h seq : Nat) : (s.mark h seq).rings = s.rings := rfl
@[simp] theorem State.mark_fns (s : State) (h seq : Nat) : (s.mark h seq).fns = s.fns := rfl
@[simp] theorem State.mark_hif (s : State) (h seq : Nat) : (s.mark h seq).hif = s.hif := rfl
@[simp] theorem State.mark_link (s : State) (h seq : Nat) : (s.mark h seq).link = s.link := rfl
@[simp] theorem State.mark_keys (s : State) (h seq : Nat) : (s.mark h seq).keys = s.keys := rfl
@[simp] theorem State.mark_facets (s : State) (h seq : Nat) : (s.mark h seq).facets = s.facets := rfl
@[simp] theorem State.mark_hallmarks (s : State) (h seq : Nat) : (s.mark h seq).hallmarks = s.hallmarks := rfl
@[simp] theorem State.mark_extends_ (s : State) (h seq : Nat) : (s.mark h seq).extends_ = s.extends_ := rfl
@[simp] theorem State.mark_signet (s : State) (h seq : Nat) : (s.mark h seq).signet = s.signet := rfl
@[simp] theorem State.mark_vault (s : State) (h seq : Nat) : (s.mark h seq).vault = s.vault := rfl
@[simp] theorem State.mark_vlt (s : State) (h seq : Nat) : (s.mark h seq).vlt = s.vlt := rfl
@[simp] theorem State.mark_pip (s : State) (h seq : Nat) : (s.mark h seq).pip = s.pip := rfl
@[simp] theorem State.mark_streams (s : State) (h seq : Nat) : (s.mark h seq).streams = s.streams := rfl
@[simp] theorem State.mark_strands (s : State) (h seq : Nat) : (s.mark h seq).strands = s.strands := rfl
@[simp] theorem State.mark_applets (s : State) (h seq : Nat) : (s.mark h seq).applets = s.applets := rfl
@[simp] theorem State.mark_crowns (s : State) (h seq : Nat) : (s.mark h seq).crowns = s.crowns := rfl
@[simp] theorem State.mark_tamper (s : State) (h seq : Nat) : (s.mark h seq).tamper = s.tamper := rfl
@[simp] theorem State.mark_battery (s : State) (h seq : Nat) : (s.mark h seq).battery = s.battery := rfl
@[simp] theorem State.mark_life (s : State) (h seq : Nat) : (s.mark h seq).life = s.life := rfl
@[simp] theorem State.mark_nvm (s : State) (h seq : Nat) : (s.mark h seq).nvm = s.nvm := rfl
@[simp] theorem State.mark_cards (s : State) (h seq : Nat) : (s.mark h seq).cards = s.cards := rfl
@[simp] theorem State.mark_start (s : State) (h seq : Nat) : (s.mark h seq).start = s.start := rfl
@[simp] theorem State.mark_snp (s : State) (h seq : Nat) : (s.mark h seq).snp = s.snp := rfl
@[simp] theorem State.mark_viol (s : State) (h seq : Nat) : (s.mark h seq).viol = s.viol := rfl
@[simp] theorem State.mark_fctRegs (s : State) (h seq : Nat) : (s.mark h seq).fctRegs = s.fctRegs := rfl
@[simp] theorem State.mark_clus (s : State) (h seq : Nat) : (s.mark h seq).clus = s.clus := rfl
@[simp] theorem State.mark_glb (s : State) (h seq : Nat) : (s.mark h seq).glb = s.glb := rfl
@[simp] theorem State.mark_out (s : State) (h seq : Nat) : (s.mark h seq).out = s.out := rfl

/-! `modSnap` -/

@[simp] theorem State.modSnap_pending (s : State) (f : Snap → Snap) : (s.modSnap f).pending = s.pending := rfl
@[simp] theorem State.modSnap_free (s : State) (f : Snap → Snap) : (s.modSnap f).free = s.free := rfl
@[simp] theorem State.modSnap_tick (s : State) (f : Snap → Snap) : (s.modSnap f).tick = s.tick := rfl
@[simp] theorem State.modSnap_hostMem (s : State) (f : Snap → Snap) : (s.modSnap f).hostMem = s.hostMem := rfl
@[simp] theorem State.modSnap_rings (s : State) (f : Snap → Snap) : (s.modSnap f).rings = s.rings := rfl
@[simp] theorem State.modSnap_fns (s : State) (f : Snap → Snap) : (s.modSnap f).fns = s.fns := rfl
@[simp] theorem State.modSnap_hif (s : State) (f : Snap → Snap) : (s.modSnap f).hif = s.hif := rfl
@[simp] theorem State.modSnap_link (s : State) (f : Snap → Snap) : (s.modSnap f).link = s.link := rfl
@[simp] theorem State.modSnap_keys (s : State) (f : Snap → Snap) : (s.modSnap f).keys = s.keys := rfl
@[simp] theorem State.modSnap_facets (s : State) (f : Snap → Snap) : (s.modSnap f).facets = s.facets := rfl
@[simp] theorem State.modSnap_hallmarks (s : State) (f : Snap → Snap) : (s.modSnap f).hallmarks = s.hallmarks := rfl
@[simp] theorem State.modSnap_marks (s : State) (f : Snap → Snap) : (s.modSnap f).marks = s.marks := rfl
@[simp] theorem State.modSnap_nextMark (s : State) (f : Snap → Snap) : (s.modSnap f).nextMark = s.nextMark := rfl
@[simp] theorem State.modSnap_extends_ (s : State) (f : Snap → Snap) : (s.modSnap f).extends_ = s.extends_ := rfl
@[simp] theorem State.modSnap_signet (s : State) (f : Snap → Snap) : (s.modSnap f).signet = s.signet := rfl
@[simp] theorem State.modSnap_vault (s : State) (f : Snap → Snap) : (s.modSnap f).vault = s.vault := rfl
@[simp] theorem State.modSnap_vlt (s : State) (f : Snap → Snap) : (s.modSnap f).vlt = s.vlt := rfl
@[simp] theorem State.modSnap_pip (s : State) (f : Snap → Snap) : (s.modSnap f).pip = s.pip := rfl
@[simp] theorem State.modSnap_streams (s : State) (f : Snap → Snap) : (s.modSnap f).streams = s.streams := rfl
@[simp] theorem State.modSnap_strands (s : State) (f : Snap → Snap) : (s.modSnap f).strands = s.strands := rfl
@[simp] theorem State.modSnap_applets (s : State) (f : Snap → Snap) : (s.modSnap f).applets = s.applets := rfl
@[simp] theorem State.modSnap_crowns (s : State) (f : Snap → Snap) : (s.modSnap f).crowns = s.crowns := rfl
@[simp] theorem State.modSnap_tamper (s : State) (f : Snap → Snap) : (s.modSnap f).tamper = s.tamper := rfl
@[simp] theorem State.modSnap_battery (s : State) (f : Snap → Snap) : (s.modSnap f).battery = s.battery := rfl
@[simp] theorem State.modSnap_life (s : State) (f : Snap → Snap) : (s.modSnap f).life = s.life := rfl
@[simp] theorem State.modSnap_nvm (s : State) (f : Snap → Snap) : (s.modSnap f).nvm = s.nvm := rfl
@[simp] theorem State.modSnap_cards (s : State) (f : Snap → Snap) : (s.modSnap f).cards = s.cards := rfl
@[simp] theorem State.modSnap_start (s : State) (f : Snap → Snap) : (s.modSnap f).start = s.start := rfl
@[simp] theorem State.modSnap_viol (s : State) (f : Snap → Snap) : (s.modSnap f).viol = s.viol := rfl
@[simp] theorem State.modSnap_fctRegs (s : State) (f : Snap → Snap) : (s.modSnap f).fctRegs = s.fctRegs := rfl
@[simp] theorem State.modSnap_clus (s : State) (f : Snap → Snap) : (s.modSnap f).clus = s.clus := rfl
@[simp] theorem State.modSnap_glb (s : State) (f : Snap → Snap) : (s.modSnap f).glb = s.glb := rfl
@[simp] theorem State.modSnap_out (s : State) (f : Snap → Snap) : (s.modSnap f).out = s.out := rfl

/-! `modJournal` -/

@[simp] theorem State.modJournal_pending (s : State) (f : Journal → Journal) :
    (s.modJournal f).pending = s.pending := rfl
@[simp] theorem State.modJournal_free (s : State) (f : Journal → Journal) : (s.modJournal f).free = s.free := rfl
@[simp] theorem State.modJournal_tick (s : State) (f : Journal → Journal) : (s.modJournal f).tick = s.tick := rfl
@[simp] theorem State.modJournal_hostMem (s : State) (f : Journal → Journal) :
    (s.modJournal f).hostMem = s.hostMem := rfl
@[simp] theorem State.modJournal_rings (s : State) (f : Journal → Journal) : (s.modJournal f).rings = s.rings := rfl
@[simp] theorem State.modJournal_fns (s : State) (f : Journal → Journal) : (s.modJournal f).fns = s.fns := rfl
@[simp] theorem State.modJournal_hif (s : State) (f : Journal → Journal) : (s.modJournal f).hif = s.hif := rfl
@[simp] theorem State.modJournal_link (s : State) (f : Journal → Journal) : (s.modJournal f).link = s.link := rfl
@[simp] theorem State.modJournal_keys (s : State) (f : Journal → Journal) : (s.modJournal f).keys = s.keys := rfl
@[simp] theorem State.modJournal_facets (s : State) (f : Journal → Journal) : (s.modJournal f).facets = s.facets := rfl
@[simp] theorem State.modJournal_hallmarks (s : State) (f : Journal → Journal) :
    (s.modJournal f).hallmarks = s.hallmarks := rfl
@[simp] theorem State.modJournal_marks (s : State) (f : Journal → Journal) : (s.modJournal f).marks = s.marks := rfl
@[simp] theorem State.modJournal_nextMark (s : State) (f : Journal → Journal) :
    (s.modJournal f).nextMark = s.nextMark := rfl
@[simp] theorem State.modJournal_extends_ (s : State) (f : Journal → Journal) :
    (s.modJournal f).extends_ = s.extends_ := rfl
@[simp] theorem State.modJournal_signet (s : State) (f : Journal → Journal) : (s.modJournal f).signet = s.signet := rfl
@[simp] theorem State.modJournal_vault (s : State) (f : Journal → Journal) : (s.modJournal f).vault = s.vault := rfl
@[simp] theorem State.modJournal_vlt (s : State) (f : Journal → Journal) : (s.modJournal f).vlt = s.vlt := rfl
@[simp] theorem State.modJournal_pip (s : State) (f : Journal → Journal) : (s.modJournal f).pip = s.pip := rfl
@[simp] theorem State.modJournal_streams (s : State) (f : Journal → Journal) :
    (s.modJournal f).streams = s.streams := rfl
@[simp] theorem State.modJournal_strands (s : State) (f : Journal → Journal) :
    (s.modJournal f).strands = s.strands := rfl
@[simp] theorem State.modJournal_applets (s : State) (f : Journal → Journal) :
    (s.modJournal f).applets = s.applets := rfl
@[simp] theorem State.modJournal_tamper (s : State) (f : Journal → Journal) : (s.modJournal f).tamper = s.tamper := rfl
@[simp] theorem State.modJournal_battery (s : State) (f : Journal → Journal) :
    (s.modJournal f).battery = s.battery := rfl
@[simp] theorem State.modJournal_life (s : State) (f : Journal → Journal) : (s.modJournal f).life = s.life := rfl
@[simp] theorem State.modJournal_nvm (s : State) (f : Journal → Journal) : (s.modJournal f).nvm = s.nvm := rfl
@[simp] theorem State.modJournal_cards (s : State) (f : Journal → Journal) : (s.modJournal f).cards = s.cards := rfl
@[simp] theorem State.modJournal_start (s : State) (f : Journal → Journal) : (s.modJournal f).start = s.start := rfl
@[simp] theorem State.modJournal_snp (s : State) (f : Journal → Journal) : (s.modJournal f).snp = s.snp := rfl
@[simp] theorem State.modJournal_viol (s : State) (f : Journal → Journal) : (s.modJournal f).viol = s.viol := rfl
@[simp] theorem State.modJournal_fctRegs (s : State) (f : Journal → Journal) :
    (s.modJournal f).fctRegs = s.fctRegs := rfl
@[simp] theorem State.modJournal_clus (s : State) (f : Journal → Journal) : (s.modJournal f).clus = s.clus := rfl
@[simp] theorem State.modJournal_glb (s : State) (f : Journal → Journal) : (s.modJournal f).glb = s.glb := rfl
@[simp] theorem State.modJournal_out (s : State) (f : Journal → Journal) : (s.modJournal f).out = s.out := rfl

/-! `answerRead` -/

@[simp] theorem State.answerRead_pending (s : State) (v : Word32) : (s.answerRead v).pending = s.pending := rfl
@[simp] theorem State.answerRead_free (s : State) (v : Word32) : (s.answerRead v).free = s.free := rfl
@[simp] theorem State.answerRead_tick (s : State) (v : Word32) : (s.answerRead v).tick = s.tick := rfl
@[simp] theorem State.answerRead_hostMem (s : State) (v : Word32) : (s.answerRead v).hostMem = s.hostMem := rfl
@[simp] theorem State.answerRead_rings (s : State) (v : Word32) : (s.answerRead v).rings = s.rings := rfl
@[simp] theorem State.answerRead_fns (s : State) (v : Word32) : (s.answerRead v).fns = s.fns := rfl
@[simp] theorem State.answerRead_hif (s : State) (v : Word32) : (s.answerRead v).hif = s.hif := rfl
@[simp] theorem State.answerRead_link (s : State) (v : Word32) : (s.answerRead v).link = s.link := rfl
@[simp] theorem State.answerRead_keys (s : State) (v : Word32) : (s.answerRead v).keys = s.keys := rfl
@[simp] theorem State.answerRead_facets (s : State) (v : Word32) : (s.answerRead v).facets = s.facets := rfl
@[simp] theorem State.answerRead_hallmarks (s : State) (v : Word32) : (s.answerRead v).hallmarks = s.hallmarks := rfl
@[simp] theorem State.answerRead_marks (s : State) (v : Word32) : (s.answerRead v).marks = s.marks := rfl
@[simp] theorem State.answerRead_nextMark (s : State) (v : Word32) : (s.answerRead v).nextMark = s.nextMark := rfl
@[simp] theorem State.answerRead_extends_ (s : State) (v : Word32) : (s.answerRead v).extends_ = s.extends_ := rfl
@[simp] theorem State.answerRead_signet (s : State) (v : Word32) : (s.answerRead v).signet = s.signet := rfl
@[simp] theorem State.answerRead_vault (s : State) (v : Word32) : (s.answerRead v).vault = s.vault := rfl
@[simp] theorem State.answerRead_vlt (s : State) (v : Word32) : (s.answerRead v).vlt = s.vlt := rfl
@[simp] theorem State.answerRead_pip (s : State) (v : Word32) : (s.answerRead v).pip = s.pip := rfl
@[simp] theorem State.answerRead_streams (s : State) (v : Word32) : (s.answerRead v).streams = s.streams := rfl
@[simp] theorem State.answerRead_strands (s : State) (v : Word32) : (s.answerRead v).strands = s.strands := rfl
@[simp] theorem State.answerRead_applets (s : State) (v : Word32) : (s.answerRead v).applets = s.applets := rfl
@[simp] theorem State.answerRead_crowns (s : State) (v : Word32) : (s.answerRead v).crowns = s.crowns := rfl
@[simp] theorem State.answerRead_tamper (s : State) (v : Word32) : (s.answerRead v).tamper = s.tamper := rfl
@[simp] theorem State.answerRead_battery (s : State) (v : Word32) : (s.answerRead v).battery = s.battery := rfl
@[simp] theorem State.answerRead_life (s : State) (v : Word32) : (s.answerRead v).life = s.life := rfl
@[simp] theorem State.answerRead_nvm (s : State) (v : Word32) : (s.answerRead v).nvm = s.nvm := rfl
@[simp] theorem State.answerRead_cards (s : State) (v : Word32) : (s.answerRead v).cards = s.cards := rfl
@[simp] theorem State.answerRead_start (s : State) (v : Word32) : (s.answerRead v).start = s.start := rfl
@[simp] theorem State.answerRead_snp (s : State) (v : Word32) : (s.answerRead v).snp = s.snp := rfl
@[simp] theorem State.answerRead_viol (s : State) (v : Word32) : (s.answerRead v).viol = s.viol := rfl
@[simp] theorem State.answerRead_fctRegs (s : State) (v : Word32) : (s.answerRead v).fctRegs = s.fctRegs := rfl
@[simp] theorem State.answerRead_clus (s : State) (v : Word32) : (s.answerRead v).clus = s.clus := rfl
@[simp] theorem State.answerRead_glb (s : State) (v : Word32) : (s.answerRead v).glb = s.glb := rfl

/-! `setFct` -/

@[simp] theorem State.setFct_pending (s : State) (f : Nat) (x : FctSt) : (s.setFct f x).pending = s.pending := rfl
@[simp] theorem State.setFct_free (s : State) (f : Nat) (x : FctSt) : (s.setFct f x).free = s.free := rfl
@[simp] theorem State.setFct_tick (s : State) (f : Nat) (x : FctSt) : (s.setFct f x).tick = s.tick := rfl
@[simp] theorem State.setFct_hostMem (s : State) (f : Nat) (x : FctSt) : (s.setFct f x).hostMem = s.hostMem := rfl
@[simp] theorem State.setFct_rings (s : State) (f : Nat) (x : FctSt) : (s.setFct f x).rings = s.rings := rfl
@[simp] theorem State.setFct_fns (s : State) (f : Nat) (x : FctSt) : (s.setFct f x).fns = s.fns := rfl
@[simp] theorem State.setFct_hif (s : State) (f : Nat) (x : FctSt) : (s.setFct f x).hif = s.hif := rfl
@[simp] theorem State.setFct_link (s : State) (f : Nat) (x : FctSt) : (s.setFct f x).link = s.link := rfl
@[simp] theorem State.setFct_keys (s : State) (f : Nat) (x : FctSt) : (s.setFct f x).keys = s.keys := rfl
@[simp] theorem State.setFct_facets (s : State) (f : Nat) (x : FctSt) : (s.setFct f x).facets = s.facets := rfl
@[simp] theorem State.setFct_hallmarks (s : State) (f : Nat) (x : FctSt) : (s.setFct f x).hallmarks = s.hallmarks := rfl
@[simp] theorem State.setFct_marks (s : State) (f : Nat) (x : FctSt) : (s.setFct f x).marks = s.marks := rfl
@[simp] theorem State.setFct_nextMark (s : State) (f : Nat) (x : FctSt) : (s.setFct f x).nextMark = s.nextMark := rfl
@[simp] theorem State.setFct_extends_ (s : State) (f : Nat) (x : FctSt) : (s.setFct f x).extends_ = s.extends_ := rfl
@[simp] theorem State.setFct_signet (s : State) (f : Nat) (x : FctSt) : (s.setFct f x).signet = s.signet := rfl
@[simp] theorem State.setFct_vault (s : State) (f : Nat) (x : FctSt) : (s.setFct f x).vault = s.vault := rfl
@[simp] theorem State.setFct_vlt (s : State) (f : Nat) (x : FctSt) : (s.setFct f x).vlt = s.vlt := rfl
@[simp] theorem State.setFct_pip (s : State) (f : Nat) (x : FctSt) : (s.setFct f x).pip = s.pip := rfl
@[simp] theorem State.setFct_streams (s : State) (f : Nat) (x : FctSt) : (s.setFct f x).streams = s.streams := rfl
@[simp] theorem State.setFct_strands (s : State) (f : Nat) (x : FctSt) : (s.setFct f x).strands = s.strands := rfl
@[simp] theorem State.setFct_applets (s : State) (f : Nat) (x : FctSt) : (s.setFct f x).applets = s.applets := rfl
@[simp] theorem State.setFct_crowns (s : State) (f : Nat) (x : FctSt) : (s.setFct f x).crowns = s.crowns := rfl
@[simp] theorem State.setFct_tamper (s : State) (f : Nat) (x : FctSt) : (s.setFct f x).tamper = s.tamper := rfl
@[simp] theorem State.setFct_battery (s : State) (f : Nat) (x : FctSt) : (s.setFct f x).battery = s.battery := rfl
@[simp] theorem State.setFct_life (s : State) (f : Nat) (x : FctSt) : (s.setFct f x).life = s.life := rfl
@[simp] theorem State.setFct_nvm (s : State) (f : Nat) (x : FctSt) : (s.setFct f x).nvm = s.nvm := rfl
@[simp] theorem State.setFct_cards (s : State) (f : Nat) (x : FctSt) : (s.setFct f x).cards = s.cards := rfl
@[simp] theorem State.setFct_snp (s : State) (f : Nat) (x : FctSt) : (s.setFct f x).snp = s.snp := rfl
@[simp] theorem State.setFct_viol (s : State) (f : Nat) (x : FctSt) : (s.setFct f x).viol = s.viol := rfl
@[simp] theorem State.setFct_fctRegs (s : State) (f : Nat) (x : FctSt) : (s.setFct f x).fctRegs = s.fctRegs := rfl
@[simp] theorem State.setFct_clus (s : State) (f : Nat) (x : FctSt) : (s.setFct f x).clus = s.clus := rfl
@[simp] theorem State.setFct_glb (s : State) (f : Nat) (x : FctSt) : (s.setFct f x).glb = s.glb := rfl
@[simp] theorem State.setFct_out (s : State) (f : Nat) (x : FctSt) : (s.setFct f x).out = s.out := rfl

/-! `setClasp` -/

@[simp] theorem State.setClasp_pending (s : State) (k : Nat) (c : Clasp) : (s.setClasp k c).pending = s.pending := rfl
@[simp] theorem State.setClasp_free (s : State) (k : Nat) (c : Clasp) : (s.setClasp k c).free = s.free := rfl
@[simp] theorem State.setClasp_tick (s : State) (k : Nat) (c : Clasp) : (s.setClasp k c).tick = s.tick := rfl
@[simp] theorem State.setClasp_hostMem (s : State) (k : Nat) (c : Clasp) : (s.setClasp k c).hostMem = s.hostMem := rfl
@[simp] theorem State.setClasp_rings (s : State) (k : Nat) (c : Clasp) : (s.setClasp k c).rings = s.rings := rfl
@[simp] theorem State.setClasp_fns (s : State) (k : Nat) (c : Clasp) : (s.setClasp k c).fns = s.fns := rfl
@[simp] theorem State.setClasp_hif (s : State) (k : Nat) (c : Clasp) : (s.setClasp k c).hif = s.hif := rfl
@[simp] theorem State.setClasp_link (s : State) (k : Nat) (c : Clasp) : (s.setClasp k c).link = s.link := rfl
@[simp] theorem State.setClasp_keys (s : State) (k : Nat) (c : Clasp) : (s.setClasp k c).keys = s.keys := rfl
@[simp] theorem State.setClasp_facets (s : State) (k : Nat) (c : Clasp) : (s.setClasp k c).facets = s.facets := rfl
@[simp] theorem State.setClasp_hallmarks (s : State) (k : Nat) (c : Clasp) :
    (s.setClasp k c).hallmarks = s.hallmarks := rfl
@[simp] theorem State.setClasp_marks (s : State) (k : Nat) (c : Clasp) : (s.setClasp k c).marks = s.marks := rfl
@[simp] theorem State.setClasp_nextMark (s : State) (k : Nat) (c : Clasp) :
    (s.setClasp k c).nextMark = s.nextMark := rfl
@[simp] theorem State.setClasp_extends_ (s : State) (k : Nat) (c : Clasp) :
    (s.setClasp k c).extends_ = s.extends_ := rfl
@[simp] theorem State.setClasp_signet (s : State) (k : Nat) (c : Clasp) : (s.setClasp k c).signet = s.signet := rfl
@[simp] theorem State.setClasp_vault (s : State) (k : Nat) (c : Clasp) : (s.setClasp k c).vault = s.vault := rfl
@[simp] theorem State.setClasp_vlt (s : State) (k : Nat) (c : Clasp) : (s.setClasp k c).vlt = s.vlt := rfl
@[simp] theorem State.setClasp_pip (s : State) (k : Nat) (c : Clasp) : (s.setClasp k c).pip = s.pip := rfl
@[simp] theorem State.setClasp_streams (s : State) (k : Nat) (c : Clasp) : (s.setClasp k c).streams = s.streams := rfl
@[simp] theorem State.setClasp_strands (s : State) (k : Nat) (c : Clasp) : (s.setClasp k c).strands = s.strands := rfl
@[simp] theorem State.setClasp_applets (s : State) (k : Nat) (c : Clasp) : (s.setClasp k c).applets = s.applets := rfl
@[simp] theorem State.setClasp_tamper (s : State) (k : Nat) (c : Clasp) : (s.setClasp k c).tamper = s.tamper := rfl
@[simp] theorem State.setClasp_battery (s : State) (k : Nat) (c : Clasp) : (s.setClasp k c).battery = s.battery := rfl
@[simp] theorem State.setClasp_life (s : State) (k : Nat) (c : Clasp) : (s.setClasp k c).life = s.life := rfl
@[simp] theorem State.setClasp_nvm (s : State) (k : Nat) (c : Clasp) : (s.setClasp k c).nvm = s.nvm := rfl
@[simp] theorem State.setClasp_cards (s : State) (k : Nat) (c : Clasp) : (s.setClasp k c).cards = s.cards := rfl
@[simp] theorem State.setClasp_start (s : State) (k : Nat) (c : Clasp) : (s.setClasp k c).start = s.start := rfl
@[simp] theorem State.setClasp_snp (s : State) (k : Nat) (c : Clasp) : (s.setClasp k c).snp = s.snp := rfl
@[simp] theorem State.setClasp_viol (s : State) (k : Nat) (c : Clasp) : (s.setClasp k c).viol = s.viol := rfl
@[simp] theorem State.setClasp_fctRegs (s : State) (k : Nat) (c : Clasp) : (s.setClasp k c).fctRegs = s.fctRegs := rfl
@[simp] theorem State.setClasp_clus (s : State) (k : Nat) (c : Clasp) : (s.setClasp k c).clus = s.clus := rfl
@[simp] theorem State.setClasp_glb (s : State) (k : Nat) (c : Clasp) : (s.setClasp k c).glb = s.glb := rfl
@[simp] theorem State.setClasp_out (s : State) (k : Nat) (c : Clasp) : (s.setClasp k c).out = s.out := rfl

/-! `setMon` -/

@[simp] theorem State.setMon_pending (s : State) (m : Nat) (v : Monitor) : (s.setMon m v).pending = s.pending := rfl
@[simp] theorem State.setMon_free (s : State) (m : Nat) (v : Monitor) : (s.setMon m v).free = s.free := rfl
@[simp] theorem State.setMon_tick (s : State) (m : Nat) (v : Monitor) : (s.setMon m v).tick = s.tick := rfl
@[simp] theorem State.setMon_hostMem (s : State) (m : Nat) (v : Monitor) : (s.setMon m v).hostMem = s.hostMem := rfl
@[simp] theorem State.setMon_rings (s : State) (m : Nat) (v : Monitor) : (s.setMon m v).rings = s.rings := rfl
@[simp] theorem State.setMon_fns (s : State) (m : Nat) (v : Monitor) : (s.setMon m v).fns = s.fns := rfl
@[simp] theorem State.setMon_hif (s : State) (m : Nat) (v : Monitor) : (s.setMon m v).hif = s.hif := rfl
@[simp] theorem State.setMon_link (s : State) (m : Nat) (v : Monitor) : (s.setMon m v).link = s.link := rfl
@[simp] theorem State.setMon_keys (s : State) (m : Nat) (v : Monitor) : (s.setMon m v).keys = s.keys := rfl
@[simp] theorem State.setMon_facets (s : State) (m : Nat) (v : Monitor) : (s.setMon m v).facets = s.facets := rfl
@[simp] theorem State.setMon_hallmarks (s : State) (m : Nat) (v : Monitor) :
    (s.setMon m v).hallmarks = s.hallmarks := rfl
@[simp] theorem State.setMon_marks (s : State) (m : Nat) (v : Monitor) : (s.setMon m v).marks = s.marks := rfl
@[simp] theorem State.setMon_nextMark (s : State) (m : Nat) (v : Monitor) : (s.setMon m v).nextMark = s.nextMark := rfl
@[simp] theorem State.setMon_extends_ (s : State) (m : Nat) (v : Monitor) : (s.setMon m v).extends_ = s.extends_ := rfl
@[simp] theorem State.setMon_signet (s : State) (m : Nat) (v : Monitor) : (s.setMon m v).signet = s.signet := rfl
@[simp] theorem State.setMon_vault (s : State) (m : Nat) (v : Monitor) : (s.setMon m v).vault = s.vault := rfl
@[simp] theorem State.setMon_vlt (s : State) (m : Nat) (v : Monitor) : (s.setMon m v).vlt = s.vlt := rfl
@[simp] theorem State.setMon_pip (s : State) (m : Nat) (v : Monitor) : (s.setMon m v).pip = s.pip := rfl
@[simp] theorem State.setMon_streams (s : State) (m : Nat) (v : Monitor) : (s.setMon m v).streams = s.streams := rfl
@[simp] theorem State.setMon_strands (s : State) (m : Nat) (v : Monitor) : (s.setMon m v).strands = s.strands := rfl
@[simp] theorem State.setMon_applets (s : State) (m : Nat) (v : Monitor) : (s.setMon m v).applets = s.applets := rfl
@[simp] theorem State.setMon_crowns (s : State) (m : Nat) (v : Monitor) : (s.setMon m v).crowns = s.crowns := rfl
@[simp] theorem State.setMon_battery (s : State) (m : Nat) (v : Monitor) : (s.setMon m v).battery = s.battery := rfl
@[simp] theorem State.setMon_life (s : State) (m : Nat) (v : Monitor) : (s.setMon m v).life = s.life := rfl
@[simp] theorem State.setMon_nvm (s : State) (m : Nat) (v : Monitor) : (s.setMon m v).nvm = s.nvm := rfl
@[simp] theorem State.setMon_cards (s : State) (m : Nat) (v : Monitor) : (s.setMon m v).cards = s.cards := rfl
@[simp] theorem State.setMon_start (s : State) (m : Nat) (v : Monitor) : (s.setMon m v).start = s.start := rfl
@[simp] theorem State.setMon_snp (s : State) (m : Nat) (v : Monitor) : (s.setMon m v).snp = s.snp := rfl
@[simp] theorem State.setMon_viol (s : State) (m : Nat) (v : Monitor) : (s.setMon m v).viol = s.viol := rfl
@[simp] theorem State.setMon_fctRegs (s : State) (m : Nat) (v : Monitor) : (s.setMon m v).fctRegs = s.fctRegs := rfl
@[simp] theorem State.setMon_clus (s : State) (m : Nat) (v : Monitor) : (s.setMon m v).clus = s.clus := rfl
@[simp] theorem State.setMon_glb (s : State) (m : Nat) (v : Monitor) : (s.setMon m v).glb = s.glb := rfl
@[simp] theorem State.setMon_out (s : State) (m : Nat) (v : Monitor) : (s.setMon m v).out = s.out := rfl

/-! `modJob` -/

@[simp] theorem State.modJob_pending (s : State) (f : SpdmJob → SpdmJob) : (s.modJob f).pending = s.pending := rfl
@[simp] theorem State.modJob_free (s : State) (f : SpdmJob → SpdmJob) : (s.modJob f).free = s.free := rfl
@[simp] theorem State.modJob_tick (s : State) (f : SpdmJob → SpdmJob) : (s.modJob f).tick = s.tick := rfl
@[simp] theorem State.modJob_hostMem (s : State) (f : SpdmJob → SpdmJob) : (s.modJob f).hostMem = s.hostMem := rfl
@[simp] theorem State.modJob_rings (s : State) (f : SpdmJob → SpdmJob) : (s.modJob f).rings = s.rings := rfl
@[simp] theorem State.modJob_fns (s : State) (f : SpdmJob → SpdmJob) : (s.modJob f).fns = s.fns := rfl
@[simp] theorem State.modJob_hif (s : State) (f : SpdmJob → SpdmJob) : (s.modJob f).hif = s.hif := rfl
@[simp] theorem State.modJob_keys (s : State) (f : SpdmJob → SpdmJob) : (s.modJob f).keys = s.keys := rfl
@[simp] theorem State.modJob_facets (s : State) (f : SpdmJob → SpdmJob) : (s.modJob f).facets = s.facets := rfl
@[simp] theorem State.modJob_hallmarks (s : State) (f : SpdmJob → SpdmJob) : (s.modJob f).hallmarks = s.hallmarks := rfl
@[simp] theorem State.modJob_marks (s : State) (f : SpdmJob → SpdmJob) : (s.modJob f).marks = s.marks := rfl
@[simp] theorem State.modJob_nextMark (s : State) (f : SpdmJob → SpdmJob) : (s.modJob f).nextMark = s.nextMark := rfl
@[simp] theorem State.modJob_extends_ (s : State) (f : SpdmJob → SpdmJob) : (s.modJob f).extends_ = s.extends_ := rfl
@[simp] theorem State.modJob_signet (s : State) (f : SpdmJob → SpdmJob) : (s.modJob f).signet = s.signet := rfl
@[simp] theorem State.modJob_vault (s : State) (f : SpdmJob → SpdmJob) : (s.modJob f).vault = s.vault := rfl
@[simp] theorem State.modJob_vlt (s : State) (f : SpdmJob → SpdmJob) : (s.modJob f).vlt = s.vlt := rfl
@[simp] theorem State.modJob_pip (s : State) (f : SpdmJob → SpdmJob) : (s.modJob f).pip = s.pip := rfl
@[simp] theorem State.modJob_streams (s : State) (f : SpdmJob → SpdmJob) : (s.modJob f).streams = s.streams := rfl
@[simp] theorem State.modJob_strands (s : State) (f : SpdmJob → SpdmJob) : (s.modJob f).strands = s.strands := rfl
@[simp] theorem State.modJob_applets (s : State) (f : SpdmJob → SpdmJob) : (s.modJob f).applets = s.applets := rfl
@[simp] theorem State.modJob_crowns (s : State) (f : SpdmJob → SpdmJob) : (s.modJob f).crowns = s.crowns := rfl
@[simp] theorem State.modJob_tamper (s : State) (f : SpdmJob → SpdmJob) : (s.modJob f).tamper = s.tamper := rfl
@[simp] theorem State.modJob_battery (s : State) (f : SpdmJob → SpdmJob) : (s.modJob f).battery = s.battery := rfl
@[simp] theorem State.modJob_life (s : State) (f : SpdmJob → SpdmJob) : (s.modJob f).life = s.life := rfl
@[simp] theorem State.modJob_nvm (s : State) (f : SpdmJob → SpdmJob) : (s.modJob f).nvm = s.nvm := rfl
@[simp] theorem State.modJob_cards (s : State) (f : SpdmJob → SpdmJob) : (s.modJob f).cards = s.cards := rfl
@[simp] theorem State.modJob_start (s : State) (f : SpdmJob → SpdmJob) : (s.modJob f).start = s.start := rfl
@[simp] theorem State.modJob_snp (s : State) (f : SpdmJob → SpdmJob) : (s.modJob f).snp = s.snp := rfl
@[simp] theorem State.modJob_viol (s : State) (f : SpdmJob → SpdmJob) : (s.modJob f).viol = s.viol := rfl
@[simp] theorem State.modJob_fctRegs (s : State) (f : SpdmJob → SpdmJob) : (s.modJob f).fctRegs = s.fctRegs := rfl
@[simp] theorem State.modJob_clus (s : State) (f : SpdmJob → SpdmJob) : (s.modJob f).clus = s.clus := rfl
@[simp] theorem State.modJob_glb (s : State) (f : SpdmJob → SpdmJob) : (s.modJob f).glb = s.glb := rfl
@[simp] theorem State.modJob_out (s : State) (f : SpdmJob → SpdmJob) : (s.modJob f).out = s.out := rfl

/-! `waitFor` -/

@[simp] theorem State.waitFor_pending (s : State) (w : DrawWait) : (s.waitFor w).pending = s.pending := rfl
@[simp] theorem State.waitFor_free (s : State) (w : DrawWait) : (s.waitFor w).free = s.free := rfl
@[simp] theorem State.waitFor_tick (s : State) (w : DrawWait) : (s.waitFor w).tick = s.tick := rfl
@[simp] theorem State.waitFor_hostMem (s : State) (w : DrawWait) : (s.waitFor w).hostMem = s.hostMem := rfl
@[simp] theorem State.waitFor_rings (s : State) (w : DrawWait) : (s.waitFor w).rings = s.rings := rfl
@[simp] theorem State.waitFor_fns (s : State) (w : DrawWait) : (s.waitFor w).fns = s.fns := rfl
@[simp] theorem State.waitFor_hif (s : State) (w : DrawWait) : (s.waitFor w).hif = s.hif := rfl
@[simp] theorem State.waitFor_link (s : State) (w : DrawWait) : (s.waitFor w).link = s.link := rfl
@[simp] theorem State.waitFor_keys (s : State) (w : DrawWait) : (s.waitFor w).keys = s.keys := rfl
@[simp] theorem State.waitFor_facets (s : State) (w : DrawWait) : (s.waitFor w).facets = s.facets := rfl
@[simp] theorem State.waitFor_hallmarks (s : State) (w : DrawWait) : (s.waitFor w).hallmarks = s.hallmarks := rfl
@[simp] theorem State.waitFor_marks (s : State) (w : DrawWait) : (s.waitFor w).marks = s.marks := rfl
@[simp] theorem State.waitFor_nextMark (s : State) (w : DrawWait) : (s.waitFor w).nextMark = s.nextMark := rfl
@[simp] theorem State.waitFor_extends_ (s : State) (w : DrawWait) : (s.waitFor w).extends_ = s.extends_ := rfl
@[simp] theorem State.waitFor_vault (s : State) (w : DrawWait) : (s.waitFor w).vault = s.vault := rfl
@[simp] theorem State.waitFor_vlt (s : State) (w : DrawWait) : (s.waitFor w).vlt = s.vlt := rfl
@[simp] theorem State.waitFor_pip (s : State) (w : DrawWait) : (s.waitFor w).pip = s.pip := rfl
@[simp] theorem State.waitFor_streams (s : State) (w : DrawWait) : (s.waitFor w).streams = s.streams := rfl
@[simp] theorem State.waitFor_strands (s : State) (w : DrawWait) : (s.waitFor w).strands = s.strands := rfl
@[simp] theorem State.waitFor_applets (s : State) (w : DrawWait) : (s.waitFor w).applets = s.applets := rfl
@[simp] theorem State.waitFor_crowns (s : State) (w : DrawWait) : (s.waitFor w).crowns = s.crowns := rfl
@[simp] theorem State.waitFor_tamper (s : State) (w : DrawWait) : (s.waitFor w).tamper = s.tamper := rfl
@[simp] theorem State.waitFor_battery (s : State) (w : DrawWait) : (s.waitFor w).battery = s.battery := rfl
@[simp] theorem State.waitFor_life (s : State) (w : DrawWait) : (s.waitFor w).life = s.life := rfl
@[simp] theorem State.waitFor_nvm (s : State) (w : DrawWait) : (s.waitFor w).nvm = s.nvm := rfl
@[simp] theorem State.waitFor_cards (s : State) (w : DrawWait) : (s.waitFor w).cards = s.cards := rfl
@[simp] theorem State.waitFor_start (s : State) (w : DrawWait) : (s.waitFor w).start = s.start := rfl
@[simp] theorem State.waitFor_snp (s : State) (w : DrawWait) : (s.waitFor w).snp = s.snp := rfl
@[simp] theorem State.waitFor_viol (s : State) (w : DrawWait) : (s.waitFor w).viol = s.viol := rfl
@[simp] theorem State.waitFor_fctRegs (s : State) (w : DrawWait) : (s.waitFor w).fctRegs = s.fctRegs := rfl
@[simp] theorem State.waitFor_clus (s : State) (w : DrawWait) : (s.waitFor w).clus = s.clus := rfl
@[simp] theorem State.waitFor_glb (s : State) (w : DrawWait) : (s.waitFor w).glb = s.glb := rfl
@[simp] theorem State.waitFor_out (s : State) (w : DrawWait) : (s.waitFor w).out = s.out := rfl

/-! `setDrbg` -/

@[simp] theorem State.setDrbg_pending (s : State) (i : Nat) (d : Drbg) : (s.setDrbg i d).pending = s.pending := rfl
@[simp] theorem State.setDrbg_free (s : State) (i : Nat) (d : Drbg) : (s.setDrbg i d).free = s.free := rfl
@[simp] theorem State.setDrbg_tick (s : State) (i : Nat) (d : Drbg) : (s.setDrbg i d).tick = s.tick := rfl
@[simp] theorem State.setDrbg_hostMem (s : State) (i : Nat) (d : Drbg) : (s.setDrbg i d).hostMem = s.hostMem := rfl
@[simp] theorem State.setDrbg_rings (s : State) (i : Nat) (d : Drbg) : (s.setDrbg i d).rings = s.rings := rfl
@[simp] theorem State.setDrbg_fns (s : State) (i : Nat) (d : Drbg) : (s.setDrbg i d).fns = s.fns := rfl
@[simp] theorem State.setDrbg_hif (s : State) (i : Nat) (d : Drbg) : (s.setDrbg i d).hif = s.hif := rfl
@[simp] theorem State.setDrbg_link (s : State) (i : Nat) (d : Drbg) : (s.setDrbg i d).link = s.link := rfl
@[simp] theorem State.setDrbg_keys (s : State) (i : Nat) (d : Drbg) : (s.setDrbg i d).keys = s.keys := rfl
@[simp] theorem State.setDrbg_facets (s : State) (i : Nat) (d : Drbg) : (s.setDrbg i d).facets = s.facets := rfl
@[simp] theorem State.setDrbg_hallmarks (s : State) (i : Nat) (d : Drbg) :
    (s.setDrbg i d).hallmarks = s.hallmarks := rfl
@[simp] theorem State.setDrbg_marks (s : State) (i : Nat) (d : Drbg) : (s.setDrbg i d).marks = s.marks := rfl
@[simp] theorem State.setDrbg_nextMark (s : State) (i : Nat) (d : Drbg) : (s.setDrbg i d).nextMark = s.nextMark := rfl
@[simp] theorem State.setDrbg_extends_ (s : State) (i : Nat) (d : Drbg) : (s.setDrbg i d).extends_ = s.extends_ := rfl
@[simp] theorem State.setDrbg_vault (s : State) (i : Nat) (d : Drbg) : (s.setDrbg i d).vault = s.vault := rfl
@[simp] theorem State.setDrbg_vlt (s : State) (i : Nat) (d : Drbg) : (s.setDrbg i d).vlt = s.vlt := rfl
@[simp] theorem State.setDrbg_pip (s : State) (i : Nat) (d : Drbg) : (s.setDrbg i d).pip = s.pip := rfl
@[simp] theorem State.setDrbg_streams (s : State) (i : Nat) (d : Drbg) : (s.setDrbg i d).streams = s.streams := rfl
@[simp] theorem State.setDrbg_strands (s : State) (i : Nat) (d : Drbg) : (s.setDrbg i d).strands = s.strands := rfl
@[simp] theorem State.setDrbg_applets (s : State) (i : Nat) (d : Drbg) : (s.setDrbg i d).applets = s.applets := rfl
@[simp] theorem State.setDrbg_crowns (s : State) (i : Nat) (d : Drbg) : (s.setDrbg i d).crowns = s.crowns := rfl
@[simp] theorem State.setDrbg_tamper (s : State) (i : Nat) (d : Drbg) : (s.setDrbg i d).tamper = s.tamper := rfl
@[simp] theorem State.setDrbg_battery (s : State) (i : Nat) (d : Drbg) : (s.setDrbg i d).battery = s.battery := rfl
@[simp] theorem State.setDrbg_life (s : State) (i : Nat) (d : Drbg) : (s.setDrbg i d).life = s.life := rfl
@[simp] theorem State.setDrbg_nvm (s : State) (i : Nat) (d : Drbg) : (s.setDrbg i d).nvm = s.nvm := rfl
@[simp] theorem State.setDrbg_cards (s : State) (i : Nat) (d : Drbg) : (s.setDrbg i d).cards = s.cards := rfl
@[simp] theorem State.setDrbg_start (s : State) (i : Nat) (d : Drbg) : (s.setDrbg i d).start = s.start := rfl
@[simp] theorem State.setDrbg_snp (s : State) (i : Nat) (d : Drbg) : (s.setDrbg i d).snp = s.snp := rfl
@[simp] theorem State.setDrbg_viol (s : State) (i : Nat) (d : Drbg) : (s.setDrbg i d).viol = s.viol := rfl
@[simp] theorem State.setDrbg_fctRegs (s : State) (i : Nat) (d : Drbg) : (s.setDrbg i d).fctRegs = s.fctRegs := rfl
@[simp] theorem State.setDrbg_clus (s : State) (i : Nat) (d : Drbg) : (s.setDrbg i d).clus = s.clus := rfl
@[simp] theorem State.setDrbg_glb (s : State) (i : Nat) (d : Drbg) : (s.setDrbg i d).glb = s.glb := rfl
@[simp] theorem State.setDrbg_out (s : State) (i : Nat) (d : Drbg) : (s.setDrbg i d).out = s.out := rfl

/-! `hostStores` -/

/-- A write to configuration space changes functions and link alone. -/
theorem State.cfgWrite_frame (s : State) (w : CfgWrite) :
    ∃ (a : Tab Fn) (b : Link), s.cfgWrite w = { s with fns := a, link := b } := by
  simp only [State.cfgWrite]
  split
  · exact ⟨_, _, rfl⟩
  · cases w <;> simp only <;> (try split) <;> exact ⟨_, _, rfl⟩

/-- So do any number of them. -/
theorem State.cfgWrites_frame (l : List CfgWrite) : ∀ (s : State),
    ∃ (a : Tab Fn) (b : Link), l.foldl State.cfgWrite s = { s with fns := a, link := b } := by
  induction l with
  | nil => exact fun _ => ⟨_, _, rfl⟩
  | cons w l ih =>
    intro s
    obtain ⟨a, b, h⟩ := s.cfgWrite_frame w
    obtain ⟨c, d, k⟩ := ih { s with fns := a, link := b }
    exact ⟨c, d, by rw [List.foldl_cons, h, k]⟩

/-- What comes with a command from outside changes functions, link, host memory and vault memories alone. -/
theorem State.hostStores_frame (s : State) (env : Env) :
    ∃ (a : Tab Fn) (b : Link) (m : Mem) (v : Vault),
      s.hostStores env = { s with fns := a, link := b, hostMem := m, vault := v } := by
  obtain ⟨a, b, h⟩ := State.cfgWrites_frame env.config s
  unfold State.hostStores
  rw [h]
  exact ⟨_, _, _, _, rfl⟩

@[simp] theorem State.hostStores_pending (s : State) (env : Env) : (s.hostStores env).pending = s.pending := by
  obtain ⟨_, _, _, _, h⟩ := s.hostStores_frame env; rw [h]
@[simp] theorem State.hostStores_free (s : State) (env : Env) : (s.hostStores env).free = s.free := by
  obtain ⟨_, _, _, _, h⟩ := s.hostStores_frame env; rw [h]
@[simp] theorem State.hostStores_tick (s : State) (env : Env) : (s.hostStores env).tick = s.tick := by
  obtain ⟨_, _, _, _, h⟩ := s.hostStores_frame env; rw [h]
@[simp] theorem State.hostStores_rings (s : State) (env : Env) : (s.hostStores env).rings = s.rings := by
  obtain ⟨_, _, _, _, h⟩ := s.hostStores_frame env; rw [h]
@[simp] theorem State.hostStores_hif (s : State) (env : Env) : (s.hostStores env).hif = s.hif := by
  obtain ⟨_, _, _, _, h⟩ := s.hostStores_frame env; rw [h]
@[simp] theorem State.hostStores_keys (s : State) (env : Env) : (s.hostStores env).keys = s.keys := by
  obtain ⟨_, _, _, _, h⟩ := s.hostStores_frame env; rw [h]
@[simp] theorem State.hostStores_facets (s : State) (env : Env) : (s.hostStores env).facets = s.facets := by
  obtain ⟨_, _, _, _, h⟩ := s.hostStores_frame env; rw [h]
@[simp] theorem State.hostStores_hallmarks (s : State) (env : Env) : (s.hostStores env).hallmarks = s.hallmarks := by
  obtain ⟨_, _, _, _, h⟩ := s.hostStores_frame env; rw [h]
@[simp] theorem State.hostStores_marks (s : State) (env : Env) : (s.hostStores env).marks = s.marks := by
  obtain ⟨_, _, _, _, h⟩ := s.hostStores_frame env; rw [h]
@[simp] theorem State.hostStores_nextMark (s : State) (env : Env) : (s.hostStores env).nextMark = s.nextMark := by
  obtain ⟨_, _, _, _, h⟩ := s.hostStores_frame env; rw [h]
@[simp] theorem State.hostStores_extends_ (s : State) (env : Env) : (s.hostStores env).extends_ = s.extends_ := by
  obtain ⟨_, _, _, _, h⟩ := s.hostStores_frame env; rw [h]
@[simp] theorem State.hostStores_signet (s : State) (env : Env) : (s.hostStores env).signet = s.signet := by
  obtain ⟨_, _, _, _, h⟩ := s.hostStores_frame env; rw [h]
@[simp] theorem State.hostStores_vlt (s : State) (env : Env) : (s.hostStores env).vlt = s.vlt := by
  obtain ⟨_, _, _, _, h⟩ := s.hostStores_frame env; rw [h]
@[simp] theorem State.hostStores_pip (s : State) (env : Env) : (s.hostStores env).pip = s.pip := by
  obtain ⟨_, _, _, _, h⟩ := s.hostStores_frame env; rw [h]
@[simp] theorem State.hostStores_streams (s : State) (env : Env) : (s.hostStores env).streams = s.streams := by
  obtain ⟨_, _, _, _, h⟩ := s.hostStores_frame env; rw [h]
@[simp] theorem State.hostStores_strands (s : State) (env : Env) : (s.hostStores env).strands = s.strands := by
  obtain ⟨_, _, _, _, h⟩ := s.hostStores_frame env; rw [h]
@[simp] theorem State.hostStores_applets (s : State) (env : Env) : (s.hostStores env).applets = s.applets := by
  obtain ⟨_, _, _, _, h⟩ := s.hostStores_frame env; rw [h]
@[simp] theorem State.hostStores_crowns (s : State) (env : Env) : (s.hostStores env).crowns = s.crowns := by
  obtain ⟨_, _, _, _, h⟩ := s.hostStores_frame env; rw [h]
@[simp] theorem State.hostStores_tamper (s : State) (env : Env) : (s.hostStores env).tamper = s.tamper := by
  obtain ⟨_, _, _, _, h⟩ := s.hostStores_frame env; rw [h]
@[simp] theorem State.hostStores_battery (s : State) (env : Env) : (s.hostStores env).battery = s.battery := by
  obtain ⟨_, _, _, _, h⟩ := s.hostStores_frame env; rw [h]
@[simp] theorem State.hostStores_life (s : State) (env : Env) : (s.hostStores env).life = s.life := by
  obtain ⟨_, _, _, _, h⟩ := s.hostStores_frame env; rw [h]
@[simp] theorem State.hostStores_nvm (s : State) (env : Env) : (s.hostStores env).nvm = s.nvm := by
  obtain ⟨_, _, _, _, h⟩ := s.hostStores_frame env; rw [h]
@[simp] theorem State.hostStores_cards (s : State) (env : Env) : (s.hostStores env).cards = s.cards := by
  obtain ⟨_, _, _, _, h⟩ := s.hostStores_frame env; rw [h]
@[simp] theorem State.hostStores_start (s : State) (env : Env) : (s.hostStores env).start = s.start := by
  obtain ⟨_, _, _, _, h⟩ := s.hostStores_frame env; rw [h]
@[simp] theorem State.hostStores_snp (s : State) (env : Env) : (s.hostStores env).snp = s.snp := by
  obtain ⟨_, _, _, _, h⟩ := s.hostStores_frame env; rw [h]
@[simp] theorem State.hostStores_viol (s : State) (env : Env) : (s.hostStores env).viol = s.viol := by
  obtain ⟨_, _, _, _, h⟩ := s.hostStores_frame env; rw [h]
@[simp] theorem State.hostStores_fctRegs (s : State) (env : Env) : (s.hostStores env).fctRegs = s.fctRegs := by
  obtain ⟨_, _, _, _, h⟩ := s.hostStores_frame env; rw [h]
@[simp] theorem State.hostStores_clus (s : State) (env : Env) : (s.hostStores env).clus = s.clus := by
  obtain ⟨_, _, _, _, h⟩ := s.hostStores_frame env; rw [h]
@[simp] theorem State.hostStores_glb (s : State) (env : Env) : (s.hostStores env).glb = s.glb := by
  obtain ⟨_, _, _, _, h⟩ := s.hostStores_frame env; rw [h]
@[simp] theorem State.hostStores_out (s : State) (env : Env) : (s.hostStores env).out = s.out := by
  obtain ⟨_, _, _, _, h⟩ := s.hostStores_frame env; rw [h]

/-- A command that brings no configuration write leaves functions and link. -/
theorem State.hostStores_none (s : State) (env : Env) (h : env.config = []) :
    (s.hostStores env).fns = s.fns ∧ (s.hostStores env).link = s.link := by
  unfold State.hostStores
  rw [h]
  exact ⟨rfl, rfl⟩

end Sys2Proof.Machine
end

