-- ==== Sys2Proof/Laws/Tab.lean ====
section
/-!
SUPPORT. Sparse tables and byte memory: what a store does to every entry, and that the canonical form is kept.
-/

namespace Sys2Proof.Machine

variable {α : Type} [DecidableEq α] {d v : α} {t : Tab α} {i j n m : Nat}

theorem twfFrom_mono (h : n ≤ m) (w : twfFrom d m t = true) : twfFrom d n t = true := by
  cases t with
  | nil => rfl
  | cons e t =>
    obtain ⟨k, x⟩ := e
    simp only [twfFrom, Bool.and_eq_true, decide_eq_true_eq] at *
    exact ⟨⟨by omega, w.1.2⟩, w.2⟩

theorem tget_below (w : twfFrom d n t = true) (h : j < n) : tget d t j = d := by
  cases t with
  | nil => rfl
  | cons e t =>
    obtain ⟨k, x⟩ := e
    simp only [twfFrom, Bool.and_eq_true, decide_eq_true_eq] at w
    simp only [tget]
    rw [if_neg (by omega), if_pos (by omega)]

omit [DecidableEq α] in
theorem tget_tput_same : tget d (tput t i v) i = v := by
  induction t with
  | nil => simp [tput, tget]
  | cons e t ih =>
    obtain ⟨k, x⟩ := e
    simp only [tput]
    split
    · simp [tget]
    · split
      · simp [tget]
      · rename_i h1 h2
        simp only [tget, if_neg h1, if_neg h2, ih]

omit [DecidableEq α] in
theorem tget_tput_ne (h : j ≠ i) : tget d (tput t i v) j = tget d t j := by
  induction t with
  | nil => simp [tput, tget, h]
  | cons e t ih =>
    obtain ⟨k, x⟩ := e
    simp only [tput]
    split
    · rename_i h1
      subst h1
      simp [tget, h]
    · split
      · simp only [tget]
        split
        · contradiction
        · split
          · rw [if_neg (by omega), if_pos (by omega)]
          · rfl
      · simp only [tget, ih]

theorem tget_terase_ne (w : twfFrom d n t = true) (h : j ≠ i) : tget d (terase t i) j = tget d t j := by
  induction t generalizing n with
  | nil => rfl
  | cons e t ih =>
    obtain ⟨k, x⟩ := e
    simp only [twfFrom, Bool.and_eq_true, decide_eq_true_eq] at w
    simp only [terase]
    split
    · rename_i h1
      subst h1
      simp only [tget, if_neg h]
      split
      · exact tget_below w.2 (by omega)
      · rfl
    · split
      · rfl
      · simp only [tget, ih w.2]

theorem tget_terase_same (w : twfFrom d n t = true) : tget d (terase t i) i = d := by
  induction t generalizing n with
  | nil => rfl
  | cons e t ih =>
    obtain ⟨k, x⟩ := e
    simp only [twfFrom, Bool.and_eq_true, decide_eq_true_eq] at w
    simp only [terase]
    split
    · rename_i h1
      subst h1
      exact tget_below w.2 (by omega)
    · split
      · rename_i h1 h2
        simp only [tget, if_neg h1, if_pos h2]
      · rename_i h1 h2
        simp only [tget, if_neg h1, if_neg h2, ih w.2]

theorem twfFrom_tput (w : twfFrom d n t = true) (hv : v ≠ d) (h : n ≤ i) : twfFrom d n (tput t i v) = true := by
  induction t generalizing n with
  | nil => simp [tput, twfFrom, hv, h]
  | cons e t ih =>
    obtain ⟨k, x⟩ := e
    simp only [twfFrom, Bool.and_eq_true, decide_eq_true_eq] at w
    simp only [tput]
    split
    · rename_i h1
      subst h1
      simp [twfFrom, hv, h, w.2]
    · split
      · simp only [twfFrom, Bool.and_eq_true, decide_eq_true_eq]
        exact ⟨⟨h, hv⟩, ⟨by omega, w.1.2⟩, w.2⟩
      · simp only [twfFrom, Bool.and_eq_true, decide_eq_true_eq]
        exact ⟨w.1, ih w.2 (by omega)⟩

theorem twfFrom_terase (w : twfFrom d n t = true) : twfFrom d n (terase t i) = true := by
  induction t generalizing n with
  | nil => rfl
  | cons e t ih =>
    obtain ⟨k, x⟩ := e
    have w' := w
    simp only [twfFrom, Bool.and_eq_true, decide_eq_true_eq] at w
    simp only [terase]
    split
    · exact twfFrom_mono (by omega) w.2
    · split
      · exact w'
      · simp only [twfFrom, Bool.and_eq_true, decide_eq_true_eq]
        exact ⟨w.1, ih w.2⟩

/-- A store leaves every other entry. -/
theorem tget_tset_ne (w : twf d t = true) (h : j ≠ i) : tget d (tset d t i v) j = tget d t j := by
  unfold tset
  split
  · exact tget_terase_ne w h
  · exact tget_tput_ne h

/-- A store gives its entry the value. -/
theorem tget_tset_same (w : twf d t = true) : tget d (tset d t i v) i = v := by
  unfold tset
  split
  · rename_i h
    rw [tget_terase_same w, h]
  · exact tget_tput_same

/-- A store keeps the canonical form. -/
theorem twf_tset (w : twf d t = true) : twf d (tset d t i v) = true := by
  unfold tset
  split
  · exact twfFrom_terase w
  · rename_i h
    exact twfFrom_tput w h (Nat.zero_le _)

/-- Whatever the table, storing a value that is not the default is read back. -/
theorem tget_tset_of_ne (h : v ≠ d) : tget d (tset d t i v) i = v := by
  unfold tset
  rw [if_neg h]
  exact tget_tput_same

/-! Byte memory. -/

theorem Mem.wf_write {m : Mem} {a : Nat} {b : Byte} (w : Memory.wf m = true) : Memory.wf (m.write a b) = true :=
  twf_tset w

theorem Mem.wf_writeN {m : Mem} {a : Nat} {b : Bytes} (w : Memory.wf m = true) : Memory.wf (m.writeN a b) = true := by
  induction b generalizing m a with
  | nil => exact w
  | cons x xs ih => exact ih (Mem.wf_write w)

/-- A byte outside the written ones reads as before. -/
theorem Mem.read_writeN_outside {m : Mem} {a c : Nat} {b : Bytes} (w : Memory.wf m = true)
    (h : c < a ∨ a + b.length ≤ c) : (m.writeN a b).read c = m.read c := by
  induction b generalizing m a with
  | nil => rfl
  | cons x xs ih =>
    simp only [List.length_cons] at h
    simp only [Mem.writeN]
    rw [ih (Mem.wf_write w) (by omega)]
    exact tget_tset_ne w (by omega)

/-- A written byte reads as what was written. -/
theorem Mem.read_writeN_inside {m : Mem} {a k : Nat} {b : Bytes} (w : Memory.wf m = true) (h : k < b.length) :
    (m.writeN a b).read (a + k) = b.getD k 0 := by
  induction b generalizing m a k with
  | nil => simp at h
  | cons x xs ih =>
    simp only [Mem.writeN]
    cases k with
    | zero =>
      rw [Mem.read_writeN_outside (Mem.wf_write w) (by omega)]
      exact tget_tset_same w
    | succ k =>
      have := ih (m := m.write a x) (a := a + 1) (k := k) (Mem.wf_write w) (by simpa using h)
      rw [show a + (k + 1) = a + 1 + k by omega, this]
      simp

end Sys2Proof.Machine
end

