-- ==== Sys2Proof/Laws/Bytes.lean ====
section
/-!
SUPPORT. Lengths of byte strings, and writes of the device to host memory.
-/

namespace Sys2Proof.Machine

theorem length_leBytes (n v : Nat) : (leBytes n v).length = n := by
  induction n generalizing v with
  | zero => rfl
  | succ n ih => simp [leBytes, ih]

theorem length_slice (b : Bytes) (o n : Nat) : (slice b o n).length = n := by simp [slice]

theorem length_fit (n : Nat) (b : Bytes) : (fit n b).length = n := by simp [fit, length_slice]

theorem length_zeros (n : Nat) : (zeros n).length = n := by simp [zeros]

theorem length_encodeDesc (d : Desc) : (encodeDesc d).length = 64 := by
  simp only [encodeDesc, List.length_append, length_leBytes, length_fit, List.length_cons, List.length_nil]

theorem length_cplBytes (r k n : Nat) (c : Cpl) : (cplBytes r k n c).length = 32 := by
  simp only [cplBytes, List.length_append, length_leBytes, length_fit, List.length_cons, List.length_nil]

/-- A byte outside a write of the device reads as before. -/
theorem read_memWrite_outside {m : Mem} {a c : Nat} {b : Bytes} (w : Memory.wf m = true)
    (h : c < a ∨ a + b.length ≤ c) : (memWrite m a b).read c = m.read c := by
  unfold memWrite
  apply Mem.read_writeN_outside w
  simp only [List.length_take]
  omega

/-- A write of the device keeps the canonical form. -/
theorem wf_memWrite {m : Mem} {a : Nat} {b : Bytes} (w : Memory.wf m = true) : Memory.wf (memWrite m a b) = true :=
  Mem.wf_writeN w

/-- So do any number of the host's stores. -/
theorem wf_stores {m : Mem} (l : List Host.Cell) (w : Memory.wf m = true) :
    Memory.wf (l.foldl (fun m c => memWrite m c.1 [c.2]) m) = true := by
  induction l generalizing m with
  | nil => exact w
  | cons c cs ih => exact ih (wf_memWrite w)

/-- What comes with a command keeps it too. -/
theorem wf_hostStores {s : State} {env : Env} (w : Memory.wf s.hostMem = true) :
    Memory.wf (s.hostStores env).hostMem = true := by
  obtain ⟨a, b, h⟩ := State.cfgWrites_frame env.config s
  unfold State.hostStores
  rw [h]
  exact wf_stores _ w

end Sys2Proof.Machine
end

