-- ==== Sys2Proof/Laws/Decode.lean ====
section
/-!
SUPPORT. The fields of a move and its 64 bits.
-/

namespace Sys2Proof.Machine

/-- The fields packed into a move's word are read back from it. -/
theorem unpack_pack (m : MoveFields) (h : m.op < 256) : unpackMove (packMove m) = some m := by
  obtain ⟨op, d, a, b, c, imm⟩ := m
  have := d.isLt; have := a.isLt; have := b.isLt; have := c.isLt; have hi := imm.isLt
  simp only [] at h
  have hv : (packMove ⟨op, d, a, b, c, imm⟩).toNat = op * 2 ^ 56 + d.val * 2 ^ 52 + a.val * 2 ^ 48 + b.val * 2 ^ 44 +
    c.val * 2 ^ 40 + imm.toNat := by
    unfold packMove
    simp only [BitVec.toNat_ofNat]
    apply Nat.mod_eq_of_lt
    omega
  unfold unpackMove
  simp only [hv]
  rw [if_pos (by omega)]
  congr 1
  congr 1
  · omega
  · apply Fin.ext; simp only []; omega
  · apply Fin.ext; simp only []; omega
  · apply Fin.ext; simp only []; omega
  · apply Fin.ext; simp only []; omega
  · apply BitVec.eq_of_toNat_eq; simp only [BitVec.toNat_ofNat]; omega

end Sys2Proof.Machine
end

