-- ==== Sys2Proof/Laws/Post.lean ====
section
/-!
SUPPORT. What a post does when it is dispatched at once, and on a disabled ring.
-/

namespace Sys2Proof.Machine

theorem Op.decode_code (o : Op) : Op.decode o.code = some o := by cases o <;> rfl

/-- A post takes the device's next number (R98). -/
theorem newWork_seq (s : State) (o : Op) (p : Post) : (s.newWork o p).seq = s.hif.nextSeq := by
  simp [State.newWork, State.polled, State.stored, State.driverPost]

/-- Where clasp 0 accepts the entry, the crown has it (R611). -/
theorem crownTake_journal {s : State} {r seq : Nat} {d : Desc} {got : Got} (h : (s.activeOutput 0).1 = true) :
    (s.crownTake r seq d got).crowns.journal =
      some { ring := r, seq := seq, tag := d.tag, opcode := d.opcode, number := s.crowns.entries + 1 } := by
  simp only [State.crownTake, h, if_true, State.noteEntry, State.setActive]
  split <;> rfl

/-- A post that passes steps 1 to 7 at once is step 8 of its operation, and what follows of itself. -/
theorem post_starts {s : State} {o : Op} {p : Post} {got : Got} (h : s.Starts o p got) :
    s.post o p = ((s.atUnit o p got).startOp p.ring (s.newWork o p).seq o (postDesc o p) got p.env).onward := by
  obtain ⟨ht, hc, hb, hn, hr⟩ := h
  simp only [State.takesNow, Bool.and_eq_true, decide_eq_true_eq] at ht
  obtain ⟨⟨⟨h1, h2⟩, hs⟩, h3⟩ := ht
  simp only [State.seesPost, decide_eq_true_eq] at hs
  have e : s.post o p = ((s.handed o p).launch p.ring (s.newWork o p) (some p.env)).onward := by
    unfold State.post
    simp only [h1, h2, h3, hs, newWork_seq, ne_eq, not_true_eq_false, if_false, if_true, and_self]
    rfl
  rw [e]
  congr 1
  have hd : (s.newWork o p).desc = postDesc o p := rfl
  have hg : (s.newWork o p).got = none := rfl
  have ho : (postDesc o p).opcode = o.code := rfl
  unfold State.launch
  simp only [hd, ho, hg, Op.decode_code, hc, hb, Bool.not_true, Bool.false_eq_true, if_false, Option.isNone_some,
    Bool.false_and, Option.getD_some]
  have hj : (crownRuns o (postDesc o p) && (s.entered o p).crowns.journal.isNone) = false := by
    cases hk : crownRuns o (postDesc o p) with
    | false => rfl
    | true => simp [State.entered, hk, crownTake_journal (hn hk)]
  unfold State.entered at hj
  rw [hj]
  change (s.entered o p).runOp p.ring.val (s.newWork o p).seq o (postDesc o p) p.env = _
  unfold State.runOp
  rw [hr]
  rfl

/-- So, once step 8 of the operation is known in the state in which its unit begins, the post is known. -/
theorem post_step8 {s u t : State} {o : Op} {p : Post} {g : Got} (h : s.Starts o p g) (hu : u = s.atUnit o p g)
    (e : u.startOp p.ring s.hif.nextSeq o (postDesc o p) g p.env = t) :
    Host.Outcome.next (s.post o p) = (.next t.onward : Host.Outcome State Fault Refusal) := by
  rw [post_starts h, ← hu, newWork_seq]
  exact congrArg (fun x : State => Host.Outcome.next x.onward) e

/-- A post on a disabled ring makes the host's own stores and nothing else. -/
theorem post_disabled {s : State} {o : Op} {p : Post} (h : ((s.hostStores p.env).ring p.ring).st = .disabled) :
    s.post o p = s.hostStores p.env := by
  simp [State.post, h]

/-- Every posted command is the post of its operation. -/
theorem exec_post : ∀ x ∈ posts, ∀ (p : Post) (s : State), exec (x.2 p) s = .next (s.post x.1 p) := by
  simp only [posts, cipherOpens, digestNames, signetAsks, List.forall_mem_append, List.forall_mem_cons]
  simp only [List.not_mem_nil, false_imp_iff, implies_true, and_true]
  refine ⟨?_, ?_⟩ <;> (repeat' apply And.intro) <;> (intro p s; rfl)

end Sys2Proof.Machine
end

