-- ==== Sys2Proof/Laws/Records.lean ====
section
/-!
SUPPORT. Fields of byte strings put together, a record copy that reads back as it was written (R696, R697), and what
counting a tie leaves (R698).
-/

namespace Sys2Proof.Machine

theorem byteAt_append_left {a b : Bytes} {i : Nat} (h : i < a.length) : byteAt (a ++ b) i = byteAt a i := by
  simp [byteAt, List.getD_eq_getElem?_getD, List.getElem?_append_left h]

theorem byteAt_append_right {a b : Bytes} {i : Nat} : byteAt (a ++ b) (a.length + i) = byteAt b i := by
  simp only [byteAt, List.getD_eq_getElem?_getD]
  rw [List.getElem?_append_right (by omega)]
  simp

theorem slice_append_left {a b : Bytes} {o n : Nat} (h : o + n ≤ a.length) : slice (a ++ b) o n = slice a o n := by
  unfold slice
  apply List.map_congr_left
  intro k hk
  rw [List.mem_range] at hk
  exact byteAt_append_left (by omega)

theorem slice_append_right {a b : Bytes} {o n : Nat} (h : a.length = o) : slice (a ++ b) o n = slice b 0 n := by
  subst h
  unfold slice
  apply List.map_congr_left
  intro k _
  rw [byteAt_append_right, Nat.zero_add]

theorem slice_full (b : Bytes) : slice b 0 b.length = b := by
  apply List.ext_getElem
  · simp [slice]
  · intro i h1 h2
    simp [slice, byteAt, List.getD_eq_getElem?_getD, List.getElem?_eq_getElem h2]

theorem leNat_leBytes (n v : Nat) : leNat (leBytes n v) = v % 256 ^ n := by
  induction n generalizing v with
  | zero => simp [leBytes, leNat, Nat.mod_one]
  | succ n ih =>
    have e : (BitVec.ofNat 8 v).toNat = v % 256 := by simp
    simp only [leBytes, leNat, ih, e]
    rw [pow_succ', Nat.mod_mul]

/-- The pieces of 256 bytes of a byte string of whole pages. -/
theorem flatten_pages {b : Bytes} {p : Nat} (h : b.length = 256 * p) :
    ((List.range p).map fun k => slice b (256 * k) 256).flatten = b := by
  induction p generalizing b with
  | zero => simpa using (List.eq_nil_of_length_eq_zero (by simpa using h)).symm
  | succ p ih =>
    rw [List.range_succ, List.map_append, List.flatten_append]
    have e : b = b.take (256 * p) ++ b.drop (256 * p) := (List.take_append_drop _ _).symm
    have l1 : (b.take (256 * p)).length = 256 * p := by simp [h]
    have l2 : (b.drop (256 * p)).length = 256 := by simp [h]; omega
    have h1 : ((List.range p).map fun k => slice b (256 * k) 256).flatten = b.take (256 * p) := by
      rw [← ih l1]
      congr 1
      apply List.map_congr_left
      intro k hk
      rw [List.mem_range] at hk
      conv_lhs => rw [e]
      exact slice_append_left (by rw [l1]; omega)
    rw [h1]
    conv_rhs => rw [e]
    congr 1
    simp only [List.map_cons, List.map_nil, List.flatten_cons, List.flatten_nil, List.append_nil]
    conv_lhs => rw [e]
    rw [slice_append_right l1]
    have f := slice_full (b.drop (256 * p))
    rwa [l2] at f

theorem crc32c_lt (m : Bytes) : crc32c m < 2 ^ 32 := by unfold crc32c; exact BitVec.isLt _

/-- The payload of a record copy fills its pages. -/
theorem length_recBytes (name : RecName) (type : Byte) (payload : Bytes) (seq claim : Nat)
    (hp : 0 < recPages name) : (recBytes name type payload seq claim).length = 256 * recPages name := by
  simp only [recBytes, List.length_append, length_leBytes, List.length_cons, List.length_nil, length_fit]
  omega

/-- A copy as written is valid, and holds what was written. -/
theorem recCopy_recBytes (name : RecName) (type : Byte) (payload : Bytes) (seq claim : Nat) (ht : type ≠ 0)
    (hl : payload.length ≤ 256 * recPages name - 16) (hp : 0 < recPages name) (hp' : recPages name < 256)
    (hs : seq < 2 ^ 32) (hc : claim < 2 ^ 16) :
    recCopy (recPages name) (recBytes name type payload seq claim) =
      { type := type.toNat, len := payload.length, seq := seq, claim := claim, payload := payload, valid := true,
        blank := false } := by
  set p := recPages name with hpp
  have hpay : payload.take (256 * p - 16) = payload := List.take_of_length_le hl
  obtain ⟨head, hh⟩ : ∃ h : Bytes, h = [type, 0xA5] ++ leBytes 2 payload.length ++ leBytes 4 seq ++ leBytes 2 claim ++
    leBytes 2 p := ⟨_, rfl⟩
  obtain ⟨body, hb⟩ : ∃ b : Bytes, b = fit (256 * p - 16) payload := ⟨_, rfl⟩
  have e : recBytes name type payload seq claim = head ++ (leBytes 4 (crc32c (head ++ body)) ++ body) := by
    subst hh hb
    simp only [recBytes, hpay, ← hpp, List.append_assoc]
  have lh : head.length = 12 := by simp [hh, length_leBytes]
  have hlen : payload.length < 65536 := by omega
  have f0 : leField head 0 1 = type.toNat := by
    simp [hh, leField, slice, leNat, List.range_succ, byteAt]
  have f2 : leField head 2 2 = payload.length := by
    have : slice head 2 2 = leBytes 2 payload.length := by simp [hh, slice, List.range_succ, byteAt, leBytes]
    rw [leField, this, leNat_leBytes]; omega
  have f4 : leField head 4 4 = seq := by
    have : slice head 4 4 = leBytes 4 seq := by simp [hh, slice, List.range_succ, byteAt, leBytes]
    rw [leField, this, leNat_leBytes]; omega
  have f8 : leField head 8 2 = claim := by
    have : slice head 8 2 = leBytes 2 claim := by simp [hh, slice, List.range_succ, byteAt, leBytes]
    rw [leField, this, leNat_leBytes]; omega
  have f10 : leField head 10 2 = p := by
    have : slice head 10 2 = leBytes 2 p := by simp [hh, slice, List.range_succ, byteAt, leBytes]
    rw [leField, this, leNat_leBytes]; omega
  have b0 : byteAt head 0 = type := by simp [hh, byteAt]
  have b1 : byteAt head 1 = 0xA5 := by simp [hh, byteAt]
  have lift : ∀ {x : Bytes} {o n : Nat}, o + n ≤ 12 → leField (head ++ x) o n = leField head o n := by
    intro x o n h
    simp only [leField]
    rw [slice_append_left (by omega)]
  have crc : leField (head ++ (leBytes 4 (crc32c (head ++ body)) ++ body)) 12 4 = crc32c (head ++ body) := by
    simp only [leField]
    rw [slice_append_right lh, slice_append_left (by simp [length_leBytes])]
    have := slice_full (leBytes 4 (crc32c (head ++ body)))
    rw [length_leBytes] at this
    rw [this, leNat_leBytes]
    exact Nat.mod_eq_of_lt (crc32c_lt _)
  have inp : crcInput (head ++ (leBytes 4 (crc32c (head ++ body)) ++ body)) = head ++ body := by
    simp only [crcInput]
    rw [List.take_left' lh, ← List.append_assoc, List.drop_left' (by simp [lh, length_leBytes])]
  have pay : slice (head ++ (leBytes 4 (crc32c (head ++ body)) ++ body)) 16 payload.length = payload := by
    rw [← List.append_assoc, slice_append_right (by simp [lh, length_leBytes]), hb]
    apply List.ext_getElem
    · simp [slice]
    · intro i h1 h2
      have : i < 256 * p - 16 := by omega
      simp [slice, fit, byteAt, List.getD_eq_getElem?_getD, List.getElem?_range this,
        List.getElem?_eq_getElem h2]
  have bl : allZero (List.take 256 (head ++ (leBytes 4 (crc32c (head ++ body)) ++ body))) = false := by
    rw [hh]
    simp [allZero]
  have at0 : ∀ x : Bytes, byteAt (head ++ x) 0 = type := fun x => by rw [byteAt_append_left (by omega), b0]
  have at1 : ∀ x : Bytes, byteAt (head ++ x) 1 = 0xA5 := fun x => by rw [byteAt_append_left (by omega), b1]
  rw [e]
  unfold recCopy
  simp only [lift (show 0 + 1 ≤ 12 by omega), lift (show 2 + 2 ≤ 12 by omega), lift (show 4 + 4 ≤ 12 by omega),
    lift (show 8 + 2 ≤ 12 by omega), lift (show 10 + 2 ≤ 12 by omega), f0, f2, f4, f8, f10, crc, inp, pay, bl, at0, at1]
  have ht' : ¬ type = 0#8 := ht
  simp [ht', hl]

theorem byteAt_zeros (n i : Nat) : byteAt (zeros n) i = 0 := by
  simp only [byteAt, zeros, List.getD_eq_getElem?_getD, List.getElem?_replicate]
  split <;> rfl

theorem slice_zeros (n o k : Nat) : slice (zeros n) o k = zeros k := by
  simp only [slice, byteAt_zeros]
  simp [zeros]

theorem leNat_zeros (n : Nat) : leNat (zeros n) = 0 := by
  induction n with
  | zero => rfl
  | succ n ih => simpa [zeros, List.replicate_succ, leNat] using ih

/-- A copy of blank pages is blank, and not valid. -/
theorem recCopy_zeros (p n : Nat) : recCopy p (zeros n) =
    { type := 0, len := 0, seq := 0, claim := 0, payload := [], valid := false, blank := true } := by
  have b : allZero (List.take 256 (zeros n)) = true := by simp [allZero, zeros]
  simp only [recCopy, leField, slice_zeros, leNat_zeros, byteAt_zeros, b]
  rfl

/-! Ties counted (R698): the count and the last tie change, the records do not. -/

/-- The counted decision changes the tie fields alone. -/
theorem noteTie_frame (s : State) (name : RecName) : ∃ (n : Nat) (v : Bool) (y : Bool) (r : BitVec 16),
    s.noteTie name = { s with nvm := { s.nvm with tie := n, lastTieValid := v, lastTieSys := y, lastTieRec := r } } := by
  unfold State.noteTie
  split
  · exact ⟨_, _, _, _, rfl⟩
  · exact ⟨s.nvm.tie, s.nvm.lastTieValid, s.nvm.lastTieSys, s.nvm.lastTieRec, rfl⟩

/-- The decisions of one command, counted. -/
theorem noteTies_frame (s : State) (l : List RecName) : ∃ (n : Nat) (v : Bool) (y : Bool) (r : BitVec 16),
    s.noteTies l = { s with nvm := { s.nvm with tie := n, lastTieValid := v, lastTieSys := y, lastTieRec := r } } := by
  unfold State.noteTies
  generalize l.dedup = l
  induction l generalizing s with
  | nil => exact ⟨s.nvm.tie, s.nvm.lastTieValid, s.nvm.lastTieSys, s.nvm.lastTieRec, rfl⟩
  | cons a l ih =>
    obtain ⟨n, v, y, r, h⟩ := noteTie_frame s a
    obtain ⟨n', v', y', r', h'⟩ := ih (s.noteTie a)
    exact ⟨n', v', y', r', by rw [List.foldl_cons, h', h]⟩

/-- Records read the same after decisions are counted. -/
theorem noteTies_record (s : State) (l : List RecName) (m : RecName) :
    (s.noteTies l).nvm.record m = s.nvm.record m := by
  obtain ⟨n, v, y, r, h⟩ := noteTies_frame s l
  rw [h]
  rfl

/-- So does a record with a write of it pending. -/
theorem noteTies_recNow (s : State) (l : List RecName) (m : RecName) : (s.noteTies l).recNow m = s.recNow m := by
  obtain ⟨n, v, y, r, h⟩ := noteTies_frame s l
  rw [h]
  rfl

end Sys2Proof.Machine
end

