-- ==== Sys2Proof/WellFormed.lean ====
section
/-!
DEFINITION. Which commands the world outside can send: operands that the types admit and the hardware's
interfaces do not are ill-formed. The meanings are total; they answer on every command.
-/

namespace Sys2Proof

/-- Page numbers of the keeper NVM (R686). -/
def pagesWf (l : List Nat) : Bool := l.all fun p => decide (p < 32768)

/-- The host's stores lie in its 64-bit address space, and the ranges whose reads fail are ranges of it (R9). -/
def Env.wf (e : Env) : Bool :=
  e.stores.all (fun c => decide (c.1 < 2 ^ 64)) && pagesWf e.weak &&
    e.faults.all fun f => decide (f.lo ≤ f.hi) && decide (f.hi < 2 ^ 64)

/-- A descriptor is 64 bytes, of which 48 are its body (R102). -/
def Post.wf (p : Post) : Bool := p.body.length == 48 && p.env.wf

/-- Widths and rates of the link (R52, R82). -/
def linkWf (width : BitVec 6) (rate : BitVec 4) : Bool :=
  (width == 4 || width == 8 || width == 16) && decide (1 ≤ rate.toNat) && decide (rate.toNat ≤ 6)

/-- Rates of GDDR6 training, and the coding of the first failing bit (R830, R831). -/
def Training.wf (t : Training) : Bool :=
  (t.rate.all fun r => [20, 18, 16, 14, 12].elem r) && decide (t.failDq < 256) && decide (t.failRate < 256)

/-- Lengths of what cards answer (R721, R722, R724, R739, R741): a response of the SD card is of 48 or 136 bits, a data
block of 8, 64 or 512 bytes on one line or on four. -/
def CardResp.wf : CardResp → Bool
  | .sd b => b.length == 6 || b.length == 17
  | .data b crcs => (b.length == 8 || b.length == 64 || b.length == 512) && (crcs.length == 1 || crcs.length == 4)
  | .chars b => !b.isEmpty
  | .silent | .token _ | .parity => true

/-- The failure of an owner is a status that is no success (R29). -/
def TransferOwner.wf : TransferOwner → Bool
  | .desc _ _ st => st != .done
  | .strand _ _ _ | .spdm => true

/-- What an event of a monitor names (R625); only `BUS_INTEGRITY` has an owner (R29). -/
def MonEvent.wf (e : MonEvent) : Bool :=
  decide (e.m.val < 22) && e.owner.all fun t => e.m.val == 14 && t.wf

/-- The environment of a command that carries one. -/
def Instr.env? : Instr → Option Env
  | .engineStart _ e | .engineOpDone _ e _ | .foldPass e | .moveEngineTake e | .snapshotMarker _ _ e
  | .snapshotAckTimeout e | .pollComplete _ e | .fetchComplete _ e | .hostReadComplete _ _ e | .segmentEnd _ _ e _
  | .takeover _ e => some e
  | _ => none

/-- The descriptor of a command that posts one. -/
def Instr.post? : Instr → Option Post
  | .nop p | .fence p | .aesEcb p | .aesCbc p | .aesCtr p | .aesGcm p | .aesXts p | .aesCmac p | .aesKw p
  | .cipherDrop p | .digest p | .digOpen p | .digUpdate p | .digFinal p | .digRead p | .digCompare p
  | .digRelease p | .digFlush p | .hmExtend p | .hmRead p | .hmReset p | .hmLock p | .hmSetup p | .sigSign p
  | .sigVerify p | .randomDraw p | .sigQuote p | .vaultFormat p | .vaultEnroll p | .vaultRevoke p
  | .vaultRekey p | .vaultArm p | .vaultQuery p | .vaultCheckpoint p | .vaultCommit p | .vaultImport p
  | .vaultMoveOpen p | .capture p | .strandSetup p | .strandCollect p | .strandClose p | .appletInvoke p
  | .appletInstall p | .appletRemove p | .appletSigner p | .keyGenerate p | .keyImport p | .keyExport p
  | .keyDestroy p | .keyRelease p | .keyLimit p | .keyLoad p | .keyPublic p | .keyDecapsulate p | .keyScrub p
  | .keyPurge p | .cerBegin p | .cerShare p | .cerFinish p | .cerCancel p | .snapshot p | .sdInfo p
  | .bundleWrite p | .bundleImport p | .ccInfo p | .ccClear p | .lcsTransition p | .lcsCancel p
  | .lcsDebugKey p | .lcsDebugNonce p | .lcsDebugGrant p | .lcsDebugRevoke p | .provIdkey p | .provCert p
  | .provPatch p | .crownSwap p | .crownRejoin p | .nvmRead p | .nvmWrite p | .nvmScan p => some p
  | _ => none

/-- The command is one that the world outside can send. -/
def Instr.wf (i : Instr) : Bool :=
  i.post?.all Post.wf && i.env?.all Env.wf &&
    match i with
    | .monitorEvent l => l.all MonEvent.wf
    | .s2Entry r => pagesWf r.pageFails && decide (r.vid.toNat ≤ 40)
    | .gddr6TrainingDone t => t.wf
    | .cardResponse r => r.wf
    | .recallDone us weak => decide (us < 2 ^ 16) && pagesWf weak
    | .holdupTrip bursts _ => decide (bursts ≤ 8)
    | .facetBistDone _ _ ms => decide (ms < 2 ^ 16)
    | .dlUp width rate _ => linkWf width rate
    | .retrain rate width => linkWf width rate
    | _ => true

end Sys2Proof
end

