-- ==== Sys2Proof/Tests/Slice0.lean ====
section
/-!
SUPPORT. Tests: ill-formed commands, words written out from the spec's encodings, and, for every statement with
hypotheses, a state and operands that meet them (`wit_…`, one for each clause). Expected words come from the spec's
tables of R102, R570 and R577.
-/

namespace Sys2Proof.Tests
open Sys2Proof Sys2Proof.Machine

/-! Small states and descriptors. -/

/-- The bytes `e.2` put at offset `e.1` of a descriptor's body. -/
def put (b : Bytes) (e : Nat × Bytes) : Bytes := b.take (e.1 - 16) ++ e.2 ++ b.drop (e.1 - 16 + e.2.length)

/-- A descriptor's body with some fields. -/
def body (l : List (Nat × Bytes)) : Bytes := l.foldl put (zeros 48)

/-- A plain buffer reference. -/
def buf (a n : Nat) : Bytes := leBytes 8 a ++ leBytes 4 n ++ zeros 4

/-- A post on ring 0. -/
def mk (len : Nat) (l : List (Nat × Bytes)) : Post :=
  { ring := 0, flags := 0, cls := 0, tag := 7, declLen := BitVec.ofNat 64 len, body := body l, env := {} }

/-- A volatile slot with a key of type `t`. -/
def key (t : Byte) (attr : Word32) : KeySlot :=
  { material := zeros 32, type := t, st := .loaded, attr := attr, owner := BitVec.allOnes 32,
    invLimit := 9, blockLimit := 99 }

/-- A device in stage S4 with ring 0 running, facet 0 in service and keys in slots 0 to 2. -/
def live : State :=
  { start := { stage := 4, facets := [(0, .inService)] }, fns := [(0, { db := 0x1000 })],
    rings := [(0, { st := .running, sqBase := 0x2000, cqBase := 0x3000 })], life := { current := .test },
    keys := { slots := [(0, key 2 0xFF), (1, key 0x20 0x1FF), (2, key 0x21 0x1FF)] },
    nvm := { recalling := false, ready := true },
    signet := { drbgs := [(0, { instantiated := true }), (2, { instantiated := true })] } }

/-! Ill-formed commands, one for each check of WellFormed.lean. -/

theorem test_wf_body : (Instr.nop { mk 0 [] with body := [] }).wf = false := by decide
theorem test_wf_store : (Instr.foldPass { stores := [(2 ^ 64, 0)] }).wf = false := by decide
theorem test_wf_fault : (Instr.foldPass { faults := [⟨5, 4, .abort⟩] }).wf = false := by decide
theorem test_wf_monitor : (Instr.monitorEvent [{ m := 22, detail := 0, value := 0 }]).wf = false := by decide
theorem test_wf_pages : (Instr.recallDone 0 [32768]).wf = false := by decide
theorem test_wf_recall : (Instr.recallDone 65536 []).wf = false := by decide
theorem test_wf_card : (Instr.cardResponse (.data [] [])).wf = false := by decide
theorem test_wf_bursts : (Instr.holdupTrip 9 true).wf = false := by decide
theorem test_wf_bist : (Instr.facetBistDone 0 true 65536).wf = false := by decide
theorem test_wf_width : (Instr.dlUp 5 6 false).wf = false := by decide
theorem test_wf_rate : (Instr.retrain 7 4).wf = false := by decide
theorem test_wf_good : (Instr.nop (mk 0 [])).wf = true := by decide

/-! Words written out from the encodings: R570 and R577 for moves, R102 for descriptors. -/

theorem test_move_add : decodeMove 1 0x0123400000000000 = some (.moveAdd 1 2 3 4) := by rfl
theorem test_move_ldi : decodeMove 0 0x1150000012345678 = some (.moveLdi 0 5 0x12345678) := by rfl
theorem test_move_ld : decodeMove 3 0x3067020000000010 = some (.moveLd 3 6 7 2 0x10) := by rfl
theorem test_move_ret : decodeMove 2 0x6001200000000040 = some (.moveRet 2 1 2 0x40) := by rfl
theorem test_move_reserved : decodeMove 0 0x0123410000000000 = none := by rfl
theorem test_desc_opcode : (encodeDesc (postDesc .aesGcm (mk 0 []))).take 4 = [0x03, 0x02, 0, 0] := by decide

/-! The queue, encodings and host memory. -/

theorem wit_StepRunsFront : (({ live with pending := [.hotReset] } : State).pending = Instr.hotReset :: []) ∧
    State.reset.pending = [] := ⟨rfl, rfl⟩
theorem wit_MoveEncoding : moveEngine (.moveAdd 3 15 15 15) = some 3 ∧ moveRaw (.moveAdd 3 15 15 15) = none ∧
    decodeMove 3 0x01FFF00000000000 = some (.moveAdd 3 15 15 15) := ⟨rfl, rfl, rfl⟩
theorem wit_DescriptorRoundTrip : (postDesc .nop (mk 0 [])).body.length = 48 ∧ (zeros 64).length = 64 ∧
    Op.decode 0x0C02 = some .nvmScan := by decide
/-- The last byte of the address space, one below and one beyond the bytes written. -/
theorem wit_HostWriteExact : Memory.wf live.hostMem = true ∧ (1 < [(0 : Byte), 1].length ∧ 2 ^ 64 - 2 + 1 < 2 ^ 64) ∧
    (2 ^ 64 - 3 < 2 ^ 64 - 2) ∧ (5 + [(0 : Byte), 1].length ≤ 7) ∧ (2 ^ 64 ≤ 2 ^ 64 ∧ 2 ^ 64 - 1 ≤ 2 ^ 64) := by decide
theorem wit_PostStores_disabled : ((live.hostStores {}).ring (511 : Fin 512)).st = .disabled := by decide
theorem wit_PostStores_held : (({ live with start := { stage := 2 } } : State).ring 0).st ≠ .disabled ∧
    ({ live with start := { stage := 2 } } : State).fetchesNow 0 = false ∧
    Memory.wf ({ live with start := { stage := 2 } } : State).hostMem = true := by decide
theorem wit_CompletionEntry : Memory.wf live.hostMem = true ∧ live.ring 0 = { st := .running, sqBase := 0x2000, cqBase := 0x3000 } := by
  decide
theorem wit_RingFamilyStarts : live.Starts .nop (mk 0 []) ([], [], []) ∧ live.Starts .fence (mk 0 []) ([], [], []) :=
  ⟨⟨by decide, by decide, by decide, by decide, rfl⟩, ⟨by decide, by decide, by decide, by decide, rfl⟩⟩

/-! Ciphers. -/

/-- An ECB descriptor of one block. -/
def ecb : Post := mk 16 [(16, leBytes 4 (slotHandle 0)), (32, buf 0x8000 16), (48, buf 0x9000 16)]
/-- What its references give. -/
def ecbGot : Got := ([⟨0x8000, 16, none⟩], [⟨0x9000, 16, none⟩], zeros 64)

theorem wit_CipherOpens : live.Starts .aesEcb ecb ecbGot ∧ (postDesc .aesEcb ecb).cont = false ∧
    (postDesc .aesEcb ecb).chain = none ∧ (postDesc .aesEcb ecb).more = false ∧
    slotCheck ((live.atUnit .aesEcb ecb ecbGot).slot 0) (fnOf 0)
      (cipherSuits (postDesc .aesEcb ecb) ((live.atUnit .aesEcb ecb ecbGot).slot 0)) = none ∧
    cipherLimit (postDesc .aesEcb ecb) (zeros 64) = none ∧ heldBytes (postDesc .aesEcb ecb) (zeros 64) = 0 ∧
    (live.atUnit .aesEcb ecb ecbGot).pickFacet 1 0 0 = some 0 :=
  ⟨⟨by decide, by decide, by decide, by decide, rfl⟩, by decide, by decide, by decide, by decide, by decide, by decide, by decide⟩

/-- A chain opens with its first, whole-block part. -/
theorem wit_CipherOpens_chain : live.Starts .aesEcb { ecb with flags := 4 } ecbGot ∧
    (postDesc .aesEcb { ecb with flags := 4 }).more = true ∧
    (postDesc .aesEcb { ecb with flags := 4 }).chain = some 0 ∧
    tget .free ((live.atUnit .aesEcb { ecb with flags := 4 } ecbGot).ring 0).chains 0 = .free ∧
    middleOk (cipherInit (postDesc .aesEcb { ecb with flags := 4 }) (zeros 64)) (extsLen ecbGot.1) = true ∧
    extsLen ecbGot.1 ≤ (postDesc .aesEcb { ecb with flags := 4 }).declLen.toNat ∧
    (live.atUnit .aesEcb { ecb with flags := 4 } ecbGot).pickFacet 17 0 0 = some 0 :=
  ⟨⟨by decide, by decide, by decide, by decide, rfl⟩, by decide, by decide, by decide, by decide, by decide, by decide⟩

/-- Ring 0 with one chain. -/
def chained (c : ChainSt) : State := { live with
  rings := [(0, { st := .running, sqBase := 0x2000, cqBase := 0x3000, chains := [(0, c)] })] }
/-- A descriptor that continues chain 0, and one that drops it. -/
def cont : Post := { mk 0 [(16, leBytes 4 (slotHandle 0)), (32, buf 0x8000 16), (48, buf 0x9000 16)] with flags := 8 }
def drop : Post := { mk 0 [] with flags := 8 }

theorem wit_ChainsContinue_cont : (chained (.opened 0)).Starts .aesEcb cont ecbGot ∧
    (postDesc .aesEcb cont).cont = true ∧
    tget .free (((chained (.opened 0)).atUnit .aesEcb cont ecbGot).ring 0).chains 0 = .opened 0 :=
  ⟨⟨by decide, by decide, by decide, by decide, rfl⟩, by decide, by decide⟩
theorem wit_ChainsContinue_drop : (chained (.opened 0)).Starts .cipherDrop drop ([], [], []) ∧
    tget .free (((chained (.opened 0)).atUnit .cipherDrop drop ([], [], [])).ring 0).chains 0 = .opened 0 :=
  ⟨⟨by decide, by decide, by decide, by decide, rfl⟩, by decide⟩
theorem wit_ChainsContinue_ended : (chained (.ended 32)).Starts .cipherDrop drop ([], [], []) ∧
    tget .free (((chained (.ended 32)).atUnit .cipherDrop drop ([], [], [])).ring 0).chains 0 = .ended 32 :=
  ⟨⟨by decide, by decide, by decide, by decide, rfl⟩, by decide⟩
theorem wit_ChainsContinue_free : live.Starts .cipherDrop drop ([], [], []) ∧
    tget .free ((live.atUnit .cipherDrop drop ([], [], [])).ring 0).chains 0 = .free :=
  ⟨⟨by decide, by decide, by decide, by decide, rfl⟩, by decide⟩

/-- A queue in which a descriptor waits for its reads, and one that follows it. -/
def queuedE (seq : Nat) (bad : Option Bad) : Queued := ⟨1, seq, some 0, none, [], [], [], bad, bad.isNone⟩
def queuedS : State := live.modFacet 0 fun y => { y with queue := [queuedE 4 none, queuedE 5 none] }
theorem wit_ChainsContinue_enqueue :
    (∀ e ∈ (queuedS.facet 0).queue, e.ring = (queuedE 6 none).ring → e.seq ≠ (queuedE 6 none).seq) ∧
    (queuedS.facet 0).queue = [queuedE 4 none] ++ queuedE 5 none :: [] ∧
    (queuedE 5 none).seq = (queuedE 5 (some { status := .dmaFault, step := 6 })).seq ∧
    (∀ e ∈ [queuedE 4 none] ++ [], e.ring = 1 → e.seq ≠ 5) := by decide

/-! Digests and hallmarks. -/

/-- A SHA-384 opening with 16 bytes of input. -/
def digOpenP : Post := mk 16 [(22, [0x02]), (32, buf 0x8000 16)]

theorem wit_DigestOpens : live.Starts .digOpen digOpenP ([⟨0x8000, 16, none⟩], [], []) ∧
    keyCheck (live.atUnit .digOpen digOpenP ([⟨0x8000, 16, none⟩], [], [])) 0 0 = none ∧
    (postDesc .digOpen digOpenP).declLen.toNat ≤ digMax ∧
    extendStatus (live.atUnit .digOpen digOpenP ([⟨0x8000, 16, none⟩], [], [])) 0 (postDesc .digOpen digOpenP) = none ∧
    (live.atUnit .digOpen digOpenP ([⟨0x8000, 16, none⟩], [], [])).pickDig 17 = some 0 :=
  ⟨⟨by decide, by decide, by decide, by decide, rfl⟩, by decide, by decide, by decide, by decide⟩

/-- Context 0 of facet 0, with its holder. -/
def withCtx (h : Option Nat) : State := { live with
  facets := [(0, { digs := [(0, some {
    st := .opened, fn := 0, alg := 2, outLen := 48, key := 0, acc := [], dig := [], invCharged := 0,
    blocksCharged := 0, heldBy := h, oneShot := false })] })] }
def digRel : Post := mk 0 []

theorem wit_DigestContexts_free : (withCtx none).Starts .digRelease digRel ([], [], []) ∧
    (((withCtx none).atUnit .digRelease digRel ([], [], [])).dig 0 0).map (fun c => (c.fn, c.oneShot, c.heldBy)) =
      some (0, false, none) := ⟨⟨by decide, by decide, by decide, by decide, rfl⟩, by decide⟩
theorem wit_DigestContexts_own : (withCtx (some 0)).Starts .digRelease digRel ([], [], []) ∧
    (((withCtx (some 0)).atUnit .digRelease digRel ([], [], [])).dig 0 0).map (fun c => (c.fn, c.oneShot, c.heldBy)) =
      some (0, false, some 0) := ⟨⟨by decide, by decide, by decide, by decide, rfl⟩, by decide⟩
theorem wit_DigestContexts_busy : (withCtx (some 1)).Starts .digRelease digRel ([], [], []) ∧
    (((withCtx (some 1)).atUnit .digRelease digRel ([], [], [])).dig 0 0).map (fun c => (c.fn, c.oneShot, c.heldBy)) =
      some (0, false, some 1) := ⟨⟨by decide, by decide, by decide, by decide, rfl⟩, by decide⟩
theorem wit_DigestContexts_none : live.Starts .digRelease digRel ([], [], []) ∧
    (live.atUnit .digRelease digRel ([], [], [])).dig 0 0 = none := ⟨⟨by decide, by decide, by decide, by decide, rfl⟩, by decide⟩
theorem wit_DigestContexts_compare :
    (withCtx none).Starts .digCompare (mk 4 [(25, [4]), (32, buf 0x8000 4)]) ([⟨0x8000, 4, none⟩], [], zeros 4) ∧
    (((withCtx none).atUnit .digCompare (mk 4 [(25, [4]), (32, buf 0x8000 4)]) ([⟨0x8000, 4, none⟩], [], zeros 4)).dig
      0 0).map (fun c => (c.fn, c.oneShot, c.heldBy)) = some (0, false, none) :=
  ⟨⟨by decide, by decide, by decide, by decide, rfl⟩, by decide⟩
theorem wit_DigestContexts_flush : (withCtx none).Starts .digFlush digRel ([], [], []) :=
  ⟨by decide, by decide, by decide, by decide, rfl⟩

/-- An extend of register 55, the last that a digest may extend. -/
def ext55 : Post := mk 48 [(24, [55]), (32, buf 0x8000 48)]
theorem wit_HallmarkExtends : live.Starts .hmExtend ext55 ([⟨0x8000, 48, none⟩], [], zeros 48) ∧
    (postDesc .hmExtend ext55).hm < 56 ∧
    (live.atUnit .hmExtend ext55 ([⟨0x8000, 48, none⟩], [], zeros 48)).extendCheck 55 0 false = none :=
  ⟨⟨by decide, by decide, by decide, by decide, rfl⟩, by decide, by decide⟩
/-- An extend numbered `n` of register `h` from source `rank`. -/
def extN (h n rank : Nat) : ExtendReq := ⟨h, zeros 48, n, rank, 0, .desc 0 0⟩
/-- A reset of register 54 that waits for the mark numbered 1, with the extends `l` pending. -/
def holdS (l : List ExtendReq) : State := { live with
  extends_ := l
  crowns := { live.crowns with journal := some { ring := 0, seq := 5, tag := 7, opcode := 0, number := 1, wait := .hold, hold := [⟨54, 99, 1⟩] } } }
theorem wit_HallmarkExtends_applied : (holdS [extN 54 2 1, extN 55 3 0]).nextExtend [] [extN 54 2 1, extN 55 3 0] =
    some (extN 55 3 0) := by decide
theorem wit_HallmarkExtends_order : (holdS []).extendWaits (extN 54 2 1) = true ∧
    (holdS []).extendWaits (extN 55 3 0) = false ∧ (holdS []).heldMark 1 = true ∧ (holdS []).heldMark 2 = false ∧
    (extN 55 4 1).rank = (extN 54 2 1).rank ∧ (holdS []).extendWaits (extN 54 1 1) = false := by decide

theorem wit_HallmarkCrownWork_read : live.Starts .hmRead (mk 0 [(24, [63]), (48, buf 0x9000 48)])
      ([], [⟨0x9000, 48, none⟩], []) ∧
    hmPermit (live.atUnit .hmRead (mk 0 [(24, [63]), (48, buf 0x9000 48)]) ([], [⟨0x9000, 48, none⟩], [])) 0
      (postDesc .hmRead (mk 0 [(24, [63]), (48, buf 0x9000 48)])) = true :=
  ⟨⟨by decide, by decide, by decide, by decide, rfl⟩, by decide⟩
theorem wit_HallmarkCrownWork_reset : live.Starts .hmReset (mk 0 [(24, [55])]) ([], [], []) ∧
    hmPermit (live.atUnit .hmReset (mk 0 [(24, [55])]) ([], [], [])) 0 (postDesc .hmReset (mk 0 [(24, [55])])) = true ∧
    hmBars (live.atUnit .hmReset (mk 0 [(24, [55])]) ([], [], [])) (postDesc .hmReset (mk 0 [(24, [55])])) = none ∧
    (∃ j, (live.atUnit .hmReset (mk 0 [(24, [55])]) ([], [], [])).crownDesc =
      some (j, postDesc .hmReset (mk 0 [(24, [55])]), ([], [], []))) ∧
    (live.atUnit .hmReset (mk 0 [(24, [55])]) ([], [], [])).marks = [] :=
  ⟨⟨by decide, by decide, by decide, by decide, rfl⟩, by decide, by decide, ⟨_, rfl⟩, by decide⟩
/-- `live` with an effect on register 55 pending, of descriptor 0 of ring 1. -/
def marked : State := { live with marks := [⟨55, 99, 1⟩] }
theorem wit_HallmarkCrownWork_pending : marked.Starts .hmLock (mk 0 [(24, [55])]) ([], [], []) ∧
    hmPermit (marked.atUnit .hmLock (mk 0 [(24, [55])]) ([], [], [])) 0 (postDesc .hmLock (mk 0 [(24, [55])])) = true ∧
    hmBars (marked.atUnit .hmLock (mk 0 [(24, [55])]) ([], [], [])) (postDesc .hmLock (mk 0 [(24, [55])])) = none ∧
    (∃ j, (marked.atUnit .hmLock (mk 0 [(24, [55])]) ([], [], [])).crownDesc =
      some (j, postDesc .hmLock (mk 0 [(24, [55])]), ([], [], []))) ∧
    ∃ m ∈ (marked.atUnit .hmLock (mk 0 [(24, [55])]) ([], [], [])).marks, m.hm = 55 :=
  ⟨⟨by decide, by decide, by decide, by decide, rfl⟩, by decide, by decide, ⟨_, rfl⟩, ⟨55, 99, 1⟩, by decide, rfl⟩
theorem wit_HallmarkCrownWork_setup : live.Starts .hmSetup (mk 0 [(24, [63]), (28, [1])]) ([], [], []) ∧
    hmPermit (live.atUnit .hmSetup (mk 0 [(24, [63]), (28, [1])]) ([], [], [])) 0
      (postDesc .hmSetup (mk 0 [(24, [63]), (28, [1])])) = true ∧
    hmBars (live.atUnit .hmSetup (mk 0 [(24, [63]), (28, [1])]) ([], [], []))
      (postDesc .hmSetup (mk 0 [(24, [63]), (28, [1])])) = none ∧
    ∃ j, (live.atUnit .hmSetup (mk 0 [(24, [63]), (28, [1])]) ([], [], [])).crownDesc =
      some (j, postDesc .hmSetup (mk 0 [(24, [63]), (28, [1])]), ([], [], [])) :=
  ⟨⟨by decide, by decide, by decide, by decide, rfl⟩, by decide, by decide, _, rfl⟩
/-- An extend of a register kept in a record. -/
def ext56 : Post := mk 48 [(24, [56]), (32, buf 0x8000 48)]
theorem wit_HallmarkCrownWork_extend : live.Starts .hmExtend ext56 ([⟨0x8000, 48, none⟩], [], zeros 48) ∧
    56 ≤ (postDesc .hmExtend ext56).hm ∧
    (live.atUnit .hmExtend ext56 ([⟨0x8000, 48, none⟩], [], zeros 48)).extendCheck 56 0 true = none :=
  ⟨⟨by decide, by decide, by decide, by decide, rfl⟩, by decide, by decide⟩
/-- `live` with the reset of register 55 in the crown's hands. -/
def resetting : State := live.atUnit .hmReset (mk 0 [(24, [55])]) ([], [], [])
/-- Clasps that take no output of crown A. -/
def barred (s : State) : State := { s with crowns := { s.crowns with clasps := List.replicate 4 { claimHi := 2 } } }
theorem wit_CrownCommits : ∃ j d got v, resetting.crownDesc = some (j, d, got) ∧
    resetting.crowns.journal = some j ∧ resetting.activeOutput 0 = (true, v) ∧
    v.cutWaits { j with state := .committed, recs := [] } = false := ⟨_, _, _, _, rfl, rfl, rfl, by decide⟩
theorem wit_CrownCommits_barred : ∃ v, (barred resetting).activeOutput 0 = (false, v) := ⟨_, rfl⟩
theorem wit_CrownCommits_output : live.crowns.activeB = false ∧ (live.crown false).claim = (live.clasp 2).claimHi ∧
    (live.crown false).claim < ((barred live).clasp 2).claimHi := by decide

/-! Signet and lattice. -/

def signP : Post := mk 5 [(16, leBytes 4 (slotHandle 1)), (20, [0x20]), (32, buf 0x8000 5), (48, buf 0x9000 3309)]
def quoteP : Post := mk 32 [(16, leBytes 4 (slotHandle 1)), (20, [0x20]), (24, [1]), (32, buf 0x8000 32),
  (48, buf 0x9000 8192)]
def verifyP : Post := mk 96 [(20, [3]), (32, buf 0x8000 96)]

theorem wit_SignetPosts_sign : live.Starts .sigSign signP ([⟨0x8000, 5, none⟩], [⟨0x9000, 3309, none⟩], []) ∧
    (postDesc .sigSign signP).declLen.toNat - sigFixed (postDesc .sigSign signP) ≤ 65536 ∧
    signCheck (live.atUnit .sigSign signP ([⟨0x8000, 5, none⟩], [⟨0x9000, 3309, none⟩], [])) 0
      (postDesc .sigSign signP) = none ∧
    (live.atUnit .sigSign signP ([⟨0x8000, 5, none⟩], [⟨0x9000, 3309, none⟩], [])).kindServes true = true :=
  ⟨⟨by decide, by decide, by decide, by decide, rfl⟩, by decide, by decide, by decide⟩
theorem wit_SignetPosts_quote : live.Starts .sigQuote quoteP ([⟨0x8000, 32, none⟩], [⟨0x9000, 8192, none⟩], []) ∧
    signCheck (live.atUnit .sigQuote quoteP ([⟨0x8000, 32, none⟩], [⟨0x9000, 8192, none⟩], [])) 0
      (postDesc .sigQuote quoteP) = none ∧
    (∀ h, h < 64 → bitOf ((postDesc .sigQuote quoteP).fld 24 8) h = true →
      (live.atUnit .sigQuote quoteP ([⟨0x8000, 32, none⟩], [⟨0x9000, 8192, none⟩], [])).hmReadable h 0 = true) :=
  ⟨⟨by decide, by decide, by decide, by decide, rfl⟩, by decide, by decide⟩
theorem wit_SignetPosts_verify : live.Starts .sigVerify verifyP ([⟨0x8000, 96, none⟩], [], []) ∧
    (live.atUnit .sigVerify verifyP ([⟨0x8000, 96, none⟩], [], [])).kindServes false = true :=
  ⟨⟨by decide, by decide, by decide, by decide, rfl⟩, by decide⟩

def randomP : Post := mk 0 [(24, leBytes 4 1), (48, buf 0x9000 1)]
def randomGot : Got := ([], [⟨0x9000, 1, none⟩], [])
/-- `live` with instance 2 as given and `pool` blocks. -/
def drbg2 (d : Drbg) (pool : List Bytes) : State := { live with signet := { drbgs := [(2, d)], pool := pool } }

theorem wit_SignetPosts_random : live.Starts .random randomP randomGot ∧
    ∃ b re v, ((live.atUnit .random randomP randomGot).keepGot 0 0 randomGot).draw 2 1 false = .ok b re v :=
  ⟨⟨by decide, by decide, by decide, by decide, rfl⟩, _, _, _, rfl⟩
theorem wit_SignetPosts_wait : (drbg2 {} []).Starts .random randomP randomGot ∧
    (((drbg2 {} []).atUnit .random randomP randomGot).keepGot 0 0 randomGot).draw 2 1 false = .wait :=
  ⟨⟨by decide, by decide, by decide, by decide, rfl⟩, rfl⟩
theorem wit_SignetPosts_fail :
    (drbg2 { instantiated := true, requests := 2 ^ 21 } []).Starts .random randomP randomGot ∧
    ∃ v, (((drbg2 { instantiated := true, requests := 2 ^ 21 } []).atUnit .random randomP randomGot).keepGot 0 0
      randomGot).draw 2 1 false = .fail v :=
  ⟨⟨by decide, by decide, by decide, by decide, rfl⟩, _, rfl⟩

/-! The endpoint vault. -/

/-- Endpoint 0xFFFFF, the last, enrolled. -/
def lastEntry : VEntry := { st := .enrolled, key := zeros 32, prevKey := zeros 32 }
/-- An active vault with that entry, and `e` as its pip entry. -/
def vaulted (st : VaultState) (e : PipEntry) : State := { live with
  keys := { slots := live.keys.slots, custody := .ready, domainKey := some (zeros 32) }
  vault := { st := st, record := { vstate := 1, openEpoch := 1 }, entries := [(0xFFFFF, lastEntry)], pip := [(0xFFFFF, e)],
             cached := [0xFFFFF], vek := some (zeros 32), vmk := some (zeros 32) }
  hostMem := memWrite [] 0x8000 [1] }
def act : State := vaulted .active { known := true }

def enrollP : Post := mk 112 [(28, leBytes 4 (slotHandle 0)), (32, buf 0x8000 112)]
def lastP (l : List (Nat × Bytes)) : Post := mk 0 ((16, leBytes 4 0xFFFFF) :: l)
def rekeyP : Post := mk 48 [(16, leBytes 4 0xFFFFF), (28, leBytes 4 (slotHandle 0)), (32, buf 0x8000 48)]
def queryP : Post := lastP [(48, buf 0x9000 64)]
def armP : Post := lastP [(20, leBytes 4 1)]

theorem wit_VaultEntryWork_enroll : act.Starts .vaultEnroll enrollP ([⟨0x8000, 112, none⟩], [], []) ∧
    vaultRefuse (act.atUnit .vaultEnroll enrollP ([⟨0x8000, 112, none⟩], [], [])) (postDesc .vaultEnroll enrollP) = none ∧
    (act.atUnit .vaultEnroll enrollP ([⟨0x8000, 112, none⟩], [], [])).readAll {} [⟨0x8000, 112, none⟩] =
      .ok (1 :: zeros 111) ∧ leField (1 :: zeros 111) 0 8 = 1 ∧
    ((act.atUnit .vaultEnroll enrollP ([⟨0x8000, 112, none⟩], [], [])).ventry 0).st = .empty ∧
    (∃ w, (act.atUnit .vaultEnroll enrollP ([⟨0x8000, 112, none⟩], [], [])).readEntry 0 = (w, true)) ∧
    ∃ w, ({ act with vault := { act.vault with entries := [(0, { version := 1 })], flaws := [.entry 0] } } :
      State).readEntry 0 = (w, false) :=
  ⟨⟨by decide, by decide, by decide, by decide, rfl⟩, by decide, rfl, by decide, by decide, ⟨_, rfl⟩, _, rfl⟩
/-- A vault of which endpoint 9 has failed and node 2 of the lowest level cannot be read. -/
def flawed : State := { act with vault := { act.vault with
  entries := [(9, { lastEntry with failed := true }), (17, { lastEntry with version := 1 }), (0xFFFFF, lastEntry)]
  flaws := [.node 2] } }
theorem wit_VaultEntryWork_reads :
    (flawed.ventry 9).failed = true ∧
    ((flawed.ventry 17).failed = false ∧ flawed.vault.cached.elem 17 = false ∧ (flawed.ventry 17).version ≠ 0 ∧
      flawed.vault.nodeLost (17 / 8) = true) ∧
    ((act.ventry 0).version = 0 ∧ act.vault.cached.elem 0 = false) ∧
    (act.vault.cached.elem 0xFFFFF = true ∧ (act.ventry 0xFFFFF).st ≠ .empty) ∧
    (∀ f ∈ [true, false], ∀ x : State, x = { act with vault := { act.vault with
        entries := [(17, { lastEntry with version := 1 })], cached := [], flaws := if f then [.entry 17] else [] } } →
      x.vault.nodeLost (17 / 8) = false ∧ x.vault.flaws.elem (.entry 17) = f) := by
  refine ⟨by decide, by decide, by decide, by decide, ?_⟩
  rintro f hf x rfl
  simp only [List.mem_cons, List.not_mem_nil, or_false] at hf
  rcases hf with rfl | rfl <;> decide
theorem wit_VaultEntryWork_revoke : act.Starts .vaultRevoke (lastP []) ([], [], []) ∧
    vaultRefuse (act.atUnit .vaultRevoke (lastP []) ([], [], [])) (postDesc .vaultRevoke (lastP [])) = none ∧
    (∃ w, knownEntry (act.atUnit .vaultRevoke (lastP []) ([], [], [])) 0xFFFFF = (w, .ok lastEntry)) ∧
    ∃ w, knownEntry (act.atUnit .vaultRevoke (lastP []) ([], [], [])) 0 = (w, .error .endpointUnknown) :=
  ⟨⟨by decide, by decide, by decide, by decide, rfl⟩, by decide, ⟨_, rfl⟩, _, rfl⟩
theorem wit_VaultEntryWork_rekey : act.Starts .vaultRekey rekeyP ([⟨0x8000, 48, none⟩], [], []) ∧
    vaultRefuse (act.atUnit .vaultRekey rekeyP ([⟨0x8000, 48, none⟩], [], [])) (postDesc .vaultRekey rekeyP) = none ∧
    (act.atUnit .vaultRekey rekeyP ([⟨0x8000, 48, none⟩], [], [])).readAll {} [⟨0x8000, 48, none⟩] =
      .ok (1 :: zeros 47) ∧
    ∃ w, knownEntry (act.atUnit .vaultRekey rekeyP ([⟨0x8000, 48, none⟩], [], [])) 0xFFFFF = (w, .ok lastEntry) ∧
      (w.pipe 0xFFFFF).hwm.toNat < leField (1 :: zeros 47) 0 8 :=
  ⟨⟨by decide, by decide, by decide, by decide, rfl⟩, by decide, rfl, _, rfl, by decide⟩
theorem wit_VaultEntryWork_query : act.Starts .vaultQuery queryP ([], [⟨0x9000, 64, none⟩], []) ∧
    vaultRefuse (act.atUnit .vaultQuery queryP ([], [⟨0x9000, 64, none⟩], [])) (postDesc .vaultQuery queryP) = none ∧
    ∃ w, knownEntry (act.atUnit .vaultQuery queryP ([], [⟨0x9000, 64, none⟩], [])) 0xFFFFF = (w, .ok lastEntry) :=
  ⟨⟨by decide, by decide, by decide, by decide, rfl⟩, by decide, _, rfl⟩
theorem wit_VaultEntryWork_arm : act.Starts .vaultArm armP ([], [], []) ∧
    vaultRefuse (act.atUnit .vaultArm armP ([], [], [])) (postDesc .vaultArm armP) = none ∧
    (postDesc .vaultArm armP).fld 20 4 = 1 ∧
    ((act.atUnit .vaultArm armP ([], [], [])).keepGot 0 0 ([], [], [])).mayArm 0xFFFFF = true ∧
    (((act.atUnit .vaultArm armP ([], [], [])).keepGot 0 0 ([], [], [])).pipe 0xFFFFF).armedIn 1 = false :=
  ⟨⟨by decide, by decide, by decide, by decide, rfl⟩, by decide, by decide, by decide, by decide⟩
/-- The armed entry's fold waits; its stored form verifies, or has failed. -/
def foldWaits (failed : Bool) : State := { act with vault := { act.vault with
  fold := [0xFFFFF], entries := [(0xFFFFF, { lastEntry with failed := failed })] } }
theorem wit_VaultEntryWork_fold : (∃ x, (foldWaits false).tryFold 0xFFFFF = (x, true)) ∧
    (∃ x, (foldWaits true).tryFold 0xFFFFF = (x, false)) ∧ 0xFFFFF ∈ (foldWaits true).vault.fold ∧
    (∃ x, act.tryArm 0xFFFFF none = (x, true)) ∧ ∃ x, (foldWaits true).tryArm 0xFFFFF none = (x, false) :=
  ⟨⟨_, rfl⟩, ⟨_, rfl⟩, by decide, ⟨_, rfl⟩, _, rfl⟩
theorem wit_VaultEntryWork_armed :
    (vaulted .active { known := true, armed := true, parity := true }).Starts .vaultArm armP ([], [], []) ∧
    (((vaulted .active { known := true, armed := true, parity := true }).atUnit .vaultArm armP ([], [], [])).keepGot 0 0
      ([], [], [])).mayArm 0xFFFFF = true ∧
    ((((vaulted .active { known := true, armed := true, parity := true }).atUnit .vaultArm armP ([], [], [])).keepGot 0 0
      ([], [], [])).pipe 0xFFFFF).armedIn 1 = true :=
  ⟨⟨by decide, by decide, by decide, by decide, rfl⟩, by decide, by decide⟩

def formatP : Post := mk 0 [(26, [12])]
def ckpP (l : List (Nat × Bytes)) : Post := mk 0 ((48, buf 0x9000 2000000) :: l)
def ckpGot : Got := ([], [⟨0x9000, 2000000, none⟩], [])
/-- A vault of no entries without an image. -/
def noVault (st : VaultState) (r : VRecord) : State := { act with vault := { st := st, record := r } }

theorem wit_VaultCrownWork_format : (noVault .none {}).Starts .vaultFormat formatP ([], [], []) ∧
    vaultRefuse ((noVault .none {}).atUnit .vaultFormat formatP ([], [], [])) (postDesc .vaultFormat formatP) = none ∧
    ((noVault .none {}).atUnit .vaultFormat formatP ([], [], [])).vault.recordWritten = false ∧
    ((noVault .none {}).atUnit .vaultFormat formatP ([], [], [])).setHolds 1 = false :=
  ⟨⟨by decide, by decide, by decide, by decide, rfl⟩, by decide, rfl, by decide +kernel⟩
theorem wit_VaultCrownWork_cut : act.Starts .vaultCheckpoint (ckpP []) ckpGot ∧
    vaultRefuse (act.atUnit .vaultCheckpoint (ckpP []) ckpGot) (postDesc .vaultCheckpoint (ckpP [])) = none ∧
    (act.atUnit .vaultCheckpoint (ckpP []) ckpGot).readAll {} [] = .ok [] ∧
    (postDesc .vaultCheckpoint (ckpP [])).vctl 5 = false ∧ act.vault.record.pending = none ∧
    208 + 72 * (act.vault.changed.length + 16384) ≤ extsLen ckpGot.2.1 :=
  ⟨⟨by decide, by decide, by decide, by decide, rfl⟩, by decide, rfl, by decide, rfl, by decide⟩
theorem wit_VaultCrownWork_export :
    (noVault .active { vstate := 1, openEpoch := 2, pending := some 1 }).Starts .vaultCheckpoint
      (ckpP [(24, [0x20])]) ckpGot ∧ (postDesc .vaultCheckpoint (ckpP [(24, [0x20])])).vctl 5 = true :=
  ⟨⟨by decide, by decide, by decide, by decide, rfl⟩, by decide⟩
/-- An export of pending epoch 1. -/
def exported : State := { act with
  vault := { act.vault with record := { vstate := 1, openEpoch := 2, pending := some 1 }, lastExport := some ⟨1, [], false⟩ } }
theorem wit_VaultCrownWork_commit : exported.Starts .vaultCommit (mk 0 [(16, [1])]) ([], [], []) ∧
    vaultRefuse (exported.atUnit .vaultCommit (mk 0 [(16, [1])]) ([], [], []))
      (postDesc .vaultCommit (mk 0 [(16, [1])])) = none ∧
    (exported.atUnit .vaultCommit (mk 0 [(16, [1])]) ([], [], [])).vault.lastExport = some ⟨1, [], false⟩ ∧
    (postDesc .vaultCommit (mk 0 [(16, [1])])).endpoint = 1 :=
  ⟨⟨by decide, by decide, by decide, by decide, rfl⟩, by decide, rfl, by decide⟩
/-- The header of an image of no lines. -/
def imageMem : Mem := memWrite [] 0x8000 (leBytes 4 0x4B575649 ++ [1, 1])
def importP : Post := mk 208 [(32, buf 0x8000 208)]
def importS : State := { noVault .none { vstate := 1, openEpoch := 1 } with hostMem := imageMem }
theorem wit_VaultCrownWork_import : importS.Starts .vaultImport importP ([⟨0x8000, 208, none⟩], [], []) ∧
    vaultRefuse (importS.atUnit .vaultImport importP ([⟨0x8000, 208, none⟩], [], [])) (postDesc .vaultImport importP) =
      none ∧ (importS.atUnit .vaultImport importP ([⟨0x8000, 208, none⟩], [], [])).vault.recordTorn = false ∧
    (importS.atUnit .vaultImport importP ([⟨0x8000, 208, none⟩], [], [])).gather {} [⟨0x8000, 208, none⟩] 0 0 128 =
      .ok (leBytes 4 0x4B575649 ++ [1, 1] ++ zeros 122) ∧
    importHeader (importS.atUnit .vaultImport importP ([⟨0x8000, 208, none⟩], [], [])) (postDesc .vaultImport importP)
      (leBytes 4 0x4B575649 ++ [1, 1] ++ zeros 122) = none :=
  ⟨⟨by decide, by decide, by decide, by decide, rfl⟩, by decide, rfl, rfl, by decide⟩
theorem wit_VaultCrownWork_leaps (e : Nat) :
    leapOf (importS.atUnit .vaultImport importP ([⟨0x8000, 208, none⟩], [], [])) e = 0 := by
  have h : (importS.atUnit .vaultImport importP ([⟨0x8000, 208, none⟩], [], [])).vault.record =
    { vstate := 1, openEpoch := 1 } := rfl
  simp [leapOf, h]
theorem wit_VaultCrownWork_move : (noVault .none {}).Starts .vaultMoveOpen (mk 0 []) ([], [], []) ∧
    vaultRefuse ((noVault .none {}).atUnit .vaultMoveOpen (mk 0 []) ([], [], [])) (postDesc .vaultMoveOpen (mk 0 [])) =
      none ∧ ∃ b re v, ((noVault .none {}).atUnit .vaultMoveOpen (mk 0 []) ([], [], [])).draw 0 8 false = .ok b re v :=
  ⟨⟨by decide, by decide, by decide, by decide, rfl⟩, by decide, _, _, _, rfl⟩

/-! Captures and strands. -/

/-- Stream 0 signed by slot 1, an archive key in slot 3, and a record of one 16-byte section in host memory. -/
def capS : State := { live with
  keys := { slots := live.keys.slots ++ [(3, { key 4 0x400 with material := zeros 32 ++ [1] ++ zeros 31 })] }
  streams := [(0, { sigs := 2, countLimit := 1, timeLimit := 1, mlKey := BitVec.ofNat 32 (slotHandle 1), owner := 1 })]
  hostMem := memWrite (memWrite [] 0x8000 (leBytes 4 0x524A504E ++ [1, 1] ++ zeros 26 ++ [16])) 0xA000
    (zeros 16 ++ [9]) }
def capP : Post := mk 96 [(16, leBytes 4 (slotHandle 3)), (24, leBytes 8 0xA000), (32, buf 0x8000 96), (48, buf 0x9000 16)]
def capGot : Got := ([⟨0x8000, 96, none⟩], [⟨0x9000, 16, none⟩], zeros 16 ++ [9] ++ zeros 47)

theorem wit_CaptureAndStrandPosts_capture : capS.Starts .capture capP capGot ∧
    ((capS.atUnit .capture capP capGot).stream (postDesc .capture capP).stream).setup = none ∧
    capRefuse (capS.atUnit .capture capP capGot) 0 (postDesc .capture capP) = none ∧
    (∃ v, (capS.atUnit .capture capP capGot).reservePlace (postDesc .capture capP).stream = some v) ∧
    (capS.atUnit .capture capP capGot).pickFacet 1 (capB (postDesc .capture capP)) 512 = some 0 ∧
    (capS.atUnit .capture capP capGot).gather {} capGot.1 0 0 64 =
      .ok (leBytes 4 0x524A504E ++ [1, 1] ++ zeros 26 ++ [16] ++ zeros 31) ∧
    headerOk (postDesc .capture capP) (leBytes 4 0x524A504E ++ [1, 1] ++ zeros 26 ++ [16] ++ zeros 31) = true ∧
    (capInit (postDesc .capture capP) (leBytes 4 0x524A504E ++ [1, 1] ++ zeros 26 ++ [16] ++ zeros 31)
      capGot.2.2).startSector + unitCount (capB (postDesc .capture capP)) 512 ≤ 2 ^ 128 :=
  ⟨⟨by decide, by decide, by decide, by decide, rfl⟩, by decide, by decide, ⟨_, rfl⟩, by decide, rfl, by decide, by decide⟩

def setupP : Post := mk 0 [(17, [2]), (18, [1]), (20, [1]), (28, leBytes 4 (slotHandle 1))]
theorem wit_CaptureAndStrandPosts_setup : live.Starts .strandSetup setupP ([], [], []) ∧
    ((live.atUnit .strandSetup setupP ([], [], [])).stream 0).setup = none ∧
    bitOf ((postDesc .strandSetup setupP).fld 17 1) 0 = false ∧
    strandSlot (live.atUnit .strandSetup setupP ([], [], [])) ((postDesc .strandSetup setupP).fld 28 4) 0x20 = none :=
  ⟨⟨by decide, by decide, by decide, by decide, rfl⟩, by decide, by decide, by decide⟩
def collectP : Post := mk 0 [(48, buf 0x9000 4096)]
theorem wit_CaptureAndStrandPosts_collect : capS.Starts .strandCollect collectP ([], [⟨0x9000, 4096, none⟩], []) ∧
    ((capS.atUnit .strandCollect collectP ([], [⟨0x9000, 4096, none⟩], [])).stream 0).owner.getLsbD 0 = true ∧
    ((capS.atUnit .strandCollect collectP ([], [⟨0x9000, 4096, none⟩], [])).stream 0).recordLen ≤ 4096 ∧
    ((capS.atUnit .strandCollect collectP ([], [⟨0x9000, 4096, none⟩], [])).stream 0).collects.length < 64 :=
  ⟨⟨by decide, by decide, by decide, by decide, rfl⟩, by decide, by decide, by decide⟩
/-- The open strand 1 of stream 0, whose close waits as `due` says. -/
def strand1 (due : Nat) (retry : List Nat) : Strand :=
  { stream := 0, id := 1, pearls := [], st := .opened, cause := 0, openTime := 0, closeTime := 0, header := [],
    ecSig := [], mlSig := [], refused := false, closeDue := due, retry := retry, ecKey := 0, mlKey := 0 }
def stranded : State := { capS with strands := [strand1 0 [1]] }
theorem wit_CaptureAndStrandPosts_close : stranded.Starts .strandClose (mk 0 [(20, [1])]) ([], [], []) ∧
    (stranded.atUnit .strandClose (mk 0 [(20, [1])]) ([], [], [])).openStrand 0 = some (strand1 0 [1]) ∧
    (postDesc .strandClose (mk 0 [(20, [1])])).fld 20 4 = (strand1 0 [1]).id.toNat :=
  ⟨⟨by decide, by decide, by decide, by decide, rfl⟩, rfl, by decide⟩
/-- Stream 0 once strand 1 has been opened and closed. -/
def wasOpen : State := { live with streams := [(0, { counter := 1 })] }
theorem wit_CaptureAndStrandPosts_closed : wasOpen.Starts .strandClose (mk 0 [(20, [1])]) ([], [], []) ∧
    (wasOpen.atUnit .strandClose (mk 0 [(20, [1])]) ([], [], [])).openStrand 0 = none ∧
    (postDesc .strandClose (mk 0 [(20, [1])])).fld 20 4 ≤
      ((wasOpen.atUnit .strandClose (mk 0 [(20, [1])]) ([], [], [])).stream 0).counter.toNat ∧
    ((live.atUnit .strandClose (mk 0 [(20, [1])]) ([], [], [])).stream 0).counter.toNat <
      (postDesc .strandClose (mk 0 [(20, [1])])).fld 20 4 :=
  ⟨⟨by decide, by decide, by decide, by decide, rfl⟩, rfl, by decide, by decide⟩
theorem wit_CaptureAndStrandPosts_none : live.Starts .strandClose (mk 0 []) ([], [], []) ∧
    (live.atUnit .strandClose (mk 0 []) ([], [], [])).openStrand 0 = none ∧
    live.Starts .strandClose (mk 0 [(20, [1])]) ([], [], []) ∧
    (live.atUnit .strandClose (mk 0 [(20, [1])]) ([], [], [])).openStrand 0 = none :=
  ⟨⟨by decide, by decide, by decide, by decide, rfl⟩, rfl, ⟨by decide, by decide, by decide, by decide, rfl⟩, rfl⟩

/-! Applets. -/

/-- Slot 31, the last, holds an applet of kind `APPLET_INVOKE`, `moves` its moves. -/
def withApp (moves : List (BitVec 64)) : State := { live with
  applets := { slots := [(31, { st := .installed, header := zeros 16 ++ [1] ++ zeros 111, moves := moves, owner := 1 })] } }
def invokeP : Post := mk 0 [(16, [31])]
set_option maxRecDepth 20000 in
theorem wit_AppletPosts_invoke : (withApp []).Starts .appletInvoke invokeP ([], [], []) ∧
    (postDesc .appletInvoke invokeP).declLen.toNat ≤ 16384 ∧
    ((withApp []).atUnit .appletInvoke invokeP ([], [], [])).applets.invokeEn = true ∧
    (((withApp []).atUnit .appletInvoke invokeP ([], [], [])).app 31).kind 0 = true ∧
    (((withApp []).atUnit .appletInvoke invokeP ([], [], [])).app 31).waiting = none ∧
    (((withApp []).atUnit .appletInvoke invokeP ([], [], [])).app 31).owner.getLsbD 0 = true :=
  ⟨⟨by decide, by decide, by decide, by decide, rfl⟩, by decide, by decide, by decide, by decide, by decide⟩
/-- An image of one `add`. -/
def image : Bytes := leBytes 4 0x4B574150 ++ [1, 1, 1, 0] ++ leBytes 4 1 ++ zeros 4 ++ [1] ++ zeros 111 ++
  leBytes 8 0x0123400000000000 ++ zeros 96
def installS : State := { live with applets := { gen := 1 }, hostMem := memWrite [] 0x8000 image }
def installP : Post := mk 232 [(16, [31]), (20, [1]), (32, buf 0x8000 232)]
set_option maxRecDepth 20000 in
theorem wit_AppletPosts_install : installS.Starts .appletInstall installP ([⟨0x8000, 232, none⟩], [], []) ∧
    (installS.atUnit .appletInstall installP ([⟨0x8000, 232, none⟩], [], [])).readAll {} [⟨0x8000, 232, none⟩] =
      .ok image ∧
    imageBad (postDesc .appletInstall installP) image = none ∧
    ((installS.atUnit .appletInstall installP ([⟨0x8000, 232, none⟩], [], [])).app 31).st = .empty ∧
    installS.applets.gen ≠ 0 ∧ installS.applets.signerMl = [] :=
  ⟨⟨by decide, by decide, by decide, by decide, rfl⟩, rfl, by decide, by decide, by decide, rfl⟩
set_option maxRecDepth 20000 in
theorem wit_AppletPosts_remove : (withApp []).Starts .appletRemove invokeP ([], [], []) ∧
    (((withApp []).atUnit .appletRemove invokeP ([], [], [])).crowns.journal).isSome = true ∧
    (((withApp []).atUnit .appletRemove invokeP ([], [], [])).app 31).st ≠ .empty :=
  ⟨⟨by decide, by decide, by decide, by decide, rfl⟩, by decide, by decide⟩
def signerP (n : Nat) : Post := mk n [(32, buf 0x8000 n)]
set_option maxRecDepth 20000 in
theorem wit_AppletPosts_signer : live.Starts .appletSigner (signerP 97) ([⟨0x8000, 97, none⟩], [], []) ∧
    (live.atUnit .appletSigner (signerP 97) ([⟨0x8000, 97, none⟩], [], [])).readAll {} [⟨0x8000, 97, none⟩] =
      .ok (zeros 97) ∧ (signerKeys (postDesc .appletSigner (signerP 97)) (zeros 97)).2 = [] ∧
    installS.Starts .appletSigner (signerP 193) ([⟨0x8000, 193, none⟩], [], []) :=
  ⟨⟨by decide, by decide, by decide, by decide, rfl⟩, rfl, by decide, ⟨by decide, by decide, by decide, by decide, rfl⟩⟩

/-! Key custody. -/

def genP : Post := mk 0 [(24, [2]), (32, [1])]
set_option maxRecDepth 20000 in
theorem wit_KeysMade_generate : live.Starts .keyGenerate genP ([], [], []) ∧
    (postDesc .keyGenerate genP).persist = false ∧
    keyRefuse (live.atKeys .keyGenerate genP ([], [], [])) (postDesc .keyGenerate genP) = false ∧
    attrOk ((postDesc .keyGenerate genP).fld 24 1) ((postDesc .keyGenerate genP).fld 28 4)
      ((postDesc .keyGenerate genP).fld 36 4) = true ∧ typeScheme ((postDesc .keyGenerate genP).fld 24 1) = 0 ∧
    (∃ t, newKey (live.atKeys .keyGenerate genP ([], [], [])) 1 noParent (descKey (postDesc .keyGenerate genP) []) =
      .ok t) ∧
    ∃ b re v, (live.atKeys .keyGenerate genP ([], [], [])).draw 0 32 false = .ok b re v :=
  ⟨⟨by decide, by decide, by decide, by decide, rfl⟩, by decide, by decide, by decide, by decide, ⟨_, rfl⟩, _, _, _, rfl⟩
/-- The outer header of a blob of 64 wrapped bytes under slot 0. -/
def blobHead : Bytes := leBytes 4 blobMagic ++ [1, 2, 1, 0] ++ leBytes 4 0 ++ leBytes 4 64
def importKS : State := { live with hostMem := memWrite [] 0x8000 blobHead }
def keyImportP : Post := mk 80 [(20, leBytes 4 (slotHandle 0)), (32, [1]), (48, buf 0x8000 80)]
set_option maxRecDepth 20000 in
theorem wit_KeysMade_import : importKS.Starts .keyImport keyImportP ([⟨0x8000, 80, none⟩], [], []) ∧
    keyRefuse (importKS.atKeys .keyImport keyImportP ([⟨0x8000, 80, none⟩], [], [])) (postDesc .keyImport keyImportP) =
      false ∧
    (importKS.atKeys .keyImport keyImportP ([⟨0x8000, 80, none⟩], [], [])).readAll {} [⟨0x8000, 80, none⟩] =
      .ok (blobHead ++ zeros 64) ∧
    blobOuterOk (blobHead ++ zeros 64) ((postDesc .keyImport keyImportP).fld 20 4) = true :=
  ⟨⟨by decide, by decide, by decide, by decide, rfl⟩, by decide, rfl, by decide⟩
set_option maxRecDepth 20000 in
theorem wit_KeysMade_made : (postDesc .keyGenerate genP).persist = false ∧
    ∃ i recs effs, newKey live ((postDesc .keyGenerate genP).fld 32 4) noParent (descKey (postDesc .keyGenerate genP)
      (zeros 32)) = .ok (i, recs, effs) := ⟨by decide, _, _, _, rfl⟩

/-- A device with an exportable key in slot 4, a wrapping key in slot 0, an erased key in slot 5, an ECDSA key in slot
6 and a persistent key 0. -/
def keyS : State := { live with
  keys := { slots := [(0, key 2 0x7F), (2, key 0x21 0x1FF), (4, key 2 0x200), (5, { key 2 0 with st := .erased }),
    (6, key 0x11 8), (7, { key 2 1 with reservedBy := 1 })] }
  nvm := { recalling := false, ready := true } }
def exportP : Post := mk 0 [(16, leBytes 4 (slotHandle 4)), (20, leBytes 4 (slotHandle 0)), (48, buf 0x9000 128)]
def exportGot : Got := ([], [⟨0x9000, 128, none⟩], [])
theorem wit_KeyWork_export : keyS.Starts .keyExport exportP exportGot ∧
    keyRefuse (keyS.atKeys .keyExport exportP exportGot) (postDesc .keyExport exportP) = false ∧
    (∃ k, exportSource (keyS.atKeys .keyExport exportP exportGot) (postDesc .keyExport exportP) = .ok k ∧
      k.inner.length = 64) ∧
    (∃ x, (keyS.atKeys .keyExport exportP exportGot).custodyKey ((postDesc .keyExport exportP).fld 20 4) 4
      (fun t => t == 1 || t == 2) = .ok x ∧
      ∃ v, (keyS.atKeys .keyExport exportP exportGot).chargeWrapper x (blocksOf 64) = some v) :=
  ⟨⟨by decide, by decide, by decide, by decide, rfl⟩, by decide, ⟨_, rfl, by decide⟩, ⟨_, rfl, _, rfl⟩⟩
def slotP (i : Nat) : Post := mk 0 [(16, leBytes 4 (slotHandle i))]
theorem wit_KeyWork_destroy : keyS.Starts .keyDestroy (slotP 0) ([], [], []) ∧
    slotReach ((keyS.atKeys .keyDestroy (slotP 0) ([], [], [])).slot 0) 0 = none ∧
    ((keyS.atKeys .keyDestroy (slotP 0) ([], [], [])).slot 0).reservedBy = 0 :=
  ⟨⟨by decide, by decide, by decide, by decide, rfl⟩, by decide, by decide⟩
theorem wit_KeyWork_destroy_busy : keyS.Starts .keyDestroy (slotP 7) ([], [], []) ∧
    slotReach ((keyS.atKeys .keyDestroy (slotP 7) ([], [], [])).slot 7) 0 = none ∧
    ((keyS.atKeys .keyDestroy (slotP 7) ([], [], [])).slot 7).reservedBy ≠ 0 :=
  ⟨⟨by decide, by decide, by decide, by decide, rfl⟩, by decide, by decide⟩
theorem wit_KeyWork_release : keyS.Starts .keyRelease (slotP 5) ([], [], []) ∧
    ((keyS.atKeys .keyRelease (slotP 5) ([], [], [])).slot 5).st = .erased ∧
    ((keyS.atKeys .keyRelease (slotP 5) ([], [], [])).slot 5).type ≠ 0 :=
  ⟨⟨by decide, by decide, by decide, by decide, rfl⟩, by decide, by decide⟩
theorem wit_KeyWork_limit : keyS.Starts .keyLimit (mk 0 [(16, leBytes 4 (slotHandle 0)), (36, [1])]) ([], [], []) ∧
    slotReach ((keyS.atKeys .keyLimit (mk 0 [(16, leBytes 4 (slotHandle 0)), (36, [1])]) ([], [], [])).slot 0) 0 =
      none := ⟨⟨by decide, by decide, by decide, by decide, rfl⟩, by decide⟩
def pubP : Post := mk 0 [(16, leBytes 4 (slotHandle 6)), (48, buf 0x9000 97)]
theorem wit_KeyWork_public : keyS.Starts .keyPublic pubP ([], [⟨0x9000, 97, none⟩], []) ∧
    (∃ m, publicSource (keyS.atKeys .keyPublic pubP ([], [⟨0x9000, 97, none⟩], [])) ((postDesc .keyPublic pubP).fld 16 4) =
      .ok (0x11, m)) ∧ typePub 0x11 ≤ 97 :=
  ⟨⟨by decide, by decide, by decide, by decide, rfl⟩, ⟨_, rfl⟩, by decide⟩
def decapP : Post := mk 1088 [(20, leBytes 4 (slotHandle 2)), (24, [2]), (32, [1]), (48, buf 0x8000 1088)]
def decapGot : Got := ([⟨0x8000, 1088, none⟩], [], [])
set_option maxRecDepth 20000 in
theorem wit_KeyWork_decapsulate : keyS.Starts .keyDecapsulate decapP decapGot ∧
    attrOk ((postDesc .keyDecapsulate decapP).fld 24 1) ((postDesc .keyDecapsulate decapP).fld 28 4)
      ((postDesc .keyDecapsulate decapP).fld 36 4) = true ∧
    (∃ x, (keyS.atKeys .keyDecapsulate decapP decapGot).custodyKey ((postDesc .keyDecapsulate decapP).fld 20 4) 6
      (fun t => t == 0x21) = .ok x ∧
      ∃ v, (keyS.atKeys .keyDecapsulate decapP decapGot).chargeWrapper x 68 = some v) ∧
    (∃ t, newKey (keyS.atKeys .keyDecapsulate decapP decapGot) ((postDesc .keyDecapsulate decapP).fld 32 4) noParent
      (descKey (postDesc .keyDecapsulate decapP) []) = .ok t) ∧
    (keyS.atKeys .keyDecapsulate decapP decapGot).readAll {} decapGot.1 = .ok (zeros 1088) ∧
    (keyS.atKeys .keyDecapsulate decapP decapGot).kindServes true = true :=
  ⟨⟨by decide, by decide, by decide, by decide, rfl⟩, by decide, ⟨_, rfl, _, rfl⟩, ⟨_, rfl⟩, rfl, by decide⟩
/-- `keyS` purged since its start, with the domain root key it drew anew. -/
def rootS : State := { keyS with
  keys := { keyS.keys with custody := .erased }, battery := { drk := some (zeros 32) } }
theorem wit_KeyWork_rungs : rootS.Starts .keyScrub (mk 0 []) ([], [], []) ∧
    rootS.Starts .keyPurge (mk 0 []) ([], [], []) ∧
    keyRefuse (rootS.atKeys .keyScrub (mk 0 []) ([], [], [])) (postDesc .keyScrub (mk 0 [])) = false ∧
    keyRefuse (rootS.atKeys .keyPurge (mk 0 []) ([], [], [])) (postDesc .keyPurge (mk 0 [])) = false :=
  ⟨⟨by decide, by decide, by decide, by decide, rfl⟩, ⟨by decide, by decide, by decide, by decide, rfl⟩, by decide, by decide⟩

/-- A copy of a record as its pages hold it. -/
def nvmOf (name : RecName) (b : Bytes) : Nvm :=
  { recalling := false, ready := true, pages := recPageList name 0 b }
theorem tget_run (d : Bytes) (a : Nat) (f : Nat → Bytes) (n : Nat) : ∀ o k, k < n →
    tget d ((List.range' o n).map fun i => (a + i, f i)) (a + (o + k)) = f (o + k) := by
  induction n with
  | zero => intro o k h; omega
  | succ n ih =>
    intro o k h
    simp only [List.range'_succ, List.map_cons, tget]
    rcases k with _ | k
    · simp
    · rw [if_neg (by omega), if_neg (by omega)]
      have := ih (o + 1) k (by omega)
      rwa [show o + 1 + k = o + (k + 1) by omega] at this
/-- Copy 0 of a record written to empty pages. -/
theorem nvmOf_copy0 (name : RecName) (b : Bytes) :
    (nvmOf name b).copy name 0 = recCopy (recPages name) (((List.range (recPages name)).map fun k => slice b (256 * k) 256).flatten) := by
  rw [Nvm.copy, Nvm.copyBytes]
  congr 2
  apply List.map_congr_left
  intro k hk
  have e : (nvmOf name b).phys (recFirst name 0 + k) = recFirst name 0 + k := rfl
  rw [Nvm.page, e, show (nvmOf name b).pages = recPageList name 0 b from rfl, recPageList, List.range_eq_range']
  simpa using tget_run (zeros 256) (recFirst name 0) (fun k => slice b (256 * k) 256) (recPages name) 0 k
    (by simpa using hk)
/-- Persistent key 0 in the keeper NVM, as R696 lays its record out, in copy 0. -/
def pkeyRec : PKey := ⟨0, 2, 10, 10, zeros 64, []⟩
def pkeyS : State := { live with nvm := nvmOf (pkeyName 0) (recBytes (pkeyName 0) 3 pkeyRec.bytes 1 0) }
theorem pkeyS_copy0 : (nvmOf (pkeyName 0) (recBytes (pkeyName 0) 3 pkeyRec.bytes 1 0)).copy (pkeyName 0) 0 =
    recCopy 9 (((List.range 9).map fun k =>
      slice (recBytes (pkeyName 0) 3 pkeyRec.bytes 1 0) (256 * k) 256).flatten) := nvmOf_copy0 _ _
theorem pkeyS_copy1 : (nvmOf (pkeyName 0) (recBytes (pkeyName 0) 3 pkeyRec.bytes 1 0)).copy (pkeyName 0) 1 =
    recCopy 9 (zeros 2304) := by
  have h : (nvmOf (pkeyName 0) (recBytes (pkeyName 0) 3 pkeyRec.bytes 1 0)).copyBytes (pkeyName 0) 1 =
    (List.replicate 9 (zeros 256)).flatten := rfl
  rw [Nvm.copy, h, show (List.replicate 9 (zeros 256)).flatten = zeros 2304 from by
    simp only [zeros, List.flatten_replicate_replicate]]
  rfl
theorem pkeyS_held : pkeyS.pkey 0 = some pkeyRec := by
  have h := pkeyS_copy0
  rw [flatten_pages (p := 9) (length_recBytes (pkeyName 0) 3 pkeyRec.bytes 1 0 (by decide))] at h
  have h2 := recCopy_recBytes (pkeyName 0) 3 pkeyRec.bytes 1 0 (by decide) (by decide) (by decide) (by decide)
    (by decide) (by decide)
  rw [show recPages (pkeyName 0) = 9 from rfl] at h2
  rw [h2] at h
  have e : pkeyS.nvm.record (pkeyName 0) =
      recChoose true ⟨3, 84, 1, 0, pkeyRec.bytes, true, false⟩ ⟨0, 0, 0, 0, [], false, true⟩ := by
    rw [Nvm.record, show pkeyS.nvm = nvmOf (pkeyName 0) (recBytes (pkeyName 0) 3 pkeyRec.bytes 1 0) from rfl, h,
      pkeyS_copy1, recCopy_zeros]
    rfl
  rw [State.pkey, show pkeyS.recNow (pkeyName 0) = pkeyS.nvm.record (pkeyName 0) from rfl, e]
  decide
def loadP : Post := mk 0 [(16, leBytes 4 0x20000000), (32, [1])]
set_option maxRecDepth 20000 in
theorem wit_KeyWork_load : pkeyS.Starts .keyLoad loadP ([], [], []) ∧
    keyRefuse (pkeyS.atKeys .keyLoad loadP ([], [], [])) (postDesc .keyLoad loadP) = false ∧
    (pkeyS.atKeys .keyLoad loadP ([], [], [])).pkey 0 = some pkeyRec ∧ pkeyRec.invsLeft ≠ 0xFFFFFFFF :=
  ⟨⟨by decide, by decide, by decide, by decide, rfl⟩, by
    obtain ⟨n, v, y, r, h⟩ := noteTies_frame (pkeyS.atUnit .keyLoad loadP ([], [], [])) (keyNames (postDesc .keyLoad loadP))
    rw [State.atKeys, h]
    rfl, by
    have e : (pkeyS.atUnit .keyLoad loadP ([], [], [])).recNow (pkeyName 0) = pkeyS.recNow (pkeyName 0) := rfl
    have h := pkeyS_held
    rw [State.pkey] at h ⊢
    rw [State.atKeys, noteTies_recNow, e]
    exact h, by decide⟩

/-! Ceremonies. -/

/-- A device in PRODUCTION with a custodian card and the ceremony `c`. -/
def prod (c : Option Ceremony) : State := { live with
  life := { current := .production }, battery := { drk := some (zeros 32) }, cards := { cc := { present := true } }
  keys := { slots := live.keys.slots, ceremony := c } }
def restore : Ceremony := ⟨.restore, 0, 0, 1, 1, [], [], [], []⟩
def create : Ceremony := ⟨.create, 2, 2, 1, 1, [], [1, 2], zeros 32, []⟩
def beginP : Post := mk 0 [(16, [1]), (20, [1])]
theorem wit_CeremonyPosts_begin : (prod none).Starts .cerBegin beginP ([], [], []) ∧
    cerRefuse ((prod none).atUnit .cerBegin beginP ([], [], [])) (postDesc .cerBegin beginP) = false ∧
    ((prod none).atUnit .cerBegin beginP ([], [], [])).keys.ceremony = none ∧
    (postDesc .cerBegin beginP).fld 16 1 = 1 ∧
    cerAllowed 1 ((prod none).atUnit .cerBegin beginP ([], [], [])).keys.custody = true :=
  ⟨⟨by decide, by decide, by decide, by decide, rfl⟩, by decide, rfl, by decide, by decide⟩
theorem wit_CeremonyPosts_share : (prod (some restore)).Starts .cerShare (mk 0 []) ([], [], []) ∧
    cerRefuse ((prod (some restore)).atUnit .cerShare (mk 0 []) ([], [], [])) (postDesc .cerShare (mk 0 [])) = false ∧
    ((prod (some restore)).atUnit .cerShare (mk 0 []) ([], [], [])).keys.ceremony = some restore ∧
    shareServes restore (postDesc .cerShare (mk 0 [])) = true ∧
    (((prod (some restore)).atUnit .cerShare (mk 0 []) ([], [], [])).crowns.journal).isSome = true ∧
    ((prod (some restore)).atUnit .cerShare (mk 0 []) ([], [], [])).tamper.fenceCc = false ∧
    ((prod (some restore)).atUnit .cerShare (mk 0 []) ([], [], [])).cards.cc.present = true :=
  ⟨⟨by decide, by decide, by decide, by decide, rfl⟩, by decide, rfl, by decide, by decide, rfl, rfl⟩
theorem wit_CeremonyPosts_finish : (prod (some create)).Starts .cerFinish (mk 0 []) ([], [], []) ∧
    cerRefuse ((prod (some create)).atUnit .cerFinish (mk 0 []) ([], [], [])) (postDesc .cerFinish (mk 0 [])) = false ∧
    ((prod (some create)).atUnit .cerFinish (mk 0 []) ([], [], [])).keys.ceremony = some create ∧
    create.n ≤ create.indices.length :=
  ⟨⟨by decide, by decide, by decide, by decide, rfl⟩, by decide, rfl, by simp [create, Ceremony.indices]⟩
theorem wit_CeremonyPosts_cancel : (prod (some create)).Starts .cerCancel (mk 0 []) ([], [], []) ∧
    ((prod (some create)).atUnit .cerCancel (mk 0 []) ([], [], [])).keys.ceremony = some create :=
  ⟨⟨by decide, by decide, by decide, by decide, rfl⟩, rfl⟩

/-! Snapshots. -/

/-- A snapshot that runs, with `copied` copied. -/
def snapRun (copied : List Nat) : Snap :=
  { epoch := 1, startTime := 0, startTick := 0, reqs := [], copied := copied, acked := [], still := [], late := [],
    arrived := [], counters := [], sent := [], recv := [], inflight := [] }
/-- `live` in which it runs. -/
def snapping (copied : List Nat) : State := { live with snp := { run := some (snapRun copied) } }
def snapP : Post := mk 0 [(48, buf 0x9000 15496)]
theorem wit_Snapshots_post : live.Starts .snapshot snapP ([], [⟨0x9000, 15496, none⟩], []) ∧
    ((live.atUnit .snapshot snapP ([], [⟨0x9000, 15496, none⟩], [])).keepGot 0 0 ([], [⟨0x9000, 15496, none⟩], [])).snp.run
      = none ∧
    (snapping []).Starts .snapshot snapP ([], [⟨0x9000, 15496, none⟩], []) ∧
    (((snapping []).atUnit .snapshot snapP ([], [⟨0x9000, 15496, none⟩], [])).keepGot 0 0
      ([], [⟨0x9000, 15496, none⟩], [])).snp.run ≠ none :=
  ⟨⟨by decide, by decide, by decide, by decide, rfl⟩, rfl, ⟨by decide, by decide, by decide, by decide, rfl⟩, by decide⟩
theorem wit_Snapshots_trigger : 3 ≤ live.start.stage ∧ live.snp.run = none ∧ (snapping []).snp.run ≠ none := by decide
/-- Unit 26, the last, and channel 148, the last, from 17 to 24. -/
theorem wit_Snapshots_marker : (snapping [0]).snp.run = some (snapRun [0]) ∧ 26 ∉ (snapRun [0]).still ∧
    26 ∉ (snapRun [0]).late ∧ 26 ∉ (snapRun [0]).copied := by decide
theorem wit_Snapshots_channel : (snapping [17]).snp.run = some (snapRun [17]) ∧ 24 ∉ (snapRun [17]).still ∧
    24 ∉ (snapRun [17]).late ∧ (channelEnds 148).2 = 24 ∧ 148 ∉ (snapRun [17]).arrived ∧
    (channelEnds 148).1 ∈ (snapRun [17]).copied := by decide
theorem wit_Snapshots_arrived : ∃ r r', (snapping [17]).snp.run = some r ∧ ((snapping [17]).markerIn 148).snp.run =
    some r' := ⟨_, _, rfl, rfl⟩

/-! Card ports. -/

/-- An SD card present, ready or not, with job `j`. -/
def sdS (st : SdSt) (j : Option CardJob) : State := { live with
  cards := { sd := { present := true, st := st }, cc := { present := true, active := true }, job := j } }
theorem wit_CardPosts_ready : (sdS .ready none).Starts .sdInfo (mk 0 []) ([], [], []) ∧
    (((sdS .ready none).atUnit .sdInfo (mk 0 []) ([], [], [])).crowns.journal).isSome = true ∧
    cardPermit ((sdS .ready none).atUnit .sdInfo (mk 0 []) ([], [], [])) (postDesc .sdInfo (mk 0 [])) = true ∧
    ((sdS .ready none).atUnit .sdInfo (mk 0 []) ([], [], [])).cards.sd.st = .ready :=
  ⟨⟨by decide, by decide, by decide, by decide, rfl⟩, by decide, by decide, rfl⟩
theorem wit_CardPosts_identify : (sdS .present none).Starts .sdInfo (mk 0 []) ([], [], []) ∧
    ((sdS .present none).atUnit .sdInfo (mk 0 []) ([], [], [])).cards.sd.st ≠ .ready :=
  ⟨⟨by decide, by decide, by decide, by decide, rfl⟩, by decide⟩
theorem wit_CardPosts_absent : live.Starts .sdInfo (mk 0 []) ([], [], []) ∧
    live.cards.sd.present = false ∧ live.Starts .ccInfo (mk 0 []) ([], [], []) ∧ live.cards.cc.present = false :=
  ⟨⟨by decide, by decide, by decide, by decide, rfl⟩, rfl, ⟨by decide, by decide, by decide, by decide, rfl⟩, rfl⟩
theorem wit_CardPosts_contact : (sdS .present none).Starts .ccInfo (mk 0 []) ([], [], []) ∧
    cardPermit ((sdS .present none).atUnit .ccInfo (mk 0 []) ([], [], [])) (postDesc .ccInfo (mk 0 [])) = true ∧
    ((sdS .present none).atUnit .ccInfo (mk 0 []) ([], [], [])).cards.cc.present = true :=
  ⟨⟨by decide, by decide, by decide, by decide, rfl⟩, by decide, rfl⟩

/-! Life cycle and provisioning. -/

/-- A device with `l`, its entropy running. -/
def lcsS (l : Life) : State := { live with life := l, battery := { drk := some (zeros 32) } }
theorem wit_LifeCyclePosts_transition : live.Starts .lcsTransition (mk 0 [(16, [3])]) ([], [], []) ∧
    lcsTarget ((postDesc .lcsTransition (mk 0 [(16, [3])])).fld 16 1) = some .endOfLife ∧
    transitionOk (live.atUnit .lcsTransition (mk 0 [(16, [3])]) ([], [], [])) .endOfLife = true ∧
    live.life.pendingTarget = none := ⟨⟨by decide, by decide, by decide, by decide, rfl⟩, by decide, by decide, rfl⟩
theorem wit_LifeCyclePosts_refused : live.Starts .lcsTransition (mk 0 [(16, [1])]) ([], [], []) ∧
    lcsTarget ((postDesc .lcsTransition (mk 0 [(16, [1])])).fld 16 1) = some .test ∧
    transitionOk (live.atUnit .lcsTransition (mk 0 [(16, [1])]) ([], [], [])) .test = false :=
  ⟨⟨by decide, by decide, by decide, by decide, rfl⟩, by decide, by decide⟩
theorem wit_LifeCyclePosts_cancel :
    (lcsS { current := .test, pendingTarget := some .production }).Starts .lcsCancel (mk 0 []) ([], [], []) ∧
    lcsBegun ((lcsS { current := .test, pendingTarget := some .production }).atUnit .lcsCancel (mk 0 []) ([], [], []))
      .production = false := ⟨⟨by decide, by decide, by decide, by decide, rfl⟩, by decide⟩
def debugP (n : Nat) : Post := mk n [(32, buf 0x8000 n)]
set_option maxRecDepth 20000 in
theorem wit_LifeCyclePosts_key : live.Starts .lcsDebugKey (debugP 97) ([⟨0x8000, 97, none⟩], [], []) ∧
    (live.atUnit .lcsDebugKey (debugP 97) ([⟨0x8000, 97, none⟩], [], [])).readAll {} [⟨0x8000, 97, none⟩] =
      .ok (zeros 97) ∧ live.life.debugGen = 0 ∧
    (lcsS { current := .test, debugGen := 1 }).Starts .lcsDebugKey (debugP 193) ([⟨0x8000, 193, none⟩], [], []) ∧
    ((lcsS { current := .test, debugGen := 1 }).atUnit .lcsDebugKey (debugP 193) ([⟨0x8000, 193, none⟩], [], [])).readAll
      {} [⟨0x8000, 193, none⟩] = .ok (zeros 193) :=
  ⟨⟨by decide, by decide, by decide, by decide, rfl⟩, rfl, rfl, ⟨by decide, by decide, by decide, by decide, rfl⟩, rfl⟩
def nonceP : Post := mk 0 [(48, buf 0x9000 32)]
theorem wit_LifeCyclePosts_nonce : live.Starts .lcsDebugNonce nonceP ([], [⟨0x9000, 32, none⟩], []) ∧
    ∃ b re v, (live.atUnit .lcsDebugNonce nonceP ([], [⟨0x9000, 32, none⟩], [])).draw 0 32 false = .ok b re v :=
  ⟨⟨by decide, by decide, by decide, by decide, rfl⟩, _, _, _, rfl⟩
def token : Bytes := leBytes 4 0x4B574454 ++ [1, 0, 1, 0] ++ leBytes 4 86400
def grantS : State := { lcsS { current := .production, debugGen := 1, idHash := some (zeros 16), nonce := some (zeros 32) }
  with hostMem := memWrite [] 0x8000 token }
def grantP : Post := mk 160 [(32, buf 0x8000 160)]
set_option maxRecDepth 20000 in
theorem wit_LifeCyclePosts_grant : grantS.Starts .lcsDebugGrant grantP ([⟨0x8000, 160, none⟩], [], []) ∧
    (grantS.atUnit .lcsDebugGrant grantP ([⟨0x8000, 160, none⟩], [], [])).readAll {} [⟨0x8000, 160, none⟩] =
      .ok (token ++ zeros 148) ∧ tokenOk (token ++ zeros 148) = true ∧
    grantS.life.idHash = some (slice (token ++ zeros 148) 16 16) ∧
    grantS.life.nonce = some (slice (token ++ zeros 148) 32 32) :=
  ⟨⟨by decide, by decide, by decide, by decide, rfl⟩, rfl, by decide, rfl, rfl⟩
theorem wit_LifeCyclePosts_revoke : live.Starts .lcsDebugRevoke (mk 0 []) ([], [], []) :=
  ⟨by decide, by decide, by decide, by decide, rfl⟩
def idP : Post := mk 0 [(48, buf 0x9000 97)]
theorem wit_LifeCyclePosts_idkey : (lcsS { current := .test }).Starts .provIdkey idP ([], [⟨0x9000, 97, none⟩], []) ∧
    (lcsS { current := .test }).life.idKey = none ∧ (lcsS { current := .test }).battery.drk.isSome = true ∧
    ∃ b re v, ((lcsS { current := .test }).atUnit .provIdkey idP ([], [⟨0x9000, 97, none⟩], [])).draw 0 48 false =
      .ok b re v := ⟨⟨by decide, by decide, by decide, by decide, rfl⟩, rfl, rfl, _, _, _, rfl⟩
/-- A chain of one empty certificate. -/
def chain : Bytes := [54, 0] ++ zeros 50 ++ [0x30, 0]
def certS : State := { lcsS { current := .test, idKey := some (zeros 48) } with hostMem := memWrite [] 0x8000 chain }
def certP : Post := mk 54 [(32, buf 0x8000 54)]
theorem wit_LifeCyclePosts_cert : certS.Starts .provCert certP ([⟨0x8000, 54, none⟩], [], []) ∧
    certS.life.idKey = some (zeros 48) ∧
    (certS.atUnit .provCert certP ([⟨0x8000, 54, none⟩], [], [])).readAll {} [⟨0x8000, 54, none⟩] = .ok chain ∧
    chainCerts chain = some [[]] := ⟨⟨by decide, by decide, by decide, by decide, rfl⟩, rfl, rfl, by decide⟩
def patchP : Post := mk 4 [(32, buf 0x8000 4)]
theorem wit_LifeCyclePosts_patch : live.Starts .provPatch patchP ([⟨0x8000, 4, none⟩], [], []) ∧
    (live.atUnit .provPatch patchP ([⟨0x8000, 4, none⟩], [], [])).readAll {} [⟨0x8000, 4, none⟩] = .ok (zeros 4) :=
  ⟨⟨by decide, by decide, by decide, by decide, rfl⟩, rfl⟩

/-! Crown descriptors and records. -/

/-- Crown A active, crown B in state `st`. -/
def twins (st : CrownSt) : State := { live with
  crowns := { a := { st := .active, claim := 1 }, b := { st := st, claim := 1 } } }
theorem wit_CrownAndRecordPosts_swap : (twins .standby).Starts .crownSwap (mk 0 []) ([], [], []) ∧
    ((twins .standby).atUnit .crownSwap (mk 0 []) ([], [], [])).takeOk = true ∧
    (twins .out).Starts .crownSwap (mk 0 []) ([], [], []) ∧
    ((twins .out).atUnit .crownSwap (mk 0 []) ([], [], [])).takeOk = false :=
  ⟨⟨by decide, by decide, by decide, by decide, rfl⟩, by decide, ⟨by decide, by decide, by decide, by decide, rfl⟩, by decide⟩
theorem wit_CrownAndRecordPosts_rejoin : (twins .out).Starts .crownRejoin (mk 0 []) ([], [], []) ∧
    ((twins .out).atUnit .crownRejoin (mk 0 []) ([], [], [])).otherCrown.st = .out :=
  ⟨⟨by decide, by decide, by decide, by decide, rfl⟩, by decide⟩
/-- User record 7,679, the last: one byte in copy 0, and a page that is no record. -/
def recS : State := { live with nvm := nvmOf (.user 7679) (recBytes (.user 7679) 1 [5] 1 0) }
def tornS : State := { live with nvm := nvmOf (.user 7679) (1 :: zeros 255) }
theorem recS_copy0 : recS.nvm.copy (.user 7679) 0 = recCopy 1 (((List.range 1).map fun k =>
    slice (recBytes (.user 7679) 1 [5] 1 0) (256 * k) 256).flatten) := by rfl
theorem recS_copy1 : recS.nvm.copy (.user 7679) 1 = recCopy 1 (zeros 256) := by
  have h : recS.nvm.copyBytes (.user 7679) 1 = zeros 256 ++ [] := rfl
  rw [List.append_nil] at h
  rw [Nvm.copy, h]
  rfl
theorem recS_held : (recS.nvm.record (.user 7679)).st = .held := by
  have h := recS_copy0
  rw [flatten_pages (p := 1) (length_recBytes (.user 7679) 1 [5] 1 0 (by decide))] at h
  have h2 := recCopy_recBytes (.user 7679) 1 [5] 1 0 (by decide) (by decide) (by decide) (by decide) (by decide)
      (by decide)
  rw [Nvm.record, h, recS_copy1, recCopy_zeros]
  rw [show recPages (.user 7679) = 1 from rfl] at h2
  rw [h2]
  rfl
def readP : Post := mk 0 [(16, leBytes 2 7679), (48, buf 0x9000 240)]
def readGot : Got := ([], [⟨0x9000, 240, none⟩], [])
theorem wit_CrownAndRecordPosts_held : recS.Starts .nvmRead readP readGot ∧
    ((recS.atUnit .nvmRead readP readGot).readRec (.user 7679)).1.st = .held :=
  ⟨⟨by decide, by decide, by decide, by decide, rfl⟩, recS_held⟩
set_option maxRecDepth 20000 in
theorem wit_CrownAndRecordPosts_torn : tornS.Starts .nvmRead readP readGot ∧
    ((tornS.atUnit .nvmRead readP readGot).readRec (.user 7679)).1.st = .torn ∧
    live.Starts .nvmRead readP readGot ∧
    ((live.atUnit .nvmRead readP readGot).readRec (.user 7679)).1.st = .never :=
  ⟨⟨by decide, by decide, by decide, by decide, rfl⟩, by decide, ⟨by decide, by decide, by decide, by decide, rfl⟩, by decide⟩
def writeP : Post := mk 1 [(16, leBytes 2 7679), (18, [1]), (32, buf 0x8000 1)]
theorem wit_CrownAndRecordPosts_write : live.Starts .nvmWrite writeP ([⟨0x8000, 1, none⟩], [], []) ∧
    (live.atUnit .nvmWrite writeP ([⟨0x8000, 1, none⟩], [], [])).nvm.protects 7679 = false ∧
    (live.atUnit .nvmWrite writeP ([⟨0x8000, 1, none⟩], [], [])).readAll {} [⟨0x8000, 1, none⟩] = .ok [0] :=
  ⟨⟨by decide, by decide, by decide, by decide, rfl⟩, by decide, rfl⟩
theorem wit_CrownAndRecordPosts_scan : live.Starts .nvmScan (mk 0 []) ([], [], []) ∧
    live.nvm.scanning = false ∧ live.nvm.recalling = false := ⟨⟨by decide, by decide, by decide, by decide, rfl⟩, rfl, rfl⟩

/-! Engines and the entropy source. -/

/-- A descriptor of ring 0 that a unit holds. -/
def workOf (o : Op) (p : Post) (ph : WPhase) (got : Option Got) : Work :=
  { seq := 5, desc := postDesc o p, cls := 0, phase := ph, got := got }
/-- `live` with it. -/
def working (w : Work) : State := { live with
  rings := [(0, { st := .running, sqBase := 0x2000, cqBase := 0x3000, f := 1, work := [w] })] }
def reqOf (c : Client) : SigReq := { client := c, lattice := true, scheme := 0x20 }
/-- `s` with request `q` waiting, or on engine 11, the last. -/
def asking (s : State) (q : SigReq) : State := { s with signet := { s.signet with queue := [q] } }
def busyWith (s : State) (q : SigReq) : State := { s with signet := { s.signet with engines := [(11, { busy := some q })] } }

theorem wit_EngineTurns_crown : (asking live (reqOf (.crown 1))).freeEngine (latticeEngine 8) = some 8 ∧
    (asking live (reqOf (.crown 1))).nextRequest (latticeEngine 8) = some (reqOf (.crown 1)) := by decide
theorem wit_EngineTurns_desc :
    (asking (working (workOf .sigSign signP .active (some ([⟨0x8000, 5, none⟩], [⟨0x9000, 3309, none⟩], []))))
      (reqOf (.desc 0 5))).nextRequest (latticeEngine 8) = some (reqOf (.desc 0 5)) ∧
    (((working (workOf .sigSign signP .active (some ([⟨0x8000, 5, none⟩], [⟨0x9000, 3309, none⟩], [])))).ring 0).find
      5).isSome = true ∧ live.readAll {} [⟨0x8000, 5, none⟩] = .ok (zeros 5) := ⟨by decide, by decide, rfl⟩
theorem wit_EngineTurns_begin : live.drawNeed (reqOf (.crown 1)) = 0 ∧
    live.chargeRequest (reqOf (.crown 1)) = (live, true) := ⟨rfl, rfl⟩
theorem wit_EngineTurns_verified :
    ((busyWith (working (workOf .sigVerify verifyP .active none)) (reqOf (.desc 0 5))).engine 11).busy =
      some (reqOf (.desc 0 5)) ∧
    DrawWait.engine 11 ∉ (busyWith (working (workOf .sigVerify verifyP .active none)) (reqOf (.desc 0 5))).signet.waits ∧
    (working (workOf .sigVerify verifyP .active none)).ringAborted 0 = false ∧
    (postDesc .sigVerify verifyP).is .sigVerify = true := by decide
theorem wit_EngineTurns_signed : (postDesc .sigSign signP).is .sigVerify = false ∧
    (postDesc .sigSign signP).is .sigSign = true ∧
    (working (workOf .sigSign signP .active none)).ringAborted 0 = false := by decide

/-- Stage S4 with the entropy source in state `e`, `f` failures counted, and request `w` waiting. -/
def entS (e : EntState) (f : Nat) (w : List DrawWait) : State := { live with
  signet := { ent := e, settling := false, startupFails := f, waits := w } }
theorem wit_EntropyUnit_random : (((entS .running 0 [.random 0 5]).signet.waits.find? fun w => w.inst == (2 : Fin 4).val) =
    some (.random 0 5)) := by decide
theorem wit_EntropyUnit_crown : (((entS .running 0 [.crown 1]).signet.waits.find? fun w => w.inst == (0 : Fin 4).val) =
    some (.crown 1)) := by decide
theorem wit_EntropyUnit_entry : ∃ j, (holdS []).crowns.journal = some j ∧ j.number = 1 ∧ j.wait ≠ .draw := ⟨_, rfl, by decide⟩
theorem wit_EntropyUnit_noRandom :
    (∃ d, (working (workOf .sigSign signP .active none)).descOf 0 5 = some d ∧ (reqOf (.desc 0 5)).client = .desc 0 5) ∧
    (key 0x20 0x1FF).mayCharge 1 99 = true ∧ (key 0x20 0x1FF).invCount < 2 ^ 32 ∧
    ({ live with link := { numVfs := 30 } } : State).fnExists (31 : Fin 32) = false :=
  ⟨⟨_, rfl, rfl⟩, by decide⟩
theorem wit_EntropyUnit_running : 2 ≤ (entS .running 0 []).start.stage ∧ (entS .running 0 []).signet.ent = .running ∧
    (entS .running 0 []).signet.pool.length < 16 := by decide
theorem wit_EntropyUnit_startup : 2 ≤ (entS .startup 0 []).start.stage ∧ (entS .startup 0 []).signet.ent = .startup ∧
    (entS .startup 0 []).signet.settling = false ∧ (entS .startup 1 []).signet.startupFails < 2 ∧
    2 ≤ (entS .startup 2 []).signet.startupFails := by decide
theorem wit_EntropyUnit_restart : 3 ≤ live.start.stage ∧ live.stageBars 0x70010 = false := by decide
theorem wit_EntropyUnit_raw : live.lcs = .test ∧ (prod none).lcs ≠ .test ∧
    ∃ b t, live.freshBytes 64 = (b, t) := ⟨rfl, by decide, _, _, rfl⟩

/-! The vault engine and the Pip port. -/

/-- A vault whose fold pass runs, for an export or not. -/
def folding (j : Option VaultJob) : State := { act with vault := { act.vault with foldBusy := true, job := j } }
theorem wit_VaultEvents_fold : ((folding none).hostStores {}).vault.foldBusy = true ∧ (folding none).vault.job = none ∧
    (folding (some (.exporting (chkForm act (postDesc .vaultCheckpoint (ckpP [])) [])))).vault.job =
      some (.exporting (chkForm act (postDesc .vaultCheckpoint (ckpP [])) [])) := ⟨rfl, rfl, rfl⟩
/-- Sets 2 and 15 wait to be cleared; a page of set 2 is in the port's hands. -/
def clearS : State := { act with
  vault := { act.vault with clearing := [2, 15] }
  nvm := { act.nvm with queue := [⟨6, bitmapPage 2 511, zeros 256, .clear 2 true⟩] } }
theorem wit_VaultEvents_batch : ({ act with vault := { act.vault with batching := true } } : State).vault.batching = true ∧
    act.vault.st = .active ∧ clearS.vault.clearing = [2] ++ 15 :: [] ∧ clearS.setClearing 2 = true ∧
    clearS.setClearing 15 = false := by decide
theorem wit_VaultEvents_banks : act.vault.st ≠ .none ∧ act.vault.st ≠ .moved ∧
    tget 0 (act.reachBank 0xFFFFF).pip.bankAt (0xFFFFF % 16) = act.tick + 1 ∧
    tget 0 act.pip.bankAt (0xFFFFF % 16) ≠ act.tick + 1 := by decide
theorem wit_VaultEvents_rebuild : ((vaulted .active { checkErr := 1 }).pipe 0xFFFFF).checkErr ≠ 0 ∧
    ((vaulted .active { checkErr := 1 }).ventry 0xFFFFF).failed = false ∧
    0xFFFFF ∈ (vaulted .active { checkErr := 1 }).vault.cached ∧
    (({ act with vault := { act.vault with entries := [(0xFFFFF, { failed := true })] } } : State).ventry 0xFFFFF).failed =
      true := by decide
theorem wit_VaultEvents_flush : 3 ≤ act.start.stage ∧ act.stageBars 0x50000 = false := by decide
/-- A capture of endpoint 0xFFFFF that fetches its key. -/
def capMsg : Msg :=
  { id := 0, ring := 0, seq := 5, chain := none, cls := 0, clsNow := 0,
    kind := .capture { capInit (postDesc .capture capP) [] [] with endpoint := 0xFFFFF }, st := .fetching, ins := [], outs := [],
    inLen := 96, pos := 0, outPos := 0, first := true, staged := [], held := true, onChip := 0, gddrBytes := 0,
    param := 0, aborted := false }
def capturing (e : VEntry) : State := { act with
  facets := [(0, { msgs := [capMsg] })], vault := { act.vault with entries := [(0xFFFFF, e)] } }
theorem wit_VaultEvents_fetch :
    (capturing { lastEntry with recLimit := 1, blockLimit := 1 }).msg (0 : Fin 16) 0 = some capMsg ∧
    (capturing { lastEntry with recLimit := 1, blockLimit := 1 }).halted = false ∧
    (capturing { lastEntry with recLimit := 1, blockLimit := 1 }).vault.st = .active ∧
    ((capturing { lastEntry with recLimit := 1, blockLimit := 1 }).ventry 0xFFFFF).st = .enrolled ∧
    ((capturing { lastEntry with recLimit := 1, blockLimit := 1 }).ventry 0xFFFFF).recCount <
      ((capturing { lastEntry with recLimit := 1, blockLimit := 1 }).ventry 0xFFFFF).recLimit := by decide

/-- The port in FULL mode, and pins without a fault. -/
def portS (e : PipEntry) : State := { vaulted .active e with pip := { locked := true } }
theorem wit_PipRequests : (portS { known := true }).portMode = .full ∧ ({} : PipPins).noise = 0 ∧
    ({} : PipPins).chkNoise = 0 ∧ ({} : PipPins).strobe = 3 ∧ ({} : PipPins).strobeLater = false := by decide
/-- Sequence 1 against an armed entry, and the last sequence against the highest HWM. -/
theorem wit_ClaimedOnce : ({ known := true, armed := true, limit := 1 } : PipEntry).verdict 0 1 = .fresh ∧
    ({ known := true, armed := true, limit := 1 } : PipEntry).seen 0 = true ∧
    0 + 65 ≤ ({ known := true, armed := true, hwm := 65 } : PipEntry).hwm.toNat := by decide
/-- The edges of the table: HWM 100, so that X is 128. -/
def edge (w : BitVec 64) : PipEntry := { known := true, armed := true, hwm := 100, window := w, limit := 4 }
theorem wit_VerdictTable : (portS (edge 0)).portMode = .full ∧ (portS (edge 0)).pipe (0xFFFFF : BitVec 20).toNat = edge 0 ∧
    128 % 32 = 0 ∧ (edge 0).hwm.toNat + 1 ≤ 128 ∧ 128 ≤ (edge 0).hwm.toNat + 65536 ∧ 128 / 32 % 2048 = (edge 0).limit.toNat ∧
    ({} : PipPins).noise = 0 ∧ ({} : PipPins).chkNoise = 0 ∧ ({} : PipPins).strobe = 3 ∧
    ({} : PipPins).strobeLater = false := by decide
/-- The rows, each at an edge: 65 below HWM; 64 below it, seen and not; HWM; the last below X; X; the other epoch. -/
theorem test_verdict_rows :
    ([35, 36, 100, 101, 127, 128].map fun q => (edge 0).verdict 0 q) =
      [.stale, .fresh, .replay, .fresh, .fresh, .notArmed] ∧
    (edge (BitVec.allOnes 64)).verdict 0 36 = .replay ∧ (edge 0).verdict 1 101 = .notArmed ∧
    ({ edge 0 with checkErr := 1 } : PipEntry).verdict 0 101 = .check ∧
    ({ edge 0 with known := false } : PipEntry).verdict 0 101 = .unknown ∧
    ({ edge 0 with revoked := true } : PipEntry).verdict 0 101 = .revoked ∧
    ({ edge 0 with coarse := true } : PipEntry).verdict 0 101 = .coarse := by decide
theorem wit_PipPortEvents_idle : live.portMode = .dark ∧ (portS {}).portMode ≠ .dark ∧
    ({ portS {} with pip := { locked := true, framed := true } } : State).pip.framed = true := by decide
theorem wit_PipPortEvents_cutoff : (portS { known := true, armed := true, parity := true, limit := 1 }).fullAnswer true 0xFFFFF 1 =
    (1, (Config.claimToken 0 0xFFFFF 1).toNat) ∧ (portS {}).pip.late ≠ BitVec.allOnes 32 := ⟨rfl, by decide⟩
theorem wit_PipPortEvents_pf : 3 ≤ live.start.stage ∧ live.stageBars 0x60000 = false := by decide
theorem wit_PeekKeepsTable : (∃ u, exec (.pipPeek 0 0 0 {}) live = .next u) ∧ (∃ u, exec (.pipClaim 0 0 0 {}) live = .next u) ∧
    reqOp (pipRequest 0 0 0 0 ^^^ ({} : PipPins).noise) = 0 ∧ reqOp (pipRequest 1 0 0 0 ^^^ ({} : PipPins).noise) = 1 :=
  ⟨⟨_, rfl⟩, ⟨_, rfl⟩, by decide, by decide⟩

/-! Moves. -/

/-- Engine 3 at move 0 of slot 31's applet, which holds `m` and one more. -/
def invocation (k : InvKind) (budget : Nat) : Invocation := ⟨k, 31, 0, 0, 0, 0, 0, budget⟩
def moving (m : List MoveFields) (k : InvKind) (budget : Nat) (x : Engine) : State :=
  let s := withApp (m.map packMove)
  { s with applets := { s.applets with engines := [(3, { x with inv := some (invocation k budget) })] } }
/-- The move fields of an `add`, a `divu`, and others, each with the highest register. -/
def addF : MoveFields := ⟨0x01, 15, 15, 15, 0, 0⟩

theorem wit_MoveArithmetic : (moving [addF, addF] (.invoke 0 5) 1 {}).AtMove 3 (.moveAdd 3 15 15 15)
    { inv := some (invocation (.invoke 0 5) 1) } (invocation (.invoke 0 5) 1) addF :=
  ⟨rfl, rfl, rfl, rfl, by decide, by decide⟩
theorem wit_MoveGuardsAndFrame_budget : moveEngine (.moveAdd 3 15 15 15) = some 3 ∧
    (invocation (.invoke 0 5) 0).budget < ({} : Engine).units + moveCost addF {} ∧ (live.eng 3).inv = none ∧
    ((moving [addF] (.invoke 0 5) 1 {}).app 31).moves[0]? ≠ some (packMove ⟨0x02, 15, 15, 15, 0, 0⟩) := by decide
theorem wit_MoveGuardsAndFrame_frame : 0 + 1 < ((moving [addF, addF] (.invoke 0 5) 1 {}).app 31).moves.length ∧
    ∃ t, exec (.moveAdd 3 15 15 15) (moving [addF, addF] (.invoke 0 5) 1 {}) = .next t := ⟨by decide, _, rfl⟩

/-- Every move, with every operand, is one at which engine 3 can stand, as it starts. -/
theorem wit_moves {i : Instr} {m : MoveFields} (h : moveFields i = some m) (k : InvKind) (x : Engine) (hp : x.pc = 0)
    (hr : x.rets = none) (hu : x.units = 0) :
    (moving [m, m] k (moveCost m x) x).AtMove 3 i { x with inv := some (invocation k (moveCost m x)) }
      (invocation k (moveCost m x)) m := by
  refine ⟨rfl, rfl, hr, h, ?_, ?_⟩
  · show [packMove m, packMove m][x.pc]? = some (packMove m)
    rw [hp]
    rfl
  · show x.units + moveCost m x ≤ moveCost m x
    omega

/-- An engine whose registers 1 and 2 hold `a` and `b`. -/
def regs (a b : BitVec 64) : Engine := { regs := tset 0 (tset 0 [] 1 a) 2 b }
theorem wit_MoveArithmetic_moved : (live.eng (3 : Fin 4)).inv = none ∧
    ((moving [addF] (.invoke 0 5) 1 {}).eng (3 : Fin 4)).inv ≠ none := by decide
theorem wit_MoveArithmetic_divides : (regs 7 2).reg 2 ≠ 0 ∧ (regs 7 0).reg 2 = 0 := by decide
/-- The last bytes of scratch, and one beyond them. -/
theorem wit_MoveBranchesAndScratch : ((regs 16376 0).reg 1 + (0 : Word32).signExtend 64).toNat + 2 ^ 3 ≤ 16384 ∧
    16384 < ((regs 16377 0).reg 1 + (0 : Word32).signExtend 64).toNat + 2 ^ 3 ∧
    ((regs 16384 0).reg 1 + (-8 : Word32).signExtend 64).toNat + 2 ^ 3 ≤ 16384 ∧
    ((regs 16383 0).reg 1).toNat + 1 ≤ 16384 ∧ (0 : Word32).toNat = 0 := by decide
/-- An applet whose capability 0 is bound to slot 0. -/
def keyed : State :=
  let s := live
  { s with applets := { slots := [(31, { st := .installed, caps := [some (BitVec.ofNat 32 (slotHandle 0))] })] } }
theorem wit_MoveCrypto : (∃ key u, moveKey keyed {} (invocation (.invoke 0 5) 0) (immKey 0) 16 true = .ok (key, u)) ∧
    (∃ key u, moveKey keyed {} (invocation (.invoke 0 5) 0) (immKey 0) 16 false = .ok (key, u)) ∧
    ((regs 16352 16).reg 1).toNat + ((regs 16352 16).reg 2).toNat + 16 ≤ 16384 ∧
    beNat ((({} : Engine).bytes 0 16).drop 12) + blocksOf 16 ≤ 2 ^ 32 ∧ 16368 + 16 ≤ 16384 ∧ 16372 + 12 ≤ 16384 :=
  ⟨⟨_, _, rfl⟩, ⟨_, _, rfl⟩, by decide, by decide, by decide, by decide⟩
theorem wit_MoveEffects : (∃ y, moveField live (invocation (.invoke 0 5) 0) 0 = some y) ∧
    16336 + digestLen 2 ≤ 16384 ∧ ({} : Engine).extends_.length < 4 ∧ live.extendCheck 55 0 false = none ∧
    (invocation (.hook 0 0) 0).kind = .hook 0 0 ∧
    (((working (workOf .appletInvoke invokeP .active none)).ring 0).find 5).isSome = true ∧
    (0 : Word32).toNat % 256 = 0 ∧ (1 : Word32).toNat % 256 ≠ 0 := ⟨⟨_, rfl⟩, by decide⟩

/-- An invocation, or a hook, waits for an engine. -/
def waiting (k : InvKind) : State :=
  let s := working (workOf .appletInvoke invokeP .active (some ([], [], [])))
  { s with applets := { (withApp []).applets with waiting := [invocation k 9] }, facets := [(0, { msgs := [capMsg] })] }
theorem wit_AppletAndStrandEvents_halted : ((waiting (.invoke 0 5)).hostStores {}).halted = false ∧
    (({ live with tamper := { rung := 3 } } : State).hostStores {}).halted = true := by decide
theorem wit_AppletAndStrandEvents_take : nextInvocation (waiting (.invoke 0 5)) = some (invocation (.invoke 0 5) 9) ∧
    ((List.range 4).find? fun e => ((waiting (.invoke 0 5)).eng e).inv.isNone) = some 0 ∧
    (((waiting (.invoke 0 5)).ring 0).find 5).isSome = true ∧ ((waiting (.invoke 0 5)).app 31).kind 0 = true := by decide
theorem wit_AppletAndStrandEvents_hook : nextInvocation (waiting (.hook 0 0)) = some (invocation (.hook 0 0) 9) ∧
    (waiting (.hook 0 0)).msg 0 0 = some capMsg := by decide
theorem wit_AppletAndStrandEvents_strand : stranded.openStrand 0 = some (strand1 0 [1]) ∧ (strand1 0 [1]).closeDue = 0 ∧
    stranded.strand 0 1 = some (strand1 0 [1]) ∧ 1 ∈ (strand1 0 [1]).retry ∧ stranded.kindServes true = true := by decide

/-! Registers of the PF and the tamper response. -/

/-- `live` in stage `n`. -/
def stage (n : Nat) : State := { live with start := { live.start with stage := n } }
theorem wit_PfOnlyCommands : (stage 2).start.stage < 3 ∧ 3 ≤ (stage 3).start.stage ∧ (31 : Fin 32) ≠ 0 ∧
    ({ stage 3 with link := { numVfs := 30 } } : State).fnExists (31 : Fin 32) = false ∧
    (stage 3).fnExists (31 : Fin 32) = true ∧
    (stage 3).stageBars 0x3F000 = true := by decide
/-- A device with tamper state `t`. -/
def tampered (t : Tamper) : State := { live with tamper := t }
theorem wit_TamperCommands_stim : 3 ≤ live.start.stage ∧ live.stageBars 0x50000 = false ∧ live.tamper.stimBusy = none ∧
    (tampered { stimBusy := some 21 }).tamper.stimBusy = some 21 ∧ 18 ≤ (20 : Fin 32).val ∧ (20 : Fin 32).val ≠ 21 := by
  decide
theorem wit_TamperCommands_lock : live.lcs = .test ∧ (prod none).lcs ≠ .test ∧
    (tampered { locked := true }).tamper.locked = true ∧ live.tamper.locked = false ∧
    ((16 : Fin 32).val < 17 ∧ (17 : Fin 32).val ≠ 21 ∧ 17 ≤ (17 : Fin 32).val) := by decide
theorem wit_TamperCommands_clearing : (tampered { clearing := true }).tamper.clearing = true ∧
    ∃ u, u = ({ tampered { clearing := true } with tamper := { ({ clearing := true } : Tamper) with
      clearing := false, scrubDone := Nat.ble 4 0, purgeDone := Nat.ble 5 0 } } : State).drawTk ∧
    u.crowns.journal = none := ⟨rfl, _, rfl, rfl⟩
/-- A device on the cell alone, and one whose entry waits for the clearing. -/
def dark : State := { live with start := { stage := 0 } }
theorem wit_TamperCommands_cell : dark.start.stage = 0 ∧ dark.battery.vbat = true ∧ 2300 ≤ (2300 : BitVec 16).toNat ∧
    live.start.stage ≠ 0 := by decide

/-! Factory tests and records. -/

theorem wit_FactoryAndRecordEvents_mtest :
    (lcsS { current := .test, mtWrite := true, mtTarget := 1, mtAddr := 1048575 }).lcs = .test ∧
    (lcsS { current := .test, mtWrite := true, mtTarget := 1, mtAddr := 1048575 }).life.mtAddr.toNat < 1048576 ∧
    (lcsS { current := .production }).lcs ≠ .test ∧ (lcsS { current := .test }).life.mbBusy = false ∧
    (lcsS { mbBusy := true }).life.mbBusy = true := by decide
theorem wit_FactoryAndRecordEvents_grant : (lcsS { grant := some ⟨1, 1, 0⟩ }).life.grant = some ⟨1, 1, 0⟩ ∧
    (⟨1, 1, 0⟩ : Grant).duration ≠ 0 ∧ live.crowns.journal = none := by decide
/-- A grant of one second, at its start and when it has lasted. -/
theorem wit_FactoryAndRecordEvents_lasted :
    ((lcsS { grant := some ⟨1, 1, 0⟩ }).rtc + (2 ^ 64 - 0)) % 2 ^ 64 < 1 * 32768 ∧
    1 * 32768 ≤ ((lcsS { grant := some ⟨1, 1, 2 ^ 64 - 32768⟩ }).rtc + (2 ^ 64 - (2 ^ 64 - 32768))) % 2 ^ 64 := by decide
/-- A page write of no kind. -/
def pageW : PageWrite := ⟨5, 32767, zeros 256, .other⟩
theorem wit_FactoryAndRecordEvents_nvm : ({ writing := some pageW } : Nvm).writing = some pageW ∧ pageW.kind = .other ∧
    ({ recalling := true } : Nvm).recalling = true ∧ ({} : Nvm).tripped = false ∧ ({} : Nvm).writing = none :=
  ⟨rfl, rfl, rfl, rfl, rfl⟩
theorem wit_FactoryAndRecordEvents_counts : 3 ≤ live.start.stage ∧ live.stageBars (cntAddr .nvm) = false := by decide

/-! Card ports' events, starts, power and facets. -/

/-- A job of ring 0's descriptor 5 in phase `ph`. -/
def cardJ (ph : CardPhase) : CardJob := ⟨0, 5, ph, [zeros 512], 0, 0, 0, 0, 0, false, 0, {}⟩
/-- The crown at work on it. -/
def carding (ph : CardPhase) : State :=
  let s := working (workOf .sdInfo (mk 0 []) .active (some ([], [], [])))
  { s with
    cards := (sdS .ready (some (cardJ ph))).cards
    crowns := { s.crowns with journal := some { ring := 0, seq := 5, tag := 7, opcode := 0, number := 1, wait := .card } } }
theorem wit_CardEvents_detect : 2 ≤ live.start.stage ∧ live.cards.sd.present = false ∧ live.cards.cc.present = false ∧
    ((sdS .ready none).cards.sd.present = true ∧ (sdS .ready none).cardBusy true = false ∧
      (sdS .ready none).cards.cc.present = true ∧ (sdS .ready none).cardBusy false = false ∧
      (sdS .ready none).cards.cc.active = true) ∧
    (carding (.rd 0)).cardBusy true = true ∧ (carding .select).cardBusy false = true := by decide
theorem wit_CardEvents_busy : (carding (.wrBusy 0)).cards.job = some (cardJ (.wrBusy 0)) ∧
    (cardJ (.wrBusy 0)).phase = .wrBusy 0 := ⟨rfl, rfl⟩
theorem wit_CardEvents_taken : (carding (.wrStatus 0)).cards.job = some (cardJ (.wrStatus 0)) ∧
    (∃ jr d g, (carding (.wrStatus 0)).crownDesc = some (jr, d, g) ∧ jr.outcome = none) ∧
    (∃ jr d g, ((carding (.wrStatus 0)).modJournal fun x => { x with outcome := some 0 }).crownDesc = some (jr, d, g) ∧
      jr.state = .intent ∧ jr.outcome ≠ none) ∧
    0 + 1 < ({ cardJ (.wrStatus 0) with blocks := [[], []] } : CardJob).blocks.length :=
  ⟨rfl, ⟨_, _, _, rfl, rfl⟩, ⟨_, _, _, rfl, rfl, by decide⟩, by decide⟩
/-- Responses R1 to CMD24 and to CMD13, in the transfer state. -/
def r1Of (cmd : Byte) : Bytes := [cmd, 0, 0, 9, 0] ++ [crcEnd [cmd, 0, 0, 9, 0]]
set_option maxRecDepth 20000 in
theorem wit_CardEvents_sd : readR48 24 (r1Of 24) = .ok [0, 0, 9, 0] ∧ readR48 13 (r1Of 13) = .ok [0, 0, 9, 0] ∧
    r1Error [0, 0, 9, 0] = false ∧ r1Tran [0, 0, 9, 0] = true ∧ [24, 0, 0, 9, 0, 0].length = 6 ∧
    byteAt [24, 0, 0, 9, 0, 0] 5 ≠ crcEnd ([24, 0, 0, 9, 0, (0 : Byte)].take 5) ∧
    (carding (.wrCmd 0)).cards.sd.st ≠ .identifying ∧ (zeros 512).length = 512 ∧
    [] ≠ blockCrcs (carding (.rdData 0)).cards.sd.width4 (zeros 512) ∧
    (cardJ (.ident (.app41 0 false))).phase ≠ .ident .cmd8 :=
  ⟨by decide, by decide, by decide, by decide, by decide, by decide, by decide, rfl, by simp [blockCrcs, carding, sdS],
    by decide⟩
theorem wit_CardEvents_apdu : (carding .select).cards.cc.t1 = false ∧
    (∃ y, t0Feed [0x90, 0x00] (cardJ .select).x [] = .done y 0x9000) ∧
    t1Read false [0, 0, 2, 0x90, 0x00, 0x92] = some (0, [0x90, 0x00]) ∧ (carding .select).cards.cc.nr = false ∧
    (cardJ .select).x.toSend = [] ∧ (cardJ .select).x.sync = false ∧ (cardJ .select).x.rx = [] ∧
    [0x90, (0x00 : Byte)] = [] ++ [0x90, 0x00] := ⟨rfl, ⟨_, rfl⟩, by decide, rfl, rfl, rfl, rfl, rfl⟩
theorem wit_CardEvents_response : (∀ ph, (carding ph).cards.job = some (cardJ ph)) ∧
    (∀ ph, ∃ jr d g, (carding ph).crownDesc = some (jr, d, g) ∧ (d.is .cerShare && d.fld 24 1 == 0) = false) ∧
    (cardJ (.rd 0)).phase.isSd = true ∧ ∀ n, (cardJ (.rd 0)).phase ≠ .wrBusy n :=
  ⟨fun _ => rfl, fun _ => ⟨_, _, _, rfl, by decide⟩, rfl, fun _ => by simp [cardJ]⟩

theorem wit_StartEvents_resets : dark.start.stage = 0 ∧ live.start.stage ≠ 0 ∧ live.start.stage ≠ 1 ∧ 3 ≤ live.start.stage ∧
    (∃ b t, live.freshBytes 1 = (b, t)) ∧ (0x4B56 : BitVec 16) ≠ 0x4B57 := ⟨rfl, by decide, by decide, by decide, ⟨_, _, rfl⟩,
  by decide⟩
theorem wit_StartEvents_s2 : (stage 1).start.stage = 1 ∧ (stage 1).nvm.recalling = false := by decide
theorem wit_StartEvents_vid : 2 ≤ (stage 2).start.stage ∧
    ({ stage 2 with glb := { vid := 39 } } : State).glb.vid.toNat < 40 ∧
    ({ stage 2 with glb := { vid := 1 } } : State).glb.vid ≠ 0 ∧ (stage 2).battery.intOsc = false := by decide
/-- A start at step `x`, with the DRK still to be drawn. -/
def startS (x : Step) : State := { stage 2 with start := { (stage 2).start with running := [⟨x.code, 1, 0⟩] } }
theorem wit_StartEvents_wipe : (startS .lcsWipe).nvmOutput.1 = true ∧ (startS .lcsWipe).nvmOutput.2.nvm.tripped = false ∧
    ({ startS .lcsWipe with nvm := { (startS .lcsWipe).nvm with tripped := true } } : State).nvmOutput.2.nvm.tripped = true ∧
    (barred (twins .standby)).nvmOutput.1 = false := by decide
theorem wit_StartEvents_steps : (∃ r, (startS .entropy).stepRuns .entropy = some r) ∧
    (∃ r, (startS .lcsWipe).stepRuns .lcsWipe = some r) := ⟨⟨_, rfl⟩, ⟨_, rfl⟩⟩
set_option maxRecDepth 20000 in
theorem wit_StartEvents_drk : ∃ u v r b re, (startS .keys).stepRuns .keys = some r ∧
    (startS .keys).draw 0 32 false = .ok b re v ∧
    u = ({ v with battery := { v.battery with drk := some b } } : State).endKeys true ∧ u.stepRuns .keys = none :=
  ⟨_, _, _, _, _, rfl, rfl, rfl, rfl⟩

/-- `live` with facet 15 in state `x`. -/
def fctS (x : FctSt) : State := { live with start := { live.start with facets := [(15, x)] } }
theorem wit_FacetEvents_bist : (fctS .bist).fctState (15 : Fin 16) = .bist := by decide
/-- All four clusters trained at the highest rate. -/
def trained : Training := ⟨some 2, 15, 0, 0, 0⟩
theorem wit_FacetEvents_gddr : (∃ r, (startS .gddr6).stepRuns .gddr6 = some r ∧ r.method = 0) ∧ trained.trained = 15 ∧
    trained.rate = some 2 ∧ ∃ r, ({ stage 2 with start := { (stage 2).start with running := [⟨Step.gddr6.code, 1, 1⟩] } } :
      State).stepRuns .gddr6 = some r ∧ r.method ≠ 0 := ⟨⟨_, rfl, rfl⟩, rfl, rfl, _, rfl, by decide⟩
theorem wit_FacetEvents_control : 3 ≤ live.start.stage ∧
    (∀ x ∈ [FctSt.inService, .narrow, .fencedSoft, .fencedStart, .fencedAlarm],
      (fctS x).fctState (15 : Fin 16) = x ∧ (fctS x).stageBars (0x30000 + 0x1000 * (15 : Fin 16).val) = false) := by
  decide

/-! The ring engine and the control of rings. -/

/-- `live` with ring 511, of function 31, as `x`. -/
def lastRing (x : Ring) : State := { live with fns := [(31, { db := 0x1000 })], rings := [(511, x)] }
theorem wit_RingEngineEvents_poll : ((lastRing { st := .running }).fn (31 : Fin 32)).polling = false ∧
    (lastRing { st := .running }).fnServed (31 : Fin 32) = true ∧
    (ringsOf (31 : Fin 32)).any (lastRing { st := .running }).ringPolled = true ∧
    (({ live with fns := [(31, { db := 0x1000, polling := true })] } : State).fn (31 : Fin 32)).polling = true := by
  decide
set_option maxRecDepth 20000 in
theorem wit_RingEngineEvents_polled : (({ live with fns := [(31, { db := 0x1000, polling := true })] } : State).hostStores
    {}).hostFetch {} 0x1000 128 = .ok (zeros 128) := rfl
/-- P a whole ring beyond W, one beyond that, and P behind F. -/
theorem wit_RingEngineEvents_range : (lastRing { st := .running }).ringPolled 511 = true ∧
    ((64 : Word32) - ({} : Ring).w).toNat ≤ ({} : Ring).size ∧ ((64 : Word32) - ({} : Ring).f).toNat ≤ ({} : Ring).size ∧
    ({} : Ring).size < ((65 : Word32) - ({} : Ring).w).toNat ∧ ({} : Ring).size < ((0 : Word32) - (1 : Word32)).toNat := by
  decide
/-- Sixteen descriptors up to the end of the ring. -/
def toFetch : Ring := { st := .running, f := 48, w := 48, p := 70 }
theorem wit_RingEngineEvents_fetch : (lastRing toFetch).ringPolled (511 : Fin 512) = true ∧
    (lastRing toFetch).fnServed (fnOf (511 : Fin 512)) = true ∧
    ((lastRing toFetch).ring (511 : Fin 512)).reads = [] ∧
    min (min (toFetch.p - toFetch.f).toNat 16) (min (toFetch.size - toFetch.f.toNat % toFetch.size)
      (64 - toFetch.undispatched)) = 16 ∧ (toFetch.p - toFetch.f).toNat ≤ toFetch.size := by decide
set_option maxRecDepth 20000 in
theorem wit_RingEngineEvents_fetched :
    ((lastRing { toFetch with reads := [⟨63, 1⟩] }).ring (511 : Fin 512)).reads = ⟨63, 1⟩ :: [] ∧
    (((lastRing { toFetch with reads := [⟨63, 1⟩] }).hostStores {}).ring (511 : Fin 512)).st = .running ∧
    ((lastRing { toFetch with reads := [⟨63, 1⟩] }).hostStores {}).hostFetch {} (0 + 64 * (63 % 64)) (64 * 1) =
      .ok (zeros 64) := ⟨rfl, rfl, rfl⟩
theorem wit_RingEngineEvents_work : (∃ r w u, (working (workOf .sdInfo (mk 0 []) .fetched none)).nextWork = some (r, w) ∧
      (working (workOf .sdInfo (mk 0 []) .fetched none)).scanFinds w.desc = ([], u)) ∧
    ((((working (workOf .sdInfo (mk 0 []) .reading none)).ring (0 : Fin 512)).work.filter fun w => w.phase == .reading)[0]? =
      some (workOf .sdInfo (mk 0 []) .reading none) ∧
      Op.decode (workOf .sdInfo (mk 0 []) .reading none).desc.opcode = some .sdInfo) ∧
    (working (workOf .sdInfo (mk 0 []) .fetched none)).hif.schedAge ≠ 0 ∧
    (((working (workOf .sdInfo (mk 0 []) .fetched none)).ring (0 : Fin 512)).work.filter fun w => w.phase == .fetched)[0]? =
      some (workOf .sdInfo (mk 0 []) .fetched none) := ⟨⟨_, _, _, rfl, rfl⟩, ⟨rfl, rfl⟩, by decide, rfl⟩
/-- A message of 32 bytes at its first segment of 16, on lane 7 of facet 15. -/
def laneC : CipherSt :=
  { op := 0x0101, ctl := 0, key := 0x10000000, tagLen := 0, iv := zeros 16, aadLen := 0, duLen := 0, ctrWidth := 0,
    expTag := [], chain := [], pend := [], acc := [], ct := [], declared := 32, consumed := 0, invCharged := 0,
    blocksCharged := 0 }
def laneM : Msg := { capMsg with kind := .cipher laneC, st := .onLane 7 16, held := false, inLen := 32, ins := [⟨0x8000, 32, none⟩] }
def laneS : State := { live with facets := [(15, { msgs := [laneM] })] }
theorem wit_RingEngineEvents_segment : laneS.onLane (15 : Fin 16) (7 : Fin 8) = some (laneM, 16) ∧
    laneM.kind = .cipher laneC ∧ laneM.held = false ∧ laneM.aborted = false ∧ laneM.pos + 16 < laneM.inLen ∧
    (laneS.hostStores {}).gather {} laneM.ins 0 laneM.pos 16 = .ok (zeros 16) := ⟨rfl, rfl, rfl, rfl, by decide, rfl⟩
set_option maxRecDepth 20000 in
theorem wit_RingEngineEvents_interrupts : ((lastRing { timing := true }).ring (511 : Fin 512)).timing = true ∧
    live.fnExists (31 : Fin 32) = true ∧
    (let s : State := { live with fns := [(31, { msixPend := 2 ^ 63 })] }
     let u := s.modFn 31 (fun x => { x with msixMask := x.msixMask &&& ~~~BitVec.ofNat 64 (2 ^ 63) })
     (u.fn 31).d3hot = false ∧ (u.fn 31).msixPend.getLsbD 63 = true ∧ (u.fn 31).msixPend.getLsbD 0 = false) := by decide
theorem wit_RingControl_functions : live.fnExists (30 : Fin 32) = true ∧ live.fnExists (31 : Fin 32) = true ∧
    ({ live with link := { numVfs := 29 } } : State).fnExists (30 : Fin 32) = false := by decide
theorem wit_RingControl : 3 ≤ live.start.stage ∧ fnOf (511 : Fin 512) = (31 : Fin 32).val ∧
    (∀ x ∈ [RingState.disabled, .stopped, .running, .stopping], ((lastRing { st := x }).ring (511 : Fin 512)).st = x) ∧
    (30 : Fin 32) ≠ 0 ∧ fnOf (511 : Fin 512) ≠ (30 : Fin 32).val := by decide

/-! The link, the mailbox and sessions. -/

/-- The link up, and its reset released. -/
def linkS : State :=
  let l : Link := { dlUp := true, perst := false, width := 16, rate := 6, versioned := true, capable := true }
  { live with link := { l with negotiated := true, doeBusy := false, ide := [(4, { secure := true })] } }
set_option maxRecDepth 20000 in
theorem wit_LinkEvents : 2 ≤ linkS.start.stage ∧ linkS.link.perst = false ∧ linkS.link.dlUp = true ∧
    linkS.linkLoss.link.perst = false ∧
    ({ linkS with link := { linkS.link with dlUp := false } } : State).link.dlUp = false ∧
    (∀ w ∈ [4, 8, (16 : BitVec 6)], w = 4 ∨ w = 8 ∨ w = 16) ∧ linkS.link.rate ≠ 1 ∧ 1 ≤ (6 : BitVec 4).toNat ∧
    (6 : BitVec 4).toNat ≤ 6 ∧ (linkS.ide (4 : Fin 5)).secure = true := by decide
theorem wit_LinkEvents_fn : 3 ≤ linkS.start.stage ∧ linkS.fnExists (31 : Fin 32) = true ∧
    (({ linkS with fns := [(31, { d3hot := true })] } : State).fn (31 : Fin 32)).d3hot = true := by decide
theorem wit_MailboxLimits : 3 ≤ linkS.start.stage ∧ linkS.link.perst = false ∧ (⟨65536, none⟩ : DoeReq).len ≤ 65536 ∧
    65536 < (⟨65537, none⟩ : DoeReq).len ∧ ∃ t, exec (.getVersion ⟨65536, none⟩) linkS = .next t :=
  ⟨by decide, by decide, by decide, by decide, _, rfl⟩
theorem wit_DoeMessages : 3 ≤ linkS.start.stage ∧ linkS.link.perst = false ∧ (⟨65536, none⟩ : DoeReq).len ≤ 65536 ∧
    65536 < (⟨65537, none⟩ : DoeReq).len ∧ linkS.link.versioned = true ∧ linkS.link.capable = true ∧
    linkS.link.negotiated = true ∧
    ({ linkS with link := { perst := false } } : State).link.versioned = false ∧
    ({ linkS with link := { perst := false } } : State).link.negotiated = false := by decide

/-- The record of a certificate chain. -/
def chainName : RecName := .sys 0x06 0
def chainNvm : Nvm := nvmOf chainName (recBytes chainName 6 [1, 2] 1 0)
/-- A device that can answer a challenge and open a session. -/
def spdmS : State := { linkS with
  nvm := chainNvm, life := { current := .test, idKey := some (zeros 32) }, link := { linkS.link with keyed := true }
  signet := { drbgs := [(0, { instantiated := true }), (1, { instantiated := true })] } }
theorem chain_copy0 : chainNvm.copy chainName 0 =
    recCopy 65 (((List.range 65).map fun k => slice (recBytes chainName 6 [1, 2] 1 0) (256 * k) 256).flatten) := nvmOf_copy0 _ _
set_option maxRecDepth 20000 in
theorem chain_copy1 : chainNvm.copy chainName 1 = recCopy 65 (zeros 16640) := by
  have h : chainNvm.copyBytes chainName 1 = (List.replicate 65 (zeros 256)).flatten := rfl
  rw [Nvm.copy, h, show (List.replicate 65 (zeros 256)).flatten = zeros 16640 from by
    simp only [zeros, List.flatten_replicate_replicate]]
  rfl
theorem chain_held : spdmS.certChain 0 = some [1, 2] := by
  have h := chain_copy0
  rw [flatten_pages (p := 65) (length_recBytes chainName 6 [1, 2] 1 0 (by decide))] at h
  have h2 := recCopy_recBytes chainName 6 [1, 2] 1 0 (by decide) (by decide) (by decide) (by decide)
    (by decide) (by decide)
  rw [show recPages chainName = 65 from rfl] at h2
  rw [h2] at h
  have e : spdmS.nvm.record chainName =
      recChoose true ⟨6, 2, 1, 0, [1, 2], true, false⟩ ⟨0, 0, 0, 0, [], false, true⟩ := by
    rw [Nvm.record, show spdmS.nvm = chainNvm from rfl, h, chain_copy1, recCopy_zeros]
    rfl
  rw [chainName] at e
  rw [State.certChain, e]
  decide
theorem chain_bumped : (spdmS.bump 24 6 1).certChain (0 : BitVec 4).toNat = some [1, 2] := by
  have e : (spdmS.bump 24 6 1).nvm = spdmS.nvm := rfl
  have h := chain_held
  rw [State.certChain] at h ⊢
  rw [e]
  exact h
theorem wit_DoeMessages_chain : (spdmS.bump 24 6 1).certChain (0 : BitVec 4).toNat = some [1, 2] ∧
    (1 : BitVec 16).toNat < [1, 2].length ∧ spdmS.life.idKey ≠ none ∧ linkS.life.idKey = none ∧
    (6 : Byte).toNat ≤ 6 ∧ (255 : Byte).toNat = 255 := ⟨chain_bumped, by decide⟩
theorem wit_SessionMessages_exchange : spdmS.link.negotiated = true ∧ spdmS.link.keyed = true ∧ linkS.link.keyed = false ∧
    ((spdmS.bump 24 6 1).certChain (0 : BitVec 4).toNat).isSome = true ∧ spdmS.link.sessions.length < 4 ∧
    spdmS.life.idKey.isSome = true := ⟨rfl, rfl, rfl, by rw [chain_bumped]; rfl, by decide, rfl⟩
/-- `spdmS` with a job at `step`, and a crown request of it on signet engine 7. -/
def jobS (step : SpdmStep) (eph : Bytes) : State := { spdmS with
  link := { spdmS.link with job := some { number := 1, step := step, kind := 0x64, data := [], peer := [], hash := [], eph := eph } }
  signet := { spdmS.signet with engines := [(7, { busy := some { client := .spdm 1, lattice := false, scheme := 2 } })] } }
/-- Four sessions, the last with number 3. -/
def sess (fin : Bool) : State :=
  { spdmS with link := { spdmS.link with sessions := (List.range 4).map fun n => ⟨n, fin, [], 0⟩ } }
theorem wit_SessionMessages_full : 4 ≤ (sess true).link.sessions.length ∧ (sess true).link.negotiated = true ∧
    (((sess true).bump 24 6 1).certChain (0 : BitVec 4).toNat).isSome = true :=
  ⟨by decide, rfl, by
    have e : ((sess true).bump 24 6 1).nvm = spdmS.nvm := rfl
    have h := chain_held
    rw [State.certChain] at h ⊢
    rw [e]
    exact congrArg Option.isSome h⟩
theorem wit_SessionMessages : (∃ y, ((sess true).bump 24 6 1).session (some 3) = some y ∧ y.finished = true) ∧
    (∃ y, ((sess false).bump 24 6 1).session (some 3) = some y ∧ y.finished = false) ∧
    ((sess true).bump 24 6 1).session none = none ∧ ((sess true).bump 24 6 1).session (some 4) = none :=
  ⟨⟨_, rfl, rfl⟩, ⟨_, rfl, rfl⟩, rfl, by decide⟩
/-- An IDE stream with all six keys of set 1, in use or not. -/
def fullIde (secure : Bool) : IdeStream := { keys := (List.range 6).map fun k => (6 + k, []), set := 1, secure := secure }
theorem wit_SessionMessages_ide : (fullIde true).full (1 : Fin 2) = true ∧
    ((fullIde true).set ≠ (0 : Fin 2).val ∧ (fullIde true).secure = true) ∧ (fullIde true).set = (1 : Fin 2).val ∧
    (fullIde false).secure = false := by decide

/-! Twin crowns. -/

/-- Crown A active under claim 1, crown B in state `st`; causes `due`. -/
def pair (st : CrownSt) (due : List Nat) : State := { live with crowns := {
  a := { st := .active, claim := 1 }, b := { st := st, claim := 1 }, due := due
  clasps := List.replicate 4 { claimHi := 1, holder := some false } } }
/-- Claims at, above and below the clasp's, by its holder and by the other crown, and both at once. -/
theorem wit_ClaspTable : 2 ≤ (pair .standby []).start.stage ∧
    (((pair .standby []).crown false).claim = ((pair .standby []).clasp (3 : Fin 4)).claimHi ∧
      ((pair .standby []).clasp (3 : Fin 4)).holder = some false) ∧
    (((pair .standby []).crown true).claim = ((pair .standby []).clasp (3 : Fin 4)).claimHi ∧
      ((pair .standby []).clasp (3 : Fin 4)).holder ≠ some true) ∧
    ({} : Clasp).claimHi.toNat < ((pair .standby []).crown true).claim.toNat ∧
    (0 : BitVec 16).toNat < ((pair .standby []).clasp (3 : Fin 4)).claimHi.toNat ∧
    (pair .standby []).crowns.a.claim = (pair .standby []).crowns.b.claim ∧
    ((pair .standby []).clasp (3 : Fin 4)).claimHi.toNat ≤ (pair .standby []).crowns.a.claim.toNat := by decide
theorem wit_CrownEvents_standby : 2 ≤ (pair .standby []).start.stage ∧ (pair .standby []).otherCrown.st = .standby ∧
    (pair .standby []).takeOk = true ∧ (pair .out []).takeOk = false ∧ (2 : Fin 3).val + 1 ∈ (pair .standby [3]).crowns.due ∧
    (pair .standby [3]).takeOk = true ∧ (pair .standby [3]).crowns.due ≠ [] ∧ (pair .standby []).otherCrown.st ≠ .out ∧
    (0 : Nat) < max 2 (pair .standby []).crowns.miss.toNat ∧ max 2 (pair .standby []).crowns.miss.toNat ≤ 3 := by decide
theorem wit_CrownEvents_tests : (∀ x ∈ [CrownSt.standby, .unfit, .starting], ((pair x []).crown true).st = x) ∧
    (pair .standby []).otherCrown.report = (pair .standby []).crowns.standbySeen ∧
    (pair .standby []).crowns.standbyStale < 3 ∧
    ({ pair .standby [] with crowns := { (pair .standby []).crowns with standbySeen := 1 } } : State).otherCrown.report ≠ 1 := by
  decide
/-- Crown B active, and 65,534 the highest claim. -/
def lastClaim (b : Bool) : State := { live with crowns := {
  a := { st := if b then .standby else .active, claim := 65534 }, b := { st := if b then .active else .standby, claim := 65534 }
  activeB := b, due := [3], clasps := List.replicate 4 { claimHi := 65534, holder := some b } } }
theorem wit_CrownEvents_seize : (∀ b ∈ [true, false], (lastClaim b).takeOk = true ∧ (lastClaim b).crowns.due ≠ []) ∧
    higherClaim (!true) ((lastClaim true).claimHi + 1) = none ∧
    higherClaim (!false) ((lastClaim false).claimHi + 1) = some 65535 ∧
    higherClaim (!true) ((pair .standby [3]).claimHi + 1) = some 3 ∧ (3 : Fin 4).val < (lastClaim true).crowns.clasps.length := by
  decide
/-- Pages that nothing has written hold no record, and no image: the patch areas stay empty. -/
theorem copy_blank (n : Nvm) (name : RecName) (k : Nat)
    (h : ∀ i < recPages name, n.page (recFirst name k + i) = zeros 256) :
    n.copy name k = recCopy (recPages name) (zeros (recPages name * 256)) := by
  rw [Nvm.copy, Nvm.copyBytes, List.map_congr_left (g := fun _ => zeros 256) fun i hi => h i (by simpa using hi)]
  simp only [zeros, List.map_const', List.length_range, List.flatten_replicate_replicate]
theorem blank_copy (n : Nvm) (h : n.pages = []) (name : RecName) (k : Nat) :
    n.copy name k = recCopy (recPages name) (zeros (recPages name * 256)) :=
  copy_blank n name k fun i _ => by rw [Nvm.page, h]; rfl
theorem blank_image (n : Nvm) (h : n.pages = []) : n.patchImage = some [] := by
  rw [Nvm.patchImage, Nvm.record, blank_copy n h, blank_copy n h, recCopy_zeros]
  rfl
/-- The standby's patch area is, and is not, the stored image. -/
theorem wit_CrownEvents_patch : (pair .standby []).nvm.patchImage = some ((pair .standby []).crown true).area ∧
    (pair .standby []).nvm.patchImage ≠ some ({ ((pair .standby []).crown true) with area := [1] } : Crown).area ∧
    ((pair .standby []).crown false).st = .active :=
  ⟨blank_image _ rfl, by rw [blank_image _ rfl]; decide, rfl⟩
theorem wit_CrownEvents_rejoin : ({ pair .out [] with crowns := { (pair .out []).crowns with rejoinDue := true } } :
    State).crowns.rejoinDue = true ∧ (pair .out []).otherCrown.st = .out ∧ (pair .unfit []).otherCrown.st = .unfit := by
  decide
theorem wit_TakeoverMade : (pair .standby [1]).crowns.journal = none ∧ (∀ e, e < 4 → ((pair .standby [1]).eng e).inv = none) ∧
    (3 < 4 ∧ 3 < (pair .standby [1]).crowns.clasps.length) := by decide

/-! Registers, management and whole properties. -/

theorem wit_ManagementAccess_reads : 3 ≤ live.start.stage ∧ live.fnExists (31 : Fin 32) = true ∧
    (0x1FFFFFF : BitVec 25).toNat % 4 ≠ 0 ∧ placeOf (31 : Fin 32) (0xEFFC : BitVec 25).toNat = .barred ∧
    placeOf (0 : Fin 32) (0x1FFFFC : BitVec 25).toNat = .mirror 0xFFFFC ∧
    placeOf (31 : Fin 32) (0x1FC : BitVec 25).toNat = .reg (0x20000 + 0x200 * 31 + 0x1FC) ∧
    placeOf (0 : Fin 32) (0x60018 : BitVec 25).toNat = .reg 0x60018 ∧ latchOf 0x60018 = some 0x6001C ∧
    isLatched 0x60018 = false ∧ isLatched 0x6001C = true ∧ isLatched 0x8 = false ∧ latchOf 0x8 = none ∧ live.lcs = .test := by
  decide
theorem wit_ManagementAccess_debug : live.scopeOpen 0 = true ∧ live.scopeOpen 1 = true ∧
    (knaquelScope .trace).any live.scopeOpen = true ∧ (knaquelScope .keySlots).any live.scopeOpen = false ∧
    (knaquelScope .contexts).any (prod none).scopeOpen = false := by decide
theorem wit_ManagementAccess_buses : 2 ≤ live.start.stage ∧ live.scopeOpen 2 = true ∧ (prod none).scopeOpen 2 = false ∧
    (∃ b t, live.freshBytes 16 = (b, t)) ∧ (∃ b t, live.freshBytes 4 = (b, t)) ∧ ∃ b t, live.freshBytes 64 = (b, t) :=
  ⟨by decide, by decide, by decide, ⟨_, _, rfl⟩, ⟨_, _, rfl⟩, _, _, rfl⟩
theorem wit_HallmarksAfterStart : (dark.start.stage = 0 ∧ ∃ t, exec .keeperPor dark = .next t) ∧
    (live.start.stage ≠ 0 ∧ ∃ t, exec .sysResetN live = .next t) ∧ (∃ t, exec (.pwrGoodFall true) live = .next t) ∧
    (∃ t, exec (.pwrGoodFall false) live = .next t) ∧ (∃ t, exec (.resetWhole 0 0x4B57) live = .next t) :=
  ⟨⟨rfl, _, rfl⟩, ⟨by decide, _, rfl⟩, ⟨_, rfl⟩, ⟨_, rfl⟩, _, rfl⟩
theorem wit_PortFrames : live.vault.flaws = [] ∧ (∃ t, exec (.pipArm 0 0 0 {}) live = .next t) ∧
    ∃ t, exec (.getVersion ⟨0, none⟩) linkS = .next t :=
  ⟨rfl, ⟨_, rfl⟩, _, rfl⟩

/-! More clauses of the statements, each at a state that meets it. -/

/-- A request of signet engine 11, drawn with `rnd`. -/
def reqSig (c : Client) (rnd : Bytes) : SigReq := { client := c, lattice := false, scheme := 2, rnd := rnd }
/-- Signing by slot 6 under ECDSA P-384, Ed25519 and RSA-2048. -/
def signBy (c n : Byte) : Post :=
  mk 5 [(16, leBytes 4 (slotHandle 6)), (20, [c]), (21, [2]), (32, buf 0x8000 5), (48, buf 0x9000 n.toNat)]
theorem wit_EngineTurns_charge : live.drawNeed (reqOf (.crown 1)) = 0 ∧ (reqOf (.crown 1)).charged = false ∧
    live.chargeRequest (reqOf (.crown 1)) = (live, true) := ⟨rfl, rfl, rfl⟩
/-- A nonce of zero is drawn again. -/
theorem wit_EngineTurns_retry : sigOf live (postDesc .sigSign (signBy 2 96)) (reqSig (.desc 0 5) (zeros 48)) = none ∧
    (postDesc .sigSign (signBy 2 96)).is .sigVerify = false := by decide
theorem wit_EngineTurns_fails :
    (∃ b, sigOf live (postDesc .sigSign (signBy 3 64)) (reqSig (.desc 0 5) []) = some b) ∧
    isRsa ((postDesc .sigSign (signBy 3 64)).fld 20 1) = false ∧
    (∃ b, sigOf live (postDesc .sigSign (signBy 0x10 255)) (reqSig (.desc 0 5) []) = some b) ∧
    isRsa ((postDesc .sigSign (signBy 0x10 255)).fld 20 1) = true := ⟨⟨_, rfl⟩, by decide, ⟨_, rfl⟩, by decide⟩
/-- Ring 0 aborted while its descriptor 5 is on engine 11. -/
def lostOp : State := { busyWith live (reqSig (.desc 0 5) (1 :: zeros 47)) with
  rings := [(0, { st := .stopping, cause := 2, f := 1, work := [workOf .sigVerify verifyP .active none] })] }
/-- An RSA key with exponent 3, and a signature of zeros. -/
def rsaReq : SigReq := { reqSig (.desc 0 5) [] with
  input := 1 :: (zeros 254 ++ [1, 0, 0, 0, 3] ++ zeros 256), desc := some (postDesc .sigVerify (signBy 0x10 0)) }
theorem wit_EngineTurns_aborted : (lostOp.engine (11 : Fin 12)).busy = some (reqSig (.desc 0 5) (1 :: zeros 47)) ∧
    DrawWait.engine 11 ∉ lostOp.signet.waits ∧ lostOp.ringAborted 0 = true ∧ ((lostOp.ring 0).find 5).isSome = true ∧
    lostOp.signatureOf (reqSig (.desc 0 5) (1 :: zeros 47)) = some [] := by decide
set_option maxRecDepth 20000 in
theorem wit_EngineTurns_lost : pubValid 0x10 (rsaReq.input.take (schemePub 0x10)) = true ∧
    verifyWord (postDesc .sigVerify (signBy 0x10 0)) rsaReq (some 1) = 1 ∧
    rsaBad live (postDesc .sigSign (signBy 0x10 255)) (reqSig (.desc 0 5) []) [] true = true ∧
    rsaBad live (postDesc .sigSign (signBy 3 64)) (reqSig (.desc 0 5) []) [] true = false := by
  refine ⟨by decide, ?_, by decide⟩
  have h : ∀ c : Option (Bytes × Bytes), c.isSome = true → sigVerdict c (some 1) = 1 := fun c hc => by
    cases c <;> first | rfl | cases hc
  refine h (rsaComparands 256 2 false _ _ _) ?_
  unfold rsaComparands
  decide
/-- The crown at work on descriptor 5 of ring 0, its bytes `b`, and its request on engine 11. -/
def crowning (o : Op) (p : Post) (b : Bytes) (w : CrownWait) : State :=
  let s := busyWith (working (workOf o p .active (some ([], [], b)))) (reqSig (.crown 1) [])
  { s with crowns := { s.crowns with journal := some { ring := 0, seq := 5, tag := 7, opcode := o.code, number := 1, wait := w } } }
/-- Scalars that make a key, and one that does not. -/
theorem wit_EngineTurns_made : ((crowning .keyGenerate genP (zeros 32) .engine).engine 11).busy = some (reqSig (.crown 1) []) ∧
    DrawWait.engine 11 ∉ (crowning .keyGenerate genP (zeros 32) .engine).signet.waits ∧
    (∃ j, (crowning .keyGenerate genP (zeros 32) .engine).crownDesc =
      some (j, postDesc .keyGenerate genP, ([], [], zeros 32)) ∧ j.wait = .engine ∧ j.number = 1) ∧
    madeOk 0x10 (1 :: zeros 31) = true ∧ madeOk 0x10 (zeros 32) = false ∧
    curve384.scalarOk (1 :: zeros 47) = true ∧ curve384.scalarOk (zeros 48) = false ∧
    Op.lcsDebugGrant.code ∉ [Op.keyGenerate.code, Op.keyDecapsulate.code, Op.provIdkey.code] :=
  ⟨rfl, by decide, ⟨_, rfl, rfl, rfl⟩, by decide⟩

theorem wit_EntropyUnit_waits : (∀ x ∈ [(0, DrawWait.spdm), (0, .drk), (3, .inst3), (1, .engine 11)],
      ((entS .running 0 [x.2]).signet.waits.find? fun w => w.inst == x.1) = some x.2) ∧
    ((((busyWith (entS .running 0 [.engine 11]) (reqOf (.desc 0 5))).unwait (.engine 11)).drawFail 1).engine 11).busy =
      some (reqOf (.desc 0 5)) := by decide
theorem wit_EntropyUnit_block : ∃ b t, (entS .running 0 []).freshBytes 128 = (b, t) := ⟨_, _, rfl⟩

/-- The last entry's pip entry fails its check, and its vault entry has failed. -/
def lostS : State :=
  let x := vaulted .active { checkErr := 1 }
  { x with vault := { x.vault with entries := [(0xFFFFF, { failed := true })] } }
theorem wit_VaultEvents_read : (∃ r, (vaulted .active { checkErr := 1 }).readEntry 0xFFFFF = (r, true)) ∧
    (lostS.pipe 0xFFFFF).checkErr ≠ 0 ∧ ∃ r, lostS.readEntry 0xFFFFF = (r, false) := ⟨⟨_, rfl⟩, by decide, _, rfl⟩
theorem wit_VaultEvents_key : (capturing lastEntry).msg (0 : Fin 16) 0 = some capMsg ∧ capMsg.st = .fetching ∧
    (∃ c, capMsg.kind = .capture c ∧ c.ekey = [] ∧ c.endpoint = 0xFFFFF) ∧
    (∃ r, ((capturing { lastEntry with failed := true }).bump 18 0 1).readEntry 0xFFFFF = (r, false)) ∧
    (∃ r, ((capturing {}).bump 18 0 1).readEntry 0xFFFFF = (r, true) ∧ (r.ventry 0xFFFFF).st = .empty) ∧
    (∃ r, ((capturing { lastEntry with st := .revoked }).bump 18 0 1).readEntry 0xFFFFF = (r, true) ∧
      (r.ventry 0xFFFFF).st = .revoked) := ⟨rfl, rfl, ⟨_, rfl, rfl, rfl⟩, ⟨_, rfl⟩, ⟨_, rfl, rfl⟩, _, rfl, rfl⟩

theorem wit_TamperCommands_events : live.start.stage ≠ 0 ∧ live.eventOk ⟨14, 0, 0, none, 0, false⟩ = true ∧
    live.eventOk ⟨19, 0, 0, none, 0, false⟩ = false := by decide
/-- Requests on engine 11 whose check a `BUS_INTEGRITY` event may name: a strand's, and an SPDM answer's. -/
def ownedS (c : Client) : State := { busyWith stranded (reqOf c) with
  link := { live.link with job := some { number := 1, step := .sign, kind := 3, data := [], peer := [], hash := [] } } }
theorem wit_TamperCommands_owners :
    (∃ s1, (ownedS (.strand 0 1 true)).dropRequest (.strand 0 1 true) = some s1) ∧
    (ownedS (.strand 0 1 true)).strand 0 1 = some (strand1 0 [1]) ∧
    (ownedS (.spdm 1)).link.job.map (·.number) = some 1 ∧ (∃ s1, (ownedS (.spdm 1)).dropRequest (.spdm 1) = some s1) ∧
    Status.entropyFail ≠ .done := ⟨⟨_, rfl⟩, rfl, rfl, ⟨_, rfl⟩, by decide⟩
/-- R625, R662: 121.5 °C lies above `HIGH` 120 °C and 120 °C does not; a rail that falls once `PWR_GOOD` has fallen gives
no event, one above its `HIGH` does (Example 13-1, R661). -/
theorem test_event_windows : live.eventOk ⟨9, 5, 972, none, 0, false⟩ = true ∧ live.eventOk ⟨9, 5, 960, none, 0, false⟩ = false ∧
    ({ live with start := { live.start with pwrGood := false } } : State).eventOk ⟨10, 0, 599, none, 0, false⟩ = false ∧
    ({ live with start := { live.start with pwrGood := true } } : State).eventOk ⟨10, 0, 599, none, 0, false⟩ = true ∧
    live.eventOk ⟨10, 0, 901, none, 0, false⟩ = true ∧ live.eventOk ⟨12, 1, 1380000, none, 0, false⟩ = true ∧
    live.eventOk ⟨12, 1, 1470000, none, 0, false⟩ = false := by decide

/-- In TEST, the memory test at word `w` of target `t`. -/
def mtestS (t : Nat) (w : Word32) (write : Bool) : State :=
  lcsS { current := .test, mtWrite := write, mtTarget := t, mtAddr := w }
theorem wit_FactoryAndRecordEvents_words : 1048576 ≤ (mtestS 1 1048576 true).life.mtAddr.toNat ∧
    (mtestS 5 0 true).life.mtTarget ≠ 1 ∧ ¬((mtestS 5 0 true).life.mtTarget = 0 ∧ Config.sramHidden 0 = true) ∧
    (∃ v, (mtestS 1 1048575 false).mtestWord 1 1048575 = some v) ∧
    (lcsS { current := .test, mbBusy := true }).life.mbBusy = true :=
  ⟨by decide, by decide, fun h => absurd h.1 (by decide), ⟨_, rfl⟩, rfl⟩
theorem wit_FactoryAndRecordEvents_timeout : (∃ j, (crowning .cerShare (mk 0 []) [] .card).crowns.journal = some j ∧
      0x810 ≤ j.opcode.toNat ∧ j.opcode.toNat ≤ 0x813) ∧
    (∃ j, (crowning .keyScrub (mk 0 []) [] .clearing).crowns.journal = some j ∧ j.opcode.toNat < 0x810) ∧
    (⟨1, 0, 0⟩ : Grant).duration = 0 := ⟨⟨_, rfl, by decide⟩, ⟨_, rfl, by decide⟩, rfl⟩
/-- A write of page `p`, of a kind. A spare takes over the last page; page 3034, of the remap record, has none. -/
def pageS (k : PageKind) (p : Nat) : State :=
  { live with nvm := { recalling := false, writing := some { pageW with kind := k, page := p } } }
set_option maxRecDepth 20000 in
theorem wit_FactoryAndRecordEvents_kinds :
    (∀ k ∈ [PageKind.other, .arm 15 511, .record 1 true, .rollback true, .job 1 true, .remap 1 true, .clear 15 true,
        .refresh false], (pageS k 32767).nvm.writing = some { pageW with kind := k, page := 32767 }) ∧
    (pageS .other 32767).nvm.moving = [] ∧ isRemapPage 32767 = false ∧ (∀ l, pageW.kind ≠ .refresh l) ∧
    (∀ l, pageW.kind ≠ .moved l) ∧ (∀ o, pageW.kind ≠ .ledger o) ∧ ∃ b t, live.freshBytes 256 = (b, t) :=
  ⟨by decide, rfl, by decide, by simp [pageW], by simp [pageW], by simp [pageW], _, _, rfl⟩
set_option maxRecDepth 20000 in
/-- Spares of the last bank: all free, and all taken. -/
theorem wit_FactoryAndRecordEvents_spares : (pageS .other 32767).nvm.freeSpare 32767 = some 0 ∧
    ({ remap := (List.range 256).map fun k => (remapEntry 32767 k, some 0) } : Nvm).freeSpare 32767 = none := by
  refine ⟨rfl, ?_⟩
  decide
/-- The first write of the remap record is numbered 1. -/
theorem wit_FactoryAndRecordEvents_remap (m : Bytes) :
    (((pageS .other 32767).noteTie (.sys 0x0C 0)).planRec (.sys 0x0C 0) 0x0C m).seq < 2 ^ 32 := by
  obtain ⟨n, v, y, r, h⟩ := noteTie_frame (pageS .other 32767) (.sys 0x0C 0)
  rw [h, State.planRec, Nvm.nextSeq, Nvm.record, blank_copy _ rfl, blank_copy _ rfl, recCopy_zeros]
  show (1 : Nat) < 2 ^ 32
  decide
theorem wit_FactoryAndRecordEvents_trip : (pageS .other 32767).nvm.tripped = false ∧
    ((pageS .other 32767).nvm.writing).isSome = true ∧
    (∀ b ∈ [CntBlock.nvm, .crd, .apl, .fct 15, .clu 3], (fctS .inService).stageBars (cntAddr b) = false) := by decide

theorem wit_Snapshots_late : ((snapping [0]).snp.run = some (snapRun [0])) ∧ twf 0 (snapRun [0]).sent = true ∧
    twf 0 (snapRun [0]).recv = true ∧ (List.range 27).filter (fun u => !(snapRun [0]).acked.elem u) = List.range 27 := by
  decide

theorem wit_StartEvents_draw : DrawWait.drk ∉ (startS .keys).signet.waits ∧ 3 ≤ live.start.stage := by decide

theorem wit_RingEngineEvents_open : live.tagFree = true ∧
    (lastRing toFetch).tagFree = true ∧ (lastRing { st := .running }).pollSees true 511 = true ∧
    (lastRing { st := .running }).pollSees false 511 = false ∧ ((lastRing { st := .stopping }).ring 511).st ≠ .running ∧
    live.hif.schedAge ≠ 0 ∧ ({ live with fns := [(31, { d3hot := true })] } : State).fn 31 = { d3hot := true } := by decide

theorem wit_LinkEvents_flit : ({ linkS with link := { linkS.link with flit := true, rate := 5 } } : State).link.flit = true ∧
    (6 : BitVec 4).toNat = 6 ∧ (5 : BitVec 4).toNat ≤ 6 ∧ (5 : BitVec 4).toNat ≠ 6 ∧ linkS.link.rate ≠ 5 := by decide
theorem wit_LinkEvents_up : Nat.ble 3 live.start.stage = true ∧ Nat.ble 3 (stage 2).start.stage = false ∧
    ({ linkS with link := { linkS.link with dlUp := false } } : State).link.perst = false ∧
    linkS.link.width ≠ 8 ∧ linkS.link.rate ≠ 5 := by decide

theorem wit_DoeMessages_steps : linkS.link.doeBusy = false ∧ linkS.link.versioned = true ∧ linkS.link.capable = true ∧
    ({ linkS with link := { perst := false } } : State).link.capable = false ∧
    ({ linkS with link := { perst := false } } : State).link.keyed = false := by decide
/-- A draw that is served, one that waits and one that fails. -/
theorem wit_DoeMessages_begin : spdmS.kindServes false = true ∧
    (∃ b re v, spdmS.draw 0 48 false = .ok b re v) ∧ (∃ h t, spdmS.freshBytes 48 = (h, t)) ∧
    ({ spdmS with signet := { drbgs := [(0, { instantiated := true, reseedReq := true })], ent := .running } } : State).draw
      0 48 false = .wait := ⟨by decide, ⟨_, _, _, rfl⟩, ⟨_, _, rfl⟩, rfl⟩
theorem wit_SessionMessages_steps : ((jobS .agree (1 :: zeros 47)).engine (7 : Fin 12)).busy =
      some { client := .spdm 1, lattice := false, scheme := 2 } ∧
    DrawWait.engine 7 ∉ (jobS .agree []).signet.waits ∧
    (∃ j, (jobS .agree (zeros 48)).link.job = some j ∧ j.number = 1 ∧ j.step = .agree ∧ curve384.scalarOk j.eph = false) ∧
    (∃ j, (jobS .sign (1 :: zeros 47)).link.job = some j ∧ j.step = .sign ∧ curve384.scalarOk j.eph = true ∧ j.kind = 0x64) ∧
    spdmS.life.idKey = some (zeros 32) ∧ signBytes 2 2 1 (zeros 32) [] (zeros 48) [] = none :=
  ⟨rfl, by decide, ⟨_, rfl, rfl, rfl, by decide⟩, ⟨_, rfl, rfl, by decide, rfl⟩, rfl, by decide⟩
/-- Agreement on the base point with scalar 1, and on a pair that is no point. -/
def basePoint : Bytes := beBytes 48 curve384.gx ++ beBytes 48 curve384.gy
set_option exponentiation.threshold 512 in
set_option maxRecDepth 20000 in
theorem wit_SessionMessages_agree : curve384.ecdh (zeros 47 ++ [1]) (4 :: fit 96 (zeros 96)) = none ∧
    curve384.decode (4 :: fit 96 basePoint) = some (curve384.gx, curve384.gy) := by
  refine ⟨?_, ?_⟩
  · unfold Curve.ecdh
    decide
  · decide
set_option exponentiation.threshold 512 in
set_option maxRecDepth 20000 in
theorem wit_SessionMessages_agreed : (curve384.ecdh (zeros 47 ++ [1]) (4 :: fit 96 basePoint)).isSome = true := by
  unfold Curve.ecdh
  decide

/-! LIFECYCLE with a transition due: STARTS and CROWN leave the record and the antifuse copies. -/

/-- What the start steps before LIFECYCLE leave, while a page write holds the port. -/
def Keeps (s t : State) : Prop :=
  t.nvm.pages = s.nvm.pages ∧ t.nvm.remap = s.nvm.remap ∧ t.nvm.writing = s.nvm.writing ∧ t.life = s.life ∧
    t.start.stuck = s.start.stuck
theorem Keeps.trans {s t u : State} (a : Keeps s t) (b : Keeps t u) : Keeps s u :=
  ⟨b.1.trans a.1, b.2.1.trans a.2.1, b.2.2.1.trans a.2.2.1, b.2.2.2.1.trans a.2.2.2.1, b.2.2.2.2.trans a.2.2.2.2⟩
theorem keeps_event1 (s : State) (m : Nat) (d : Byte) (v : Word32) (r : Option Nat) : Keeps s (s.event m d v r).1 := by
  unfold State.event
  split
  · exact ⟨rfl, rfl, rfl, rfl, rfl⟩
  · dsimp only
    have h : ∀ (a b : State), Keeps s a → Keeps s b → ∀ (c : Prop) [Decidable c], Keeps s (if c then a else b) := by
      intro a b ha hb c _; split <;> assumption
    repeat' split
    all_goals exact ⟨rfl, rfl, rfl, rfl, rfl⟩
theorem keeps_latch (s : State) (r : Nat) (a : Alarm) : Keeps s (s.latchAlarm r a) := by
  unfold State.latchAlarm
  dsimp only
  split <;> exact ⟨rfl, rfl, rfl, rfl, rfl⟩
theorem keeps_event (s : State) (m : Nat) (d : Byte) : Keeps s (s.noteEvent m d) := by
  unfold State.noteEvent
  have h := keeps_event1 s m d 0 (some 0)
  generalize s.event m d 0 (some 0) = r at h ⊢
  dsimp only
  split
  · exact h
  · split
    · exact (h.trans (keeps_latch r.1 r.1.tamper.rung _)).trans ⟨rfl, rfl, rfl, rfl, rfl⟩
    · exact h.trans (keeps_latch r.1 r.1.tamper.rung _)
theorem keeps_gate (s : State) (b : Bool) (k : Nat) : Keeps s (s.claspGate b k).2 := by
  unfold State.claspGate
  dsimp only
  split
  · exact ⟨rfl, rfl, rfl, rfl, rfl⟩
  · exact Keeps.trans ⟨rfl, rfl, rfl, rfl, rfl⟩ (keeps_event _ _ _)
theorem keeps_output (s : State) : Keeps s s.nvmOutput.2 := by
  unfold State.nvmOutput
  split
  · exact keeps_gate _ _ _
  · exact ⟨rfl, rfl, rfl, rfl, rfl⟩
theorem keeps_ask (s : State) (l : List PageWrite) (h : s.nvm.writing.isSome = true) : Keeps s (s.askPages l) := by
  unfold State.askPages
  have o := keeps_output s
  dsimp only
  split
  · unfold State.portGo
    rw [if_pos (by simp [o.2.2.1, h])]
    exact o.trans ⟨rfl, rfl, rfl, rfl, rfl⟩
  · exact o
theorem keeps_log (s : State) (n : Nat) (x : Step) (a b c d e : Nat) (h : s.nvm.writing.isSome = true) :
    Keeps s (s.logAs n x a b c d e) := by
  unfold State.logAs
  dsimp only
  rw [if_neg (by rw [Option.isNone_eq_false_iff.mpr h]; simp)]
  exact Keeps.trans ⟨rfl, rfl, rfl, rfl, rfl⟩ (keeps_ask _ _ h)
theorem keeps_tie (s : State) (n : RecName) : Keeps s (s.noteTie n) := by
  obtain ⟨a, b, c, d, h⟩ := noteTie_frame s n
  rw [h]
  exact ⟨rfl, rfl, rfl, rfl, rfl⟩
theorem keeps_interrupted (s : State) (n : Nat) (l : List (Nat × LedgerEntry)) (h : s.nvm.writing.isSome = true) :
    Keeps s (s.logInterrupted n l) := by
  unfold State.logInterrupted
  dsimp only
  generalize List.mergeSort _ _ = l
  induction l generalizing s with
  | nil => exact ⟨rfl, rfl, rfl, rfl, rfl⟩
  | cons e l ih =>
    rw [List.foldl_cons]
    split
    · rename_i x hx
      have k := keeps_log s n x 3 e.2.attempt 5 e.2.method 0 h
      exact k.trans (ih _ (by rw [k.2.2.1]; exact h))
    · exact ih s h
theorem keeps_read (s : State) (n : RecName) : Keeps s (s.readRec n).2 := by
  unfold State.readRec
  dsimp only
  split
  · exact Keeps.trans ⟨rfl, rfl, rfl, rfl, rfl⟩ (keeps_tie _ _)
  · split <;> exact ⟨rfl, rfl, rfl, rfl, rfl⟩
theorem crowns_read (s : State) (n : RecName) : (s.readRec n).2.crowns = s.crowns := by
  unfold State.readRec State.noteTie
  dsimp only
  split
  · split <;> rfl
  · split <;> rfl
theorem keeps_put (s : State) (n : RecName) (t : Byte) (p : Bytes) (h : s.nvmOutput.1 = false) :
    Keeps s (s.putRec n t p) := by
  unfold State.putRec
  rw [if_pos (by simp [h])]
  exact keeps_output s
theorem keeps_active (s : State) (c : Crown) : Keeps s (s.setActive c) := by
  unfold State.setActive
  split <;> exact ⟨rfl, rfl, rfl, rfl, rfl⟩
theorem output_active (s : State) (c : Crown) (h : c.st = .active) (h2 : c.claim = 2) (h9 : (s.clasp 1).claimHi = 9) :
    (s.setActive c).nvmOutput.1 = false := by
  have a : (s.setActive c).activeCrown = c ∧ (s.setActive c).crown (s.setActive c).crowns.activeB = c ∧
      (s.setActive c).clasp 1 = s.clasp 1 := by
    unfold State.setActive State.activeCrown State.crown State.clasp
    rcases hb : s.crowns.activeB with _ | _ <;> simp [hb]
  rw [State.nvmOutput, if_pos (by rw [a.1, h]), State.activeOutput, State.claspGate]
  rw [a.2.1, a.2.2, h2, if_neg]
  unfold Clasp.accepts
  rw [h9]
  simp
theorem keeps_tail (s x : State) (n : RecName) (t : Byte) (p : Bytes) (w1 w2 : Step) (v1 v2 k : Nat) (l : List (Nat × LedgerEntry))
    (h : s.nvm.writing.isSome = true) (kx : Keeps s x) (o : x.nvmOutput.1 = false) :
    Keeps s ((((x.putRec n t p).log w1 3 1 1 0 v1).logInterrupted k l).log w2 3 1 1 0 v2) := by
  have w : ∀ {y : State}, Keeps s y → y.nvm.writing.isSome = true := fun ky => by rw [ky.2.2.1]; exact h
  have a := kx.trans (keeps_put x n t p o)
  have b := a.trans (keeps_log _ (x.putRec n t p).start.startNumber.toNat w1 3 1 1 0 v1 (w a))
  have c := b.trans (keeps_interrupted _ k l (w b))
  exact c.trans (keeps_log _ _ w2 3 1 1 0 v2 (w c))
set_option maxRecDepth 10000 in
/-- STARTS writes no start record where clasp 1 has seen a higher claim than that of a whole start. -/
theorem keeps_start (s : State) (h : s.nvm.writing.isSome = true) (c : (s.clasp 1).claimHi = 9) : Keeps s s.stepStart := by
  have hf : Keeps s s.ledgerFind ∧ s.ledgerFind.crowns = s.crowns := by
    unfold State.ledgerFind
    split <;> exact ⟨⟨rfl, rfl, rfl, rfl, rfl⟩, rfl⟩
  have hr := hf.1.trans (keeps_read s.ledgerFind startName)
  have hc : (s.ledgerFind.readRec startName).2.crowns = s.crowns := (crowns_read _ _).trans hf.2
  unfold State.stepStart
  apply keeps_tail _ _ _ _ _ _ _ _ _ _ _ h
  · refine Keeps.trans ?_ (keeps_active _ _)
    exact hr
  · apply output_active _ _ rfl rfl
    show ((s.ledgerFind.readRec startName).2.crowns.clasps.getD 1 {}).claimHi = 9
    rw [hc]
    exact c
theorem keeps_take (s : State) : Keeps s s.takeClasps := by
  unfold State.takeClasps
  generalize List.range 4 = l
  induction l generalizing s with
  | nil => exact ⟨rfl, rfl, rfl, rfl, rfl⟩
  | cons k l ih => exact Keeps.trans ⟨rfl, rfl, rfl, rfl, rfl⟩ (ih _)
theorem keeps_crowns {s y : State} (h : Keeps s y) (k : Crowns) : Keeps s ({ y with crowns := k } : State).takeClasps :=
  Keeps.trans (h.trans ⟨rfl, rfl, rfl, rfl, rfl⟩) (keeps_take _)
theorem keeps_end {s y : State} (w : s.nvm.writing.isSome = true) (h : Keeps s y) (x : Step) (a b : Nat) :
    Keeps s (y.stepEnd x a b) := h.trans (keeps_log y _ x 2 1 a 0 b (by rw [h.2.2.1]; exact w))
/-- CROWN, both crowns passing. -/
theorem keeps_crown (s : State) (h : s.nvm.writing.isSome = true) (i : (s.nvm.patchImage).isSome = true)
    (w : ∀ x : State, Keeps s x → x.nvm.patchImage = s.nvm.patchImage) : Keeps s (s.stepCrown none none) := by
  have k0 := keeps_tie s (.sys 0x07 0)
  have k1 := k0.trans (keeps_log _ (s.noteTie (.sys 0x07 0)).start.startNumber.toNat .crown 1 1 0 0 0 (by rw [k0.2.2.1]; exact h))
  have im := w _ k1
  have wr : (s.noteTie (.sys 0x07 0)).nvm.writing.isSome = true := by rw [k0.2.2.1]; exact h
  unfold State.stepCrown
  dsimp only
  unfold State.stepBegin State.log at *
  generalize State.logAs (s.noteTie (.sys 0x07 0)) (s.noteTie (.sys 0x07 0)).start.startNumber.toNat .crown 1 1 0 0 0 = y at k1 im ⊢
  rw [im, i]
  simp only [firstFail, Option.isNone, Bool.not_true, Bool.and_self, Bool.false_eq_true, if_false, if_true]
  apply keeps_end h
  apply keeps_crowns
  exact k1
/-- The life-cycle record of a part with a transition to END_OF_LIFE pending. -/
def lcsBuf : Bytes := recBytes lcsName 1 (lcsBytes (some .endOfLife) false) 1 0
def s2N : Nvm := { recalling := false, ready := true, pages := recPageList lcsName 0 lcsBuf, writing := some pageW }
/-- Stage S1 of that part, the port held by a page write and the clasps by a higher claim. -/
def s2S : State := { stage 1 with
  life := { copies := [0, 0, 0] }, nvm := s2N, crowns := { clasps := List.replicate 4 { claimHi := 9 } } }
def s2R : S2Results :=
  { crownA := none, crownB := none, copyFails := 0, cut := some 6, kat := 0xFFF, pageFails := [], vid := 1 }
/-- That state as STARTS finds it. -/
def s2U : State := (List.range 12).foldl (fun (a : State) n =>
  a.setEngine n { a.engine n with katFail := !s2R.kat.getLsbD n })
  { s2S with
    start := { s2S.start with stage := 2, pwrGood := true, sysResetN := true }
    glb := { s2S.glb with vid := if 40 < s2R.vid.toNat then 40 else s2R.vid }
    nvm := { s2S.nvm with tripped := false }
    battery := { s2S.battery.restart s2S.battery.onCell s2S.glb.grade with sampler := s2S.battery.sampler } }
theorem s2U_fields : s2U.nvm = s2N ∧ s2U.life = s2S.life ∧ s2U.start.stuck = false ∧ (s2U.clasp 1).claimHi = 9 := ⟨rfl, rfl, rfl, rfl⟩
theorem image_congr {n m : Nvm} (hp : n.pages = m.pages) (hr : n.remap = m.remap) (name : RecName) : n.record name = m.record name ∧ n.patchImage = m.patchImage := by
  have c : ∀ k name, n.copy name k = m.copy name k := by
    intro k name
    have : ∀ p, n.page p = m.page p := fun p => by
      rw [Nvm.page, Nvm.page, Nvm.phys, Nvm.phys, Nvm.spareOf, Nvm.spareOf, hp, hr]
    rw [Nvm.copy, Nvm.copy, Nvm.copyBytes, Nvm.copyBytes]
    simp only [this]
  have e : ∀ name, n.record name = m.record name := fun name => by rw [Nvm.record, Nvm.record, c, c]
  exact ⟨e name, by rw [Nvm.patchImage, Nvm.patchImage, e]⟩
theorem s2N_page (p : Nat) (h : p ≠ recFirst lcsName 0) : s2N.page p = zeros 256 := by
  have e : s2N.phys p = p := rfl
  rw [Nvm.page, e]
  show tget _ [(recFirst lcsName 0, _)] p = _
  rw [tget, if_neg h]
  split <;> rfl
theorem s2N_image : s2N.patchImage = some [] := by
  have z : ∀ k, s2N.copy (.sys 7 0) k = recCopy (recPages (.sys 7 0)) (zeros (recPages (.sys 7 0) * 256)) :=
    fun k => copy_blank _ _ _ fun i hi => s2N_page _ (by
      have a : recFirst (.sys 7 0) k = 2758 ∨ recFirst (.sys 7 0) k = 10950 := by
        unfold recFirst
        by_cases hk : k = 0 <;> simp [hk, sysOffset]
      have b : recFirst lcsName 0 = 2048 := rfl
      omega)
  rw [Nvm.patchImage, Nvm.record, z, z, recCopy_zeros]
  rfl
theorem s2V : Keeps s2U (s2U.stepStart.stepCrown s2R.crownA s2R.crownB) := by
  have k := keeps_start s2U rfl rfl
  refine k.trans (keeps_crown _ (by rw [k.2.2.1, s2U_fields.1]; rfl) ?_ ?_)
  · rw [(image_congr k.1 k.2.1 lcsName).2, s2U_fields.1, s2N_image]; rfl
  · intro x hx; exact (image_congr hx.1 hx.2.1 lcsName).2
theorem s2N_held : (s2N.record lcsName).st = .held ∧ (s2N.record lcsName).payload = lcsBytes (some .endOfLife) false ∧ (s2N.record lcsName).tie = false := by
  have h1 : s2N.copy lcsName 1 = recCopy 1 (zeros (1 * 256)) := copy_blank _ lcsName 1 fun i hi => s2N_page _ (by
    have b : recFirst lcsName 0 = 2048 := rfl
    have c : recFirst lcsName 1 = 10240 := rfl
    omega)
  have h : s2N.copy lcsName 0 = recCopy 1 lcsBuf := by
    have := nvmOf_copy0 lcsName lcsBuf
    rw [show recPages lcsName = 1 from rfl, show lcsBuf = recBytes lcsName 1 (lcsBytes (some .endOfLife) false) 1 0 from rfl, flatten_pages (p := 1) (length_recBytes lcsName 1 (lcsBytes (some .endOfLife) false) 1 0 (by decide))] at this
    exact this
  have h2 : recCopy 1 lcsBuf = _ := recCopy_recBytes lcsName 1 (lcsBytes (some .endOfLife) false) 1 0 (by decide) (by decide) (by decide) (by decide) (by decide) (by decide)
  rw [Nvm.record, h, h1, recCopy_zeros, h2]
  exact ⟨rfl, rfl, rfl⟩
theorem due_end (y : State) (h : y.life.copies = [0, 0, 0]) : y.transitionDue .endOfLife = true := by
  rw [State.transitionDue, h]
  simp [Lcs.code]
/-- So `PWR_GOOD` may fall while LIFECYCLE acts. -/
theorem cut_due (v : State) (k : Keeps s2U v) : v.cutTaken s2R = true := by
  have r := (image_congr k.1 k.2.1 lcsName).1
  rw [s2U_fields.1] at r
  have a : (v.readRec lcsName).1 = v.nvm.record lcsName := rfl
  have b := (keeps_read v lcsName).2.2.2.1
  unfold State.cutTaken State.readLcs
  rw [k.2.2.2.2, s2U_fields.2.2.1]
  dsimp only
  rw [a, r, s2N_held.1, s2N_held.2.1, b, k.2.2.2.1, s2U_fields.2.1]
  rw [show s2R.cut.isSome = true from rfl]
  simp only [Bool.not_false, Bool.true_and]
  show State.transitionDue _ Lcs.endOfLife = true
  refine due_end _ ?_
  rfl
theorem wit_StartEvents_cut : s2S.start.stage = 1 ∧ s2S.nvm.recalling = false ∧ s2R.cut = some 6 ∧
    (s2U.stepStart.stepCrown s2R.crownA s2R.crownB).cutTaken s2R = true := ⟨rfl, rfl, rfl, cut_due _ s2V⟩
theorem wit_StartEvents_whole : s2R.crownA = none ∧ s2R.crownB = none ∧
    (s2U.stepStart.stepCrown s2R.crownA s2R.crownB).cutTaken { s2R with cut := none } = false ∧
    (s2U.stepStart.stepCrown s2R.crownA s2R.crownB).start.stuck = false ∧
    (s2U.stepStart.stepCrown (some (0, 0)) (some (0, 0))).start.stuck = true :=
  ⟨rfl, rfl, rfl, s2V.2.2.2.2.trans s2U_fields.2.2.1, rfl⟩

end Sys2Proof.Tests
end

