-- ==== Sys2Proof/Proofs/MailboxLimits.lean ====
section
/-!
PROOF. The mailbox's limit (R68): whatever a request of up to 64 KiB is answered with leaves DOE Error as it was, and a
longer object sets it and does nothing else.
-/

namespace Sys2Proof.Machine

/-! What the parts of an answer leave of the link. -/

@[simp] theorem State.reply_doeError (s : State) (kind : Nat) (data : Bytes) :
    (s.reply kind data).link.doeError = s.link.doeError := rfl
@[simp] theorem State.spdmError_doeError (s : State) (code : Nat) :
    (s.spdmError code).link.doeError = s.link.doeError := rfl
@[simp] theorem State.modJob_doeError (s : State) (f : SpdmJob → SpdmJob) :
    (s.modJob f).link.doeError = s.link.doeError := rfl
@[simp] theorem State.modSessions_doeError (s : State) (f : List Session → List Session) :
    (s.modSessions f).link.doeError = s.link.doeError := rfl
@[simp] theorem State.setIde_doeError (s : State) (i : Nat) (x : IdeStream) :
    (s.setIde i x).link.doeError = s.link.doeError := rfl
@[simp] theorem State.freshBytes_link (s : State) (n : Nat) : (s.freshBytes n).2.link = s.link := rfl

@[simp] theorem State.noteTie_link (s : State) (name : RecName) : (s.noteTie name).link = s.link := by
  unfold State.noteTie
  split <;> rfl

@[simp] theorem State.noteTies_link (s : State) (l : List RecName) : (s.noteTies l).link = s.link := by
  unfold State.noteTies
  induction l.dedup generalizing s with
  | nil => rfl
  | cons name l ih => simp [ih]

/-- The state that a generate request leaves, `s` itself where it waits. -/
def Draw.after (s : State) : Draw → State
  | .ok _ _ t => t
  | .wait => s
  | .fail t => t

/-- A generate request leaves the link alone, whatever comes of it. -/
theorem State.draw_after_link (s : State) (i n : Nat) (pred : Bool) :
    ((s.draw i n pred).after s).link = s.link := by
  unfold State.draw
  dsimp only
  split
  · rfl
  · split
    · rfl
    · split <;> rfl

/-! A signed answer that goes on, or begins. -/

@[simp] theorem State.spdmGo_doeError (s : State) : s.spdmGo.link.doeError = s.link.doeError := by
  unfold State.spdmGo
  split
  · rfl
  · next j _ =>
    split
    · rfl
    · have hd := s.draw_after_link 0 (if j.step = .agree then 48 else 32) false
      split
      · rfl
      · next t e => simpa [e, Draw.after] using congrArg Link.doeError hd
      · next b _ t e => simpa [e, Draw.after] using congrArg Link.doeError hd

@[simp] theorem State.spdmBegin_doeError (s : State) (step : SpdmStep) (kind : Nat) (data peer : Bytes) :
    (s.spdmBegin step kind data peer).link.doeError = s.link.doeError := by
  simp [State.spdmBegin]

@[simp] theorem State.signedReply_doeError (s : State) (kind : Nat) (data : Bytes) :
    (s.signedReply kind data).link.doeError = s.link.doeError := by
  unfold State.signedReply
  split <;> simp

/-- A request that belongs into a finished session keeps DOE Error where its act does: outside one the answer is an
error. -/
theorem State.inSession_doeError {act : State → Session → State} (s : State) (q : DoeReq)
    (h : ∀ s y, (act s y).link.doeError = s.link.doeError) :
    (s.inSession q act).link.doeError = s.link.doeError := by
  unfold State.inSession
  split
  · rfl
  · split
    · exact h _ _
    · rfl

/-! The limit, for an act of the mailbox and for a command. -/

/-- The act leaves DOE Error as it finds it. -/
def KeepsDoeError (act : State → State) : Prop := ∀ s, (act s).link.doeError = s.link.doeError

/-- The limit of R68 for one request in one state. That an answer keeps a standing DOE Error, and that a long object sets
it at a Busy mailbox too, are choices of the model (log entry 33). -/
def LimitObeyed (q : DoeReq) (s : State) (o : Host.Outcome State Fault Refusal) : Prop :=
  (q.len ≤ 65536 → ∀ t, o = .next t → t.link.doeError = s.link.doeError) ∧
  (65536 < q.len → o = .next { s with link := { s.link with doeError := true } })

theorem doe_keepsDoeError {s : State} {q : DoeReq} {act : State → State} (h : KeepsDoeError act)
    (l : q.len ≤ 65536) : (s.doe q act).link.doeError = s.link.doeError := by
  unfold State.doe
  split
  · rfl
  · rw [if_neg (by omega)]
    split
    · rfl
    · exact h s

/-- An object beyond 64 KiB sets DOE Error; the act does not run. -/
theorem doe_tooLong {s : State} {q : DoeReq} (act : State → State) (h : 3 ≤ s.start.stage)
    (p : s.link.perst = false) (l : 65536 < q.len) :
    s.doe q act = { s with link := { s.link with doeError := true } } := by
  unfold State.doe
  rw [if_neg (by simp [p]; omega), if_pos l]

section
variable {s : State} {q : DoeReq} (h : 3 ≤ s.start.stage) (p : s.link.perst = false)
include h p

theorem doe_obeysLimit {act : State → State} (k : KeepsDoeError act) : LimitObeyed q s (.next (s.doe q act)) := by
  refine ⟨fun l t e => ?_, fun l => by rw [doe_tooLong act h p l]⟩
  cases e
  exact doe_keepsDoeError k l

/-- The count of SPDM requests lies outside the link. -/
theorem spdm_obeysLimit {act : State → State} (k : KeepsDoeError act) : LimitObeyed q s (.next (s.spdm q act)) :=
  doe_obeysLimit h p fun x => k (x.bump 24 6 1)

/-! Each request that the mailbox takes. -/

theorem doeDiscovery_obeysLimit (n : Byte) : LimitObeyed q s (exec (.doeDiscovery q n) s) :=
  doe_obeysLimit h p fun x => by split <;> rfl

theorem getVersion_obeysLimit : LimitObeyed q s (exec (.getVersion q) s) :=
  spdm_obeysLimit h p fun _ => rfl

theorem getCapabilities_obeysLimit : LimitObeyed q s (exec (.getCapabilities q) s) :=
  spdm_obeysLimit h p fun x => by split <;> rfl

theorem negotiateAlgorithms_obeysLimit (asym hash dhe aead schedule : Bool) :
    LimitObeyed q s (exec (.negotiateAlgorithms q asym hash dhe aead schedule) s) :=
  spdm_obeysLimit h p fun x => by split <;> rfl

theorem getDigests_obeysLimit : LimitObeyed q s (exec (.getDigests q) s) :=
  spdm_obeysLimit h p fun x => by split <;> simp

theorem getCertificate_obeysLimit (slot : BitVec 4) (off len : BitVec 16) :
    LimitObeyed q s (exec (.getCertificate q slot off len) s) :=
  spdm_obeysLimit h p fun x => by
    split
    · rfl
    · split
      · rfl
      · dsimp only
        split <;> simp

theorem challenge_obeysLimit (slot : BitVec 4) (nonce : BitVec 256) :
    LimitObeyed q s (exec (.challenge q slot nonce) s) :=
  spdm_obeysLimit h p fun x => by
    split
    · rfl
    · split <;> simp

theorem getMeasurements_obeysLimit (index : Byte) (nonce : Option (BitVec 256)) :
    LimitObeyed q s (exec (.getMeasurements q index nonce) s) :=
  spdm_obeysLimit h p fun x => by
    dsimp only
    split_ifs <;> simp

theorem keyExchange_obeysLimit (slot : BitVec 4) (peer : Bytes) :
    LimitObeyed q s (exec (.keyExchange q slot peer) s) :=
  spdm_obeysLimit h p fun x => by
    dsimp only
    split_ifs <;> simp

theorem finish_obeysLimit (macOk : Bool) : LimitObeyed q s (exec (.finish q macOk) s) :=
  spdm_obeysLimit h p fun x => by
    split
    · rfl
    · split
      · rfl
      · split <;> rfl

theorem heartbeat_obeysLimit : LimitObeyed q s (exec (.heartbeat q) s) :=
  spdm_obeysLimit h p fun x => x.inSession_doeError q fun _ _ => by rfl

theorem keyUpdate_obeysLimit : LimitObeyed q s (exec (.keyUpdate q) s) :=
  spdm_obeysLimit h p fun x => x.inSession_doeError q fun _ _ => by rfl

theorem endSession_obeysLimit : LimitObeyed q s (exec (.endSession q) s) :=
  spdm_obeysLimit h p fun x => x.inSession_doeError q fun _ _ => by rfl

theorem ideQuery_obeysLimit (i : Fin 5) : LimitObeyed q s (exec (.ideQuery q i) s) :=
  spdm_obeysLimit h p fun x => by split <;> rfl

theorem keyProg_obeysLimit (i : Fin 5) (set : Fin 2) (sub : Fin 6) (key : BitVec 256) :
    LimitObeyed q s (exec (.keyProg q i set sub key) s) :=
  spdm_obeysLimit h p fun x => by split <;> rfl

theorem kSetGo_obeysLimit (i : Fin 5) (set : Fin 2) : LimitObeyed q s (exec (.kSetGo q i set) s) :=
  spdm_obeysLimit h p fun x => by split <;> rfl

theorem kSetStop_obeysLimit (i : Fin 5) (set : Fin 2) : LimitObeyed q s (exec (.kSetStop q i set) s) :=
  spdm_obeysLimit h p fun x => by split <;> rfl

end

/-- Settles O51 (R68): it holds, since each request goes through `State.doe`, whose act keeps DOE Error and does not run
on an object that is too long. -/
theorem mailboxLimits : Obligations.MailboxLimits := by
  intro s q slot off len c i set sub a b n peer h p
  simp only [List.forall_mem_cons, List.not_mem_nil, false_imp_iff, implies_true, and_true]
  exact ⟨doeDiscovery_obeysLimit h p n, getVersion_obeysLimit h p, getCapabilities_obeysLimit h p,
    negotiateAlgorithms_obeysLimit h p a b a b a, getDigests_obeysLimit h p, getCertificate_obeysLimit h p slot off len,
    challenge_obeysLimit h p slot c, getMeasurements_obeysLimit h p n (some c), getMeasurements_obeysLimit h p n none,
    keyExchange_obeysLimit h p slot peer, finish_obeysLimit h p a, heartbeat_obeysLimit h p, keyUpdate_obeysLimit h p,
    endSession_obeysLimit h p, ideQuery_obeysLimit h p i, keyProg_obeysLimit h p i set sub c, kSetGo_obeysLimit h p i set,
    kSetStop_obeysLimit h p i set⟩

end Sys2Proof.Machine
end

