-- ==== Sys2Proof/Proofs/HallmarksAfterStart.lean ====
section
/-!
PROOF. The hallmark registers after a whole start (R331): each command that begins one leaves the table of hallmarks
empty, as reset does, and a register that the empty table answers for is at its reset value.
-/

namespace Sys2Proof.Machine

/-! A hallmark that no entry of the table holds. -/

theorem State.hallmark_of_hallmarks_nil {s : State} (h : s.hallmarks = []) (i : Nat) :
    s.hallmark i = hallmarkReset i := by
  rw [State.hallmark, h, tget]

/-- R331, for the volatile registers. -/
theorem hallmarkReset_volatile {i : Nat} (h : i < 56) :
    hallmarkReset i =
      { h := List.replicate 48 0, extCount := 0, owner := 1, readAll := false, resetOk := true, locked := false,
        torn := false } := by
  rw [hallmarkReset, if_neg (by omega)]

/-! What the ways into S1 and S0 leave of the hallmarks. -/

@[simp] theorem State.batteryLost_hallmarks (s : State) : s.batteryLost.hallmarks = s.hallmarks := rfl

@[simp] theorem State.wholeStart_hallmarks (s : State) (cause : Nat) (onCell : Bool) :
    (s.wholeStart cause onCell).hallmarks = [] := rfl

/-- The table stays empty in S0, whether or not the battery is lost with main power. -/
@[simp] theorem State.goDark_hallmarks (s : State) : s.goDark.hallmarks = [] := by
  unfold State.goDark
  split
  · simp
  · simp

/-- With `VDD_KPR` a fall in S1 begins no whole start: the device stands there already. -/
theorem State.pwrFall_true_hallmarks {s : State} (h : s.start.stage ≠ 1) : (s.pwrFall true).hallmarks = [] := by
  rw [State.pwrFall, if_pos rfl, if_neg h]
  simp

@[simp] theorem State.pwrFall_false_hallmarks (s : State) : (s.pwrFall false).hallmarks = [] := by
  rw [State.pwrFall, if_neg (by decide)]
  exact State.goDark_hallmarks _

/-- `GLB.RESET` with its key begins a whole start. -/
@[simp] theorem State.resetBy_key_hallmarks (s : State) : (s.resetBy 0x4B57).hallmarks = [] := by
  rw [State.resetBy, if_neg (by decide)]
  exact State.wholeStart_hallmarks ..

/-! Each command that begins a whole start. -/

section
variable {s t : State}

theorem keeperPor_hallmarks (h : s.start.stage = 0) (e : exec .keeperPor s = .next t) : t.hallmarks = [] := by
  change execKeeperPor s = .next t at e
  rw [execKeeperPor, if_neg (not_not.2 h)] at e
  cases e
  simp

theorem sysResetN_hallmarks (h : s.start.stage ≠ 0) (e : exec .sysResetN s = .next t) : t.hallmarks = [] := by
  change execSysResetN s = .next t at e
  rw [execSysResetN, if_neg h] at e
  cases e
  simp

theorem pwrGoodFall_true_hallmarks (h0 : s.start.stage ≠ 0) (h1 : s.start.stage ≠ 1)
    (e : exec (.pwrGoodFall true) s = .next t) : t.hallmarks = [] := by
  change execPwrGoodFall true s = .next t at e
  rw [execPwrGoodFall, if_neg h0] at e
  cases e
  exact State.pwrFall_true_hallmarks h1

theorem pwrGoodFall_false_hallmarks (h : s.start.stage ≠ 0) (e : exec (.pwrGoodFall false) s = .next t) :
    t.hallmarks = [] := by
  change execPwrGoodFall false s = .next t at e
  rw [execPwrGoodFall, if_neg h] at e
  cases e
  exact s.pwrFall_false_hallmarks

theorem resetWhole_hallmarks (h : 3 ≤ s.start.stage) (e : exec (.resetWhole 0 0x4B57) s = .next t) :
    t.hallmarks = [] := by
  change execResetWhole 0 0x4B57 s = .next t at e
  rw [execResetWhole, Fin.val_zero, pfWrite_pf _ h (by simp [State.stageBars])] at e
  cases e
  exact s.resetBy_key_hallmarks

end

/-- Settles O58 (R331): it holds, since every whole start, and reset, begins with no hallmark in the table. -/
theorem hallmarksAfterStart : Obligations.HallmarksAfterStart := by
  refine ⟨fun s t i hi start => ?_, fun i hi => ?_⟩
  · have empty : t.hallmarks = [] := by
      obtain ⟨h, e⟩ | ⟨h, e⟩ | ⟨h0, h1, e⟩ | ⟨h, e⟩ | ⟨h, e⟩ := start
      · exact keeperPor_hallmarks h e
      · exact sysResetN_hallmarks h e
      · exact pwrGoodFall_true_hallmarks h0 h1 e
      · exact pwrGoodFall_false_hallmarks h e
      · exact resetWhole_hallmarks h e
    rw [t.hallmark_of_hallmarks_nil empty, hallmarkReset_volatile hi]
    exact ⟨rfl, rfl, rfl, rfl, rfl, rfl⟩
  · rw [State.hallmark_of_hallmarks_nil rfl, hallmarkReset_volatile hi]

end Sys2Proof.Machine
end

