-- ==== Sys2Proof/Proofs/PipTable.lean ====
section
/-!
PROOF. The verdict table of the Pip port (R484): how a request reaches the vault engine, what the table answers to a
`PEEK` and to a `CLAIM`, and that only a `CLAIM` answered `FRESH` changes the pip table (R486).
-/

namespace Sys2Proof.Machine

/-! The fields of a request (R476). -/

theorem pipRequest_toNat {op : Nat} (h : op < 4) (e : BitVec 20) (q : BitVec 40) (t : BitVec 2) :
    (pipRequest op e q t).toNat = op * 2 ^ 62 + e.toNat * 2 ^ 42 + q.toNat * 4 + t.toNat := by
  rw [pipRequest, BitVec.toNat_ofNat]
  omega

section
variable {op : Nat} (h : op < 4) (e : BitVec 20) (q : BitVec 40) (t : BitVec 2)
include h

theorem reqOp_pipRequest : reqOp (pipRequest op e q t) = op := by
  rw [reqOp, pipRequest_toNat h, bitsOf]
  omega

theorem reqEndpoint_pipRequest : reqEndpoint (pipRequest op e q t) = e.toNat := by
  rw [reqEndpoint, pipRequest_toNat h, bitsOf]
  omega

theorem reqSeq_pipRequest : reqSeq (pipRequest op e q t) = q.toNat := by
  rw [reqSeq, pipRequest_toNat h, bitsOf]
  omega

end

theorem reqTag_lt (w : BitVec 64) : reqTag w < 4 := Nat.mod_lt _ (by decide)

/-- A `PEEK` or a `CLAIM` on clean pins passes every check of R480. -/
theorem requestFault_clean {w : BitVec 64} {p : PipPins} (n : p.noise = 0) (c : p.chkNoise = 0) (v : p.strobe = 3)
    (o : reqOp w < 2) : requestFault w p = none := by
  have lanes : lanesOk p.noise p.chkNoise = true := by rw [n, c]; decide
  rw [requestFault, if_neg (by simp [lanes]), if_neg (by omega), if_neg (not_not.2 v), if_neg (by omega)]

/-! What the port's own updates leave. -/

@[simp] theorem State.countRequest_vault (s : State) : s.countRequest.vault = s.vault := rfl
@[simp] theorem State.frameError_vault (s : State) : s.frameError.vault = s.vault := rfl
@[simp] theorem State.drive_vault (s : State) (w : BitVec 16) : (s.drive w).vault = s.vault := rfl
@[simp] theorem State.pipFault_vault (s : State) (c : Nat) : (s.pipFault c).vault = s.vault := rfl
@[simp] theorem State.reachBank_vault (s : State) (e : Nat) : (s.reachBank e).vault = s.vault := rfl
@[simp] theorem State.answer_vault (s : State) (w : BitVec 64) (v h : Nat) : (s.answer w v h).vault = s.vault := rfl

@[simp] theorem State.pipIdle_vault (s : State) (later : Bool) : (s.pipIdle later).vault = s.vault := by
  unfold State.pipIdle
  dsimp only
  split
  · rfl
  · split
    · rfl
    · cases later <;> rfl

/-- The verdict stands in the top four bits of an answer word (R477). -/
theorem answerWord_verdict {v t h : Nat} (hv : v < 16) (ht : t < 4) (hh : h < 1024) :
    (answerWord v t h).toNat / 4096 = v := by
  rw [answerWord, BitVec.toNat_ofNat]
  omega

/-- So it does on the pins. -/
theorem State.answer_verdict (s : State) (w : BitVec 64) {v h : Nat} (hv : v < 16) (hh : h < 1024) :
    ∃ x, (s.answer w v h).pip.answer = some x ∧ x.1.toNat / 4096 = v :=
  ⟨_, rfl, answerWord_verdict hv (reqTag_lt w) hh⟩

/-! The table of R484. -/

/-- The limit of R422 is the only multiple of 32 in its range with the bits of `LIMIT`. -/
theorem PipEntry.limitX_unique {p : PipEntry} {X : Nat} (m : X % 32 = 0) (lo : p.hwm.toNat + 1 ≤ X)
    (hi : X ≤ p.hwm.toNat + 65536) (bits : X / 32 % 2048 = p.limit.toNat) : p.limitX = X := by
  unfold PipEntry.limitX
  dsimp only
  split <;> omega

theorem PipEntry.seen_iff (p : PipEntry) (q : Nat) :
    p.seen q = true ↔
      q = p.hwm.toNat ∨ (q < p.hwm.toNat ∧ p.window.getLsbD (p.hwm.toNat - 1 - q) = true) := by
  simp [PipEntry.seen]

theorem PipEntry.armedIn_iff (p : PipEntry) (k : Nat) :
    p.armedIn k = true ↔ p.armed = true ∧ p.parity = (k % 2 == 1) := by
  simp [PipEntry.armedIn, epochBit]

/-- The answer of `FULL` mode, row by row. -/
theorem State.fullAnswer_rows (s : State) (claim : Bool) (e S : Nat) {x : PipEntry} {h X k : Nat} (hx : x = s.pipe e)
    (hh : h = x.hwm.toNat) (hk : k = s.vault.record.openEpoch) (hX : x.limitX = X) :
    s.fullAnswer claim e S =
      if x.checkErr ≠ 0 then (6, 20)
      else if x.known = false then (4, 0)
      else if x.revoked = true then (5, 0)
      else if x.coarse = true then (if h < S then (7, 0) else s.deferOut)
      else if S + 65 ≤ h then (3, min (h - S) 1023)
      else if S = h ∨ (S < h ∧ x.window.getLsbD (h - 1 - S) = true) then (2, 0)
      else if ¬(x.armed = true ∧ x.parity = (k % 2 == 1)) ∨ (h < S ∧ X ≤ S) then (6, 0x3FF)
      else (1, if claim then (Config.claimToken s.pip.tk e S).toNat else min (X - 1 - S) 1023) := by
  subst hh hk hX
  -- both sides become one chain of conditions, of a verdict on the left and of its answer on the right
  simp only [← x.seen_iff, ← x.armedIn_iff, State.fullAnswer, ← hx, PipEntry.verdict, Bool.not_eq_true',
    Bool.not_eq_true, Bool.or_eq_true, Bool.and_eq_true, decide_eq_true_eq]
  split_ifs <;> rfl

theorem hintOf_lt (b : BitVec 10) : hintOf b < 1024 := by
  unfold hintOf
  split <;> omega

/-- Every hint of `FULL` mode fits its field of ten bits. -/
theorem State.fullAnswer_hint_lt (s : State) (claim : Bool) (e q : Nat) : (s.fullAnswer claim e q).2 < 1024 := by
  unfold State.fullAnswer
  dsimp only
  cases (s.pipe e).verdict s.vault.record.openEpoch q with
  | check | unknown | revoked | stale | replay | notArmed => simp
  | coarse =>
    dsimp only
    split
    · simp
    · exact hintOf_lt _
  | fresh =>
    dsimp only
    split
    · exact BitVec.isLt _
    · simp

/-! What the vault engine decides of a `PEEK` or a `CLAIM`. -/

theorem State.pipDecide_full {s : State} {w : BitVec 64} {a : Nat × Nat} (m : s.portMode = .full) (o : reqOp w ≠ 2)
    (ha : a = s.fullAnswer (reqOp w == 1) (reqEndpoint w) (reqSeq w)) :
    s.pipDecide w =
      (if reqOp w = 1 ∧ a.1 = 1 then
        (s.reachBank (reqEndpoint w)).setPipe (reqEndpoint w) ((s.pipe (reqEndpoint w)).claim (reqSeq w))
      else s.reachBank (reqEndpoint w), a) := by
  subst ha
  simp only [State.pipDecide, m, if_neg o]

/-- Outside `FULL` mode no request does more than reach its bank. -/
theorem State.pipDecide_notFull {s : State} (w : BitVec 64) (m : s.portMode ≠ .full) :
    (s.pipDecide w).1 = s.reachBank (reqEndpoint w) := by
  unfold State.pipDecide
  dsimp only
  split
  · contradiction
  · split <;> rfl

theorem State.pipDecide_peek_vault {s : State} {w : BitVec 64} (o : reqOp w = 0) :
    (s.pipDecide w).1.vault = s.vault := by
  by_cases m : s.portMode = .full
  · rw [State.pipDecide_full m (by omega) rfl, if_neg (by omega), State.reachBank_vault]
  · rw [State.pipDecide_notFull w m, State.reachBank_vault]

/-- A `CLAIM` leaves the vault, its pip table in it, or it is answered `FRESH`. -/
theorem State.pipDecide_claim_vault {s : State} {w : BitVec 64} (o : reqOp w = 1) :
    (s.pipDecide w).1.vault = s.vault ∨ ((s.pipDecide w).2.1 = 1 ∧ (s.pipDecide w).2.2 < 1024) := by
  by_cases m : s.portMode = .full
  · rw [State.pipDecide_full m (by omega) rfl]
    by_cases fresh : (s.fullAnswer (reqOp w == 1) (reqEndpoint w) (reqSeq w)).1 = 1
    · exact .inr ⟨fresh, s.fullAnswer_hint_lt ..⟩
    · left
      rw [if_neg fun h => fresh h.2, State.reachBank_vault]
  · left
    rw [State.pipDecide_notFull w m, State.reachBank_vault]

/-! What a cycle of the port does. -/

/-- The state that a request is checked in: framed, its framing error noted and the request counted. -/
def State.requestIn (s : State) (later : Bool) : State :=
  (if later then ({ s with pip := { s.pip with framed := true } } : State).frameError
    else { s with pip := { s.pip with framed := true } }).countRequest

@[simp] theorem State.requestIn_vault (s : State) (later : Bool) : (s.requestIn later).vault = s.vault := by
  cases later <;> rfl

@[simp] theorem State.requestIn_portMode (s : State) (later : Bool) : (s.requestIn later).portMode = s.portMode := by
  cases later <;> rfl

@[simp] theorem State.requestIn_pipe (s : State) (later : Bool) (e : Nat) : (s.requestIn later).pipe e = s.pipe e := by
  cases later <;> rfl

@[simp] theorem State.requestIn_fullAnswer (s : State) (later claim : Bool) (e q : Nat) :
    (s.requestIn later).fullAnswer claim e q = s.fullAnswer claim e q := by
  cases later <;> rfl

/-- Every check passed, in `FULL` mode: the vault engine decides. -/
theorem State.pipCycle_full {s : State} {w : BitVec 64} {p : PipPins} (n : p.noise = 0) (c : p.chkNoise = 0)
    (v : p.strobe = 3) (m : s.portMode = .full) (o : reqOp w < 2) :
    s.pipCycle w p none = ((s.requestIn p.strobeLater).pipDecide w).1.answer w
      ((s.requestIn p.strobeLater).pipDecide w).2.1 ((s.requestIn p.strobeLater).pipDecide w).2.2 := by
  rw [State.pipCycle, if_neg (by simp [m]), if_neg (by simp [v]), if_neg (by simp [v])]
  extract_lets _ _ s1 received
  have clean : received = w := by simp [received, n]
  have counted : s1 = s.requestIn p.strobeLater := rfl
  clear_value s1 received
  subst clean counted
  rw [requestFault_clean n c v o]
  dsimp only
  rw [State.requestIn_portMode, m]

/-- A cycle without a late verdict leaves the vault, or answers as the vault engine decides of the request as
received. -/
theorem State.pipCycle_vault (s : State) (sent : BitVec 64) (p : PipPins) :
    (s.pipCycle sent p none).vault = s.vault ∨
      ∃ s1 : State, s1.vault = s.vault ∧
        s.pipCycle sent p none = (s1.pipDecide (sent ^^^ p.noise)).1.answer (sent ^^^ p.noise)
          (s1.pipDecide (sent ^^^ p.noise)).2.1 (s1.pipDecide (sent ^^^ p.noise)).2.2 := by
  unfold State.pipCycle
  -- a dark port, an idle cycle, a cycle before the framing; then a fault, and the modes that do not ask the vault
  -- engine
  split
  · exact .inl rfl
  split
  · exact .inl (s.pipIdle_vault _)
  split
  · exact .inl rfl
  extract_lets _ _ s1 w
  have same : s1.vault = s.vault := s.requestIn_vault p.strobeLater
  clear_value s1
  split
  · exact .inl same
  split
  · exact .inl same
  · exact .inl same
  · exact .inl same
  · exact .inr ⟨s1, same, rfl⟩

section
variable {s : State} {e : BitVec 20} {q : BitVec 40} {t : BitVec 2} {p : PipPins} {a : Nat × Nat}
  (n : p.noise = 0) (c : p.chkNoise = 0) (v : p.strobe = 3) (l : p.strobeLater = false) (m : s.portMode = .full)
include n c v l m

/-- A `PEEK` (`op` 0) or a `CLAIM` (`op` 1) is answered by `FULL` mode's table, and a `CLAIM` answered `FRESH` moves its
entry. -/
theorem State.pipCycle_peekOrClaim {op : Nat} (h : op < 2) (ha : a = s.fullAnswer (op == 1) e.toNat q.toNat) :
    s.pipCycle (pipRequest op e q t) p none =
      (if op = 1 ∧ a.1 = 1 then
          ((s.requestIn false).reachBank e.toNat).setPipe e.toNat ((s.pipe e.toNat).claim q.toNat)
        else (s.requestIn false).reachBank e.toNat).answer (pipRequest op e q t) a.1 a.2 := by
  have o := reqOp_pipRequest (op := op) (by omega) e q t
  have he := reqEndpoint_pipRequest (op := op) (by omega) e q t
  have hq := reqSeq_pipRequest (op := op) (by omega) e q t
  have decided := State.pipDecide_full (w := pipRequest op e q t) ((s.requestIn_portMode false).trans m) (by omega) rfl
  rw [State.requestIn_fullAnswer, State.requestIn_pipe, o, he, hq, ← ha] at decided
  rw [State.pipCycle_full n c v m (by omega), l, decided]

theorem exec_pipPeek_full (ha : a = s.fullAnswer false e.toNat q.toNat) :
    exec (.pipPeek e q t p) s =
      .next (((s.requestIn false).reachBank e.toNat).answer (pipRequest 0 e q t) a.1 a.2) := by
  change Host.Outcome.next (s.pipCycle (pipRequest 0 e q t) p none) = _
  rw [State.pipCycle_peekOrClaim n c v l m (by decide) ha, if_neg (by omega)]

theorem exec_pipClaim_full (ha : a = s.fullAnswer true e.toNat q.toNat) :
    exec (.pipClaim e q t p) s = .next
      ((if a.1 = 1 then ((s.requestIn false).reachBank e.toNat).setPipe e.toNat ((s.pipe e.toNat).claim q.toNat)
        else (s.requestIn false).reachBank e.toNat).answer (pipRequest 1 e q t) a.1 a.2) := by
  change Host.Outcome.next (s.pipCycle (pipRequest 1 e q t) p none) = _
  rw [State.pipCycle_peekOrClaim n c v l m (by decide) ha]
  simp only [true_and]

end

/-- Settles O32 (R484): it holds. The verdict of an entry is the first row that applies, and the limit that the model
computes is the only X of R422. -/
theorem verdictTable : Obligations.VerdictTable := by
  intro s s0 e q t p x h S X k rows n c v l m h0 hx hh hS hk mult lo hi bits hrows
  have limit : x.limitX = X := x.limitX_unique mult (hh ▸ lo) (hh ▸ hi) bits
  have table (claim : Bool) := s.fullAnswer_rows claim e.toNat S hx hh hk limit
  subst hrows hx hS h0
  exact ⟨exec_pipPeek_full n c v l m (table false).symm,
    fun a ha => exec_pipClaim_full n c v l m (ha.trans (table true).symm)⟩

/-- Settles O34 (R486): it holds. Only the vault engine's decision can reach the table, and of a `CLAIM` that changes it
the word on the pins says `FRESH`. -/
theorem peekKeepsTable : Obligations.PeekKeepsTable := by
  refine fun s u e q t p => ⟨fun run o => ?_, fun run o notFresh => ?_⟩
  · change Host.Outcome.next (s.pipCycle _ p none) = _ at run
    cases run
    obtain kept | ⟨s1, same, eq⟩ := s.pipCycle_vault (pipRequest 0 e q t) p
    · rw [kept]
    · rw [eq, State.answer_vault, State.pipDecide_peek_vault o, same]
  · change Host.Outcome.next (s.pipCycle _ p none) = _ at run
    cases run
    obtain kept | ⟨s1, same, eq⟩ := s.pipCycle_vault (pipRequest 1 e q t) p
    · rw [kept]
    · rw [eq] at notFresh ⊢
      obtain kept | ⟨fresh, hint⟩ := s1.pipDecide_claim_vault o
      · rw [State.answer_vault, kept, same]
      · rw [fresh] at notFresh
        obtain ⟨x, word, verdict⟩ := State.answer_verdict (v := 1) (s1.pipDecide _).1 _ (by decide) hint
        exact absurd verdict (notFresh x word)

end Sys2Proof.Machine
end

