-- ==== Sys2Proof/Proofs/ClaspTable.lean ====
section
/-!
PROOF. The clasps (R597, R598): which output a clasp accepts, by its claim and its crown; what an accepted and what a
discarded output leave, alone or tied in one cycle with the other crown's; and that every whole start leaves the crowns
and their clasps at their reset values.
-/

namespace Sys2Proof.Machine

/-! What a clasp does with an output. -/

/-- The table of R597, in one line: a higher claim, or an equal one from the holder or from crown A. -/
theorem Clasp.accepts_iff {x : Clasp} {b : Bool} {c : BitVec 16} :
    x.accepts b c = true ↔ x.claimHi.toNat < c.toNat ∨ (c = x.claimHi ∧ (x.holder = some b ∨ b = false)) := by
  simp [Clasp.accepts, BitVec.lt_def]

/-- The rows of R597 that discard: a lower claim, or an equal one from crown B where crown B is not the holder. -/
theorem Clasp.not_accepts {x : Clasp} {b : Bool} {c : BitVec 16}
    (h : c.toNat < x.claimHi.toNat ∨ (c = x.claimHi ∧ x.holder ≠ some b ∧ b = true)) : ¬ x.accepts b c = true := by
  rw [Clasp.accepts_iff]
  obtain lower | ⟨rfl, notHolder, rfl⟩ := h
  · rintro (higher | ⟨rfl, -⟩)
    · omega
    · exact absurd lower (lt_irrefl _)
  · simp [notHolder]

section
variable {s : State} {b : Bool} {k : Nat}

theorem State.claspOutput_accepted (h : (s.clasp k).accepts b (s.crown b).claim = true) :
    s.claspOutput b k = s.setClasp k ((s.clasp k).take b (s.crown b).claim) := by
  rw [State.claspOutput, State.claspGate, if_pos h]

theorem State.claspOutput_refused (h : ¬ (s.clasp k).accepts b (s.crown b).claim = true) :
    s.claspOutput b k = s.refuseOutput b k := by
  rw [State.claspOutput, State.claspGate, if_neg h]

end

/-! What CLASP_OUTPUT does from the end of S1 on. -/

section
variable {s : State} (h : 2 ≤ s.start.stage) (b : Bool) (k : Fin 4)
include h

/-- An output of one crown alone goes by the table. -/
theorem exec_claspOutput_alone : exec (.claspOutput b k false) s = .next (s.claspOutput b k) := by
  change execClaspOutput b k false s = _
  rw [execClaspOutput, if_neg (by omega), if_neg (by simp)]

/-- Of two equal claims in one cycle, both at least `CLAIM_HI`, the clasp takes crown A's and discards crown B's. -/
theorem exec_claspOutput_tied (equal : s.crowns.a.claim = s.crowns.b.claim)
    (least : (s.clasp k).claimHi.toNat ≤ s.crowns.a.claim.toNat) :
    exec (.claspOutput b k true) s =
      .next ((s.setClasp k ((s.clasp k).take false s.crowns.a.claim)).refuseOutput true k) := by
  change execClaspOutput b k true s = _
  rw [execClaspOutput, if_neg (by omega), if_pos (by simp [BitVec.le_def, ← equal, least])]

end

/-! What the ways into S1 leave of the crowns and their clasps. -/

@[simp] theorem State.wholeStart_crowns (s : State) (cause : Nat) (onCell : Bool) :
    (s.wholeStart cause onCell).crowns = {} := rfl

/-- With `VDD_KPR` a fall of `PWR_GOOD` past S1 is a whole start, whose copies in the battery domain differ. -/
theorem State.pwrFall_true_crowns {s : State} (h : s.start.stage ≠ 1) : (s.pwrFall true).crowns = {} := by
  rw [State.pwrFall, if_pos rfl, if_neg h]
  simp

/-- `GLB.RESET` with its key begins a whole start. -/
theorem State.resetBy_key_crowns (s : State) : (s.resetBy 0x4B57).crowns = {} := by
  rw [State.resetBy, if_neg (by decide)]
  exact State.wholeStart_crowns ..

section
variable {s t : State}

theorem keeperPor_crowns (h : s.start.stage = 0) (e : exec .keeperPor s = .next t) : t.crowns = {} := by
  change execKeeperPor s = .next t at e
  rw [execKeeperPor, if_neg (not_not.2 h)] at e
  cases e
  exact State.wholeStart_crowns ..

theorem sysResetN_crowns (h : s.start.stage ≠ 0) (e : exec .sysResetN s = .next t) : t.crowns = {} := by
  change execSysResetN s = .next t at e
  rw [execSysResetN, if_neg h] at e
  cases e
  exact State.wholeStart_crowns ..

theorem pwrGoodFall_true_crowns (h0 : s.start.stage ≠ 0) (h1 : s.start.stage ≠ 1)
    (e : exec (.pwrGoodFall true) s = .next t) : t.crowns = {} := by
  change execPwrGoodFall true s = .next t at e
  rw [execPwrGoodFall, if_neg h0] at e
  cases e
  exact State.pwrFall_true_crowns h1

theorem resetWhole_crowns (h : 3 ≤ s.start.stage) (e : exec (.resetWhole 0 0x4B57) s = .next t) : t.crowns = {} := by
  change execResetWhole 0 0x4B57 s = .next t at e
  rw [execResetWhole, Fin.val_zero, pfWrite_pf _ h (by simp [State.stageBars])] at e
  cases e
  exact s.resetBy_key_crowns

/-- At reset no crown has a claim. -/
theorem State.crown_of_crowns_reset (h : t.crowns = {}) (b : Bool) : t.crown b = {} := by
  rw [State.crown, h]
  exact ite_self _

/-- At reset no clasp has a claim or a holder. -/
theorem State.clasp_of_crowns_reset (h : t.crowns = {}) {k : Nat} (hk : k < 4) : t.clasp k = {} := by
  rw [State.clasp, h]
  exact List.getD_replicate _ hk

end

/-- Settles O54 (R597): it holds. The model's gate is the acceptance table, a tie is given to crown A before the gate,
and every whole start begins with the crowns and their clasps at their reset values. -/
theorem claspTable : Obligations.ClaspTable := by
  refine ⟨fun s b k c x h hc hx => ?_, fun s t k hk start => ?_⟩
  · subst hc hx
    refine ⟨fun accepted => ?_, fun discarded => ?_, exec_claspOutput_tied h b k⟩
    · rw [exec_claspOutput_alone h, State.claspOutput_accepted (Clasp.accepts_iff.2 accepted), Clasp.take]
    · rw [exec_claspOutput_alone h, State.claspOutput_refused (Clasp.not_accepts discarded), State.refuseOutput]
  · have atReset : t.crowns = {} := by
      obtain ⟨h, e⟩ | ⟨h, e⟩ | ⟨h0, h1, e⟩ | ⟨h, e⟩ := start
      · exact keeperPor_crowns h e
      · exact sysResetN_crowns h e
      · exact pwrGoodFall_true_crowns h0 h1 e
      · exact resetWhole_crowns h e
    rw [State.clasp_of_crowns_reset atReset hk]
    exact ⟨fun b => by rw [State.crown_of_crowns_reset atReset], rfl, rfl⟩

end Sys2Proof.Machine
end

