-- ==== Sys2Proof/Proofs/Encodings.lean ====
section
/-!
PROOF. Encodings: a move and its 64 bits (R570, R577), a descriptor and its 64 bytes (R102), an opcode and its operation.
-/

namespace Sys2Proof.Machine

/-! Moves. -/

/-- A word whose bits [39:32] are zero is the word of its fields. -/
theorem packMove_of_unpackMove {w : BitVec 64} {m : MoveFields} (h : unpackMove w = some m) : packMove m = w := by
  unfold unpackMove at h
  dsimp only at h
  split at h
  · next zero =>
    cases h
    apply BitVec.eq_of_toNat_eq
    have := w.isLt
    simp only [packMove, BitVec.toNat_ofNat]
    omega
  · cases h

/-- A command with an engine is a move. -/
theorem moveFields_of_moveEngine {i : Instr} {e : Fin 4} (h : moveEngine i = some e) : ∃ m, moveFields i = some m := by
  unfold moveEngine at h
  split at h <;> first | exact ⟨_, rfl⟩ | cases h

/-- A size code or key register is kept in its field of four bits. -/
theorem moveC_castLE (op : Nat) (d a b : Fin 16) (c : Fin 4) (imm : Word32) (h : c.val < 16) :
    moveC ⟨op, d, a, b, ⟨c.val, h⟩, imm⟩ = c := Fin.ext (Nat.mod_eq_of_lt c.isLt)

/-- The table of move codes gives a move back from its fields. -/
theorem moveOfCode_moveFields {i : Instr} {e : Fin 4} {m : MoveFields} (h : moveFields i = some m)
    (he : moveEngine i = some e) (hr : moveRaw i = none) : m.op < 256 ∧ moveOfCode e m = some i := by
  unfold moveFields at h
  split at h <;> cases h <;> cases he <;> cases hr <;> exact ⟨by dsimp only; decide, by simp only [moveOfCode, moveC_castLE]⟩

/-- What the table gives runs on the engine asked for, and compares by its own words. -/
theorem moveEngine_of_moveOfCode {i : Instr} {e : Fin 4} {m : MoveFields} (h : moveOfCode e m = some i) :
    moveEngine i = some e ∧ moveRaw i = none := by
  unfold moveOfCode at h
  split at h <;> cases h <;> exact ⟨rfl, rfl⟩

/-- The three checks of a move's word. -/
theorem decodeMove_eq_some {e : Fin 4} {w : BitVec 64} {i : Instr} :
    decodeMove e w = some i ↔
      ∃ m, unpackMove w = some m ∧ moveOfCode e m = some i ∧ moveFields i = some m := by
  unfold decodeMove
  cases unpackMove w with
  | none => simp
  | some m =>
    cases h : moveOfCode e m with
    | none => simp [h]
    | some j =>
      simp only [Option.some.injEq, exists_eq_left', h]
      split
      · next hj =>
        rw [Option.some.injEq, iff_self_and]
        rintro rfl
        exact hj
      · next hj =>
        simp only [reduceCtorEq, false_iff, not_and]
        rintro rfl
        exact hj

/-- Settles O3 (R570, R577): it holds. Packing and unpacking are inverse on words whose bits [39:32] are zero, and the
table of codes gives back the move whose fields it is asked for. -/
theorem moveEncoding : Obligations.MoveEncoding := by
  refine ⟨fun i e he hr => ?_, fun e w i h => ?_⟩
  · obtain ⟨m, hm⟩ := moveFields_of_moveEngine he
    obtain ⟨small, back⟩ := moveOfCode_moveFields hm he hr
    exact ⟨packMove m, by rw [encodeMove, hm, Option.map_some],
      decodeMove_eq_some.2 ⟨m, unpack_pack m small, back, hm⟩⟩
  · obtain ⟨m, unpacked, back, hm⟩ := decodeMove_eq_some.1 h
    exact ⟨by rw [encodeMove, hm, Option.map_some, packMove_of_unpackMove unpacked], moveEngine_of_moveOfCode back⟩

/-! Byte strings. -/

theorem leBytes_leNat (b : Bytes) : leBytes b.length (leNat b) = b := by
  induction b with
  | nil => rfl
  | cons x b ih =>
    have low : BitVec.ofNat 8 (x.toNat + 256 * leNat b) = x := by
      apply BitVec.eq_of_toNat_eq
      have := x.isLt
      rw [BitVec.toNat_ofNat]
      omega
    have high : (x.toNat + 256 * leNat b) / 256 = leNat b := by
      have := x.isLt
      omega
    simp only [List.length_cons, leBytes, leNat, low, high, ih]

theorem leNat_lt (b : Bytes) : leNat b < 256 ^ b.length := by
  induction b with
  | nil => simp [leNat]
  | cons x b ih =>
    have := x.isLt
    rw [leNat, List.length_cons, pow_succ]
    omega

/-- A field of a byte string, written out again. -/
theorem leBytes_leField (b : Bytes) (o n : Nat) : leBytes n (leField b o n) = slice b o n := by
  have := leBytes_leNat (slice b o n)
  rwa [length_slice] at this

theorem leField_lt (b : Bytes) (o n : Nat) : leField b o n < 256 ^ n := by
  have := leNat_lt (slice b o n)
  rwa [length_slice] at this

/-- Two slices that meet are one. -/
theorem slice_append_slice (b : Bytes) (o n k : Nat) : slice b o n ++ slice b (o + n) k = slice b o (n + k) := by
  simp only [slice, List.range_add, List.map_append, List.map_map, Function.comp_def, Nat.add_assoc]

theorem slice_one (b : Bytes) (o : Nat) : [byteAt b o] = slice b o 1 := rfl

/-- A string of the right length fits as it is. -/
theorem fit_of_length {b : Bytes} {n : Nat} (h : b.length = n) : fit n b = b := h ▸ slice_full b

/-- A slice that begins where `a` ends and takes `b`. -/
theorem slice_middle {a b c : Bytes} {o n : Nat} (ha : a.length = o) (hb : b.length = n) :
    slice (a ++ b ++ c) o n = b := by
  rw [List.append_assoc, slice_append_right ha, slice_append_left (by omega), ← hb, slice_full]

/-- Where `n` bytes of a value stand in a string, the field reads the value. -/
theorem leField_middle {a c : Bytes} {o n v : Nat} (ha : a.length = o) (hv : v < 256 ^ n) :
    leField (a ++ leBytes n v ++ c) o n = v := by
  rw [leField, slice_middle ha (length_leBytes n v), leNat_leBytes, Nat.mod_eq_of_lt hv]

theorem byteAt_middle {a c : Bytes} {o : Nat} {x : Byte} (ha : a.length = o) : byteAt (a ++ [x] ++ c) o = x := by
  have := slice_middle (c := c) ha (List.length_singleton (a := x))
  rw [← slice_one] at this
  exact List.singleton_injective this

/-! Descriptors. -/

theorem ofNat_leField_toNat {w n : Nat} (b : Bytes) (o : Nat) (h : 2 ^ w = 256 ^ n) :
    (BitVec.ofNat w (leField b o n)).toNat = leField b o n := by
  rw [BitVec.toNat_ofNat, Nat.mod_eq_of_lt (h ▸ leField_lt b o n)]

/-- Encoding after decoding joins the slices of the string again. -/
theorem encodeDesc_decodeDesc {b : Bytes} (h : b.length = 64) : encodeDesc (decodeDesc b) = b := by
  have body : fit 48 (slice b 16 48) = slice b 16 48 := fit_of_length (length_slice ..)
  have pair : [byteAt b 2, byteAt b 3] = slice b 2 2 := rfl
  simp only [encodeDesc, decodeDesc]
  rw [ofNat_leField_toNat b 0 (by norm_num), ofNat_leField_toNat b 4 (by norm_num),
    ofNat_leField_toNat b 8 (by norm_num), body, pair, leBytes_leField, leBytes_leField, leBytes_leField,
    slice_append_slice, slice_append_slice, slice_append_slice, slice_append_slice]
  exact fit_of_length h

/-- Decoding after encoding reads each field where it was written. -/
theorem decodeDesc_encodeDesc {d : Desc} (h : d.body.length = 48) : decodeDesc (encodeDesc d) = d := by
  obtain ⟨opcode, flags, cls, tag, declLen, body⟩ := d
  have hbody : fit 48 body = body := fit_of_length h
  have e : encodeDesc ⟨opcode, flags, cls, tag, declLen, body⟩ =
      leBytes 2 opcode.toNat ++ ([flags] ++ ([cls] ++ (leBytes 4 tag.toNat ++ (leBytes 8 declLen.toNat ++ body)))) := by
    simp only [encodeDesc, hbody, List.append_assoc, List.cons_append, List.nil_append]
  have hopcode : leField (encodeDesc ⟨opcode, flags, cls, tag, declLen, body⟩) 0 2 = opcode.toNat := by
    rw [e]
    exact leField_middle (a := []) (n := 2) rfl opcode.isLt
  have hflags : byteAt (encodeDesc ⟨opcode, flags, cls, tag, declLen, body⟩) 2 = flags := by
    rw [e, ← List.append_assoc]
    exact byteAt_middle (length_leBytes ..)
  have hcls : byteAt (encodeDesc ⟨opcode, flags, cls, tag, declLen, body⟩) 3 = cls := by
    rw [e, ← List.append_assoc, ← List.append_assoc]
    exact byteAt_middle (by simp [length_leBytes])
  have htag : leField (encodeDesc ⟨opcode, flags, cls, tag, declLen, body⟩) 4 4 = tag.toNat := by
    rw [e, ← List.append_assoc, ← List.append_assoc, ← List.append_assoc]
    exact leField_middle (by simp [length_leBytes]) tag.isLt
  have hlen : leField (encodeDesc ⟨opcode, flags, cls, tag, declLen, body⟩) 8 8 = declLen.toNat := by
    rw [e, ← List.append_assoc, ← List.append_assoc, ← List.append_assoc, ← List.append_assoc]
    exact leField_middle (by simp [length_leBytes]) declLen.isLt
  have hrest : slice (encodeDesc ⟨opcode, flags, cls, tag, declLen, body⟩) 16 48 = body := by
    rw [e, ← List.append_assoc, ← List.append_assoc, ← List.append_assoc, ← List.append_assoc,
      slice_append_right (by simp [length_leBytes]), ← h, slice_full]
  simp only [decodeDesc, hopcode, hflags, hcls, htag, hlen, hrest, BitVec.ofNat_toNat, BitVec.setWidth_eq]

/-- Settles O4 (R102): it holds. Both round trips are on the slices of the 64 bytes, and an opcode is found only as its
operation's own. -/
theorem descriptorRoundTrip : Obligations.DescriptorRoundTrip := by
  refine ⟨fun d h => ⟨length_encodeDesc d, decodeDesc_encodeDesc h⟩, fun b h => encodeDesc_decodeDesc h,
    Op.decode_code, fun w o h => ?_⟩
  have found := List.find?_some h
  exact (beq_iff_eq.1 found).symm

end Sys2Proof.Machine
end

