-- ==== Sys2Proof/Proofs/ClaimedOnce.lean ====
section
/-!
PROOF. A sequence is `FRESH` at most once in an entry (R484, R485): a claim moves `HWM` to the larger of it and the
sequence, and what showed as seen or stale goes on to do so.
-/

namespace Sys2Proof.Machine

namespace PipEntry
variable {p : PipEntry} {k q r : Nat}

/-- Sequence `r` shows as seen or as stale in an entry: the rows of R484 that come before `FRESH` and do not depend on
the epoch. -/
def Spent (p : PipEntry) (r : Nat) : Prop := p.seen r = true ∨ r + 65 ≤ p.hwm.toNat

/-- A `FRESH` sequence is neither. -/
theorem not_spent_of_fresh (h : p.verdict k q = .fresh) : ¬ p.Spent q := by
  unfold verdict at h
  split_ifs at h
  simp_all [Spent]

/-- The claim makes `HWM` the larger of the two. -/
theorem claim_hwm (hq : q < 2 ^ 40) : (p.claim q).hwm.toNat = max p.hwm.toNat q := by
  unfold claim
  dsimp only
  split
  · rw [BitVec.toNat_ofNat]
    omega
  · dsimp only
    omega

/-- Where the sequence is above `HWM`, the window moves up by the distance, and the old `HWM` is its bit below. -/
theorem claim_window_above {i : Nat} (h : p.hwm.toNat < q) (d : q - p.hwm.toNat < 65) (hi : i < 64) :
    (p.claim q).window.getLsbD i =
      ((decide (q - p.hwm.toNat ≤ i) && p.window.getLsbD (i - (q - p.hwm.toNat))) ||
        decide (q - p.hwm.toNat - 1 = i)) := by
  unfold claim
  simp only [if_pos h, if_neg (not_le.2 d), BitVec.getLsbD_or, BitVec.getLsbD_shiftLeft, BitVec.getLsbD_ofNat,
    Nat.testBit_two_pow, hi, decide_true, Bool.true_and, ← Nat.not_lt (b := q - p.hwm.toNat) (a := i), decide_not]

/-- Where it is below, its bit is set and the others stay. -/
theorem claim_window_below {i : Nat} (h : ¬ p.hwm.toNat < q) (hi : i < 64) :
    (p.claim q).window.getLsbD i = (p.window.getLsbD i || decide (p.hwm.toNat - 1 - q = i)) := by
  unfold claim
  simp only [if_neg h, BitVec.getLsbD_or, BitVec.getLsbD_ofNat, Nat.testBit_two_pow, hi, decide_true, Bool.true_and]

/-- What was spent stays spent. -/
theorem spent_claim (hq : q < 2 ^ 40) (h : p.Spent r) : (p.claim q).Spent r := by
  unfold Spent at h ⊢
  rw [seen_iff] at h ⊢
  rw [claim_hwm hq]
  obtain (rfl | ⟨below, bit⟩) | stale := h
  · by_cases up : p.hwm.toNat < q
    · by_cases near : q - p.hwm.toNat < 65
      · left; right
        refine ⟨by omega, ?_⟩
        rw [claim_window_above up near (by omega), show max p.hwm.toNat q - 1 - p.hwm.toNat = q - p.hwm.toNat - 1 by omega]
        simp
      · right; omega
    · left; left; omega
  · have inWindow : p.hwm.toNat - 1 - r < 64 := BitVec.lt_of_getLsbD bit
    by_cases up : p.hwm.toNat < q
    · by_cases near : q - 1 - r < 64
      · left; right
        refine ⟨by omega, ?_⟩
        rw [claim_window_above up (by omega) (by omega),
          show max p.hwm.toNat q - 1 - r - (q - p.hwm.toNat) = p.hwm.toNat - 1 - r by omega, bit]
        simp
        omega
      · right; omega
    · left; right
      refine ⟨by omega, ?_⟩
      rw [show max p.hwm.toNat q = p.hwm.toNat by omega, claim_window_below up inWindow, bit, Bool.true_or]
  · right; omega

/-- A sequence that was `FRESH` is spent by its claim. -/
theorem spent_claim_self (hq : q < 2 ^ 40) (h : ¬ p.Spent q) : (p.claim q).Spent q := by
  unfold Spent at h ⊢
  rw [seen_iff] at h ⊢
  rw [claim_hwm hq]
  by_cases up : p.hwm.toNat < q
  · left; left; omega
  · left; right
    have notHwm : q ≠ p.hwm.toNat := fun e => h (.inl (.inl e))
    have notStale : ¬ q + 65 ≤ p.hwm.toNat := fun e => h (.inr e)
    refine ⟨by omega, ?_⟩
    rw [show max p.hwm.toNat q = p.hwm.toNat by omega, claim_window_below up (by omega)]
    simp

end PipEntry

/-- Settles O31 (R484, R485): it holds, since the claim spends its sequence and keeps every other one spent, and nothing
spent is `FRESH` in any epoch. -/
theorem claimedOnce : Obligations.ClaimedOnce := by
  intro p k k' q r hq fresh
  have notFresh {x : PipEntry} {n : Nat} (h : x.Spent n) : x.verdict k' n ≠ .fresh :=
    fun f => PipEntry.not_spent_of_fresh f h
  exact ⟨notFresh (PipEntry.spent_claim_self hq (PipEntry.not_spent_of_fresh fresh)),
    fun h => notFresh (PipEntry.spent_claim hq h), PipEntry.claim_hwm hq⟩

end Sys2Proof.Machine
end

