-- ==== Sys2Proof/Proofs/Basics.lean ====
section
/-!
PROOF. The queue of commands, what reset leaves, and writes of the device to host memory.
-/

namespace Sys2Proof.Machine

/-- Settles O1: it holds; both clauses are the two arms of `step`. -/
theorem stepRunsFront : Obligations.StepRunsFront := by
  refine ⟨fun c rest s h => ?_, fun s h => ?_⟩
  · rw [step, h]
  · simp only [step, h, State.idle]

/-- Settles O2: it holds; the meaning of each command is a next state, whatever its operands. -/
theorem everyCommandAnswers : Obligations.EveryCommandAnswers := by
  intro c s
  cases c <;> exact ⟨_, rfl⟩

/-- A function that the empty table answers for has class cap 3 if it is the PF, and 1 if not (R156). -/
theorem reset_classCap {f : Nat} (h : f ≠ 0) : (State.reset.fn f).classCap = 1 := by
  change (fnReset f).classCap = 1
  simp [fnReset, h]

/-- Settles O60: it holds; every table of the reset state is empty, so that each entry is the table's default. -/
theorem resetState : Obligations.ResetState := by
  refine ⟨rfl, rfl, rfl, rfl, fun r => rfl, rfl, fun f h => reset_classCap h, fun i => rfl, fun f i => rfl, rfl, rfl, rfl,
    fun k => ?_, fun e => rfl, rfl, rfl⟩
  have := State.clasp_of_crowns_reset (t := State.reset) rfl k.isLt
  rw [this]
  exact ⟨rfl, rfl⟩

/-- Settles O5: it holds. The bytes written are those that have an address below 2^64, and a write of bytes changes
those alone. -/
theorem hostWriteExact : Obligations.HostWriteExact := by
  refine fun s a b safe => ⟨wf_memWrite safe, fun k hk inside => ?_, fun c outside => ?_⟩
  · have written : k < (b.take (2 ^ 64 - a)).length := by
      rw [List.length_take]
      omega
    change (s.hostMem.writeN a (b.take (2 ^ 64 - a))).read (a + k) = _
    rw [Mem.read_writeN_inside safe written, List.getD_eq_getElem?_getD, List.getElem?_take_of_lt (by omega),
      List.getD_eq_getElem?_getD]
  · refine Mem.read_writeN_outside safe ?_
    rw [List.length_take]
    omega

end Sys2Proof.Machine
end

