-- ==== Sys2Proof/Proofs/PostRules.lean ====
section
/-!
PROOF. Rules for posts: what the opcode of a posted descriptor says, and a post that passes steps 1 to 7 as step 8 of its
operation (R131).
-/

namespace Sys2Proof.Machine

theorem Op.code_inj {a b : Op} : a.code = b.code ↔ a = b := by
  refine ⟨fun h => ?_, congrArg _⟩
  have := Op.decode_code a
  rw [h, Op.decode_code b] at this
  exact (Option.some.inj this).symm

@[simp] theorem postDesc_opcode (o : Op) (p : Post) : (postDesc o p).opcode = o.code := rfl

/-- The descriptor of a post is one of its own operation alone. -/
@[simp] theorem postDesc_is (o o' : Op) (p : Post) : (postDesc o p).is o' = decide (o = o') := by
  rw [Desc.is, postDesc_opcode, ← Bool.beq_eq_decide_eq, Bool.eq_iff_iff, beq_iff_eq, beq_iff_eq, Op.code_inj]

/-- An opcode is compared with an operation's. -/
theorem Desc.is_iff {d : Desc} {o : Op} : d.is o = true ↔ d.opcode = o.code := beq_iff_eq

section
variable {s u t : State} {p : Post} {g : Got}

/-- A posted command that passes steps 1 to 7 is step 8 of its operation, and what follows of itself. -/
theorem exec_starts {x : Posted} (hx : x ∈ posts) (h : s.Starts x.1 p g) (hu : u = s.atUnit x.1 p g)
    (e : u.startOp p.ring s.hif.nextSeq x.1 (postDesc x.1 p) g p.env = t) : exec (x.2 p) s = .next t.onward := by
  rw [exec_post x hx]
  exact post_step8 h hu e

/-- The journal entry of crown work, as its unit finds it (R611). -/
theorem atUnit_journal {o : Op} (h : s.Starts o p g) (c : crownRuns o (postDesc o p) = true) :
    ∃ j : Journal, (s.atUnit o p g).crowns.journal = some j ∧ j.opcode = o.code ∧ j.kept = none := by
  have taken := crownTake_journal (r := p.ring) (seq := (s.newWork o p).seq) (d := postDesc o p)
    (got := ([], [], [])) (h.entry c)
  have entry : (s.entered o p).crowns.journal = some
      { ring := p.ring, seq := (s.newWork o p).seq, tag := (postDesc o p).tag, opcode := (postDesc o p).opcode,
        number := (s.handed o p).crowns.entries + 1 } := by
    rw [State.entered, if_pos c, taken]
  unfold State.atUnit
  dsimp only
  split
  · rw [State.crownKeep, entry]
    simp [State.modJournal, State.keepGot, entry]
  · exact ⟨_, entry, rfl, rfl⟩

end

end Sys2Proof.Machine
end

