-- ==== Sys2Proof/Proofs/FacetPosts.lean ====
section
/-!
PROOF. Posts that the ring engine and the facets take at step 8: `NOP` and `FENCE`, ciphers and their chains, digests and
their contexts.
-/

namespace Sys2Proof.Machine

/-- Settles O8 (R126 to R130): it holds; step 8 of either is what the clause names. -/
theorem ringFamilyStarts : Obligations.RingFamilyStarts :=
  ⟨fun _ _ _ _ _ hs hu hd => post_step8 hs hu (by rw [hd]; rfl), fun _ _ _ _ hs hu => post_step8 hs hu rfl⟩

/-! Ciphers. -/

theorem cipherOpens_posts : ∀ x ∈ cipherOpens, x ∈ posts := by
  simp [cipherOpens, posts]

section
variable {u : State} {r seq : Nat} {d : Desc} {g : Got} {env : Env}

/-- Step 8 of a cipher operation: `CONT` continues a chain, the others open a message. -/
theorem startOp_cipher : ∀ x ∈ cipherOpens, u.startOp r seq x.1 d g env =
    if d.cont then cipherCont u r seq d g.1 g.2.1 g.2.2 none else cipherOpen u r seq d g.1 g.2.1 g.2.2 := by
  simp only [cipherOpens, List.forall_mem_cons, List.not_mem_nil, false_imp_iff, implies_true, and_true]
  exact ⟨rfl, rfl, rfl, rfl, rfl, rfl, rfl⟩

/-- A chain that is open sends its descriptors to its facet's queue (R262). -/
theorem cipherCont_opened {f : Nat} {ins outs : List Ext} {b : Bytes} {bad : Option Bad}
    (h : tget .free (u.ring r).chains (d.fld 22 1) = .opened f) :
    cipherCont u r seq d ins outs b bad = (u.enqueue f
      { ring := r, seq := seq, chain := some (d.fld 22 1), ctx := none, ins := ins, outs := outs, block := b,
        bad := bad }).modRing r fun y => y.setPhase seq .active := by
  simp only [cipherCont, h]

end

/-- Settles O9 (R177, R217 to R255, R274): it holds; each hypothesis passes one check of `cipherOpen`. -/
theorem cipherOpens_hold : Obligations.CipherOpens := by
  intro x hx s p g u d i f hs hu hd hi cont free middle slot limit large pick
  subst hi
  refine exec_starts (cipherOpens_posts x hx) hs hu ?_
  rw [startOp_cipher x hx, ← hd, cont, if_neg Bool.false_ne_true]
  unfold cipherOpen
  dsimp only
  rw [if_neg]
  · have notLarge : ¬ (decide (262144 < heldBytes d g.2.2) && u.start.stage != 4) = true ∧
        ¬ (decide (262144 < heldBytes d g.2.2) && u.start.gddrOut) = true := by
      by_cases l : 262144 < heldBytes d g.2.2
      · simp [large l]
      · simp [l]
    have chained : ¬ (d.more && !middleOk (cipherInit d g.2.2) (extsLen g.1)) = true ∧
        ¬ (d.more && (u.pickFacet 17 0 0).isNone) = true ∧
        ¬ (d.more && decide ((cipherInit d g.2.2).declared < extsLen g.1)) = true := by
      cases hm : d.more with
      | false => simp
      | true =>
        obtain ⟨ok, le, room⟩ := middle hm
        simp only [ok, Option.isNone_eq_false_iff.2 room, Bool.true_and, Bool.not_true, Bool.false_eq_true, not_false_iff,
          decide_eq_true_eq, true_and]
        exact not_lt.2 le
    rw [if_neg chained.1, slot, limit]
    dsimp only
    rw [if_neg chained.2.1, if_neg notLarge.1, if_neg notLarge.2, if_neg chained.2.2, pick] <;> rfl
  · intro busy
    split at busy
    · next c hc =>
      split at busy
      · next h opened => exact free c h hc opened
      · cases busy
    · cases busy

/-! Chains that go on (R257 to R262). -/

section
variable (u : State) (f : Nat) (q : Queued)

/-- What holds no place in the queue takes one at its end. -/
theorem State.enqueue_new (h : ∀ e ∈ (u.facet f).queue, e.ring = q.ring → e.seq ≠ q.seq) :
    u.enqueue f q = u.modFacet f fun y => { y with queue := (u.facet f).queue ++ [q] } := by
  have none : ((u.facet f).queue.any fun e => e.ring == q.ring && e.seq == q.seq) = false := by
    simpa using h
  simp only [State.enqueue, State.modFacet, none, Bool.false_eq_true, if_false]

/-- The place that it has is filled. -/
theorem State.enqueue_kept {a b : List Queued} {e : Queued} (h : (u.facet f).queue = a ++ e :: b)
    (ring : e.ring = q.ring) (seq : e.seq = q.seq) (others : ∀ e' ∈ a ++ b, e'.ring = q.ring → e'.seq ≠ q.seq) :
    u.enqueue f q = u.modFacet f fun y => { y with queue := a ++ q :: b } := by
  have here : (e.ring == q.ring && e.seq == q.seq) = true := by simp [ring, seq]
  have there {l : List Queued} (sub : ∀ e' ∈ l, e' ∈ a ++ b) :
      (l.map fun e => if e.ring == q.ring && e.seq == q.seq then q else e) = l := by
    refine (List.map_congr_left fun e' he' => if_neg ?_).trans (List.map_id l)
    simpa using others e' (sub e' he')
  have found : ((u.facet f).queue.any fun e => e.ring == q.ring && e.seq == q.seq) = true := by
    rw [h, List.any_append, List.any_cons, here, Bool.true_or, Bool.or_true]
  simp only [State.enqueue, State.modFacet, found, if_true]
  rw [h, List.map_append, List.map_cons, if_pos here, there fun _ => List.mem_append_left b,
    there fun _ => List.mem_append_right a]

end

/-- Settles O10 (R257 to R262): it holds. An open chain queues the descriptor, in its own place if it has one; a chain
that is not open completes it. -/
theorem chainsContinue : Obligations.ChainsContinue := by
  refine ⟨fun x hx s p g u d f hs hu hd cont opened _ => ?_,
    fun u f q => ⟨u.enqueue_new f q, fun a e b => u.enqueue_kept f q⟩,
    fun s p g u d n hs hu hd ended => post_step8 hs hu ?_, fun s p g u d hs hu hd free => post_step8 hs hu ?_⟩
  · obtain opens | rest := List.mem_append.1 hx
    · have notDrop : x.1 ≠ .cipherDrop := by
        rintro e
        simp [cipherOpens, Prod.ext_iff, e] at opens
      refine exec_starts (cipherOpens_posts x opens) hs hu ?_
      rw [startOp_cipher x opens, ← hd, if_pos (cont.resolve_left notDrop), cipherCont_opened opened]
      simp only [if_neg notDrop]
    · obtain rfl := List.mem_singleton.1 rest
      refine post_step8 hs hu ?_
      rw [← hd]
      exact cipherCont_opened opened
  · subst hd
    change cipherCont u _ _ _ [] [] [] none = _
    simp only [cipherCont, ended, postDesc_is, decide_true, if_true]
  · subst hd
    change cipherCont u _ _ _ [] [] [] none = _
    simp only [cipherCont, free, bad8]

/-! Digests and their contexts (R285 to R314). -/

/-- Settles O11 (R290, R291, R300, R301): it holds; each hypothesis passes one check of `digOpen`. -/
theorem digestOpens : Obligations.DigestOpens := by
  intro x hx s p g u d f k hs hu hd hk key short extend pick
  have opens : x ∈ posts ∧ (x.1 = .digest ∨ x.1 = .digOpen) ∧
      u.startOp p.ring s.hif.nextSeq x.1 d g p.env = digOpen u p.ring s.hif.nextSeq d g.1 g.2.1 := by
    simp only [List.mem_cons, List.not_mem_nil, or_false] at hx
    obtain rfl | rfl := hx
    · exact ⟨by simp [posts], .inl rfl, rfl⟩
    · exact ⟨by simp [posts], .inr rfl, rfl⟩
  obtain ⟨mem, op, start⟩ := opens
  refine exec_starts mem hs hu ?_
  have one : d.is .digest = decide (x.1 = .digest) := by rw [hd, postDesc_is]
  have room : ¬ (!decide (x.1 = Op.digest) && (u.pickDig 17).isNone) = true := by
    by_cases h : x.1 = .digest
    · simp [h]
    · rw [if_neg h] at pick
      simp [pick]
  rw [← hd, start]
  unfold digOpen
  dsimp only
  rw [← hk, key]
  dsimp only
  rw [if_neg (not_lt.2 short), one, if_neg room, extend]
  simp only [decide_eq_true_eq, pick]
  rfl

theorem digestNames_posts : ∀ x ∈ digestNames, x ∈ posts := by
  simp [digestNames, posts]

section
variable {u : State} {r seq : Nat} {d : Desc} {g : Got} {env : Env}

/-- Step 8 of an operation that names a context. -/
theorem startOp_digestNames : ∀ x ∈ digestNames, x.1 ≠ .digCompare →
    u.startOp r seq x.1 d g env = digNamed u r seq d g.1 g.2.1 g.2.2 none := by
  simp only [digestNames, List.forall_mem_cons, List.not_mem_nil, false_imp_iff, implies_true, and_true]
  exact ⟨fun _ => rfl, fun _ => rfl, fun _ => rfl, fun h => absurd rfl h, fun _ => rfl⟩

section
variable {c : DigCtx} {ins outs : List Ext} {b : Bytes} (h : u.dig d.ctxFacet d.ctxIndex = some c) (own : c.fn = fnOf r)
  (shared : c.oneShot = false)
include h own shared

/-- A context that is free, or held by the descriptor's ring, queues it (R294). -/
theorem digNamed_queued (free : c.heldBy = none ∨ c.heldBy = some r) :
    digNamed u r seq d ins outs b none = ((u.enqueue d.ctxFacet
      { ring := r, seq := seq, chain := none, ctx := some d.ctxIndex, ins := ins, outs := outs, block := b,
        bad := none }).setDig d.ctxFacet d.ctxIndex (some { c with heldBy := some r })).modRing r fun y =>
          y.setPhase seq .active := by
  unfold digNamed
  simp only [h]
  rw [if_neg (by simp [own, shared]), if_neg (by tauto)]

/-- One that another ring holds is busy. -/
theorem digNamed_busy {q : Nat} (held : c.heldBy = some q) (other : q ≠ r) :
    digNamed u r seq d ins outs b none = u.finishBad r seq d { status := .contextBusy, step := 8 } := by
  unfold digNamed
  simp only [h]
  rw [if_neg (by simp [own, shared]), if_pos (by simp [held, other])]
  rfl

end

/-- No context of that name. -/
theorem digNamed_free {ins outs : List Ext} {b : Bytes} (h : u.dig d.ctxFacet d.ctxIndex = none) :
    digNamed u r seq d ins outs b none = u.finishBad r seq d { status := .contextFree, step := 8 } := by
  unfold digNamed
  simp only [h]
  rfl

end

/-- Settles O12 (R292 to R297, R311): it holds by what a context's state makes of a descriptor that names it. -/
theorem digestContexts : Obligations.DigestContexts := by
  refine ⟨fun x hx s p g u d hs hu hd notCompare => ?_, fun s p g u d c hs hu hd h own shared free => ?_,
    fun s p g u v mine hs hu hm hv => ?_⟩
  · have start := startOp_digestNames (u := u) (r := p.ring) (seq := s.hif.nextSeq) (d := d) (g := g) (env := p.env) x hx
      notCompare
    have named {t : State} (e : digNamed u p.ring s.hif.nextSeq d g.1 g.2.1 g.2.2 none = t) :
        exec (x.2 p) s = .next t.onward :=
      exec_starts (digestNames_posts x hx) hs hu (hd ▸ start.trans e)
    exact ⟨fun c h own shared free => named (digNamed_queued h own shared free), fun h => named (digNamed_free h),
      fun c q h own shared held other => named (digNamed_busy h own shared held other)⟩
  · refine post_step8 hs hu ?_
    rw [← hd]
    exact congrArg (fun v : State => v.sched d.ctxFacet p.env.raw) (digNamed_queued h own shared free)
  · have start : u.startOp p.ring s.hif.nextSeq .digFlush (postDesc .digFlush p) g p.env =
        digFlush u p.ring s.hif.nextSeq (postDesc .digFlush p) := rfl
    refine post_step8 hs hu (start.trans ?_)
    rw [digFlush, hv, hm]

end Sys2Proof.Machine
end

