-- ==== Sys2Proof/Proofs/Hallmarks.lean ====
section
/-!
PROOF. The hallmark unit (R322 to R331) and what crown work commits (R611, R612).
-/

namespace Sys2Proof.Machine

/-! The journal of the active crown. -/

@[simp] theorem State.noteTies_nil (s : State) : s.noteTies [] = s := by
  simp [State.noteTies]

@[simp] theorem State.modJournal_journal (s : State) (f : Journal → Journal) :
    (s.modJournal f).crowns.journal = s.crowns.journal.map f := rfl

theorem State.modJournal_modJournal (s : State) (f g : Journal → Journal) :
    (s.modJournal f).modJournal g = s.modJournal fun j => g (f j) := by
  simp [State.modJournal, Function.comp_def]

/-- A change that leaves the entry as it stands changes nothing. -/
theorem State.modJournal_id {s : State} {j : Journal} {f : Journal → Journal} (h : s.crowns.journal = some j)
    (e : f j = j) : s.modJournal f = s := by
  have : s.crowns.journal.map f = s.crowns.journal := by rw [h, Option.map_some, e]
  simp only [State.modJournal, this]

/-- What the crown carries out stands in its journal. -/
theorem State.journal_of_crownDesc {s : State} {j : Journal} {d : Desc} {g : Got} (h : s.crownDesc = some (j, d, g)) :
    s.crowns.journal = some j := by
  unfold State.crownDesc at h
  split at h
  · cases h
  · next k hk =>
    split at h
    · cases kept : k.kept with
      | none => simp [kept] at h
      | some x =>
        simp only [kept, Option.map_some, Option.some.injEq, Prod.mk.injEq] at h
        rw [hk, h.1]
    · cases h
      exact hk

/-- It stays the same where the entry's names stay. -/
theorem State.crownDesc_modJournal {s : State} {j : Journal} {d : Desc} {g : Got} {f : Journal → Journal}
    (h : s.crownDesc = some (j, d, g)) (ring : (f j).ring = j.ring) (seq : (f j).seq = j.seq)
    (kept : (f j).kept = j.kept) : (s.modJournal f).crownDesc = some (f j, d, g) := by
  have hj := State.journal_of_crownDesc h
  have rings (r : Nat) : (s.modJournal f).ring r = s.ring r := rfl
  unfold State.crownDesc at h ⊢
  simp only [State.modJournal_journal, hj, Option.map_some, ring, seq, kept, rings] at h ⊢
  cases found : (s.ring j.ring).find j.seq with
  | none => cases hk : j.kept <;> simp_all
  | some w => simp_all

/-- An entry with nothing left to write makes its effects. -/
theorem State.crownRecs_nil {s : State} {j : Journal} (h : s.crowns.journal = some j) (recs : j.recs = [])
    (wait : j.wait = .nvm) : s.crownRecs = s.crownApply := by
  have same : (s.modJournal fun x => { x with recs := [], wait := .nvm }) = s :=
    State.modJournal_id h (by rw [← recs, ← wait])
  simp only [State.crownRecs, h, recs, List.dropWhile_nil, same]

theorem State.noteEntry_journal (s : State) (n : Nat) (st : JState) :
    (s.noteEntry n st).crowns.journal = s.crowns.journal := by
  unfold State.noteEntry State.setActive
  split <;> rfl

/-! Clasps. -/

/-- The rule of R597 for the active crown. -/
theorem Clasp.accepts_iff_lt {x : Clasp} {b : Bool} {c : BitVec 16} :
    x.accepts b c = true ↔ x.claimHi < c ∨ (c = x.claimHi ∧ (x.holder = some b ∨ b = false)) := by
  simp [Clasp.accepts]

/-- An accepted output changes the clasp alone. -/
theorem State.activeOutput_journal {s v : State} {k : Nat} (h : s.activeOutput k = (true, v)) :
    v.crowns.journal = s.crowns.journal := by
  unfold State.activeOutput State.claspGate at h
  dsimp only at h
  split at h
  · cases h
    rfl
  · cases h

section
variable {u v : State} {j : Journal} {d : Desc} {got : Got} (desc : u.crownDesc = some (j, d, got))
  (journal : u.crowns.journal = some j)
include desc journal

/-- Work with no record to write is committed past clasp 0; refused there, it stays. -/
theorem State.crownDone_refused (effs : List Eff) (res : Bytes) (h : u.activeOutput 0 = (false, v)) :
    u.crownDone [] effs 0 res = v.modJournal fun x => { x with wait := .clasp } := by
  simp only [State.crownDone, desc, State.crownCommit, List.find?_nil, State.commitEntry, List.map_nil,
    State.noteTies_nil, journal, h, Bool.false_eq_true, if_false, State.entryStuck]

/-- Committed, it goes on to its effects. -/
theorem State.crownDone_committed {effs : List Eff} {res : Bytes} {k : Journal} {w : State}
    (h : u.activeOutput 0 = (true, v))
    (hk : k = { j with state := .committed, recs := [], effs := effs, cpl := some (cplOf d .done 0 res), wait := .nvm })
    (hw : w = ({ v with crowns := { v.crowns with journal := some k } } : State).noteEntry j.number .committed) :
    u.crownDone [] effs 0 res = w.crownApply := by
  have hv := (State.activeOutput_journal h).trans journal
  have entry : (v.modJournal fun x => { x with
      state := .committed, recs := chainRecs [], effs := effs, cpl := some (cplOf d .done 0 res), wait := .nvm }) =
      { v with crowns := { v.crowns with journal := some k } } := by
    simp only [State.modJournal, hv, hk, Option.map_some, chainRecs]
  have inPlace : w.crowns.journal = some k := by rw [hw, State.noteEntry_journal]
  rw [← State.crownRecs_nil inPlace (by rw [hk]) (by rw [hk])]
  simp only [State.crownDone, desc, State.crownCommit, List.find?_nil, State.commitEntry, List.map_nil,
    State.noteTies_nil, journal, h, if_true, entry, hw]

end

/-- Settles O14 (R596, R597, R611, R612): it holds; the entry goes through its states by the outputs that the clasps
accept. -/
theorem crownCommits : Obligations.CrownCommits := by
  refine ⟨fun u v w j k d got effs res c desc journal hc => ⟨fun h => ?_, fun h hk hw cut => ?_⟩,
    fun s t e es => ⟨rfl, fun h => ?_, fun h => ?_⟩, fun s t j c => ⟨fun h => ?_, fun h => ?_⟩,
    fun s k b c hb hc => ⟨fun h => ?_, fun h => ?_⟩⟩
  · exact State.crownDone_refused desc journal effs res h
  · subst hc
    have inPlace : w.crowns.journal = some k := by rw [hw, State.noteEntry_journal]
    have effects : k.effs = effs := by rw [hk]
    have number : k.number = j.number := by rw [hk]
    have cpl : k.cpl = some (cplOf d .done 0 res) := by rw [hk]
    rw [State.crownDone_committed desc journal h hk hw]
    refine ⟨fun t made => ?_, fun t made => ?_⟩
    · simp only [State.crownApply, inPlace, cut, effects, made, Bool.false_eq_true, if_false, State.entryStuck]
    · simp only [State.crownApply, inPlace, cut, effects, made, Bool.false_eq_true, if_false, if_true, cpl, number]
  · simp only [State.makeEffects, h, if_true]
  · simp only [State.makeEffects, h, Bool.false_eq_true, if_false]
  · simp only [State.crownClose, h, if_true]
  · simp only [State.crownClose, h, Bool.false_eq_true, if_false, State.entryStuck]
  · subst hb hc
    rw [State.activeOutput, State.claspGate, if_pos (Clasp.accepts_iff_lt.2 h)]
  · subst hb hc
    rw [State.activeOutput, State.claspGate, if_neg (mt Clasp.accepts_iff_lt.1 h), State.refuseOutput]

/-! The hallmark unit (R322 to R325). -/

/-- Which extend comes next does not depend on those passed over, as long as they may be passed over. -/
theorem State.nextExtend_skip {s : State} {x : ExtendReq} {b : List ExtendReq} (free : s.extendWaits x = false)
    (a before : List ExtendReq)
    (ready : s.heldMark x.n = true ∨ ∀ y ∈ before ++ a, y.rank = x.rank → s.extendWaits y = false)
    (skipped : ∀ c d y, a = c ++ y :: d → s.extendWaits y = true ∨
      (s.heldMark y.n = false ∧ ∃ z ∈ before ++ c, z.rank = y.rank ∧ s.extendWaits z = true)) :
    s.nextExtend before (a ++ x :: b) = some x := by
  induction a generalizing before with
  | nil =>
    rw [List.nil_append, State.nextExtend, if_pos]
    simp only [List.append_nil] at ready
    simp only [free, Bool.not_false, Bool.true_and, Bool.or_eq_true, List.all_eq_true, bne_iff_ne, Bool.not_eq_true']
    exact ready.imp_right fun all y hy => or_iff_not_imp_left.2 fun h => all y hy (not_not.1 h)
  | cons y a ih =>
    have passed : ¬ (!s.extendWaits y && (s.heldMark y.n ||
        before.all fun z => z.rank != y.rank || !s.extendWaits z)) = true := by
      obtain waits | ⟨notHeld, z, hz, rank, waits⟩ := skipped [] a y rfl
      · simp [waits]
      · simp only [List.append_nil] at hz
        simp only [notHeld, Bool.false_or, Bool.and_eq_true, List.all_eq_true, not_and, not_forall]
        exact fun _ => ⟨z, hz, by simp [rank, waits]⟩
    rw [List.cons_append, State.nextExtend, if_neg passed]
    refine ih (before ++ [y]) (by simpa using ready) fun c d z h => ?_
    have := skipped (y :: c) d z (by rw [h, List.cons_append])
    simpa using this

/-- An extend waits where the crown's waiting work holds its register and does not need its mark (R328). -/
theorem State.extendWaits_iff (s : State) (x : ExtendReq) : s.extendWaits x = true ↔
    s.heldMark x.n = false ∧ ∃ j m, s.crowns.journal = some j ∧ j.wait = .hold ∧ m ∈ j.hold ∧ m.hm = x.hm := by
  unfold State.extendWaits
  cases h : s.crowns.journal with
  | none => simp
  | some j =>
    simp only [Bool.and_eq_true, beq_iff_eq, List.any_eq_true, Bool.not_eq_true', Option.some.injEq]
    constructor
    · rintro ⟨⟨wait, m, hm, same⟩, free⟩
      exact ⟨free, j, m, rfl, wait, hm, same⟩
    · rintro ⟨free, j', m, rfl, wait, hm, same⟩
      exact ⟨⟨wait, m, hm, same⟩, free⟩

/-- Settles O13 (R286, R322 to R328): it holds; a facet takes the extends of registers 0 to 55, and the unit applies the
first that it may. -/
theorem hallmarkExtends : Obligations.HallmarkExtends := by
  refine ⟨fun s p g u d hs hu hd low check => post_step8 hs hu ?_, fun s x v next hv => ?_,
    fun s a b x free ready skipped => State.nextExtend_skip free a [] ready skipped, State.extendWaits_iff⟩
  · have facet : crownRuns .hmExtend d = false := by
      change Nat.ble 56 d.hm = false
      rw [← Bool.not_eq_true, Nat.ble_eq]
      omega
    subst hd
    change (if crownRuns .hmExtend (postDesc .hmExtend p) = true then _ else
      hmExtendFacet u p.ring s.hif.nextSeq (postDesc .hmExtend p) g.2.2) = _
    rw [facet, if_neg Bool.false_ne_true]
    simp only [hmExtendFacet, check]
    rfl
  · change Host.Outcome.next s.applyExtend.onward = _
    subst hv
    simp only [State.applyExtend, next]
    rfl

/-! Hallmark work of the crown. -/

section
variable {u : State} {d : Desc} {v : Bytes}

/-- Work that nothing bars is committed; the record of a persistent register is written first, but for `HM_LOCK`. -/
theorem hmApply_done (h : hmBars u d = none) : hmApply u d v = u.crownDone
    (if 56 ≤ d.hm ∧ !d.is .hmLock then
      [u.planRec (.sys 0x0B (d.hm - 56)) 0x0B ((hmAfter d (u.hallmark d.hm) v).bytes d.hm)] else [])
    [.hallmark d.hm (hmAfter d (u.hallmark d.hm) v)] 0
    ([BitVec.ofNat 8 d.hm] ++
      (if d.is .hmExtend then zeros 7 ++ leBytes 8 (hmAfter d (u.hallmark d.hm) v).extCount.toNat else [])) := by
  simp only [hmApply, h]

variable {j : Journal} {g : Got} (desc : u.crownDesc = some (j, d, g)) (family : j.opcode.toNat / 256 = 3)
include desc family

/-- The crown's hallmark work, held for the marks that are pending on its register. -/
theorem hallmarkGo_held (h : Nat) :
    (u.modJournal fun j => { j with wait := .hold, hold := u.marks.filter fun m => m.hm == h }).hallmarkGo =
      if (u.marks.filter fun m => m.hm == h) = [] then
        hmApply (u.modJournal fun j => { j with wait := .hold, hold := u.marks.filter fun m => m.hm == h }) d g.2.2
      else u.modJournal fun j => { j with wait := .hold, hold := u.marks.filter fun m => m.hm == h } := by
  have held := State.crownDesc_modJournal
    (f := fun j => { j with wait := .hold, hold := u.marks.filter fun m => m.hm == h }) desc rfl rfl rfl
  have left : (u.marks.filter fun m => m.hm == h).filter (fun m => u.marks.elem m) =
      u.marks.filter fun m => m.hm == h := by
    refine List.filter_eq_self.2 fun m hm => ?_
    simpa using List.mem_of_mem_filter hm
  have marks : ((u.modJournal fun j => { j with wait := .hold, hold := u.marks.filter fun m => m.hm == h }).marks) =
    u.marks := rfl
  simp only [State.hallmarkGo, held, marks, left, family, and_self, if_true, State.modJournal_modJournal]

end

/-- Settles O15 (R310, R327 to R334): it holds. `HM_READ` returns the register; the others wait for the marks of their
register and then commit what `hmAfter` makes of it. -/
theorem hallmarkCrownWork : Obligations.HallmarkCrownWork := by
  refine ⟨fun s p g u d hs hu hd permit => post_step8 hs hu ?_,
    fun x hx s p g u v d y j hs hu hd permit bars desc hy => ?_,
    fun s p g u d y hs hu hd high check hy => post_step8 hs hu ?_, fun d x v => ?_⟩
  · subst hd
    change hmStart u p.ring (postDesc .hmRead p) g = _
    simp [hmStart, permit]
  · have ops : x ∈ posts ∧ x.1.code.toNat / 256 = 3 ∧ x.1 ≠ .hmExtend ∧ x.1 ≠ .hmRead ∧ crownRuns x.1 d = true ∧
        u.startOp p.ring s.hif.nextSeq x.1 d g p.env = hmStart u p.ring d g := by
      simp only [List.mem_cons, List.not_mem_nil, or_false] at hx
      obtain rfl | rfl | rfl := hx <;> exact ⟨by simp [posts], by decide, by simp, by simp, rfl, rfl⟩
    obtain ⟨mem, family, notExtend, notRead, crown, start⟩ := ops
    obtain ⟨j', hj', code, -⟩ := atUnit_journal hs (hd ▸ crown)
    have hj := State.journal_of_crownDesc desc
    rw [hu, hj', Option.some.injEq] at hj
    subst hj
    have extend : d.is .hmExtend = false := by simp [hd, notExtend]
    have go : hmStart u p.ring d g =
        (u.modJournal fun j => { j with wait := .hold, hold := u.marks.filter fun m => m.hm == d.hm }).hallmarkGo := by
      have read : d.is .hmRead = false := by simp [hd, notRead]
      simp [hmStart, extend, read, permit, bars]
    have held := hallmarkGo_held desc (code ▸ family) d.hm
    refine ⟨fun none hv => exec_starts mem hs hu ?_, fun ⟨m, hm, same⟩ hv => exec_starts mem hs hu ?_⟩
    · have noMarks : (u.marks.filter fun m => m.hm == d.hm) = [] := by
        simpa using none
      rw [noMarks, if_pos rfl, ← hv] at held
      have lock : (!d.is .hmLock) = true ↔ x.1 ≠ .hmLock := by simp [hd]
      have bars' : hmBars v d = Option.none := by rw [hv]; exact bars
      have same : v.hallmark d.hm = u.hallmark d.hm := by rw [hv]; rfl
      rw [← hd, start, go, noMarks, ← hv, held, hmApply_done bars', same, ← hy]
      simp only [lock, extend, Bool.false_eq_true, if_false, List.append_nil]
    · have marks : (u.marks.filter fun m => m.hm == d.hm) ≠ [] := by
        simpa using ⟨m, hm, same⟩
      rw [← hd, start, go, held, if_neg marks, hv]
  · have crown : crownRuns .hmExtend d = true := by
      change Nat.ble 56 d.hm = true
      rwa [Nat.ble_eq]
    subst hd hy
    change (if crownRuns .hmExtend (postDesc .hmExtend p) = true then hmStart u p.ring (postDesc .hmExtend p) g
      else _) = _
    have bars : hmBars u (postDesc .hmExtend p) = none := by simp [hmBars]
    rw [crown, if_pos rfl]
    simp [hmStart, check, hmApply_done bars, high]
  · refine ⟨fun h => ?_, fun h => ?_, fun h => ?_, fun h => ?_⟩
    · simp [hmAfter, Desc.is, h]
    · simp [hmAfter, Desc.is, h, Op.code_inj]
    · simp [hmAfter, Desc.is, h, Op.code_inj]
    · simp [hmAfter, Desc.is, h, Op.code_inj, Hallmark.extend]

end Sys2Proof.Machine
end

