-- ==== Sys2Proof/Proofs/SignetPosts.lean ====
section
/-!
PROOF. Signet descriptors at step 8 (R361, R370, R383 to R386, R399).
-/

namespace Sys2Proof.Machine

theorem randomGo_ok {s v : State} {r seq : Nat} {d : Desc} {outs : List Ext} {b : Bytes} {re : Bool}
    (h : s.draw 2 (d.fld 24 4) (randomPred s d) = .ok b re v) :
    randomGo s r seq d outs = randomDone v r seq d outs b re := by simp only [randomGo, h]

theorem randomGo_fail {s v : State} {r seq : Nat} {d : Desc} {outs : List Ext}
    (h : s.draw 2 (d.fld 24 4) (randomPred s d) = .fail v) :
    randomGo s r seq d outs = v.finishBad r seq d (bad8 .entropyFail) := by simp only [randomGo, h]

theorem randomGo_wait {s : State} {r seq : Nat} {d : Desc} {outs : List Ext}
    (h : s.draw 2 (d.fld 24 4) (randomPred s d) = .wait) :
    randomGo s r seq d outs = s.waitFor (.random r seq) := by simp only [randomGo, h]

/-- A `RANDOM` draws at dispatch. -/
theorem sigStart_random (s : State) (r seq : Nat) (p : Post) (got : Got) :
    sigStart s r seq (postDesc .random p) got =
      randomGo (s.keepGot r seq got) r seq (postDesc .random p) got.2.1 := by
  simp [sigStart]

/-- The first signing slot check, length and hallmarks passed, a request waits for an engine of its kind. -/
theorem sigStart_asks {s : State} {r seq : Nat} {d : Desc} {got : Got} {signs : Bool}
    (notRandom : d.is .random = false) (hs : signs = (d.is .sigSign || d.is .sigQuote))
    (len : d.is .sigQuote = false → d.declLen.toNat - sigFixed d ≤ 65536)
    (check : signs = true → signCheck s r d = none)
    (readable : d.is .sigQuote = true → ∀ h, h < 64 → bitOf (d.fld 24 8) h = true → s.hmReadable h r = true)
    (serves : s.kindServes (isLattice (d.fld 20 1)) = true) :
    sigStart s r seq d got =
      { (if signs then (s.keepGot r seq got).reserve (handleIndex (d.fld 16 4)) else s.keepGot r seq got) with
        signet := { s.signet with queue := s.signet.queue ++
          [{ client := .desc r seq, lattice := isLattice (d.fld 20 1), scheme := d.fld 20 1, desc := some d }] } } := by
  have short : ¬ (!d.is .sigQuote && decide (65536 < d.declLen.toNat - sigFixed d)) = true := by
    simp only [Bool.and_eq_true, Bool.not_eq_true', decide_eq_true_eq, not_and, Nat.not_lt]
    exact len
  have slot : (if signs then signCheck s r d else none) = none := by
    split
    · next h => exact check h
    · rfl
  have hallmarks : ¬ (d.is .sigQuote && (List.range 64).any fun h =>
      bitOf (d.fld 24 8) h && !s.hmReadable h r) = true := by
    simp only [Bool.and_eq_true, List.any_eq_true, List.mem_range, Bool.not_eq_true', not_and, not_exists,
      Bool.not_eq_false]
    exact readable
  unfold sigStart
  dsimp only
  rw [← hs, if_neg (by simp [notRandom]), if_neg short, slot]
  dsimp only
  rw [if_neg hallmarks, if_neg (by simp [serves])]
  cases signs <;> rfl

/-- Settles O16 (R347, R361, R370, R383 to R386): it holds; what signs or verifies waits for an engine, random data is
drawn at once. -/
theorem signetPosts : Obligations.SignetPosts := by
  refine ⟨fun x hx s p g u d signs hs hu hd hsigns len check readable serves => ?_, fun s p g u w d hs hu hd hw => ?_⟩
  · have start (hd' : d = postDesc x.1 p) (notRandom : x.1 ≠ .random)
        (kinds : signs = (decide (x.1 = .sigSign) || decide (x.1 = .sigQuote))) :=
      sigStart_asks (s := u) (r := p.ring) (seq := s.hif.nextSeq) (d := d) (got := g) (signs := signs)
        (by simp [hd', notRandom]) (by simp [hd', kinds])
        (fun h => len fun e => by simp [hd', e] at h) check (fun h => readable (by simpa [hd'] using h)) serves
    simp only [signetAsks, List.mem_cons, List.not_mem_nil, or_false] at hx
    obtain rfl | rfl | rfl := hx
    · exact post_step8 hs hu (hd ▸ start hd (by decide) hsigns)
    · exact post_step8 hs hu (hd ▸ start hd (by decide) hsigns)
    · exact post_step8 hs hu (hd ▸ start hd (by decide) hsigns)
  · subst hd hw
    have start (t : State) (h : randomGo (u.keepGot p.ring s.hif.nextSeq g) p.ring s.hif.nextSeq (postDesc .random p)
        g.2.1 = t) : exec (.randomDraw p) s = .next t.onward :=
      post_step8 hs hu ((sigStart_random u p.ring s.hif.nextSeq p g).trans h)
    exact ⟨fun b re v h => start _ (randomGo_ok h), fun v h => start _ (randomGo_fail h),
      fun h => start _ (randomGo_wait h)⟩

end Sys2Proof.Machine
end

