-- ==== Sys2Proof/Proofs/VaultPosts.lean ====
section
/-!
PROOF. Vault descriptors on one entry (R416, R417, R428, R452 to R459).
-/

namespace Sys2Proof.Machine

/-! Entries read through the vault cache (R416 to R418). -/

theorem State.readEntry_failed {u : State} {e : Nat} (h : (u.ventry e).failed = true) : u.readEntry e = (u, false) := by
  simp only [State.readEntry, h, if_true]

theorem State.readEntry_cached {u : State} {e : Nat} (h : (u.ventry e).failed = false)
    (c : u.vault.cached.elem e = true) : u.readEntry e = (u.touch e, true) := by
  simp only [State.readEntry, h, c, Bool.false_eq_true, if_false, if_true]

theorem State.readEntry_unwritten {u : State} {e : Nat} (h : (u.ventry e).failed = false)
    (c : u.vault.cached.elem e = false) (v : (u.ventry e).version = 0) : u.readEntry e = (u, true) := by
  simp only [State.readEntry, h, c, v, Bool.false_eq_true, if_false, if_true]

/-- An entry that is not cached is read under its L0 node. -/
theorem State.readEntry_stored {u : State} {e : Nat} (h : (u.ventry e).failed = false)
    (c : u.vault.cached.elem e = false) (v : (u.ventry e).version ≠ 0) : u.readEntry e =
      if u.vault.nodeLost (e / 8) then (u.nodeFail (e / 8), false)
      else if u.vault.flaws.elem (.entry e) then ((u.touchNode (e / 8)).vaultFail e, false)
      else ((u.touchNode (e / 8)).touch e, true) := by
  simp only [State.readEntry, h, c, v, Bool.false_eq_true, if_false]
  rfl

theorem knownEntry_moved {u : State} {e : Nat} (h : u.vault.st = .moved) :
    knownEntry u e = (u, .error .endpointUnknown) := by
  rw [knownEntry, if_pos h]

theorem knownEntry_unread {u w : State} {e : Nat} (h : u.vault.st ≠ .moved) (r : u.readEntry e = (w, false)) :
    knownEntry u e = (w, .error .vaultIntegrity) := by
  simp only [knownEntry, if_neg h, r, Bool.not_false, if_true]

theorem knownEntry_read {u w : State} {e : Nat} (h : u.vault.st ≠ .moved) (r : u.readEntry e = (w, true)) :
    knownEntry u e = if (w.ventry e).st = .empty then (w, .error .endpointUnknown)
      else (w.soundPip e, .ok (w.ventry e)) := by
  simp only [knownEntry, if_neg h, r, Bool.not_true, Bool.false_eq_true, if_false]

/-! An arm taken into the batch (R428, R429). -/

theorem State.tryArm_gathered {w x : State} {e : Nat} {o : Option (Nat × Nat)}
    (h : (e ∉ w.vault.fold ∧ x = w) ∨ (e ∈ w.vault.fold ∧ w.tryFold e = (x, true))) :
    w.tryArm e o = (({ x with vault := { x.vault with
      arms := x.vault.arms ++ [⟨e, .gathered, o⟩], batching := true } } : State).bump 24 4 1, true) := by
  obtain ⟨clear, rfl⟩ | ⟨due, folded⟩ := h
  · simp [State.tryArm, clear]
  · simp [State.tryArm, due, folded]

theorem State.tryArm_lost {w x : State} {e : Nat} {o : Option (Nat × Nat)} (due : e ∈ w.vault.fold)
    (lost : w.tryFold e = (x, false)) : w.tryArm e o = (x, false) := by
  simp [State.tryArm, due, lost]

/-! Step 8 of the vault family. -/

section
variable {u w : State} {r seq : Nat} {d : Desc}

/-- A first enrolment of an entry that can be read (R454). -/
theorem vaultEnroll_first {ins : List Ext} {env : Env} {data : Bytes} {n : Nat} {e : PipEntry}
    (read : u.readAll env ins = .ok data) (hn : n = leField data 0 8) (pos : n ≠ 0) (lt : n < 2 ^ 40)
    (empty : (u.ventry d.endpoint).st = .empty) (sound : (u.ventry d.endpoint).failed = false)
    (he : e = { hwm := BitVec.ofNat 40 (n - 1), window := BitVec.allOnes 64, known := true })
    (got : u.readEntry d.endpoint = (w, true)) :
    vaultEnroll u r seq d ins env = match freshKey w d (fnOf r) (data.drop 72) with
      | (.ok k, v) => (if d.vctl 0 then
            ((v.setPipe d.endpoint e).setVentry d.endpoint (enrolled v d data k (u.ventry d.endpoint) e)).dropSched
              fun x => x == .endpoint d.endpoint
          else (v.setPipe d.endpoint e).setVentry d.endpoint
            (enrolled v d data k (u.ventry d.endpoint) e)).finishDone r seq d 0 (leBytes 8 e.hwm.toNat)
      | (.error st, v) => v.finishBad r seq d { status := st, step := 8 } := by
  subst hn he
  have range : ¬ (leField data 0 8 = 0 ∨ 2 ^ 40 ≤ leField data 0 8) := by omega
  unfold vaultEnroll
  rw [read]
  dsimp only
  rw [if_neg range, got]
  dsimp only
  rw [if_neg (by simp), if_neg (by simp [empty])]
  split <;> next h => simp only [h, empty, sound, true_or, if_true, Bool.not_false, and_self, bad8]

/-- An entry that cannot be read is not enrolled (R417). -/
theorem vaultEnroll_unread {ins : List Ext} {env : Env} {data : Bytes}
    (read : u.readAll env ins = .ok data) (pos : leField data 0 8 ≠ 0) (lt : leField data 0 8 < 2 ^ 40)
    (sound : (u.ventry d.endpoint).failed = false) (got : u.readEntry d.endpoint = (w, false)) :
    vaultEnroll u r seq d ins env = w.finishBad r seq d { status := .vaultIntegrity, step := 8 } := by
  have range : ¬ (leField data 0 8 = 0 ∨ 2 ^ 40 ≤ leField data 0 8) := by omega
  unfold vaultEnroll
  rw [read]
  dsimp only
  rw [if_neg range, got]
  dsimp only
  rw [if_pos (by simp [sound])]
  rfl

/-- A rekeying from a sequence above the high-water mark (R456). -/
theorem vaultRekey_known {ins : List Ext} {env : Env} {data : Bytes} {v : VEntry}
    (read : u.readAll env ins = .ok data) (known : knownEntry u d.endpoint = (w, .ok v)) (current : v.st ≠ .revoked)
    (above : (w.pipe d.endpoint).hwm.toNat < leField data 0 8) (lt : leField data 0 8 < 2 ^ 40) :
    vaultRekey u r seq d ins env = match freshKey w d (fnOf r) (data.drop 8) with
      | (.ok k, x) => ((x.dropSched fun y => y == .endpoint d.endpoint).setVentry d.endpoint { v with
          key := k.mat, prevKey := v.key, rekeySeq := leField data 0 8, recCount := 0, blockCount := 0,
          recLimit := if k.invLimit = 0 then 2 ^ 32 else k.invLimit,
          blockLimit := if k.blockLimit = 0 then 2 ^ 64 - 1 else k.blockLimit,
          keyGen := v.keyGen + 1 }).finishDone r seq d 0 (leBytes 4 (v.keyGen + 1))
      | (.error st, x) => x.finishBad r seq d { status := st, step := 8 } := by
  have range : ¬ (leField data 0 8 ≤ (w.pipe d.endpoint).hwm.toNat ∨ 2 ^ 40 ≤ leField data 0 8) := by omega
  unfold vaultRekey
  rw [read, known]
  dsimp only
  rw [if_neg current, if_neg range]
  split <;> next h => simp only [h, bad8]

/-- An arm of one endpoint that may be armed and is not yet (R458). -/
theorem vaultArm_fresh {e : Nat} {x : State} {b : Bool} (he : e = d.endpoint) (one : d.fld 20 4 = 1)
    (may : w.mayArm e = true) (fresh : (w.pipe e).armedIn w.vault.record.openEpoch = false)
    (h : w.tryArm e (some (r, seq)) = (x, b)) :
    vaultArm w r seq d = if b then ({ x with vault := { x.vault with
        armJobs := x.vault.armJobs ++ [⟨r, seq, 1, 0, 0, 0⟩] } } : State).endArmJobs else x.armLost r seq := by
  subst he
  have sound := may
  simp only [State.mayArm, Bool.and_eq_true, beq_iff_eq, Bool.not_eq_true'] at sound
  obtain ⟨⟨⟨⟨_, check⟩, known⟩, current⟩, exact_⟩ := sound
  simp [vaultArm, one, known, check, current, exact_, may, fresh, h]

/-- An arm of one endpoint that is armed already (R458). -/
theorem vaultArm_armed {e : Nat} (he : e = d.endpoint) (one : d.fld 20 4 = 1) (may : w.mayArm e = true)
    (armed : (w.pipe e).armedIn w.vault.record.openEpoch = true) :
    vaultArm w r seq d = ({ w with vault := { w.vault with
        armJobs := w.vault.armJobs ++ [⟨r, seq, 0, 1, 0, 0⟩] } } : State).endArmJobs := by
  subst he
  have sound := may
  simp only [State.mayArm, Bool.and_eq_true, beq_iff_eq, Bool.not_eq_true'] at sound
  obtain ⟨⟨⟨⟨_, check⟩, known⟩, current⟩, exact_⟩ := sound
  simp [vaultArm, one, known, check, current, exact_, may, armed]

end

section
variable {u : State} {r seq : Nat} {p : Post} {g : Got} {env : Env}

theorem startOp_vaultEnroll (ok : vaultRefuse u (postDesc .vaultEnroll p) = none) :
    u.startOp r seq .vaultEnroll (postDesc .vaultEnroll p) g env = vaultEnroll u r seq (postDesc .vaultEnroll p) g.1 env := by
  change vaultStart _ _ _ _ _ _ = _
  simp [vaultStart, ok]

theorem startOp_vaultRevoke (ok : vaultRefuse u (postDesc .vaultRevoke p) = none) :
    u.startOp r seq .vaultRevoke (postDesc .vaultRevoke p) g env = vaultRevoke u r seq (postDesc .vaultRevoke p) := by
  change vaultStart _ _ _ _ _ _ = _
  simp [vaultStart, ok]

theorem startOp_vaultRekey (ok : vaultRefuse u (postDesc .vaultRekey p) = none) :
    u.startOp r seq .vaultRekey (postDesc .vaultRekey p) g env = vaultRekey u r seq (postDesc .vaultRekey p) g.1 env := by
  change vaultStart _ _ _ _ _ _ = _
  simp [vaultStart, ok]

theorem startOp_vaultArm (ok : vaultRefuse u (postDesc .vaultArm p) = none) :
    u.startOp r seq .vaultArm (postDesc .vaultArm p) g env =
      vaultArm (u.keepGot r seq g) r seq (postDesc .vaultArm p) := by
  change vaultStart _ _ _ _ _ _ = _
  simp [vaultStart, ok]

theorem startOp_vaultQuery (ok : vaultRefuse u (postDesc .vaultQuery p) = none) :
    u.startOp r seq .vaultQuery (postDesc .vaultQuery p) g env = vaultQuery u r seq (postDesc .vaultQuery p) g.2.1 := by
  change vaultStart _ _ _ _ _ _ = _
  simp [vaultStart, ok]

end

/-- Settles O17 (R416, R417, R428, R429, R452 to R459): it holds; each descriptor reads its entry through the vault
cache first. -/
theorem vaultEntryWork : Obligations.VaultEntryWork := by
  refine ⟨fun s p g u w d data n e hs hu hd ok read hn pos lt empty sound he => ⟨fun got => ?_, fun got => ?_⟩,
    fun s p g u w d hs hu hd ok => ⟨fun v hv => ?_, fun st hv => ?_⟩, fun u w e => ?_,
    fun s p g u w d v data hs hu hd ok read hv cur up lt => ?_, fun s p g u w d v hs hu hd ok hv => ?_,
    fun s p g u w d e hs hu hd he ok one hw may => ⟨fun fresh x => ⟨fun h => ?_, fun h => ?_⟩, fun armed => ?_⟩,
    fun w x e o => ⟨State.tryArm_gathered, State.tryArm_lost⟩⟩
  · subst hd
    refine (post_step8 hs hu ((startOp_vaultEnroll ok).trans
      (vaultEnroll_first read hn pos lt empty sound he got))).trans ?_
    generalize freshKey w _ _ _ = q
    obtain ⟨_ | _, _⟩ := q <;> rfl
  · subst hd hn
    exact post_step8 hs hu ((startOp_vaultEnroll ok).trans (vaultEnroll_unread read pos lt sound got))
  · subst hd
    refine post_step8 hs hu ((startOp_vaultRevoke ok).trans ?_)
    simp only [vaultRevoke, hv]
  · subst hd
    refine post_step8 hs hu ((startOp_vaultRevoke ok).trans ?_)
    simp only [vaultRevoke, hv, bad8]
  · refine ⟨knownEntry_moved, knownEntry_unread, fun h r empty => ?_, fun h r some => ?_, State.readEntry_failed,
      State.readEntry_cached, State.readEntry_unwritten, fun h c v => ⟨fun lost => ?_, fun l f => ?_, fun l f => ?_⟩⟩
    · rw [knownEntry_read h r, if_pos empty]
    · rw [knownEntry_read h r, if_neg some]
    · rw [State.readEntry_stored h c v, lost, if_pos rfl]
    · rw [State.readEntry_stored h c v, l, f, if_neg Bool.false_ne_true, if_pos rfl]
    · rw [State.readEntry_stored h c v, l, f, if_neg Bool.false_ne_true, if_neg Bool.false_ne_true]
  · subst hd
    refine (post_step8 hs hu ((startOp_vaultRekey ok).trans (vaultRekey_known read hv cur up lt))).trans ?_
    generalize freshKey w _ _ _ = q
    obtain ⟨_ | _, _⟩ := q <;> rfl
  · subst hd
    refine post_step8 hs hu ((startOp_vaultQuery ok).trans ?_)
    simp only [vaultQuery, hv]
  · subst hd hw
    exact post_step8 hs hu ((startOp_vaultArm ok).trans (vaultArm_fresh he one may fresh h))
  · subst hd hw
    exact post_step8 hs hu ((startOp_vaultArm ok).trans (vaultArm_fresh he one may fresh h))
  · subst hd hw
    exact post_step8 hs hu ((startOp_vaultArm ok).trans (vaultArm_armed he one may armed))

end Sys2Proof.Machine
end

