-- ==== Sys2Proof/Proofs/CapturePosts.lean ====
section
/-!
PROOF. Captures and strand descriptors at step 8 (R510, R531 to R544).
-/

namespace Sys2Proof.Machine

section
variable {u v : State} {r seq : Nat} {d : Desc} {g : Got}

/-- A capture that passes orders 1 to 8 fetches its endpoint key (R510). -/
theorem capStart_fetches {env : Env} {f : Nat} {h : Bytes} {c : CapSt} (setup : (u.stream d.stream).setup = none)
    (ok : capRefuse u r d = none) (place : u.reservePlace d.stream = some v)
    (facet : u.pickFacet 1 (capB d) 512 = some f) (head : u.gather env g.1 0 0 64 = .ok h)
    (well : headerOk d h = true) (hc : c = capInit d h g.2.2)
    (wrap : c.startSector + unitCount (capB d) c.sectorSize ≤ 2 ^ 128) :
    capStart u r seq d g env =
      (((match c.hm with
          | some x => v.mark x seq
          | none => v).reserve (handleIndex c.archive.toNat)).modRing r fun x => x.setPhase seq .active).addMsg f
        { id := 0, ring := r, seq := seq, chain := none, cls := u.servedClass r d, clsNow := u.workClass r seq,
          kind := .capture { c with gddr := ((u.stagePlan f (capB d) 512).getD (0, 0)).2 != 0 },
          st := .fetching, ins := g.1, outs := g.2.1, inLen := d.declLen.toNat, pos := 0, outPos := 0, first := true,
          staged := [], held := true, onChip := ((u.stagePlan f (capB d) 512).getD (0, 0)).1,
          gddrBytes := ((u.stagePlan f (capB d) 512).getD (0, 0)).2, param := 0, aborted := false } := by
  subst hc
  unfold capStart
  dsimp only
  rw [if_neg (by simp [setup]), ok]
  dsimp only
  rw [place]
  dsimp only
  rw [facet]
  dsimp only
  rw [head]
  dsimp only
  rw [if_neg (by simp [well]), if_neg (Nat.not_lt.2 wrap)] <;> rfl

/-- A setup whose signing slots suit waits for the places of its stream (R532). -/
theorem strandSetup_taken (setup : (u.stream (d.fld 16 1)).setup = none)
    (ec : bitOf (d.fld 17 1) 0 = true → strandSlot u (d.fld 24 4) 0x11 = none)
    (ml : bitOf (d.fld 17 1) 1 = true → strandSlot u (d.fld 28 4) 0x20 = none) :
    strandSetup u r seq d =
      ((u.modRing r fun x => x.setPhase seq .active).modStream (d.fld 16 1) fun x =>
        { x with setup := some (r, seq) }).setupGo (d.fld 16 1) := by
  have ecSlot : (if bitOf (d.fld 17 1) 0 = true then strandSlot u (d.fld 24 4) 0x11 else none) = none := by
    split
    · next h => exact ec h
    · rfl
  have mlSlot : (if bitOf (d.fld 17 1) 1 = true then strandSlot u (d.fld 28 4) 0x20 else none) = none := by
    split
    · next h => exact ml h
    · rfl
  unfold strandSetup
  dsimp only
  rw [ecSlot]
  dsimp only
  rw [mlSlot, if_neg (by simp [setup])]

/-- A collect of an owner of its stream waits its turn (R541, R542). -/
theorem strandCollect_waits (owner : (u.stream (d.fld 16 1)).owner.getLsbD (fnOf r) = true)
    (room : (u.stream (d.fld 16 1)).recordLen ≤ extsLen g.2.1) (few : (u.stream (d.fld 16 1)).collects.length < 64) :
    strandCollect u r seq d g =
      ((u.keepGot r seq g).modStream (d.fld 16 1) fun y => { y with collects := y.collects ++ [(r, seq)] }).strandsGo := by
  unfold strandCollect
  dsimp only
  rw [if_neg (by simp [owner]), if_neg (Nat.not_lt.2 room), if_neg (Nat.not_le.2 few)]

/-- `STRAND_CLOSE` of the open strand (R544). -/
theorem strandClose_open {x : Strand} (opened : u.openStrand (d.fld 16 1) = some x)
    (id : d.fld 20 4 = 0 ∨ d.fld 20 4 = x.id.toNat) :
    strandClose u r seq d =
      ((u.modRing r fun y => y.setPhase seq .active).modStream (d.fld 16 1) fun y =>
        { y with closers := y.closers ++ [(r, seq)] }).askClose (d.fld 16 1) 3 := by
  simp only [strandClose, opened, if_pos id]

/-- `STRAND_CLOSE` where no strand is open (R536). -/
theorem strandClose_none (none : u.openStrand (d.fld 16 1) = none) :
    strandClose u r seq d = if d.fld 20 4 = 0 ∨ (u.stream (d.fld 16 1)).counter.toNat < d.fld 20 4
      then u.finishDone r seq d 0 [] else u.finishBad r seq d (bad8 .strandClosed) := by
  simp only [strandClose, none]

end

/-- Settles O19 (R510, R531 to R544): it holds; a capture goes to its key fetch, a strand descriptor to its stream. -/
theorem captureAndStrandPosts : Obligations.CaptureAndStrandPosts := by
  refine ⟨fun s p g u v d f h c hs hu hd setup ok place facet head well hc wrap => post_step8 hs hu ?_,
    fun s p g u d hs hu hd setup ec ml => post_step8 hs hu ?_,
    fun s p g u d hs hu hd owner room few => post_step8 hs hu ?_,
    fun s p g u d hs hu hd => ⟨fun x opened id => post_step8 hs hu ?_, fun none id => post_step8 hs hu ?_,
      fun none id taken => post_step8 hs hu ?_⟩⟩
  · subst hd
    exact capStart_fetches setup ok place facet head well hc wrap
  · subst hd
    exact strandSetup_taken setup ec ml
  · subst hd
    exact strandCollect_waits owner room few
  · subst hd
    exact strandClose_open opened id
  · subst hd
    exact (strandClose_none none).trans (if_pos id)
  · subst hd
    exact (strandClose_none none).trans (if_neg (by omega))

end Sys2Proof.Machine
end

