-- ==== Sys2Proof/Proofs/AppletPosts.lean ====
section
/-!
PROOF. Applet descriptors at step 8 (R554, R561, R563, R565).
-/

namespace Sys2Proof.Machine

section
variable {u : State} {r seq : Nat} {d : Desc} {g : Got} {env : Env}

/-- An invocation that is permitted waits for a move engine (R561). -/
theorem appInvoke_waits (len : d.declLen.toNat ≤ 16384) (enabled : u.applets.invokeEn = true)
    (kind : (u.app (d.fld 16 1)).kind 0 = true) (still : (u.app (d.fld 16 1)).waiting = none)
    (owner : (u.app (d.fld 16 1)).owner.getLsbD (fnOf r) = true) :
    appInvoke u r seq d g = { u.keepGot r seq g with
      applets := { (u.keepGot r seq g).applets with waiting := (u.keepGot r seq g).applets.waiting ++
        [{ kind := .invoke r seq, slot := d.fld 16 1, ring := r, fn := fnOf r, cls := u.workClass r seq,
           declLen := d.declLen.toNat, arg := BitVec.ofNat 64 (d.fld 24 8),
           budget := if d.fld 20 4 = 0 then 100000 else d.fld 20 4 }] } } := by
  unfold appInvoke
  dsimp only
  rw [if_neg (Nat.not_lt.2 len), if_neg (by simp [enabled]), if_neg (by simp [kind, still]), if_neg (by simp [owner])]

/-- An install in an empty slot asks for its verification (R563). -/
theorem appInstall_asks {img : Bytes} (read : u.readAll env g.1 = .ok img) (well : imageBad d img = none)
    (empty : (u.app (d.fld 16 1)).st = .empty) (signed : u.applets.gen ≠ 0)
    (keys : u.applets.signerMl = [] ∨ bitOf (leField img 5 1) 1 = true) :
    appInstall u d g env = (u.crownKeep (g.1, g.2.1, img)).askCrown false 0x02 := by
  have both : ¬ (u.applets.gen = 0 ∨ (!u.applets.signerMl.isEmpty) = true ∧ (!bitOf (leField img 5 1) 1) = true) := by
    refine not_or.2 ⟨signed, ?_⟩
    obtain none | both := keys
    · simp [none]
    · simp [both]
  unfold appInstall
  rw [read]
  dsimp only
  rw [well]
  dsimp only
  rw [if_neg (by simp [empty]), if_neg both]

/-- A slot that is not empty is removed when it is free (R565). -/
theorem appRemove_waits {j : Journal} (journal : u.crowns.journal = some j) (held : (u.app (d.fld 16 1)).st ≠ .empty) :
    appRemove u d = ((u.setApp (d.fld 16 1) { u.app (d.fld 16 1) with
      waiting := some ⟨j.ring, j.seq, true, [], [], [], 0⟩ }).crownWait .hold).appGo := by
  simp only [appRemove, journal, if_neg held]

/-- A signer with an ECDSA key alone (R554, R555). -/
theorem appSigner_ecdsa {b : Bytes} (read : u.readAll env g.1 = .ok b) (alone : (signerKeys d b).2 = []) :
    appSigner u d g env = if pubValid 0x02 (signerKeys d b).1
      then (if u.applets.gen = 0 then signerCommit u d b else (u.crownKeep (g.1, g.2.1, b)).askCrown false 0x02)
      else u.crownFail { status := .signetInput, step := 8 } := by
  unfold appSigner
  rw [read]
  dsimp only
  rw [alone]
  cases valid : pubValid 0x02 (signerKeys d b).1
  · rfl
  · rfl

end

/-- Settles O20 (R554, R555, R561 to R565): it holds; what an applet descriptor asks for waits for an engine, for its
verification, or for its slot. -/
theorem appletPosts : Obligations.AppletPosts := by
  refine ⟨fun s p g u w d hs hu hd len enabled kind still owner hw => post_step8 hs hu ?_,
    fun s p g u d img hs hu hd read well empty signed keys => post_step8 hs hu ?_,
    fun s p g u d j hs hu hd journal held => post_step8 hs hu ?_,
    fun s p g u d b hs hu hd read alone => ⟨fun first => ?_, fun later => ?_⟩⟩
  · subst hd hw
    exact appInvoke_waits len enabled kind still owner
  · subst hd
    exact appInstall_asks read well empty signed keys
  · subst hd
    exact appRemove_waits journal held
  · subst hd
    refine post_step8 hs hu ((appSigner_ecdsa read alone).trans ?_)
    rw [if_pos first, signerCommit, alone]
  · subst hd
    refine post_step8 hs hu ((appSigner_ecdsa read alone).trans ?_)
    rw [if_neg later]

end Sys2Proof.Machine
end

