-- ==== Sys2Proof/Proofs/KeyPosts.lean ====
section
/-!
PROOF. Key descriptors and ceremonies at step 8 (R165 to R216).
-/

namespace Sys2Proof.Machine

/-! A key descriptor that custody does not refuse runs on as its own operation (R165, R169). -/

section
variable {w u : State} {r seq : Nat} {p : Post} {g : Got} {env : Env}

theorem startOp_keyGenerate (hu : u = w.noteTies (keyNames (postDesc .keyGenerate p)))
    (ok : keyRefuse u (postDesc .keyGenerate p) = false) :
    w.startOp r seq .keyGenerate (postDesc .keyGenerate p) g env = keyGenerate u (postDesc .keyGenerate p) g := by
  subst hu
  change keyStart _ _ _ _ = _
  simp [keyStart, ok]

theorem startOp_keyImport (hu : u = w.noteTies (keyNames (postDesc .keyImport p)))
    (ok : keyRefuse u (postDesc .keyImport p) = false) :
    w.startOp r seq .keyImport (postDesc .keyImport p) g env = keyImport u (postDesc .keyImport p) g env := by
  subst hu
  change keyStart _ _ _ _ = _
  simp [keyStart, ok]

theorem startOp_keyExport (hu : u = w.noteTies (keyNames (postDesc .keyExport p)))
    (ok : keyRefuse u (postDesc .keyExport p) = false) :
    w.startOp r seq .keyExport (postDesc .keyExport p) g env = keyExport u (postDesc .keyExport p) g := by
  subst hu
  change keyStart _ _ _ _ = _
  simp [keyStart, ok]

theorem startOp_keyDestroy (hu : u = w.noteTies (keyNames (postDesc .keyDestroy p)))
    (ok : keyRefuse u (postDesc .keyDestroy p) = false) :
    w.startOp r seq .keyDestroy (postDesc .keyDestroy p) g env = keyDestroy u (postDesc .keyDestroy p) := by
  subst hu
  change keyStart _ _ _ _ = _
  simp [keyStart, ok]

theorem startOp_keyRelease (hu : u = w.noteTies (keyNames (postDesc .keyRelease p)))
    (ok : keyRefuse u (postDesc .keyRelease p) = false) :
    w.startOp r seq .keyRelease (postDesc .keyRelease p) g env = keyRelease u (postDesc .keyRelease p) := by
  subst hu
  change keyStart _ _ _ _ = _
  simp [keyStart, ok]

theorem startOp_keyLimit (hu : u = w.noteTies (keyNames (postDesc .keyLimit p)))
    (ok : keyRefuse u (postDesc .keyLimit p) = false) :
    w.startOp r seq .keyLimit (postDesc .keyLimit p) g env = keyLimit u (postDesc .keyLimit p) := by
  subst hu
  change keyStart _ _ _ _ = _
  simp [keyStart, ok]

theorem startOp_keyLoad (hu : u = w.noteTies (keyNames (postDesc .keyLoad p)))
    (ok : keyRefuse u (postDesc .keyLoad p) = false) :
    w.startOp r seq .keyLoad (postDesc .keyLoad p) g env = keyLoad u (postDesc .keyLoad p) := by
  subst hu
  change keyStart _ _ _ _ = _
  simp [keyStart, ok]

theorem startOp_keyPublic (hu : u = w.noteTies (keyNames (postDesc .keyPublic p)))
    (ok : keyRefuse u (postDesc .keyPublic p) = false) :
    w.startOp r seq .keyPublic (postDesc .keyPublic p) g env = keyPublic u (postDesc .keyPublic p) g := by
  subst hu
  change keyStart _ _ _ _ = _
  simp [keyStart, ok]

theorem startOp_keyDecapsulate (hu : u = w.noteTies (keyNames (postDesc .keyDecapsulate p)))
    (ok : keyRefuse u (postDesc .keyDecapsulate p) = false) :
    w.startOp r seq .keyDecapsulate (postDesc .keyDecapsulate p) g env =
      keyDecapsulate u (postDesc .keyDecapsulate p) g env := by
  subst hu
  change keyStart _ _ _ _ = _
  simp [keyStart, ok]

theorem startOp_keyScrub (hu : u = w.noteTies (keyNames (postDesc .keyScrub p)))
    (ok : keyRefuse u (postDesc .keyScrub p) = false) :
    w.startOp r seq .keyScrub (postDesc .keyScrub p) g env = keyRung u 4 := by
  subst hu
  change keyStart _ _ _ _ = _
  simp [keyStart, ok]

theorem startOp_keyPurge (hu : u = w.noteTies (keyNames (postDesc .keyPurge p)))
    (ok : keyRefuse u (postDesc .keyPurge p) = false) :
    w.startOp r seq .keyPurge (postDesc .keyPurge p) g env = keyRung u 5 := by
  subst hu
  change keyStart _ _ _ _ = _
  simp [keyStart, ok]

end

/-! New keys (R193, R199, R368). -/

section
variable {u v : State} {d : Desc} {g : Got} {env : Env}

/-- A volatile key fills the first run of free slots (R176, R193). -/
theorem keyMade_slots {k : KeyData} {i : Nat} {recs : List RecWrite} {effs : List Eff} (volatile : d.persist = false)
    (h : newKey u (d.fld 32 4) noParent k = .ok (i, recs, effs)) :
    keyMade u d k = u.crownDone recs effs 0 (leBytes 4 (slotHandle i)) := by
  simp only [keyMade, volatile, Bool.false_eq_true, if_false, h]

theorem newKey_freeRun {owner parent : Nat} {k : KeyData} {i : Nat} {recs : List RecWrite} {effs : List Eff}
    (h : newKey u owner parent k = .ok (i, recs, effs)) : u.freeRun (slotRun k.type) = some i := by
  unfold newKey at h
  dsimp only at h
  split at h
  · cases h
  · split at h
    · cases h
    · next run => cases h; exact run

/-- A symmetric key is made of what is drawn (R199). -/
theorem keyGenerate_symmetric {b : Bytes} {re : Bool} {t : Nat × List RecWrite × List Eff} (volatile : d.persist = false)
    (attr : attrOk (d.fld 24 1) (d.fld 28 4) (d.fld 36 4) = true) (symmetric : typeScheme (d.fld 24 1) = 0)
    (fits : newKey u 1 noParent (descKey d []) = .ok t)
    (drawn : u.draw 0 (matLen (d.fld 24 1) (d.fld 26 2)) false = .ok b re v) :
    keyGenerate u d g = keyMade v d (descKey d b) := by
  simp [keyGenerate, attr, volatile, fits, drawn, symmetric]

/-- An import makes the key that its blob unwraps to (R191, R368). -/
theorem keyImport_unwraps {blob : Bytes} (volatile : d.persist = false) (read : u.readAll env g.1 = .ok blob)
    (outer : blobOuterOk blob (d.fld 20 4) = true) :
    keyImport u d g env = match u.unwrap (d.fld 20 4) 0 blob with
      | (.ok k, v) => if importMaterialOk k then keyMade v d k else v.crownFail { status := .signetInput, step := 8 }
      | (.error e, v) => v.crownFail { status := e, step := 8 } := by
  unfold keyImport
  rw [read]
  dsimp only
  rw [if_neg (by simp [outer]), volatile, if_neg Bool.false_ne_true]
  dsimp only
  generalize u.unwrap _ _ _ = q
  obtain ⟨e | k, v⟩ := q
  · rfl
  · cases h : importMaterialOk k <;> simp [h, bad8]

end

/-- Settles O21 (R176, R191, R193, R199, R368): it holds; a key is made of what is drawn, or of what its blob holds. -/
theorem keysMade : Obligations.KeysMade := by
  refine ⟨fun s p g u v d b re n hs hu hd volatile ok attr hn symmetric ⟨t, fits⟩ drawn => ?_,
    fun s p g u d blob hs hu hd volatile ok read outer => ?_,
    fun s d k i recs effs volatile h => ⟨keyMade_slots volatile h, newKey_freeRun h⟩⟩
  · subst hd hn
    exact post_step8 hs rfl ((startOp_keyGenerate hu ok).trans
      (keyGenerate_symmetric volatile attr symmetric fits drawn))
  · subst hd
    refine (post_step8 hs rfl ((startOp_keyImport hu ok).trans (keyImport_unwraps volatile read outer))).trans ?_
    generalize u.unwrap _ _ _ = q
    obtain ⟨_ | _, _⟩ := q <;> rfl

/-! Work on one key (R175, R178, R192 to R204, R874). -/

section
variable {u v : State} {d : Desc} {g : Got} {env : Env}

theorem keyExport_wraps {k : KeyData} {x : Wrapper} {b : Bytes} (source : exportSource u d = .ok k)
    (wrapper : u.custodyKey (d.fld 20 4) 4 (fun t => t == 1 || t == 2) = .ok x)
    (hb : b = wrapBlob x.key (handleClass (d.fld 20 4)) (handleIndex (d.fld 20 4)) k) (room : b.length ≤ extsLen g.2.1)
    (charged : u.chargeWrapper x (blocksOf k.inner.length) = some v) :
    keyExport u d g = v.crownDone [] [.hostWrite g.2.1 b] 0 (zeros 4 ++ leBytes 4 b.length) := by
  subst hb
  simp only [keyExport, source, wrapper, if_neg (Nat.not_lt.2 room), charged]

/-- A slot is destroyed, unless a context still reserves it (R178, R203). -/
theorem keyDestroy_slot (volatile : handleClass (d.fld 16 4) ≠ 2)
    (reach : slotReach (u.slot (handleIndex (d.fld 16 4))) 0 = none) :
    keyDestroy u d = if (u.slot (handleIndex (d.fld 16 4))).reservedBy ≠ 0
      then u.crownAnswer .contextBusy (leBytes 2 (u.slot (handleIndex (d.fld 16 4))).reservedBy)
      else u.crownDone [] ((List.range (1 + (u.slot (handleIndex (d.fld 16 4))).extCount)).map fun j =>
        .slot (handleIndex (d.fld 16 4) + j)
          ((u.eraseRun (handleIndex (d.fld 16 4))).slot (handleIndex (d.fld 16 4) + j))) 0 [] := by
  simp only [keyDestroy, if_neg volatile, reach]

theorem keyRelease_erased (erased : (u.slot (handleIndex (d.fld 16 4))).st = .erased)
    (typed : (u.slot (handleIndex (d.fld 16 4))).type ≠ 0) :
    keyRelease u d = u.crownDone []
      ((List.range (1 + (u.slot (handleIndex (d.fld 16 4))).extCount)).map fun j =>
        .slot (handleIndex (d.fld 16 4) + j) {}) 0 [] := by
  simp only [keyRelease, erased, if_neg typed]

theorem keyLimit_lowers (reach : slotReach (u.slot (handleIndex (d.fld 16 4))) 0 = none) :
    keyLimit u d = u.crownDone [] [.slot (handleIndex (d.fld 16 4))
      ((u.slot (handleIndex (d.fld 16 4))).lower (d.fld 36 4) (d.fld 40 8))] 0 [] := by
  simp only [keyLimit, reach]

/-- A persistent key with limited invocations is loaded, what it lends taken from it (R194, R195). -/
theorem keyLoad_lends {i inv blk : Nat} {x : PKey} (hi : i = handleIndex (d.fld 16 4)) (key : u.pkey i = some x)
    (invs : x.invsLeft ≠ 0) (blocks : x.blocksLeft ≠ 0) (limited : x.invsLeft ≠ 0xFFFFFFFF)
    (hinv : inv = min (if d.fld 36 4 = 0 then 2 ^ 32 else d.fld 36 4) x.invsLeft)
    (hblk : blk = min (limitOf (d.fld 40 8)) x.blocksLeft) :
    keyLoad u d = match u.pkeyData x with
      | none => u.crownFail { status := .notPermitted, step := 8 }
      | some k => match newKey u (d.fld 32 4) i { k with invLimit := inv % 2 ^ 32, blockLimit := blk } with
        | .ok (j, recs, effs) => u.crownDone (u.planRec (pkeyName i) 0x03
            { x with blocksLeft := x.blocksLeft - blk, invsLeft := x.invsLeft - inv }.bytes :: recs) effs 0
            (leBytes 4 (slotHandle j))
        | .error e => u.crownFail { status := e, step := 8 } := by
  unfold keyLoad
  dsimp only
  rw [← hi, key]
  dsimp only
  cases u.pkeyData x with
  | none => rfl
  | some k =>
    dsimp only
    rw [if_neg (by simp [invs, blocks]), if_neg limited, if_neg limited, ← hinv, ← hblk]
    generalize newKey _ _ _ _ = q
    obtain _ | ⟨_, _, _⟩ := q <;> rfl

theorem keyPublic_writes {t : Nat} {m : Bytes} (source : publicSource u (d.fld 16 4) = .ok (t, m))
    (room : typePub t ≤ extsLen g.2.1) :
    keyPublic u d g = u.crownDone [] [.hostWrite g.2.1 (publicOf t m)] 0 (zeros 4 ++ leBytes 4 (typePub t)) := by
  simp only [keyPublic, source, if_neg (Nat.not_lt.2 room)]

theorem keyDecapsulate_asks {x : Wrapper} {ct : Bytes} {t : Nat × List RecWrite × List Eff}
    (attr : attrOk (d.fld 24 1) (d.fld 28 4) (d.fld 36 4) = true)
    (key : u.custodyKey (d.fld 20 4) 6 (fun t => t == 0x21) = .ok x)
    (fits : newKey u (d.fld 32 4) noParent (descKey d []) = .ok t) (read : u.readAll env g.1 = .ok ct)
    (serves : u.kindServes true = true) (charged : u.chargeWrapper x (blocksOf ct.length) = some v) :
    keyDecapsulate u d g env = (v.crownKeep (g.1, g.2.1, kemDecaps x.key ct)).askCrown true 0x21 := by
  simp [keyDecapsulate, attr, key, fits, read, serves, charged]

end

/-- Settles O22 (R175, R178, R192 to R204, R874): it holds; each descriptor on a key commits its own effect. -/
theorem keyWork : Obligations.KeyWork := by
  refine ⟨fun s p g u v d k x b hs hu hd ok source wrapper hb room charged => ?_,
    fun s p g u d i hs hu hd ok volatile hi reach => ⟨fun free => ?_, fun held => ?_⟩,
    fun s p g u d i hs hu hd ok hi erased typed => ?_, fun s p g u d i hs hu hd ok hi reach => ?_,
    fun s p g u d i inv blk x hs hu hd ok hi key invs blocks limited hinv hblk => ?_,
    fun s p g u d t m hs hu hd ok source room => ?_,
    fun s p g u v d x ct hs hu hd ok attr key ⟨t, fits⟩ read serves charged => ?_,
    fun x hx s p g u v rung hs hu ok hrung hv => ?_⟩
  · subst hd
    exact post_step8 hs rfl ((startOp_keyExport hu ok).trans (keyExport_wraps source wrapper hb room charged))
  · subst hd hi
    exact post_step8 hs rfl ((startOp_keyDestroy hu ok).trans
      ((keyDestroy_slot volatile reach).trans (if_neg (not_not.2 free))))
  · subst hd hi
    exact post_step8 hs rfl ((startOp_keyDestroy hu ok).trans ((keyDestroy_slot volatile reach).trans (if_pos held)))
  · subst hd hi
    exact post_step8 hs rfl ((startOp_keyRelease hu ok).trans (keyRelease_erased erased typed))
  · subst hd hi
    exact post_step8 hs rfl ((startOp_keyLimit hu ok).trans (keyLimit_lowers reach))
  · subst hd
    refine (post_step8 hs rfl ((startOp_keyLoad hu ok).trans
      (keyLoad_lends hi key invs blocks limited hinv hblk))).trans ?_
    cases u.pkeyData x <;> rfl
  · subst hd
    exact post_step8 hs rfl ((startOp_keyPublic hu ok).trans (keyPublic_writes source room))
  · subst hd
    exact post_step8 hs rfl ((startOp_keyDecapsulate hu ok).trans
      (keyDecapsulate_asks attr key fits read serves charged))
  · have rungOf (n : Nat) (h : rung = n) : keyRung u n = if v.tamper.clearing then v else v.crownDone [] [] 0 [] := by
      rw [hv, h, keyRung]
    simp only [List.mem_cons, List.not_mem_nil, or_false] at hx
    obtain rfl | rfl := hx
    · exact post_step8 hs rfl ((startOp_keyScrub hu ok).trans (rungOf 4 hrung))
    · exact post_step8 hs rfl ((startOp_keyPurge hu ok).trans (rungOf 5 hrung))

/-! Ceremonies (R205 to R216). -/

section
variable {u : State} {p : Post} {c : Ceremony}

/-- A `RESTORE` is opened without a draw (R209). -/
theorem cerStart_restore {d : Desc} (ok : cerRefuse u d = false) (none : u.keys.ceremony = none)
    (restore : d.fld 16 1 = 1) (allowed : cerAllowed 1 u.keys.custody = true)
    (hc : c = { purpose := .restore, m := 0, n := 0, devNumber := BitVec.ofNat 8 (d.fld 19 1),
                domainId := BitVec.ofNat 32 (d.fld 20 4), held := [], written := [], key := [], coeffs := [] }) :
    cerStart u d = u.crownDone [] [.ceremony (some c)] 0 c.result := by
  subst hc
  simp [cerStart, ok, none, cerBegin, restore, allowed]

/-- A `CREATE` whose shares are all written sets the domain key (R214). -/
theorem cerFinish_create (create : c.purpose = .create) (all : c.n ≤ c.indices.length) :
    cerFinish u c = u.crownDone [u.planRec domainName 0x02 (u.domainBytes c.devNumber c.domainId c.key true),
        u.planRec domainName 0x02 (u.domainBytes c.devNumber c.domainId c.key false) 1]
      [.custody .ready (some c.key) c.devNumber c.domainId, .ceremony none] 0 c.result := by
  simp only [cerFinish, create, if_neg (Nat.not_lt.2 all)]

theorem cerStart_finish (ok : cerRefuse u (postDesc .cerFinish p) = false) (opened : u.keys.ceremony = some c) :
    cerStart u (postDesc .cerFinish p) = cerFinish u c := by
  simp [cerStart, ok, opened]

theorem cerStart_cancel (ok : cerRefuse u (postDesc .cerCancel p) = false) (opened : u.keys.ceremony = some c) :
    cerStart u (postDesc .cerCancel p) = u.crownDone [] [.ceremony none] 0 c.result := by
  simp [cerStart, ok, opened]

end

/-- A contact descriptor whose card is there activates it (R739). -/
theorem ccStart_activates {u : State} {d : Desc} {j : Journal} (journal : u.crowns.journal = some j)
    (permit : cardPermit u d = true) (up : u.tamper.fenceCc = false) (present : u.cards.cc.present = true) :
    ccStart u d = u.activate (jobOf j d (.atr 3)) 3 := by
  simp [ccStart, journal, permit, up, present]

/-- Settles O23 (R205 to R216): it holds; a ceremony is opened, takes its shares, is finished or cancelled. -/
theorem ceremonyPosts : Obligations.CeremonyPosts := by
  refine ⟨fun s p g u d c hs hu hd ok none restore allowed hc => post_step8 hs hu ?_,
    fun s p g u d c j hs hu hd ok opened serves journal up present => post_step8 hs hu ?_,
    fun s p g u d c hs hu hd ok opened create all => post_step8 hs hu ?_,
    fun s p g u d c hs hu hd ok opened => post_step8 hs hu ?_⟩
  · subst hd
    exact cerStart_restore ok none restore allowed hc
  · subst hd
    change (if cerRefuse u (postDesc .cerShare p) then _ else cerShare u (postDesc .cerShare p)) = _
    rw [ok, if_neg Bool.false_ne_true]
    simp only [cerShare, opened, serves, if_true]
    exact ccStart_activates journal (by simp [cardPermit]) up present
  · subst hd
    exact (cerStart_finish ok opened).trans (cerFinish_create create all)
  · subst hd
    exact cerStart_cancel ok opened

end Sys2Proof.Machine
end

