-- ==== Sys2Proof/Proofs/CardPosts.lean ====
section
/-!
PROOF. Card descriptors at step 8 (R720 to R726, R738 to R743).
-/

namespace Sys2Proof.Machine

section
variable {u v : State} {d : Desc} {j : Journal}

/-- An SD descriptor that is permitted goes on with its card, identifies it first, or finds none (R721, R726). -/
theorem sdStart_permitted (journal : u.crowns.journal = some j) (permit : cardPermit u d = true)
    (up : u.tamper.fenceSd = false)
    (hv : v = if d.is .bundleWrite then u.modJournal fun k => { k with wp := some (k.wp.getD u.cards.sd.wp) } else u) :
    sdStart u d = if u.cards.sd.present then
        if u.cards.sd.st = .ready then v.sdReady d (jobOf j d (.rd 0))
        else (((v.modSd fun y => { y.off with st := .identifying, power := true }).sdCommand 0 0).sdCommand
          8 0x1AA).cardJob (jobOf j d (.ident .cmd8))
      else u.cardFail true .cardAbsent := by
  simp only [sdStart, journal, permit, up, ← hv, Bool.not_true, Bool.false_eq_true, if_false]
  cases present : u.cards.sd.present <;> rfl

/-- A contact descriptor that is permitted activates its card, or finds none (R739). -/
theorem ccStart_permitted (journal : u.crowns.journal = some j) (permit : cardPermit u d = true)
    (up : u.tamper.fenceCc = false) :
    ccStart u d = if u.cards.cc.present then u.activate (jobOf j d (.atr 3)) 3 else u.cardFail false .cardAbsent := by
  simp only [ccStart, journal, permit, up, Bool.not_true, Bool.false_eq_true, if_false]
  cases present : u.cards.cc.present <;> rfl

end

section
variable {u : State} {r seq : Nat} {x : Posted} {p : Post} {g : Got} {env : Env}

theorem startOp_sd
    (hx : x ∈ ([(.sdInfo, .sdInfo), (.bundleWrite, .bundleWrite), (.bundleImport, .bundleImport)] : List Posted)) :
    u.startOp r seq x.1 (postDesc x.1 p) g env = sdStart u (postDesc x.1 p) := by
  have uses : usesSd (postDesc x.1 p) = true := by
    simp only [List.mem_cons, List.not_mem_nil, or_false] at hx
    obtain rfl | rfl | rfl := hx <;> simp [usesSd]
  have start : cardStart u (postDesc x.1 p) = sdStart u (postDesc x.1 p) := by rw [cardStart, if_pos uses]
  simp only [List.mem_cons, List.not_mem_nil, or_false] at hx
  obtain rfl | rfl | rfl := hx <;> exact start

theorem startOp_contact (hx : x ∈ ([(.ccInfo, .ccInfo), (.ccClear, .ccClear)] : List Posted)) :
    u.startOp r seq x.1 (postDesc x.1 p) g env = ccStart u (postDesc x.1 p) := by
  have uses : usesSd (postDesc x.1 p) = false := by
    simp only [List.mem_cons, List.not_mem_nil, or_false] at hx
    obtain rfl | rfl := hx <;> simp [usesSd]
  have start : cardStart u (postDesc x.1 p) = ccStart u (postDesc x.1 p) := by
    rw [cardStart, uses, if_neg Bool.false_ne_true]
  simp only [List.mem_cons, List.not_mem_nil, or_false] at hx
  obtain rfl | rfl := hx <;> exact start

end

/-- The frame of a command on `SD_CMD` (R722). -/
theorem sdFrame_ofNat {cmd arg : Nat} (h : arg < 2 ^ 32) : sdFrame cmd (BitVec.ofNat 32 arg) =
    BitVec.ofNat 8 (64 + cmd) :: beBytes 4 arg ++
      [BitVec.ofNat 8 (2 * (crc7 (BitVec.ofNat 8 (64 + cmd) :: beBytes 4 arg)).toNat + 1)] := by
  rw [sdFrame, BitVec.toNat_ofNat, Nat.mod_eq_of_lt h]
  rfl

/-- Settles O24 (R720 to R726, R738 to R743): it holds; a card is identified or activated before its first command. -/
theorem cardPosts : Obligations.CardPosts := by
  refine ⟨fun x hx s p g u v d j hs hu hd journal permit up hv => ?_, fun x hx s p g u d j hs hu hd journal permit up => ?_,
    fun u d j hd => ?_, fun u cmd arg _ harg => ⟨rfl, sdFrame_ofNat harg⟩⟩
  · have posted : x ∈ posts := by
      simp only [List.mem_cons, List.not_mem_nil, or_false] at hx
      obtain rfl | rfl | rfl := hx <;> simp [posts]
    subst hd
    have start (t : State) (h : sdStart u (postDesc x.1 p) = t) : exec (x.2 p) s = .next t.onward :=
      exec_starts posted hs hu ((startOp_sd hx).trans h)
    have step := sdStart_permitted journal permit up (v := v) (by rw [hv]; simp [eq_comm])
    refine ⟨fun present ready => start _ ?_, fun present ready => start _ ?_, fun absent => start _ ?_⟩
    · rw [step, present, if_pos rfl, if_pos ready]
    · rw [step, present, if_pos rfl, if_neg ready]
    · rw [step, absent, if_neg Bool.false_ne_true]
  · have posted : x ∈ posts := by
      simp only [List.mem_cons, List.not_mem_nil, or_false] at hx
      obtain rfl | rfl := hx <;> simp [posts]
    subst hd
    have start (t : State) (h : ccStart u (postDesc x.1 p) = t) : exec (x.2 p) s = .next t.onward :=
      exec_starts posted hs hu ((startOp_contact hx).trans h)
    have step := ccStart_permitted journal permit up
    refine ⟨fun present => start _ ?_, fun absent => start _ ?_⟩
    · rw [step, present, if_pos rfl]
      rfl
    · rw [step, absent, if_neg Bool.false_ne_true]
  · rw [State.sdReady, if_pos (Desc.is_iff.2 hd)]

end Sys2Proof.Machine
end

