-- ==== Sys2Proof/Proofs/LifePosts.lean ====
section
/-!
PROOF. Life-cycle and provisioning descriptors at step 8 (R669 to R682).
-/

namespace Sys2Proof.Machine

@[simp] theorem State.noteTies_life (s : State) (l : List RecName) : (s.noteTies l).life = s.life := by
  obtain ⟨n, v, y, r, h⟩ := noteTies_frame s l
  rw [h]

/-! A life-cycle descriptor runs on as its own operation (R668). -/

section
variable {u : State} {r seq : Nat} {p : Post} {g : Got} {env : Env}

theorem startOp_lcsTransition {t : Lcs} (target : lcsTarget ((postDesc .lcsTransition p).fld 16 1) = some t) :
    u.startOp r seq .lcsTransition (postDesc .lcsTransition p) g env = lcsTransition u t := by
  change lcsStart _ _ _ _ = _
  simp [lcsStart, target]

theorem startOp_lcsCancel :
    u.startOp r seq .lcsCancel (postDesc .lcsCancel p) g env = lcsCancel u := by
  change lcsStart _ _ _ _ = _
  simp [lcsStart]

theorem startOp_lcsDebugKey : u.startOp r seq .lcsDebugKey (postDesc .lcsDebugKey p) g env =
    lcsDebugKey u (postDesc .lcsDebugKey p) g env := by
  change lcsStart _ _ _ _ = _
  simp [lcsStart]

theorem startOp_lcsDebugNonce :
    u.startOp r seq .lcsDebugNonce (postDesc .lcsDebugNonce p) g env = lcsNonce u g := by
  change lcsStart _ _ _ _ = _
  simp [lcsStart]

theorem startOp_lcsDebugGrant : u.startOp r seq .lcsDebugGrant (postDesc .lcsDebugGrant p) g env =
    lcsGrant u (postDesc .lcsDebugGrant p) g env := by
  change lcsStart _ _ _ _ = _
  simp [lcsStart]

theorem startOp_lcsDebugRevoke :
    u.startOp r seq .lcsDebugRevoke (postDesc .lcsDebugRevoke p) g env = lcsRevoke u := by
  change lcsStart _ _ _ _ = _
  simp [lcsStart]

theorem startOp_provIdkey : u.startOp r seq .provIdkey (postDesc .provIdkey p) g env = provIdkey u g := by
  change lcsStart _ _ _ _ = _
  simp [lcsStart]

theorem startOp_provCert :
    u.startOp r seq .provCert (postDesc .provCert p) g env = provCert u (postDesc .provCert p) g env := by
  change lcsStart _ _ _ _ = _
  simp [lcsStart]

theorem startOp_provPatch :
    u.startOp r seq .provPatch (postDesc .provPatch p) g env = provPatch u (postDesc .provPatch p) g env := by
  change lcsStart _ _ _ _ = _
  simp [lcsStart]

end

section
variable {u v : State} {d : Desc} {g : Got} {env : Env} {b : Bytes}

/-- With no transition pending, a permitted one is recorded (R669, R670). -/
theorem lcsTransition_records {t : Lcs} (none : u.life.pendingTarget = none)
    (hv : v = if t = .production then u.noteTies [.sys 0x06 0, .sys 0x07 0] else u) :
    lcsTransition u t = if transitionOk v t then
        v.crownDone [v.planRec lcsName 0x01 (lcsBytes (some t) u.life.wipe)] [.lcs (some t) u.life.wipe] 0
          (leBytes 4 t.code.toNat)
      else v.crownFail { status := .notPermitted, step := 8 } := by
  have life : v.life = u.life := by
    rw [hv]
    split
    · exact State.noteTies_life u _
    · rfl
  unfold lcsTransition
  rw [none, if_neg (by simp), ← hv]
  dsimp only
  rw [life, none]
  cases transitionOk v t <;> simp [bad8]

/-- A transition that no antifuse copy has begun is cancelled (R670). -/
theorem lcsCancel_pending {t : Lcs} (pending : u.life.pendingTarget = some t) (wipe : u.life.wipe = false)
    (begun : lcsBegun u t = false) : lcsCancel u =
      u.crownDone [u.planRec lcsName 0x01 (lcsBytes none false)] [.lcs none false] 0 (leBytes 4 u.lcs.code.toNat) := by
  simp [lcsCancel, pending, wipe, begun]

/-- The first owner debug key is written if it is valid (R678). -/
theorem lcsDebugKey_first (read : u.readAll env g.1 = .ok b) (first : u.life.debugGen = 0)
    (lcs : u.lcs = .test ∨ u.lcs = .production) (len : d.declLen.toNat = 97) :
    lcsDebugKey u d g env = if pubValid 0x02 (b.take 97)
      then u.crownDone [u.planRec (.sys 0x09 0) 0x09 (debugKeyBytes 1 (b.take 97))] [.debugKey 1 (b.take 97)] 0
        (leBytes 4 1)
      else u.crownFail { status := .signetInput, step := 8 } := by
  have served : ¬ (u.life.debugGen == 0 && u.lcs != .test && u.lcs != .production) = true := by
    obtain test | production := lcs
    · simp [test]
    · simp [production]
  unfold lcsDebugKey
  dsimp only
  rw [if_neg served, if_neg (by simp [first, len]), read]
  dsimp only
  rw [debugKeyCommit, first]
  cases pubValid 0x02 (b.take 97) <;> rfl

/-- A later one asks for its verification (R678). -/
theorem lcsDebugKey_later (read : u.readAll env g.1 = .ok b) (later : u.life.debugGen ≠ 0)
    (len : d.declLen.toNat = 193) :
    lcsDebugKey u d g env = if pubValid 0x02 (b.take 97) then (u.crownKeep (g.1, g.2.1, b)).askCrown false 0x02
      else u.crownFail { status := .signetInput, step := 8 } := by
  have notFirst : (u.life.debugGen == 0) = false := beq_eq_false_iff_ne.2 later
  unfold lcsDebugKey
  dsimp only
  rw [notFirst, if_neg (by simp), if_neg (by simp [len]), read]
  dsimp only
  cases pubValid 0x02 (b.take 97) <;> rfl

/-- A token of this device with the nonce in force goes to its verification (R676). -/
theorem lcsGrant_asks {t : Bytes} (lcs : u.lcs = .production) (key : u.life.debugGen ≠ 0) (len : d.declLen = 160)
    (read : u.readAll env g.1 = .ok t) (well : tokenOk t = true) (mine : u.life.idHash = some (slice t 16 16))
    (nonce : u.life.nonce = some (slice t 32 32)) :
    lcsGrant u d g env =
      (({ u with life := { u.life with nonce := none } } : State).crownKeep (g.1, g.2.1, t)).askCrown false 0x02 := by
  unfold lcsGrant
  dsimp only
  rw [if_neg (not_or.2 ⟨not_not.2 lcs, key⟩), if_neg (not_not.2 len), read]
  dsimp only
  rw [if_neg (by simp [well]), if_neg (not_not.2 mine), if_neg (not_not.2 nonce)]

/-- A chain is stored whose last certificate carries the identity's public key (R681). -/
theorem provCert_chain {k : Bytes} {l : List Bytes}
    (lcs : u.lcs = if d.fld 16 1 = 0 then .test else .production) (key : u.life.idKey = some k)
    (read : u.readAll env g.1 = .ok b) (chain : chainCerts b = some l) :
    provCert u d g env = if (l.getLast?).bind certKey = some (idPublic k)
      then u.crownDone [u.planRec (.sys 0x06 (d.fld 16 1)) 0x06 b] [] 0 (leBytes 4 b.length)
      else u.crownFail { status := .notPermitted, step := 8 } := by
  unfold provCert
  dsimp only
  rw [if_neg (not_not.2 lcs), key]
  dsimp only
  rw [read]
  dsimp only
  rw [chain]
  exact ite_not ..

end

/-- Settles O25 (R669 to R682): it holds; each descriptor commits its record, or asks for its verification. -/
theorem lifeCyclePosts : Obligations.LifeCyclePosts := by
  refine ⟨fun s p g u v d t hs hu hd target none hv => ⟨fun ok => ?_, fun bad => ?_⟩,
    fun s p g u t hs hu pending wipe begun => ?_,
    fun s p g u d b hs hu hd read => ⟨fun first lcs len => ?_, fun later len => ?_⟩,
    fun s p g u v b re hs hu drawn => ?_, fun s p g u d t hs hu hd lcs key len read well mine nonce => ?_,
    fun s p g u hs hu => ?_, fun s p g u v b re hs hu lcs none drk drawn => ?_,
    fun s p g u d k b l hs hu hd lcs key read chain => ?_, fun s p g u b hs hu lcs read => ?_⟩
  · subst hd
    exact post_step8 hs hu ((startOp_lcsTransition target).trans ((lcsTransition_records none hv).trans (if_pos ok)))
  · subst hd
    exact post_step8 hs hu ((startOp_lcsTransition target).trans
      ((lcsTransition_records none hv).trans (if_neg (by simp [bad]))))
  · exact post_step8 hs hu (startOp_lcsCancel.trans (lcsCancel_pending pending wipe begun))
  · subst hd
    exact post_step8 hs hu (startOp_lcsDebugKey.trans (lcsDebugKey_first read first lcs len))
  · subst hd
    exact post_step8 hs hu (startOp_lcsDebugKey.trans (lcsDebugKey_later read later len))
  · refine post_step8 hs hu (startOp_lcsDebugNonce.trans ?_)
    simp only [lcsNonce, drawn]
  · subst hd
    exact post_step8 hs hu (startOp_lcsDebugGrant.trans (lcsGrant_asks lcs key len read well mine nonce))
  · exact post_step8 hs hu startOp_lcsDebugRevoke
  · refine post_step8 hs hu (startOp_provIdkey.trans ?_)
    rw [provIdkey, if_neg (by cases h : u.battery.drk <;> simp_all), drawn]
  · subst hd
    exact post_step8 hs hu (startOp_provCert.trans (provCert_chain lcs key read chain))
  · refine post_step8 hs hu (startOp_provPatch.trans ?_)
    rw [provPatch, if_neg (not_not.2 lcs), read]

end Sys2Proof.Machine
end

