-- ==== Sys2Proof/Proofs/CrownPosts.lean ====
section
/-!
PROOF. Crown and NVM descriptors at step 8 (R615, R616, R708 to R714).
-/

namespace Sys2Proof.Machine

section
variable {u v : State} {r seq : Nat} {p : Post} {g : Got} {env : Env}

/-- `CROWN_SWAP` takes over where the standby can (R615). -/
theorem startOp_crownSwap : u.startOp r seq .crownSwap (postDesc .crownSwap p) g env =
    if u.takeOk then (u.modJournal fun j => { j with state := .committed }).takeOver 4 env
    else u.crownFail { status := .notPermitted, step := 8 } := by
  change crownStart u (postDesc .crownSwap p) env = _
  simp [crownStart, bad8]

/-- `CROWN_REJOIN` of a crown that is out or unfit (R616). -/
theorem startOp_crownRejoin (away : u.otherCrown.st = .out ∨ u.otherCrown.st = .unfit) :
    u.startOp r seq .crownRejoin (postDesc .crownRejoin p) g env =
      (u.rejoin (!u.crowns.activeB)).crownAnswer .done ((u.rejoin (!u.crowns.activeB)).swapResult 1) := by
  change crownStart u (postDesc .crownRejoin p) env = _
  simp [crownStart, away]

/-- `NVM_READ` answers by what its record holds (R708, R712). -/
theorem startOp_nvmRead {x : RecRead} (read : u.readRec (.user ((postDesc .nvmRead p).fld 16 2)) = (x, v)) :
    u.startOp r seq .nvmRead (postDesc .nvmRead p) g env = match x.st with
      | .torn => v.crownFail (bad8 .nvmTorn)
      | .never => v.crownDone [] [] 0 (nvmResult ((postDesc .nvmRead p).fld 16 2) 0
          (rstate u.nvm (.user ((postDesc .nvmRead p).fld 16 2)) x) 0 0 0)
      | .held => v.crownDone [] [.hostWrite g.2.1 x.payload] 0 (nvmResult ((postDesc .nvmRead p).fld 16 2) x.type
          (rstate u.nvm (.user ((postDesc .nvmRead p).fld 16 2)) x) x.payload.length x.seq x.claim) := by
  change nvmStart u (postDesc .nvmRead p) g env = _
  simp only [nvmStart, postDesc_is, decide_true, if_true, read] <;> cases x.st <;> rfl

/-- `NVM_WRITE` outside the protected quarters (R708). -/
theorem startOp_nvmWrite {b : Bytes} {w : RecWrite} (free : u.nvm.protects ((postDesc .nvmWrite p).fld 16 2) = false)
    (read : u.readAll env g.1 = .ok b)
    (hw : w = u.planRec (.user ((postDesc .nvmWrite p).fld 16 2))
      (BitVec.ofNat 8 ((postDesc .nvmWrite p).fld 18 1)) b) :
    u.startOp r seq .nvmWrite (postDesc .nvmWrite p) g env =
      u.crownDone [w] [] 0 (nvmResult ((postDesc .nvmWrite p).fld 16 2) 0 0 0 w.seq u.claim) := by
  subst hw
  change nvmStart u (postDesc .nvmWrite p) g env = _
  simp [nvmStart, free, read]

/-- `NVM_SCAN` asks for a rewrite of every weak user page (R714). -/
theorem startOp_nvmScan {n : Nvm} {l : List Nat} (scanning : u.nvm.scanning = false)
    (recalling : u.nvm.recalling = false) (hn : n = u.nvm.scanned env.weak)
    (hl : l = n.weak.filter (fun q => 16384 ≤ q))
    (hv : v = u.noteTies (l.filterMap fun q => (recOfPage ((n.logical q).getD q)).map (·.1))) :
    u.startOp r seq .nvmScan (postDesc .nvmScan p) g env =
      ((({ v with nvm := { v.nvm with
          weak := n.weak, scanWorn := false, scanning := true, weakCount := n.countWeak, scanFound := l.length,
          scanDone := 0, scanMoved := 0 } } : State).crownWait .nvm).askPages (l.map fun q =>
            ⟨5, (n.logical q).getD q, u.refreshed ((n.logical q).getD q), .refresh false⟩)).scanGo := by
  change nvmStart u (postDesc .nvmScan p) g env = _
  unfold nvmStart
  dsimp only
  rw [if_neg (by simp), if_neg (by simp), if_neg (by simp [scanning, recalling]), ← hn, ← hl, ← hv]

end

/-- Settles O26 (R615, R616, R708 to R714): it holds; each descriptor answers by the state of the crowns or of its
record. -/
theorem crownAndRecordPosts : Obligations.CrownAndRecordPosts := by
  refine ⟨fun s p g u hs hu => ⟨fun ok => ?_, fun bad => ?_⟩, fun s p g u hs hu away => ?_,
    fun s p g u v d r hs hu hd read => ⟨fun held => ?_, fun never => ?_, fun torn => ?_⟩,
    fun s p g u d b w hs hu hd free read hw => ?_, fun s p g u v n l hs hu scanning recalling hn hl hv => ?_⟩
  · exact post_step8 hs hu (startOp_crownSwap.trans (if_pos ok))
  · exact post_step8 hs hu (startOp_crownSwap.trans (if_neg (by simp [bad])))
  · exact post_step8 hs hu (startOp_crownRejoin away)
  · subst hd
    exact post_step8 hs hu ((startOp_nvmRead read).trans (by rw [held]))
  · subst hd
    exact post_step8 hs hu ((startOp_nvmRead read).trans (by rw [never]))
  · subst hd
    exact post_step8 hs hu ((startOp_nvmRead read).trans (by rw [torn]; rfl))
  · subst hd
    exact post_step8 hs hu (startOp_nvmWrite free read hw)
  · exact post_step8 hs hu (startOp_nvmScan scanning recalling hn hl hv)

end Sys2Proof.Machine
end

