-- ==== Sys2Proof/Proofs/EngineTurns.lean ====
section
/-!
PROOF. The signet and lattice engines take requests and end operations (R345 to R350, R362 to R368, R398).
-/

namespace Sys2Proof.Machine

/-! Requests taken (R346, R350). -/

section
variable {s u : State} {n : Fin 12} {env : Env} {q : SigReq}
  (free : s.freeEngine (latticeEngine n) = some n.val) (next : s.nextRequest (latticeEngine n) = some q)
  (hu : u = (s.hostStores env).takeRequest q)
include free next hu

/-- A request without a descriptor begins at once. -/
theorem exec_engineStart_own (own : ∀ r k, q.client ≠ .desc r k) :
    exec (.engineStart n env) s = .next (u.engineBegin n q).strandsGo.onward := by
  change execEngineStart n env s = _
  simp only [execEngineStart, free, next, ← hu, ne_eq, not_true_eq_false, if_false]
  cases client : q.client with
  | desc r k => exact absurd client (own r k)
  | crown e => rfl
  | spdm j => rfl
  | strand i id ml => rfl

/-- A descriptor's begins with its input read. -/
theorem exec_engineStart_desc {r k : Nat} {w : Work} {b : Bytes} (client : q.client = .desc r k)
    (work : (u.ring r).find k = some w) (read : u.readAll env (w.got.getD ([], [], [])).1 = .ok b) :
    exec (.engineStart n env) s = .next (u.engineBegin n { q with
      input := if w.desc.is .sigQuote then quoteBytes u w.desc b else b }).strandsGo.onward := by
  change execEngineStart n env s = _
  simp only [execEngineStart, free, next, ← hu, ne_eq, not_true_eq_false, if_false, client, work, read]

end

/-- An operation that draws nothing is charged and runs (R350, R362). -/
theorem State.engineBegin_charged {u v : State} {n : Nat} {q : SigReq} (need : u.drawNeed q = 0)
    (charged : q.charged = false) (h : u.chargeRequest q = (v, true)) :
    u.engineBegin n q = v.setEngine n { v.engine n with busy := some { q with rnd := [] } } := by
  simp [State.engineBegin, need, charged, h]

/-! Ends of operations (R363 to R368). -/

section
variable {s s1 u : State} {n : Fin 12} {env : Env} {fails : Bool} {q : SigReq}
  (busy : (s.engine n).busy = some q) (still : DrawWait.engine n.val ∉ s.signet.waits) (hs1 : s1 = s.hostStores env)
include busy still hs1

/-- An operation whose random bytes give a signature ends. -/
theorem exec_engineOpDone {sig : Bytes} (sign : s1.signatureOf q = some sig)
    (hu : u = (s1.setEngine n { s1.engine n with busy := none }).bump 17 n 1) :
    exec (.engineOpDone n env fails) s = .next (u.opDone n q sig env fails).strandsGo.onward := by
  have none : ¬ (s.signet.waits.any fun w => w == .engine n.val) = true := by simpa using still
  change execEngineOpDone n env fails s = _
  simp only [execEngineOpDone, busy, if_neg none, ← hs1, sign, ← hu]

/-- One whose random bytes give none draws again, without a second charge (R367). -/
theorem exec_engineOpDone_redraws (sign : s1.signatureOf q = none) :
    exec (.engineOpDone n env fails) s = .next (s1.engineBegin n { q with rnd := [], charged := true }) := by
  have none : ¬ (s.signet.waits.any fun w => w == .engine n.val) = true := by simpa using still
  change execEngineOpDone n env fails s = _
  simp only [execEngineOpDone, busy, if_neg none, ← hs1, sign]

end

section
variable {u : State} {n r k : Nat} {env : Env} {fails : Bool} {q : SigReq} {w : Work} {sig : Bytes}

/-- What a descriptor's request signs: nothing where it verifies. -/
theorem State.signatureOf_desc (client : q.client = .desc r k) (work : (u.ring r).find k = some w) :
    u.signatureOf q = if w.desc.is .sigVerify then some [] else sigOf u w.desc q := by
  simp only [State.signatureOf, client, State.descOf, work, Option.map_some]

/-- The operation of a descriptor ends as a verification or a signature, or is aborted (R142, R363). -/
theorem State.opDone_desc (client : q.client = .desc r k) (work : (u.ring r).find k = some w) :
    u.opDone n q sig env fails =
      if u.ringAborted r then
        ((u.opLost n q sig env.raw fails).sigGiveBack w.desc).finishBad r k w.desc { status := .aborted, step := 8 }
      else if w.desc.is .sigVerify then verifyDone u r k w.desc q env.raw n
      else signDone u r k w.desc (w.got.getD ([], [], [])) q sig fails n := by
  simp only [State.opDone, client, work, bad8]

/-- A verification ends with its verdict, or refuses its public key (R364 to R366). -/
theorem verifyDone_eq {d : Desc} {raw : Option (BitVec 16)} {c : Nat} {pub sig rest : Bytes} {v : BitVec 16}
    (hc : c = d.fld 20 1) (hpub : pub = q.input.take (schemePub c))
    (hsig : sig = slice q.input (schemePub c) (schemeSig c)) (hrest : rest = q.input.drop (schemePub c + schemeSig c))
    (hv : v = sigVerdict (comparands c (d.fld 21 1) (d.sctl % 4) pub sig (rest.take (d.fld 23 1))
      (rest.drop (d.fld 23 1))) raw) :
    verifyDone u r k d q raw n = if pubValid c pub then
        ((if v = 0x3CC3 ∨ v = 0xC33C then u else u.setEngine n { u.engine n with verdictFault := true }).finish r k
          (cplOf d (if v = 0x3CC3 then .done else .signatureBad) 0
            (leBytes 2 (if v = 0x3CC3 then 0x3CC3 else 0xC33C) ++ zeros 2 ++ leBytes 2 v.toNat))).verdict v
      else u.finishBad r k d { status := .signetInput, step := 8 } := by
  have word : verifyWord d q raw = v := by
    subst hc hpub hsig hrest hv
    rfl
  subst hc hpub
  simp only [verifyDone, word, State.noteWord]
  cases pubValid (d.fld 20 1) (q.input.take (schemePub (d.fld 20 1))) <;> rfl

/-- An RSA signature that passes its check with the public exponent is good (R367). -/
theorem rsaBad_false {d : Desc} (h : isRsa (d.fld 20 1) = false ∨ (fails = false ∧
    sigVerdict (comparands (d.fld 20 1) (d.fld 21 1) (d.sctl % 4)
      (rsaPublic (schemeSig (d.fld 20 1)) (u.material (handleIndex (d.fld 16 4)))) sig []
      (q.input.drop (if d.is .sigSign then d.fld 23 1 else 0))) none = 0x3CC3)) :
    rsaBad u d q sig fails = false := by
  obtain other | ⟨sound, check⟩ := h
  · simp [rsaBad, other]
  · simp only [rsaBad, sound, check, Bool.false_or, bne_self_eq_false, Bool.and_false]

theorem rsaBad_true {d : Desc} (rsa : isRsa (d.fld 20 1) = true) (h : fails = true ∨
    sigVerdict (comparands (d.fld 20 1) (d.fld 21 1) (d.sctl % 4)
      (rsaPublic (schemeSig (d.fld 20 1)) (u.material (handleIndex (d.fld 16 4)))) sig []
      (q.input.drop (if d.is .sigSign then d.fld 23 1 else 0))) none ≠ 0x3CC3) :
    rsaBad u d q sig fails = true := by
  simp only [rsaBad, rsa, Bool.true_and, Bool.or_eq_true, bne_iff_ne]
  exact h

/-! An operation whose descriptor is gone (R142, R398). -/

theorem State.opLost_verify {d : Desc} {raw : Option (BitVec 16)} (desc : q.desc = some d)
    (verify : d.is .sigVerify = true) (valid : pubValid (d.fld 20 1) (q.input.take (schemePub (d.fld 20 1))) = true)
    (good : verifyWord d q raw ≠ 0x3CC3) (bad : verifyWord d q raw ≠ 0xC33C) :
    u.opLost n q sig raw fails = (u.setEngine n { u.engine n with verdictFault := true }).busIntegrity := by
  simp only [State.opLost, desc, verify, valid, if_true, State.noteWord, State.verdict, if_neg (not_or.2 ⟨good, bad⟩)]

theorem State.opLost_sign {d : Desc} {raw : Option (BitVec 16)} (desc : q.desc = some d)
    (signs : d.is .sigVerify = false) :
    u.opLost n q sig raw fails =
      if rsaBad u d q sig fails then (u.setEngine n { u.engine n with signCheck := true }).busIntegrity else u := by
  simp only [State.opLost, desc, signs, Bool.false_eq_true, if_false]

end

/-! The crown's operations (R344, R368, R615, R680). -/

/-- A verdict of the two paths alone is one of the two words (R366). -/
theorem sigVerdict_none (c : Option (Bytes × Bytes)) : sigVerdict c none = 0x3CC3 ∨ sigVerdict c none = 0xC33C := by
  cases c with
  | none => exact .inr rfl
  | some x =>
    simp only [sigVerdict, Option.getD_none, verdictWord]
    by_cases h : x.1 = x.2
    · left
      simp [h]
    · right
      have inverse : x.1.map (~~~ ·) ≠ x.2.map (~~~ ·) := fun e =>
        h (List.map_injective_iff.2 (fun a b e => BitVec.not_inj.1 e) e)
      simp [h, inverse]

section
variable {u : State} {n : Nat} {env : Env} {fails : Bool} {q : SigReq} {sig : Bytes} {j : Journal} {d : Desc} {got : Got}
  (client : q.client = .crown j.number) (desc : u.crownDesc = some (j, d, got)) (waits : j.wait = .engine)
include client desc waits

/-- An operation that the crown's entry waits for goes on with its descriptor. -/
theorem State.opDone_crown : u.opDone n q sig env fails =
    if d.is .keyGenerate || d.is .keyDecapsulate then keyEngineDone u d got
    else if d.is .provIdkey then provIdkeyDone u got
    else
      let v := u.crownVerify j d got.2.2
      let w := sigVerdict (comparands v.1 (if v.1 = 0x20 then 0 else 2) 0 v.2.1 v.2.2.1 [] v.2.2.2) env.raw
      (if w = 0x3CC3 then (u.noteWord n w).crownVerified j d got.2.2 env
       else if d.is .lcsDebugGrant then (u.noteWord n w).grantRefuse { status := .signatureBad, step := 8 }
       else (u.noteWord n w).crownFail { status := .signatureBad, step := 8 }).verdict w := by
  have mine : ¬ (j.number ≠ j.number ∨ j.wait ≠ .engine) := by simp [waits]
  simp only [State.opDone, client, State.crownOpDone, desc, if_neg mine, bad8]

/-- A verification of the crown that no fault spoils. -/
theorem State.opDone_crownVerify {v : BitVec 16}
    (other : d.opcode ∉ [Op.keyGenerate.code, Op.keyDecapsulate.code, Op.provIdkey.code])
    (hv : v = sigVerdict (comparands (u.crownVerify j d got.2.2).1
      (if (u.crownVerify j d got.2.2).1 = 0x20 then 0 else 2) 0 (u.crownVerify j d got.2.2).2.1
      (u.crownVerify j d got.2.2).2.2.1 [] (u.crownVerify j d got.2.2).2.2.2) none) (raw : env.raw = none) :
    u.opDone n q sig env fails =
      if v = 0x3CC3 then u.crownVerified j d got.2.2 env
      else if d.opcode = Op.lcsDebugGrant.code then u.grantRefuse { status := .signatureBad, step := 8 }
      else u.crownFail { status := .signatureBad, step := 8 } := by
  simp only [List.mem_cons, List.not_mem_nil, or_false, not_or, ← Desc.is_iff, Bool.not_eq_true] at other
  obtain ⟨generate, decapsulate, idkey⟩ := other
  have word := sigVerdict_none (comparands (u.crownVerify j d got.2.2).1
      (if (u.crownVerify j d got.2.2).1 = 0x20 then 0 else 2) 0 (u.crownVerify j d got.2.2).2.1
      (u.crownVerify j d got.2.2).2.2.1 [] (u.crownVerify j d got.2.2).2.2.2)
  rw [← hv] at word
  rw [State.opDone_crown client desc waits]
  simp only [generate, decapsulate, idkey, Bool.or_false, Bool.false_eq_true, if_false, raw, ← hv, State.noteWord,
    State.verdict, if_pos word, Desc.is_iff]

end

/-- Settles O27 (R345 to R350, R362 to R368, R398): it holds; an engine's operation ends by its request's client. -/
theorem engineTurns : Obligations.EngineTurns := by
  refine ⟨fun s u n env q free next hu => ⟨exec_engineStart_own free next hu,
      fun r k w b => exec_engineStart_desc free next hu⟩,
    fun u v n q => State.engineBegin_charged,
    fun s s1 u n env fails q r k w busy client still hs1 hu work live => ?_,
    fun s s1 u n env fails q r k w sig busy client still hs1 sign hu work aborted => ?_,
    fun u n q d sig raw fails desc => ⟨State.opLost_verify desc, fun signs bad => ?_, fun signs good => ?_⟩,
    fun s s1 u n env fails q j d got busy client still hs1 hu desc waits => ?_⟩
  · have rings : u.ring r = s1.ring r := by rw [hu]; rfl
    have work1 : (s1.ring r).find k = some w := rings ▸ work
    have ends (sig : Bytes) := exec_engineOpDone (fails := fails) (sig := sig) busy still hs1 (hu := hu)
    have op (sig : Bytes) : u.opDone n q sig env fails = if w.desc.is .sigVerify then verifyDone u r k w.desc q env.raw n
        else signDone u r k w.desc (w.got.getD ([], [], [])) q sig fails n := by
      rw [State.opDone_desc client work, live, if_neg Bool.false_ne_true]
    refine ⟨fun c pub sig rest v verify hc hpub hsig hrest hv => ?_, fun sig signs made good => ?_,
      fun sig signs made rsa bad => ?_, fun signs none => ?_⟩
    · have sign : s1.signatureOf q = some [] := by rw [State.signatureOf_desc client work1, if_pos verify]
      rw [ends [] sign, op, if_pos verify, verifyDone_eq hc hpub hsig hrest hv]
    · have sign : s1.signatureOf q = some sig := by rw [State.signatureOf_desc client work1, signs]; exact made
      rw [ends sig sign, op, signs, if_neg Bool.false_ne_true]
      simp only [signDone, rsaBad_false good, Bool.false_eq_true, if_false, sigEnd]
    · have sign : s1.signatureOf q = some sig := by rw [State.signatureOf_desc client work1, signs]; exact made
      rw [ends sig sign, op, signs, if_neg Bool.false_ne_true]
      simp only [signDone, rsaBad_true rsa bad, if_true, sigEnd]
    · have sign : s1.signatureOf q = Option.none := by rw [State.signatureOf_desc client work1, signs]; exact none
      exact exec_engineOpDone_redraws busy still hs1 sign
  · generalize hv : (s1.setEngine n { s1.engine n with busy := none }).bump 17 n 1 = v at hu
    have rings : v.ring r = s1.ring r := by rw [← hv]; rfl
    have workV : (v.ring r).find k = some w := rings ▸ work
    have abortedV : v.ringAborted r = true := by rw [State.ringAborted, rings]; exact aborted
    rw [exec_engineOpDone busy still hs1 sign hv.symm, State.opDone_desc client workV, if_pos abortedV, hu]
  · rw [State.opLost_sign desc signs, if_pos bad]
  · rw [State.opLost_sign desc signs, good, if_neg Bool.false_ne_true]
  · have sign : s1.signatureOf q = some [] := by simp only [State.signatureOf, client]
    have ends := exec_engineOpDone (fails := fails) busy still hs1 sign hu
    have op := State.opDone_crown (n := n.val) (env := env) (fails := fails) (sig := []) client desc waits
    have is (o o' : Op) (h : d.opcode = o.code) : d.is o' = decide (o = o') := by
      rw [Desc.is, h, ← Bool.beq_eq_decide_eq, Bool.eq_iff_iff, beq_iff_eq, beq_iff_eq, Op.code_inj]
    refine ⟨fun o ok => ?_, fun o bad => ?_, fun o => ?_, fun o ok => ?_, fun o bad => ?_,
      fun v other hv raw => ?_⟩
    · rw [ends, op]
      simp [is _ _ o, keyEngineDone, ok]
    · rw [ends, op]
      simp [is _ _ o, keyEngineDone, bad]
    · rw [ends, op]
      simp [is _ _ o, keyEngineDone]
    · rw [ends, op]
      simp [is _ _ o, provIdkeyDone, ok]
    · rw [ends, op]
      simp [is _ _ o, provIdkeyDone, bad]
    · rw [ends, State.opDone_crownVerify client desc waits other hv raw]

end Sys2Proof.Machine
end

