-- ==== Sys2Proof/Proofs/EntropyUnit.lean ====
section
/-!
PROOF. The entropy source, its pool and the requests that wait for a block (R376 to R385, R394 to R401).
-/

namespace Sys2Proof.Machine

/-! A request that has waited too long (R383, R385). -/

section
variable {s v : State} {i : Fin 4} {w : DrawWait}
  (waits : (s.signet.waits.find? fun w => w.inst == i.val) = some w) (hv : v = (s.unwait w).drawFail i)
include waits hv

theorem exec_reseedWaitTimeout_random {r k : Nat} (hw : w = .random r k) : exec (.reseedWaitTimeout i) s =
    .next (v.failWork r k { status := .entropyFail, step := 8 }).onward := by
  subst hw
  change execReseedWaitTimeout i s = _
  simp only [execReseedWaitTimeout, waits, ← hv, bad8]

theorem exec_reseedWaitTimeout_crown {n : Nat} {j : Journal} (hw : w = .crown n)
    (journal : v.crowns.journal = some j) : exec (.reseedWaitTimeout i) s =
    .next (if j.number = n ∧ j.wait = .draw then v.crownFail { status := .entropyFail, step := 8 } else v).onward := by
  subst hw
  change execReseedWaitTimeout i s = _
  simp only [execReseedWaitTimeout, waits, ← hv, journal, bad8, Option.any_some, Bool.and_eq_true, beq_iff_eq]

theorem exec_reseedWaitTimeout_spdm (hw : w = .spdm) :
    exec (.reseedWaitTimeout i) s = .next (v.spdmError 0x05).onward := by
  subst hw
  change execReseedWaitTimeout i s = _
  simp only [execReseedWaitTimeout, waits, ← hv]

theorem exec_reseedWaitTimeout_drk (hw : w = .drk) :
    exec (.reseedWaitTimeout i) s = .next v.drkFail.keysGo.onward := by
  subst hw
  change execReseedWaitTimeout i s = _
  simp only [execReseedWaitTimeout, waits, ← hv]

theorem exec_reseedWaitTimeout_inst3 (hw : w = .inst3) :
    exec (.reseedWaitTimeout i) s = .next (v.waitFor .inst3).onward := by
  subst hw
  change execReseedWaitTimeout i s = _
  simp only [execReseedWaitTimeout, waits, ← hv]

theorem exec_reseedWaitTimeout_engine {n : Nat} {q : SigReq} (hw : w = .engine n) (busy : (v.engine n).busy = some q) :
    exec (.reseedWaitTimeout i) s = .next ((v.setEngine n { v.engine n with busy := none }).noRandom q).onward := by
  subst hw
  change execReseedWaitTimeout i s = _
  simp only [execReseedWaitTimeout, waits, ← hv, busy]

end

/-- A descriptor whose random bytes cannot be drawn fails, its charge taken back (R385). -/
theorem State.noRandom_desc {u : State} {q : SigReq} {r k : Nat} {d : Desc} (client : q.client = .desc r k)
    (desc : u.descOf r k = some d) :
    u.noRandom q = ((if q.charged = true then u.modSlot (handleIndex (d.fld 16 4))
        fun x => x.uncharge 1 (blocksOf (signedLen d)) else u).sigGiveBack d).finishBad r k d
      { status := .entropyFail, step := 8 } := by
  have uncharged : u.unchargeRequest q = if q.charged = true then u.modSlot (handleIndex (d.fld 16 4))
      fun x => x.uncharge 1 (blocksOf (signedLen d)) else u := by
    simp only [State.unchargeRequest, client, desc]
    cases q.charged <;> rfl
  have still : (u.unchargeRequest q).descOf r k = some d := by
    rw [uncharged]
    split
    · exact desc
    · exact desc
  rw [← uncharged]
  simp only [State.noRandom, client, still, bad8]

/-- A charge of one invocation is taken back whole (R181, R385). -/
theorem KeySlot.uncharge_charge {x : KeySlot} {b : Nat} (may : x.mayCharge 1 b = true) (h : x.invCount < 2 ^ 32) :
    (x.charge 1 b).uncharge 1 b = x := by
  have loaded : x.st = .loaded := by
    simp only [KeySlot.mayCharge, Bool.and_eq_true, Bool.or_eq_true, beq_iff_eq, bne_iff_ne] at may
    obtain ⟨⟨loaded | spent, -⟩, no | live⟩ := may
    · exact loaded
    · exact loaded
    · exact absurd no (by decide)
    · exact absurd spent live
  have used : (x.charge 1 b).st = .loaded ∨ (x.charge 1 b).st = .spent := by
    simp only [KeySlot.charge]
    split
    · exact .inr rfl
    · exact .inl loaded
  have count : ((x.invCount + 1) % 2 ^ 32 + 2 ^ 32 - 1) % 2 ^ 32 = x.invCount := by omega
  rw [KeySlot.uncharge, if_pos used]
  simp only [KeySlot.charge, Nat.add_sub_cancel, count, ← loaded]

/-! The source (R376 to R380). -/

section
variable {s : State}

/-- A conditioned block joins a pool that has room (R376, R382). -/
theorem exec_conditionedBlock {t : State} {b : Bytes} (stage : 2 ≤ s.start.stage) (running : s.signet.ent = .running)
    (room : s.signet.pool.length < 16) (fresh : s.freshBytes 128 = (b, t)) :
    exec .conditionedBlock s = .next
      ({ t with signet := ({ t.signet with pool := t.signet.pool ++ [sha384 b] } : Signet).instantiate s.tick } :
        State).serveWaits.onward := by
  have takes : ¬ (s.start.stage < 2 ∨ s.signet.ent ≠ .running ∨ 16 ≤ s.signet.pool.length) := by
    simp only [running, ne_eq, not_true_eq_false, false_or]
    omega
  change execConditionedBlock s = _
  simp only [execConditionedBlock, if_neg takes, fresh]

/-- A health failure of a running source (R379). -/
theorem exec_entropyHealthFail {proportion : Bool} {g : Signet} {l : Tab Drbg} (stage : 2 ≤ s.start.stage)
    (running : s.signet.ent = .running) (hg : g = (s.signet.noteFail (!proportion) proportion).entStart)
    (hl : l = (List.range 4).foldl (fun t i => tset {} t i { tget {} t i with reseedReq := true }) g.drbgs) :
    exec (.entropyHealthFail proportion) s = .next
      (({ s with signet := { g with drbgs := l } } : State).raise 15 (if proportion then 2 else 1)) := by
  change execEntropyHealthFail proportion s = _
  rw [execEntropyHealthFail, if_neg (not_or.2 ⟨Nat.not_lt.2 stage, not_not.2 running⟩)]
  simp only [← hg, ← hl]

/-- A start-up test of a settled source ends (R378). -/
theorem exec_startupTestDone (rct apt : Bool) (stage : 2 ≤ s.start.stage) (startup : s.signet.ent = .startup)
    (settled : s.signet.settling = false) :
    exec (.startupTestDone rct apt) s = .next (s.startupTest rct apt).onward := by
  change execStartupTestDone rct apt s = _
  rw [execStartupTestDone, if_neg (by simp [startup, settled]; omega)]

theorem State.startupTest_passed {g : Signet} (hg : g = { s.signet with stepTests := min 15 (s.signet.stepTests + 1) }) :
    s.startupTest false false = { s with signet := { g with ent := .running, startupFails := 0 } } := by
  subst hg
  simp only [State.startupTest, Bool.or_self, Bool.false_eq_true, if_false]

/-- A failed test is counted, and the third in a row fails the source (R380). -/
theorem State.startupTest_failed {rct apt : Bool} {g : Signet}
    (hg : g = { s.signet with stepTests := min 15 (s.signet.stepTests + 1) }) (bad : rct = true ∨ apt = true) :
    s.startupTest rct apt = ({ s with signet := if 2 ≤ s.signet.startupFails
        then { g.noteFail rct apt with
          startupFail := true, startupFails := s.signet.startupFails + 1, ent := .failed, pool := [] }
        else { g.noteFail rct apt with startupFail := true, startupFails := s.signet.startupFails + 1 } } :
          State).raise 15 3 := by
  have fails : (rct || apt) = true := by simpa using bad
  subst hg
  simp only [State.startupTest, if_pos fails]
  congr 2
  by_cases h : 2 ≤ s.signet.startupFails
  · rw [if_pos h, if_pos (Nat.succ_le_succ h)]
  · rw [if_neg h, if_neg (fun e => h (Nat.le_of_succ_le_succ e))]

/-! Its registers (R394, R401). -/

/-- The raw tap gives nothing outside `TEST` or to a VF: the violation shows (R401). -/
theorem exec_rawTapRead_refused {fn : Fin 32} (stage : 3 ≤ s.start.stage) (there : s.fnExists fn = true)
    (closed : s.lcs ≠ .test ∨ fn ≠ 0) : exec (.rawTapRead fn) s = .next
      { s.violation (if fn = 0 then 2 else 1) fn false 0x70200 with
        out := { (s.violation (if fn = 0 then 2 else 1) fn false 0x70200).out with readData := 0 } } := by
  change execRawTapRead fn s = _
  rw [execRawTapRead, if_neg (by simp [there]; omega)]
  by_cases pf : fn = 0
  · subst pf
    rw [if_neg (by simp), if_pos (closed.resolve_right (by simp)), if_pos rfl]
  · have vf : fn.val ≠ 0 := fun e => pf (Fin.ext e)
    rw [if_pos vf, if_neg pf]

theorem exec_rawTapRead_pf {t : State} {b : Bytes} {l : List Word32} (stage : 3 ≤ s.start.stage) (test : s.lcs = .test)
    (fresh : s.freshBytes 64 = (b, t)) (hl : l = (List.range 16).map (fun k => BitVec.ofNat 32 (leField b (4 * k) 4))) :
    exec (.rawTapRead 0) s = .next { t with
      signet := { t.signet with rawTap := l }, out := { t.out with readData := l.getD 0 0 } } := by
  change execRawTapRead 0 s = _
  rw [execRawTapRead, if_neg (by simp [State.fnExists]; omega), if_neg (by simp), if_neg (not_not.2 test), fresh]
  simp only [← hl]

end

/-- Settles O28 (R376 to R385, R394 to R401): it holds; the source's events act on its own registers, and what waited
for a block goes on or fails. -/
theorem entropyUnit : Obligations.EntropyUnit := by
  refine ⟨fun s i r k waits => exec_reseedWaitTimeout_random waits rfl rfl, fun s v i w waits hv =>
      ⟨fun n j hw => exec_reseedWaitTimeout_crown waits hv hw, exec_reseedWaitTimeout_spdm waits hv,
        exec_reseedWaitTimeout_drk waits hv, exec_reseedWaitTimeout_inst3 waits hv,
        fun n q => exec_reseedWaitTimeout_engine waits hv⟩,
    fun u q r k d => State.noRandom_desc, fun x b => KeySlot.uncharge_charge, fun s t b => exec_conditionedBlock,
    fun s proportion g l => exec_entropyHealthFail, fun s stage startup => ?_,
    fun s rct apt g stage startup settled hg => ⟨fun passed => ?_, fun bad few => ?_, fun bad many => ?_⟩,
    fun s stage bars => ?_, fun s t b l => exec_rawTapRead_pf, fun s fn stage there closed => ?_,
    fun s fn stage there vf => ?_, fun s fn none => ⟨?_, ?_⟩⟩
  · change execEntropySettleEnd s = _
    rw [execEntropySettleEnd, if_pos ⟨stage, startup⟩]
  · obtain ⟨rfl, rfl⟩ := passed
    rw [exec_startupTestDone false false stage startup settled, State.startupTest_passed hg]
  · rw [exec_startupTestDone rct apt stage startup settled, State.startupTest_failed hg bad, if_neg (by omega)]
  · rw [exec_startupTestDone rct apt stage startup settled, State.startupTest_failed hg bad, if_pos many]
  · exact congrArg _ (pfWrite_pf _ stage bars)
  · exact ⟨_, exec_rawTapRead_refused stage there closed, rfl, rfl, rfl, rfl⟩
  · exact congrArg _ (pfWrite_vf _ stage (fun e => vf (Fin.ext e)) there)
  · change execRawTapRead fn s = _
    rw [execRawTapRead, if_pos (by simp [none])]
  · change execEntCtlRestart fn s = _
    rw [execEntCtlRestart, State.pfWrite, if_pos (by simp [none])]

end Sys2Proof.Machine
end

