-- ==== Sys2Proof/Proofs/VaultEvents.lean ====
section
/-!
PROOF. Events of the vault engine (R409, R417, R425 to R431, R462).
-/

namespace Sys2Proof.Machine

section
variable {s u v : State}

/-- A fold pass ends with the export that it precedes, or with what waited for it (R431). -/
theorem State.foldAll_busy {env : Env} (busy : u.vault.foldBusy = true)
    (hv : v = u.vault.fold.foldl (fun a e => a.foldEntry e) u) :
    ((∀ f, v.vault.job ≠ some (.exporting f)) → u.foldAll env =
      ({ v with vault := { v.vault with fold := [], foldBusy := false } } : State).vaultGo) ∧
    (∀ f, v.vault.job = some (.exporting f) → u.foldAll env =
      ({ v with vault := { v.vault with fold := [], foldBusy := false } } : State).runExport env f) := by
  unfold State.foldAll
  rw [busy, if_neg (by simp)]
  dsimp only
  rw [← hv]
  refine ⟨fun other => ?_, fun f job => by rw [job]⟩
  split
  · next f job => exact absurd job (other f)
  · rfl

/-- An arm batch closes with one write of each of its pages (R429). -/
theorem State.closeBatch_active {k : Nat} {l pages : List Nat} (batching : s.vault.batching = true)
    (active : s.vault.st = .active) (hk : k = s.vault.record.openEpoch)
    (hl : l = (s.vault.arms.filter fun a => a.stage == .gathered).map (·.endpoint))
    (hp : pages = ((l.map (· / 2048)).mergeSort fun a b => decide (a ≤ b)).dedup) :
    s.closeBatch = ({ s with vault := { s.vault with
        batching := false
        arms := s.vault.arms.map fun a => if a.stage = .gathered then { a with stage := .writing } else a } } :
        State).askPages (pages.map fun p =>
      ⟨1, bitmapPage k p, (l.filter fun e => e / 2048 == p).foldl setPageBit (s.pagePlanned (bitmapPage k p)),
        PageKind.arm (k % 16) p⟩) := by
  unfold State.closeBatch
  rw [batching, if_neg (by simp)]
  dsimp only
  rw [if_neg (not_not.2 active), ← hk, ← hl, ← hp]

/-- Step 4 of the arms whose page has been written (R428). -/
theorem State.completeArms_eq {k : Nat} (hk : k = s.vault.record.openEpoch)
    (hu : u = (s.vault.arms.filter fun a => a.stage == .written).foldl (fun x a =>
      let t := if a.endpoint ∈ x.vault.fold then x.tryFold a.endpoint else (x.meetBank a.endpoint, true)
      if t.2 = false then (match a.by_ with
        | some o => t.1.armLost o.1 o.2
        | none => t.1)
      else if t.1.mayArm a.endpoint = true then
        (t.1.setPipe a.endpoint ((t.1.pipe a.endpoint).arm k x.vault.record.lOpen)).bump 18 9 1
      else t.1) s) :
    s.completeArms =
      ({ u with vault := { u.vault with arms := u.vault.arms.filter fun a => a.stage != .written } } :
        State).endArmJobs := by
  subst hk hu
  simp only [State.completeArms, Bool.not_eq_true', List.elem_eq_mem, decide_eq_true_eq] <;> rfl

/-- The first page set that waits is cleared (R427). -/
theorem exec_bitmapSetClear {a b : List Nat} {set : Nat} (clearing : s.vault.clearing = a ++ set :: b)
    (begun : ∀ k ∈ a, s.setClearing k = true) (due : s.setClearing set = false) :
    exec .bitmapSetClear s = .next (s.clearSet set).onward := by
  have first : s.vault.clearing.find? (fun k => !s.setClearing k) = some set := by
    have none : a.find? (fun k => !s.setClearing k) = none := by
      rw [List.find?_eq_none]
      exact fun k hk => by simp [begun k hk]
    rw [clearing, List.find?_append, none, Option.none_or, List.find?_cons_of_pos (by simp [due])]
  change execBitmapSetClear s = _
  simp only [execBitmapSetClear, first]

/-- An entry is rebuilt from its vault entry, where that can be read (R417, R425). -/
theorem State.rebuild_read {e : Nat} {r : State} (st : s.vault.st ≠ .none) (here : s.vault.st ≠ .moved)
    (read : (s.meetBank e).readEntry e = (r, true))
    (hv : v = (({ r with vlt := { r.vlt with
        bankChkerr := tmod 0 r.vlt.bankChkerr (e % 16) fun n => min (n + 1) (2 ^ 32 - 1) } } : State).bump 18 8
          1).setPipe e (rebuildPip r.vault.record (r.ventry e))) :
    s.rebuild e = { v with vault := { v.vault with
      coarseFold := v.vault.coarseFold.filter (fun x => x != e)
      coarseOut := v.vault.coarseOut.filter fun x => x != e } } := by
  subst hv
  unfold State.rebuild
  rw [if_neg (not_or.2 ⟨st, here⟩), read]
  dsimp only
  rw [if_neg (by simp)]
  rfl

theorem State.rebuild_unread {e : Nat} {r : State} (st : s.vault.st ≠ .none) (here : s.vault.st ≠ .moved)
    (read : (s.meetBank e).readEntry e = (r, false)) : s.rebuild e = r := by
  unfold State.rebuild
  rw [if_neg (not_or.2 ⟨st, here⟩), read]
  rfl

end

/-! The key fetch of a capture (R409, R511). -/

section
variable {s u r : State} {f id : Nat} {lineOk hit b : Bool} {m : Msg} {c : CapSt} {v : VEntry}
  (open_ : s.vault.st = .active ∨ s.vault.st = .sealed) (hhit : hit = s.vault.cached.elem c.endpoint)
  (hu : u = (s.bump 18 0 1).bump 18 1 (if hit then 1 else 0))
  (read : (if lineOk || hit then u else u.flawEntry c.endpoint).readEntry c.endpoint = (r, b))
  (hv : v = r.ventry c.endpoint)
include open_ hhit hu read hv

/-- It ends by what the entry holds. -/
theorem State.keyFetched_open : s.keyFetched f m c lineOk =
    if !b then r.endMsg f m { status := .vaultIntegrity, step := 8 }
    else match v.st with
      | .empty => r.endMsg f m { status := .endpointUnknown, step := 8 }
      | .revoked => r.endMsg f m { status := .endpointRevoked, step := 8 }
      | .enrolled =>
        if v.recLimit ≤ v.recCount ∨ v.blockLimit ≤ v.blockCount then r.endMsg f m { status := .keySpent, step := 8 }
        else
          let c1 := { c with
            ekey := fit 32 (if v.rekeySeq ≤ c.sequence then v.key else v.prevKey), sha3 := c.sha3 || v.sha3 }
          (r.modMsg f m.id fun y => { y with kind := .capture c1 }).capClaim f { m with kind := .capture c1 } c1 := by
  unfold State.keyFetched
  dsimp only
  rw [← hhit, ← hu, read]
  dsimp only
  rw [← hv]
  obtain active | sealed_ := open_
  · rw [active]
    cases v.st <;> rfl
  · rw [sealed_]
    cases v.st <;> rfl

end

/-- A capture that waits for its key has it fetched (R409, R419). -/
theorem exec_vaultKeyFetchDone {s : State} {f : Fin 16} {id : Nat} {lineOk : Bool} {m : Msg} {c : CapSt}
    (msg : s.msg f id = some m) (kind : m.kind = .capture c) (fetching : m.st = .fetching) (key : c.ekey = [])
    (live : s.halted = false) :
    exec (.vaultKeyFetchDone f id lineOk) s = .next (s.keyFetched f m c lineOk).strandsGo := by
  change execVaultKeyFetchDone f id lineOk s = _
  simp only [execVaultKeyFetchDone, msg, kind]
  rw [if_pos ⟨fetching, by rw [key]; rfl, by rw [live]; rfl⟩]

/-- Settles O29 (R409, R417, R425 to R431, R462): it holds; each event makes its change and lets go on what waited. -/
theorem vaultEvents : Obligations.VaultEvents := by
  refine ⟨fun s u v env hu busy hv => ?_, fun s k l pages batching active hk hl hp =>
      congrArg (fun t : State => Host.Outcome.next t.onward) (State.closeBatch_active batching active hk hl hp),
    fun s u k hk hu => congrArg (fun t : State => Host.Outcome.next t.onward) (State.completeArms_eq hk hu),
    fun s a b set clearing begun due => exec_bitmapSetClear clearing begun due,
    fun s u r endpoint lineOk e he check st here hu => ?_, fun s e => ⟨fun met => ?_, fun apart => ?_⟩,
    fun s stage bars => congrArg _ (pfWrite_pf _ stage bars),
    fun s u r f id lineOk hit m c v msg kind fetching key live open_ hhit hu b read hv => ?_⟩
  · have ends := State.foldAll_busy (env := env) busy hv
    have run : exec (.foldPass env) s = .next (u.foldAll env).onward := by rw [hu]; rfl
    exact ⟨fun other => by rw [run, ends.1 other], fun f job => by rw [run, ends.2 f job]⟩
  · obtain ⟨w, hw⟩ : ∃ w, w = if lineOk || s.vault.cached.elem e then s else s.flawEntry e := ⟨_, rfl⟩
    have same : w.vault.st = s.vault.st := by
      rw [hw]
      split <;> rfl
    rw [← hw] at hu
    have run : exec (.pipEntryRebuild endpoint lineOk) s =
        .next ((w.rebuild e).capRetry fun c => c.endpoint == e).onward := by
      change execPipEntryRebuild endpoint lineOk s = _
      rw [execPipEntryRebuild, ← he, if_neg check, ← hw]
    refine ⟨fun read v hv => ?_, fun read => ?_⟩
    · rw [run, State.rebuild_read (same ▸ st) (same ▸ here) (hu ▸ read) hv]
    · rw [run, State.rebuild_unread (same ▸ st) (same ▸ here) (hu ▸ read)]
  · rw [State.meetBank, if_pos met]
  · rw [State.meetBank, if_neg apart]
  · have run := exec_vaultKeyFetchDone (lineOk := lineOk) msg kind fetching key live
    rw [State.keyFetched_open open_ hhit hu read hv] at run
    refine ⟨fun bad => ?_, fun good empty => ?_, fun good revoked => ?_, fun good enrolled recs blocks c1 hc => ?_⟩
    · rw [run, bad]
      rfl
    · rw [run, good, empty]
      rfl
    · rw [run, good, revoked]
      rfl
    · rw [run, good, enrolled, hc]
      simp only [Bool.not_true, Bool.false_eq_true, if_false, if_neg (not_or.2 ⟨Nat.not_le.2 recs, Nat.not_le.2 blocks⟩)]

end Sys2Proof.Machine
end

