-- ==== Sys2Proof/Proofs/PipEvents.lean ====
section
/-!
PROOF. Requests and events of the Pip port (R466 to R474, R480, R484, R490, R494, R499).
-/

namespace Sys2Proof.Machine

/-! A request on clean pins in `FULL` mode, of any operation. -/

/-- An `ARM` is checked for its sequence (R480). -/
theorem requestFault_arm {w : BitVec 64} {p : PipPins} (n : p.noise = 0) (c : p.chkNoise = 0) (v : p.strobe = 3)
    (o : reqOp w = 2) : requestFault w p = if reqSeq w ≠ 0 then some 4 else none := by
  have lanes : lanesOk p.noise p.chkNoise = true := by rw [n, c]; decide
  rw [requestFault, if_neg (by simp [lanes]), if_neg (by omega), if_neg (not_not.2 v)]
  simp only [o, true_and]

section
variable {s : State} {w : BitVec 64} {p : PipPins}
  (n : p.noise = 0) (v : p.strobe = 3) (l : p.strobeLater = false) (m : s.portMode = .full)
include n v l m

/-- A faulty request is answered as its fault, and counted as such (R480). -/
theorem State.pipCycle_faulty {c : Nat} {late : Option Bool} (fault : requestFault w p = some c) :
    s.pipCycle w p late = ((s.requestIn false).pipFault c).answer w 0xE c := by
  rw [State.pipCycle, if_neg (by simp [m]), if_neg (by simp [v]), if_neg (by simp [v])]
  extract_lets _ _ s1 received
  have clean : received = w := by simp [received, n]
  have counted : s1 = s.requestIn false := by simp only [s1, l]; rfl
  clear_value s1 received
  subst clean counted
  rw [fault]

/-- Any other is decided by the vault engine, in time (R482). -/
theorem State.pipCycle_decided (sound : requestFault w p = none) :
    s.pipCycle w p none = ((s.requestIn false).pipDecide w).1.answer w ((s.requestIn false).pipDecide w).2.1
      ((s.requestIn false).pipDecide w).2.2 := by
  rw [State.pipCycle, if_neg (by simp [m]), if_neg (by simp [v]), if_neg (by simp [v])]
  extract_lets _ _ s1 received
  have clean : received = w := by simp [received, n]
  have counted : s1 = s.requestIn false := by simp only [s1, l]; rfl
  clear_value s1 received
  subst clean counted
  rw [sound]
  dsimp only
  rw [State.requestIn_portMode, m]

/-- Or too late, its effect taken or not (R474). -/
theorem State.pipCycle_late {took : Bool} {x : State} (sound : requestFault w p = none)
    (hx : x = if took then ((s.requestIn false).pipDecide w).1 else s.requestIn false) :
    s.pipCycle w p (some took) = (({ x with pip := { x.pip with
      late := if x.pip.late = BitVec.allOnes 32 then x.pip.late else x.pip.late + 1 } } : State).bump 19 1 1).answer w 6
        0x3FE := by
  rw [State.pipCycle, if_neg (by simp [m]), if_neg (by simp [v]), if_neg (by simp [v])]
  extract_lets _ _ s1 received
  have clean : received = w := by simp [received, n]
  have counted : s1 = s.requestIn false := by simp only [s1, l]; rfl
  clear_value s1 received
  subst clean counted hx
  rw [sound]
  dsimp only
  rw [State.requestIn_portMode, m]

end

/-- What the vault engine decides of an `ARM` (R494). -/
theorem State.pipDecide_arm {s : State} {w : BitVec 64} {a : (Nat × Nat) × Bool} (m : s.portMode = .full)
    (o : reqOp w = 2) (ha : a = s.armAnswer (reqEndpoint w)) :
    s.pipDecide w = (if a.2 then ((s.reachBank (reqEndpoint w)).gatherArm (reqEndpoint w) none).bump 19 7 1
      else s.reachBank (reqEndpoint w), a.1) := by
  subst ha
  simp only [State.pipDecide, m, if_pos o]

@[simp] theorem State.requestIn_armAnswer (s : State) (later : Bool) (e : Nat) :
    (s.requestIn later).armAnswer e = s.armAnswer e := by
  cases later <;> rfl

/-- Settles O30 (R480, R484, R485, R494): it holds; the vault engine decides every request without a fault. -/
theorem pipRequests : Obligations.PipRequests := by
  intro s s0 e q t p n c v l m h0
  have counted : s0 = s.requestIn false := h0
  have o := reqOp_pipRequest (op := 2) (by decide) e q t
  have he := reqEndpoint_pipRequest (op := 2) (by decide) e q t
  have hq := reqSeq_pipRequest (op := 2) (by decide) e q t
  have fault := requestFault_arm n c v o
  rw [hq] at fault
  subst counted
  refine ⟨fun a => exec_pipPeek_full n c v l m, fun a => exec_pipClaim_full n c v l m, fun a ha zero => ?_,
    fun seq => ?_⟩
  · have sound : requestFault (pipRequest 2 e q t) p = none := by rw [fault, zero]; rfl
    have decided := State.pipDecide_arm (s := s.requestIn false) (w := pipRequest 2 e q t) (a := a)
      ((s.requestIn_portMode false).trans m) o (by rw [ha, he, State.requestIn_armAnswer])
    rw [he] at decided
    change Host.Outcome.next (s.pipCycle (pipRequest 2 e q t) p none) = _
    rw [State.pipCycle_decided n v l m sound, decided]
  · have faulty : requestFault (pipRequest 2 e q t) p = some 4 := by
      have nonzero : q.toNat ≠ 0 := fun z => seq (BitVec.eq_of_toNat_eq z)
      rw [fault, if_pos nonzero]
    change Host.Outcome.next (s.pipCycle (pipRequest 2 e q t) p none) = _
    rw [State.pipCycle_faulty n v l m faulty]

/-- Settles O33 (R466 to R474, R499): it holds; each event changes the port alone, but for a claim that took effect
before its answer was cut off. -/
theorem pipPortEvents : Obligations.PipPortEvents := by
  refine ⟨fun s u later lit framed hu => ?_, fun s s0 x e q t p took n c v l m h0 fresh hx few => ?_,
    fun s => ⟨rfl, rfl⟩, fun s stage bars => ⟨congrArg _ (pfWrite_pf _ stage bars), congrArg _ (pfWrite_pf _ stage bars)⟩⟩
  · subst hu
    change Host.Outcome.next (s.pipIdle later) = _
    rw [State.pipIdle, if_neg lit]
    dsimp only
    rw [framed, if_neg (by simp)]
  · have counted : s0 = s.requestIn false := h0
    have o := reqOp_pipRequest (op := 1) (by decide) e q t
    have he := reqEndpoint_pipRequest (op := 1) (by decide) e q t
    have hq := reqSeq_pipRequest (op := 1) (by decide) e q t
    have decided := State.pipDecide_full (s := s.requestIn false) (w := pipRequest 1 e q t)
      ((s.requestIn_portMode false).trans m) (by omega) rfl
    rw [State.requestIn_fullAnswer, State.requestIn_pipe, o, he, hq] at decided
    have effect : x = if took then ((s.requestIn false).pipDecide (pipRequest 1 e q t)).1 else s.requestIn false := by
      rw [decided, hx, counted]
      simp only [beq_self_eq_true, fresh, and_self, if_true]
    have late : x.pip.late = s.pip.late := by
      rw [hx, h0]
      cases took <;> rfl
    change Host.Outcome.next (s.pipCycle (pipRequest 1 e q t) p (some took)) = _
    rw [State.pipCycle_late n v l m (requestFault_clean n c v (by omega)) effect, late, if_neg few]

end Sys2Proof.Machine
end

