-- ==== Sys2Proof/Proofs/Moves.lean ====
section
/-!
PROOF. The moves of the applet engines (R569 to R588): what each answers, how the engine goes on from its answer, and
what that leaves unchanged.
-/

namespace Sys2Proof.Machine

/-! How an engine goes on from a move's answer (R569, R581). -/

section
variable {s t : State} {e : Fin 4} {i : Instr} {x y : Engine} {v : Invocation} {m : MoveFields}
  {act : State → Engine → Invocation → MoveRes}

theorem exec_move_go (run : exec i s = .next (s.runMove e i act)) (h : s.AtMove e i x v m) {k : Nat}
    (cost : moveCost m x = k) (res : act s x v = .go t y) :
    exec i s = .next (t.movedTo e y v (x.pc + 1) (x.units + k)) := by
  rw [run, runMove_at h, res, ← cost]

theorem exec_move_jump {dst : Nat} (run : exec i s = .next (s.runMove e i act)) (h : s.AtMove e i x v m) {k : Nat}
    (cost : moveCost m x = k) (res : act s x v = .jump t y dst) :
    exec i s = .next (t.movedTo e y v dst (x.units + k)) := by
  rw [run, runMove_at h, res, ← cost]

theorem exec_move_bad {code : Byte} (run : exec i s = .next (s.runMove e i act)) (h : s.AtMove e i x v m)
    (res : act s x v = .bad t code) : exec i s = .next (t.faultRun e x code 0).onward := by
  rw [run, runMove_at h, res]

theorem exec_move_accept {a n : Nat} (run : exec i s = .next (s.runMove e i act)) (h : s.AtMove e i x v m) {k : Nat}
    (cost : moveCost m x = k) (res : act s x v = .ret 0 a n) :
    exec i s = .next (s.acceptRun e { x with units := x.units + k } a n).onward := by
  rw [run, runMove_at h, res, ← cost]
  rfl

theorem exec_move_reject {code : Byte} {a n : Nat} (run : exec i s = .next (s.runMove e i act)) (h : s.AtMove e i x v m)
    (res : act s x v = .ret code a n) (bad : code ≠ 0) : exec i s = .next (s.faultRun e x 0x01 code).onward := by
  rw [run, runMove_at h, res]
  exact congrArg _ (if_pos bad)

/-- The units of a move that the engine stands at, by its code. -/
theorem State.AtMove.cost (h : s.AtMove e i x v m) {k : Nat}
    (cost : (moveFields i).map (fun f => moveCost f x) = some k) : moveCost m x = k := by
  rw [h.fields] at cost
  exact Option.some.inj cost

end

/-! Moves that compute (R571). -/

section
variable {s : State} {e : Fin 4} {i : Instr} {d : Fin 16}

/-- A move that writes a register for one unit. -/
theorem moveGives_alu {f : Engine → BitVec 64} (run : exec i s = .next (s.aluMove e i d f))
    (one : ∀ x, (moveFields i).map (fun m => moveCost m x) = some 1) :
    s.MoveGives e i (fun _ => 1) (fun x => x.setReg d (f x)) := by
  intro x v m h
  exact exec_move_go run h (h.cost (one x)) rfl

variable {a b : Fin 16} {x : Engine} {v : Invocation} {m : MoveFields}
  {f : BitVec 64 → BitVec 64 → BitVec 64}

/-- A division by a register that is not zero. -/
theorem exec_divMove (run : exec i s = .next (s.divMove e i d a b f)) (h : s.AtMove e i x v m)
    (one : (moveFields i).map (fun m => moveCost m x) = some 1) (divisor : x.reg b ≠ 0) :
    exec i s = .next (s.movedTo e (x.setReg d (f (x.reg a) (x.reg b))) v (x.pc + 1) (x.units + 1)) := by
  exact exec_move_go run h (h.cost one) (if_neg divisor)

theorem exec_divMove_zero (run : exec i s = .next (s.divMove e i d a b f)) (h : s.AtMove e i x v m)
    (divisor : x.reg b = 0) : exec i s = .next (s.faultRun e x 0x03 0).onward :=
  exec_move_bad run h (if_pos divisor)

end

/-- `LDIH` keeps the low half of its register. -/
theorem high_half (x : BitVec 64) (imm : Word32) :
    (x.setWidth 32).setWidth 64 + (zext imm <<< 32) = imm ++ x.setWidth 32 := by
  apply BitVec.eq_of_toNat_eq
  have low : ((x.setWidth 32).setWidth 64).toNat = (x.setWidth 32).toNat := BitVec.toNat_setWidth_of_le (by decide)
  have high : (zext imm).toNat = imm.toNat := BitVec.toNat_setWidth_of_le (by decide)
  have lowLt : (x.setWidth 32).toNat < 2 ^ 32 := (x.setWidth 32).isLt
  have highLt : imm.toNat < 2 ^ 32 := imm.isLt
  rw [BitVec.toNat_append, ← Nat.shiftLeft_add_eq_or_of_lt lowLt, BitVec.toNat_add, BitVec.toNat_shiftLeft, low, high,
    Nat.shiftLeft_eq]
  omega

theorem ofNat_div (a b : BitVec 64) : BitVec.ofNat 64 (a.toNat / b.toNat) = a.udiv b := by
  apply BitVec.eq_of_toNat_eq
  have le : a.toNat / b.toNat ≤ a.toNat := Nat.div_le_self ..
  have lt : a.toNat < 2 ^ 64 := a.isLt
  rw [BitVec.toNat_ofNat, Nat.mod_eq_of_lt (by omega)]
  exact BitVec.toNat_udiv.symm

theorem ofNat_mod (a b : BitVec 64) : BitVec.ofNat 64 (a.toNat % b.toNat) = a.umod b := by
  apply BitVec.eq_of_toNat_eq
  have le : a.toNat % b.toNat ≤ a.toNat := Nat.mod_le ..
  have lt : a.toNat < 2 ^ 64 := a.isLt
  rw [BitVec.toNat_ofNat, Nat.mod_eq_of_lt (by omega)]
  exact BitVec.toNat_umod.symm

/-- An engine goes on to the move that it is sent to, or faults past the last one (R581, R588). -/
theorem State.movedTo_running {s : State} {e dst units : Nat} {y : Engine} {v : Invocation}
    (runs : (s.eng e).inv ≠ none) : s.movedTo e y v dst units =
      if dst < (s.app v.slot).moves.length then s.setEng e { y with pc := dst, units := units }
      else (s.faultRun e y 0x0D 0).onward := by
  rw [State.movedTo, if_neg (by simpa [Option.isNone_iff_eq_none] using runs)]

/-- Settles O35 (R571, R581, R588): it holds; a computing move writes its register and goes on. -/
theorem moveArithmetic : Obligations.MoveArithmetic := by
  refine ⟨fun s e d a b imm => ?_, fun s e y v dst units => ⟨fun none => ?_, State.movedTo_running⟩,
    fun s e d a b x v m => ⟨fun h => ⟨fun divisor => ?_, exec_divMove_zero rfl h⟩,
      fun h => ⟨fun divisor => ?_, exec_divMove_zero rfl h⟩⟩⟩
  · have one {i : Instr} {f : Engine → BitVec 64} (run : exec i s = .next (s.aluMove e i d f))
        (cost : ∀ x, (moveFields i).map (fun m => moveCost m x) = some 1) := moveGives_alu run cost
    refine ⟨one rfl fun _ => rfl, one rfl fun _ => rfl, one rfl fun _ => rfl, one rfl fun _ => rfl,
      one rfl fun _ => rfl, one rfl fun _ => rfl, one rfl fun _ => rfl, one rfl fun _ => rfl, one rfl fun _ => rfl,
      one rfl fun _ => rfl, ?_, one rfl fun _ => rfl, one rfl fun _ => rfl, one rfl fun _ => rfl,
      one rfl fun _ => rfl, one rfl fun _ => rfl⟩
    simp only [← high_half]
    exact one rfl fun _ => rfl
  · rw [State.movedTo, if_pos (by rw [none]; rfl)]
  · rw [ofNat_div]
    exact exec_divMove rfl h rfl divisor
  · rw [ofNat_mod]
    exact exec_divMove rfl h rfl divisor

/-! The frame of a move (R571, R581). -/

/-- A register table that is not in canonical form: the entry of register 0 stands behind that of register 1, so it does
not show until the latter is erased. -/
def shadowedRegs : Tab (BitVec 64) := [(1, 5), (0, 7)]

/-- An invocation with a unit to spend. -/
def shadowInvocation : Invocation :=
  { kind := .invoke 0 0, slot := 0, ring := 0, fn := 0, cls := 0, declLen := 0, arg := 0, budget := 1 }

/-- An engine at the first move of its applet, with that table. -/
def shadowEngine : Engine := { inv := some shadowInvocation, regs := shadowedRegs }

/-- The fields of `LDI S1, 0`. -/
def ldiZero : MoveFields := ⟨0x11, 1, 0, 0, 0, 0⟩

/-- A device whose engine 0 stands at `LDI S1, 0`, the first of two moves. -/
def shadowState : State :=
  { State.reset with applets := { State.reset.applets with
      engines := [(0, shadowEngine)], slots := [(0, { moves := [packMove ldiZero, packMove ldiZero] })] } }

theorem shadowState_atMove : shadowState.AtMove 0 (.moveLdi 0 1 0) shadowEngine shadowInvocation ldiZero :=
  ⟨rfl, rfl, rfl, rfl, rfl, by decide⟩

/-- The engine after the move: register 1 is erased, and what stood behind it shows in register 0. -/
theorem shadowState_moves : exec (.moveLdi 0 1 0) shadowState =
    .next (shadowState.setEng 0 { shadowEngine with regs := [(0, 7)], pc := 1, units := 1 }) := by
  rw [moveGives_alu (f := fun _ => 0) rfl (fun _ => rfl) _ _ _ shadowState_atMove]
  rfl

/-- Refutes O36: of an engine whose register table is not in canonical form, a move that clears register 1 changes
register 0 too. -/
theorem not_moveGuardsAndFrame : ¬ Obligations.MoveGuardsAndFrame := by
  rintro ⟨-, frame⟩
  obtain ⟨-, others, -⟩ := frame shadowState _ 0 1 0 0 0 (.moveLdi 0 1 0) shadowEngine shadowInvocation ldiZero
    (by simp) shadowState_atMove (by decide) shadowState_moves
  exact absurd (others 0 (by decide)) (by decide)

/-! Branches and scratch (R571, R575, R576). -/

theorem not_inScratch_iff (a n : Nat) : (!inScratch a n) = true ↔ n ≠ 0 ∧ 16384 < a + n := by
  simp [inScratch]

/-- The two paths on the same or on other bytes give one of the two words (R313). -/
theorem verdictWord_eq (a b : Bytes) : verdictWord a b = if a = b then 0x3CC3 else 0xC33C := by
  by_cases h : a = b
  · rw [if_pos h]
    simp [verdictWord, h]
  · have inverse : a.map (~~~ ·) ≠ b.map (~~~ ·) := fun e =>
      h (List.map_injective_iff.2 (fun a b e => BitVec.not_inj.1 e) e)
    rw [if_neg h]
    simp [verdictWord, h, inverse]

/-- A verdict of the two paths raises no alarm (R575). -/
theorem verdictReg_paths (s : State) (a b : Bytes) :
    verdictReg s (verdictWord a b) = (if a = b then 0x3CC3 else 0xC33C, s) := by
  rw [verdictWord_eq]
  by_cases h : a = b <;> simp [verdictReg, State.verdict, h]

section
variable {s : State} {e : Fin 4} {d a b : Fin 16} {c : Fin 4} {imm : Word32} {x : Engine} {v : Invocation}
  {m : MoveFields} {p n : Nat}

theorem exec_moveLd (h : s.AtMove e (.moveLd e d a c imm) x v m) (hp : p = (x.reg a + imm.signExtend 64).toNat)
    (hn : n = 2 ^ c.val) : exec (.moveLd e d a c imm) s = .next (if p + n ≤ 16384 then s.movedTo e
        (x.setReg d (BitVec.ofNat 64 (leNat (x.bytes p n)))) v (x.pc + 1) (x.units + 1)
      else (s.faultRun e x 0x02 0).onward) := by
  have pos : n ≠ 0 := hn ▸ Nat.two_pow_pos _ |>.ne'
  subst hp hn
  split
  · next fits => exact exec_move_go rfl h (h.cost rfl) (if_neg fun bad =>
      absurd ((not_inScratch_iff _ _).1 bad).2 (Nat.not_lt.2 fits))
  · next outside =>
    exact exec_move_bad rfl h (if_pos ((not_inScratch_iff _ _).2 ⟨pos, Nat.not_le.1 outside⟩))

theorem exec_moveSt (h : s.AtMove e (.moveSt e a b c imm) x v m) (hp : p = (x.reg a + imm.signExtend 64).toNat)
    (hn : n = 2 ^ c.val) : exec (.moveSt e a b c imm) s = .next (if p + n ≤ 16384 then s.movedTo e
        (x.put p (leBytes n (x.reg b).toNat)) v (x.pc + 1) (x.units + 1)
      else (s.faultRun e x 0x02 0).onward) := by
  have pos : n ≠ 0 := hn ▸ Nat.two_pow_pos _ |>.ne'
  subst hp hn
  split
  · next fits => exact exec_move_go rfl h (h.cost rfl) (if_neg fun bad =>
      absurd ((not_inScratch_iff _ _).1 bad).2 (Nat.not_lt.2 fits))
  · next outside =>
    exact exec_move_bad rfl h (if_pos ((not_inScratch_iff _ _).2 ⟨pos, Nat.not_le.1 outside⟩))

theorem exec_moveMemcmp (h : s.AtMove e (.moveMemcmp e d a b imm none) x v m)
    (fits : imm.toNat = 0 ∨ ((x.reg a).toNat + imm.toNat ≤ 16384 ∧ (x.reg b).toNat + imm.toNat ≤ 16384)) :
    exec (.moveMemcmp e d a b imm none) s = .next (s.movedTo e
      (x.setReg d (if x.bytes (x.reg a).toNat imm.toNat = x.bytes (x.reg b).toNat imm.toNat then 0x3CC3
        else 0xC33C)) v (x.pc + 1) (x.units + (8 + ceilDiv imm.toNat 8))) := by
  have ranges : ¬ (!inScratch (x.reg a).toNat imm.toNat || !inScratch (x.reg b).toNat imm.toNat) = true := by
    rw [Bool.or_eq_true, not_inScratch_iff, not_inScratch_iff]
    omega
  refine exec_move_go rfl h (h.cost rfl) ((if_neg ranges).trans ?_)
  rw [Option.getD_none, verdictReg_paths]

end

/-- Settles O37 (R571, R575, R576): it holds; a branch goes to its move, a load, store or comparison to its bytes. -/
theorem moveBranchesAndScratch : Obligations.MoveBranchesAndScratch := by
  refine ⟨fun s e a imm x v m => ⟨fun h => ?_, fun h => ?_, fun h => ?_⟩,
    fun s e d a b c imm x v m p n hp hn => ⟨fun h => ⟨fun fits => ?_, fun outside => ?_⟩,
      fun h => ⟨fun fits => ?_, fun outside => ?_⟩, exec_moveMemcmp⟩⟩
  · split
    · next zero => exact exec_move_jump rfl h (h.cost rfl) (if_pos zero)
    · next other => exact exec_move_go rfl h (h.cost rfl) (if_neg other)
  · split
    · next zero => exact exec_move_go rfl h (h.cost rfl) (if_neg (not_not.2 zero))
    · next other => exact exec_move_jump rfl h (h.cost rfl) (if_pos other)
  · exact exec_move_jump rfl h (h.cost rfl) rfl
  · rw [exec_moveLd h hp hn, if_pos fits]
  · rw [exec_moveLd h hp hn, if_neg (by omega)]
  · rw [exec_moveSt h hp hn, if_pos fits]
  · rw [exec_moveSt h hp hn, if_neg (by omega)]

/-! Moves that use a key (R571 to R574). -/

section
variable {s u : State} {x : Engine} {v : Invocation} {a b : Fin 16} {imm : Word32} {ok : Nat → Nat → Bool}
  {pre : Nat → Nat → Option Byte} {gcms : Bool} {act : Bytes → Nat → Nat → State → MoveRes} {p n : Nat} {key : Bytes}

/-- With its range in scratch, its own checks passed and its key charged, a key move acts. -/
theorem keyMove_acts (hp : p = (x.reg a).toNat) (hn : n = (x.reg b).toNat) (fits : n = 0 ∨ p + n ≤ 16384)
    (own : ok p n = true) (passes : pre p n = none) (charged : moveKey s x v (immKey imm) n gcms = .ok (key, u)) :
    keyMove s x v a b imm ok pre gcms act = act key p n u := by
  subst hp hn
  have ranges : ¬ (!inScratch (x.reg a).toNat (x.reg b).toNat || !ok (x.reg a).toNat (x.reg b).toNat) = true := by
    rw [Bool.or_eq_true, not_inScratch_iff, own]
    simp only [Bool.not_true, Bool.false_eq_true, or_false]
    omega
  simp only [keyMove, if_neg ranges, passes, charged]

end

theorem inScratch_of_le {a n : Nat} (h : a + n ≤ 16384) : inScratch a n = true := by
  simp [inScratch, h]

/-- Settles O38 (R571 to R575): it holds; a key move charges its key, then works on its range. -/
theorem moveCrypto : Obligations.MoveCrypto := by
  intro s u e d a b c imm x v m p n o key hp hn ho fits
  subst ho
  refine ⟨fun h charged => ?_, fun h charged counter wrap => ?_, fun h charged tag => ?_,
    fun h charged iv room => ?_, fun h charged iv tag ct ok hct hok => ?_⟩
  · exact exec_move_go rfl h rfl (keyMove_acts hp hn fits rfl rfl charged)
  · have own : inScratch (immOff imm) 16 = true := inScratch_of_le counter
    exact exec_move_go rfl h rfl (keyMove_acts hp hn fits own (if_neg (Nat.not_lt.2 wrap)) charged)
  · have own : inScratch (immOff imm) 16 = true := inScratch_of_le tag
    exact exec_move_go rfl h rfl (keyMove_acts hp hn fits own rfl charged)
  · have own : (inScratch (immOff imm) 12 && decide (n ≤ 16368) && inScratch p (n + 16)) = true := by
      rw [inScratch_of_le (a := immOff imm) iv, inScratch_of_le (by omega), decide_eq_true (by omega)]
      rfl
    exact exec_move_go rfl h rfl (keyMove_acts hp hn fits own rfl charged)
  · have own : (inScratch (immOff imm) 12 && decide (16 ≤ n)) = true := by
      rw [inScratch_of_le (a := immOff imm) iv, decide_eq_true tag]
      rfl
    refine exec_move_go rfl h rfl ((keyMove_acts hp hn fits own rfl charged).trans ?_)
    subst hct hok
    simp only [Option.getD_none, verdictWord_eq, immOff, decide_eq_true_eq]
    split <;> rfl

/-! Moves that act outside their engine (R571, R578 to R582, R587). -/

/-- Settles O39 (R571, R578 to R582, R587): it holds; each move makes its effect and goes on, or returns. -/
theorem moveEffects : Obligations.MoveEffects := by
  intro s e d a b imm x v m p n o hp hn ho
  subst ho
  refine ⟨fun y h field => ?_, fun l h hl fits room => ?_, fun r q h kind few fits check => ?_, fun f id h kind => ?_,
    fun r q w h kind work => ⟨fun good fits room => ?_, fun bad => ?_⟩, fun f id h kind good => ?_⟩
  · exact exec_move_go rfl h (h.cost rfl) (by simp only [field])
  · subst hp hn
    have alg : imm.toNat / 2 ^ 20 % 256 = bitsOf imm.toNat 27 20 := rfl
    have ranges : ¬ (!inScratch (x.reg a).toNat (x.reg b).toNat ||
        !inScratch (immOff imm) (digestLen (bitsOf imm.toNat 27 20))) = true := by
      rw [Bool.or_eq_true, not_inScratch_iff, not_inScratch_iff, ← alg, ← hl, immOff]
      omega
    subst hl
    exact exec_move_go rfl h rfl (if_neg ranges)
  · subst hp
    refine exec_move_go rfl h (h.cost rfl) ?_
    simp only [kind, if_neg (Nat.not_le.2 few), inScratch_of_le fits, check, Bool.not_true, Bool.false_eq_true, if_false]
  · exact exec_move_go rfl h (h.cost rfl) (by simp only [kind])
  · subst hp hn
    have verdict : BitVec.ofNat 8 imm.toNat = 0 := BitVec.eq_of_toNat_eq (by simpa using good)
    have range : ¬ (!inScratch (x.reg a).toNat (x.reg b).toNat) = true := by
      rw [not_inScratch_iff]
      omega
    refine exec_move_accept rfl h (h.cost rfl) ?_
    simp only [kind, work, verdict, if_neg range, if_neg (Nat.not_lt.2 room), ne_eq, not_true_eq_false, if_false]
  · have verdict : BitVec.ofNat 8 imm.toNat ≠ 0 := fun e => bad (by simpa using congrArg BitVec.toNat e)
    refine exec_move_reject rfl h (a := 0) (n := 0) ?_ verdict
    simp only [kind, if_pos verdict]
  · have verdict : BitVec.ofNat 8 imm.toNat = 0 := BitVec.eq_of_toNat_eq (by simpa using good)
    refine exec_move_accept rfl h (h.cost rfl) ?_
    simp only [kind, verdict]

end Sys2Proof.Machine
end

