-- ==== Sys2Proof/Proofs/AppletEvents.lean ====
section
/-!
PROOF. Move engines take invocations; strands time out and ask again (R535, R539, R564, R568, R585).
-/

namespace Sys2Proof.Machine

section
variable {s u w : State} {env : Env} {e : Nat} {v : Invocation} (hu : u = s.hostStores env) (live : u.halted = false)
  (free : ((List.range 4).find? fun e => (u.eng e).inv.isNone) = some e) (next : nextInvocation u = some v)
include hu live free next

/-- An invocation by descriptor begins with its input read (R568, R585). -/
theorem exec_moveEngineTake_invoke {r q : Nat} {k : Work} {b : Bytes} (kind : v.kind = .invoke r q)
    (hw : w = { u with applets := { u.applets with
      waiting := u.applets.waiting.erase v, rr := tset 0 u.applets.rr v.cls (rrNext 512 r) } })
    (work : (u.ring r).find q = some k) (there : (u.app v.slot).kind 0 = true)
    (read : w.readAll env (k.got.getD ([], [], [])).1 = .ok b) :
    exec (.moveEngineTake env) s = .next (w.setEng e { u.eng e with inv := some v, scratch := Mem.writeN [] 0 b }) := by
  have workW : (w.ring r).find q = some k := by rw [hw]; exact work
  have thereW : (w.app v.slot).kind 0 = true := by rw [hw]; exact there
  change execMoveEngineTake env s = _
  simp only [execMoveEngineTake, ← hu, live, Bool.false_eq_true, if_false, free, next, kind, ← hw, workW, thereW,
    Bool.not_true, read]

/-- One by a hook begins with an empty scratch (R568). -/
theorem exec_moveEngineTake_hook {f id : Nat} {y : Msg} (kind : v.kind = .hook f id) (msg : u.msg f id = some y) :
    exec (.moveEngineTake env) s = .next
      (({ u with applets := { u.applets with waiting := u.applets.waiting.erase v } } : State).setEng e
        { u.eng e with inv := some v, scratch := [] }) := by
  obtain ⟨t, ht⟩ : ∃ t : State, t = { u with applets := { u.applets with waiting := u.applets.waiting.erase v } } :=
    ⟨_, rfl⟩
  have msgT : t.msg f id = some y := by rw [ht]; exact msg
  change execMoveEngineTake env s = _
  simp only [execMoveEngineTake, ← hu, live, Bool.false_eq_true, if_false, free, next, kind, ← ht, msgT]

end

/-- A signature that met `ENTROPY_FAIL` is asked for again (R539). -/
theorem exec_strandSignRetry {s : State} {i : Fin 4} {id : Word32} {ml : Bool} {x y : Strand}
    (strand : s.strand i id = some x) (retry : (if ml then 1 else 0) ∈ x.retry)
    (hy : y = { x with retry := x.retry.erase (if ml then 1 else 0) }) :
    exec (.strandSignRetry i id ml) s = .next
      (({ s with signet := { s.signet with queue := s.signet.queue ++
        [{ client := .strand x.stream x.id ml, lattice := ml, scheme := if ml then 0x20 else 0x02 }] } } :
          State).putStrand (y.settle x.sigs)).strandsGo := by
  subst hy
  change execStrandSignRetry i id ml s = _
  simp only [execStrandSignRetry, strand, List.elem_eq_mem, decide_eq_true retry, if_true]
  rfl

/-- Settles O40 (R535, R539, R564, R568, R585): it holds; an engine takes what waits, a strand asks again. -/
theorem appletAndStrandEvents : Obligations.AppletAndStrandEvents := by
  refine ⟨fun s u w env e v r q k b hu live free next kind hw work there read =>
      exec_moveEngineTake_invoke hu live free next kind hw work there read,
    fun s u env e v f id y hu live free next kind msg => exec_moveEngineTake_hook hu live free next kind msg,
    fun s env halted => ?_, fun s i x opened due => ?_,
    fun s i id ml x y strand retry _ hy => exec_strandSignRetry strand retry hy⟩
  · change execMoveEngineTake env s = _
    simp only [execMoveEngineTake, halted, if_true]
  · change execStrandTimeLimit i s = _
    simp only [execStrandTimeLimit, State.askClose, opened, due, true_or, if_true]

end Sys2Proof.Machine
end

