-- ==== Sys2Proof/Proofs/PfRegisters.lean ====
section
/-!
PROOF. Commands that write a register of the PF (R806, R813, R819).
-/

namespace Sys2Proof.Machine

section
variable {s : State} {f a : Nat} (act : State → State)

/-- A write before S3, or by a function that does not exist, does nothing. -/
theorem pfWrite_absent (h : s.start.stage < 3 ∨ s.fnExists f = false) : s.pfWrite f a act = s :=
  if_pos (h.imp_right fun x => by rw [x]; rfl)

/-- One that the stage bars is a violation of kind 3. -/
theorem pfWrite_barred (h : 3 ≤ s.start.stage) (b : s.stageBars a = true) :
    s.pfWrite 0 a act = s.violation 3 0 true a := by
  unfold State.pfWrite
  rw [if_neg (by simp [State.fnExists]; omega), if_neg (by simp), if_pos b]

/-! Registers that are open in `TEST` alone (R666). -/

theorem testWrite_test (h : 3 ≤ s.start.stage) (b : s.stageBars a = false) (test : s.lcs = .test) :
    s.testWrite 0 a act = act s := by
  rw [State.testWrite, pfWrite_pf _ h b, if_pos test]

theorem testWrite_field (h : 3 ≤ s.start.stage) (b : s.stageBars a = false) (field : s.lcs ≠ .test) :
    s.testWrite 0 a act = s.violation 2 0 true a := by
  rw [State.testWrite, pfWrite_pf _ h b, if_neg field]

end

/-- The functions that exist: the PF, and the VFs that are on, outside STUCK mode. -/
theorem fnExists_iff {s : State} {fn : Nat} :
    s.fnExists fn = true ↔ fn = 0 ∨ (fn ≤ s.link.numVfs ∧ s.start.stuck = false) := by
  simp [State.fnExists]

/-- A violation changes its record and its count. -/
theorem violation_frame (s : State) (k f : Nat) (w : Bool) (a : Nat) :
    s.violation k f w a = { s with viol := (s.violation k f w a).viol, snp := (s.violation k f w a).snp } := rfl

/-- Each command that only the PF may give is a write of the PF at its address. -/
theorem exec_pfCommand {f : Fin 16} {m : Fin 32} {block : CntBlock} {value : Word32} {on : Bool} {key : BitVec 16}
    {x : (Fin 32 → Instr) × Nat} (hx : x ∈ pfCommands f m block value on key) (fn : Fin 32) :
    ∃ act : State → State, ∀ s : State, exec (x.1 fn) s = .next (s.pfWrite fn x.2 act) := by
  simp only [pfCommands, List.mem_cons, List.not_mem_nil, or_false] at hx
  rcases hx with rfl | rfl | rfl | rfl | rfl | rfl | rfl | rfl | rfl | rfl | rfl | rfl | rfl | rfl | rfl | rfl | rfl |
    rfl | rfl | rfl | rfl | rfl <;> exact ⟨_, fun _ => rfl⟩

/-- Settles O41 (R806, R813, R819): it holds, since each of these commands is one guarded write. -/
theorem pfOnlyCommands : Obligations.PfOnlyCommands := by
  intro f m block value on key x hx fn s
  obtain ⟨act, hexec⟩ := exec_pfCommand hx fn
  obtain ⟨actPf, hexecPf⟩ := exec_pfCommand hx 0
  refine ⟨fun h => ?_, fun h3 hfn there => ?_, ?_, fun h3 bars => ?_, fun k w a => violation_frame s k fn w a⟩
  · rw [hexec, pfWrite_absent act h]
  · rw [hexec, pfWrite_vf act h3 (fun h => hfn (Fin.ext h)) there]
  · rw [fnExists_iff, Fin.ext_iff]
    rfl
  · exact (hexecPf s).trans (congrArg _ (pfWrite_barred actPf h3 bars))

end Sys2Proof.Machine
end

