-- ==== Sys2Proof/Proofs/Mailbox.lean ====
section
/-!
PROOF. Messages of the mailbox: discovery, abort, SPDM requests, sessions and IDE keys (R67 to R80).
-/

namespace Sys2Proof.Machine

/-! Facts about what the answers read. -/

/-- Counted ties leave the certificate chains (R72, R698). -/
@[simp] theorem State.noteTies_certChain (s : State) (l : List RecName) (i : Nat) :
    (s.noteTies l).certChain i = s.certChain i := by
  obtain ⟨n, v, y, r, h⟩ := noteTies_frame s l
  rw [h]
  rfl

@[simp] theorem State.noteTie_life (s : State) (name : RecName) : (s.noteTie name).life = s.life := by
  obtain ⟨n, v, y, r, h⟩ := noteTie_frame s name
  rw [h]

/-- A configuration write leaves the mailbox's job. -/
theorem State.cfgWrite_job (s : State) (w : CfgWrite) : (s.cfgWrite w).link.job = s.link.job := by
  unfold State.cfgWrite
  dsimp only
  split
  · rfl
  · cases w <;> dsimp only <;> split_ifs <;> rfl

/-- So does what comes from outside with a command. -/
@[simp] theorem State.hostStores_job (s : State) (env : Env) : (s.hostStores env).link.job = s.link.job := by
  change (env.config.foldl State.cfgWrite s).link.job = _
  generalize env.config = l
  induction l generalizing s with
  | nil => rfl
  | cons w l ih => rw [List.foldl_cons, ih, State.cfgWrite_job]

/-- A measurement block, with its value type spelt as in SPDM (R73). -/
theorem State.measureBlock_eq (s : State) (k : Nat) : s.measureBlock k = [BitVec.ofNat 8 k, 1] ++ leBytes 2 51 ++
    [if k = 5 then 3 else if k = 3 ∨ k = 6 then 2 else if k = 2 ∨ k = 4 then 1 else (0 : Byte)] ++ leBytes 2 48 ++
      fit 48 (s.measured k) := by
  unfold State.measureBlock
  split <;> simp_all

/-- The blocks that a request for measurements names (R73): all of them for index 255, none for index 0. -/
theorem measureList {i : Nat} {l : List Nat} (hi : i ≤ 6 ∨ i = 255)
    (hl : l = (if i = 255 then [1, 2, 3, 4, 5, 6] else if i = 0 then [] else [i])) :
    (if i = 255 then [1, 2, 3, 4, 5, 6] else if i = 0 ∨ 6 < i then [] else [i]) = l := by
  rw [hl]
  split
  · rfl
  · next h =>
    have : ¬ 6 < i := by omega
    simp only [this, or_false]

/-! A signed answer begins, and the acts of a session. -/

section
variable {u t y w : State} {step : SpdmStep} {kind : Nat} {data peer h b : Bytes} {re : Bool} {j : SpdmJob}
  (hb : u.freshBytes 48 = (h, t))
  (hj : j = { number := t.link.jobs + 1, step := step, kind := kind, data := data, peer := peer, hash := h })
  (hy : y = { t with link := { t.link with job := some j, jobs := j.number, doeBusy := true, answer := none } })
include hb hj hy

/-- A signed answer begins with its job, which then goes on (R70). -/
theorem State.spdmBegin_eq : u.spdmBegin step kind data peer = y.spdmGo := by
  simp only [State.spdmBegin, hb, hy, hj]

end

section
variable {y w : State} {j : SpdmJob} {b : Bytes} {re : Bool} (hj : y.link.job = some j)
include hj

/-- Without a signet engine in service the answer is an error (R399). -/
theorem State.spdmGo_unserved (h : y.kindServes false = false) : y.spdmGo = y.spdmError 0x05 := by
  simp only [State.spdmGo, hj, h, Bool.not_false, if_true]

section
variable (h : y.kindServes false = true)
include h

theorem State.spdmGo_wait (d : y.draw 0 (if j.step = .agree then 48 else 32) false = .wait) :
    y.spdmGo = y.waitFor .spdm := by
  simp only [State.spdmGo, hj, h, Bool.not_true, Bool.false_eq_true, if_false, d]

theorem State.spdmGo_fail (d : y.draw 0 (if j.step = .agree then 48 else 32) false = .fail w) :
    y.spdmGo = w.spdmError 0x05 := by
  simp only [State.spdmGo, hj, h, Bool.not_true, Bool.false_eq_true, if_false, d]

/-- What is drawn is kept in the job, and an engine asked for (R346). -/
theorem State.spdmGo_ok {z : State} (d : y.draw 0 (if j.step = .agree then 48 else 32) false = .ok b re w)
    (hz : z = w.modJob fun x => if j.step = .agree then { x with eph := b } else { x with nonce := b }) :
    y.spdmGo = { z with signet := { z.signet with
      queue := z.signet.queue ++ [{ client := .spdm j.number, lattice := false, scheme := 0x02 }] } } := by
  simp only [State.spdmGo, hj, h, Bool.not_true, Bool.false_eq_true, if_false, d, ← hz]

end

end

section
variable {s u : State} {q : DoeReq} (h : 3 ≤ s.start.stage) (p : s.link.perst = false)
  (b : s.link.doeBusy = false) (l : q.len ≤ 65536) (hu : u = s.bump 24 6 1)
include h p b l hu

/-- An SPDM request that is taken acts on the state with its count. -/
theorem spdm_acts (act : State → State) : s.spdm q act = act u := hu ▸ spdm_taken act h p b l

/-- Before what must precede it a request is refused. -/
theorem spdm_refused {act : State → State} (refuses : act u = u.spdmError 0x04) :
    Host.Outcome.next (s.spdm q act) = (.next (u.spdmError 0x04) : Host.Outcome State Fault Refusal) := by
  rw [spdm_acts h p b l hu, refuses]

end

/-- An abort gives up the job and the answer, and clears DOE Error (R69). -/
theorem exec_doeAbort {s : State} (h : 3 ≤ s.start.stage) (p : s.link.perst = false) :
    exec .doeAbort s = .next (s.dropJob fun l => { l with answer := none, doeError := false, doeBusy := false }) := by
  change execDoeAbort s = _
  rw [execDoeAbort, if_neg (by simp [p]; omega)]

/-- Settles O52 (R67 to R73, R388): it holds; each message is one guarded act of the mailbox. -/
theorem doeMessages : Obligations.DoeMessages := by
  refine ⟨fun s u q h p hu => ⟨?_, fun l x hx => ?_, fun l b => ?_⟩, ?_⟩
  · refine ⟨_, exec_doeAbort h p, rfl, fun x hx n client => ?_, ?_, rfl⟩
    · simp [State.dropJob, client] at hx
    · simp [State.dropJob]
  · simp only [List.mem_cons, List.not_mem_nil, or_false] at hx
    rcases hx with rfl | rfl | rfl | rfl | rfl <;> exact congrArg _ (doe_tooLong _ h p l)
  · have acts := spdm_acts h p b l hu
    have fields : u.link = s.link := by rw [hu]; rfl
    have life : u.life = s.life := by rw [hu]; rfl
    have goes {act t} (e : act u = t) : Host.Outcome.next (s.spdm q act) = (.next t : Host.Outcome State Fault Refusal) := by
      rw [acts, e]
    refine ⟨fun i hi => ?_, goes rfl, fun v => goes ?_, fun v => goes ?_, fun c a hh x e k y hy => goes ?_,
      fun n len m c x hx => ?_, fun n => ⟨goes ?_, fun slot off len c k chain inside hk => goes ?_,
        fun slot nonce c chain => goes ?_, fun i ls blocks data hi hl hb hd => ⟨goes ?_, fun c => goes ?_⟩⟩⟩
    · change Host.Outcome.next (s.doe q _) = _
      rw [doe_taken _ h p b l, if_pos hi]
    · rw [fields, v]
      rfl
    · rw [fields, v]
      rfl
    · rw [fields, c, hy]
      rfl
    · have off : u.link.negotiated = false := by rw [fields, n]
      simp only [List.mem_cons, List.not_mem_nil, or_false] at hx
      rcases hx with rfl | rfl | rfl | rfl | rfl <;> exact goes (by rw [off]; rfl)
    · have on : u.link.negotiated = true := by rw [fields, n]
      simp only [on, Bool.not_true, Bool.false_eq_true, if_false, State.noteTies_certChain]
    · have on : u.link.negotiated = true := by rw [fields, n]
      simp only [on, Bool.not_true, Bool.false_eq_true, if_false, chain, if_neg (not_le.2 inside), hk]
    · have on : u.link.negotiated = true := by rw [fields, n]
      simp only [on, Bool.not_true, Bool.false_eq_true, if_false, chain, State.signedReply, State.noteTie_life, life,
        Option.isNone_iff_eq_none]
    all_goals
      have on : u.link.negotiated = true := by rw [fields, n]
      simp only [on, Bool.not_true, Bool.false_eq_true, if_false, measureList hi hl, if_neg (by omega : ¬(6 < i.toNat ∧
        i.toNat ≠ 255)), funext u.measureBlock_eq, ← hb, ← hd, Option.isSome, if_true, State.signedReply, life,
        Option.isNone_iff_eq_none]
  · intro u t y w step kind data peer hh b re j hb hj hy
    have job : y.link.job = some j := by rw [hy]
    have hstep : j.step = step := by rw [hj]
    rw [State.spdmBegin_eq hb hj hy, ← hstep]
    exact ⟨State.spdmGo_unserved job, State.spdmGo_wait job, State.spdmGo_fail job,
      fun serves d z hz => State.spdmGo_ok job serves d hz⟩

section
variable {u : State} {n k : Nat} {env : Env} {fails : Bool} {q : SigReq} {sig : Bytes} {j : SpdmJob}

/-- The job that the mailbox holds, by its number. -/
theorem State.spdmJob_eq (job : u.link.job = some j) (number : j.number = k) : u.spdmJob k = some j := by
  rw [State.spdmJob, job, Option.filter_some, if_pos (beq_iff_eq.2 number)]

variable (client : q.client = .spdm k) (held : u.spdmJob k = some j)
include client held

/-- What a mailbox's operation signs: nothing where it agrees (R344). -/
theorem State.signatureOf_agree (step : j.step = .agree) : u.signatureOf q = some [] := by
  cases id : u.life.idKey <;>
    simp only [State.signatureOf, client, State.spdmSignature, held, step, id, reduceCtorEq, if_false]

theorem State.signatureOf_spdmSign {key : Bytes} (step : j.step = .sign) (id : u.life.idKey = some key) :
    u.signatureOf q = signBytes 0x02 0x02 1 key [] q.rnd j.hash := by
  simp only [State.signatureOf, client, State.spdmSignature, held, step, id, if_true]

section
variable (step : j.step = .agree)
include step

/-- A scalar out of range is drawn again (R368). -/
theorem State.opDone_agree_redraws (out : curve384.scalarOk j.eph = false) : u.opDone n q sig env fails = u.spdmGo := by
  simp only [State.opDone, client, State.spdmOpDone, held, step, out, Bool.not_false, if_true]

variable (inside : curve384.scalarOk j.eph = true)
include inside

/-- A point off the curve is refused. -/
theorem State.opDone_agree_refuses (off : curve384.ecdh j.eph (0x04 :: fit 96 j.peer) = none) :
    u.opDone n q sig env fails = u.spdmError 0x01 := by
  simp only [State.opDone, client, State.spdmOpDone, held, step, inside, Bool.not_true, Bool.false_eq_true, if_false, off]

/-- After the agreement comes the signature (R344). -/
theorem State.opDone_agree_signs {x : Bytes} (agreed : curve384.ecdh j.eph (0x04 :: fit 96 j.peer) = some x) :
    u.opDone n q sig env fails = (u.modJob fun y => { y with
      step := .sign, secret := x, data := j.data ++ (curve384.public j.eph).drop 1 }).spdmGo := by
  simp only [State.opDone, client, State.spdmOpDone, held, step, inside, Bool.not_true, Bool.false_eq_true, if_false,
    agreed]

end

/-- The signed answer stands in the mailbox; that of a key exchange opens its session (R71). -/
theorem State.opDone_spdmSign {key : Bytes} (step : j.step = .sign) (id : u.life.idKey = some key) :
    u.opDone n q sig env fails =
      if j.kind = 0x64 then (u.reply j.kind (j.data ++ j.nonce ++ sig)).openSession j.secret
      else u.reply j.kind (j.data ++ j.nonce ++ sig) := by
  simp only [State.opDone, client, State.spdmOpDone, held, step, id, Option.isNone_some, Bool.false_eq_true, if_false]

end

end Sys2Proof.Machine
end

