-- ==== Sys2Proof/Proofs/Sessions.lean ====
section
/-!
PROOF. SPDM sessions and IDE keys (R71 to R80).
-/

namespace Sys2Proof.Machine

section
variable {s u : State} {q : DoeReq} {y : Session}

/-- A request in a finished session acts (R71). -/
theorem State.inSession_finished {act : State → Session → State} (open_ : u.session q.session = some y)
    (done : y.finished = true) : u.inSession q act = act u y := by
  simp only [State.inSession, open_, done, if_true]

theorem State.inSession_none {act : State → Session → State} (none : u.session q.session = none) :
    u.inSession q act = u.spdmError 0x0B := by
  simp only [State.inSession, none]

theorem State.secured_finished (open_ : u.session q.session = some y) (done : y.finished = true) :
    u.secured q = true := by
  rw [State.secured, open_, Option.map_some, Option.getD_some, done]

theorem State.secured_none (none : u.session q.session = none) : u.secured q = false := by
  rw [State.secured, none, Option.map_none, Option.getD_none]

end

/-- Settles O53 (R71 to R80, R344, R368): it holds. -/
theorem sessionMessages : Obligations.SessionMessages := by
  refine ⟨fun s s1 u n env fails q k j busy client still hs1 hu job number => ?_,
    fun s u q h p b l hu => ?_⟩
  · have heldS1 : s1.spdmJob k = some j := State.spdmJob_eq (by rw [hs1, State.hostStores_job, job]) number
    have held : u.spdmJob k = some j := by rw [hu]; exact heldS1
    have lifeS1 : s1.life = s.life := by rw [hs1, State.hostStores_life]
    have life : u.life = s.life := by rw [hu]; exact lifeS1
    refine ⟨fun step out => ?_, fun step inside off => ?_, fun x step inside agreed => ?_, fun key step id =>
      ⟨fun noSig => ?_, fun sig v sign hv => ?_⟩⟩
    · rw [exec_engineOpDone busy still hs1 (State.signatureOf_agree client heldS1 step) hu,
        State.opDone_agree_redraws client held step out]
    · rw [exec_engineOpDone busy still hs1 (State.signatureOf_agree client heldS1 step) hu,
        State.opDone_agree_refuses client held step inside off]
    · rw [exec_engineOpDone busy still hs1 (State.signatureOf_agree client heldS1 step) hu,
        State.opDone_agree_signs client held step inside agreed]
    · exact exec_engineOpDone_redraws busy still hs1
        ((State.signatureOf_spdmSign client heldS1 step (lifeS1 ▸ id)).trans noSig)
    · rw [exec_engineOpDone busy still hs1 ((State.signatureOf_spdmSign client heldS1 step (lifeS1 ▸ id)).trans sign) hu,
        State.opDone_spdmSign client held step (life ▸ id), ← hv]
      rfl
  · have acts := spdm_acts h p b l hu
    have fields : u.link = s.link := by rw [hu]; rfl
    have life : u.life = s.life := by rw [hu]; rfl
    have goes {act t} (e : act u = t) : Host.Outcome.next (s.spdm q act) = (.next t : Host.Outcome State Fault Refusal) := by
      rw [acts, e]
    refine ⟨fun slot peer n => ?_, fun y opened unfinished => ⟨goes ?_, goes ?_⟩, fun y opened done => ?_,
      fun absent i set x hx => ?_, fun insecure i set sub key => goes ?_⟩
    · refine ⟨fun keyed => goes ?_, fun keyed chain => ⟨fun full => goes ?_, fun room id => goes ?_⟩⟩
      · simp only [fields, n, keyed, Bool.not_true, Bool.not_false, Bool.false_eq_true, if_false, if_true]
      · have noChain : (u.certChain slot.toNat).isNone = false := by rw [← Option.not_isSome, chain, Bool.not_true]
        simp only [n, keyed, noChain, State.noteTie_link, fields, full, Bool.not_true, Bool.false_eq_true, if_false,
          if_true]
      · have noChain : (u.certChain slot.toNat).isNone = false := by rw [← Option.not_isSome, chain, Bool.not_true]
        have noId : s.life.idKey.isNone = false := by rw [← Option.not_isSome, id, Bool.not_true]
        simp only [n, keyed, noChain, State.noteTie_link, State.noteTie_life, life, noId, fields, if_neg (not_le.2 room),
          Bool.not_true, Bool.false_eq_true, if_false]
    · simp only [opened, unfinished, Bool.not_true, Bool.false_eq_true, if_false]
    · simp only [opened, unfinished, Bool.not_false, Bool.false_eq_true, if_false, if_true]
    · have secured := State.secured_finished opened done
      refine ⟨goes (State.inSession_finished opened done), goes (State.inSession_finished opened done),
        goes (State.inSession_finished opened done), fun i set sub key x hx => ⟨goes ?_, goes ?_, fun full => goes ?_,
          fun other => goes ?_, fun own => goes ?_⟩⟩
      · simp only [secured, Bool.not_true, Bool.false_eq_true, if_false, ← hx]
      · simp only [secured, Bool.not_true, Bool.false_eq_true, if_false, ← hx]
      · simp only [secured, Bool.not_true, Bool.false_eq_true, if_false, ← hx, full, if_true]
      · have keeps : ¬ (x.set = set.val ∨ (!x.secure) = true) := by simp [other]
        simp only [secured, Bool.not_true, Bool.false_eq_true, if_false, ← hx, if_neg keeps]
      · have ends : x.set = set.val ∨ (!x.secure) = true := by simpa using own
        simp only [secured, Bool.not_true, Bool.false_eq_true, if_false, ← hx, if_pos ends]
    · have insecure := State.secured_none absent
      simp only [List.mem_cons, List.not_mem_nil, or_false] at hx
      rcases hx with rfl | rfl | rfl | rfl | rfl | rfl | rfl
      · exact goes (by rw [absent])
      · exact goes (State.inSession_none absent)
      · exact goes (State.inSession_none absent)
      · exact goes (State.inSession_none absent)
      all_goals exact goes (by rw [insecure]; rfl)
    · rw [insecure]; rfl

end Sys2Proof.Machine
end

