-- ==== Sys2Proof/Proofs/PortFrames.lean ====
section
/-!
PROOF. What commands of the Pip port and messages of the mailbox leave as it was (R67 to R80, R466 to R499).
-/

namespace Sys2Proof.Machine

/-! The Pip port: with no stored line of the vault flawed, no read fails, and no alarm is raised (R416). -/

/-- From `s` to `t` only the port, the vault but for its record, and counts have changed, and no stored line is flawed. -/
structure PortChange (s t : State) : Prop where
  rest : t = { s with pip := t.pip, vault := t.vault, vlt := t.vlt, snp := t.snp }
  record : t.vault.record = s.vault.record
  sound : t.vault.flaws = []

namespace PortChange
variable {s t u : State}

theorem refl (sound : s.vault.flaws = []) : PortChange s s := ⟨rfl, rfl, sound⟩

theorem trans (a : PortChange s t) (b : PortChange t u) : PortChange s u :=
  ⟨b.rest.trans (by rw [a.rest]), b.record.trans a.record, b.sound⟩

end PortChange

/-- A write-back leaves the record, and no flaw where there was none (R415). -/
theorem Vault.writeBack_keeps {v w : Vault} {e : Nat} (sound : v.flaws = []) (back : v.writeBack e = some w) :
    w.record = v.record ∧ w.flaws = [] := by
  unfold Vault.writeBack at back
  dsimp only at back
  split at back
  · cases back
  · cases back
    exact ⟨rfl, by rw [sound]; rfl⟩

section
variable {s : State} (sound : s.vault.flaws = [])
include sound

theorem nodeLost_of_sound (j : Nat) : s.vault.nodeLost j = false := by
  simp [Vault.nodeLost, sound]

theorem State.touchNode_portChange (j : Nat) : PortChange s (s.touchNode j) := ⟨rfl, rfl, sound⟩

theorem State.meetBank_portChange (e : Nat) : PortChange s (s.meetBank e) := by
  unfold State.meetBank
  split
  · exact ⟨rfl, rfl, sound⟩
  · exact .refl sound

/-- A write-back changes the vault, and clears flaws (R415). -/
theorem State.writeBack_portChange (e : Nat) : PortChange s (s.writeBack e) := by
  unfold State.writeBack
  rw [nodeLost_of_sound sound]
  simp only [Bool.false_eq_true, if_false]
  split
  · split
    · next v back =>
      obtain ⟨record, flaws⟩ := Vault.writeBack_keeps sound back
      exact ⟨rfl, record, flaws⟩
    · exact .refl sound
  · exact .refl sound

/-- A use of the vault cache writes at most the replaced entry back (R418). -/
theorem State.touch_portChange (e : Nat) : PortChange s (s.touch e) := by
  unfold State.touch
  dsimp only
  split
  · exact ⟨rfl, rfl, sound⟩
  · split
    · exact ⟨rfl, rfl, sound⟩
    · next x _ =>
      have used : PortChange s { s with vault := { s.vault with cached := e :: s.vault.cached.erase e } } :=
        ⟨rfl, rfl, sound⟩
      have back := State.writeBack_portChange used.sound x
      exact used.trans (back.trans ⟨rfl, rfl, back.sound⟩)

theorem State.setVentry_portChange (e : Nat) (v : VEntry) : PortChange s (s.setVentry e v) :=
  have used := State.touch_portChange sound e
  used.trans ⟨rfl, rfl, used.sound⟩

theorem State.setPipe_portChange (e : Nat) (p : PipEntry) : PortChange s (s.setPipe e p) := ⟨rfl, rfl, sound⟩

/-- A read of an entry is a use of the cache (R414). -/
theorem State.readEntry_portChange (e : Nat) : PortChange s (s.readEntry e).1 := by
  have node := State.touchNode_portChange sound (e / 8)
  unfold State.readEntry
  rw [nodeLost_of_sound sound]
  simp only [node.sound, List.elem_nil, Bool.false_eq_true, if_false]
  split
  · exact .refl sound
  · split
    · exact State.touch_portChange sound e
    · split
      · exact .refl sound
      · exact node.trans (State.touch_portChange node.sound e)

theorem State.rebuild_portChange (e : Nat) : PortChange s (s.rebuild e) := by
  have bank := State.meetBank_portChange sound e
  have read := bank.trans (State.readEntry_portChange bank.sound e)
  unfold State.rebuild
  split
  · exact .refl sound
  · extract_lets r _ _ s1 s2
    change PortChange s r.1 at read
    have counted : PortChange s s1 := read.trans ⟨rfl, rfl, read.sound⟩
    have stored : PortChange s s2 := counted.trans (State.setPipe_portChange counted.sound e _)
    clear_value r s1 s2
    split
    · exact read
    · exact stored.trans ⟨rfl, rfl, stored.sound⟩

/-- A fold reads and writes one entry (R428). -/
theorem State.tryFold_portChange (e : Nat) : PortChange s (s.tryFold e).1 := by
  unfold State.tryFold
  extract_lets _ s0 p r _ s1 s2
  have taken : PortChange s { s with vault := { s.vault with fold := s.vault.fold.erase e } } := ⟨rfl, rfl, sound⟩
  have bank : PortChange s s0 := taken.trans (State.meetBank_portChange taken.sound e)
  have read : PortChange s r.1 := bank.trans (State.readEntry_portChange bank.sound e)
  have folded : PortChange s s1 := read.trans (State.setVentry_portChange read.sound e _)
  have stored : PortChange s s2 := folded.trans (State.setPipe_portChange folded.sound e _)
  clear_value s0 p r s1 s2
  split
  · exact bank.trans (State.rebuild_portChange bank.sound e)
  · split
    · exact read
    · exact stored.trans ⟨rfl, rfl, stored.sound⟩

theorem State.gatherArm_portChange (e : Nat) (o : Option (Nat × Nat)) : PortChange s (s.gatherArm e o) := by
  unfold State.gatherArm State.tryArm
  dsimp only
  split
  · have fold := State.tryFold_portChange sound e
    split
    · exact fold.trans ⟨rfl, rfl, fold.sound⟩
    · exact fold
  · exact ⟨rfl, rfl, sound⟩

/-- What the vault engine decides (R484 to R494). -/
theorem State.pipDecide_portChange (w : BitVec 64) : PortChange s (s.pipDecide w).1 := by
  have reach : PortChange s (s.reachBank (reqEndpoint w)) := ⟨rfl, rfl, sound⟩
  unfold State.pipDecide
  dsimp only
  split
  · split
    · dsimp only
      split
      · have arm := reach.trans (State.gatherArm_portChange reach.sound (reqEndpoint w) none)
        exact arm.trans ⟨rfl, rfl, arm.sound⟩
      · exact reach
    · dsimp only
      split
      · exact reach.trans (State.setPipe_portChange reach.sound _ _)
      · exact reach
  · split <;> exact reach

theorem State.answer_portChange (w : BitVec 64) (v h : Nat) : PortChange s (s.answer w v h) := ⟨rfl, rfl, sound⟩

theorem State.pipIdle_portChange (later : Bool) : PortChange s (s.pipIdle later) := by
  unfold State.pipIdle
  dsimp only
  split_ifs <;> exact ⟨rfl, rfl, sound⟩

theorem State.requestIn_portChange (later : Bool) : PortChange s (s.requestIn later) := by
  cases later <;> exact ⟨rfl, rfl, sound⟩

theorem State.pipFault_portChange (c : Nat) : PortChange s (s.pipFault c) := ⟨rfl, rfl, sound⟩

/-- One cycle of the port. -/
theorem State.pipCycle_portChange (w : BitVec 64) (p : PipPins) (late : Option Bool) :
    PortChange s (s.pipCycle w p late) := by
  unfold State.pipCycle
  have idle := State.pipIdle_portChange sound p.strobeLater
  have received := State.requestIn_portChange sound p.strobeLater
  split
  · exact .refl sound
  · split
    · exact idle
    · split
      · exact .refl sound
      · extract_lets _ _ s1 got verdict
        change PortChange s s1 at received
        have fault := fun c => received.trans (State.pipFault_portChange received.sound c)
        have decided : PortChange s verdict.1 := received.trans (State.pipDecide_portChange received.sound got)
        clear_value s1 got verdict
        split
        · next c _ => exact (fault c).trans (State.answer_portChange (fault c).sound _ _ _)
        · split
          · exact received.trans (State.answer_portChange received.sound _ _ _)
          · exact received.trans (State.answer_portChange received.sound _ _ _)
          · exact received.trans (State.answer_portChange received.sound _ _ _)
          · split
            · exact decided.trans (State.answer_portChange decided.sound _ _ _)
            · next took =>
              extract_lets x _ y
              have effect : PortChange s x := by
                unfold x
                split
                · exact decided
                · exact received
              clear_value x
              have counted : PortChange s y := effect.trans ⟨rfl, rfl, effect.sound⟩
              clear_value y
              exact counted.trans ⟨rfl, rfl, counted.sound⟩

end

/-! The mailbox. -/

/-- From `s` to `t` only the link, the random generators, the free values and counts have changed, the count of ties among
them. -/
def MailChange (s t : State) : Prop :=
  t = { s with
    link := t.link, signet := t.signet, snp := t.snp, free := t.free
    nvm := { s.nvm with
      tie := t.nvm.tie, lastTieValid := t.nvm.lastTieValid, lastTieSys := t.nvm.lastTieSys
      lastTieRec := t.nvm.lastTieRec } }

namespace MailChange
variable {s t u : State}

theorem refl (s : State) : MailChange s s := rfl

theorem trans (a : MailChange s t) (b : MailChange t u) : MailChange s u :=
  Eq.trans b (by rw [a])

end MailChange

/-- An act changes what the mailbox may. -/
def MailAct (act : State → State) : Prop := ∀ s, MailChange s (act s)

theorem State.reply_mailChange (s : State) (kind : Nat) (data : Bytes) : MailChange s (s.reply kind data) := rfl

theorem State.spdmError_mailChange (s : State) (code : Nat) : MailChange s (s.spdmError code) := rfl

theorem State.noteTie_mailChange (s : State) (name : RecName) : MailChange s (s.noteTie name) := by
  obtain ⟨n, v, y, r, h⟩ := noteTie_frame s name
  rw [h]
  rfl

theorem State.noteTies_mailChange (s : State) (l : List RecName) : MailChange s (s.noteTies l) := by
  obtain ⟨n, v, y, r, h⟩ := noteTies_frame s l
  rw [h]
  rfl

/-- A generate request changes the generators alone, whatever comes of it. -/
theorem State.draw_mailChange (s : State) (i n : Nat) (pred : Bool) : MailChange s ((s.draw i n pred).after s) := by
  unfold State.draw
  dsimp only
  split
  · rfl
  · split
    · rfl
    · split <;> rfl

theorem State.spdmGo_mailChange (s : State) : MailChange s s.spdmGo := by
  unfold State.spdmGo
  split
  · rfl
  · next j _ =>
    split
    · rfl
    · have drawn := s.draw_mailChange 0 (if j.step = .agree then 48 else 32) false
      split
      · rfl
      · next t e =>
        rw [e] at drawn
        exact drawn.trans rfl
      · next b _ t e =>
        rw [e] at drawn
        exact drawn.trans rfl

theorem State.spdmBegin_mailChange (s : State) (step : SpdmStep) (kind : Nat) (data peer : Bytes) :
    MailChange s (s.spdmBegin step kind data peer) := by
  unfold State.spdmBegin
  refine MailChange.trans ?_ (State.spdmGo_mailChange _)
  exact Eq.refl _

theorem State.signedReply_mailChange (s : State) (kind : Nat) (data : Bytes) : MailChange s (s.signedReply kind data) := by
  unfold State.signedReply
  split
  · rfl
  · exact s.spdmBegin_mailChange _ _ _ _

theorem State.inSession_mailChange {act : State → Session → State} (s : State) (q : DoeReq)
    (h : ∀ s y, MailChange s (act s y)) : MailChange s (s.inSession q act) := by
  unfold State.inSession
  split
  · rfl
  · split
    · exact h _ _
    · rfl

section
variable {q : DoeReq} {act : State → State}

theorem doe_mailAct (h : MailAct act) : MailAct fun s => s.doe q act := by
  intro s
  dsimp only [State.doe]
  split
  · rfl
  · split
    · rfl
    · split
      · rfl
      · exact h s

theorem spdm_mailAct (h : MailAct act) : MailAct fun s => s.spdm q act :=
  doe_mailAct fun s => MailChange.trans (by rfl) (h _)

end

/-! Each message of the mailbox. -/

/-- The command changes what the mailbox may. -/
def MailCommand (c : Instr) : Prop := ∀ s t, exec c s = .next t → MailChange s t

theorem mailCommand_of {c : Instr} {act : State → State} (e : ∀ s, exec c s = .next (act s)) (h : MailAct act) :
    MailCommand c := by
  intro s t ht
  rw [e] at ht
  cases ht
  exact h s

section
variable (q : DoeReq)

theorem doeDiscovery_mail (n : Byte) : MailCommand (.doeDiscovery q n) :=
  mailCommand_of (fun _ => rfl) (doe_mailAct fun s => by split <;> rfl)

theorem doeAbort_mail : MailCommand .doeAbort :=
  mailCommand_of (fun _ => rfl) fun s => by split <;> rfl

theorem getVersion_mail : MailCommand (.getVersion q) :=
  mailCommand_of (fun _ => rfl) (spdm_mailAct fun _ => by rfl)

theorem getCapabilities_mail : MailCommand (.getCapabilities q) :=
  mailCommand_of (fun _ => rfl) (spdm_mailAct fun s => by split <;> rfl)

theorem negotiateAlgorithms_mail (a h x e k : Bool) : MailCommand (.negotiateAlgorithms q a h x e k) :=
  mailCommand_of (fun _ => rfl) (spdm_mailAct fun s => by split <;> rfl)

theorem getDigests_mail : MailCommand (.getDigests q) :=
  mailCommand_of (fun _ => rfl) (spdm_mailAct fun s => by
    dsimp only
    split
    · rfl
    · exact (s.noteTies_mailChange _).trans (State.reply_mailChange _ _ _))

theorem getCertificate_mail (slot : BitVec 4) (off len : BitVec 16) : MailCommand (.getCertificate q slot off len) :=
  mailCommand_of (fun _ => rfl) (spdm_mailAct fun s => by
    have tie := s.noteTie_mailChange (.sys 0x06 slot.toNat)
    dsimp only
    split
    · rfl
    · split
      · rfl
      · split
        · exact tie.trans (State.spdmError_mailChange _ _)
        · exact tie.trans (State.reply_mailChange _ _ _))

theorem challenge_mail (slot : BitVec 4) (c : BitVec 256) : MailCommand (.challenge q slot c) :=
  mailCommand_of (fun _ => rfl) (spdm_mailAct fun s => by
    split
    · rfl
    · split
      · rfl
      · exact (s.noteTie_mailChange _).trans (State.signedReply_mailChange _ _ _))

theorem getMeasurements_mail (n : Byte) (c : Option (BitVec 256)) : MailCommand (.getMeasurements q n c) :=
  mailCommand_of (fun _ => rfl) (spdm_mailAct fun s => by
    dsimp only
    split
    · rfl
    · split
      · rfl
      · split
        · exact s.signedReply_mailChange _ _
        · rfl)

theorem keyExchange_mail (slot : BitVec 4) (peer : Bytes) : MailCommand (.keyExchange q slot peer) :=
  mailCommand_of (fun _ => rfl) (spdm_mailAct fun s => by
    have tie := s.noteTie_mailChange (.sys 0x06 slot.toNat)
    dsimp only
    split
    · rfl
    · split
      · rfl
      · split
        · rfl
        · split
          · exact tie.trans (State.spdmError_mailChange _ _)
          · split
            · exact tie.trans (State.spdmError_mailChange _ _)
            · exact tie.trans (State.spdmBegin_mailChange _ _ _ _ _))

theorem finish_mail (macOk : Bool) : MailCommand (.finish q macOk) :=
  mailCommand_of (fun _ => rfl) (spdm_mailAct fun s => by
    split
    · rfl
    · split
      · rfl
      · split <;> rfl)

theorem heartbeat_mail : MailCommand (.heartbeat q) :=
  mailCommand_of (fun _ => rfl) (spdm_mailAct fun s => s.inSession_mailChange q fun _ _ => by rfl)

theorem keyUpdate_mail : MailCommand (.keyUpdate q) :=
  mailCommand_of (fun _ => rfl) (spdm_mailAct fun s => s.inSession_mailChange q fun _ _ => by rfl)

theorem endSession_mail : MailCommand (.endSession q) :=
  mailCommand_of (fun _ => rfl) (spdm_mailAct fun s => s.inSession_mailChange q fun _ _ => by rfl)

theorem ideQuery_mail (i : Fin 5) : MailCommand (.ideQuery q i) :=
  mailCommand_of (fun _ => rfl) (spdm_mailAct fun s => by split <;> rfl)

theorem keyProg_mail (i : Fin 5) (set : Fin 2) (sub : Fin 6) (key : BitVec 256) :
    MailCommand (.keyProg q i set sub key) :=
  mailCommand_of (fun _ => rfl) (spdm_mailAct fun s => by split <;> rfl)

theorem kSetGo_mail (i : Fin 5) (set : Fin 2) : MailCommand (.kSetGo q i set) :=
  mailCommand_of (fun _ => rfl) (spdm_mailAct fun s => by split <;> rfl)

theorem kSetStop_mail (i : Fin 5) (set : Fin 2) : MailCommand (.kSetStop q i set) :=
  mailCommand_of (fun _ => rfl) (spdm_mailAct fun s => by split <;> rfl)

end

/-- Settles O59 (R67 to R80, R416, R466 to R499): it holds, since every step of these commands keeps the rest. -/
theorem portFrames : Obligations.PortFrames := by
  refine ⟨fun s t e q g p w took later i hi sound h => ?_, fun s t q slot off len c i set sub a b n peer x hx h => ?_⟩
  · suffices PortChange s t from ⟨this.rest, this.record, this.sound⟩
    simp only [List.mem_cons, List.not_mem_nil, or_false] at hi
    rcases hi with rfl | rfl | rfl | rfl | rfl | rfl <;> cases h
    · exact State.pipCycle_portChange sound _ _ _
    · exact State.pipCycle_portChange sound _ _ _
    · exact State.pipCycle_portChange sound _ _ _
    · exact State.pipCycle_portChange sound _ _ _
    · exact State.pipIdle_portChange sound _
    · cases took <;> exact ⟨rfl, rfl, sound⟩
  · suffices MailCommand x by
      have change := this s t h
      exact ⟨change, by rw [change]⟩
    clear h
    revert x
    simp only [List.forall_mem_cons, List.not_mem_nil, false_imp_iff, implies_true, and_true]
    exact ⟨doeDiscovery_mail q n, doeAbort_mail, getVersion_mail q, getCapabilities_mail q,
      negotiateAlgorithms_mail q a b a b a, getDigests_mail q, getCertificate_mail q slot off len, challenge_mail q slot c,
      getMeasurements_mail q n (some c), getMeasurements_mail q n none, keyExchange_mail q slot peer, finish_mail q a,
      heartbeat_mail q, keyUpdate_mail q, endSession_mail q, ideQuery_mail q i, keyProg_mail q i set sub c,
      kSetGo_mail q i set, kSetStop_mail q i set⟩

end Sys2Proof.Machine
end

