-- ==== Sys2Proof/Proofs/Snapshots.lean ====
section
/-!
PROOF. Snapshots begin, take markers and end (R786 to R800), and violations are cleared (R808).
-/

namespace Sys2Proof.Machine

/-! A unit that does not run (R788). -/

/-- A channel of a unit that does not run: what was sent on it was received. -/
def State.closeChannel (a : State) (c : Nat) : State :=
  ({ a with snp := { a.snp with recv := tset 0 a.snp.recv c (tget 0 a.snp.sent c) } } : State).modSnap fun r =>
    { r with
      sent := tset 0 r.sent c (tget 0 a.snp.sent c), recv := tset 0 r.recv c (tget 0 a.snp.sent c)
      arrived := r.arrived ++ [c] }

/-- The unit's own values, before its channels. -/
def State.stillValues (s : State) (u : Nat) : State := s.modSnap fun r => { r with
  still := r.still ++ [u], copied := r.copied ++ [u], acked := r.acked ++ [u]
  counters := (s.snp.counters.filter fun (e : Nat × BitVec 64) => e.1 / 2048 == u).foldl
    (fun (t : Tab (BitVec 64)) (e : Nat × BitVec 64) => tset 0 t e.1 e.2) r.counters }

theorem State.stillCopy_eq (s : State) (u : Nat) :
    s.stillCopy u = (inputsOf u ++ outputsOf u).foldl State.closeChannel (s.stillValues u) := rfl

/-- Snapshot `y` is `r` after the copy of unit `u`, which does not run, with the channels `l` closed. -/
structure Snap.StillCopied (r y : Snap) (u : Nat) (l : List Nat) : Prop where
  still : y.still = r.still ++ [u]
  copied : y.copied = r.copied ++ [u]
  acked : y.acked = r.acked ++ [u]
  sent : twf 0 y.sent = true
  recv : twf 0 y.recv = true
  closed : ∀ c ∈ l, c ∈ y.arrived ∧ tget 0 y.sent c = tget 0 y.recv c

theorem State.closeChannels_stillCopied {r : Snap} {u : Nat} (l : List Nat) :
    ∀ {a : State} {y : Snap} {done : List Nat}, a.snp.run = some y → r.StillCopied y u done →
      ∃ z, (l.foldl State.closeChannel a).snp.run = some z ∧ r.StillCopied z u (done ++ l) := by
  induction l with
  | nil => exact fun {a y done} run h => ⟨y, run, (List.append_nil done).symm ▸ h⟩
  | cons c l ih =>
    intro a y done run h
    obtain ⟨v, hv⟩ : ∃ v, v = tget 0 a.snp.sent c := ⟨_, rfl⟩
    have run' : (a.closeChannel c).snp.run = some { y with
        sent := tset 0 y.sent c v, recv := tset 0 y.recv c v, arrived := y.arrived ++ [c] } := by
      rw [hv]
      exact congrArg (Option.map _) run
    have next : r.StillCopied { y with
        sent := tset 0 y.sent c v, recv := tset 0 y.recv c v, arrived := y.arrived ++ [c] } u (done ++ [c]) := by
      refine ⟨h.still, h.copied, h.acked, twf_tset h.sent, twf_tset h.recv, fun k hk => ?_⟩
      by_cases e : k = c
      · subst e
        exact ⟨by simp, by simp only [tget_tset_same h.sent, tget_tset_same h.recv]⟩
      · have old := h.closed k (by simpa [e] using hk)
        simp only [tget_tset_ne h.sent e, tget_tset_ne h.recv e]
        exact ⟨List.mem_append_left _ old.1, old.2⟩
    obtain ⟨z, hz, hs⟩ := ih run' next
    exact ⟨z, hz, by rwa [List.append_assoc, List.singleton_append] at hs⟩

theorem State.stillCopy_stillCopied {s : State} {u : Nat} {r : Snap} (run : s.snp.run = some r)
    (sent : twf 0 r.sent = true) (recv : twf 0 r.recv = true) :
    ∃ y, (s.stillCopy u).snp.run = some y ∧ r.StillCopied y u (inputsOf u ++ outputsOf u) := by
  rw [State.stillCopy_eq]
  exact State.closeChannels_stillCopied (done := []) _ (congrArg (Option.map _) run)
    ⟨rfl, rfl, rfl, sent, recv, fun _ h => nomatch h⟩

/-! The epoch. -/

theorem State.closeChannels_epoch (l : List Nat) (a : State) :
    (l.foldl State.closeChannel a).snp.epoch = a.snp.epoch := by
  induction l generalizing a with
  | nil => rfl
  | cons c l ih => exact (ih _).trans rfl

theorem State.stillCopies_epoch (l : List Nat) (a : State) :
    (l.foldl State.stillCopy a).snp.epoch = a.snp.epoch := by
  induction l generalizing a with
  | nil => rfl
  | cons u l ih => exact (ih _).trans (State.closeChannels_epoch _ _)

/-- The epoch rises, skipping 0 (R786). -/
theorem State.snapBegin_epoch (s : State) (q : List SnapReq) :
    (s.snapBegin q).snp.epoch = if s.snp.epoch + 1 = 0 then 1 else s.snp.epoch + 1 :=
  (State.stillCopies_epoch _ _).trans rfl

/-! Requests, markers, the timeout. -/

section
variable {s : State} {q : SnapReq}

theorem State.snapAsk_begins (idle : s.snp.run = none) : s.snapAsk q = s.snapBegin [q] := by
  rw [State.snapAsk, idle]
  rfl

theorem State.snapAsk_joins (busy : s.snp.run ≠ none) : s.snapAsk q = { s with snp := { s.snp with
    waiting := s.snp.waiting ++ [q], joined := min 65535 (s.snp.joined + 1) } } := by
  rw [State.snapAsk, if_neg (by simpa using busy)]

end

/-- The stage bars no register of the snapshot unit (R819). -/
theorem stageBars_snp (s : State) : s.stageBars 0xE0000 = false := by
  simp [State.stageBars]

section
variable {s : State} {u : Nat} {r : Snap} (run : s.snp.run = some r) (running : u ∉ r.still) (early : u ∉ r.late)
include run running early

/-- A marker on the control channel makes its unit copy (R786). -/
theorem State.marker_control (first : u ∉ r.copied) : s.marker u none = s.unitCopy u none := by
  simp only [State.marker, run, List.elem_eq_mem, running, early, first, decide_false, Bool.false_eq_true, or_self,
    if_false, Bool.not_false, if_true]

/-- One on a counted channel fixes what was in flight on it, after the unit's copy (R786). -/
theorem State.marker_channel {c : Nat} (ends : (channelEnds c).2 = u) (fresh : c ∉ r.arrived)
    (sender : (channelEnds c).1 ∈ r.copied) :
    s.marker u (some c) = (if u ∈ r.copied then s else s.unitCopy u (some c)).markerIn c := by
  by_cases copied : u ∈ r.copied <;>
    simp [State.marker, run, running, early, ends, fresh, sender, copied]

end

/-- Settles O44 (R786 to R800, R808): it holds. -/
theorem snapshots : Obligations.Snapshots := by
  refine ⟨fun s reqs e r he hr => ?_, fun s u r run sent recv => ?_, fun s stage => ⟨fun idle => ?_, fun busy => ?_, ?_⟩,
    fun s u env r run running early first => ?_, fun s u c env r run running early ends fresh sender => ?_,
    fun s c r r' run run' => ?_, fun s env r l run hl => ?_, fun s p g u w hs hu hw => ⟨fun idle => ?_,
      State.snapBegin_epoch _ _, fun busy => ?_⟩⟩
  · subst hr he
    rfl
  · obtain ⟨y, hy, copied⟩ := State.stillCopy_stillCopied (u := u) run sent recv
    exact ⟨y, hy, copied.still, copied.copied, copied.acked, copied.closed⟩
  · exact congrArg _ ((pfWrite_pf _ stage (stageBars_snp s)).trans (State.snapAsk_begins idle))
  · exact congrArg _ ((pfWrite_pf _ stage (stageBars_snp s)).trans (State.snapAsk_joins busy))
  · exact congrArg _ (pfWrite_pf _ stage (stageBars_snp s))
  · change execSnapshotMarker u none env s = _
    rw [execSnapshotMarker, run, if_neg (by simp), Option.map_none,
      State.marker_control (by rw [State.hostStores_snp, run]) running early first]
  · change execSnapshotMarker u (some c) env s = _
    rw [execSnapshotMarker, run, if_neg (by simp), Option.map_some,
      State.marker_channel (by rw [State.hostStores_snp, run]) running early ends fresh sender]
  · have run2 : (s.markerIn c).snp.run = some { r with
        arrived := r.arrived ++ [c]
        inflight := tset 0 r.inflight c (tget 0 r.sent c - tget 0 r.recv c).toNat } := by
      simp only [State.markerIn, run]
      rfl
    refine ⟨Option.some.inj (run'.symm.trans run2), ?_⟩
    simp only [State.markerIn, run]
    rfl
  · change execSnapshotAckTimeout env s = _
    simp only [execSnapshotAckTimeout, State.hostStores_snp, run, ← hl]
  · refine exec_starts (x := (.snapshot, .snapshot)) (by simp [posts]) hs hu ?_
    exact (congrArg (State.snapAsk · _) hw.symm).trans (State.snapAsk_begins idle)
  · refine exec_starts (x := (.snapshot, .snapshot)) (by simp [posts]) hs hu ?_
    exact (congrArg (State.snapAsk · _) hw.symm).trans (State.snapAsk_joins busy)

end Sys2Proof.Machine
end

