-- ==== Sys2Proof/Proofs/TamperEvents.lean ====
section
/-!
PROOF. Commands and events of the tamper logic (R200, R625, R632 to R660).
-/

namespace Sys2Proof.Machine

/-! Settings of monitors (R641 to R643, R660). -/

/-- The stage bars no register of the tamper logic (R819). -/
theorem stageBars_tmp (s : State) {o : Nat} (h : o < 0x1000) : s.stageBars (0xA0000 + o) = false := by
  have fct : decide (0xA0000 + o < 0x40000) = false := decide_eq_false (by omega)
  have clu : decide (0xA0000 + o < 0x50000) = false := decide_eq_false (by omega)
  have vlt : decide (0xA0000 + o < 0x60000) = false := decide_eq_false (by omega)
  simp [State.stageBars, fct, clu, vlt]

/-- The fields of a written setting (R660). -/
theorem monCfgOf_eq (w : Word32) : monCfgOf w = {
    en := w.getLsbD 31, rung := min 5 (w.toNat / 2 ^ 28 % 8), wunit := min 2 (w.toNat / 2 ^ 26 % 4)
    wval := max 1 (min 1000 (w.toNat / 2 ^ 16 % 1024)), n := max 1 (w.toNat / 2 ^ 8 % 256) } := rfl

section
variable {s : State} {m : Nat} {w : Word32}

/-- Monitors 17 to 20 and unassigned ones take no setting (R641, R660). -/
theorem State.setMonCfg_fixed (h : 17 ≤ m) (cell : m ≠ 21) : s.setMonCfg m w = s := if_pos ⟨h, cell⟩

/-- A setting of another is stored, those of monitors 0 to 7 with their floor where it holds (R641, R642). -/
theorem State.setMonCfg_stored {c c1 : MonCfg} (h : m < 17 ∨ m = 21) (hc : c = monCfgOf w)
    (hc1 : c1 = if m ≤ 7 ∧ s.lcs.floors then c.floored (if m = 7 then 5 else 4) else c) :
    s.setMonCfg m w = s.setMon m { s.mon m with cfg := c1, cellN := c1.n, cellHigh := Nat.ble 4 c1.rung } := by
  have floored : (match rungFloor m with
      | some f => if s.lcs.floors then (monCfgOf w).floored f else monCfgOf w
      | none => monCfgOf w) = c1 := by
    rw [hc1, hc, rungFloor]
    by_cases low : m ≤ 6
    · simp [low, show m ≤ 7 by omega, show m ≠ 7 by omega]
    · by_cases seven : m = 7
      · simp [seven]
      · simp [low, seven, show ¬ m ≤ 7 by omega]
  unfold State.setMonCfg
  rw [if_neg (by omega), ← floored] <;> rfl

end

section
variable {s : State} {m : Fin 32} {w : Word32} (stage : 3 ≤ s.start.stage)
include stage

/-- The PF writes a monitor's setting, while the settings are not locked (R643). -/
theorem exec_monCfgWrite : exec (.monCfgWrite 0 m w) s =
    .next (if s.tamper.locked then s.violation 4 0 true (0xA0100 + 4 * m.val) else s.setMonCfg m w) :=
  congrArg _ (pfWrite_pf (fun x => x.lockedWrite (0xA0100 + 4 * m.val) fun y => y.setMonCfg m.val w) stage
    (by rw [show 0xA0100 + 4 * m.val = 0xA0000 + (0x100 + 4 * m.val) by omega]; exact stageBars_tmp s (by omega)))

/-! Stimulus tests (R654). -/

/-- A stimulus that the PF asks for at an address that the stage does not bar. -/
theorem exec_tmpStim : exec (.tmpStim 0 m) s = .next (s.stim m) :=
  congrArg _ (pfWrite_pf (fun x => x.stim m.val) stage (stageBars_tmp s (o := 0xC) (by omega)))

end

theorem State.stim_fires {s : State} {m : Nat} (idle : s.tamper.stimBusy = none) (h : m < 18 ∨ m = 21) :
    s.stim m = s.fireStim m := by
  rw [State.stim, idle, if_neg (by simp), if_neg (by omega)]

/-! Failed transfers (R29). -/

theorem State.failOwner_desc {s : State} {r : Fin 512} {q : Nat} {st : Status} (h : st ≠ .done) :
    s.failOwner (.desc r q st) = s.failDesc r q st := if_neg h

/-- A log entry leaves the device root key. -/
theorem Battery.logPut_drk (b : Battery) (e : LogEntry) : (b.logPut e).drk = b.drk := by
  unfold Battery.logPut
  dsimp only
  split
  · rfl
  · split
    · rfl
    · split <;> rfl

/-! The sampler on the cell alone (R650). -/

/-- A cell voltage of at least 2.3 V ends the run of the cell's monitor. -/
theorem exec_batterySample_cell {s : State} {shows : List (Fin 32 × Byte)} {mv : BitVec 16} (off : s.start.stage = 0)
    (cell : s.battery.vbat = true) (high : 2300 ≤ mv.toNat) :
    exec (.batterySample 3 shows mv) s = .next (({ s with battery := { s.battery with vbatMv := mv.toNat } } :
      State).setMon 21 { s.mon 21 with cellRun := 0 }) := by
  have shown : s.cellShows 21 shows mv = none := by
    simp only [State.cellShows, show ¬ (21 = 9) by decide, if_true, if_false, if_neg (not_lt.2 high)]
  change execBatterySample 3 shows mv s = _
  rw [execBatterySample, if_neg (by simp [off, cell])]
  simp only [cellGroup, List.foldl_cons, List.foldl_nil, shown, if_true] <;> rfl

/-- Settles O42 (R200, R390, R492, R625, R632 to R660): it holds. -/
theorem tamperCommands : Obligations.TamperCommands := by
  refine ⟨fun s stage bars x hx idle => ?_, fun s m stage idle low cell => ?_, fun s m busy => ?_,
    fun s stage => ⟨?_, fun test => ?_, fun field => ?_⟩,
    fun s m w c stage hc => ⟨fun locked => ?_, fun c1 free own hc1 => ?_, fun free fixed cell => ?_⟩,
    fun s u l stage hu => ?_, fun s s1 r q j i id ml x st => ⟨State.failOwner_desc, fun drop strand => ?_,
      fun job drop => ?_⟩, fun s u clearing hu => ⟨fun other => ?_, fun j journal wait => ?_⟩,
    fun s => ⟨fun stage => ?_, fun off cell => ?_, ?_⟩,
    fun s shows mv off cell high => exec_batterySample_cell off cell high⟩
  · simp only [List.mem_cons, List.not_mem_nil, or_false] at hx
    rcases hx with rfl | rfl | rfl | rfl | rfl
    · exact congrArg _ ((pfWrite_pf (a := 0x70000) _ stage (by simp [State.stageBars])).trans
        (State.stim_fires idle (.inl (by omega))))
    · exact congrArg _ ((pfWrite_pf (a := 0x50000) _ stage bars).trans (State.stim_fires idle (.inl (by omega))))
    · exact congrArg _ ((pfWrite_pf (a := 0x80000) _ stage (by simp [State.stageBars])).trans
        (State.stim_fires idle (.inl (by omega))))
    · exact (exec_tmpStim stage).trans (congrArg _ (State.stim_fires idle (.inl (by decide))))
    · exact (exec_tmpStim stage).trans (congrArg _ (State.stim_fires idle (.inr rfl)))
  · rw [exec_tmpStim stage, State.stim, idle, if_neg (by simp), if_pos ⟨low, cell⟩]
  · change execTmpStimDone s = _
    rw [execTmpStimDone, busy]
  · exact congrArg _ (pfWrite_pf _ stage (stageBars_tmp s (o := 0) (by omega)))
  · exact congrArg _ (testWrite_test State.clearLog stage (stageBars_tmp s (o := 0x24) (by omega)) test)
  · exact congrArg _ (testWrite_field State.clearLog stage (stageBars_tmp s (o := 0x24) (by omega)) field)
  · rw [exec_monCfgWrite stage, if_pos locked]
  · rw [exec_monCfgWrite stage, if_neg (by simp [free]), State.setMonCfg_stored own (hc.trans (monCfgOf_eq w).symm) hc1]
  · rw [exec_monCfgWrite stage, if_neg (by simp [free]), State.setMonCfg_fixed fixed cell]
  · subst hu
    exact congrArg Host.Outcome.next (if_neg stage)
  · simp only [State.failOwner, drop, strand]
  · obtain ⟨y, hy, rfl⟩ := Option.map_eq_some_iff.1 job
    simp only [State.failOwner, hy, drop]
  · change execScrubClearDone s = _
    simp only [execScrubClearDone, clearing, Bool.not_true, Bool.false_eq_true, if_false, ← hu]
    cases journal : u.crowns.journal with
    | none => rfl
    | some j => simp only [other j journal, if_false]
  · change execScrubClearDone s = _
    simp only [execScrubClearDone, clearing, Bool.not_true, Bool.false_eq_true, if_false, ← hu, journal, wait, if_true]
  · change execZeroN s = _
    rw [execZeroN, if_neg stage]
  · change execZeroN s = _
    rw [execZeroN, if_pos off, if_pos cell]
  · exact Battery.logPut_drk _ _

end Sys2Proof.Machine
end

