-- ==== Sys2Proof/Proofs/PageEvents.lean ====
section
/-!
PROOF. Factory tests, timeouts of ceremonies and grants, and events of the keeper NVM (R667, R684, R690 to R716, R761).
-/

namespace Sys2Proof.Machine

/-! Factory tests (R667, R684). -/

/-- The stage bars no factory register (R819). -/
theorem stageBars_fac (s : State) {o : Nat} (h : o < 0x1000) : s.stageBars (0xB0000 + o) = false := by
  have fct : decide (0xB0000 + o < 0x40000) = false := decide_eq_false (by omega)
  have clu : decide (0xB0000 + o < 0x50000) = false := decide_eq_false (by omega)
  have vlt : decide (0xB0000 + o < 0x60000) = false := decide_eq_false (by omega)
  simp [State.stageBars, fct, clu, vlt]

section
variable {s : State} (stage : 3 ≤ s.start.stage)
include stage

theorem exec_mtestGo_test (test : s.lcs = .test) : exec (.mtestGo 0) s = .next s.mtest :=
  congrArg _ (testWrite_test State.mtest stage (stageBars_fac s (o := 0x40) (by omega)) test)

theorem exec_mbistGo_test (test : s.lcs = .test) : exec (.mbistGo 0) s = .next s.mbist :=
  congrArg _ (testWrite_test State.mbist stage (stageBars_fac s (o := 0x58) (by omega)) test)

end

section
variable {s : State} (write : s.life.mtWrite = true)
include write

/-- A word written to the keeper NVM (R667). -/
theorem State.mtest_writesNvm {old : Bytes} (nvm : s.life.mtTarget = 1) (inside : s.life.mtAddr.toNat < 1048576)
    (ho : old = tget (zeros 256) s.nvm.pages (s.life.mtAddr.toNat / 32)) :
    s.mtest = { s with
      life := { s.life with mtWords := (s.life.mtWords.filter fun e => e.1 != 2 ^ 32 + s.life.mtAddr.toNat) ++
        [(2 ^ 32 + s.life.mtAddr.toNat, (s.life.mtWdata, s.life.mtCheck))] }
      nvm := { s.nvm with
        pages := tset (zeros 256) s.nvm.pages (s.life.mtAddr.toNat / 32) (old.take (8 * (s.life.mtAddr.toNat % 32)) ++
          leBytes 8 s.life.mtWdata.toNat ++ old.drop (8 * (s.life.mtAddr.toNat % 32) + 8)) } } := by
  simp only [State.mtest, write, if_true, nvm, true_and, Nat.not_le.2 inside, one_ne_zero, false_and, or_self, if_false,
    Nat.one_mul, ← ho]

/-- An address beyond the keeper NVM (R667). -/
theorem State.mtest_beyond (nvm : s.life.mtTarget = 1) (beyond : 1048576 ≤ s.life.mtAddr.toNat) : s.mtest = s := by
  simp only [State.mtest, write, if_true, if_pos (Or.inl (And.intro nvm beyond))]

/-- A word written elsewhere; one of a GDDR6 line of the vault flaws the line (R416, R667). -/
theorem State.mtest_writesOther (other : s.life.mtTarget ≠ 1)
    (shown : ¬(s.life.mtTarget = 0 ∧ Config.sramHidden s.life.mtAddr.toNat = true)) :
    s.mtest.life = { s.life with mtWords := (s.life.mtWords.filter fun e =>
        e.1 != s.life.mtTarget * 2 ^ 32 + s.life.mtAddr.toNat) ++
          [(s.life.mtTarget * 2 ^ 32 + s.life.mtAddr.toNat, (s.life.mtWdata, s.life.mtCheck))] } ∧
      s.mtest = { s with life := s.mtest.life, vault := { s.vault with flaws := s.mtest.vault.flaws } } := by
  have covered : ¬((s.life.mtTarget = 1 ∧ 1048576 ≤ s.life.mtAddr.toNat) ∨
      (s.life.mtTarget = 0 ∧ Config.sramHidden s.life.mtAddr.toNat = true)) := by tauto
  simp only [State.mtest, write, if_true, if_neg covered, if_neg other]
  split <;> exact ⟨rfl, rfl⟩

end

/-- A word read (R667). -/
theorem State.mtest_reads {s : State} {v : Word64 × Byte} (read : s.life.mtWrite = false)
    (word : s.mtestWord s.life.mtTarget s.life.mtAddr.toNat = some v) :
    s.mtest.life = { s.life with mtRdata := v.1, mtCheck := v.2 } ∧
      s.mtest = { s with life := s.mtest.life, free := s.mtest.free } := by
  have reads : s.mtest =
      { s with life := { s.life with mtRdata := v.1, mtCheck := v.2 }, free := s.free + 1 } := by
    unfold State.mtest
    dsimp only
    rw [if_neg (by simp [read]), word]
    rfl
  rw [reads]
  exact ⟨rfl, rfl⟩

/-! A page write ends (R690, R701, R702, R706). -/

/-- What a page write leaves where its data is whole from the start (R690). -/
theorem State.putPage_whole {s : State} {w : PageWrite} (refresh : ∀ l, w.kind ≠ .refresh l)
    (moved : ∀ l, w.kind ≠ .moved l) (ledger : ∀ o, w.kind ≠ .ledger o) :
    s.putPage w = { s with nvm := s.nvm.put w.page w.data } := by
  cases kind : w.kind with
  | refresh l => exact absurd kind (refresh l)
  | moved l => exact absurd kind (moved l)
  | ledger o => exact absurd kind (ledger o)
  | _ =>
    simp only [State.putPage, State.formed, kind, Bool.false_and, Bool.false_eq_true, if_false]
    cases bitmapSetOf w.page <;> simp only [List.append_nil]

section
variable {s s0 : State} {w : PageWrite} {retries : Nat} {failed : Bool} {n : Nvm} {c : Nat}
  (writing : s.nvm.writing = some w) (hc : c = (if failed then max 3 (min retries 24) else min retries 24))
  (hn : n = { s.nvm with writing := none, retry := min (s.nvm.retry + c) (2 ^ 32 - 1) })
  (h0 : s0 = (({ s with nvm := n } : State).bump 25 0 1).bump 25 2 c)
include writing hc hn h0

/-- A page write that is read back puts its page, and what asked for it goes on. -/
theorem State.pageDone_written (good : failed = false) (remap : ∀ k l, w.kind ≠ .remap k l)
    (back : ∀ l, w.kind ≠ .remapBack l) :
    s.pageDone retries failed = ((s0.putPage w).pageEnded w false).portGo := by
  subst hc hn h0
  cases kind : w.kind with
  | remap k l => exact absurd kind (remap k l)
  | remapBack l => exact absurd kind (back l)
  | _ => simp only [State.pageDone, writing, kind, good, retriesOf, Bool.not_false, if_true]

theorem State.pageDone_remapWritten {k : Nat} {last : Bool} (good : failed = false) (kind : w.kind = .remap k last) :
    s.pageDone retries failed = ((s0.putPage w).remapPage k last false).portGo := by
  subst hc hn h0
  simp only [State.pageDone, writing, kind, good, retriesOf, Bool.false_eq_true, if_false]

/-- One that is not goes to a spare (R701). -/
theorem State.pageDone_moves (bad : failed = true) (own : isRemapPage w.page = false)
    (remap : ∀ k l, w.kind ≠ .remap k l) (back : ∀ l, w.kind ≠ .remapBack l) :
    s.pageDone retries failed = (s0.movePage w).portGo := by
  subst hc hn h0
  cases kind : w.kind with
  | remap k l => exact absurd kind (remap k l)
  | remapBack l => exact absurd kind (back l)
  | _ => simp only [State.pageDone, writing, kind, bad, retriesOf, Bool.not_true, Bool.false_eq_true, if_false, if_true, own]

end

/-- A failed page write begins its relocation, if none is in progress (R701). -/
theorem State.movePage_idle {s0 : State} {w : PageWrite} (idle : s0.nvm.moving = []) (whole : ∀ l, w.kind ≠ .refresh l)
    (page : ∀ o, w.kind ≠ .ledger o) : s0.movePage w = s0.moveGo [(w, s0.nvm.phys w.page)] := by
  cases kind : w.kind with
  | refresh l => exact absurd kind (whole l)
  | ledger o => exact absurd kind (page o)
  | _ => simp only [State.movePage, kind, idle, List.isEmpty_nil, if_true]

/-- A page that cannot be relocated for want of a spare is lost (R702). -/
theorem State.movePage_lost {s0 : State} {w : PageWrite} {t u : State} {b : Bytes} (idle : s0.nvm.moving = [])
    (full : s0.nvm.freeSpare w.page = none) (whole : ∀ l, w.kind ≠ .refresh l) (page : ∀ o, w.kind ≠ .ledger o)
    (fresh : s0.freshBytes 256 = (b, t)) (hu : u = { t with nvm := t.nvm.failPage w.page b }) :
    s0.movePage w = { u.pageEnded w true with nvm := { (u.pageEnded w true).nvm with moving := [], remapRec := none } } := by
  simp only [State.movePage_idle idle whole page, State.moveGo, full, State.pageLost, fresh, ← hu]

/-- One that has a spare is relocated, with the remap record written first (R702). -/
theorem State.movePage_begins {s0 v : State} {w : PageWrite} {sp : Nat} {m : Nvm} {x : RecWrite}
    (idle : s0.nvm.moving = []) (spare : s0.nvm.freeSpare w.page = some sp) (whole : ∀ l, w.kind ≠ .refresh l)
    (page : ∀ o, w.kind ≠ .ledger o) (hv : v = s0.noteTie (.sys 0x0C 0))
    (hm : m = { v.nvm with remap := tput v.nvm.remap (remapEntry w.page sp) (some (w.page % 4096)) })
    (hx : x = v.planRec (.sys 0x0C 0) 0x0C m.remapBytes) (fits : x.seq < 2 ^ 32) :
    s0.movePage w = (({ v with nvm := { m with moving := [(w, s0.nvm.phys w.page)], remapRec := some x } } :
      State).bump 24 1 1).askCopy x 0 (.remap 0) := by
  simp only [State.movePage_idle idle whole page, State.moveGo, spare, ← hv, ← hm, ← hx, if_neg (Nat.not_le.2 fits)]
  rw [hm]

/-! Power loss (R691, R692). -/

/-- A trip of the hold-up detector ends the page write in progress with its burst. -/
theorem State.trip_writing {s : State} {w : PageWrite} {bursts k : Nat} {held : Bool} {b : Bytes}
    (first : s.nvm.tripped = false) (writing : s.nvm.writing = some w) (hb : b = s.formed w)
    (hk : (∃ off, w.kind = .ledger off ∧ k = off) ∨ ((∀ off, w.kind ≠ .ledger off) ∧ k = 32 * min bursts 7)) :
    s.trip bursts held = { s with
      free := s.free + 1
      nvm := { s.nvm with
        tripped := true, writing := none
        pages := tset (zeros 256) s.nvm.pages (s.nvm.phys w.page) (fit 256 (b.take k ++
          (if held then slice b k 32 else (List.range 32).map fun i =>
            mixByte (byteAt (s.nvm.page w.page) (k + i)) (byteAt b (k + i)) (byteAt (s.freshBytes 32).1 i)) ++
          (s.nvm.page w.page).drop (k + 32)))
        weak := if held then s.nvm.weak else if s.nvm.weak.elem (s.nvm.phys w.page) then s.nvm.weak
          else s.nvm.weak ++ [s.nvm.phys w.page] } } := by
  have place : (match w.kind with
      | .ledger off => off
      | _ => 32 * min bursts 7) = k := by
    obtain ⟨off, kind, rfl⟩ | ⟨other, rfl⟩ := hk
    · rw [kind]
    · cases kind : w.kind with
      | ledger off => exact absurd kind (other off)
      | _ => rfl
  rw [State.trip, first, if_neg Bool.false_ne_true, writing, ← place, hb]
  rfl

/-- Settles O43 (R667, R684, R690 to R716, R761): it holds. -/
theorem factoryAndRecordEvents : Obligations.FactoryAndRecordEvents := by
  refine ⟨fun s stage => ⟨fun field => ⟨?_, ?_⟩, fun test write nvm => ⟨fun old inside ho => ?_, fun beyond => ?_⟩,
      fun test write other shown => ⟨_, exec_mtestGo_test stage test, State.mtest_writesOther write other shown⟩,
      fun test read v word => ⟨_, exec_mtestGo_test stage test, State.mtest_reads read word⟩,
      fun test idle => ?_, fun test busy => ?_⟩,
    fun s fail busy => ?_, fun s => ⟨fun other => ?_, fun j journal lo hi => ?_⟩,
    fun s g grant => ⟨fun d ended => ?_, fun live => ?_⟩,
    fun s s0 w retries failed n c writing hc hn h0 => ?_,
    fun s w refresh moved ledger => State.putPage_whole refresh moved ledger,
    fun s v us weak l n recalling hl hv hn => ?_,
    fun s bursts held first => ⟨fun idle => ?_, fun w k b writing hb hk => ?_⟩, fun s b stage bars => ?_⟩
  · exact congrArg _ (testWrite_field State.mtest stage (stageBars_fac s (o := 0x40) (by omega)) field)
  · exact congrArg _ (testWrite_field State.mbist stage (stageBars_fac s (o := 0x58) (by omega)) field)
  · rw [exec_mtestGo_test stage test, State.mtest_writesNvm write nvm inside ho]
  · rw [exec_mtestGo_test stage test, State.mtest_beyond write nvm beyond]
  · rw [exec_mbistGo_test stage test, State.mbist, if_neg (by simp [idle])]
  · rw [exec_mbistGo_test stage test, State.mbist, if_pos busy]
  · change execMbistDone fail s = _
    rw [execMbistDone, if_neg (by simp [busy])]
  · change execCeremonyTimeout s = _
    cases journal : s.crowns.journal with
    | none => simp only [execCeremonyTimeout, journal, Bool.false_eq_true, if_false]
    | some j =>
      have outside := other j journal
      have notBusy : (decide (0x810 ≤ j.opcode.toNat) && decide (j.opcode.toNat ≤ 0x813)) = false := by
        rw [Bool.and_eq_false_iff, decide_eq_false_iff_not, decide_eq_false_iff_not]
        omega
      simp only [execCeremonyTimeout, journal, notBusy, Bool.false_eq_true, if_false]
  · change execCeremonyTimeout s = _
    simp only [execCeremonyTimeout, journal, lo, hi, decide_true, Bool.and_self, if_true]
  · have gone : s.grantNow = none := by
      rw [State.grantNow, grant, Option.filter_some, if_neg (by simpa [d] using ended)]
    refine ⟨gone, ?_⟩
    change execDebugGrantExpire s = _
    rw [execDebugGrantExpire, gone, if_neg (by simp)]
  · have now : s.grantNow = some g := by
      rw [State.grantNow, grant, Option.filter_some, if_pos (by simpa using live)]
    refine ⟨now, ?_⟩
    change execDebugGrantExpire s = _
    rw [execDebugGrantExpire, now, if_pos (by simp)]
  · have done {t : State} (e : s.pageDone retries failed = t) :
        exec (.nvmPageWriteDone retries failed) s = .next t.onward := congrArg (fun x : State => (.next x.onward : Host.Outcome State Fault Refusal)) e
    have nvm : s0.nvm = n := by rw [h0]; rfl
    refine ⟨fun u good hu => ?_, fun b t u bad own idle full fresh hu => ?_,
      fun sp v x m bad own idle kinds spare hv hm hx fits => ?_⟩
    · have written {t : State} (remap : ∀ k l, w.kind ≠ .remap k l) (back : ∀ l, w.kind ≠ .remapBack l)
          (e : u.pageEnded w false = t) : exec (.nvmPageWriteDone retries failed) s = .next t.portGo.onward :=
        done ((State.pageDone_written writing hc hn h0 good remap back).trans (by rw [← hu, e]))
      refine ⟨fun kind => ?_, fun set p kind => ?_, fun k last kind => ?_, fun last kind => ?_, fun k last kind => ?_,
        fun k last kind => ?_, fun set last kind => ?_, fun kind => ?_⟩
      case refine_6 => exact done ((State.pageDone_remapWritten writing hc hn h0 good kind).trans (by rw [← hu]))
      all_goals exact written (by simp [kind]) (by simp [kind]) (by simp [State.pageEnded, kind])
    · have lost (whole : ∀ l, w.kind ≠ .refresh l) (page : ∀ o, w.kind ≠ .ledger o) (remap : ∀ k l, w.kind ≠ .remap k l)
          (back : ∀ l, w.kind ≠ .remapBack l) {t : State} (e : u.pageEnded w true = t) :
          exec (.nvmPageWriteDone retries failed) s =
            .next (({ t with nvm := { t.nvm with moving := [], remapRec := none } } : State).portGo).onward :=
        done ((State.pageDone_moves writing hc hn h0 bad own remap back).trans
          (by rw [State.movePage_lost (nvm ▸ idle) (nvm ▸ full) whole page fresh hu, e]))
      refine ⟨fun set p kind => ?_, fun k last kind => ?_⟩ <;>
        exact lost (by simp [kind]) (by simp [kind]) (by simp [kind]) (by simp [kind]) (by simp [State.pageEnded, kind])
    · have plain : (∀ l, w.kind ≠ .refresh l) ∧ (∀ o, w.kind ≠ .ledger o) ∧ (∀ k l, w.kind ≠ .remap k l) ∧
          ∀ l, w.kind ≠ .remapBack l := by
        obtain kind | ⟨set, p, kind⟩ | ⟨k, last, kind⟩ := kinds <;> simp [kind]
      obtain ⟨whole, page, remap, back⟩ := plain
      refine done ((State.pageDone_moves writing hc hn h0 bad own remap back).trans ?_)
      rw [State.movePage_begins (nvm ▸ idle) (nvm ▸ spare) whole page hv hm hx fits, nvm]
  · change execRecallDone us weak s = _
    rw [execRecallDone, recalling, if_neg (by simp), hn, hv, hl]
  · change Host.Outcome.next (s.trip bursts held) = _
    rw [State.trip, first, if_neg Bool.false_ne_true, idle]
  · refine ⟨s.trip bursts held, rfl, ?_⟩
    rw [State.trip_writing first writing hb hk]
    refine ⟨rfl, rfl, ?_, _, ?_, ?_, rfl⟩
    · by_cases h : held = true
      · simp only [h, if_true, true_or]
      · simp only [h, Bool.false_eq_true, if_false, false_or, List.elem_eq_mem, decide_eq_true_eq]
    · exact fun h => if_pos h
    · intro m h hm
      simp only [h, Bool.false_eq_true, if_false, hm]
      rfl
  · rw [show exec (.clrCnt 0 b) s = .next (s.clearCounts b) from congrArg _ (pfWrite_pf _ stage bars)]
    cases b <;> rfl

end Sys2Proof.Machine
end

