-- ==== Sys2Proof/Proofs/FacetEvents.lean ====
section
/-!
PROOF. Facets: their BIST, GDDR6 training, resets and fences by software (R757 to R759, R779, R782, R830).
-/

namespace Sys2Proof.Machine

section
variable {s : State} {f : Fin 16}

/-- The result of a facet's BIST (R757). -/
theorem exec_facetBistDone {u : State} {pass : Bool} {ms : Nat} (bist : s.fctState f = .bist)
    (hu : u = { s with
      fctRegs := tmod {} s.fctRegs f.val fun (x : FctRegs) =>
        { x with bistMs := min ms 65535, passes := if pass then min (x.passes + 1) 65535 else x.passes }
      start := { s.start with
        bistFail := if pass then s.start.bistFail &&& ~~~BitVec.ofNat 16 (2 ^ f.val)
          else s.start.bistFail ||| BitVec.ofNat 16 (2 ^ f.val)
        softFence := if pass then s.start.softFence &&& ~~~BitVec.ofNat 16 (2 ^ f.val) else s.start.softFence
        bistLeft := s.start.bistLeft &&& ~~~BitVec.ofNat 16 (2 ^ f.val) } }) :
    exec (.facetBistDone f pass ms) s = .next (if pass then u.facetPassed f
      else u.setFct f (if s.start.softFence.getLsbD f then .fencedSoft else .fencedStart)).onward := by
  subst hu
  change execFacetBistDone f pass ms s = _
  rw [execFacetBistDone, if_neg (not_not.2 bist)]

/-- A training that has brought all four interfaces up ends the step (R758). -/
theorem State.trainingDone_up {t : Training} {r : StepRun} {rate : Nat} (runs : s.stepRuns .gddr6 = some r)
    (all : t.trained = 15) (rated : t.rate = some rate) :
    s.trainingDone t = if r.method = 0
      then ((s.setClus (·.trained t)).gddrUp (leField s.start.ratesRecord 0 1)).endGddr r.attempt 1 0 15
      else (((s.setClus (·.trained t)).putRec trainName 0x11 (leBytes 1 rate)).gddrUp rate).endGddr r.attempt 3 1 31 := by
  simp only [State.trainingDone, runs, all, rated, beq_self_eq_true, Option.isSome_some, Bool.and_self, if_true,
    Option.getD_some]
  rfl

variable (stage : 3 ≤ s.start.stage) (bars : s.stageBars (0x30000 + 0x1000 * f.val) = false)
include stage bars

theorem exec_fctReset : exec (.fctReset 0 f) s = .next (s.facetReset f) :=
  congrArg _ (pfWrite_pf (fun x => x.facetReset f) stage bars)

theorem exec_fctFence {on : Bool} : exec (.fctFence 0 f on) s = .next (s.facetFence f on) :=
  congrArg _ (pfWrite_pf (fun x => x.facetFence f on) stage bars)

end

/-- Settles O47 (R757, R758, R779, R782, R830): it holds. -/
theorem facetEvents : Obligations.FacetEvents := by
  refine ⟨fun s u f pass ms bist hu => exec_facetBistDone bist hu,
    fun s t r rate runs all rated => ?_, fun s f stage bars => ⟨fun other => ?_, fun alarm => ?_, fun serves => ?_,
      fun soft => ?_⟩⟩
  · have ends : exec (.gddr6TrainingDone t) s = .next (s.trainingDone t).onward := by
      change execGddr6TrainingDone t s = _
      rw [execGddr6TrainingDone, runs, if_neg (by simp)]
    rw [ends, State.trainingDone_up runs all rated]
    exact ⟨fun normal => by rw [if_pos normal], fun other => by rw [if_neg other]⟩
  · rw [exec_fctReset stage bars, State.facetReset, if_neg other]
  · rw [exec_fctReset stage bars, State.facetReset, if_pos alarm]
    rfl
  · refine ⟨_, _, (exec_fctFence stage bars).trans ?_, rfl, rfl⟩
    rw [State.facetFence, if_pos rfl, if_pos serves]
  · rw [exec_fctFence stage bars, State.facetFence, if_neg Bool.false_ne_true, if_pos soft]

end Sys2Proof.Machine
end

