-- ==== Sys2Proof/Proofs/RingControl.lean ====
section
/-!
PROOF. Control of rings by their function or the PF (R140 to R144, R156, R817).
-/

namespace Sys2Proof.Machine

section
variable {s : State} {f r : Nat} (act : State → State)

/-- A write to a ring's registers by a function that does not exist reaches none. -/
theorem ringWrite_absent (gone : s.fnExists f = false) : s.ringWrite f r act = s :=
  if_pos (.inr (by rw [gone]; rfl))

/-- One by a VF to a ring of another function is a violation of kind 1 (R817). -/
theorem ringWrite_other (stage : 3 ≤ s.start.stage) (there : s.fnExists f = true) (vf : f ≠ 0) (other : fnOf r ≠ f) :
    s.ringWrite f r act = s.violation 1 f true (32 * (r % 16) + 0x18) := by
  rw [State.ringWrite, if_neg (by simp [there]; omega), if_pos ⟨vf, other⟩, rngCtl, if_neg vf]

end

/-- Each command that controls a ring is a write to its control register. -/
theorem exec_ringControl {g : Fin 32} {r : Fin 512} {x : Instr}
    (hx : x ∈ ([.ringEn g r, .ringStop g r, .ringAbort g r, .ringReset g r] : List Instr)) :
    ∃ act : State → State, ∀ s : State, exec x s = .next (s.ringWrite g r act) := by
  simp only [List.mem_cons, List.not_mem_nil, or_false] at hx
  rcases hx with rfl | rfl | rfl | rfl <;> exact ⟨_, fun _ => rfl⟩

/-- The stage bars no register of the host interface (R819). -/
theorem stageBars_hif (s : State) {o : Nat} (h : o < 0x10000) : s.stageBars (0x10000 + o) = false := by
  have fct : decide (0x30000 ≤ 0x10000 + o) = false := decide_eq_false (by omega)
  have clu : decide (0x40000 ≤ 0x10000 + o) = false := decide_eq_false (by omega)
  have vlt : decide (0x50000 ≤ 0x10000 + o) = false := decide_eq_false (by omega)
  simp [State.stageBars, fct, clu, vlt]

/-! What a ring does (R140 to R143). -/

section
variable {s u : State} {r : Nat}

theorem State.ringEnable_disabled (st : (s.ring r).st = .disabled) : s.ringEnable r = s.setRing r { s.ring r with
    st := .running, cause := 0, f := 0, w := 0, p := 0, chains := [], since := 0, timing := false } := if_pos st

theorem State.ringEnable_stopped (st : (s.ring r).st = .stopped) : s.ringEnable r = s.setRing r { s.ring r with
    st := .running, cause := 0, p := (s.ring r).f } := by
  rw [State.ringEnable]
  dsimp only
  rw [if_neg (by simp [st]), if_pos st]

/-- An abort refuses what is fetched, then what has reached a unit, then what facets hold (R142). -/
theorem State.ringEnd_eq (st : (s.ring r).st = .running ∨ (s.ring r).st = .stopping)
    (hu : u = ((((((s.refuseFetched r .ringStopped).modRing r fun x => { x with st := .stopping, cause := 2 }).abortReading
        r).abortCollects r).abortSignet r).abortWaits r).endInvocations
          (fun i => match i.kind with
            | .invoke g _ => g == r
            | .hook _ _ => false) (some .aborted)) :
    s.ringEnd r = (((List.range 16).foldl (fun (a : State) f => a.abortFacet f r) u).drain r).onward := by
  rw [State.ringEnd]
  dsimp only
  rw [if_neg (by tauto), hu] <;> rfl

/-- A reset ends the ring's open chains (R273). -/
theorem State.ringClear_eq (st : (s.ring r).st = .stopped)
    (hu : u = (List.range 16).foldl (fun (a : State) f =>
      ((a.facet f).msgs.filter fun m => m.ring == r && m.st == .await).foldl
        (fun (b : State) m => b.vanishMsg f m) a) s) :
    s.ringClear r = (u.modRing r fun x => { x with st := .disabled, cause := 0, chains := [] }).onward := by
  rw [State.ringClear, if_neg (not_not.2 st), hu]

end

/-- Settles O49 (R140 to R144, R156, R273, R543, R817): it holds. -/
theorem ringControl : Obligations.RingControl := by
  intro s fn r stage own there
  have acts {act : State → State} {t : State} (e : act s = t) :
      Host.Outcome.next (s.ringWrite fn r act) = (.next t : Host.Outcome State Fault Refusal) := by
    rw [ringWrite_own act stage own there, e]
  refine ⟨fun st => ?_, fun st => ?_, fun st => ?_, fun u st hu => ?_, fun u st hu => ?_,
    fun g x hx => ⟨fun vf other exist => ?_, fun gone => ?_⟩, fun g vf => ?_⟩
  · exact acts (act := fun t => t.ringEnable r) (State.ringEnable_disabled st)
  · exact acts (act := fun t => t.ringEnable r) (State.ringEnable_stopped st)
  · exact acts (act := fun t => t.ringHalt r) (if_pos st)
  · exact acts (act := fun t => t.ringEnd r) (State.ringEnd_eq st hu)
  · exact acts (act := fun t => t.ringClear r) (State.ringClear_eq st hu)
  · obtain ⟨act, e⟩ := exec_ringControl hx
    rw [e, ringWrite_other act stage exist (fun h => vf (Fin.ext h)) other]
  · obtain ⟨act, e⟩ := exec_ringControl hx
    rw [e, ringWrite_absent act gone]
  · have bars : s.stageBars (0x1010C + 32 * g.val) = false := by
      rw [show 0x1010C + 32 * g.val = 0x10000 + (0x10C + 32 * g.val) by omega]
      exact stageBars_hif s (by omega)
    have other : g.val ≠ 0 := fun h => vf (Fin.ext h)
    change Host.Outcome.next (s.pfWrite 0 (0x1010C + 32 * g.val) fun t => t.disableFn g) = _
    rw [pfWrite_pf _ stage bars, State.disableFn, if_neg other]

end Sys2Proof.Machine
end

