-- ==== Sys2Proof/Proofs/LinkEvents.lean ====
section
/-!
PROOF. Events of the link, of functions and of IDE streams (R49 to R83, R140, R778, R780, R820).
-/

namespace Sys2Proof.Machine

/-! Every ring after a loss (R140, R820). -/

/-- A ring is `STOPPED` by the link. -/
def Ring.LinkStopped (x : Ring) : Prop := x.st = .stopped ∧ x.cause = 7

/-- What a link event leaves of a ring. -/
def Ring.linkStop (x : Ring) : Ring := { x with st := .stopped, cause := 7 }

theorem Ring.linkStop_ne (x : Ring) : x.linkStop ≠ {} := fun h => nomatch congrArg Ring.st h

theorem State.modRing_linkStop_same (s : State) (r : Nat) : ((s.modRing r Ring.linkStop).ring r).LinkStopped := by
  have read : (s.modRing r Ring.linkStop).ring r = (s.ring r).linkStop := tget_tset_of_ne (Ring.linkStop_ne _)
  rw [read]
  exact ⟨rfl, rfl⟩

theorem State.modRing_linkStop_ne (s : State) {r q : Nat} (h : q ≠ r) :
    (s.modRing r Ring.linkStop).ring q = s.ring q := by
  have put : (s.modRing r Ring.linkStop).rings = tput s.rings r (s.ring r).linkStop :=
    if_neg (Ring.linkStop_ne (s.ring r))
  rw [State.ring, put, tget_tput_ne h, State.ring]

/-- Stopping the rings of a list leaves each of them stopped, and those that were. -/
theorem State.linkStops_ring (l : List Nat) (s : State) (r : Nat) (h : r ∈ l ∨ (s.ring r).LinkStopped) :
    ((l.foldl (fun a q => a.modRing q Ring.linkStop) s).ring r).LinkStopped := by
  induction l generalizing s with
  | nil => exact h.resolve_left (List.not_mem_nil)
  | cons q l ih =>
    refine ih _ ?_
    by_cases e : r = q
    · subst e
      exact .inr (s.modRing_linkStop_same r)
    · rw [State.modRing_linkStop_ne s e]
      exact h.imp_left fun m => (List.mem_cons.1 m).resolve_left e

theorem State.stopAll_ring (s : State) {r : Nat} (h : r < 512) : (s.stopAll.ring r).LinkStopped := by
  unfold State.stopAll
  exact State.linkStops_ring _ s r (.inl (List.mem_range.2 h))

/-- What a link event clears once the rings have stopped (R64). -/
def State.linkCleared (t : State) : State :=
  let u := t.dropJob fun l => { l.clearSecrets with doeBusy := false }
  { u with
    fns := u.fns.map fun (e : Nat × Fn) => (e.1, { e.2 with polling := false, d3hot := false, msixPend := 0 })
    hif := { u.hif with dmaErr := [], held := [] } }

theorem State.linkLoss_eq (s : State) :
    s.linkLoss = (s.dropRings (fun _ => true) fun _ => true).stopAll.linkCleared := rfl

theorem State.linkCleared_ring (t : State) (r : Nat) : t.linkCleared.ring r = t.ring r := rfl

theorem State.linkLoss_ring (s : State) {r : Nat} (h : r < 512) : (s.linkLoss.ring r).LinkStopped := by
  rw [State.linkLoss_eq, State.linkCleared_ring]
  exact State.stopAll_ring _ h

/-- Sessions, IDE keys, the mailbox's job and completions that were held are gone (R64). -/
theorem State.linkCleared_secrets (t : State) : t.linkCleared.link.sessions = [] ∧ t.linkCleared.link.ide = [] ∧
    t.linkCleared.link.job = none ∧ t.linkCleared.hif.held = [] := ⟨rfl, rfl, rfl, rfl⟩

/-! Width and rate (R82). -/

/-- A width of 4, 8 or 16 lanes and a rate of 1 to 6, 6 in FLIT mode alone, are of R82. -/
theorem linkOk_true {width : BitVec 6} {rate : BitVec 4} {flit : Bool} (lanes : width = 4 ∨ width = 8 ∨ width = 16)
    (lo : 1 ≤ rate.toNat) (hi : rate.toNat ≤ 6) (six : rate.toNat = 6 → flit = true) : linkOk width rate flit = true := by
  have top : rate.toNat ≤ if flit then 6 else 5 := by
    cases flit with
    | true => exact hi
    | false =>
      have : rate.toNat ≠ 6 := fun h => nomatch six h
      simp only [Bool.false_eq_true, if_false]
      omega
  simpa [linkOk, lo, top, or_assoc] using lanes

theorem linkOk_fast {width : BitVec 6} {rate : BitVec 4} (six : rate.toNat = 6) : linkOk width rate false = false := by
  simp [linkOk, six, show Nat.ble 6 5 = false from rfl]

/-- Settles O50 (R49 to R83, R140, R778, R780, R820): it holds. -/
theorem linkEvents : Obligations.LinkEvents := by
  refine ⟨fun s r h => s.linkLoss_ring h, fun s => s.linkLoss_eq ▸ State.linkCleared_secrets _, fun s stage up => ?_, fun s dl stage up => ?_,
    fun s stage => ?_, fun s up hup => ?_, fun s width rate flit out lanes lo => ⟨fun hi six down => ?_,
      fun six plain => ?_, fun hi six up other => ?_⟩, fun s f stage there => ⟨?_, fun cold => ?_, ?_⟩,
    fun s i stage secure => ?_⟩
  · change execHotReset s = _
    rw [execHotReset, if_neg (by simp [up]; omega)]
  · change execDlDown s = _
    simp only [execDlDown, dl, Bool.not_true, Bool.false_eq_true, if_false, if_neg (not_lt.2 stage), up]
  · change execPePerstN s = _
    simp only [execPePerstN, if_neg (not_lt.2 stage)]
  · change execPePerstNDeassert s = _
    rw [execPePerstNDeassert, hup]
  · change execDlUp width rate flit s = _
    rw [execDlUp, if_neg (by simp [out, down, linkOk_true lanes lo hi six])]
  · change execDlUp width rate flit s = _
    rw [execDlUp, plain, if_pos (by simp [linkOk_fast six])]
  · change execRetrain rate width s = _
    rw [execRetrain, if_neg (by simp [up, linkOk_true lanes lo hi six]; tauto)]
  · change execD3hot f true s = _
    rw [execD3hot, if_neg (by simp [there]; omega), if_pos rfl]
  · change execD3hot f false s = _
    rw [execD3hot, if_neg (by simp [there]; omega), if_neg Bool.false_ne_true, if_pos cold]
  · change execFlr f s = _
    rw [execFlr, if_neg (by simp [there]; omega)]
  · change execIdeFail i s = _
    rw [execIdeFail, if_neg (by simp [secure]; omega)]

end Sys2Proof.Machine
end

