-- ==== Sys2Proof/Proofs/RingEvents.lean ====
section
/-!
PROOF. Events of the ring engine: polls, fetches, dispatches, ageing, segments and interrupts (R90 to R100, R118 to R131,
R267 to R273).
-/

namespace Sys2Proof.Machine

section
variable {s u : State}

/-- A poll gives a ring its P; one that outruns the ring stops it with cause 3 (R90, R96). -/
theorem State.pollRing_eq {r : Nat} {wide : Bool} {b : Bytes} {p : Word32} (run : (s.ring r).st = .running)
    (sees : wide = true ∨ r = 0) (hp : p = BitVec.ofNat 32 (leField b (8 * (r % 16)) 4))
    (hu : u = s.modRing r fun x => { x with p := p }) :
    s.pollRing wide r b = if (u.ring r).size < (p - (u.ring r).w).toNat ∨ (u.ring r).size < (p - (u.ring r).f).toNat
      then u.stopRing r 3 else u := by
  have looks : s.pollSees wide r = true := by simp [State.pollSees, run, sees]
  rw [State.pollRing, if_pos looks, ← hp, State.seeP, hu]

/-- A read of descriptors begins (R98, R99). -/
theorem exec_descriptorFetch {r : Fin 512} {x : Ring} {next : Word32} {n : Nat} (hx : x = s.ring r)
    (run : x.st = .running) (tag : s.tagFree = true) (served : s.fnServed (fnOf r) = true)
    (hnext : next = x.f + BitVec.ofNat 32 ((x.reads.map (·.count)).foldl (· + ·) 0))
    (hn : n = min (min (x.p - next).toNat 16) (min (x.size - next.toNat % x.size) (64 - x.undispatched)))
    (ahead : (x.p - next).toNat ≤ x.size) (some : n ≠ 0) :
    exec (.descriptorFetch r) s = .next (s.setRing r { x with reads := x.reads ++ [⟨next, n⟩] }) := by
  have inside : Nat.blt x.size (x.p - next).toNat = false := by
    rw [Bool.eq_false_iff, ne_eq, Nat.blt_eq]
    exact not_lt.2 ahead
  change execDescriptorFetch r s = _
  unfold execDescriptorFetch
  dsimp only
  rw [← hx, ← hnext, ← hn, inside, if_neg (by simp [run, tag, served, some])]

/-- A segment of a cipher message that is neither its last nor aborted (R267 to R269). -/
theorem cipherSegEnd_parks {f : Nat} {m m1 : Msg} {c : CipherSt} {n : Nat} {env : Env} {data : Bytes}
    {t : CipherSt × Bytes} (free : m.held = false) (live : m.aborted = false)
    (gathered : u.gather env m.ins 0 m.pos n = .ok data)
    (ht : t = cipherSegment (u.material (handleIndex c.key.toNat)) c data)
    (hm : m1 = { m with kind := .cipher t.1, pos := m.pos + n, outPos := m.outPos + t.2.length, st := .parked })
    (more : m.pos + n < m.inLen) :
    cipherSegEnd u f m c n env =
      ((u.emit m.ring (cipherInPlace c m) m.ins m.outs m.outPos t.2).modMsg f m.id fun _ => m1).bump (1 + f) 1 n := by
  simp only [cipherSegEnd, gathered, ← ht, free, Bool.false_eq_true, if_false, hm, live, more, decide_true, Bool.true_or,
    if_true]

/-- It ends, and its facet schedules the next (R269). -/
theorem exec_segmentEnd_cipher {f : Fin 16} {lane : Fin 8} {env : Env} {fails : Bool} {m : Msg} {c : CipherSt} {n : Nat}
    (lane_ : s.onLane f lane = some (m, n)) (hu : u = s.hostStores env) (kind : m.kind = .cipher c)
    (live : m.aborted = false) :
    exec (.segmentEnd f lane env fails) s = .next ((cipherSegEnd u f m c n env).sched f env.raw).onward := by
  change execSegmentEnd f lane env fails s = _
  simp only [execSegmentEnd, lane_, ← hu, kind, live, Bool.false_and, Bool.false_eq_true, if_false]
  cases (cipherSegEnd u f m c n env).msg f m.id <;> rfl

end

/-- Settles O48 (R90 to R100, R118 to R131, R267 to R273): it holds. -/
theorem ringEngineEvents : Obligations.RingEngineEvents := by
  refine ⟨fun s f idle tag served polled => ?_, fun s u f env b wide polling hw hu read => ?_,
    fun s u r wide b p run sees hp hu => ⟨fun outruns => ?_, fun w f => ?_⟩,
    fun s r x next n hx run tag served hnext hn ahead some =>
      exec_descriptorFetch hx run tag served hnext hn ahead some,
    fun s u r env rd rest b reads hu read v hv => ?_, fun s r st => rfl, fun s u r w weak next scan => ?_,
    fun s r n env w o waits decoded => ?_, fun s r n w age waits => ?_,
    fun s u v f lane env fails m c n data t m1 lane_ hu kind free live gathered ht hm more hv => ?_,
    fun s r timing => ?_, fun s u f v stage there hu => ⟨fun kept => ?_, fun d0 pending => ?_⟩⟩
  · change execDoorbellPoll f s = _
    rw [execDoorbellPoll, if_neg (by simp [idle, tag, served, polled])]
  · change execPollComplete f env s = _
    simp only [execPollComplete, polling, Bool.not_true, Bool.false_eq_true, if_false, ← hu, read, ← hw]
  · rw [State.pollRing_eq run sees hp hu, if_pos outruns]
  · rw [State.pollRing_eq run sees hp hu, if_neg (by omega)]
  · change execFetchComplete r env s = _
    simp only [execFetchComplete, reads, ← hu, read, ← hv]
  · change execDispatch s = _
    rw [execDispatch, next]
    simp only [scan]
    rfl
  · change execHostReadComplete r n env s = _
    simp only [execHostReadComplete, waits, decoded]
  · change execSchedAgeExpiry (.ring r n) s = _
    rw [execSchedAgeExpiry, if_neg age]
    simp only [waits]
  · rw [exec_segmentEnd_cipher lane_ hu kind live, cipherSegEnd_parks free live gathered ht hm more, ← hv]
  · change execCoalTimeExpiry r s = _
    rw [execCoalTimeExpiry, if_pos timing]
  · change execMsixUnmask f v s = _
    rw [execMsixUnmask, if_neg (by simp [there]; omega), State.unmask, ← hu, if_pos (by simpa using kept)]
  · change execMsixUnmask f v s = _
    rw [execMsixUnmask, if_neg (by simp [there]; omega), State.unmask, ← hu, if_neg (by simp [d0, pending])]

end Sys2Proof.Machine
end

