-- ==== Sys2Proof/Proofs/StartEvents.lean ====
section
/-!
PROOF. Power, clocks and whole starts (R164, R378 to R382, R652, R671, R672, R691, R752 to R782, R839, R847).
-/

namespace Sys2Proof.Machine

/-! Whole starts (R637, R652, R776, R782). -/

section
variable {s t : State} {b : Bytes} (fresh : s.freshBytes 1 = (b, t))
include fresh

theorem exec_sysResetN_whole (on : s.start.stage ≠ 0) :
    exec .sysResetN s = .next ((t.trip (byteAt b 0).toNat.log2 true).wholeStart 2 false) := by
  change execSysResetN s = _
  simp only [execSysResetN, if_neg on, fresh]

/-- `PWR_GOOD` falls with `VDD_KPR` (R652, R691). -/
theorem State.pwrFall_dark : s.pwrFall false = (t.trip (byteAt b 0).toNat.log2 true).goDark := by
  simp only [State.pwrFall, fresh, Bool.false_eq_true, if_false]

/-- `PWR_GOOD` falls alone: a whole start, with the battery domain's copies kept (R652, R753). -/
theorem State.pwrFall_held (late : s.start.stage ≠ 1) : ∃ u, s.pwrFall true = u ∧ u.start.pwrGood = false ∧
    u = { (t.trip (byteAt b 0).toNat.log2 true).wholeStart 1 false with
      start := u.start
      battery := { ((t.trip (byteAt b 0).toNat.log2 true).wholeStart 1 false).battery with
        copyCfg := s.battery.copyCfg, copyHigh := s.battery.copyHigh, copyLow := s.battery.copyLow } } := by
  simp only [State.pwrFall, fresh, if_true, if_neg late]
  exact ⟨_, rfl, rfl, rfl⟩

theorem State.resetBy_key : s.resetBy 0x4B57 = (t.trip (byteAt b 0).toNat.log2 true).wholeStart 3 false := by
  simp only [State.resetBy, ne_eq, not_true, if_false, fresh]

end

/-- The PF asks for a whole start (R782). -/
theorem exec_resetWhole {s : State} {key : BitVec 16} (stage : 3 ≤ s.start.stage) :
    exec (.resetWhole 0 key) s = .next (s.resetBy key) :=
  congrArg _ (pfWrite_pf (fun x => x.resetBy key) stage (by simp [State.stageBars]))

/-! The entry of S2 (R672, R752, R756). -/

section
variable {s u v : State} {r : S2Results} (s1 : s.start.stage = 1) (recalled : s.nvm.recalling = false)
  (hu : u = (List.range 12).foldl (fun (a : State) n => a.setEngine n { a.engine n with katFail := !r.kat.getLsbD n })
      { s with
        start := { s.start with stage := 2, pwrGood := true, sysResetN := true }
        glb := { s.glb with vid := if 40 < r.vid.toNat then 40 else r.vid }
        nvm := { s.nvm with tripped := false }
        battery := { s.battery.restart s.battery.onCell s.glb.grade with sampler := s.battery.sampler } })
  (hv : v = u.stepStart.stepCrown r.crownA r.crownB)
include s1 recalled hu hv

/-- After `CROWN` comes `LIFECYCLE`, in which the supply may fail. -/
theorem exec_s2Entry : exec (.s2Entry r) s = .next (if v.cutTaken r then (v.s2Lcs r).pwrFall true
    else ((v.s2Lcs r).s2Rest ((u.nvm.record startName).st == .torn) r).onward) := by
  have begins : ¬(s.start.stage ≠ 1 ∨ s.nvm.recalling = true) := by simp [s1, recalled]
  change execS2Entry r s = _
  unfold execS2Entry
  rw [if_neg begins]
  dsimp only
  rw [← hu, State.s2First, ← hv]

end

/-- The supply does not fail in STUCK mode. -/
theorem State.cutTaken_stuck {v : State} {r : S2Results} (stuck : v.start.stuck = true) : v.cutTaken r = false := by
  simp [State.cutTaken, stuck]

theorem State.s2Lcs_stuck {v : State} {r : S2Results} (stuck : v.start.stuck = true) :
    v.s2Lcs r = (v.stepSkip .lifecycle).readLcs.voteLcs := if_pos stuck

theorem State.s2Lcs_whole {v : State} {r : S2Results} (stuck : v.start.stuck = false) (whole : v.cutTaken r = false) :
    v.s2Lcs r = v.stepLifecycle r.copyFails 7 := by
  rw [State.s2Lcs, stuck, if_neg Bool.false_ne_true, whole, if_neg Bool.false_ne_true]

theorem State.s2Lcs_cut {v : State} {r : S2Results} {k : Fin 7} (taken : v.cutTaken r = true) (cut : r.cut = some k) :
    v.s2Lcs r = v.stepLifecycle r.copyFails k.val := by
  have runs : v.start.stuck = false := by
    cases stuck : v.start.stuck with
    | false => rfl
    | true => exact absurd taken (by simp [State.cutTaken_stuck stuck])
  rw [State.s2Lcs, runs, if_neg Bool.false_ne_true, taken, if_pos rfl, cut]
  rfl

/-- The wipe of END_OF_LIFE goes through the NVM write clasp (R671). -/
theorem exec_lcsWipeDone {s u : State} {r : StepRun} {b : Bool} (runs : s.stepRuns .lcsWipe = some r)
    (out : s.nvmOutput = (b, u)) : exec .lcsWipeDone s = .next (if u.nvm.tripped || !b then u else
      ((({ u with
        nvm := { u.nvm with
          pages := u.nvm.pages.filter fun (e : Nat × Bytes) => decide (e.1 < 16384)
          weak := u.nvm.weak.filter fun p => decide (p < 16384)
          writes := u.nvm.writes + 16384 }
        life := { u.life with wiping := false, pagesLeft := 0 }
        start := { u.start with holdWipe := false } } : State).stepStop .lcsWipe).stepEnd .lcsWipe 1 0).bump 25 0
          16384).onward := by
  change execLcsWipeDone s = _
  rw [execLcsWipeDone, runs, if_neg (by simp)]
  simp only [State.wipeDone, runs, out]

/-- Settles O46 (R164, R378 to R382, R652, R671, R672, R691, R752 to R782, R839, R847): it holds. -/
theorem startEvents : Obligations.StartEvents := by
  refine ⟨fun s c b => ⟨rfl, rfl, rfl, rfl, rfl, rfl, rfl, rfl, rfl, rfl, rfl, rfl⟩, fun s dark => ?_,
    fun s t b on fresh => ⟨exec_sysResetN_whole fresh on, ?_, fun late => ?_, fun stage => ?_, fun key stage wrong => ?_⟩,
    fun s u v r s1 recalled hu hv => ⟨fun whole runs => ?_, fun stuck => ?_, fun k taken cut => ?_⟩,
    fun s stage => ⟨fun below => ?_, fun above => ?_⟩, fun s on => ?_, fun s crystal stage => ?_, fun s r runs => ?_,
    fun s u v r b re runs own drawn hu ended => ?_, fun s stage => ?_,
    fun s u r b runs out => ⟨fun accepted holds => ?_, fun none => ?_⟩⟩
  · change execKeeperPor s = _
    rw [execKeeperPor, if_neg (not_not.2 dark)]
  · change execPwrGoodFall false s = _
    rw [execPwrGoodFall, if_neg on, State.pwrFall_dark fresh]
  · obtain ⟨u, hu, good, rest⟩ := State.pwrFall_held fresh late
    refine ⟨u, ?_, good, rest⟩
    change execPwrGoodFall true s = _
    rw [execPwrGoodFall, if_neg on, hu]
  · rw [exec_resetWhole stage, State.resetBy_key fresh]
  · rw [exec_resetWhole stage, State.resetBy, if_pos wrong]
  · rw [exec_s2Entry s1 recalled hu hv, whole, if_neg Bool.false_ne_true, State.s2Lcs_whole runs whole]
  · rw [exec_s2Entry s1 recalled hu hv, State.cutTaken_stuck stuck, if_neg Bool.false_ne_true, State.s2Lcs_stuck stuck]
  · rw [exec_s2Entry s1 recalled hu hv, taken, if_pos rfl, State.s2Lcs_cut taken cut]
  · change execVidStep true s = _
    simp only [execVidStep, if_neg (not_lt.2 stage), if_true, below]
  · change execVidStep false s = _
    simp only [execVidStep, if_neg (not_lt.2 stage), Bool.false_eq_true, if_false, above]
  · change execVbatLoss s = _
    simp only [execVbatLoss, if_neg on]
  · change execXtal32Stop s = _
    simp only [execXtal32Stop, crystal, Bool.false_eq_true, if_false]
    rw [if_pos stage]
  · change execEntropyInstantiationLimit s = _
    rw [execEntropyInstantiationLimit, runs, if_neg (by simp)]
  · change execDrkDrawRetry s = _
    have repeats : ¬((s.stepRuns .keys).isNone = true ∨ s.signet.waits.elem .drk = true) := by simp [runs, own]
    rw [execDrkDrawRetry, if_neg repeats, State.drawDrk, drawn]
    dsimp only
    rw [← hu, State.keysGo, ended, if_neg (by simp)]
  · exact congrArg _ (pfWrite_pf (fun x => x.log .retry 3 1 1 0 0) stage (by simp [State.stageBars]))
  · rw [exec_lcsWipeDone runs out, holds, accepted, if_neg (by simp)]
  · rw [exec_lcsWipeDone runs out, if_pos (by simpa using none.symm)]

end Sys2Proof.Machine
end

