-- ==== Sys2Proof/Proofs/CrownEvents.lean ====
section
/-!
PROOF. The twin crowns (R597 to R622): what the seize outputs, a refused output and a whole takeover leave of the clasps
and of both crowns; and the events of heartbeats, self-tests, reports and rejoins.
-/

namespace Sys2Proof.Machine

/-! Crowns and clasps written. -/

section
variable (s : State)

@[simp] theorem State.crown_setCrown_same (b : Bool) (c : Crown) : (s.setCrown b c).crown b = c := by
  cases b <;> rfl

@[simp] theorem State.crown_setCrown_other (b : Bool) (c : Crown) : (s.setCrown b c).crown (!b) = s.crown (!b) := by
  cases b <;> rfl

@[simp] theorem State.crown_setCrown_not (b : Bool) (c : Crown) : (s.setCrown (!b) c).crown b = s.crown b := by
  cases b <;> rfl

@[simp] theorem State.clasps_setCrown (b : Bool) (c : Crown) : (s.setCrown b c).crowns.clasps = s.crowns.clasps := by
  cases b <;> rfl

@[simp] theorem State.activeB_setCrown (b : Bool) (c : Crown) : (s.setCrown b c).crowns.activeB = s.crowns.activeB := by
  cases b <;> rfl

@[simp] theorem State.clasp_setCrown (b : Bool) (c : Crown) (k : Nat) : (s.setCrown b c).clasp k = s.clasp k := by
  rw [State.clasp, State.clasps_setCrown, State.clasp]

theorem State.activeCrown_is : s.activeCrown = s.crown s.crowns.activeB := rfl

theorem State.otherCrown_is : s.otherCrown = s.crown (!s.crowns.activeB) := by
  unfold State.otherCrown State.crown
  cases s.crowns.activeB <;> rfl

theorem State.setOther_is (c : Crown) : s.setOther c = s.setCrown (!s.crowns.activeB) c := by
  unfold State.setOther State.setCrown
  cases s.crowns.activeB <;> rfl

theorem State.clasp_setClasp_same {k : Nat} (c : Clasp) (inside : k < s.crowns.clasps.length) :
    (s.setClasp k c).clasp k = c := by
  simp [State.clasp, State.setClasp, inside]

theorem State.clasp_setClasp_ne {j k : Nat} (c : Clasp) (apart : k ≠ j) : (s.setClasp k c).clasp j = s.clasp j := by
  simp [State.clasp, State.setClasp, List.getElem?_set_ne apart]

end

/-! The seize outputs (R606 step 2). -/

section
variable (s : State) (b : Bool) (c : BitVec 16)

theorem State.seize_succ (n : Nat) :
    s.seize (n + 1) b c = (s.seize n b c).setClasp n (((s.seize n b c).clasp n).take b c) := by
  rw [State.seize, List.range_succ, List.foldl_append]
  rfl

/-- Seize outputs write the clasps alone. -/
theorem State.seize_frame (n : Nat) : ∃ l, l.length = s.crowns.clasps.length ∧
    s.seize n b c = { s with crowns := { s.crowns with clasps := l } } := by
  induction n with
  | zero => exact ⟨s.crowns.clasps, rfl, rfl⟩
  | succ n ih =>
    obtain ⟨l, size, is⟩ := ih
    rw [State.seize_succ, is]
    exact ⟨_, by simpa using size, rfl⟩

theorem State.clasp_seize {n j : Nat} (inside : j < s.crowns.clasps.length) :
    (s.seize n b c).clasp j = if j < n then (s.clasp j).take b c else s.clasp j := by
  induction n with
  | zero => rfl
  | succ n ih =>
    rw [State.seize_succ]
    obtain rfl | apart := eq_or_ne n j
    · obtain ⟨l, size, is⟩ := s.seize_frame b c n
      rw [State.clasp_setClasp_same _ _ (by rw [is]; exact size ▸ inside), ih, if_neg (lt_irrefl _),
        if_pos (Nat.lt_succ_self _)]
    · rw [State.clasp_setClasp_ne _ _ apart, ih]
      exact if_congr (by omega) rfl rfl

theorem State.crown_seize (n : Nat) (x : Bool) : (s.seize n b c).crown x = s.crown x := by
  obtain ⟨l, -, is⟩ := s.seize_frame b c n
  rw [is]
  rfl

end

/-! `CLAIM_HI`. -/

theorem le_foldl_max (l : List Nat) (a : Nat) : a ≤ l.foldl max a ∧ ∀ x ∈ l, x ≤ l.foldl max a := by
  induction l generalizing a with
  | nil => simp
  | cons y l ih =>
    obtain ⟨low, all⟩ := ih (max a y)
    refine ⟨(le_max_left a y).trans low, fun x mem => ?_⟩
    obtain rfl | mem := List.mem_cons.1 mem
    · exact (le_max_right a x).trans low
    · exact all x mem

theorem foldl_max_le {l : List Nat} {a m : Nat} (first : a ≤ m) (all : ∀ x ∈ l, x ≤ m) : l.foldl max a ≤ m := by
  induction l generalizing a with
  | nil => exact first
  | cons y l ih =>
    exact ih (max_le first (all y (List.mem_cons_self ..))) fun x mem => all x (List.mem_cons_of_mem y mem)

theorem State.clasp_le_claimHi (s : State) (k : Nat) : (s.clasp k).claimHi.toNat ≤ s.claimHi := by
  rw [State.clasp, List.getD_eq_getElem?_getD]
  cases at_k : s.crowns.clasps[k]? with
  | none => exact Nat.zero_le _
  | some x =>
    exact (le_foldl_max _ 0).2 _ (List.mem_map_of_mem (List.mem_of_getElem? at_k))

theorem State.claimHi_le (s : State) : s.claimHi ≤ 65535 := by
  refine foldl_max_le (Nat.zero_le _) fun x mem => ?_
  obtain ⟨c, -, rfl⟩ := List.mem_map.1 mem
  have := c.claimHi.isLt
  omega

/-- While a takeover is possible claims are left. -/
theorem State.claimHi_lt {s : State} (can : s.takeOk = true) : s.claimHi < 65535 := by
  have left : s.claimHi ≠ 65535 := by
    simp only [State.takeOk, State.exhausted, Bool.and_eq_true] at can
    simpa using can.2
  have := s.claimHi_le
  omega

/-! A discarded output. -/

theorem State.event_crowns (s : State) (m : Nat) (d : Byte) (v : Word32) (r : Option Nat) :
    (s.event m d v r).1.crowns = s.crowns := by
  unfold State.event
  split
  · rfl
  · dsimp only
    split_ifs <;> rfl

theorem State.latchAlarm_crowns (s : State) (r : Nat) (a : Alarm) : (s.latchAlarm r a).crowns = s.crowns := by
  unfold State.latchAlarm
  dsimp only
  split_ifs <;> rfl

theorem State.noteEvent_crowns (s : State) (m : Nat) (d : Byte) : (s.noteEvent m d).crowns = s.crowns := by
  have kept := s.event_crowns m d 0 (some 0)
  unfold State.noteEvent
  dsimp only
  split
  · exact kept
  · split_ifs <;> exact (State.latchAlarm_crowns _ (s.event m d 0 (some 0)).1.tamper.rung _).trans kept

/-- A discarded output is counted at its clasp; the crowns' records are else unchanged. -/
theorem State.refuseOutput_crowns (s : State) (b : Bool) (k : Nat) : (s.refuseOutput b k).crowns =
    (s.setClasp k { s.clasp k with refused := min ((s.clasp k).refused + 1) (2 ^ 32 - 1) }).crowns :=
  State.noteEvent_crowns ..

/-- An output writes its clasp alone. -/
theorem State.claspOutput_crowns (s : State) (b : Bool) (k : Nat) :
    ∃ c, (s.claspOutput b k).crowns = (s.setClasp k c).crowns := by
  by_cases takes : (s.clasp k).accepts b (s.crown b).claim = true
  · exact ⟨_, congrArg State.crowns (State.claspOutput_accepted takes)⟩
  · exact ⟨_, (congrArg State.crowns (State.claspOutput_refused takes)).trans (s.refuseOutput_crowns b k)⟩

/-! A takeover (R606). -/

theorem State.resolve_none {s : State} (nothing : s.crowns.journal = none) : s.resolve = s := by
  rw [State.resolve, nothing]

theorem State.restartEngine_idle {s : State} {e : Nat} (idle : (s.eng e).inv = none) (env : Env) :
    s.restartEngine env e = s := by
  simp only [State.restartEngine, idle]

theorem State.restartEngines_idle {s : State} (idle : ∀ e, e < 4 → (s.eng e).inv = none) (env : Env) :
    (List.range 4).foldl (fun a e => a.restartEngine env e) s = s :=
  List.foldlRecOn (motive := fun a => a = s) _ _ rfl fun a same e mem => by
    rw [same, State.restartEngine_idle (idle e (List.mem_range.1 mem))]

/-- Settles O56: with nothing to resolve and no invocation to restart, a takeover is its seize outputs and the records of
the two crowns. -/
theorem takeoverMade : Obligations.TakeoverMade := by
  unfold Obligations.TakeoverMade
  rintro s u cause env nothing idle rfl
  unfold State.takeOver
  extract_lets b claim t s1 k old old1 o new s2 k2 s3 s4
  obtain ⟨l, -, seized⟩ := t.2.seize_frame b claim 4
  have kept : s2.crowns.journal = none ∧ s2.applets = s.applets ∧ s2.hallmarks = s.hallmarks ∧ s2.keys = s.keys ∧
      s2.hostMem = s.hostMem := by
    simp only [s2, s1, seized, State.setCrown]
    split_ifs <;> exact ⟨nothing, rfl, rfl, rfl, rfl⟩
  obtain ⟨unopened, applets, hallmarks, keys, mem⟩ := kept
  have resolved : s4 = s3.bump 24 2 1 := State.resolve_none unopened
  have engines : ∀ e, s4.eng e = s.eng e := fun e => by
    rw [resolved]
    exact congrArg (fun a : Applets => tget {} a.engines e) applets
  rw [State.restartEngines_idle (fun e small => by rw [engines]; exact idle e small), resolved]
  have taker : s2.crown b = new := by simp [s2]
  have old_is : s2.crown (!b) = old1 := by simp [s2]
  have clasp : ∀ j, s2.clasp j = s1.clasp j := fun j => by simp [s2]
  refine ⟨rfl, congrArg Crown.st taker, congrArg Crown.claim taker, ?_, ?_, fun j low inside => ?_, rfl, rfl, hallmarks,
    keys, mem⟩
  · rw [show s.crowns.activeB = !b from (Bool.not_not _).symm]
    exact congrArg Crown.st old_is
  · rw [show s.crowns.activeB = !b from (Bool.not_not _).symm]
    exact congrArg Crown.heldInReset old_is
  · have taken : s2.clasp j = (t.2.clasp j).take b claim :=
      (clasp j).trans ((t.2.clasp_seize b claim inside).trans (if_pos low))
    exact ⟨congrArg Clasp.claimHi taken, congrArg Clasp.holder taken⟩

/-! A seize output refused (R608). -/

section
variable (s : State) (b : Bool) (k : Nat)

theorem State.crown_claspOutput (x : Bool) : (s.claspOutput b k).crown x = s.crown x := by
  obtain ⟨c, is⟩ := s.claspOutput_crowns b k
  unfold State.crown
  rw [is]
  rfl

theorem State.clasps_length_claspOutput :
    (s.claspOutput b k).crowns.clasps.length = s.crowns.clasps.length := by
  obtain ⟨c, is⟩ := s.claspOutput_crowns b k
  rw [is]
  exact List.length_set

theorem State.clasp_claspOutput_ne {j : Nat} (apart : k ≠ j) : (s.claspOutput b k).clasp j = s.clasp j := by
  obtain ⟨c, is⟩ := s.claspOutput_crowns b k
  rw [State.clasp, is]
  exact s.clasp_setClasp_ne c apart

variable {s b k}

theorem State.clasp_claspOutput_accepted (inside : k < s.crowns.clasps.length)
    (takes : (s.clasp k).accepts b (s.crown b).claim = true) :
    (s.claspOutput b k).clasp k = (s.clasp k).take b (s.crown b).claim := by
  rw [State.claspOutput_accepted takes, State.clasp_setClasp_same _ _ inside]

theorem State.clasp_claspOutput_refused (inside : k < s.crowns.clasps.length)
    (discards : ¬ (s.clasp k).accepts b (s.crown b).claim = true) :
    (s.claspOutput b k).clasp k = { s.clasp k with refused := min ((s.clasp k).refused + 1) (2 ^ 32 - 1) } := by
  rw [State.claspOutput_refused discards, State.clasp, State.refuseOutput_crowns]
  exact s.clasp_setClasp_same _ inside

end

/-- The other crown's claim is above every `CLAIM_HI`, and above the taker's or, from crown A, equal to it. -/
theorem higherClaim_above {taker : Bool} {m : Nat} {c : BitVec 16} (is : higherClaim taker (m + 1) = some c)
    (left : m < 65535) : m < c.toNat ∧ (m + 1 < c.toNat ∨ (BitVec.ofNat 16 (m + 1) = c ∧ taker = true)) := by
  unfold higherClaim at is
  split_ifs at is with low b
  · obtain rfl := Option.some.inj is
    have : (BitVec.ofNat 16 (m + 1 + 1)).toNat = m + 2 := Nat.mod_eq_of_lt (by omega)
    omega
  · obtain rfl := Option.some.inj is
    have : (BitVec.ofNat 16 (m + 1)).toNat = m + 1 := Nat.mod_eq_of_lt (by omega)
    exact ⟨by omega, .inr ⟨rfl, b⟩⟩

/-- Crown `b` with another claim. -/
def State.claiming (s : State) (b : Bool) (c : BitVec 16) : State := s.setCrown b { s.crown b with claim := c }

/-- Crown `b` has claimed `n` at the clasps below `k`, and the other crown has taken claim `c`. -/
def State.outbid (s : State) (b : Bool) (k : Nat) (n c : BitVec 16) : State :=
  ((s.claiming b n).seize k b n).claiming (!b) c

/-- The seize outputs with claim `n` of crown `b`, the last of them, at clasp `k`, after the other crown's output with
claim `c` there. -/
def State.seizeMet (s : State) (b : Bool) (k : Nat) (n c : BitVec 16) : State :=
  ((s.outbid b k n c).claspOutput (!b) k).claspOutput b k

section
variable {s : State} {b : Bool} {k j : Nat} {n c : BitVec 16}

theorem State.crown_outbid_taker : (s.outbid b k n c).crown b = { s.crown b with claim := n } := by
  simp [State.outbid, State.claiming, State.crown_seize]

theorem State.crown_outbid_other : (s.outbid b k n c).crown (!b) = { s.crown (!b) with claim := c } := by
  simp [State.outbid, State.claiming, State.crown_seize]

theorem State.clasp_outbid (inside : j < s.crowns.clasps.length) :
    (s.outbid b k n c).clasp j = if j < k then (s.clasp j).take b n else s.clasp j := by
  rw [State.outbid, State.claiming, State.clasp_setCrown, State.clasp_seize _ _ _ (by simpa [State.claiming] using inside),
    State.claiming, State.clasp_setCrown]

theorem State.clasps_length_outbid : (s.outbid b k n c).crowns.clasps.length = s.crowns.clasps.length := by
  obtain ⟨l, size, is⟩ := (s.claiming b n).seize_frame b n k
  rw [State.outbid, State.claiming, State.clasps_setCrown, is]
  exact size.trans (congrArg List.length (State.clasps_setCrown ..))

theorem State.crown_seizeMet_taker : (s.seizeMet b k n c).crown b = { s.crown b with claim := n } := by
  rw [State.seizeMet, State.crown_claspOutput, State.crown_claspOutput, State.crown_outbid_taker]

theorem State.crown_seizeMet_other : (s.seizeMet b k n c).crown (!b) = { s.crown (!b) with claim := c } := by
  rw [State.seizeMet, State.crown_claspOutput, State.crown_claspOutput, State.crown_outbid_other]

theorem State.clasp_seizeMet_ne (apart : k ≠ j) (inside : j < s.crowns.clasps.length) :
    (s.seizeMet b k n c).clasp j = if j < k then (s.clasp j).take b n else s.clasp j := by
  rw [State.seizeMet, State.clasp_claspOutput_ne _ _ _ apart, State.clasp_claspOutput_ne _ _ _ apart,
    State.clasp_outbid inside]

/-- The clasp where the outputs meet keeps the other crown's and counts the taker's as discarded. -/
theorem State.clasp_seizeMet_same (inside : k < s.crowns.clasps.length) (above : (s.clasp k).claimHi.toNat < c.toNat)
    (wins : n.toNat < c.toNat ∨ (n = c ∧ b = true)) : (s.seizeMet b k n c).clasp k =
      { claimHi := c, holder := some (!b), refused := min ((s.clasp k).refused + 1) (2 ^ 32 - 1) } := by
  have here : (s.outbid b k n c).clasp k = s.clasp k := (State.clasp_outbid inside).trans (if_neg (lt_irrefl k))
  have room : k < (s.outbid b k n c).crowns.clasps.length := by rwa [State.clasps_length_outbid]
  have takes : ((s.outbid b k n c).clasp k).accepts (!b) ((s.outbid b k n c).crown (!b)).claim = true := by
    rw [State.crown_outbid_other, here, Clasp.accepts_iff]
    exact .inl above
  have held := State.clasp_claspOutput_accepted room takes
  rw [State.crown_outbid_other, here] at held
  have discards : ¬ (((s.outbid b k n c).claspOutput (!b) k).clasp k).accepts b
      (((s.outbid b k n c).claspOutput (!b) k).crown b).claim = true := by
    rw [held, State.crown_claspOutput, State.crown_outbid_taker]
    refine Clasp.not_accepts (wins.imp id fun ⟨same, crownB⟩ => ⟨same, ?_, crownB⟩)
    simp [Clasp.take]
  rw [State.seizeMet, State.clasp_claspOutput_refused (by rwa [State.clasps_length_claspOutput]) discards, held]
  rfl

end

/-- Crown `b` is unfit, with no cause of a takeover left. -/
def State.seizeLost (s : State) (b : Bool) : State :=
  { (s.setCrown b { s.crown b with st := .unfit }) with
    crowns := { (s.setCrown b { s.crown b with st := .unfit }).crowns with due := [] } }

section
variable {s : State} {b : Bool}

theorem State.crown_seizeLost : (s.seizeLost b).crown b = { s.crown b with st := .unfit } := by
  cases b <;> rfl

theorem State.crown_seizeLost_other : (s.seizeLost b).crown (!b) = s.crown (!b) := by
  cases b <;> rfl

theorem State.clasp_seizeLost (k : Nat) : (s.seizeLost b).clasp k = s.clasp k := by
  cases b <;> rfl

end

/-- What SEIZE_TIMEOUT leaves: the outputs met, and the crown that was to take over unfit. -/
theorem exec_seizeTimeout {s : State} {k : Fin 4} {c : BitVec 16} (stage : 2 ≤ s.start.stage) (due : s.crowns.due ≠ [])
    (can : s.takeOk = true) (is : higherClaim (!s.crowns.activeB) (s.claimHi + 1) = some c) :
    exec (.seizeTimeout k) s = .next ((s.seizeMet (!s.crowns.activeB) k (BitVec.ofNat 16 (s.claimHi + 1)) c).seizeLost
      (!s.crowns.activeB)) := by
  change execSeizeTimeout k s = _
  rw [execSeizeTimeout, if_neg (by simp [due, can]; omega)]
  dsimp only
  rw [is]
  rfl

/-! Heartbeats, self-tests and reports. -/

section
variable {s : State}

theorem exec_heartbeatCheck {m : Nat} (stage : 2 ≤ s.start.stage) (standby : s.otherCrown.st = .standby)
    (missed : m = if s.activeCrown.heartbeat = s.otherCrown.lastSeen then s.otherCrown.missed + 1 else 0)
    {u : State} (is : u = s.setOther { s.otherCrown with lastSeen := s.activeCrown.heartbeat, missed := m }) :
    exec .heartbeatCheck s = .next (if max 2 s.crowns.miss.toNat ≤ m then u.addCause 1 else u).tamperBeat := by
  subst missed is
  change execHeartbeatCheck s = _
  rw [execHeartbeatCheck, if_neg (by omega), State.watchBeat]
  dsimp only
  rw [if_neg (by simp [standby])] <;> rfl

theorem State.patchGood_iff {b : Bool} : s.patchGood b = true ↔ s.nvm.patchImage = some (s.crown b).area := beq_iff_eq

theorem firstFail_none (b : Bool) : firstFail (s.patchGood b) none =
    if s.nvm.patchImage = some (s.crown b).area then none else some (1, 0) :=
  if_congr State.patchGood_iff rfl rfl

theorem firstFail_some (b : Bool) (t : Fin 7) (p : Byte) : firstFail (s.patchGood b) (some (t, p)) =
    if t = 0 ∨ s.nvm.patchImage = some (s.crown b).area then some (t.val, p.toNat) else some (1, 0) := by
  refine if_congr ?_ rfl rfl
  rw [Bool.or_eq_true, decide_eq_true_eq, State.patchGood_iff, Fin.ext_iff]
  rfl

theorem exec_selfTest {b : Bool} (fail : Option (Fin 7 × Byte)) (stage : 2 ≤ s.start.stage)
    (tested : (s.crown b).st = .standby ∨ (s.crown b).st = .unfit ∨ (s.crown b).st = .starting) :
    (firstFail (s.patchGood b) fail = none → exec (.selfTestLoopDone b fail) s = .next (s.setCrown b { s.crown b with
      st := .standby, loops := (s.crown b).loops + 1, loopFails := 0, testNow := 127 })) ∧
    (∀ t p, firstFail (s.patchGood b) fail = some (t, p) → exec (.selfTestLoopDone b fail) s = .next
      ((s.setCrown b { (s.crown b).failed t p with
        st := if 3 ≤ (s.crown b).loopFails + 1 then .out else .unfit
        loops := (s.crown b).loops + 1, loopFails := (s.crown b).loopFails + 1 }).raise 17 (if b then 1 else 0))) := by
  have other : (s.crown b).st ≠ .active := by rcases tested with h | h | h <;> simp [h]
  have runs : ¬ (!decide ((s.crown b).st = .standby ∨ (s.crown b).st = .unfit ∨ (s.crown b).st = .starting)) = true := by
    simp only [tested, decide_true, Bool.not_true, Bool.false_eq_true, not_false_eq_true]
  refine ⟨fun passes => ?_, fun t p fails => ?_⟩ <;>
    change execSelfTestLoopDone b fail s = _ <;> rw [execSelfTestLoopDone] <;> dsimp only <;>
    rw [if_neg (by omega), if_neg other, if_neg runs]
  · rw [passes]
  · rw [fails]

/-- The active crown runs test 6 alone. -/
theorem exec_selfTest_active {b : Bool} (stage : 2 ≤ s.start.stage) (active : (s.crown b).st = .active) :
    exec (.selfTestLoopDone b none) s = .next s ∧
    ∀ (p : Byte) (u : State), u = s.setCrown b { (s.crown b).failed 5 p.toNat with testNow := (s.crown b).testNow } →
      exec (.selfTestLoopDone b (some (5, p))) s = .next (if u.takeOk then u.addCause 3 else u.crownLost) := by
  refine ⟨?_, ?_⟩
  · change execSelfTestLoopDone b none s = _
    rw [execSelfTestLoopDone]
    dsimp only
    rw [if_neg (by omega), if_pos active]
  · rintro p u rfl
    change execSelfTestLoopDone b (some (5, p)) s = _
    rw [execSelfTestLoopDone]
    dsimp only
    rw [if_neg (by omega), if_pos active] <;> rfl

theorem exec_reportCheck (stage : 2 ≤ s.start.stage) (there : s.otherCrown.st ≠ .out) :
    (s.otherCrown.report ≠ s.crowns.standbySeen → exec .standbyReportCheck s = .next
      { s with crowns := { s.crowns with standbySeen := s.otherCrown.report, standbyStale := 0 } }) ∧
    (s.otherCrown.report = s.crowns.standbySeen → s.crowns.standbyStale < 3 → exec .standbyReportCheck s = .next
      { s with crowns := { s.crowns with standbyStale := s.crowns.standbyStale + 1 } }) := by
  have runs : ¬ (s.start.stage < 2 ∨ s.otherCrown.st = .out) := by simp [there]; omega
  refine ⟨fun new => ?_, fun stale few => ?_⟩ <;>
    change execStandbyReportCheck s = _ <;> rw [execStandbyReportCheck] <;> dsimp only <;> rw [if_neg runs]
  · rw [if_pos new]
  · rw [if_neg (not_not.2 stale), if_pos (by omega)]

theorem exec_rejoinAuto (stage : 2 ≤ s.start.stage) (due : s.crowns.rejoinDue = true)
    (gone : s.otherCrown.st = .out ∨ s.otherCrown.st = .unfit) :
    exec .rejoinAuto s = .next (s.rejoin (!s.crowns.activeB)) := by
  change execRejoinAuto s = _
  rw [execRejoinAuto]
  dsimp only
  rw [if_neg (by simp [due, gone]; omega)]

end

/-- Settles O55: each event by its own branch; a seize that fails by the outputs that meet at its clasp. -/
theorem crownEvents : Obligations.CrownEvents := by
  unfold Obligations.CrownEvents
  refine ⟨fun s stage => ⟨?_, ?_, ?_⟩, fun s u m stage standby missed is => ⟨fun few => ?_, fun many => ?_⟩,
    fun s i stage => ⟨fun can => ?_, fun cannot => ?_⟩, fun s c env stage due can => ?_, ?_, ?_, ?_,
    fun s stage there => exec_reportCheck stage there, ?_⟩
  · exact congrArg Host.Outcome.next (if_neg (by omega))
  · exact congrArg Host.Outcome.next (if_neg (by omega))
  · exact congrArg Host.Outcome.next (if_neg (by omega))
  · rw [exec_heartbeatCheck stage standby missed is, if_neg (by omega)]
  · rw [exec_heartbeatCheck stage standby missed is, if_pos many]
  · exact congrArg Host.Outcome.next ((if_neg (by omega)).trans (if_pos can))
  · exact congrArg Host.Outcome.next ((if_neg (by omega)).trans (if_neg (by simp [cannot])))
  · exact congrArg Host.Outcome.next (if_neg (by simp [due, can]; omega))
  · rintro s k n a stage due can rfl rfl
    refine ⟨fun keeps => ?_, fun c is => ?_⟩
    · change execSeizeTimeout k s = _
      rw [execSeizeTimeout, if_neg (by simp [due, can]; omega)]
      dsimp only
      rw [keeps]
    · obtain ⟨above, wins⟩ := higherClaim_above is (State.claimHi_lt can)
      have size : (BitVec.ofNat 16 (s.claimHi + 1)).toNat = s.claimHi + 1 :=
        Nat.mod_eq_of_lt (Nat.succ_lt_succ (State.claimHi_lt can))
      refine ⟨_, exec_seizeTimeout stage due can is, rfl, ?_, ?_, fun j inside => ?_⟩
      · rw [State.crown_seizeLost, State.crown_seizeMet_taker]
      · have other := State.crown_seizeLost_other
          (s := s.seizeMet (!s.crowns.activeB) k (BitVec.ofNat 16 (s.claimHi + 1)) c) (b := !s.crowns.activeB)
        rwa [State.crown_seizeMet_other, Bool.not_not] at other
      · rw [State.clasp_seizeLost]
        obtain rfl | apart := eq_or_ne k j
        · rw [if_neg (lt_irrefl _), if_pos rfl, State.clasp_seizeMet_same inside
            ((s.clasp_le_claimHi k).trans_lt above) (size.symm ▸ wins), Bool.not_not]
        · rw [State.clasp_seizeMet_ne (Fin.val_ne_of_ne apart) inside, if_neg (α := Clasp) apart.symm]
          rfl
  · intro s b fail v stage tested is
    have first : v = firstFail (s.patchGood b) fail := by
      rw [is]
      rcases fail with _ | ⟨t, p⟩
      · exact (firstFail_none b).symm
      · exact (firstFail_some b t p).symm
    obtain ⟨passes, fails⟩ := exec_selfTest fail stage tested
    exact ⟨fun none_ => passes (first ▸ none_), fun t p some_ => fails t p (first ▸ some_)⟩
  · rintro s u b p stage active
    obtain ⟨idle, fails⟩ := exec_selfTest_active stage active
    exact ⟨idle, fun is => fails p u is⟩
  · rintro s u stage due gone rfl
    rw [exec_rejoinAuto stage due gone]
    obtain ⟨n, v, y, r, noted⟩ := noteTie_frame s (.sys 0x07 0)
    rw [State.rejoin, noted]
    rfl

end Sys2Proof.Machine
end

