-- ==== Sys2Proof/Proofs/Management.lean ====
section
/-!
PROOF. Register access by address (R806 to R815), SMBus (R858 to R860) and JTAG (R667, R673, R674).
-/

namespace Sys2Proof.Machine

/-! Reads and writes of registers. -/

section
variable {s : State} {fn : Fin 32} {addr : BitVec 25}

/-- A function that exists reads an aligned word from where its address leads. -/
theorem exec_read_aligned (stage : 3 ≤ s.start.stage) (exists_ : s.fnExists fn = true) (aligned : addr.toNat % 4 = 0) :
    (∀ p, placeOf fn addr.toNat = .reg p → exec (.loRegisterRead fn addr) s = .next (s.rdReg fn p addr.toNat)) ∧
    (∀ o, placeOf fn addr.toNat = .mirror o → exec (.loRegisterRead fn addr) s = .next (s.answerRead (s.mirrorWord o))) ∧
    (placeOf fn addr.toNat = .barred → exec (.loRegisterRead fn addr) s = .next
      ((s.violation 1 fn false addr.toNat).answerRead 0)) := by
  have runs : ¬ (s.start.stage < 3 ∨ (!s.fnExists fn) = true) := by simp [exists_]; omega
  refine ⟨fun p place => ?_, fun o place => ?_, fun place => ?_⟩ <;>
    change execLoRegisterRead fn addr s = _ <;> rw [execLoRegisterRead] <;> dsimp only <;>
    rw [if_neg runs, if_neg (not_not.2 aligned), place]

/-- A write of one whole word goes where its address leads. -/
theorem exec_write_aligned (stage : 3 ≤ s.start.stage) (exists_ : s.fnExists fn = true) (value : Word32) :
    (∀ p, placeOf fn (addr.toNat / 4 * 4) = .reg p → exec (.registerWrite fn addr value true) s = .next
      (s.wrReg fn p value.toNat addr.toNat)) ∧
    (∀ o, placeOf fn (addr.toNat / 4 * 4) = .mirror o → exec (.registerWrite fn addr value true) s = .next
      (s.violation 4 fn true addr.toNat)) ∧
    (placeOf fn (addr.toNat / 4 * 4) = .barred → exec (.registerWrite fn addr value true) s = .next
      (s.violation 1 fn true addr.toNat)) := by
  have runs : ¬ (s.start.stage < 3 ∨ (!s.fnExists fn) = true) := by simp [exists_]; omega
  refine ⟨fun p place => ?_, fun o place => ?_, fun place => ?_⟩ <;>
    change execRegisterWrite fn addr value true s = _ <;> rw [execRegisterWrite] <;> dsimp only <;>
    rw [if_neg runs, if_neg (by decide), place]

/-- A register that may be read now, and neither captures nor measures, answers by its latch (R814). -/
theorem State.rdReg_open {f p a : Nat} (measured : p < 0x100 ∨ 0x140 ≤ p) (raw : p ≠ 0x70200)
    (allowed : ((0x70200 ≤ p ∧ p < 0x70240) ∨ (0xB0040 ≤ p ∧ p < 0xB0064)) → s.lcs = .test) :
    (isLatched p = true → s.rdReg f p a = s.answerRead (tget 0 s.glb.latches p)) ∧
    (∀ h, isLatched p = false → latchOf p = some h → s.rdReg f p a =
      ({ s with glb := { s.glb with latches := tset 0 s.glb.latches h (s.pfReg h) } } : State).answerRead (s.pfReg p)) ∧
    (isLatched p = false → latchOf p = none → s.rdReg f p a = s.answerRead (s.pfReg p)) := by
  have barred : ¬ (((decide (0x70200 ≤ p) && decide (p < 0x70240)) || (decide (0xB0040 ≤ p) && decide (p < 0xB0064))) &&
      s.lcs != .test) = true := by
    simp only [Bool.and_eq_true, Bool.or_eq_true, decide_eq_true_eq, bne_iff_ne, not_and, not_not]
    exact allowed
  have unmeasured : ¬ (0x100 ≤ p ∧ p < 0x140) := by omega
  refine ⟨fun latched => ?_, fun h free latches => ?_, fun free plain => ?_⟩ <;> rw [State.rdReg] <;> dsimp only <;>
    rw [if_neg barred, if_neg raw, if_neg unmeasured]
  · rw [if_pos latched]
  · rw [if_neg (by simp [free]), latches]
  · rw [if_neg (by simp [free]), plain]

/-- No register shows the latches. -/
theorem State.pfReg_latches (l : List (Nat × Word32)) (p : Nat) :
    ({ s with glb := { s.glb with latches := l } } : State).pfReg p = s.pfReg p := rfl

end

/-! JTAG. -/

section
variable {s : State}

theorem State.jtag_on (stage : 2 ≤ s.start.stage) (i : JtagIr) (b : Option Bytes) :
    s.jtag i b = { s with out := { s.out with jtag := b, jtagIr := i.code } } := by
  rw [State.jtag, if_neg (by omega)]

/-- Nothing is driven out before S2 (R854). -/
theorem State.jtag_off (stage : s.start.stage < 2) (i : JtagIr) (b : Option Bytes) :
    s.jtag i b = { s with out := { s.out with jtag := none, jtagIr := i.code } } := by
  rw [State.jtag, if_pos stage]

theorem exec_bypass (powered : s.start.stage ≠ 0) : exec .bypass s = .next (s.jtag .bypass (some [0])) :=
  congrArg Host.Outcome.next (if_neg powered)

theorem exec_idcode (powered : s.start.stage ≠ 0) : exec .idcode s = .next
    ((s.freshBytes 4).2.jtag .idcode (some ((byteAt (s.freshBytes 4).1 0 ||| 1) :: (s.freshBytes 4).1.drop 1))) :=
  congrArg Host.Outcome.next (if_neg powered)

theorem exec_samplePreload (powered : s.start.stage ≠ 0) (pins : Bytes) : exec (.samplePreload pins) s = .next
    (({ (s.freshBytes pins.length).2 with out := { (s.freshBytes pins.length).2.out with scan := pins } } :
      State).jtag .sample (some (s.freshBytes pins.length).1)) :=
  congrArg Host.Outcome.next (if_neg powered)

theorem exec_extest_open (powered : s.start.stage ≠ 0) (pins : Bytes) (scope : s.scopeOpen 2 = true) :
    exec (.extest pins) s = .next
      (({ (s.freshBytes pins.length).2 with out := { (s.freshBytes pins.length).2.out with scan := pins } } :
        State).jtag .extest (some (s.freshBytes pins.length).1)) :=
  congrArg Host.Outcome.next ((if_neg powered).trans (if_neg (by simp [scope])))

theorem exec_extest_shut (powered : s.start.stage ≠ 0) (pins : Bytes) (scope : s.scopeOpen 2 = false) :
    exec (.extest pins) s = .next (s.jtag .extest none) :=
  congrArg Host.Outcome.next ((if_neg powered).trans (if_pos (by simp [scope])))

theorem exec_knaquel_open (powered : s.start.stage ≠ 0) {x : Knaquel} (scope : (knaquelScope x).any s.scopeOpen = true) :
    exec (.knaquelPrivateInstruction x) s = .next
      (if x = .contexts then s.jtag .own (some (zeros 64))
      else (s.freshBytes 64).2.jtag .own (some (s.freshBytes 64).1)) :=
  congrArg Host.Outcome.next ((if_neg powered).trans (if_neg (by simp [scope])))

theorem exec_knaquel_shut (powered : s.start.stage ≠ 0) {x : Knaquel} (scope : (knaquelScope x).any s.scopeOpen = false) :
    exec (.knaquelPrivateInstruction x) s = .next (s.jtag .own none) :=
  congrArg Host.Outcome.next ((if_neg powered).trans (if_pos (by simp [scope])))

end

/-- Settles O57: each access by where its address leads, each instruction by its scope. -/
theorem managementAccess : Obligations.ManagementAccess := by
  unfold Obligations.ManagementAccess
  refine ⟨fun s fn addr stage exists_ => ⟨fun unaligned => ?_, fun aligned at_ => ?_, fun aligned o at_ => ?_,
    fun aligned p at_ measured raw allowed => ⟨fun h latches free => ?_, fun latched => ?_, fun free plain => ?_⟩,
    fun value => ?_, fun value => (exec_write_aligned stage exists_ value).2.1,
    fun value => (exec_write_aligned stage exists_ value).2.2, fun value => (exec_write_aligned stage exists_ value).1⟩,
    fun s command data b t stage fresh => ⟨?_, ?_⟩, fun _ => rfl, fun s first => ⟨?_, ?_⟩,
    fun s t pins b stage => ?_⟩
  · exact congrArg Host.Outcome.next ((if_neg (by simp [exists_]; omega)).trans (if_pos unaligned))
  · exact (exec_read_aligned stage exists_ aligned).2.2 at_
  · exact (exec_read_aligned stage exists_ aligned).2.1 o at_
  · obtain ⟨reads, -, -⟩ := exec_read_aligned stage exists_ aligned
    rw [reads p at_, (State.rdReg_open measured raw allowed).2.1 h free latches]
    exact congrArg _ (congrArg _ (State.pfReg_latches ..).symm)
  · obtain ⟨reads, -, -⟩ := exec_read_aligned stage exists_ aligned
    rw [reads p at_, (State.rdReg_open measured raw allowed).1 latched]
  · obtain ⟨reads, -, -⟩ := exec_read_aligned stage exists_ aligned
    rw [reads p at_, (State.rdReg_open measured raw allowed).2.2 free plain]
  · exact congrArg Host.Outcome.next ((if_neg (by simp [exists_]; omega)).trans (if_pos rfl))
  · exact congrArg Host.Outcome.next (if_neg (by omega))
  · refine congrArg Host.Outcome.next ((if_neg (by omega)).trans ?_)
    rw [fresh]
  · rw [exec_bypass (by omega), State.jtag_off (by omega)]
    rfl
  · exact ⟨_, exec_idcode (by omega), by rw [State.jtag_off (by change s.start.stage < 2; omega)]; rfl⟩
  · have powered : s.start.stage ≠ 0 := by omega
    have kept : ∀ {n}, s.freshBytes n = (b, t) → 2 ≤ t.start.stage := by
      rintro n ⟨rfl, rfl⟩
      exact stage
    refine ⟨?_, fun fresh => ?_, fun fresh => ?_, fun fresh scope => ?_, fun scope => ?_, fun x fresh scope is => ?_,
      fun fresh scope => ?_, fun scope => ?_, fun x scope => ?_⟩
    · rw [exec_bypass powered, State.jtag_on stage]
      rfl
    · rw [exec_idcode powered, fresh, State.jtag_on (kept fresh)]
      rfl
    · rw [exec_samplePreload powered, fresh, State.jtag_on]
      · rfl
      · exact kept fresh
    · rw [exec_extest_open powered _ scope, fresh, State.jtag_on]
      · rfl
      · exact kept fresh
    · rw [exec_extest_shut powered _ scope, State.jtag_on stage]
      rfl
    · subst is
      rw [exec_knaquel_open (x := .trace) powered scope, if_neg (by decide), fresh, State.jtag_on (kept fresh)]
      rfl
    · rw [exec_knaquel_open (x := .pipeline) powered scope, if_neg (by decide), fresh, State.jtag_on (kept fresh)]
      rfl
    · rw [exec_knaquel_open (x := .contexts) powered scope, if_pos rfl, State.jtag_on stage]
      rfl
    · rw [exec_knaquel_shut powered scope, State.jtag_on stage]
      rfl

end Sys2Proof.Machine
end

