-- ==== Sys2Proof/Proofs/CardEvents.lean ====
section
/-!
PROOF. Events of the card ports (R719 to R751, R857): detection, the busy card, the ports switched off, and what each
answer of a card leads to, by the phase of the job in progress.
-/

namespace Sys2Proof.Machine

theorem stageBars_crd (s : State) : s.stageBars 0xD0000 = false := by
  simp [State.stageBars]

/-! Detection. -/

section
variable {s : State}

theorem State.sdDetect_in (wp : Bool) (gone : s.cards.sd.present = false) : s.sdDetect true wp =
    s.modSd fun y => { y with wp := wp, present := true, st := .present, evtInserted := true } := by
  rw [State.sdDetect]
  dsimp only
  rw [if_neg (by simp [gone]), if_pos rfl]
  rfl

theorem State.sdDetect_out (wp : Bool) (there : s.cards.sd.present = true) {u : State} (is : u = (s.modSd fun y =>
      { ({ y with wp := wp, present := false } : Sd).off with evtRemoved := true }).cardCount 3 1) :
    s.sdDetect false wp = if s.cardBusy true then u.cardFail true .cardGone else u := by
  subst is
  rw [State.sdDetect]
  dsimp only
  rw [if_neg (by simp [there]), if_neg (by decide)]
  rfl

theorem State.ccDetect_in (gone : s.cards.cc.present = false) : s.ccDetect true =
    s.modCc fun y => { y with present := true, evtInserted := true } := by
  rw [State.ccDetect]
  dsimp only
  rw [if_neg (by simp [gone]), if_pos rfl]

theorem State.ccDetect_out (there : s.cards.cc.present = true) {u : State} (is : u = (s.modCc fun y =>
      { y.deactivate with present := false, evtRemoved := true }).cardCount 7 1) :
    s.ccDetect false = if s.cardBusy false then u.cardFail false .cardGone else u := by
  subst is
  rw [State.ccDetect]
  dsimp only
  rw [if_neg (by simp [there]), if_neg (by decide)]

theorem exec_sdDetect (stage : 2 ≤ s.start.stage) (present wp : Bool) :
    exec (.sdCardDetect present wp) s = .next (s.sdDetect present wp).onward :=
  congrArg Host.Outcome.next (if_neg (by omega))

theorem exec_ccDetect (stage : 2 ≤ s.start.stage) (present : Bool) :
    exec (.ccCardDetect present) s = .next (s.ccDetect present).onward :=
  congrArg Host.Outcome.next (if_neg (by omega))

/-! The busy card, and the ports switched off. -/

theorem State.sdBusyEnd_is {j : CardJob} {n : Nat} (job : s.cards.job = some j) (phase : j.phase = .wrBusy n) :
    s.sdBusyEnd = (s.sdCommand 13 s.cards.sd.rcaArg).cardJob { j with phase := .wrStatus n } := by
  simp only [State.sdBusyEnd, job, phase]

theorem State.sdBusyTimeout_is {j : CardJob} {n : Nat} (job : s.cards.job = some j) (phase : j.phase = .wrBusy n) :
    s.sdBusyTimeout = ((s.modSd fun x => { x with evtTimeout := true }).cardCount 2 1).cardFail true .cardError := by
  simp only [State.sdBusyTimeout, job, phase]

theorem State.ccOff_is : s.ccOff =
    if s.cardBusy false then (s.modCc Cc.deactivate).cardFail false .cardError else s.modCc Cc.deactivate := rfl

theorem State.sdOff_is : s.sdOff =
    if s.cardBusy true then (s.modSd Sd.off).cardFail true .cardGone else s.modSd Sd.off := rfl

theorem exec_ccDeact (stage : 3 ≤ s.start.stage) : exec (.ccDeact 0) s = .next s.ccOff.onward :=
  congrArg Host.Outcome.next (pfWrite_pf (fun x => x.ccOff.onward) stage (stageBars_crd s))

theorem exec_sdOff (stage : 3 ≤ s.start.stage) : exec (.sdOff 0) s = .next s.sdOff.onward :=
  congrArg Host.Outcome.next (pfWrite_pf (fun x => x.sdOff.onward) stage (stageBars_crd s))

theorem exec_currentLimit (on : s.cards.cc.active = true ∨ s.cardBusy false = true) :
    exec .ccVccCurrentLimit s = .next s.ccOff.onward :=
  congrArg Host.Outcome.next (if_pos (by simpa using on))

end

/-! Answers of the card, by the job's phase. -/

section
variable {s : State} {j : CardJob} {jr : Journal} {d : Desc} {g : Got}
variable (desc : s.crownDesc = some (jr, d, g)) (job : s.cards.job = some j)
include desc job

theorem State.cardAnswer_sd (sd : j.phase.isSd = true) (idle : ∀ n, j.phase ≠ .wrBusy n) (r : CardResp) :
    s.cardAnswer r = s.sdAnswer d j r := by
  rw [State.cardAnswer, job, desc]
  dsimp only
  split
  · next n busy => exact absurd busy (idle n)
  · exact if_pos sd

theorem State.cardAnswer_cc (cc : j.phase.isSd = false) (r : CardResp) : s.cardAnswer r = s.ccAnswer d j r := by
  rw [State.cardAnswer, job, desc]
  dsimp only
  split
  · next n busy => exact absurd (show (CardPhase.wrBusy n).isSd = false from busy ▸ cc) (fun h => nomatch h)
  · exact if_neg (by simp [cc])

end

section
variable {s : State} {j : CardJob} {jr : Journal} {d : Desc} {g : Got} {n : Nat} {b y : Bytes}

/-- A response to the command that addresses a block brings the block. -/
theorem State.sdResp_wrCmd (phase : j.phase = .wrCmd n) (read : readR48 24 b = .ok y) (good : r1Error y = false) :
    s.sdResp j b = s.sendBlock j n := by
  simp only [State.sdResp, phase, State.sdTake, read, good, Bool.false_eq_true, if_false]

/-- A status of the transfer state confirms the block. -/
theorem State.sdResp_wrStatus (phase : j.phase = .wrStatus n) (read : readR48 13 b = .ok y) (good : r1Error y = false)
    (tran : r1Tran y = true) : s.sdResp j b = s.blockWritten j n := by
  simp only [State.sdResp, phase, State.sdTake, read, good, tran, Bool.not_true, Bool.or_self, Bool.false_eq_true,
    if_false]

theorem readR48_crc {cmd : Nat} (size : b.length = 6) (bad : byteAt b 5 ≠ crcEnd (b.take 5)) :
    readR48 cmd b = .crc := by
  rw [readR48, if_neg (not_not.2 size), if_pos bad]

/-- A CRC failure outside the identification leaves the card as it was. -/
theorem State.sdError_crc (ready : s.cards.sd.st ≠ .identifying) : s.sdError true =
    ((s.modSd fun y => { y with evtChk := true }).cardCount 1 1).cardFail true .cardError := by
  simp only [State.sdError, ready, if_false, if_true, Bool.or_true]

theorem State.sdBlockOk_crc {l : List (BitVec 16)} (size : b.length = n) (bad : l ≠ blockCrcs s.cards.sd.width4 b) :
    s.sdBlockOk n b l = .crc := by
  rw [State.sdBlockOk, if_neg (not_not.2 size), if_pos bad]

/-- A try of ACMD41 begins with CMD55. -/
theorem State.identTry_first (v2 : Bool) : s.identTry j 0 v2 =
    (s.sdCommand 55 0).cardJob { j with phase := .ident (.app41 0 v2) } := by
  rw [State.identTry, if_neg (by decide)]
  rfl

/-- Block `n` is confirmed, `v` the state that says so: the next one follows, or after a takeover the write ends. -/
theorem State.blockWritten_is {v : State} (is : v = { s with cards := { s.cards with
      blocksDone := n + 1, sd := { s.cards.sd with confirmed := n + 1 } } }) (desc : s.crownDesc = some (jr, d, g)) :
    (jr.outcome = none → s.blockWritten j n = v.writeNext j (n + 1)) ∧
    (jr.state = .intent → jr.outcome ≠ none → n + 1 < j.blocks.length → s.blockWritten j n =
      (v.cardEnd true).crownClose { jr with outcome := some 0 } (v.standbyCpl d 0)) := by
  have same : v.crownDesc = some (jr, d, g) := by
    rw [is]
    exact desc
  have taken : v.takenOver = if jr.state = .intent ∧ jr.outcome.isSome then some (jr, d) else none := by
    rw [State.takenOver, same]
  refine ⟨fun free => ?_, fun intent met more => ?_⟩ <;> rw [State.blockWritten] <;> dsimp only <;> rw [← is, taken]
  · rw [if_neg (by simp [free])]
  · have unsealed : (j.blocks.length == n + 1) = false := by simpa using more.ne'
    rw [if_pos ⟨intent, Option.isSome_iff_ne_none.2 met⟩]
    dsimp only
    rw [unsealed]
    rfl

end

/-! Answers of the contact card. -/

section
variable {s : State} {j : CardJob} {d : Desc} {b : Bytes}

/-- An APDU is answered with 90 00. -/
theorem State.apduAnswer_ok : s.apduAnswer d j b 0x9000 =
    ((s.modCc fun c => { c with lastSw := 0x9000 }).modCc fun c => { c with apdus := c.apdus + 1 }).apduOk d j b := by
  simp [State.apduAnswer]

/-- After SELECT the card's information is asked for, but for a share of a `RESTORE`. -/
theorem State.apduOk_select (phase : j.phase = .select) (asks : (d.is .cerShare && d.fld 24 1 == 0) = false) :
    s.apduOk d j b = s.sendApdu j .info apduInfo := by
  simp only [State.apduOk, phase, asks, Bool.false_eq_true, if_false]

theorem State.ccAnswer_select (phase : j.phase = .select) :
    s.ccAnswer d j (.chars b) = if s.cards.cc.t1 then s.t1Answer d j b else s.t0Answer d j b := by
  simp only [State.ccAnswer, phase]

/-- The first I-block of a response brings all of it: `inf` ends with the status word 90 00. -/
theorem State.t1Info_ok {pcb : Byte} {y inf : Bytes}
    (number : pcb = if s.cards.cc.nr then 0x40 else 0) (sent : j.x.toSend = []) (phase : j.phase = .select)
    (sync : j.x.sync = false) (first : j.x.rx = []) (is : inf = y ++ [0x90, 0x00])
    (asks : (d.is .cerShare && d.fld 24 1 == 0) = false) : s.t1Info d j pcb inf =
    ((((s.modCc fun c => { c with nr := !c.nr }).modCc fun c => { c with lastSw := 0x9000 }).modCc fun c =>
      { c with apdus := c.apdus + 1 }).sendApdu { j with retry := 0, x := { j.x with rx := inf } } .info apduInfo) := by
  have bit6 : pcb.getLsbD 6 = s.cards.cc.nr ∧ pcb.getLsbD 5 = false := by
    rw [number]
    cases s.cards.cc.nr <;> decide
  obtain ⟨bit6, bit5⟩ := bit6
  have size : inf.length - 2 = y.length := by simp [is]
  have word : BitVec.ofNat 16 (beNat (inf.drop (inf.length - 2))) = 0x9000 := by
    rw [size, is, List.drop_left]
    rfl
  rw [State.t1Info]
  dsimp only
  rw [bit6, if_neg (by simp [sent, phase, sync]), first, List.nil_append, bit5, if_neg (by decide),
    if_neg (by simp [is]), word, State.apduAnswer_ok]
  refine State.apduOk_select ?_ asks
  exact phase

/-- The block of a T=1 response, whatever its send number. -/
theorem State.t1Answer_info {pcb : Byte} {inf : Bytes} (read : t1Read s.cards.cc.crc b = some (pcb, inf))
    (number : pcb = if s.cards.cc.nr then 0x40 else 0) : s.t1Answer d j b = s.t1Info d j pcb inf := by
  have bit7 : pcb.getLsbD 7 = false := by
    rw [number]
    cases s.cards.cc.nr <;> decide
  rw [State.t1Answer, read]
  dsimp only
  rw [bit7, if_pos (by decide)]

/-- Under T=0 the exchange begins with SELECT. -/
theorem State.ccBegin_t0 (t0 : s.cards.cc.t1 = false) : s.ccBegin j = s.sendApdu j .select apduSelect :=
  if_neg (by simp [t0])

/-- The times of a card under T=0. -/
theorem Cc.rated_t0 {c : Cc} (t0 : c.t1 = false) (a : Atr) (fi fmax di : Nat) : c.rated a fi fmax di =
    { c with fi := fi, di := di, khz := min (100 * c.freq.toNat) (min fmax 5000), bwtMs := 0, cwtEtu := 0 } := by
  simp [Cc.rated, t0]

/-- The ATR 3B 00 names T=0 alone, and the default rates. -/
theorem parseAtr_default : parseAtr [0x3B, 0x00] = some {} := by decide

theorem State.atrRead_default (cls : Nat) : s.atrRead j cls [0x3B, 0x00] =
    ((s.modCc fun c => { c with
        active := true, error := false, atr := [0x3B, 0x00], t1 := false, ifsc := 32, crc := false, ns := false
        nr := false }).modCc fun c => { c with
        fi := 372, di := 1, khz := min (100 * c.freq.toNat) 5000, bwtMs := 0, cwtEtu := 0 }).sendApdu j .select
      apduSelect := by
  have rates : ({} : Atr).rates = (372, 5000, 1) := by decide
  rw [State.atrRead, parseAtr_default]
  dsimp only
  rw [Option.any_none, if_neg Bool.false_ne_true, if_neg (by decide), rates, if_neg (by simp), State.ccBegin_t0 rfl]
  exact congrArg (fun c : Cc => ({ s with cards := { s.cards with cc := c } } : State).sendApdu j .select apduSelect)
    (Cc.rated_t0 rfl {} 372 5000 1)

end

/-- Settles O45: each event by its own case, each answer by the phase that it finds. -/
theorem cardEvents : Obligations.CardEvents := by
  unfold Obligations.CardEvents
  refine ⟨fun s wp stage => ⟨fun gone => ?_, fun there free => ?_, fun there busy => ?_⟩,
    fun s stage => ⟨fun gone => ?_, fun there free => ?_, fun there busy => ?_⟩,
    fun s j n job phase => ⟨?_, ?_⟩, fun s stage => ⟨fun free => ?_, fun busy => ?_, fun free => ?_, fun busy => ?_⟩,
    fun s => ⟨fun busy => ?_, fun free on => ?_⟩, fun s j x jr d g desc job => ?_⟩
  · rw [exec_sdDetect stage, State.sdDetect_in wp gone]
  · rw [exec_sdDetect stage, State.sdDetect_out wp there rfl, if_neg (by simp [free])]
  · rw [exec_sdDetect stage, State.sdDetect_out wp there rfl, if_pos busy]
  · rw [exec_ccDetect stage, State.ccDetect_in gone]
  · rw [exec_ccDetect stage, State.ccDetect_out there rfl, if_neg (by simp [free])]
  · rw [exec_ccDetect stage, State.ccDetect_out there rfl, if_pos busy]
  · exact congrArg (fun t : State => Host.Outcome.next t.onward) (State.sdBusyEnd_is job phase)
  · exact congrArg (fun t : State => Host.Outcome.next t.onward) (State.sdBusyTimeout_is job phase)
  · rw [exec_ccDeact stage, State.ccOff_is, if_neg (by simp [free])]
  · rw [exec_ccDeact stage, State.ccOff_is, if_pos busy]
  · rw [exec_sdOff stage, State.sdOff_is, if_neg (by simp [free])]
  · rw [exec_sdOff stage, State.sdOff_is, if_pos busy]
  · rw [exec_currentLimit (.inr busy), State.ccOff_is, if_pos busy]
  · rw [exec_currentLimit (.inl on), State.ccOff_is, if_neg (by simp [free])]
  · have goes : ∀ {r t}, s.cardAnswer r = t → exec (.cardResponse r) s = .next t.onward :=
      fun e => congrArg (fun t : State => Host.Outcome.next t.onward) e
    have sd : ∀ {ph}, j.phase = ph → ph.isSd = true → (∀ n, ph ≠ .wrBusy n) → ∀ r, s.cardAnswer r = s.sdAnswer d j r := by
      rintro _ rfl sd idle r
      exact State.cardAnswer_sd desc job sd idle r
    have cc : ∀ {ph}, j.phase = ph → ph.isSd = false → ∀ r, s.cardAnswer r = s.ccAnswer d j r := by
      rintro _ rfl cc r
      exact State.cardAnswer_cc desc job cc r
    refine ⟨fun n b y phase is read good => goes ?_, fun n phase is => goes ?_, fun n v b y phase read good tran is => ?_,
      fun n b phase size bad ready => goes ?_, fun n b l phase size bad ready => goes ?_,
      fun isSd idle ident => goes ?_, fun phase => goes ?_, fun b y phase asks t1 fed => goes ?_,
      fun b inf pcb y phase asks t1 read number sent sync first is => goes ?_, fun cls phase _ => goes ?_⟩
    · rw [sd phase rfl nofun, is]
      exact State.sdResp_wrCmd phase read good
    · rw [sd phase rfl nofun, is]
      simp only [State.sdAnswer, phase, if_true]
    · obtain ⟨next, ends⟩ := State.blockWritten_is (j := j) is desc
      have written := (sd phase rfl nofun (.sd b)).trans (State.sdResp_wrStatus phase read good tran)
      exact ⟨fun free => goes (written.trans (next free)), fun intent met more => goes (written.trans (ends intent met more))⟩
    · rw [sd phase rfl nofun]
      simp only [State.sdAnswer, State.sdResp, phase, State.sdTake, readR48_crc size bad, State.sdError_crc ready]
    · rw [sd phase rfl nofun]
      simp only [State.sdAnswer, phase, State.sdTake, State.sdBlockOk_crc size bad, State.sdError_crc ready]
    · rw [State.cardAnswer_sd desc job isSd idle]
      exact if_neg ident
    · rw [sd phase rfl nofun]
      exact (if_pos phase).trans (State.identTry_first false)
    · rw [cc phase rfl, State.ccAnswer_select phase, if_neg (by simp [t1]), State.t0Answer, fed]
      exact State.apduAnswer_ok.trans (State.apduOk_select phase asks)
    · rw [cc phase rfl, State.ccAnswer_select phase, if_pos t1, State.t1Answer_info read number]
      exact State.t1Info_ok number sent phase sync first is asks
    · rw [cc phase rfl]
      simp only [State.ccAnswer, phase]
      exact State.atrRead_default cls

end Sys2Proof.Machine
end

