-- ==== Sys2Proof/Proofs/VaultCrown.lean ====
section
/-!
PROOF. The crown's vault descriptors (R440 to R448): an import whose root write the pip clasp discards. The statement
leaves out that a verified image replaces the root through clasp 3 (R411), so it fails there; the counterexample is the
image of no lines, whose checks hold by its own layout.
-/

namespace Sys2Proof.Machine

/-! An image of no lines. -/

theorem length_aesE (key b : Bytes) : (aesE key b).length = 16 := by
  unfold aesE
  exact length_fit _ _

theorem length_cmac (key m : Bytes) : (cmac key m).length = 16 := length_aesE _ _

/-- The header of 128 bytes, the digest's 64 and the code: an image that shows no line and no node. -/
theorem checkImage_empty {vek vmk head tail : Bytes} (size : head.length = 128) (count : leField head 24 8 = 0)
    (root : slice head 64 64 = zeros 64) (room : tail.length = 64) (sum : tail.take 48 = sha384 head) :
    checkImage vek vmk (head ++ (tail ++ cmac vmk (0xFF :: tail))) = some ([], []) := by
  have none_ : leField (head ++ (tail ++ cmac vmk (0xFF :: tail))) 24 8 = 0 := by
    rw [leField, slice_append_left (by omega)]
    exact count
  have top : slice (head ++ (tail ++ cmac vmk (0xFF :: tail))) 64 64 = zeros 64 := by
    rw [slice_append_left (by omega), root]
  have body : (head ++ (tail ++ cmac vmk (0xFF :: tail))).take 128 = head := List.take_left' size
  have end_ : slice (head ++ (tail ++ cmac vmk (0xFF :: tail))) 128 64 = tail := by
    rw [slice_append_right size, slice_append_left (by omega), ← room, slice_full]
  have code : slice (head ++ (tail ++ cmac vmk (0xFF :: tail))) 192 16 = cmac vmk (0xFF :: tail) := by
    rw [← List.append_assoc, slice_append_right (by simp [size, room]), ← length_cmac vmk (0xFF :: tail), slice_full]
  have rootless : (((List.range 4).map fun j => (j, childVersion (zeros 64) j)).filter fun k => k.2 != 0) = [] := by
    decide
  have tree : checkTree vmk [] (zeros 64) = some ([], []) := by
    rw [checkTree]
    dsimp only
    rw [rootless]
    rfl
  rw [checkImage]
  dsimp only
  rw [none_]
  simp only [Nat.mul_zero, Nat.add_zero]
  rw [body, end_, code, top, ← size, List.drop_length]
  rw [show streamLines [] = some [] from rfl]
  dsimp only
  rw [tree]
  exact if_pos ⟨rfl, sum, rfl⟩

/-! VAULT_IMPORT at step 8. -/

section
variable {u : State} {r seq : Nat} {p : Post} {d : Desc} {g : Got} {env : Env} {h data : Bytes}

theorem startOp_vaultImport (ok : vaultRefuse u (postDesc .vaultImport p) = none) :
    u.startOp r seq .vaultImport (postDesc .vaultImport p) g env = vaultImport u (postDesc .vaultImport p) g env := by
  change vaultStart _ _ _ _ _ _ = _
  simp [vaultStart, ok]

/-- A verified image whose root clasp 3 discards leaves the entry stuck, and the vault as it was (R411, R596). -/
theorem vaultImport_discarded {nodes : Tab Nat} {entries : Tab VEntry} (whole : u.vault.recordTorn = false)
    (header : u.gather env g.1 0 0 128 = .ok h) (good : importHeader u d (fit 128 h) = none)
    (read : u.readAll env g.1 = .ok data)
    (verified : checkImage (u.vault.vek.getD []) (u.vault.vmk.getD []) data = some (nodes, entries))
    (discards : (u.activeOutput 3).1 = false) : vaultImport u d g env = (u.activeOutput 3).2.entryStuck := by
  rw [vaultImport, if_neg (by simp [whole]), header]
  dsimp only
  rw [good]
  dsimp only
  rw [read]
  dsimp only
  rw [verified]
  dsimp only
  rw [discards]
  rfl

end

/-! Host memory when a unit begins. -/

section
variable (s : State)

theorem State.event_hostMem (m : Nat) (d : Byte) (v : Word32) (r : Option Nat) :
    (s.event m d v r).1.hostMem = s.hostMem := by
  unfold State.event
  split
  · rfl
  · dsimp only
    split_ifs <;> rfl

theorem State.latchAlarm_hostMem (r : Nat) (a : Alarm) : (s.latchAlarm r a).hostMem = s.hostMem := by
  unfold State.latchAlarm
  dsimp only
  split_ifs <;> rfl

theorem State.noteEvent_hostMem (m : Nat) (d : Byte) : (s.noteEvent m d).hostMem = s.hostMem := by
  have kept := s.event_hostMem m d 0 (some 0)
  unfold State.noteEvent
  dsimp only
  split
  · exact kept
  · split_ifs <;> exact (State.latchAlarm_hostMem _ (s.event m d 0 (some 0)).1.tamper.rung _).trans kept

theorem State.activeOutput_hostMem (k : Nat) : (s.activeOutput k).2.hostMem = s.hostMem := by
  unfold State.activeOutput State.claspGate
  dsimp only
  split_ifs
  · rfl
  · exact State.noteEvent_hostMem ..

theorem State.setActive_hostMem (c : Crown) : (s.setActive c).hostMem = s.hostMem := by
  unfold State.setActive
  split_ifs <;> rfl

theorem State.crownTake_hostMem (r seq : Nat) (d : Desc) (got : Got) :
    (s.crownTake r seq d got).hostMem = s.hostMem := by
  unfold State.crownTake
  dsimp only
  split_ifs
  · exact (State.setActive_hostMem ..).trans (s.activeOutput_hostMem 0)
  · exact s.activeOutput_hostMem 0

theorem State.crownKeep_hostMem (got : Got) : (s.crownKeep got).hostMem = s.hostMem := by
  unfold State.crownKeep
  split <;> rfl

theorem State.entered_hostMem (o : Op) (p : Post) : (s.entered o p).hostMem = (s.handed o p).hostMem := by
  unfold State.entered
  split_ifs
  · exact State.crownTake_hostMem ..
  · rfl

theorem State.atUnit_hostMem (o : Op) (p : Post) (got : Got) : (s.atUnit o p got).hostMem = (s.handed o p).hostMem := by
  unfold State.atUnit
  dsimp only
  split_ifs
  · exact (State.crownKeep_hostMem ..).trans (s.entered_hostMem o p)
  · exact s.entered_hostMem o p

/-- A post leaves the driver's stores alone in host memory: the descriptor in its slot, and the new P (R92). -/
theorem State.handed_hostMem (o : Op) (p : Post) : (s.handed o p).hostMem = (s.stored o p).hostMem := rfl

end

/-! The counterexample. -/

/-- The header of the image: active vault, no line. -/
def emptyHead : Bytes := leBytes 4 0x4B575649 ++ [1, 1] ++ zeros 122

/-- Its digest, and 16 bytes that the check leaves open. -/
def emptyTail : Bytes := sha384 emptyHead ++ zeros 16

/-- The image under no key, as a vault without one checks it. -/
def emptyImage : Bytes := emptyHead ++ (emptyTail ++ cmac [] (0xFF :: emptyTail))

/-- The import, on ring 0, of the 208 bytes at 0x8000. -/
def importPost : Post where
  ring := 0
  flags := 0
  cls := 0
  tag := 7
  declLen := 208
  body := zeros 16 ++ (leBytes 8 0x8000 ++ leBytes 4 208 ++ zeros 4) ++ zeros 16
  env := {}

/-- A device in service with ring 0 running and an active vault record without an image; clasp 3 has a higher claim than
the active crown's, and host memory is `m`. -/
def discarding (m : Mem) : State where
  start := { stage := 4, facets := [(0, .inService)] }
  fns := [(0, { db := 0x1000 })]
  rings := [(0, { st := .running, sqBase := 0x2000, cqBase := 0x3000 })]
  life := { current := .test }
  keys := { custody := .ready, domainKey := some (zeros 32) }
  nvm := { recalling := false, ready := true }
  vault := { st := .none, record := { vstate := 1, openEpoch := 1 } }
  crowns := { clasps := List.replicate 3 {} ++ [{ claimHi := 5 }] }
  hostMem := m

/-- The state in which the import begins. -/
def importing (m : Mem) : State := (discarding m).atUnit .vaultImport importPost ([⟨0x8000, 208, none⟩], [], [])

theorem length_emptyHead : emptyHead.length = 128 := by
  simp [emptyHead, length_leBytes, zeros]

theorem length_sha384_emptyHead : (sha384 emptyHead).length = 48 := by decide +kernel

theorem length_emptyTail : emptyTail.length = 64 := by
  rw [emptyTail, List.length_append, length_sha384_emptyHead]
  rfl

theorem length_emptyImage : emptyImage.length = 208 := by
  rw [emptyImage, List.length_append, List.length_append, length_emptyTail, length_cmac]
  rfl

theorem checkImage_emptyImage : checkImage [] [] emptyImage = some ([], []) :=
  checkImage_empty length_emptyHead (by decide) (by decide) length_emptyTail (List.take_left' length_sha384_emptyHead)

/-- Bytes written to an empty memory are read back. -/
theorem readN_memWrite {a : Nat} {b : Bytes} (inside : a + b.length ≤ 2 ^ 64) {o n : Nat} (room : o + n ≤ b.length) :
    (memWrite [] a b).readN (a + o) n = slice b o n := by
  rw [memWrite, List.take_of_length_le (by omega), Mem.readN, slice]
  refine List.map_congr_left fun k mem => ?_
  rw [Nat.add_assoc, Mem.read_writeN_inside rfl (by have := List.mem_range.1 mem; omega)]
  rfl

/-- Host memory that holds the image at 0x8000. -/
def emptyImageMem : Mem := memWrite [] 0x8000 emptyImage

section
variable (m : Mem)

/-- The driver's stores lie below the image. -/
theorem read_importing {c : Nat} (canonical : Memory.wf m = true) (above : 0x8000 ≤ c) :
    (importing m).hostMem.read c = m.read c := by
  have slot : ((discarding m).hostP 0).toNat % 64 < 64 := Nat.mod_lt _ (by decide)
  rw [importing, State.atUnit_hostMem, State.handed_hostMem]
  change (memWrite (memWrite m (0x2000 + 64 * (((discarding m).hostP 0).toNat % 64)) (encodeDesc _)) 0x1000
    (leBytes 4 _)).read c = m.read c
  rw [read_memWrite_outside (wf_memWrite canonical) (by rw [length_leBytes]; omega),
    read_memWrite_outside canonical (by rw [length_encodeDesc]; omega)]

theorem starts_importing : (discarding emptyImageMem).Starts .vaultImport importPost ([⟨0x8000, 208, none⟩], [], []) :=
  ⟨by decide +kernel, by decide +kernel, by decide +kernel, by decide +kernel, rfl⟩

theorem vaultRefuse_importing : vaultRefuse (importing m) (postDesc .vaultImport importPost) = none := rfl

theorem activeOutput_importing : ((importing m).activeOutput 3).1 = false := rfl

theorem leapOf_importing (e : Nat) : leapOf (importing m) e = 0 := by
  have record : (importing m).vault.record = { vstate := 1, openEpoch := 1 } := rfl
  simp [leapOf, record]

theorem gather_importing {n : Nat} (some_ : 0 < n) (low : n ≤ 208) :
    (importing emptyImageMem).gather {} [⟨0x8000, 208, none⟩] 0 0 n = .ok (slice emptyImage 0 n) := by
  have size := length_emptyImage
  have kept : (importing emptyImageMem).hostMem.readN 0x8000 n = emptyImageMem.readN 0x8000 n :=
    List.map_congr_left fun k _ => read_importing _ (wf_memWrite rfl) (Nat.le_add_right ..)
  have fetch : (importing emptyImageMem).hostFetch {} 0x8000 n = .ok (slice emptyImage 0 n) := by
    rw [State.hostFetch, readFault, if_neg (by omega), if_neg (by omega)]
    exact congrArg Except.ok (kept.trans (readN_memWrite (a := 0x8000) (o := 0) (by omega) (by omega)))
  have whole : min n (0 + 208 - 0) = n := by omega
  rw [State.gather, if_neg (by simp; omega)]
  dsimp only
  rw [whole, Nat.sub_self, Nat.add_zero, fetch]
  simp [State.gather]

theorem importHeader_importing :
    importHeader (importing m) (postDesc .vaultImport importPost) emptyHead = none := by
  have record : (importing m).vault.record = { vstate := 1, openEpoch := 1 } := rfl
  have own : ¬ (leField emptyHead 0 4 ≠ 0x4B575649 ∨ leField emptyHead 4 1 ≠ 1 ∨
      ¬ (leField emptyHead 5 1 = 1 ∨ leField emptyHead 5 1 = 3) ∨ !allZero (slice emptyHead 40 24) ∨
      (leField emptyHead 5 1 = 1 ∧ (leField emptyHead 7 1 ≠ 0 ∨ leField emptyHead 32 8 ≠ 0)) ∨
      leField emptyHead 16 4 ≠ 0 ∨
      (postDesc .vaultImport importPost).declLen.toNat ≠ 208 + 72 * leField emptyHead 24 8) := by decide
  rw [importHeader, if_neg own, if_pos (by decide), record]
  decide

end

theorem fit_emptyHead : fit 128 (slice emptyImage 0 128) = emptyHead := by
  rw [fit_of_length (length_slice ..), emptyImage, slice_append_left length_emptyHead.ge, ← length_emptyHead, slice_full]

/-- The import is stuck at clasp 3: the vault stays as it was. -/
theorem exec_discarding : exec (.vaultImport importPost) (discarding emptyImageMem) = .next
    ((importing emptyImageMem).activeOutput 3).2.entryStuck.onward := by
  refine exec_starts (x := (.vaultImport, .vaultImport)) (u := importing emptyImageMem) (by simp [posts])
    starts_importing rfl ?_
  have whole : slice emptyImage 0 208 = emptyImage := by
    rw [← length_emptyImage, slice_full]
  exact (startOp_vaultImport (vaultRefuse_importing _)).trans
    (vaultImport_discarded rfl (gather_importing (by decide) (by decide)) (by rw [fit_emptyHead, importHeader_importing])
      ((gather_importing (by decide) (by decide)).trans (congrArg _ whole)) checkImage_emptyImage
      (activeOutput_importing _))

/-- Refutes O18: the root of a verified image is written through clasp 3 (R411), which the import clause leaves out; where
that clasp has a higher claim the entry is stuck and the vault is not loaded. -/
theorem not_vaultCrownWork : ¬ Obligations.VaultCrownWork := by
  unfold Obligations.VaultCrownWork
  rintro ⟨-, -, -, imports, -⟩
  have whole : slice emptyImage 0 208 = emptyImage := by
    rw [← length_emptyImage, slice_full]
  have claimed := imports (discarding emptyImageMem) importPost ([⟨0x8000, 208, none⟩], [], []) (importing emptyImageMem)
    (postDesc .vaultImport importPost) (slice emptyImage 0 128) emptyImage _ _ starts_importing rfl rfl
    (vaultRefuse_importing _) rfl (gather_importing (by decide) (by decide))
    (by rw [fit_emptyHead, importHeader_importing]) ((gather_importing (by decide) (by decide)).trans (congrArg _ whole))
    (by rw [emptyImage, leField, slice_append_left (by rw [length_emptyHead]; decide)]; decide) (leapOf_importing _) rfl rfl
  rw [exec_discarding] at claimed
  have images : checkImage ((importing emptyImageMem).vault.vek.getD []) ((importing emptyImageMem).vault.vmk.getD [])
    emptyImage = some ([], []) := checkImage_emptyImage
  rw [images] at claimed
  have vaults := congrArg (fun t => t.vault.st) (Host.Outcome.next.inj claimed)
  revert vaults
  decide +kernel

end Sys2Proof.Machine
end
